-- ==== Sys2Proof/Word.lean ====
section
/-! DEFINITION. Word.lean: the words of the Svetvel CV480 (registers, lane masks, bytes) and their plainest arithmetic. -/

namespace Sys2Proof

/-- One byte of memory. -/
abbrev Byte := BitVec 8

/-- One lane of a vector register (R43): 32 bits. -/
abbrev Word := BitVec 32

/-- One scalar register (R43), one special register, one PC (R265): 64 bits. -/
abbrev Dword := BitVec 64

/-- A set of lanes of one group: bit L stands for lane L (R221, Table 19-4). -/
abbrev Mask := BitVec 64

/-- Lane `L` is in the mask. -/
def Mask.has (m : Mask) (L : Nat) : Bool := m.getLsbD L

/-- The mask of lane `L` alone. -/
def Mask.bit (L : Nat) : Mask := BitVec.twoPow 64 L

/-- The mask of the lanes below `w`. -/
def Mask.below (w : Nat) : Mask := BitVec.ofNat 64 (2 ^ w - 1)

/-- The lanes of a mask in ascending order. -/
def Mask.lanes (m : Mask) : List Nat := (List.range 64).filter m.getLsbD

/-- The lowest lane of a mask, when it has one. -/
def Mask.low? (m : Mask) : Option Nat := (List.range 64).find? m.getLsbD

/-- How many lanes a mask holds. -/
def Mask.count (m : Mask) : Nat := m.lanes.length

/-- The lanes of `ls` as a mask. -/
def Mask.ofLanes (ls : List Nat) : Mask := ls.foldl (fun m L => m ||| Mask.bit L) 0

/-- Bits `hi` to `lo` of a natural number, moved down to bit 0. -/
def bitsOf (n hi lo : Nat) : Nat := (n >>> lo) % 2 ^ (hi + 1 - lo)

end Sys2Proof
end

