-- ==== Sys2Proof/Syntax.lean ====
section
/-! DEFINITION. Syntax.lean: the instructions and the events of the CV480, one constructor of `Instr` per row of
spec/opcode_table.json. The first 130 rows are instructions (22_encoding.md and chapters 23 to 26); the other 124 are the
device's own steps and what outside parties do (95_what_each_step_holds.md), which have no instruction word. -/

namespace Sys2Proof

/-- The types of Table 22-4 (R273). -/
inductive Ty where
  | b32 | s8 | s16 | s32 | s64 | n8 | n16 | n32 | n64 | b64
  | fp64 | fp32 | fp16 | bf16 | e5m2 | e4m3 | e3m2 | e2m3 | e2m1 | cb4
  | mxe4m3 | mxe5m2 | mxe3m2 | mxe2m3 | mxe2m1 | mxs8 | prd | ref
deriving DecidableEq, Repr, Inhabited

/-- The special registers of Table 22-7 (R277), class 011. -/
inductive SReg where
  | laneid | grpid | teamx | teamy | teamz | thrx | thry | thrz | grpw | nteamx | nteamy | nteamz
  | core | clus | vdie | place | fpctl | fpflg | mxflg | tcause | tpc | taddr | tmask | thand
  | clkgnt | clkevt | clkreq | qwin | sensev | rstrt | timel | timeh | scopemd | arena
deriving DecidableEq, Repr, Inhabited

/-- One operand field (R271, Table 22-5): its class and its index. Class 111 is no operand. -/
inductive Opd where
  | vec (n : Fin 256)     -- class 000
  | scl (n : Fin 512)     -- class 001
  | prd (n : Fin 16)      -- class 010
  | kreg (n : Fin 64)     -- class 100, kind 000
  | creg (n : Fin 16)     -- class 100, kind 001
  | qreg (n : Fin 32)     -- class 100, kind 010
  | breg (n : Fin 16)     -- class 100, kind 011
  | zreg (n : Fin 8)      -- class 100, kind 100
  | sreg (r : SReg)       -- class 011
  | imm (i : BitVec 9)    -- class 101, two's complement
  | none                  -- class 110
deriving DecidableEq, Repr, Inhabited

/-- One guard term (R269): a predicate and its negate bit. -/
structure GuardTerm where
  neg : Bool
  p   : Fin 16
deriving DecidableEq, Repr, Inhabited

/-- What every instruction word holds beside its own fields (R269): the guard and the region-head bit. -/
structure Ctl where
  ga  : GuardTerm
  gb  : GuardTerm
  gc  : Bool        -- false: AND, true: OR
  hd  : Bool
deriving DecidableEq, Repr, Inhabited

/-- Rounding modes (R94, Table 7-5). -/
inductive Rnd where
  | dyn | rne | rz | rd | ru | rna | sr
deriving DecidableEq, Repr, Inhabited

/-- Conditions of ICMP and FCMP (R274). -/
inductive Cond where
  | eq | ne | lt | le | gt | ge | ord | unord
deriving DecidableEq, Repr, Inhabited

/-- Operations of ATOM (Table 23-3); LRED and LSCN use them but for exch and incw (Table 25-5). -/
inductive RedOp where
  | add | min | max | and | or | xor | exch | incw | fadd | fmin | fmax
deriving DecidableEq, Repr, Inhabited

/-- Ordering of ATOM (R274). -/
inductive Ordering where
  | relaxed | acquire | release | acqRel
deriving DecidableEq, Repr, Inhabited

/-- Scopes, narrowest first (Table 14-1). -/
inductive Scope where
  | group | core | cluster | die | device | system
deriving DecidableEq, Repr, Inhabited

/-- Kinds of FENCE (Table 14-3). -/
inductive FenceKind where
  | acq | rel | ar | sc
deriving DecidableEq, Repr, Inhabited

/-- Address spaces of per-lane accesses (Table 10-1). -/
inductive Space where
  | glob | own | team
deriving DecidableEq, Repr, Inhabited

/-- Modes of LXCH (R353). -/
inductive XchMode where
  | idx | up | dn | xor
deriving DecidableEq, Repr, Inhabited

/-- Modes of LVOTE (R354). -/
inductive VoteMode where
  | any | all | uni | bal
deriving DecidableEq, Repr, Inhabited

/-- Operations of PAND (R377). -/
inductive PredOp where
  | and | or | xor | andn | orn | xnor
deriving DecidableEq, Repr, Inhabited

/-- Packing forms of CVT (R309). -/
inductive Packing where
  | plain | pk | upk
deriving DecidableEq, Repr, Inhabited

/-- A physical core: die, cluster on the die, core in the cluster (R8, Table 0-1). -/
structure CoreId where
  die     : Nat
  cluster : Nat
  core    : Nat
deriving DecidableEq, Repr, Inhabited

/-- A team: its partition, its grid number (R197) and its linear team index (R196). -/
structure TeamKey where
  part : Nat
  grid : Nat
  idx  : Nat
deriving DecidableEq, Repr, Inhabited

/-- A group of a team, by GRPID (R23). -/
structure GroupKey where
  team : TeamKey
  grp  : Nat
deriving DecidableEq, Repr, Inhabited

/-- Sensor types (Table 5-1). -/
inductive SensorType where
  | strike | droop | clock
deriving DecidableEq, Repr, Inhabited

/-- Clock domains, with the codes of Table 17-3. -/
inductive Domain where
  | math | vec | net | mem
deriving DecidableEq, Repr, Inhabited

/-- What a host port trained as (R236). -/
inductive LinkProto where
  | pcie | cxl
deriving DecidableEq, Repr, Inhabited

/-- Where a mailbox request comes from: the mailbox of a die in the PF's BAR0 (R245), or the partition mailbox of a VF
(R248). -/
inductive MboxSource where
  | die (d : Nat)
  | vf (part : Nat)
deriving DecidableEq, Repr, Inhabited

/-- One mailbox request (R245): the ENDPOINT, OPCODE, LEN and SEQ of its header, and its body bytes. -/
structure Mbox where
  src  : MboxSource
  ep   : Nat
  op   : Nat
  len  : Nat
  seq  : Dword
  body : List Byte
deriving DecidableEq, Repr, Inhabited

/-- An upset that SECDED or link retry meets (R76, R78): an uncorrectable one outside quarantine is a machine check of some partitions; a
single-bit error is corrected and counted; a double-bit error poisons the word that holds it, in memory, or in an array of a core. -/
inductive Upset where
  | check (parts : List Nat)
  | corrected (die : Nat)
  | memory (addr : Nat)
  | scratchpad (t : TeamKey) (rank addr : Nat)
  | operandBuffer (t : TeamKey) (rank addr : Nat)
  | vector (g : GroupKey) (reg pair : Nat)
  | scalar (g : GroupKey) (reg : Nat)
  | accumulator (t : TeamKey) (rank z row pair : Nat)
  | predicate (g : GroupKey) (reg : Nat)
  | quarantine (g : GroupKey) (seq word : Nat)
deriving DecidableEq, Repr, Inhabited

/-- A rank's part of a collective as it comes to the others (R303, R307): its OP, TY, ROOT and COUNT, and what its SRC holds. -/
structure CollPart where
  op    : Nat
  ty    : Nat
  root  : Nat
  count : Nat
  data  : List Byte
  seq   : Nat
deriving DecidableEq, Repr, Inhabited

/-- What reaches an I/O die: a PCIe write, read or AtomicOp, or the host's own read or write of a line through CXL.mem (R236). -/
inductive PeerKind where
  | write | read | atomic | cxlRead | cxlWrite
deriving DecidableEq, Repr, Inhabited

/-- One request that reaches an I/O die (R161, R188, R201, R236, R238). -/
structure PeerReq where
  iod    : Nat
  req    : Nat            -- requester ID
  tc     : Nat            -- traffic class
  kind   : PeerKind
  addr   : Nat            -- physical address in device memory, or offset in a BAR
  len    : Nat            -- bytes read; a write moves `data`
  data   : List Byte
deriving DecidableEq, Repr, Inhabited

/-- Whose window a register write comes to (R238): the port and the VF of the window, and the requester ID of the writer. -/
structure VfAccess where
  port   : Nat
  vf     : Nat
  req    : Nat
deriving DecidableEq, Repr, Inhabited

/-- The 64-byte header of a Wharf message (Table 20-4). `reserved` is the OR of every reserved byte. -/
structure WharfHeader where
  len      : Nat
  seq      : Nat
  tag      : Nat
  kind     : Nat
  srcDev   : Nat
  dstDev   : Nat
  srcPart  : Nat
  dstPart  : Nat
  reserved : Nat
deriving DecidableEq, Repr, Inhabited

/-- Every row of the operation table. Instruction rows carry `c : Ctl` and their own fields; operands stand in the order
OD, OA, OB, OC, OE as the entry of the row names them. Event rows carry what the event names. -/
inductive Instr where
  -- control flow (chapters 23 to 26)
  | nop (c : Ctl)
  | jmp (c : Ctl) (tslot : BitVec 3) (off : BitVec 32)
  | jmpx (c : Ctl) (a : Opd)
  | call (c : Ctl) (d : Opd) (tslot : BitVec 3) (off : BitVec 32)
  | callx (c : Ctl) (d a : Opd)
  | ret (c : Ctl) (a : Opd)
  | exit (c : Ctl)
  | cede (c : Ctl)
  | dbrk (c : Ctl) (imm : BitVec 32)
  | trap (c : Ctl) (imm : BitVec 32)
  | tret (c : Ctl)
  | holdw (c : Ctl) (sp : Space) (hint : BitVec 3) (ty : Ty) (d a b cmp e : Opd)
  -- integer, bit and move
  | iadd (c : Ctl) (sat : Bool) (ty : Ty) (d a b : Opd)
  | isub (c : Ctl) (sat : Bool) (ty : Ty) (d a b : Opd)
  | imul (c : Ctl) (ty : Ty) (d a b : Opd)
  | imulh (c : Ctl) (ty : Ty) (d a b : Opd)
  | imad (c : Ctl) (ty : Ty) (d a b e : Opd)
  | imin (c : Ctl) (ty : Ty) (d a b : Opd)
  | imax (c : Ctl) (ty : Ty) (d a b : Opd)
  | iabs (c : Ctl) (sat : Bool) (ty : Ty) (d a : Opd)
  | ineg (c : Ctl) (sat : Bool) (ty : Ty) (d a : Opd)
  | and (c : Ctl) (ty : Ty) (d a b : Opd)
  | or (c : Ctl) (ty : Ty) (d a b : Opd)
  | xor (c : Ctl) (ty : Ty) (d a b : Opd)
  | not (c : Ctl) (ty : Ty) (d a : Opd)
  | shl (c : Ctl) (ty : Ty) (d a b : Opd)
  | shr (c : Ctl) (ty : Ty) (d a b : Opd)
  | sar (c : Ctl) (ty : Ty) (d a b : Opd)
  | rot (c : Ctl) (ty : Ty) (d a b : Opd)
  | bxt (c : Ctl) (ty : Ty) (d a pos len : Opd)
  | bins (c : Ctl) (ty : Ty) (d a b pos len : Opd)
  | bcnt (c : Ctl) (ty : Ty) (d a : Opd)
  | lzc (c : Ctl) (ty : Ty) (d a : Opd)
  | tzc (c : Ctl) (ty : Ty) (d a : Opd)
  | brvs (c : Ctl) (ty : Ty) (d a : Opd)
  | ixa (c : Ctl) (ty : Ty) (d a b sh : Opd)
  | icmp (c : Ctl) (cond : Cond) (ty : Ty) (d a b : Opd)
  | sel (c : Ctl) (ty : Ty) (d p a b : Opd)
  | mov (c : Ctl) (ty : Ty) (d a : Opd)
  | movi (c : Ctl) (ty : Ty) (d : Opd) (imm : BitVec 32)
  | movh (c : Ctl) (d : Opd) (imm : BitVec 32)
  | bperm (c : Ctl) (d a b sel : Opd)
  | pand (c : Ctl) (op : PredOp) (d a b : Opd)
  | cvt (c : Ctl) (rnd : Rnd) (sat : Bool) (pack : Packing) (dty sty : Ty) (d a n : Opd)
  -- floating point
  | fadd (c : Ctl) (rnd : Rnd) (ty : Ty) (d a b : Opd)
  | fsub (c : Ctl) (rnd : Rnd) (ty : Ty) (d a b : Opd)
  | fmul (c : Ctl) (rnd : Rnd) (ty : Ty) (d a b : Opd)
  | ffma (c : Ctl) (rnd : Rnd) (ty : Ty) (d a b e : Opd)
  | fmin (c : Ctl) (ty : Ty) (d a b : Opd)
  | fmax (c : Ctl) (ty : Ty) (d a b : Opd)
  | fcmp (c : Ctl) (cond : Cond) (ty : Ty) (d a b : Opd)
  | fclass (c : Ctl) (ty : Ty) (d a : Opd)
  | frnd (c : Ctl) (x : Bool) (rnd : Rnd) (ty : Ty) (d a : Opd)
  | fscl (c : Ctl) (rnd : Rnd) (ty : Ty) (d a n : Opd)
  | frcp (c : Ctl) (rnd : Rnd) (ty : Ty) (d a : Opd)
  | frsq (c : Ctl) (rnd : Rnd) (ty : Ty) (d a : Opd)
  | fsqrt (c : Ctl) (rnd : Rnd) (ty : Ty) (d a : Opd)
  | fex2 (c : Ctl) (rnd : Rnd) (ty : Ty) (d a : Opd)
  | flg2 (c : Ctl) (rnd : Rnd) (ty : Ty) (d a : Opd)
  | fsin (c : Ctl) (rnd : Rnd) (ty : Ty) (d a : Opd)
  | fcos (c : Ctl) (rnd : Rnd) (ty : Ty) (d a : Opd)
  | ftnh (c : Ctl) (rnd : Rnd) (ty : Ty) (d a : Opd)
  -- block-scaled forms and codebooks
  | mxadd (c : Ctl) (rnd : Rnd) (ty : Ty) (d a b : Opd)
  | mxmul (c : Ctl) (rnd : Rnd) (ty : Ty) (d a b : Opd)
  | mxfma (c : Ctl) (rnd : Rnd) (ty : Ty) (d a b e : Opd)
  | mxnorm (c : Ctl) (rnd : Rnd) (ty : Ty) (d a : Opd)
  | mxpack (c : Ctl) (rnd : Rnd) (ty : Ty) (d a : Opd)
  | mxunpk (c : Ctl) (rnd : Rnd) (ty : Ty) (d a n : Opd)
  | scmovGet (c : Ctl) (d a : Opd)
  | scmovPut (c : Ctl) (d a : Opd)
  | cbld (c : Ctl) (slot addr : Opd)
  | cbxp (c : Ctl) (ty : Ty) (d a slot q : Opd)
  -- lane instructions
  | lxch (c : Ctl) (mode : XchMode) (ty : Ty) (d a b : Opd)
  | lvote (c : Ctl) (mode : VoteMode) (d a : Opd)
  | lred (c : Ctl) (op : RedOp) (ty : Ty) (d a : Opd)
  | lscn (c : Ctl) (ex : Bool) (op : RedOp) (ty : Ty) (d a : Opd)
  | getl (c : Ctl) (ty : Ty) (d a n : Opd)
  | putl (c : Ctl) (ty : Ty) (d a n : Opd)
  -- memory
  | ld (c : Ctl) (sp : Space) (hint : BitVec 3) (ty : Ty) (d t1 t2 t3 : Opd)
  | st (c : Ctl) (sp : Space) (hint : BitVec 3) (ty : Ty) (v t1 t2 t3 : Opd)
  | pref (c : Ctl) (sp : Space) (hint : BitVec 3) (ty : Ty) (t1 t2 t3 : Opd)
  | llock (c : Ctl) (sp : Space) (t1 t2 : Opd)
  | lunlk (c : Ctl) (sp : Space) (t1 t2 : Opd)
  | atom (c : Ctl) (op : RedOp) (ord : Ordering) (scope : Scope) (sp : Space) (ty : Ty) (d a b opnd : Opd)
  | acas (c : Ctl) (scope : Scope) (sp : Space) (ty : Ty) (d a b cmp : Opd)
  | ldacq (c : Ctl) (sp : Space) (scope : Scope) (ty : Ty) (d t1 t2 t3 : Opd)
  | strel (c : Ctl) (sp : Space) (scope : Scope) (ty : Ty) (v t1 t2 t3 : Opd)
  | fence (c : Ctl) (kind : FenceKind) (scope : Scope)
  | xfence (c : Ctl) (src dst : Fin 6) (scope : Scope)
  | stref (c : Ctl) (sp : Space) (hint : BitVec 3) (v t1 t2 t3 : Opd)
  | ldref (c : Ctl) (sp : Space) (hint : BitVec 3) (d t1 t2 t3 pt : Opd)
  | pub (c : Ctl) (scope : Scope) (v t1 t2 : Opd)
  | objinit (c : Ctl) (a len : Opd)
  -- shape records and engine commands
  | kld (c : Ctl) (k addr : Opd)
  | kset (c : Ctl) (k sel v : Opd)
  | tld (c : Ctl) (hint : BitVec 3) (k tgt coord : Opd)
  | tst (c : Ctl) (hint : BitVec 3) (k tgt coord : Opd)
  | gath (c : Ctl) (hint : BitVec 3) (k tgt coord list : Opd)
  | scat (c : Ctl) (hint : BitVec 3) (k tgt coord list : Opd)
  | coll (c : Ctl) (d desc : Opd)
  -- circular buffers
  | qcfg (c : Ctl) (q desc : Opd)
  | qacq (c : Ctl) (d q n : Opd)
  | qcommit (c : Ctl) (q n : Opd)
  | qwait (c : Ctl) (d q n : Opd)
  | qfree (c : Ctl) (q n : Opd)
  -- matrix engine
  | brsv (c : Ctl) (b sa sb : Opd)
  | bfree (c : Ctl) (b : Opd)
  | cvset (c : Ctl) (cr : Opd) (imm : BitVec 32)
  | tmac (c : Ctl) (n : Bool) (ty : Ty) (z bq vb cr p : Opd)
  | zclr (c : Ctl) (z : Opd)
  | zmovToVector (c : Ctl) (ty : Ty) (d z pos : Opd)
  | zmovToTile (c : Ctl) (ty : Ty) (v z pos : Opd)
  | zcpyToScratchpad (c : Ctl) (ty : Ty) (addr z rows : Opd)
  | zcpyToTile (c : Ctl) (ty : Ty) (addr z rows : Opd)
  | zprom (c : Ctl) (z : Opd)
  -- synchronisation and the front end
  | gsync (c : Ctl)
  | barinit (c : Ctl) (id count : Opd)
  | bararv (c : Ctl) (id : Opd)
  | barwt (c : Ctl) (id : Opd)
  | barsync (c : Ctl) (id : Opd)
  | wqenq (c : Ctl) (p booth first : Opd)
  | wqdeq (c : Ctl) (p booth first : Opd)
  | schnxt (c : Ctl) (p d : Opd)
  | launch (c : Ctl) (p booth blk : Opd)
  | narm (c : Ctl) (p tag blk : Opd)
  | nsend (c : Ctl) (d first : Opd)
  -- special registers
  | getsr (c : Ctl) (ty : Ty) (d : Opd) (r : SReg)
  | setsr (c : Ctl) (r : SReg) (a : Opd)
  | vdhop (c : Ctl) (d a b : Opd)
  | clkq (c : Ctl) (d dom : Opd)
  -- events of a group and its core
  | fetchDecision (g : GroupKey)
  | guardTurn (g : GroupKey)
  | translationProbe (g : GroupKey)
  | executeComplete (g : GroupKey) (seq : Nat)
  | retire (g : GroupKey)
  | branchRecovery (g : GroupKey) (seq : Nat)
  | trapDelivery (g : GroupKey)
  | checkpointVerify (g : GroupKey)
  | effectRelease (g : GroupKey)
  | engineResume (g : GroupKey) (seq : Nat)
  | heldEffectArrival (g : GroupKey) (seq : Nat)
  | squashMessage (g : GroupKey) (seq : Nat)
  | sensorRestart (cores : List CoreId) (ty : SensorType)
  | droopRecoveryInterval (die : Nat)
  | holdwWake (g : GroupKey)
  | cedeExpiry (g : GroupKey)
  | groupRetire (g : GroupKey)
  | matrixOperationIssue (t : TeamKey) (rank : Nat)
  | matrixOperationComplete (t : TeamKey) (rank : Nat)
  | reservationInvalidate (t : TeamKey) (rank b : Nat)
  -- coherence
  | ownershipGrant (core : CoreId) (line : Nat)
  | homeRequest (core : CoreId) (line : Nat)
  | coherenceProbe (core : CoreId) (line : Nat)
  | invalidationAck (core : CoreId) (line : Nat)
  | loadReturn (g : GroupKey) (seq : Nat)
  | stampSweep (die slice : Nat)
  | bankSleep (die slice : Nat)
  | bankWake (die slice : Nat)
  | linkDown (link : Nat)
  | machineCheck (u : Upset)
  | widenAnswer (line : Nat) (die cluster : Nat)
  | narrowReleaseComplete (die cluster gen : Nat)
  | droverWalkResume (g : GroupKey)
  | migrationComplete (id : Nat)
  | migrationAbort (id : Nat)
  | hostTlbInvalidate (pasid : Nat) (va size : Nat)
  | tlbSyncAnswer (id : Nat)
  -- front end and harbourmaster
  | launchCopy (part booth : Nat)
  | dependenceEvaluation (part : Nat)
  | priorityAging (part booth : Nat)
  | teamPlace (part grid : Nat) (cores : List CoreId)
  | completionAction (part grid : Nat)
  | gangReserve (part booth : Nat)
  | gangReserveTimeout
  | gangRetry (part booth : Nat)
  | leaseRenew
  | leaseLapse (healthy : List Nat)
  | grantTakeEffect (die : Nat) (cluster : Nat) (dom : Domain)
  | loadstepAssert (die : Nat)
  | loadstepLeadExpiry (die : Nat) (ldack : Bool)
  | ldackAssert (die : Nat)
  | preemptSave (t : TeamKey)
  | fatalReset (part : Nat)
  | partitionReady (part : Nat)
  -- host windows and fabric
  | dmaTransferStart (part queue : Nat)
  | dmaChunkRelease (part queue : Nat)
  | dmaComplete (part queue : Nat)
  | coalescingControlWrite (part vec : Nat) (val : Dword)
  | msixTimerExpiry (part vec : Nat)
  | wharfAbortReceive (h : WharfHeader) (comm seq : Nat)
  | wharfAck (part dst seq : Nat)
  | messageAckTimeout (part dst seq : Nat)
  | collComplete (part comm seq : Nat) (blocks : List CollPart)
  | collTimeout (part comm seq : Nat) (lowest : Nat)
  | wharfCredit (part dst : Nat)
  -- endpoint requests (R248 to R250)
  | descWrite (m : Mbox)
  | descRead (m : Mbox)
  | boothWrite (m : Mbox)
  | gangMask (m : Mbox)
  | ctxCreate (m : Mbox)
  | ctxDestroy (m : Mbox)
  | gridList (m : Mbox)
  | preemptSpace (m : Mbox)
  | preemptTime (m : Mbox)
  | kill (m : Mbox)
  | reset (m : Mbox)
  | dmaqWrite (m : Mbox)
  | dieMap (m : Mbox)
  | windowInfo (m : Mbox)
  | faultRead (m : Mbox)
  | faultReply (m : Mbox)
  | invalidate (m : Mbox)
  | migrate (m : Mbox)
  | publishReset (m : Mbox)
  | streamWindow (m : Mbox)
  | commWrite (m : Mbox)
  | landingRing (m : Mbox)
  | budget (m : Mbox)
  | cap (m : Mbox)
  | powerTable (m : Mbox)
  | grants (m : Mbox)
  | reserve (m : Mbox)
  | alarmRead (m : Mbox)
  | imageLoad (m : Mbox)
  | svnCommit (m : Mbox)
  | nonce (m : Mbox)
  | debugUnlock (m : Mbox)
  | provision (m : Mbox)
  | keyAssign (m : Mbox)
  | attach (m : Mbox)
  | detach (m : Mbox)
  | haltList (m : Mbox)
  | haltRead (m : Mbox)
  | resume (m : Mbox)
  | fabricMap (m : Mbox)
  | logRead (m : Mbox)
  | counters (m : Mbox)
  -- from outside the device
  | vfReset (port vf : Nat)
  | tamperMeshBreach (iod : Nat)
  | supplyGlitch (iod : Nat)
  | clockGlitch (iod : Nat)
  | ideIntegrityFailure (port stream : Nat)
  | ideKeyProgram (port stream : Nat) (key : List Byte)
  | spdmRequest (port fn : Nat) (nonce : List Byte)
  | linkTrain (port : Nat) (proto : LinkProto) (width : Nat) (gts : Nat)
  | packageReset
  | boothEnq (part booth : Nat) (req : Nat) (aligned : Bool) (data : List Byte)
  | dmaDescriptorSubmit (part queue : Nat) (req : Nat) (aligned : Bool) (data : List Byte)
  | iodSensorEvent (iod : Nat)
  | streamWrite (w : PeerReq)
  | wharfMessageReceive (h : WharfHeader) (payload : List Byte)
  | registerWrite (to_ : VfAccess) (offset : Nat) (data : List Byte)
  | peerAccess (w : PeerReq)
  | linkRetry (link : Nat)
deriving DecidableEq, Repr, Inhabited

end Sys2Proof
end

