-- ==== Sys2Proof/WellFormed.lean ====
section
/-! DEFINITION. WellFormed.lean: what an instruction's own fields must satisfy (R271 to R275 and the entries of chapters 23
to 26). A word whose fields break it is trap 0x02 at decode (R278). Limits that depend on the group, its declared counts
(R27), are judged when the instruction is served: `Instr.regs` lists the registers they apply to. -/

namespace Sys2Proof

/-- Width of a type in bits (Tables 7-1 and 22-4); an MX type and CB4 have the width of one element. -/
def Ty.bits : Ty → Nat
  | .b32 | .s32 | .n32 | .fp32 => 32
  | .s8 | .n8 | .e5m2 | .e4m3 | .mxe4m3 | .mxe5m2 | .mxs8 => 8
  | .s16 | .n16 | .fp16 | .bf16 => 16
  | .s64 | .n64 | .b64 | .fp64 | .ref => 64
  | .e3m2 | .e2m3 | .mxe3m2 | .mxe2m3 => 6
  | .e2m1 | .cb4 | .mxe2m1 => 4
  | .prd => 64

/-- The type takes an even/odd pair of vector registers (R84). -/
def Ty.wide (t : Ty) : Bool := t.bits == 64

/-- Elements per packed lane word (Table 7-2). -/
def Ty.per (t : Ty) : Nat :=
  match t.bits with
  | 16 => 2
  | 8 => 4
  | 6 => 4
  | 4 => 8
  | _ => 1

/-- Signed integer types. -/
def Ty.isS : Ty → Bool
  | .s8 | .s16 | .s32 | .s64 => true
  | _ => false

/-- Unsigned integer types. -/
def Ty.isN : Ty → Bool
  | .n8 | .n16 | .n32 | .n64 => true
  | _ => false

/-- Integer types. -/
def Ty.isInt (t : Ty) : Bool := t.isS || t.isN

/-- B32 and B64. -/
def Ty.isB : Ty → Bool
  | .b32 | .b64 => true
  | _ => false

/-- FP64, FP32, FP16 and BF16: the types of the float instructions (Table 24-2). -/
def Ty.isF : Ty → Bool
  | .fp64 | .fp32 | .fp16 | .bf16 => true
  | _ => false

/-- The narrow float types of Table 7-1. -/
def Ty.isNarrow : Ty → Bool
  | .e5m2 | .e4m3 | .e3m2 | .e2m3 | .e2m1 => true
  | _ => false

/-- The MX types. -/
def Ty.isMx : Ty → Bool
  | .mxe4m3 | .mxe5m2 | .mxe3m2 | .mxe2m3 | .mxe2m1 | .mxs8 => true
  | _ => false

/-- S32, N32, S64 and N64. -/
def Ty.isW4 : Ty → Bool
  | .s32 | .n32 | .s64 | .n64 => true
  | _ => false

/-- B32, S32, N32, B64, S64 and N64. -/
def Ty.isW6 (t : Ty) : Bool := t.isW4 || t.isB

/-- The types of LDACQ and STREL (R348, Table 26-7). -/
def Ty.isW8 : Ty → Bool
  | .fp32 | .fp64 => true
  | t => t.isW6

/-- The types of Table 25-3. -/
def Ty.isMem : Ty → Bool
  | .s8 | .n8 | .e5m2 | .e4m3 | .s16 | .n16 | .fp16 | .bf16 | .b32 | .s32 | .n32 | .fp32 | .e3m2 | .e2m3 | .e2m1 | .cb4
  | .b64 | .s64 | .n64 | .fp64 => true
  | _ => false

/-- The types of MOVI (R361). -/
def Ty.isMovi : Ty → Bool
  | .b32 | .s32 | .n32 | .fp32 | .s8 | .s16 | .n8 | .n16 | .fp16 | .bf16 | .e5m2 | .e4m3 | .s64 | .b64 | .n64 | .fp64 => true
  | _ => false

/-- The types CVT converts between (R310). -/
def Ty.isCvt (t : Ty) : Bool := t.isF || t.isNarrow || t.isInt

/-- The types of TMAC (Table 8-3). -/
def Ty.isTmac : Ty → Bool
  | .bf16 | .fp16 | .s8 => true
  | t => t.isNarrow || t.isMx

/-- The types of ZMOV and ZCPY (Table 26-9). -/
def Ty.isZ : Ty → Bool
  | .fp32 | .s32 | .b32 => true
  | _ => false

/-- The operand is a vector register. -/
def Opd.isVec : Opd → Bool
  | .vec _ => true
  | _ => false

/-- The operand is a scalar register. -/
def Opd.isScl : Opd → Bool
  | .scl _ => true
  | _ => false

/-- The operand is a special register. -/
def Opd.isSreg : Opd → Bool
  | .sreg _ => true
  | _ => false

/-- The predicates of a guard (R269). -/
def Ctl.guards (c : Ctl) : List Opd := [.prd c.ga.p, .prd c.gb.p]

/-- The operand is a predicate. -/
def Opd.isPrd : Opd → Bool
  | .prd _ => true
  | _ => false

/-- The operand is absent (class 110). -/
def Opd.isNone : Opd → Bool
  | .none => true
  | _ => false

/-- The operand is an immediate within `lo` to `hi`. -/
def Opd.immIn (lo hi : Int) : Opd → Bool
  | .imm i => decide (lo ≤ i.toInt) && decide (i.toInt ≤ hi)
  | _ => false

/-- The operand is any immediate. -/
def Opd.isImm : Opd → Bool
  | .imm _ => true
  | _ => false

/-- A vector register, even where `wide` (R84, R271). -/
def Opd.vecOk (wide : Bool) : Opd → Bool
  | .vec n => !wide || n.val % 2 == 0
  | _ => false

/-- A destination: a vector register, even where `wide`, or a scalar. -/
def Opd.dstOk (wide : Bool) (o : Opd) : Bool := o.isScl || o.vecOk wide

/-- A source: a vector register, even where `wide`, a scalar or an immediate. -/
def Opd.srcOk (wide : Bool) (o : Opd) : Bool := o.isImm || o.isScl || o.vecOk wide

/-- A scalar or an immediate. -/
def Opd.uniOk (o : Opd) : Bool := o.isScl || o.isImm

/-- A scalar destination takes no vector source (R272). -/
def uniformOk (d : Opd) (srcs : List Opd) : Bool := !d.isScl || !srcs.any Opd.isVec

/-- The base term of a memory operand: a scalar, or an even vector pair (R124, R258). -/
def Opd.baseOk (o : Opd) : Bool := o.isScl || o.vecOk true

/-- A further term of a memory operand: a register, an immediate, or none (R258). -/
def Opd.idxOk (o : Opd) : Bool := o.isNone || o.srcOk false

/-- The terms of an address of three fields (R345). -/
def addr3Ok (a b c : Opd) : Bool := a.baseOk && b.idxOk && c.idxOk

/-- FP arithmetic takes neither RNA nor SR (R94, R315). -/
def Rnd.arith : Rnd → Bool
  | .rna | .sr => false
  | _ => true

/-- Formats whose conversions may round stochastically (R94). -/
def Ty.srDst (t : Ty) : Bool :=
  t.isNarrow || t.isMx || match t with | .fp16 | .bf16 => true | _ => false

/-- The types an operation of ATOM admits (Table 23-3). -/
def RedOp.atomTy (op : RedOp) (t : Ty) : Bool :=
  match op with
  | .add | .min | .max => t.isW4
  | .and | .or | .xor => t.isW6
  | .exch => t.isW8
  | .incw => match t with | .n32 | .n64 => true | _ => false
  | .fadd | .fmin | .fmax => match t with | .fp32 | .fp64 => true | _ => false

/-- The types an operation of LRED and LSCN admits (Table 25-5). -/
def RedOp.laneTy (op : RedOp) (t : Ty) : Bool :=
  match op with
  | .add | .min | .max => t.isW4
  | .and | .or | .xor => t.isW6
  | .exch | .incw => false
  | .fadd | .fmin | .fmax => t.isF

/-- IMM of MOVI: the bits above an 8-bit or 16-bit type are that type's extension (R361). -/
def moviImmOk (t : Ty) (i : BitVec 32) : Bool :=
  match t with
  | .s8 => i == (i.setWidth 8).signExtend 32
  | .s16 => i == (i.setWidth 16).signExtend 32
  | .n8 | .e5m2 | .e4m3 => i == (i.setWidth 8).setWidth 32
  | .n16 | .fp16 | .bf16 => i == (i.setWidth 16).setWidth 32
  | _ => true

/-- A box command's target: a q, or a scalar own-scratchpad offset (R323, R387). -/
def Opd.tgtOk : Opd → Bool
  | .qreg _ | .scl _ => true
  | _ => false

/-- A shape register. -/
def Opd.isK : Opd → Bool
  | .kreg _ => true
  | _ => false

/-- A circular buffer. -/
def Opd.isQ : Opd → Bool
  | .qreg _ => true
  | _ => false

/-- A reservation. -/
def Opd.isBr : Opd → Bool
  | .breg _ => true
  | _ => false

/-- A convergence register. -/
def Opd.isCr : Opd → Bool
  | .creg _ => true
  | _ => false

/-- An accumulator tile. -/
def Opd.isZ : Opd → Bool
  | .zreg _ => true
  | _ => false

/-- A register, and the `n - 1` after it, lie within the index range of their class (R271, R401). -/
def Opd.spans (o : Opd) (n : Nat) : Bool :=
  match o with
  | .vec r => decide (r.val + n ≤ 256)
  | .scl r => decide (r.val + n ≤ 512)
  | _ => true

/-- What the entry of each instruction asks of its fields. An event has no fields to judge. -/
def Instr.wf : Instr → Bool
  | .nop _ | .exit _ | .cede _ | .tret _ | .gsync _ | .dbrk _ _ | .trap _ _ => true
  | .jmp _ t _ => decide (t.toNat < 5)
  | .jmpx _ a => a.isScl || a.vecOk true
  | .call _ d t _ => d.vecOk true && decide (t.toNat < 5)
  | .callx _ d a => d.vecOk true && a.vecOk true
  | .ret _ a => a.vecOk true
  | .holdw _ _ _ ty d a b cmp e =>
    ty.isW6 && d.isPrd && a.baseOk && b.idxOk && cmp.srcOk ty.wide && (e.isScl || e.immIn 0 255)
  | .iadd _ _ ty d a b | .isub _ _ ty d a b => ty.isInt && d.dstOk ty.wide && a.srcOk ty.wide && b.srcOk ty.wide && uniformOk d [a, b]
  | .imul _ ty d a b | .imulh _ ty d a b | .imin _ ty d a b | .imax _ ty d a b =>
    ty.isInt && d.dstOk ty.wide && a.srcOk ty.wide && b.srcOk ty.wide && uniformOk d [a, b]
  | .imad _ ty d a b e =>
    ty.isInt && d.dstOk ty.wide && a.srcOk ty.wide && b.srcOk ty.wide && e.srcOk ty.wide && uniformOk d [a, b, e]
  | .iabs _ _ ty d a => ty.isS && d.dstOk ty.wide && a.srcOk ty.wide && uniformOk d [a]
  | .ineg _ sat ty d a => ty.isInt && (!sat || ty.isS) && d.dstOk ty.wide && a.srcOk ty.wide && uniformOk d [a]
  | .and _ ty d a b | .or _ ty d a b | .xor _ ty d a b =>
    ty.isB && d.dstOk ty.wide && a.srcOk ty.wide && b.srcOk ty.wide && uniformOk d [a, b]
  | .not _ ty d a | .bcnt _ ty d a | .lzc _ ty d a | .tzc _ ty d a | .brvs _ ty d a | .mov _ ty d a =>
    ty.isB && d.dstOk ty.wide && a.srcOk ty.wide && uniformOk d [a]
  | .shl _ ty d a b | .shr _ ty d a b | .sar _ ty d a b | .rot _ ty d a b =>
    ty.isB && d.dstOk ty.wide && a.srcOk ty.wide && b.srcOk false && uniformOk d [a, b]
  | .bxt _ ty d a p n => ty.isW4 && d.dstOk ty.wide && a.srcOk ty.wide && p.srcOk false && n.srcOk false && uniformOk d [a, p, n]
  | .bins _ ty d a b p n =>
    ty.isB && d.dstOk ty.wide && a.srcOk ty.wide && b.srcOk ty.wide && p.srcOk false && n.srcOk false && uniformOk d [a, b, p, n]
  | .ixa _ ty d a b sh =>
    (ty.isInt && ty.wide) && d.dstOk true && a.srcOk true && b.srcOk false && sh.immIn 0 7 && uniformOk d [a, b]
  | .icmp _ cond ty d a b =>
    (ty.isInt || ty.isB) && d.isPrd && a.srcOk ty.wide && b.srcOk ty.wide &&
      match cond with
      | .eq | .ne => true
      | .ord | .unord => false
      | _ => !ty.isB
  | .sel _ ty d p a b => ty.isB && d.vecOk ty.wide && p.isPrd && a.srcOk ty.wide && b.srcOk ty.wide
  | .movi _ ty d i => ty.isMovi && d.dstOk ty.wide && moviImmOk ty i
  | .movh _ d _ => d.dstOk true
  | .bperm _ d a b s => d.dstOk false && a.srcOk false && b.srcOk false && s.srcOk false && uniformOk d [a, b, s]
  | .pand _ _ d a b => d.isPrd && a.isPrd && b.isPrd
  | .cvt _ rnd sat form dty sty d a n =>
    dty.isCvt && sty.isCvt && a.srcOk sty.wide && (!sat || (dty.isInt && sty.isInt)) &&
      (!(dty.isInt && sty.isInt) || rnd == .dyn) && (rnd != .sr || dty.srDst) &&
      match form with
      | .plain => d.dstOk dty.wide && uniformOk d [a] && n.isNone
      | .pk => d.vecOk false && decide (1 < dty.per) && n.immIn 0 (dty.per - 1)
      | .upk => d.vecOk dty.wide && decide (1 < sty.per) && n.immIn 0 (sty.per - 1)
  | .fadd _ rnd ty d a b | .fsub _ rnd ty d a b | .fmul _ rnd ty d a b =>
    ty.isF && rnd.arith && d.dstOk ty.wide && a.srcOk ty.wide && b.srcOk ty.wide && uniformOk d [a, b]
  | .ffma _ rnd ty d a b e =>
    ty.isF && rnd.arith && d.dstOk ty.wide && a.srcOk ty.wide && b.srcOk ty.wide && e.srcOk ty.wide && uniformOk d [a, b, e]
  | .fmin _ ty d a b | .fmax _ ty d a b => ty.isF && d.dstOk ty.wide && a.srcOk ty.wide && b.srcOk ty.wide && uniformOk d [a, b]
  | .fcmp _ _ ty d a b => ty.isF && d.isPrd && a.srcOk ty.wide && b.srcOk ty.wide
  | .fclass _ ty d a => ty.isF && d.dstOk ty.wide && a.srcOk ty.wide && uniformOk d [a]
  | .frnd _ _ rnd ty d a | .frcp _ rnd ty d a | .frsq _ rnd ty d a | .fsqrt _ rnd ty d a =>
    ty.isF && rnd.arith && d.dstOk ty.wide && a.srcOk ty.wide && uniformOk d [a]
  | .fscl _ rnd ty d a n => ty.isF && rnd.arith && d.dstOk ty.wide && a.srcOk ty.wide && n.srcOk ty.wide && uniformOk d [a, n]
  | .fex2 _ rnd ty d a | .flg2 _ rnd ty d a | .fsin _ rnd ty d a | .fcos _ rnd ty d a | .ftnh _ rnd ty d a =>
    (ty.isF && !ty.wide) && rnd.arith && d.dstOk false && a.srcOk false && uniformOk d [a]
  | .mxadd _ rnd ty d a b | .mxmul _ rnd ty d a b => ty.isMx && rnd.arith && d.isVec && a.isVec && b.isVec
  | .mxfma _ rnd ty d a b e => ty.isMx && rnd.arith && d.isVec && a.isVec && b.isVec && e.isVec
  | .mxnorm _ _ ty d a => ty.isMx && d.isVec && a.isVec
  | .mxpack _ _ ty d a => ty.isMx && d.isVec && a.isVec && a.spans ty.per
  | .mxunpk _ rnd ty d a n => ty.isMx && rnd != .sr && d.isVec && a.isVec && n.immIn 0 (ty.per - 1)
  | .scmovGet _ d a | .scmovPut _ d a => d.isVec && a.isVec
  | .cbld _ slot a => (slot.isScl || slot.immIn 0 63) && a.isScl
  | .cbxp _ ty d a slot q =>
    d.isVec && a.isVec && slot.uniOk &&
      match ty with
      | .bf16 => q.immIn 0 3
      | .fp32 => q.immIn 0 7
      | _ => false
  | .lxch _ _ ty d a b => ty.isB && d.vecOk ty.wide && a.vecOk ty.wide && b.srcOk false
  | .lvote _ m d a => a.isPrd && match m with | .bal => d.isScl | _ => d.isPrd
  | .lred _ op ty d a => op.laneTy ty && d.dstOk ty.wide && a.vecOk ty.wide
  | .lscn _ _ op ty d a => op.laneTy ty && d.vecOk ty.wide && a.vecOk ty.wide
  | .getl _ ty d a n => ty.isB && d.isScl && a.vecOk ty.wide && n.uniOk
  | .putl _ ty d a n => ty.isB && d.vecOk ty.wide && a.uniOk && n.uniOk
  | .ld _ _ _ ty d t1 t2 t3 => ty.isMem && d.dstOk ty.wide && addr3Ok t1 t2 t3 && uniformOk d [t1, t2, t3]
  | .st _ _ _ ty v t1 t2 t3 => ty.isMem && v.srcOk ty.wide && addr3Ok t1 t2 t3
  | .pref _ _ _ ty t1 t2 t3 => ty.isMem && addr3Ok t1 t2 t3
  | .llock _ _ t1 t2 | .lunlk _ _ t1 t2 => t1.baseOk && t2.idxOk
  | .atom _ op _ _ _ ty d a b o => op.atomTy ty && (d.isNone || d.vecOk ty.wide) && a.baseOk && b.idxOk && o.srcOk ty.wide
  | .acas _ _ _ ty d a b v =>
    ty.isW6 && d.vecOk ty.wide && a.baseOk && b.idxOk && (v.isScl || v.vecOk ty.wide) && v.spans (if ty.wide && !v.isScl then 3 else 2)
  | .ldacq _ _ _ ty d t1 t2 t3 => ty.isW8 && d.dstOk ty.wide && addr3Ok t1 t2 t3 && uniformOk d [t1, t2, t3]
  | .strel _ _ _ ty v t1 t2 t3 => ty.isW8 && v.srcOk ty.wide && addr3Ok t1 t2 t3
  | .fence _ _ _ | .xfence _ _ _ _ => true
  | .stref _ _ _ v t1 t2 t3 => v.srcOk true && addr3Ok t1 t2 t3
  | .ldref _ _ _ d t1 t2 t3 p => d.dstOk true && addr3Ok t1 t2 t3 && p.isPrd && uniformOk d [t1, t2, t3]
  | .pub _ _ v t1 t2 => (v.isScl || v.vecOk true) && t1.baseOk && t2.idxOk
  | .objinit _ a n => a.baseOk && n.srcOk false
  | .kld _ k a => k.isK && a.isScl
  | .kset _ k s v => k.isK && s.immIn 0 23 && v.isScl
  | .tld _ _ k t co | .tst _ _ k t co => k.isK && t.tgtOk && co.isScl
  | .gath _ _ k t co l | .scat _ _ k t co l => k.isK && t.tgtOk && co.isScl && l.isScl
  | .coll _ d a => d.isScl && a.isScl
  | .qcfg _ q a => q.isQ && a.isScl
  | .qacq _ d q n | .qwait _ d q n => d.isScl && q.isQ && n.uniOk
  | .qcommit _ q n | .qfree _ q n => q.isQ && n.uniOk
  | .brsv _ b sa sb => b.isBr && sa.isScl && sb.isScl
  | .bfree _ b => b.isBr
  | .cvset _ cr i => cr.isCr && decide (i.toNat ≤ 256)
  | .tmac _ _ ty z bq vb cr p => ty.isTmac && z.isZ && (bq.isBr || bq.isQ) && vb.isVec && cr.isCr && p.immIn 1 64
  | .zclr _ z | .zprom _ z => z.isZ
  | .zmovToVector _ ty d z pos => ty.isZ && d.isVec && z.isZ && pos.isScl
  | .zmovToTile _ ty v z pos => ty.isZ && v.isVec && z.isZ && pos.isScl
  | .zcpyToScratchpad _ ty a z r | .zcpyToTile _ ty a z r => ty.isZ && a.isScl && z.isZ && r.isScl
  | .barinit _ id n => id.immIn 0 15 && (n.isScl || n.immIn 0 255)
  | .bararv _ id | .barwt _ id | .barsync _ id => id.immIn 0 15
  | .wqenq _ p bo f | .wqdeq _ p bo f => p.isPrd && bo.immIn 0 63 && f.isScl && f.spans 8
  | .launch _ p bo f => p.isPrd && bo.immIn 0 63 && f.isScl
  | .schnxt _ p d => p.isPrd && d.isScl
  | .narm _ p t b => p.isPrd && t.isScl && b.isScl
  | .nsend _ d f => d.isScl && f.isScl && f.spans 4
  | .getsr _ ty d _ => ty.isB && d.dstOk ty.wide
  | .setsr _ r a =>
    a.uniOk && match r with
      | .fpctl | .fpflg | .mxflg | .tcause | .tpc | .taddr | .tmask | .thand | .clkreq | .sensev | .rstrt | .scopemd | .arena => true
      | _ => false
  | .vdhop _ d a b => d.isScl && a.uniOk && b.uniOk
  | .clkq _ d m => d.dstOk true && (m.isScl || m.immIn 0 3)
  | _ => true

/-- `n` consecutive scalars from a named one (R372, R401). -/
def Opd.run (o : Opd) (n : Nat) : List Opd :=
  match o with
  | .scl r => (List.range n).filterMap fun i => if h : r.val + i < 512 then some (.scl ⟨r.val + i, h⟩) else none
  | o => [o]

/-- The register that follows vCmp and holds vNew (R282), as an operand; none when no register follows. -/
def Opd.next (o : Opd) (k : Nat) : Option Opd :=
  match o with
  | .vec n => if h : n.val + k < 256 then some (.vec ⟨n.val + k, h⟩) else none
  | .scl n => if h : n.val + 1 < 512 then some (.scl ⟨n.val + 1, h⟩) else none
  | _ => none

/-- vNew of an ACAS (R282). -/
def acasNew (ty : Ty) (v : Opd) : Option Opd := v.next (if ty.wide then 2 else 1)

/-- The register operands of an instruction, which the declared counts limit (R27). -/
def Instr.regs : Instr → List Opd
  | .jmpx _ a | .ret _ a => [a]
  | .call _ d _ _ => [d]
  | .callx _ d a => [d, a]
  | .holdw _ _ _ _ d a b m e => [d, a, b, m, e]
  | .iadd _ _ _ d a b | .isub _ _ _ d a b | .imul _ _ d a b | .imulh _ _ d a b | .imin _ _ d a b | .imax _ _ d a b
  | .and _ _ d a b | .or _ _ d a b | .xor _ _ d a b | .shl _ _ d a b | .shr _ _ d a b | .sar _ _ d a b | .rot _ _ d a b
  | .ixa _ _ d a b _ | .icmp _ _ _ d a b => [d, a, b]
  | .imad _ _ d a b e | .sel _ _ d a b e => [d, a, b, e]
  | .iabs _ _ _ d a | .ineg _ _ _ d a | .not _ _ d a | .bcnt _ _ d a | .lzc _ _ d a | .tzc _ _ d a | .brvs _ _ d a | .mov _ _ d a => [d, a]
  | .bxt _ _ d a p n => [d, a, p, n]
  | .bins _ _ d a b p n => [d, a, b, p, n]
  | .movi _ _ d _ | .movh _ d _ => [d]
  | .bperm _ d a b s => [d, a, b, s]
  | .cvt _ _ _ _ _ _ d a _ => [d, a]
  | .fadd _ _ _ d a b | .fsub _ _ _ d a b | .fmul _ _ _ d a b | .fmin _ _ d a b | .fmax _ _ d a b | .fcmp _ _ _ d a b => [d, a, b]
  | .ffma _ _ _ d a b e => [d, a, b, e]
  | .fclass _ _ d a | .frnd _ _ _ _ d a | .frcp _ _ _ d a | .frsq _ _ _ d a | .fsqrt _ _ _ d a | .fex2 _ _ _ d a
  | .flg2 _ _ _ d a | .fsin _ _ _ d a | .fcos _ _ _ d a | .ftnh _ _ _ d a => [d, a]
  | .fscl _ _ _ d a n => [d, a, n]
  | .mxadd _ _ _ d a b | .mxmul _ _ _ d a b => [d, a, b]
  | .mxfma _ _ _ d a b e => [d, a, b, e]
  | .mxnorm _ _ _ d a | .mxunpk _ _ _ d a _ | .scmovGet _ d a | .scmovPut _ d a => [d, a]
  | .mxpack _ _ ty d a => d :: (List.range ty.per).filterMap fun i => if i = 0 then some a else a.next i
  | .cbld _ s a => [s, a]
  | .cbxp _ _ d a s _ => [d, a, s]
  | .lxch _ _ _ d a b => [d, a, b]
  | .lvote _ _ d _ => [d]
  | .lred _ _ _ d a | .lscn _ _ _ _ d a => [d, a]
  | .getl _ _ d a n | .putl _ _ d a n => [d, a, n]
  | .ld _ _ _ _ d a b e | .st _ _ _ _ d a b e | .ldacq _ _ _ _ d a b e | .strel _ _ _ _ d a b e | .stref _ _ _ d a b e
  | .ldref _ _ _ d a b e _ => [d, a, b, e]
  | .pref _ _ _ _ a b e => [a, b, e]
  | .llock _ _ a b | .lunlk _ _ a b => [a, b]
  | .atom _ _ _ _ _ _ d a b o => [d, a, b, o]
  | .acas _ _ _ ty d a b v => d :: a :: b :: v :: (acasNew ty v).toList
  | .pub _ _ v a b => [v, a, b]
  | .objinit _ a n => [a, n]
  | .kld _ _ a => [a]
  | .kset _ _ _ v => [v]
  | .tld _ _ _ t co | .tst _ _ _ t co => [t, co]
  | .gath _ _ _ t co l | .scat _ _ _ t co l => [t, co, l]
  | .coll _ d a => [d, a]
  | .qcfg _ _ a => [a]
  | .qacq _ d _ n | .qwait _ d _ n => [d, n]
  | .qcommit _ _ n | .qfree _ _ n => [n]
  | .brsv _ _ a b => [a, b]
  | .zmovToVector _ _ d _ p | .zmovToTile _ _ d _ p => [d, p]
  | .zcpyToScratchpad _ _ a _ r | .zcpyToTile _ _ a _ r => [a, r]
  | .barinit _ _ n => [n]
  | .wqenq _ _ _ f | .wqdeq _ _ _ f => f.run 8
  | .launch _ _ _ b => [b]
  | .schnxt _ _ d => [d]
  | .narm _ _ t b => [t, b]
  | .nsend _ d f => d :: f.run 4
  | .getsr _ _ d _ => [d]
  | .setsr _ _ a => [a]
  | .vdhop _ d a b => [d, a, b]
  | .clkq _ d m => [d, m]
  | .tmac _ _ _ _ _ vb _ _ => [vb]
  | _ => []

/-- A branch, which fetch predicts (R54). -/
def Instr.isBranch : Instr → Bool
  | .jmp _ _ _ | .jmpx _ _ | .call _ _ _ _ | .callx _ _ _ | .ret _ _ => true
  | _ => false

/-- The registers an instruction writes, each for its whole aligned pair: what a younger instruction of its group waits for (R47). -/
def Instr.dsts : Instr → List Opd
  | .jmpx _ _ | .ret _ _ | .st _ _ _ _ _ _ _ _ | .strel _ _ _ _ _ _ _ _ | .stref _ _ _ _ _ _ _ | .pref _ _ _ _ _ _ _ | .llock _ _ _ _
  | .lunlk _ _ _ _ | .pub _ _ _ _ _ | .objinit _ _ _ | .cbld _ _ _ | .tld _ _ _ _ _ | .tst _ _ _ _ _ | .gath _ _ _ _ _ _
  | .scat _ _ _ _ _ _ | .qcommit _ _ _ | .qfree _ _ _ | .tmac _ _ _ _ _ _ _ _ | .zmovToTile _ _ _ _ _ | .zcpyToScratchpad _ _ _ _ _
  | .zcpyToTile _ _ _ _ _ | .barinit _ _ _ => []
  | .kld _ k _ | .kset _ k _ _ => [k]
  | .qcfg _ q _ => [q]
  | .brsv _ b _ _ => [b]
  | .setsr _ r _ => [.sreg r]
  | .pand _ _ d _ _ => [d]
  | .wqdeq _ p _ f => p :: f.run 8
  | .wqenq _ p _ _ | .launch _ p _ _ | .narm _ p _ _ => [p]
  | .schnxt _ p d => [p, d]
  | .ldref _ _ _ d _ _ _ p => [d, p]
  | i => i.regs.take 1

/-- The object registers that an instruction names: those of its group execute in its dispatch order (R47). A TMAC executes in this sense when
it signs, as it dispatches (R108). -/
def Instr.objs : Instr → List Opd
  | .kld _ k _ | .kset _ k _ _ => [k]
  | .tld _ _ k t _ | .tst _ _ k t _ | .gath _ _ k t _ _ | .scat _ _ k t _ _ => [k, t]
  | .qcfg _ q _ | .qacq _ _ q _ | .qwait _ _ q _ | .qcommit _ q _ | .qfree _ q _ => [q]
  | .brsv _ b _ _ | .bfree _ b => [b]
  | .cvset _ r _ => [r]
  | .zclr _ z | .zmovToVector _ _ _ z _ | .zmovToTile _ _ _ z _ | .zcpyToScratchpad _ _ _ z _ | .zcpyToTile _ _ _ z _ | .zprom _ z => [z]
  | _ => []

/-- What younger instructions of the group wait for: the registers an instruction writes and the object registers it names (R47). -/
def Instr.orders (i : Instr) : List Opd := i.dsts ++ i.objs.filter fun o => !o.isVec && !o.isScl

/-- The registers an instruction reads or writes, its guard and its object registers among them (R47): all the coordinates a box command may
read (R133), and all the vector registers from which a TMAC may take its B quarter (R110). -/
def Instr.uses (i : Instr) (c : Ctl) : List Opd :=
  c.guards ++ (match i with
    | .pand _ _ _ a b => [a, b]
    | .lvote _ _ _ a => [a]
    | .tld _ _ _ _ x | .tst _ _ _ _ x | .gath _ _ _ _ x _ | .scat _ _ _ _ x _ => x.run 7
    | .tmac _ _ _ _ _ b _ _ => (List.range 256).filterMap b.next
    | .getsr _ _ _ r => [.sreg r]
    | _ => []) ++ i.regs ++ i.dsts ++ i.objs

/-- An instruction whose class 0 accesses are loads (R176, R185). -/
def Instr.reads : Instr → Bool
  | .ld _ _ _ _ _ _ _ _ | .ldacq _ _ _ _ _ _ _ _ | .ldref _ _ _ _ _ _ _ _ | .holdw _ _ _ _ _ _ _ _ _ | .kld _ _ _ | .cbld _ _ _ => true
  | _ => false

/-- A SETSR that is serialising (R53). -/
def Instr.serial : Instr → Bool
  | .setsr _ r _ => [SReg.fpctl, .scopemd, .arena, .thand].contains r
  | _ => false

/-- The operands that form the addresses of a memory instruction or an engine command (R50): none for any other instruction. -/
def Instr.addrs : Instr → Option (List Opd)
  | .ld _ _ _ _ _ a b e | .st _ _ _ _ _ a b e | .ldacq _ _ _ _ _ a b e | .strel _ _ _ _ _ a b e | .stref _ _ _ _ a b e
  | .ldref _ _ _ _ a b e _ | .pref _ _ _ _ a b e => some [a, b, e]
  | .holdw _ _ _ _ _ a b _ e => some [a, b, e]
  | .objinit _ a n => some [a, n]
  | .kld _ _ a | .cbld _ _ a => some [a]
  | .tld _ _ _ t x | .tst _ _ _ t x => some (t :: x.run 7)
  | .gath _ _ _ t x l | .scat _ _ _ t x l => some (t :: l :: x.run 7)
  | .zcpyToScratchpad _ _ a _ r | .zcpyToTile _ _ a _ r => some [a, r]
  | _ => none

/-- A register operand of an instruction is a pair: a 64-bit base of an address, a reference, or an operand of a 64-bit type (R84, R124). -/
def Instr.pairs (i : Instr) (o : Opd) : Bool :=
  match i with
  | .jmpx _ a | .ret _ a | .callx _ _ a => o == a
  | .ld _ _ _ _ _ a _ _ | .ldacq _ _ _ _ _ a _ _ | .ldref _ _ _ _ a _ _ _ | .pref _ _ _ _ a _ _ | .llock _ _ a _ | .lunlk _ _ a _
  | .objinit _ a _ | .ixa _ _ _ a _ _ => o == a
  | .holdw _ _ _ ty _ a _ m _ => o == a || (o == m && ty.wide)
  | .st _ _ _ ty v a _ _ | .strel _ _ _ ty v a _ _ => o == a || (o == v && ty.wide)
  | .stref _ _ _ v a _ _ | .pub _ _ v a _ => o == a || o == v
  | .atom _ _ _ _ _ ty _ a _ x => o == a || (o == x && ty.wide)
  | .acas _ _ _ ty _ a _ _ => o == a || ty.wide
  | .iadd _ _ ty _ _ _ | .isub _ _ ty _ _ _ | .imul _ ty _ _ _ | .imulh _ ty _ _ _ | .imad _ ty _ _ _ _ | .imin _ ty _ _ _ | .imax _ ty _ _ _
  | .iabs _ _ ty _ _ | .ineg _ _ ty _ _ | .and _ ty _ _ _ | .or _ ty _ _ _ | .xor _ ty _ _ _ | .not _ ty _ _ | .shl _ ty _ _ _
  | .shr _ ty _ _ _ | .sar _ ty _ _ _ | .rot _ ty _ _ _ | .bxt _ ty _ _ _ _ | .bins _ ty _ _ _ _ _ | .bcnt _ ty _ _ | .lzc _ ty _ _
  | .tzc _ ty _ _ | .brvs _ ty _ _ | .icmp _ _ ty _ _ _ | .sel _ ty _ _ _ _ | .mov _ ty _ _ | .cvt _ _ _ _ _ ty _ _ _
  | .lxch _ _ ty _ _ _ | .lred _ _ ty _ _ | .lscn _ _ _ ty _ _ | .getl _ ty _ _ _ | .putl _ ty _ _ _ => ty.wide
  | .fadd _ _ ty _ _ _ | .fsub _ _ ty _ _ _ | .fmul _ _ ty _ _ _ | .ffma _ _ ty _ _ _ _ | .fmin _ ty _ _ _ | .fmax _ ty _ _ _
  | .fcmp _ _ ty _ _ _ | .fclass _ ty _ _ | .frnd _ _ _ ty _ _ | .frcp _ _ ty _ _ | .frsq _ _ ty _ _ | .fsqrt _ _ ty _ _
  | .fex2 _ _ ty _ _ | .flg2 _ _ ty _ _ | .fsin _ _ ty _ _ | .fcos _ _ ty _ _ | .ftnh _ _ ty _ _ => ty.wide
  | .fscl _ _ ty _ a _ => o == a && ty.wide
  | _ => false

/-- The registers an instruction reads, with the second of a pair (R405): its register operands but for its destinations. MOVH and a packing
CVT keep a part of what they write (R362, R311); a TMAC's B quarter is read for as many registers as its generation takes (R110). -/
def Instr.srcs (i : Instr) : List Opd :=
  match i with
  | .movh _ d _ => [d]
  | .cvt _ _ _ .pk _ _ d a _ => [d, a]
  | .tmac _ _ _ _ _ _ _ _ => []
  | .pand _ _ _ a b => [a, b]
  | .lvote _ _ _ a => [a]
  | _ => (i.dsts.foldl List.erase i.regs).flatMap fun o => match o with
    | .vec _ => if i.pairs o then o :: (o.next 1).toList else [o]
    | o => [o]

/-- The operand is scalar register `n`. -/
def Opd.sclIs (o : Opd) (n : Nat) : Bool :=
  match o with
  | .scl m => m.val == n
  | _ => false

/-- Two operands name one register, or two of one aligned pair; p15 is no register (R269). -/
def Opd.meets : Opd → Opd → Bool
  | .vec a, .vec b => a.val / 2 == b.val / 2
  | .scl a, .scl b => a.val / 2 == b.val / 2
  | .prd a, .prd b => a == b && a.val != 15
  | .kreg a, .kreg b => a == b
  | .qreg a, .qreg b => a == b
  | .creg a, .creg b => a == b
  | .zreg a, .zreg b => a == b
  | .breg a, .breg b => a == b
  | .sreg a, .sreg b => a == b
  | _, _ => false

/-- The guard, head bit and body of an instruction; an event has none. -/
def Instr.ctl : Instr → Option Ctl
  | .nop c | .jmp c _ _ | .jmpx c _ | .call c _ _ _ | .callx c _ _ | .ret c _ | .exit c | .cede c | .dbrk c _ | .trap c _ | .tret c
  | .holdw c _ _ _ _ _ _ _ _ | .iadd c _ _ _ _ _ | .isub c _ _ _ _ _ | .imul c _ _ _ _ | .imulh c _ _ _ _ | .imad c _ _ _ _ _
  | .imin c _ _ _ _ | .imax c _ _ _ _ | .iabs c _ _ _ _ | .ineg c _ _ _ _ | .and c _ _ _ _ | .or c _ _ _ _ | .xor c _ _ _ _
  | .not c _ _ _ | .shl c _ _ _ _ | .shr c _ _ _ _ | .sar c _ _ _ _ | .rot c _ _ _ _ | .bxt c _ _ _ _ _ | .bins c _ _ _ _ _ _
  | .bcnt c _ _ _ | .lzc c _ _ _ | .tzc c _ _ _ | .brvs c _ _ _ | .ixa c _ _ _ _ _ | .icmp c _ _ _ _ _ | .sel c _ _ _ _ _
  | .mov c _ _ _ | .movi c _ _ _ | .movh c _ _ | .bperm c _ _ _ _ | .pand c _ _ _ _ | .cvt c _ _ _ _ _ _ _ _
  | .fadd c _ _ _ _ _ | .fsub c _ _ _ _ _ | .fmul c _ _ _ _ _ | .ffma c _ _ _ _ _ _ | .fmin c _ _ _ _ | .fmax c _ _ _ _
  | .fcmp c _ _ _ _ _ | .fclass c _ _ _ | .frnd c _ _ _ _ _ | .fscl c _ _ _ _ _ | .frcp c _ _ _ _ | .frsq c _ _ _ _ | .fsqrt c _ _ _ _
  | .fex2 c _ _ _ _ | .flg2 c _ _ _ _ | .fsin c _ _ _ _ | .fcos c _ _ _ _ | .ftnh c _ _ _ _
  | .mxadd c _ _ _ _ _ | .mxmul c _ _ _ _ _ | .mxfma c _ _ _ _ _ _ | .mxnorm c _ _ _ _ | .mxpack c _ _ _ _ | .mxunpk c _ _ _ _ _
  | .scmovGet c _ _ | .scmovPut c _ _ | .cbld c _ _ | .cbxp c _ _ _ _ _
  | .lxch c _ _ _ _ _ | .lvote c _ _ _ | .lred c _ _ _ _ | .lscn c _ _ _ _ _ | .getl c _ _ _ _ | .putl c _ _ _ _
  | .ld c _ _ _ _ _ _ _ | .st c _ _ _ _ _ _ _ | .pref c _ _ _ _ _ _ | .llock c _ _ _ | .lunlk c _ _ _ | .atom c _ _ _ _ _ _ _ _ _
  | .acas c _ _ _ _ _ _ _ | .ldacq c _ _ _ _ _ _ _ | .strel c _ _ _ _ _ _ _ | .fence c _ _ | .xfence c _ _ _ | .stref c _ _ _ _ _ _
  | .ldref c _ _ _ _ _ _ _ | .pub c _ _ _ _ | .objinit c _ _ | .kld c _ _ | .kset c _ _ _ | .tld c _ _ _ _ | .tst c _ _ _ _
  | .gath c _ _ _ _ _ | .scat c _ _ _ _ _ | .coll c _ _ | .qcfg c _ _ | .qacq c _ _ _ | .qcommit c _ _ | .qwait c _ _ _ | .qfree c _ _
  | .brsv c _ _ _ | .bfree c _ | .cvset c _ _ | .tmac c _ _ _ _ _ _ _ | .zclr c _ | .zmovToVector c _ _ _ _ | .zmovToTile c _ _ _ _
  | .zcpyToScratchpad c _ _ _ _ | .zcpyToTile c _ _ _ _ | .zprom c _ | .gsync c | .barinit c _ _ | .bararv c _ | .barwt c _ | .barsync c _
  | .wqenq c _ _ _ | .wqdeq c _ _ _ | .schnxt c _ _ | .launch c _ _ _ | .narm c _ _ _ | .nsend c _ _
  | .getsr c _ _ _ | .setsr c _ _ | .vdhop c _ _ _ | .clkq c _ _ => some c
  | _ => none

end Sys2Proof
end

