-- ==== Sys2Proof/Decode.lean ====
section
/-! DEFINITION. Decode.lean: the 96-bit instruction word (R269 to R278). `Fields` is a word's fields as Tables 22-2, 22-3 and
22-5 lay them out; `Instr.fields` writes an instruction's fields from its entry, `build` reads them back, and `decode` accepts
a word only when the instruction it builds has exactly that word's fields, so that every field an entry does not use holds its
default (R272, R280). `encode` packs the fields. -/

namespace Sys2Proof

/-- The request is a PCIe write; it moves data; it is the host's through CXL.mem (R236). -/
def PeerReq.write (w : PeerReq) : Bool := w.kind == .write
def PeerReq.moves (w : PeerReq) : Bool := w.kind == .write || w.kind == .cxlWrite
def PeerReq.cxl (w : PeerReq) : Bool := w.kind == .cxlRead || w.kind == .cxlWrite

/-- Formats of the instruction word (R269, R270). -/
inductive Format where
  | common | imm | branch
deriving DecidableEq, Repr

/-- The fields of a word. `imm` is IMM of Format I and OFF of Format B; OB, OC and OE are absent there. -/
structure Fields where
  opc   : BitVec 8
  fn    : BitVec 6
  ctl   : Ctl
  ch    : BitVec 3
  ty    : Ty
  od    : Opd
  oa    : Opd
  ob    : Opd
  oc    : Opd
  oe    : Opd
  tslot : BitVec 3
  imm   : BitVec 32
deriving DecidableEq, Repr

/-- The defaults of R280 under a guard and head bit. -/
def Fields.base (c : Ctl) (opc : BitVec 8) : Fields :=
  ⟨opc, 0, c, 0, .b32, .none, .none, .none, .none, .none, 0, 0⟩

/-- Why a word is refused. The first is trap 0x01, the others trap 0x02 (R278). -/
inductive Reject where
  | unassignedOpcode
  | reservedBits
  | operandClass
  | typeCode
  | functionCode
  | unusedField
  | operandForm
deriving DecidableEq, Repr

/-- The trap of a refusal (R278). -/
def Reject.cause : Reject → Nat
  | .unassignedOpcode => 0x01
  | _ => 0x02

/-- Type codes (Table 22-4). -/
def Ty.code : Ty → BitVec 5
  | .b32 => 0 | .s8 => 1 | .s16 => 2 | .s32 => 3 | .s64 => 4 | .n8 => 5 | .n16 => 6 | .n32 => 7 | .n64 => 8 | .b64 => 9
  | .fp64 => 10 | .fp32 => 11 | .fp16 => 12 | .bf16 => 13 | .e5m2 => 14 | .e4m3 => 15 | .e3m2 => 16 | .e2m3 => 17 | .e2m1 => 18
  | .cb4 => 19 | .mxe4m3 => 20 | .mxe5m2 => 21 | .mxe3m2 => 22 | .mxe2m3 => 23 | .mxe2m1 => 24 | .mxs8 => 25 | .prd => 26
  | .ref => 27

/-- The type of a code; codes 28 to 31 are reserved (R273). -/
def Ty.ofCode (n : Nat) : Option Ty :=
  match n with
  | 0 => some .b32 | 1 => some .s8 | 2 => some .s16 | 3 => some .s32 | 4 => some .s64 | 5 => some .n8 | 6 => some .n16
  | 7 => some .n32 | 8 => some .n64 | 9 => some .b64 | 10 => some .fp64 | 11 => some .fp32 | 12 => some .fp16 | 13 => some .bf16
  | 14 => some .e5m2 | 15 => some .e4m3 | 16 => some .e3m2 | 17 => some .e2m3 | 18 => some .e2m1 | 19 => some .cb4
  | 20 => some .mxe4m3 | 21 => some .mxe5m2 | 22 => some .mxe3m2 | 23 => some .mxe2m3 | 24 => some .mxe2m1 | 25 => some .mxs8
  | 26 => some .prd | 27 => some .ref
  | _ => none

/-- Indices of the special registers (Table 22-7). -/
def SReg.index : SReg → BitVec 9
  | .laneid => 0x000 | .grpid => 0x001 | .teamx => 0x002 | .teamy => 0x003 | .teamz => 0x004 | .thrx => 0x005 | .thry => 0x006
  | .thrz => 0x007 | .grpw => 0x008 | .nteamx => 0x009 | .nteamy => 0x00A | .nteamz => 0x00B | .core => 0x00C | .clus => 0x00D
  | .vdie => 0x00E | .place => 0x00F | .fpctl => 0x020 | .fpflg => 0x021 | .mxflg => 0x022 | .tcause => 0x030 | .tpc => 0x031
  | .taddr => 0x032 | .tmask => 0x033 | .thand => 0x034 | .clkgnt => 0x040 | .clkevt => 0x041 | .clkreq => 0x042
  | .qwin => 0x050 | .sensev => 0x051 | .rstrt => 0x052 | .timel => 0x060 | .timeh => 0x061 | .scopemd => 0x070 | .arena => 0x080

/-- The special register of an index; every other index is unassigned (R277). -/
def SReg.ofIndex (n : Nat) : Option SReg :=
  match n with
  | 0x000 => some .laneid | 0x001 => some .grpid | 0x002 => some .teamx | 0x003 => some .teamy | 0x004 => some .teamz
  | 0x005 => some .thrx | 0x006 => some .thry | 0x007 => some .thrz | 0x008 => some .grpw | 0x009 => some .nteamx
  | 0x00A => some .nteamy | 0x00B => some .nteamz | 0x00C => some .core | 0x00D => some .clus | 0x00E => some .vdie
  | 0x00F => some .place | 0x020 => some .fpctl | 0x021 => some .fpflg | 0x022 => some .mxflg | 0x030 => some .tcause
  | 0x031 => some .tpc | 0x032 => some .taddr | 0x033 => some .tmask | 0x034 => some .thand | 0x040 => some .clkgnt
  | 0x041 => some .clkevt | 0x042 => some .clkreq | 0x050 => some .qwin | 0x051 => some .sensev | 0x052 => some .rstrt
  | 0x060 => some .timel | 0x061 => some .timeh | 0x070 => some .scopemd | 0x080 => some .arena
  | _ => none

/-- An operand field from its class and index (Table 22-5). -/
def Opd.mk (cls : BitVec 3) (i : BitVec 9) : BitVec 12 := cls ++ i

/-- An operand as its field (R271). -/
def Opd.code : Opd → BitVec 12
  | .vec n => Opd.mk 0b000 (BitVec.ofNat 9 n.val)
  | .scl n => Opd.mk 0b001 (BitVec.ofNat 9 n.val)
  | .prd n => Opd.mk 0b010 (BitVec.ofNat 9 n.val)
  | .sreg r => Opd.mk 0b011 r.index
  | .kreg n => Opd.mk 0b100 (BitVec.ofNat 9 n.val)
  | .creg n => Opd.mk 0b100 (BitVec.ofNat 9 (64 + n.val))
  | .qreg n => Opd.mk 0b100 (BitVec.ofNat 9 (128 + n.val))
  | .breg n => Opd.mk 0b100 (BitVec.ofNat 9 (192 + n.val))
  | .zreg n => Opd.mk 0b100 (BitVec.ofNat 9 (256 + n.val))
  | .imm i => Opd.mk 0b101 i
  | .none => 0xC00

/-- A number below a bound. -/
def finOf (n k : Nat) : Option (Fin n) := if h : k < n then some ⟨k, h⟩ else none

/-- An operand field as an operand; none for a reserved class, kind or index (R271). -/
def Opd.ofCode (b : BitVec 12) : Option Opd :=
  let i := b.toNat % 512
  match b.toNat / 512 with
  | 0 => (finOf 256 i).map .vec
  | 1 => (finOf 512 i).map .scl
  | 2 => (finOf 16 i).map .prd
  | 3 => (SReg.ofIndex i).map .sreg
  | 4 =>
    match i / 64 with
    | 0 => (finOf 64 (i % 64)).map .kreg
    | 1 => (finOf 16 (i % 64)).map .creg
    | 2 => (finOf 32 (i % 64)).map .qreg
    | 3 => (finOf 16 (i % 64)).map .breg
    | 4 => (finOf 8 (i % 64)).map .zreg
    | _ => Option.none
  | 5 => some (.imm (BitVec.ofNat 9 i))
  | 6 => if i = 0 then some .none else Option.none
  | _ => Option.none

/-- The type an operand names (OB of CVT, R309). -/
def Opd.asTy : Opd → Option Ty
  | .imm i => Ty.ofCode i.toNat
  | _ => Option.none

/-- The special register an operand names (R271). -/
def Opd.asSReg : Opd → Option SReg
  | .sreg r => some r
  | _ => Option.none

/-- Codes of spaces (Table 10-1). -/
def Space.code : Space → BitVec 6
  | .glob => 0 | .own => 1 | .team => 2

def Space.ofCode (b : BitVec 2) : Option Space :=
  match b.toNat with
  | 0 => some .glob | 1 => some .own | 2 => some .team | _ => none

/-- OE of ATOM and ACAS (R154): class 110 for the global space, else an immediate 1 or 2. -/
def Space.asOpd : Space → Opd
  | .glob => .none | .own => .imm 1 | .team => .imm 2

def Space.ofOpd : Opd → Option Space
  | .none => some .glob
  | .imm i => if i = 1 then some .own else if i = 2 then some .team else none
  | _ => none

/-- Codes of scopes (Table 14-1). -/
def Scope.code : Scope → BitVec 3
  | .group => 0 | .core => 1 | .cluster => 2 | .die => 3 | .device => 4 | .system => 5

def Scope.ofCode (b : BitVec 3) : Option Scope :=
  match b.toNat with
  | 0 => some .group | 1 => some .core | 2 => some .cluster | 3 => some .die | 4 => some .device | 5 => some .system | _ => none

/-- Codes of rounding modes (Table 7-5). -/
def Rnd.code : Rnd → BitVec 6
  | .dyn => 0 | .rne => 1 | .rz => 2 | .rd => 3 | .ru => 4 | .rna => 5 | .sr => 6

def Rnd.ofCode (b : BitVec 3) : Option Rnd :=
  match b.toNat with
  | 0 => some .dyn | 1 => some .rne | 2 => some .rz | 3 => some .rd | 4 => some .ru | 5 => some .rna | 6 => some .sr | _ => none

/-- Codes of conditions (R274). -/
def Cond.code : Cond → BitVec 6
  | .eq => 0 | .ne => 1 | .lt => 2 | .le => 3 | .gt => 4 | .ge => 5 | .ord => 6 | .unord => 7

def Cond.ofCode (b : BitVec 4) : Option Cond :=
  match b.toNat with
  | 0 => some .eq | 1 => some .ne | 2 => some .lt | 3 => some .le | 4 => some .gt | 5 => some .ge | 6 => some .ord | 7 => some .unord
  | _ => none

/-- Codes of ATOM operations (R274). -/
def RedOp.code : RedOp → BitVec 6
  | .add => 0 | .min => 1 | .max => 2 | .and => 3 | .or => 4 | .xor => 5 | .exch => 6 | .incw => 7 | .fadd => 8 | .fmin => 9
  | .fmax => 10

def RedOp.ofCode (b : BitVec 4) : Option RedOp :=
  match b.toNat with
  | 0 => some .add | 1 => some .min | 2 => some .max | 3 => some .and | 4 => some .or | 5 => some .xor | 6 => some .exch
  | 7 => some .incw | 8 => some .fadd | 9 => some .fmin | 10 => some .fmax | _ => none

/-- FN bits 5:4 of ATOM (R274). -/
def Ordering.code : Ordering → BitVec 6
  | .relaxed => 0 | .acquire => 16 | .release => 32 | .acqRel => 48

def Ordering.ofCode (b : BitVec 2) : Ordering :=
  if b = 0 then .relaxed else if b = 1 then .acquire else if b = 2 then .release else .acqRel

/-- Operations of PAND (R377). -/
def PredOp.code : PredOp → BitVec 6
  | .and => 0 | .or => 1 | .xor => 2 | .andn => 3 | .orn => 4 | .xnor => 5

def PredOp.ofCode (b : BitVec 3) : Option PredOp :=
  match b.toNat with
  | 0 => some .and | 1 => some .or | 2 => some .xor | 3 => some .andn | 4 => some .orn | 5 => some .xnor | _ => none

/-- FN bits 5:4 of CVT (Table 23-12). -/
def Packing.code : Packing → BitVec 6
  | .plain => 0 | .pk => 16 | .upk => 32

def Packing.ofCode (b : BitVec 2) : Option Packing :=
  match b.toNat with
  | 0 => some .plain | 1 => some .pk | 2 => some .upk | _ => none

/-- Modes of LXCH (R353). -/
def XchMode.code : XchMode → BitVec 6
  | .idx => 0 | .up => 1 | .dn => 2 | .xor => 3

def XchMode.ofCode (b : BitVec 2) : XchMode :=
  if b = 0 then .idx else if b = 1 then .up else if b = 2 then .dn else .xor

/-- Modes of LVOTE (R354). -/
def VoteMode.code : VoteMode → BitVec 6
  | .any => 0 | .all => 1 | .uni => 2 | .bal => 3

def VoteMode.ofCode (b : BitVec 2) : VoteMode :=
  if b = 0 then .any else if b = 1 then .all else if b = 2 then .uni else .bal

/-- FN bits 4:3 of FENCE (Table 14-3). -/
def FenceKind.code : FenceKind → BitVec 6
  | .acq => 0 | .rel => 8 | .ar => 16 | .sc => 24

def FenceKind.ofCode (b : BitVec 2) : FenceKind :=
  if b = 0 then .acq else if b = 1 then .rel else if b = 2 then .ar else .sc

/-- An engine class, 0 to 5 (Table 14-5). -/
def classOf (b : BitVec 3) : Option (Fin 6) := finOf 6 b.toNat

/-- One bit of FN. -/
def boolAt (n : Nat) (b : Bool) : BitVec 6 := if b then BitVec.twoPow 6 n else 0

/-- A guard term as its field (R269). -/
def GuardTerm.code (g : GuardTerm) : BitVec 5 := BitVec.ofBool g.neg ++ BitVec.ofNat 4 g.p.val

def GuardTerm.ofCode (b : BitVec 5) : GuardTerm := ⟨b.getLsbD 4, ⟨b.toNat % 16, Nat.mod_lt _ (by decide)⟩⟩

/-- The format of an opcode (Table 22-6). -/
def formatOf (opc : BitVec 8) : Format :=
  match opc.toNat with
  | 0x09 | 0x0A | 0x2B | 0x2C | 0x8A => .imm
  | 0x02 | 0x04 => .branch
  | _ => .common

/-- The opcodes that Table 22-6 assigns (R276). -/
def assigned (opc : BitVec 8) : Bool :=
  [(0x01, 0x0C), (0x10, 0x41), (0x48, 0x50), (0x58, 0x5D), (0x60, 0x6A), (0x70, 0x73), (0x78, 0x7E), (0x80, 0x84), (0x88, 0x94),
   (0x98, 0x9D), (0xA0, 0xA3)].any fun r => decide (r.1 ≤ opc.toNat) && decide (opc.toNat ≤ r.2)

/-- Bits 95:60 of a word: OE, OC and OB, or IMM and TSLOT (Tables 22-2 and 22-3). -/
def Fields.upper (f : Fields) : BitVec 36 :=
  match formatOf f.opc with
  | .common => f.oe.code ++ f.oc.code ++ f.ob.code
  | .imm => f.imm ++ (0 : BitVec 4)
  | .branch => f.imm ++ (0 : BitVec 1) ++ f.tslot

/-- The 96 bits of a word (Table 22-2). -/
def Fields.bits (f : Fields) : BitVec 96 :=
  f.upper ++ f.oa.code ++ f.od.code ++ (0 : BitVec 2) ++ BitVec.ofBool f.ctl.hd ++ f.ty.code ++ f.ch ++ BitVec.ofBool f.ctl.gc ++
    f.ctl.gb.code ++ f.ctl.ga.code ++ f.fn ++ f.opc

/-- The guard and head bit of a word (Table 22-2). -/
def ctlOf (w : BitVec 96) : Ctl :=
  ⟨.ofCode (w.extractLsb' 14 5), .ofCode (w.extractLsb' 19 5), w.getLsbD 24, w.getLsbD 33⟩

/-- The fields of a word (Tables 22-2 and 22-3), refused by name where R270, R271 or R273 forbids them. -/
def Fields.ofBits (w : BitVec 96) : Except Reject Fields :=
  if w.extractLsb' 34 2 ≠ 0 then .error .reservedBits else
  match Ty.ofCode (w.extractLsb' 28 5).toNat with
  | none => .error .typeCode
  | some ty =>
    match Opd.ofCode (w.extractLsb' 36 12), Opd.ofCode (w.extractLsb' 48 12) with
    | some od, some oa =>
      match formatOf (w.extractLsb' 0 8) with
      | .common =>
        match Opd.ofCode (w.extractLsb' 60 12), Opd.ofCode (w.extractLsb' 72 12), Opd.ofCode (w.extractLsb' 84 12) with
        | some ob, some oc, some oe =>
          .ok ⟨w.extractLsb' 0 8, w.extractLsb' 8 6, ctlOf w, w.extractLsb' 25 3, ty, od, oa, ob, oc, oe, 0, 0⟩
        | _, _, _ => .error .operandClass
      | .imm =>
        if w.extractLsb' 60 4 ≠ 0 then .error .reservedBits else
          .ok ⟨w.extractLsb' 0 8, w.extractLsb' 8 6, ctlOf w, w.extractLsb' 25 3, ty, od, oa, .none, .none, .none, 0, w.extractLsb' 64 32⟩
      | .branch =>
        if w.getLsbD 63 then .error .reservedBits else
          .ok ⟨w.extractLsb' 0 8, w.extractLsb' 8 6, ctlOf w, w.extractLsb' 25 3, ty, od, oa, .none, .none, .none,
            w.extractLsb' 60 3, w.extractLsb' 64 32⟩
    | _, _ => .error .operandClass

/-- The fields of an instruction, as its entry gives them (chapters 23 to 26). An event has no word. -/
def Instr.fields : Instr → Option Fields
  | .nop c => some (Fields.base c 0x01)
  | .jmp c t off => some { Fields.base c 0x02 with tslot := t, imm := off }
  | .jmpx c a => some { Fields.base c 0x03 with oa := a, ty := .b64 }
  | .call c d t off => some { Fields.base c 0x04 with od := d, tslot := t, imm := off }
  | .callx c d a => some { Fields.base c 0x05 with od := d, oa := a }
  | .ret c a => some { Fields.base c 0x06 with oa := a }
  | .exit c => some (Fields.base c 0x07)
  | .cede c => some (Fields.base c 0x08)
  | .dbrk c imm => some { Fields.base c 0x09 with imm := imm }
  | .trap c imm => some { Fields.base c 0x0A with imm := imm }
  | .tret c => some (Fields.base c 0x0B)
  | .holdw c sp hint ty d a b cmp e => some { Fields.base c 0x0C with ch := hint, ty := ty, od := d, oa := a, ob := b, oc := cmp, oe := e, fn := sp.code }
  | .iadd c sat ty d a b => some { Fields.base c 0x10 with ty := ty, od := d, oa := a, ob := b, fn := boolAt 0 sat }
  | .isub c sat ty d a b => some { Fields.base c 0x11 with ty := ty, od := d, oa := a, ob := b, fn := boolAt 0 sat }
  | .imul c ty d a b => some { Fields.base c 0x12 with ty := ty, od := d, oa := a, ob := b }
  | .imulh c ty d a b => some { Fields.base c 0x13 with ty := ty, od := d, oa := a, ob := b }
  | .imad c ty d a b e => some { Fields.base c 0x14 with ty := ty, od := d, oa := a, ob := b, oc := e }
  | .imin c ty d a b => some { Fields.base c 0x15 with ty := ty, od := d, oa := a, ob := b }
  | .imax c ty d a b => some { Fields.base c 0x16 with ty := ty, od := d, oa := a, ob := b }
  | .iabs c sat ty d a => some { Fields.base c 0x17 with ty := ty, od := d, oa := a, fn := boolAt 0 sat }
  | .ineg c sat ty d a => some { Fields.base c 0x18 with ty := ty, od := d, oa := a, fn := boolAt 0 sat }
  | .and c ty d a b => some { Fields.base c 0x19 with ty := ty, od := d, oa := a, ob := b }
  | .or c ty d a b => some { Fields.base c 0x1A with ty := ty, od := d, oa := a, ob := b }
  | .xor c ty d a b => some { Fields.base c 0x1B with ty := ty, od := d, oa := a, ob := b }
  | .not c ty d a => some { Fields.base c 0x1C with ty := ty, od := d, oa := a }
  | .shl c ty d a b => some { Fields.base c 0x1D with ty := ty, od := d, oa := a, ob := b }
  | .shr c ty d a b => some { Fields.base c 0x1E with ty := ty, od := d, oa := a, ob := b }
  | .sar c ty d a b => some { Fields.base c 0x1F with ty := ty, od := d, oa := a, ob := b }
  | .rot c ty d a b => some { Fields.base c 0x20 with ty := ty, od := d, oa := a, ob := b }
  | .bxt c ty d a p n => some { Fields.base c 0x21 with ty := ty, od := d, oa := a, ob := p, oc := n }
  | .bins c ty d a b p n => some { Fields.base c 0x22 with ty := ty, od := d, oa := a, ob := b, oc := p, oe := n }
  | .bcnt c ty d a => some { Fields.base c 0x23 with ty := ty, od := d, oa := a }
  | .lzc c ty d a => some { Fields.base c 0x24 with ty := ty, od := d, oa := a }
  | .tzc c ty d a => some { Fields.base c 0x25 with ty := ty, od := d, oa := a }
  | .brvs c ty d a => some { Fields.base c 0x26 with ty := ty, od := d, oa := a }
  | .ixa c ty d a b sh => some { Fields.base c 0x27 with ty := ty, od := d, oa := a, ob := b, oc := sh }
  | .icmp c cond ty d a b => some { Fields.base c 0x28 with ty := ty, od := d, oa := a, ob := b, fn := cond.code }
  | .sel c ty d p a b => some { Fields.base c 0x29 with ty := ty, od := d, oa := p, ob := a, oc := b }
  | .mov c ty d a => some { Fields.base c 0x2A with ty := ty, od := d, oa := a }
  | .movi c ty d imm => some { Fields.base c 0x2B with ty := ty, od := d, imm := imm }
  | .movh c d imm => some { Fields.base c 0x2C with od := d, imm := imm, ty := .b64 }
  | .bperm c d a b s => some { Fields.base c 0x2D with od := d, oa := a, ob := b, oc := s, ty := .b32 }
  | .pand c op d a b => some { Fields.base c 0x2E with od := d, oa := a, ob := b, fn := op.code }
  | .cvt c rnd sat form dty sty d a n => some { Fields.base c 0x2F with ty := dty, ob := .imm (sty.code.setWidth 9), od := d, oa := a, oc := n, fn := rnd.code ||| boolAt 3 sat ||| form.code }
  | .fadd c rnd ty d a b => some { Fields.base c 0x30 with ty := ty, od := d, oa := a, ob := b, fn := rnd.code }
  | .fsub c rnd ty d a b => some { Fields.base c 0x31 with ty := ty, od := d, oa := a, ob := b, fn := rnd.code }
  | .fmul c rnd ty d a b => some { Fields.base c 0x32 with ty := ty, od := d, oa := a, ob := b, fn := rnd.code }
  | .ffma c rnd ty d a b e => some { Fields.base c 0x33 with ty := ty, od := d, oa := a, ob := b, oc := e, fn := rnd.code }
  | .fmin c ty d a b => some { Fields.base c 0x34 with ty := ty, od := d, oa := a, ob := b }
  | .fmax c ty d a b => some { Fields.base c 0x35 with ty := ty, od := d, oa := a, ob := b }
  | .fcmp c cond ty d a b => some { Fields.base c 0x36 with ty := ty, od := d, oa := a, ob := b, fn := cond.code }
  | .fclass c ty d a => some { Fields.base c 0x37 with ty := ty, od := d, oa := a }
  | .frnd c x rnd ty d a => some { Fields.base c 0x38 with ty := ty, od := d, oa := a, fn := boolAt 3 x ||| rnd.code }
  | .fscl c rnd ty d a n => some { Fields.base c 0x39 with ty := ty, od := d, oa := a, ob := n, fn := rnd.code }
  | .frcp c rnd ty d a => some { Fields.base c 0x3A with ty := ty, od := d, oa := a, fn := rnd.code }
  | .frsq c rnd ty d a => some { Fields.base c 0x3B with ty := ty, od := d, oa := a, fn := rnd.code }
  | .fsqrt c rnd ty d a => some { Fields.base c 0x3C with ty := ty, od := d, oa := a, fn := rnd.code }
  | .fex2 c rnd ty d a => some { Fields.base c 0x3D with ty := ty, od := d, oa := a, fn := rnd.code }
  | .flg2 c rnd ty d a => some { Fields.base c 0x3E with ty := ty, od := d, oa := a, fn := rnd.code }
  | .fsin c rnd ty d a => some { Fields.base c 0x3F with ty := ty, od := d, oa := a, fn := rnd.code }
  | .fcos c rnd ty d a => some { Fields.base c 0x40 with ty := ty, od := d, oa := a, fn := rnd.code }
  | .ftnh c rnd ty d a => some { Fields.base c 0x41 with ty := ty, od := d, oa := a, fn := rnd.code }
  | .mxadd c rnd ty d a b => some { Fields.base c 0x48 with ty := ty, od := d, oa := a, ob := b, fn := rnd.code }
  | .mxmul c rnd ty d a b => some { Fields.base c 0x49 with ty := ty, od := d, oa := a, ob := b, fn := rnd.code }
  | .mxfma c rnd ty d a b e => some { Fields.base c 0x4A with ty := ty, od := d, oa := a, ob := b, oc := e, fn := rnd.code }
  | .mxnorm c rnd ty d a => some { Fields.base c 0x4B with ty := ty, od := d, oa := a, fn := rnd.code }
  | .mxpack c rnd ty d a => some { Fields.base c 0x4C with ty := ty, od := d, oa := a, fn := rnd.code }
  | .mxunpk c rnd ty d a n => some { Fields.base c 0x4D with ty := ty, od := d, oa := a, ob := n, fn := rnd.code }
  | .scmovGet c d a => some { Fields.base c 0x4E with od := d, oa := a }
  | .scmovPut c d a => some { Fields.base c 0x4E with od := d, oa := a, fn := 1 }
  | .cbld c s a => some { Fields.base c 0x4F with oa := s, ob := a }
  | .cbxp c ty d a s q => some { Fields.base c 0x50 with ty := ty, od := d, oa := a, ob := s, oc := q }
  | .lxch c mode ty d a b => some { Fields.base c 0x58 with ty := ty, od := d, oa := a, ob := b, fn := mode.code }
  | .lvote c mode d a => some { Fields.base c 0x59 with od := d, oa := a, fn := mode.code }
  | .lred c op ty d a => some { Fields.base c 0x5A with ty := ty, od := d, oa := a, fn := op.code }
  | .lscn c ex op ty d a => some { Fields.base c 0x5B with ty := ty, od := d, oa := a, fn := boolAt 4 ex ||| op.code }
  | .getl c ty d a n => some { Fields.base c 0x5C with ty := ty, od := d, oa := a, ob := n }
  | .putl c ty d a n => some { Fields.base c 0x5D with ty := ty, od := d, oa := a, ob := n }
  | .ld c sp hint ty d t1 t2 t3 => some { Fields.base c 0x60 with ch := hint, ty := ty, od := d, oa := t1, ob := t2, oc := t3, fn := sp.code }
  | .st c sp hint ty d t1 t2 t3 => some { Fields.base c 0x61 with ch := hint, ty := ty, od := d, oa := t1, ob := t2, oc := t3, fn := sp.code }
  | .pref c sp hint ty t1 t2 t3 => some { Fields.base c 0x62 with ch := hint, ty := ty, oa := t1, ob := t2, oc := t3, fn := sp.code }
  | .llock c sp t1 t2 => some { Fields.base c 0x63 with oa := t1, ob := t2, fn := sp.code }
  | .lunlk c sp t1 t2 => some { Fields.base c 0x64 with oa := t1, ob := t2, fn := sp.code }
  | .atom c op ord scope sp ty d a b o => some { Fields.base c 0x65 with ch := scope.code, oe := sp.asOpd, ty := ty, od := d, oa := a, ob := b, oc := o, fn := op.code ||| ord.code }
  | .acas c scope sp ty d a b v => some { Fields.base c 0x66 with ch := scope.code, oe := sp.asOpd, ty := ty, od := d, oa := a, ob := b, oc := v }
  | .ldacq c sp scope ty d t1 t2 t3 => some { Fields.base c 0x67 with ch := scope.code, ty := ty, od := d, oa := t1, ob := t2, oc := t3, fn := sp.code }
  | .strel c sp scope ty d t1 t2 t3 => some { Fields.base c 0x68 with ch := scope.code, ty := ty, od := d, oa := t1, ob := t2, oc := t3, fn := sp.code }
  | .fence c kind scope => some { Fields.base c 0x69 with fn := kind.code ||| scope.code.setWidth 6 }
  | .xfence c src dst scope => some { Fields.base c 0x6A with ch := scope.code, fn := BitVec.ofNat 6 src.val ||| BitVec.ofNat 6 (dst.val * 8) }
  | .stref c sp hint d t1 t2 t3 => some { Fields.base c 0x70 with ch := hint, od := d, oa := t1, ob := t2, oc := t3, ty := .ref, fn := sp.code }
  | .ldref c sp hint d t1 t2 t3 p => some { Fields.base c 0x71 with ch := hint, od := d, oa := t1, ob := t2, oc := t3, oe := p, ty := .ref, fn := sp.code }
  | .pub c scope v t1 t2 => some { Fields.base c 0x72 with ch := scope.code, od := v, oa := t1, ob := t2, ty := .ref }
  | .objinit c a n => some { Fields.base c 0x73 with oa := a, ob := n }
  | .kld c k a => some { Fields.base c 0x78 with od := k, oa := a }
  | .kset c k s v => some { Fields.base c 0x79 with od := k, oa := s, ob := v }
  | .tld c hint k t co => some { Fields.base c 0x7A with ch := hint, od := k, oa := t, ob := co }
  | .tst c hint k t co => some { Fields.base c 0x7B with ch := hint, od := k, oa := t, ob := co }
  | .gath c hint k t co l => some { Fields.base c 0x7C with ch := hint, od := k, oa := t, ob := co, oc := l }
  | .scat c hint k t co l => some { Fields.base c 0x7D with ch := hint, od := k, oa := t, ob := co, oc := l }
  | .coll c d a => some { Fields.base c 0x7E with od := d, oa := a }
  | .qcfg c q a => some { Fields.base c 0x80 with od := q, oa := a }
  | .qacq c d q n => some { Fields.base c 0x81 with od := d, oa := q, ob := n }
  | .qcommit c q n => some { Fields.base c 0x82 with oa := q, ob := n }
  | .qwait c d q n => some { Fields.base c 0x83 with od := d, oa := q, ob := n }
  | .qfree c q n => some { Fields.base c 0x84 with oa := q, ob := n }
  | .brsv c b sa sb => some { Fields.base c 0x88 with od := b, oa := sa, ob := sb }
  | .bfree c b => some { Fields.base c 0x89 with od := b }
  | .cvset c cr imm => some { Fields.base c 0x8A with od := cr, imm := imm }
  | .tmac c n ty z bq vb cr p => some { Fields.base c 0x8B with ty := ty, od := z, oa := bq, ob := vb, oc := cr, oe := p, fn := boolAt 0 n }
  | .zclr c z => some { Fields.base c 0x8C with od := z }
  | .zmovToVector c ty d z pos => some { Fields.base c 0x8D with ty := ty, od := d, oa := z, ob := pos }
  | .zmovToTile c ty v z pos => some { Fields.base c 0x8D with ty := ty, od := v, oa := z, ob := pos, fn := 1 }
  | .zcpyToScratchpad c ty a z r => some { Fields.base c 0x8E with ty := ty, oa := a, ob := z, oc := r }
  | .zcpyToTile c ty a z r => some { Fields.base c 0x8E with ty := ty, oa := a, ob := z, oc := r, fn := 1 }
  | .zprom c z => some { Fields.base c 0x8F with od := z }
  | .gsync c => some (Fields.base c 0x90)
  | .barinit c i n => some { Fields.base c 0x91 with oa := i, ob := n }
  | .bararv c i => some { Fields.base c 0x92 with oa := i }
  | .barwt c i => some { Fields.base c 0x93 with oa := i }
  | .barsync c i => some { Fields.base c 0x94 with oa := i }
  | .wqenq c p bo f => some { Fields.base c 0x98 with od := p, oa := bo, ob := f }
  | .wqdeq c p bo f => some { Fields.base c 0x99 with od := p, oa := bo, ob := f }
  | .schnxt c p d => some { Fields.base c 0x9A with od := p, oa := d }
  | .launch c p bo f => some { Fields.base c 0x9B with od := p, oa := bo, ob := f }
  | .narm c p t b => some { Fields.base c 0x9C with od := p, oa := t, ob := b }
  | .nsend c d f => some { Fields.base c 0x9D with od := d, oa := f }
  | .getsr c ty d r => some { Fields.base c 0xA0 with ty := ty, od := d, oa := .sreg r }
  | .setsr c r a => some { Fields.base c 0xA1 with od := .sreg r, oa := a }
  | .vdhop c d a b => some { Fields.base c 0xA2 with od := d, oa := a, ob := b }
  | .clkq c d m => some { Fields.base c 0xA3 with od := d, oa := m }
  | _ => none

/-- The instruction whose entry reads these fields; none where FN or CH holds a code the entry does not give. -/
def build (f : Fields) : Option Instr :=
  match f.opc.toNat with
  | 0x01 => some (.nop f.ctl)
  | 0x02 => some (.jmp f.ctl f.tslot f.imm)
  | 0x03 => some (.jmpx f.ctl f.oa)
  | 0x04 => some (.call f.ctl f.od f.tslot f.imm)
  | 0x05 => some (.callx f.ctl f.od f.oa)
  | 0x06 => some (.ret f.ctl f.oa)
  | 0x07 => some (.exit f.ctl)
  | 0x08 => some (.cede f.ctl)
  | 0x09 => some (.dbrk f.ctl f.imm)
  | 0x0A => some (.trap f.ctl f.imm)
  | 0x0B => some (.tret f.ctl)
  | 0x0C => do let sp ← Space.ofCode (f.fn.extractLsb' 0 2); some (.holdw f.ctl sp f.ch f.ty f.od f.oa f.ob f.oc f.oe)
  | 0x10 => some (.iadd f.ctl (f.fn.getLsbD 0) f.ty f.od f.oa f.ob)
  | 0x11 => some (.isub f.ctl (f.fn.getLsbD 0) f.ty f.od f.oa f.ob)
  | 0x12 => some (.imul f.ctl f.ty f.od f.oa f.ob)
  | 0x13 => some (.imulh f.ctl f.ty f.od f.oa f.ob)
  | 0x14 => some (.imad f.ctl f.ty f.od f.oa f.ob f.oc)
  | 0x15 => some (.imin f.ctl f.ty f.od f.oa f.ob)
  | 0x16 => some (.imax f.ctl f.ty f.od f.oa f.ob)
  | 0x17 => some (.iabs f.ctl (f.fn.getLsbD 0) f.ty f.od f.oa)
  | 0x18 => some (.ineg f.ctl (f.fn.getLsbD 0) f.ty f.od f.oa)
  | 0x19 => some (.and f.ctl f.ty f.od f.oa f.ob)
  | 0x1A => some (.or f.ctl f.ty f.od f.oa f.ob)
  | 0x1B => some (.xor f.ctl f.ty f.od f.oa f.ob)
  | 0x1C => some (.not f.ctl f.ty f.od f.oa)
  | 0x1D => some (.shl f.ctl f.ty f.od f.oa f.ob)
  | 0x1E => some (.shr f.ctl f.ty f.od f.oa f.ob)
  | 0x1F => some (.sar f.ctl f.ty f.od f.oa f.ob)
  | 0x20 => some (.rot f.ctl f.ty f.od f.oa f.ob)
  | 0x21 => some (.bxt f.ctl f.ty f.od f.oa f.ob f.oc)
  | 0x22 => some (.bins f.ctl f.ty f.od f.oa f.ob f.oc f.oe)
  | 0x23 => some (.bcnt f.ctl f.ty f.od f.oa)
  | 0x24 => some (.lzc f.ctl f.ty f.od f.oa)
  | 0x25 => some (.tzc f.ctl f.ty f.od f.oa)
  | 0x26 => some (.brvs f.ctl f.ty f.od f.oa)
  | 0x27 => some (.ixa f.ctl f.ty f.od f.oa f.ob f.oc)
  | 0x28 => do let cond ← Cond.ofCode (f.fn.extractLsb' 0 4); some (.icmp f.ctl cond f.ty f.od f.oa f.ob)
  | 0x29 => some (.sel f.ctl f.ty f.od f.oa f.ob f.oc)
  | 0x2A => some (.mov f.ctl f.ty f.od f.oa)
  | 0x2B => some (.movi f.ctl f.ty f.od f.imm)
  | 0x2C => some (.movh f.ctl f.od f.imm)
  | 0x2D => some (.bperm f.ctl f.od f.oa f.ob f.oc)
  | 0x2E => do let op ← PredOp.ofCode (f.fn.extractLsb' 0 3); some (.pand f.ctl op f.od f.oa f.ob)
  | 0x2F => do let rnd ← Rnd.ofCode (f.fn.extractLsb' 0 3); let form ← Packing.ofCode (f.fn.extractLsb' 4 2); let sty ← f.ob.asTy; some (.cvt f.ctl rnd (f.fn.getLsbD 3) form f.ty sty f.od f.oa f.oc)
  | 0x30 => do let rnd ← Rnd.ofCode (f.fn.extractLsb' 0 3); some (.fadd f.ctl rnd f.ty f.od f.oa f.ob)
  | 0x31 => do let rnd ← Rnd.ofCode (f.fn.extractLsb' 0 3); some (.fsub f.ctl rnd f.ty f.od f.oa f.ob)
  | 0x32 => do let rnd ← Rnd.ofCode (f.fn.extractLsb' 0 3); some (.fmul f.ctl rnd f.ty f.od f.oa f.ob)
  | 0x33 => do let rnd ← Rnd.ofCode (f.fn.extractLsb' 0 3); some (.ffma f.ctl rnd f.ty f.od f.oa f.ob f.oc)
  | 0x34 => some (.fmin f.ctl f.ty f.od f.oa f.ob)
  | 0x35 => some (.fmax f.ctl f.ty f.od f.oa f.ob)
  | 0x36 => do let cond ← Cond.ofCode (f.fn.extractLsb' 0 4); some (.fcmp f.ctl cond f.ty f.od f.oa f.ob)
  | 0x37 => some (.fclass f.ctl f.ty f.od f.oa)
  | 0x38 => do let rnd ← Rnd.ofCode (f.fn.extractLsb' 0 3); some (.frnd f.ctl (f.fn.getLsbD 3) rnd f.ty f.od f.oa)
  | 0x39 => do let rnd ← Rnd.ofCode (f.fn.extractLsb' 0 3); some (.fscl f.ctl rnd f.ty f.od f.oa f.ob)
  | 0x3A => do let rnd ← Rnd.ofCode (f.fn.extractLsb' 0 3); some (.frcp f.ctl rnd f.ty f.od f.oa)
  | 0x3B => do let rnd ← Rnd.ofCode (f.fn.extractLsb' 0 3); some (.frsq f.ctl rnd f.ty f.od f.oa)
  | 0x3C => do let rnd ← Rnd.ofCode (f.fn.extractLsb' 0 3); some (.fsqrt f.ctl rnd f.ty f.od f.oa)
  | 0x3D => do let rnd ← Rnd.ofCode (f.fn.extractLsb' 0 3); some (.fex2 f.ctl rnd f.ty f.od f.oa)
  | 0x3E => do let rnd ← Rnd.ofCode (f.fn.extractLsb' 0 3); some (.flg2 f.ctl rnd f.ty f.od f.oa)
  | 0x3F => do let rnd ← Rnd.ofCode (f.fn.extractLsb' 0 3); some (.fsin f.ctl rnd f.ty f.od f.oa)
  | 0x40 => do let rnd ← Rnd.ofCode (f.fn.extractLsb' 0 3); some (.fcos f.ctl rnd f.ty f.od f.oa)
  | 0x41 => do let rnd ← Rnd.ofCode (f.fn.extractLsb' 0 3); some (.ftnh f.ctl rnd f.ty f.od f.oa)
  | 0x48 => do let rnd ← Rnd.ofCode (f.fn.extractLsb' 0 3); some (.mxadd f.ctl rnd f.ty f.od f.oa f.ob)
  | 0x49 => do let rnd ← Rnd.ofCode (f.fn.extractLsb' 0 3); some (.mxmul f.ctl rnd f.ty f.od f.oa f.ob)
  | 0x4A => do let rnd ← Rnd.ofCode (f.fn.extractLsb' 0 3); some (.mxfma f.ctl rnd f.ty f.od f.oa f.ob f.oc)
  | 0x4B => do let rnd ← Rnd.ofCode (f.fn.extractLsb' 0 3); some (.mxnorm f.ctl rnd f.ty f.od f.oa)
  | 0x4C => do let rnd ← Rnd.ofCode (f.fn.extractLsb' 0 3); some (.mxpack f.ctl rnd f.ty f.od f.oa)
  | 0x4D => do let rnd ← Rnd.ofCode (f.fn.extractLsb' 0 3); some (.mxunpk f.ctl rnd f.ty f.od f.oa f.ob)
  | 0x4E => if f.fn.getLsbD 0 then some (.scmovPut f.ctl f.od f.oa) else some (.scmovGet f.ctl f.od f.oa)
  | 0x4F => some (.cbld f.ctl f.oa f.ob)
  | 0x50 => some (.cbxp f.ctl f.ty f.od f.oa f.ob f.oc)
  | 0x58 => some (.lxch f.ctl (XchMode.ofCode (f.fn.extractLsb' 0 2)) f.ty f.od f.oa f.ob)
  | 0x59 => some (.lvote f.ctl (VoteMode.ofCode (f.fn.extractLsb' 0 2)) f.od f.oa)
  | 0x5A => do let op ← RedOp.ofCode (f.fn.extractLsb' 0 4); some (.lred f.ctl op f.ty f.od f.oa)
  | 0x5B => do let op ← RedOp.ofCode (f.fn.extractLsb' 0 4); some (.lscn f.ctl (f.fn.getLsbD 4) op f.ty f.od f.oa)
  | 0x5C => some (.getl f.ctl f.ty f.od f.oa f.ob)
  | 0x5D => some (.putl f.ctl f.ty f.od f.oa f.ob)
  | 0x60 => do let sp ← Space.ofCode (f.fn.extractLsb' 0 2); some (.ld f.ctl sp f.ch f.ty f.od f.oa f.ob f.oc)
  | 0x61 => do let sp ← Space.ofCode (f.fn.extractLsb' 0 2); some (.st f.ctl sp f.ch f.ty f.od f.oa f.ob f.oc)
  | 0x62 => do let sp ← Space.ofCode (f.fn.extractLsb' 0 2); some (.pref f.ctl sp f.ch f.ty f.oa f.ob f.oc)
  | 0x63 => do let sp ← Space.ofCode (f.fn.extractLsb' 0 2); some (.llock f.ctl sp f.oa f.ob)
  | 0x64 => do let sp ← Space.ofCode (f.fn.extractLsb' 0 2); some (.lunlk f.ctl sp f.oa f.ob)
  | 0x65 => do let op ← RedOp.ofCode (f.fn.extractLsb' 0 4); let scope ← Scope.ofCode f.ch; let sp ← Space.ofOpd f.oe; some (.atom f.ctl op (Ordering.ofCode (f.fn.extractLsb' 4 2)) scope sp f.ty f.od f.oa f.ob f.oc)
  | 0x66 => do let scope ← Scope.ofCode f.ch; let sp ← Space.ofOpd f.oe; some (.acas f.ctl scope sp f.ty f.od f.oa f.ob f.oc)
  | 0x67 => do let sp ← Space.ofCode (f.fn.extractLsb' 0 2); let scope ← Scope.ofCode f.ch; some (.ldacq f.ctl sp scope f.ty f.od f.oa f.ob f.oc)
  | 0x68 => do let sp ← Space.ofCode (f.fn.extractLsb' 0 2); let scope ← Scope.ofCode f.ch; some (.strel f.ctl sp scope f.ty f.od f.oa f.ob f.oc)
  | 0x69 => do let scope ← Scope.ofCode (f.fn.extractLsb' 0 3); some (.fence f.ctl (FenceKind.ofCode (f.fn.extractLsb' 3 2)) scope)
  | 0x6A => do let src ← classOf (f.fn.extractLsb' 0 3); let dst ← classOf (f.fn.extractLsb' 3 3); let scope ← Scope.ofCode f.ch; some (.xfence f.ctl src dst scope)
  | 0x70 => do let sp ← Space.ofCode (f.fn.extractLsb' 0 2); some (.stref f.ctl sp f.ch f.od f.oa f.ob f.oc)
  | 0x71 => do let sp ← Space.ofCode (f.fn.extractLsb' 0 2); some (.ldref f.ctl sp f.ch f.od f.oa f.ob f.oc f.oe)
  | 0x72 => do let scope ← Scope.ofCode f.ch; some (.pub f.ctl scope f.od f.oa f.ob)
  | 0x73 => some (.objinit f.ctl f.oa f.ob)
  | 0x78 => some (.kld f.ctl f.od f.oa)
  | 0x79 => some (.kset f.ctl f.od f.oa f.ob)
  | 0x7A => some (.tld f.ctl f.ch f.od f.oa f.ob)
  | 0x7B => some (.tst f.ctl f.ch f.od f.oa f.ob)
  | 0x7C => some (.gath f.ctl f.ch f.od f.oa f.ob f.oc)
  | 0x7D => some (.scat f.ctl f.ch f.od f.oa f.ob f.oc)
  | 0x7E => some (.coll f.ctl f.od f.oa)
  | 0x80 => some (.qcfg f.ctl f.od f.oa)
  | 0x81 => some (.qacq f.ctl f.od f.oa f.ob)
  | 0x82 => some (.qcommit f.ctl f.oa f.ob)
  | 0x83 => some (.qwait f.ctl f.od f.oa f.ob)
  | 0x84 => some (.qfree f.ctl f.oa f.ob)
  | 0x88 => some (.brsv f.ctl f.od f.oa f.ob)
  | 0x89 => some (.bfree f.ctl f.od)
  | 0x8A => some (.cvset f.ctl f.od f.imm)
  | 0x8B => some (.tmac f.ctl (f.fn.getLsbD 0) f.ty f.od f.oa f.ob f.oc f.oe)
  | 0x8C => some (.zclr f.ctl f.od)
  | 0x8D => if f.fn.getLsbD 0 then some (.zmovToTile f.ctl f.ty f.od f.oa f.ob) else some (.zmovToVector f.ctl f.ty f.od f.oa f.ob)
  | 0x8E => if f.fn.getLsbD 0 then some (.zcpyToTile f.ctl f.ty f.oa f.ob f.oc) else some (.zcpyToScratchpad f.ctl f.ty f.oa f.ob f.oc)
  | 0x8F => some (.zprom f.ctl f.od)
  | 0x90 => some (.gsync f.ctl)
  | 0x91 => some (.barinit f.ctl f.oa f.ob)
  | 0x92 => some (.bararv f.ctl f.oa)
  | 0x93 => some (.barwt f.ctl f.oa)
  | 0x94 => some (.barsync f.ctl f.oa)
  | 0x98 => some (.wqenq f.ctl f.od f.oa f.ob)
  | 0x99 => some (.wqdeq f.ctl f.od f.oa f.ob)
  | 0x9A => some (.schnxt f.ctl f.od f.oa)
  | 0x9B => some (.launch f.ctl f.od f.oa f.ob)
  | 0x9C => some (.narm f.ctl f.od f.oa f.ob)
  | 0x9D => some (.nsend f.ctl f.od f.oa)
  | 0xA0 => do let r ← f.oa.asSReg; some (.getsr f.ctl f.ty f.od r)
  | 0xA1 => do let r ← f.od.asSReg; some (.setsr f.ctl r f.oa)
  | 0xA2 => some (.vdhop f.ctl f.od f.oa f.ob)
  | 0xA3 => some (.clkq f.ctl f.od f.oa)
  | _ => none

/-- Decode a word (R278): an instruction, or the name of what is wrong with the word. -/
def decode (w : BitVec 96) : Except Reject Instr :=
  if !assigned (w.extractLsb' 0 8) then .error .unassignedOpcode else
  match Fields.ofBits w with
  | .error r => .error r
  | .ok f =>
    match build f with
    | none => .error .functionCode
    | some i =>
      if i.fields ≠ some f then .error .unusedField
      else if i.wf then .ok i else .error .operandForm

/-- The word of an instruction; none for an event. -/
def encode? (i : Instr) : Option (BitVec 96) := i.fields.map Fields.bits

/-- The word of an instruction; 0, which is no instruction's word, for an event. -/
def encode (i : Instr) : BitVec 96 := (encode? i).getD 0

/-- Which 96-bit word stands in slot `s` of a line's 512 bits (R265). -/
def slotWord (line : BitVec 512) (s : Nat) : BitVec 96 := line.extractLsb' (96 * s) 96

/-- The instruction a table word decodes to. The table numbers a word's bits as R269 does, bit 0 the least significant of the
lowest-addressed byte (R6), and every instruction is 96 bits long. -/
def decodeTableWord (_nbits w : Nat) : Option Instr :=
  match decode (BitVec.ofNat 96 w) with
  | .ok i => some i
  | .error _ => none

/-- PAR[j] of R267 for a line's 480 payload bits: the parity of bits 30j to 30j + 29. -/
def parityBit (line : BitVec 512) (j : Nat) : Bool :=
  (List.range 30).foldl (fun p k => p ^^ line.getLsbD (30 * j + k)) false

/-- The sixteen parity bits of a line's payload (R267). -/
def lineParity (line : BitVec 512) : BitVec 16 :=
  BitVec.ofNat 16 ((List.range 16).foldl (fun n j => if parityBit line j then n + 2 ^ j else n) 0)

/-- The line word (R265, Table 22-1). -/
def lineWord (line : BitVec 512) : BitVec 32 := line.extractLsb' 480 32

/-- The line passes the parity check of R267. -/
def lineParityOk (line : BitVec 512) : Bool := (lineWord line).extractLsb' 16 16 == lineParity line

/-- Bits 15:9 of the line word are zero (R266). -/
def lineReservedOk (line : BitVec 512) : Bool := (lineWord line).extractLsb' 9 7 == 0

/-- Slot `s` is a legal branch target (Table 22-1). -/
def lineTarget (line : BitVec 512) (s : Nat) : Bool := decide (s < 5) && (lineWord line).getLsbD s

end Sys2Proof
end

