-- ==== Sys2Proof/Config.lean ====
section
/-! DEFINITION. Config.lean: what the manual fixes once for every CV480, and the free values: constants without a body,
for what the manual leaves open. Nothing proves a value of one. -/

namespace Sys2Proof.Config

/-- The quarantine window W in ns (R59). -/
def window : Nat := 48

/-- Most unverified checkpoints of a group (R62). -/
def maxUnverified : Nat := 4

/-- Quarantine-buffer entries of a core (R64). -/
def quarantineEntries : Nat := 512

/-- Bytes of an engine's staging buffer. DESIGN CHOICE: R64 names the buffer and gives no size (log 9). -/
def stagingBytes : Nat := 16384

/-- Instructions from the head run before a guard turn, and the length of one (R31). -/
def starvationLimit : Nat := 1024
def guardTurnLength : Nat := 64

/-- Clusters of a die, cores of a cluster, groups of a quadrant (R1, R24). -/
def clustersPerDie : Nat := 9
def coresPerCluster : Nat := 16

/-- Size of one die's physical-address window (R12). -/
def dieWindow : Nat := 2 ^ 37

/-- Where the model keeps host memory (MT 1 and MT 2) and peer memory (MT 3) in its one list of bytes: above every device
physical address, which has 51 bits (R135). DESIGN CHOICE (log 2). -/
def hostBase : Nat := 2 ^ 52
def peerBase : Nat := 2 ^ 53

/-- Clock frequencies in MHz by domain code (0 MATH, 1 VEC, 2 NET, 3 MEM) and point (Table 18-1). -/
def mhz (dom op : Nat) : Nat :=
  (([[650, 800, 950, 1050, 1150, 1300, 1450, 1600], [800, 950, 1100, 1250, 1400, 1600, 1800, 2000],
     [1000, 1200, 1400, 1600, 1800, 2000, 2200, 2400], [1000, 1150, 1300, 1450, 1600, 1750, 1900, 2000]] : List (List Nat)).getD dom []).getD op 0

/-- The nominal point of a domain (Table 18-1). -/
def nominal (dom : Nat) : Nat := if dom = 3 then 7 else 5

/-- Choices the manual leaves open (R101, R174, R178), one for each value of State.fresh (log 4). -/
opaque freeNat : Nat → Nat

/-- Bytes the manual calls undefined or without meaning (R234, R307, R406), one for each address and State.fresh (log 4). -/
opaque freeByte : Nat → Nat → Byte

/-- The signature check of R253 on a firmware image, given its bytes (log 12). -/
opaque imageSignatureOk : List Byte → Bool

/-- The security version number an image's header carries (R253). -/
opaque imageSvn : List Byte → Nat

/-- The SHA-384 digest of R253 (log 12). -/
opaque digest : List Byte → List Byte

/-- The credential check of DEBUG_UNLOCK: credential, nonce and partition byte (Table 20-10; log 12). -/
opaque credentialOk : List Byte → List Byte → Nat → Bool

/-- Whether a provisioning bundle verifies under the provisioning root (Table 20-10; log 12). -/
opaque provisionOk : List Byte → Bool

/-- Whether an SPDM request is well formed (R235, R254; log 12). -/
opaque spdmWellFormed : List Byte → Bool

/-- The signed answer to an SPDM request: the identity key, the nonce and the measured bytes (R254; log 12). -/
opaque spdmSign : List Byte → List Byte → List Byte → List Byte

/-- The device identity key that a provisioning bundle carries (Table 20-10; log 12). -/
opaque provisionKey : List Byte → List Byte

/-- The hash of R241 that picks the Wharf port for a destination, by device and partition (log 35). -/
opaque wharfHash : Nat → Nat → Nat

/-- The host completes a read of a transfer with an error (R252), one answer for each value of State.fresh (log 36). -/
opaque hostError : Nat → Bool

/-- A nonce of Table 20-10, one for each value of State.fresh. -/
opaque freshNonce : Nat → List Byte

/-- A key drawn from the device's random source (R406), one for each value of State.fresh. -/
opaque freshKey : Nat → Nat

/-- What the masks of a die hold, one for each place of WINDOW_INFO: the spec publishes them and gives no value (log 43). -/
opaque freeMask : Nat → Nat → Nat

/-- The address bits that the masks may name (R19): those of a die's window above the line, but for the colour's PA[21:16]. -/
def maskBits : Nat := 2 ^ 37 - 2 ^ 22 + (2 ^ 16 - 2 ^ 6)

/-- The published XOR masks of a die, in the order of WINDOW_INFO (R19, Table 20-8), each a word of 64 bits. -/
def windowMask (die i : Nat) : Nat := freeMask die i &&& maskBits

/-- The number of home-slice index bits and set-index bits below the colour's (R141): NS = 5, NI = 6; and NP, the
pseudo-channel bits below the colour's: pseudo-channels 2c and 2c + 1 belong to colour c (R19), so one bit. -/
def ns : Nat := 5
def ni : Nat := 6
def np : Nat := 1

end Sys2Proof.Config
end

