-- ==== Sys2Proof/Machine/State.lean ====
section
/-! DEFINITION. Machine/State.lean: everything the manual gives the CV480, as plain data, and the state after package
reset. Field docstrings name the rule that gives the field; INVENTORY.md lists them all. -/

namespace Sys2Proof.Machine

/-- Bytes of one address space: (address, byte) pairs with strictly rising addresses and no zero byte, because an unlisted
address reads as 0x00 (log 2). -/
structure Memory where
  cells : List Host.Cell
deriving DecidableEq, Repr, Inhabited

/-- Strictly rising addresses above `lo`, no zero byte. -/
def cellsWf : Nat → List Host.Cell → Bool
  | _, [] => true
  | lo, (a, b) :: r => decide (lo ≤ a) && decide (b ≠ 0) && cellsWf (a + 1) r

/-- The canonical form of a memory. -/
def Memory.wf (m : Memory) : Bool := cellsWf 0 m.cells

/-- The memory with no byte listed. -/
def Memory.empty : Memory := ⟨[]⟩

/-- What a thread has to see: for some bytes of a word (log 8), the number of a store in their coherence order (R170, R173). -/
abbrev View := List (Nat × Nat)

/-- Who made an access: a thread of a group on a core, an I/O die, or the host. -/
inductive Agent where
  | thread (g : GroupKey) (core : CoreId)
  | iod
  | host
deriving DecidableEq, Repr, Inhabited

/-- What a store releases (R172, R412): at a scope, what happens before it, by whom. While the store is staged, the releasing
lane's own stores older than `upto`, and its group's older than `sync`, join the view as they are released. `gen` and `born` are
the generation of a narrow release and when it was made (R180, R412). -/
structure Release where
  scope : Scope
  view  : View
  agent : Agent
  lane  : Nat
  upto  : Nat
  sync  : Nat
  gen   : Nat
  born  : Nat
deriving DecidableEq, Repr, Inhabited

/-- An aligned 8-byte word with its reference tag (R156) and its poison (R405). -/
structure WordState where
  val  : Dword
  tag  : Bool
  pois : Bool
deriving DecidableEq, Repr, Inhabited

/-- What one store does to one word: the bytes it writes (bit 8 stands for the tag), its number, the word before and after it, what it
releases, and the core that keeps it from other cores while it holds the line locked, with, once it is unlocked, the number of the last store
made so: other cores see all of them or none (R351). -/
structure Msg where
  key  : Nat
  mask : Nat
  num  : Nat
  old  : WordState
  val  : WordState
  rels : List Release
  atom : Bool
  hid  : Option (CoreId × Option Nat)
  eng  : Bool            -- an engine's write, of class 1 to 5 (R185)
deriving DecidableEq, Repr, Inhabited

/-- Device, host and peer memory with tags (R156), poison (R405) and the store history behind R170 to R175 (log 8). -/
structure Ram where
  mem    : Memory
  tags   : List Nat      -- word addresses whose reference tag is set, rising
  poison : List Nat      -- word addresses that are poisoned, rising
  hist   : List Msg      -- newest first
  num    : Nat           -- number of the latest store
  sc     : List Release  -- FENCE.sc operations in their total order, newest first (R176)
deriving DecidableEq, Repr, Inhabited

/-- Home states (Table 11-1). -/
inductive HomeState where
  | i | s | e | o | m
deriving DecidableEq, Repr, Inhabited

/-- Where a home request stands (R143): on its way, or collecting acknowledgements. -/
inductive ReqStage where
  | sent | probing
deriving DecidableEq, Repr, Inhabited

/-- A read or ownership request of a core for a line (R143). -/
structure HomeReq where
  core  : CoreId
  line  : Nat
  own   : Bool
  priv  : Bool             -- an unpublished line of a PRIV page, kept out of the directory (R160)
  stage : ReqStage
  wait  : List CoreId      -- holders probed, whose answers have not been given
  acks  : List CoreId      -- answers on their way to the home (R143)
deriving DecidableEq, Repr, Inhabited

/-- What a home slice keeps for a line (R142, R152, R160). -/
structure Line where
  addr      : Nat
  state     : HomeState
  owner     : Option CoreId
  holders   : List CoreId
  published : Bool
  stamp     : Option Nat     -- none: marked old (R152)
deriving DecidableEq, Repr, Inhabited

/-- A die-directory region entry (Table 11-2), 512 bytes. -/
structure Region where
  addr   : Nat
  narrow : Bool
  host   : Bool
  dies   : BitVec 4
  clus   : BitVec 9
deriving DecidableEq, Repr, Inhabited

/-- A narrow-holder record (R180). -/
structure Narrow where
  line    : Nat
  die     : Nat
  cluster : Nat
  scope   : Scope
  gen     : Nat
  asked   : Bool        -- a widen request has been sent (R181)
deriving DecidableEq, Repr, Inhabited

/-- Who made the last release of a line, as a scope checker keeps it: the issue slot of a core's quadrant (R183), an I/O die, or an agent
outside the device (R188). -/
inductive Releaser where
  | slot (core : CoreId) (quad n : Nat)
  | iod
  | outside
deriving DecidableEq, Repr, Inhabited

/-- A scope-checker entry (R183), oldest use first in its list: the scope of the last release and its releaser; and the context whose
line it is. -/
structure Checker where
  line  : Nat
  scope : Scope
  who   : Releaser
  part  : Nat
  ctx   : Nat
deriving DecidableEq, Repr, Inhabited

/-- A page migration (R139). -/
structure Migration where
  id    : Nat
  part  : Nat
  size  : Nat
  src   : Nat
  dst   : Nat
  mbox  : MboxSource × Dword   -- who is told when it ends
deriving DecidableEq, Repr, Inhabited

/-- A TLB invalidation waiting for its answer (R138): the groups whose accesses it waits for, with sequence numbers. -/
structure TlbSync where
  id    : Nat
  waits : List (GroupKey × Nat)
  mbox  : Option (MboxSource × Dword)
deriving DecidableEq, Repr, Inhabited

/-- A translation that a core's TLB, or the walk-ahead TLB of its tile translation engine, holds (R134): the page's virtual base, its
size and its leaf entry. -/
structure TlbEntry where
  part : Nat
  ctx  : Nat
  core : CoreId
  va   : Nat
  size : Nat
  pte  : Nat
  ahead : Bool
deriving DecidableEq, Repr, Inhabited

/-- Coherence, scopes and translation state of the package (chapters 10, 11, 14). -/
structure Coh where
  lines    : List Line
  reqs     : List HomeReq
  regions  : List Region
  guests   : List (Nat × Nat × BitVec 9)         -- guest tables: a die, a region homed on another, the die's clusters that cache it (R144)
  narrows  : List Narrow
  done     : List (Nat × Nat × Nat × Option Nat) -- (die, cluster, tick, generation, none for all): narrow releases completed (R180, R412)
  ticks    : Nat
  deps     : List (Nat × Nat × Nat × Nat × Nat)  -- (die, cluster) depends on (die, cluster, generation) (R182)
  checkers : List Checker
  dg       : List Nat                            -- die generation of each die (R152)
  asleep   : List (Nat × Nat × Nat)              -- (die, slice, recorded DG) of sleeping banks (R153)
  linkDown : List Nat                            -- Causeway links that are down (R151)
  tlb      : List TlbEntry
  keyed    : List (Nat × Nat × Nat)              -- the KEYID under which a page of device memory was used last: base, size, KEYID (R406)
  syncs    : List TlbSync
  migs     : List Migration
  nextId   : Nat
deriving DecidableEq, Repr, Inhabited

/-- A vector register of a group: its lanes and its sidecar (R43, R88). -/
structure VReg where
  lanes : List Word
  side  : List Byte
deriving DecidableEq, Repr, Inhabited

/-- What a thread's loads and stores are ordered by (R171 to R176, R187, R412). -/
structure ThreadMem where
  view : View                     -- what its own accesses have read and written (R170)
  posted : View                   -- its group's writes to MT 2 and MT 3 pages, which only a system-scope release covers (R187)
  hb   : View                     -- what happens before its next access (R173)
  pend : List Release             -- releases its plain loads have read, for FENCE.acq
  rels : List Release             -- FENCE.rel, ar and sc before its later stores
deriving DecidableEq, Repr, Inhabited

/-- An XFENCE of the group (R186), with what its source class has performed of the accesses before it. -/
structure XFence where
  src : Nat
  dst : Nat
  seq : Nat
  view : View
deriving DecidableEq, Repr, Inhabited

/-- What the accesses of a group are ordered by: its threads; for the engine classes 1 to 5, what their accesses have to see and
what they have written; its XFENCEs; and the sequence number of its latest GSYNC (R329). The model's own reading (log 8); wound
back with a checkpoint, because a discarded access is no event (R169). -/
structure MemOrder where
  threads : List ThreadMem
  must    : List View
  seen    : List View
  xfences : List XFence
  gsync   : Nat
deriving DecidableEq, Repr, Inhabited

/-- The register files of a group (R43 to R45). -/
inductive RegFile where
  | vec | scl | prd
deriving DecidableEq, Repr, Inhabited

/-- What a checkpoint records of a group (R56). -/
structure Arch where
  v        : List VReg
  s        : List Dword
  p        : List Mask        -- p0 to p14
  pcs      : List Dword
  exited   : Mask
  parked   : Mask
  entering : Mask             -- threads that stand at THAND or CODE, whose line has not been checked as a target's (R268)
  starve   : Nat
  rot      : Dword
  lastRun  : Mask             -- head run of the previous fetch decision (R31)
  turn     : Option (Mask × Nat)   -- threads of a guard turn and the instructions issued in it (R31)
  fpctl    : Dword
  fpflg    : Dword
  mxflg    : Dword
  tcause   : Dword
  tpc      : Dword
  taddr    : Dword
  tmask    : Dword
  thand    : Dword
  heldPc   : List Dword       -- held PCs of R223
  heldSet  : Mask             -- threads held while HMODE is set (R223)
  pois     : List (RegFile × Nat × Nat)  -- poisoned words of the register files: the file, the register, the pair of lanes (R76, R405)
  mem      : MemOrder
deriving DecidableEq, Repr, Inhabited

/-- A checkpoint (R60, R61). -/
structure Ckpt where
  seq      : Nat
  complete : Option Nat       -- when it became complete
  verified : Bool
  arch     : Arch
deriving DecidableEq, Repr, Inhabited

/-- A trap about to be delivered (R55): cause, PC, lanes and address. -/
structure Trap where
  cause : Nat
  pc    : Dword
  mask  : Mask
  addr  : Dword
  flags : BitVec 6        -- flags the trapping instruction raised (R93)
deriving DecidableEq, Repr, Inhabited

/-- A reservation record (R103), with the q bound to it and its mark for freeing (R104). -/
structure Resv where
  off    : Nat
  len    : Nat
  fmt    : Dword
  marked : Bool
  freed  : Bool                -- the BFREE has been released
deriving DecidableEq, Repr, Inhabited

/-- Slot states of a circular buffer (R128, R129). -/
inductive SlotState where
  | free | acquired (g : GroupKey) | committed | filled | waited (g : GroupKey) | freed
  | returnedFree | returnedFilled
deriving DecidableEq, Repr, Inhabited

/-- A circular buffer (R128, R382): its descriptor, its slots and the ring positions of the next hand-outs. A group sees its own staged
commits and frees at once: the positions it has taken for that ahead of `fill`, and acquired ahead of `free`, are noted with it. -/
structure Queue where
  id    : Nat                  -- which QCFG has made it
  desc  : Dword
  slots : List SlotState
  prod  : Nat                  -- ring position of the next slot to hand to a producer; positions count on past S
  fill  : Nat                  -- of the first slot over which N has not advanced
  cons  : Nat                  -- of the next slot to hand to a consumer
  free  : Nat                  -- of the first slot over which F has not advanced
  ahead : List (Nat × GroupKey)
  early : List (Nat × GroupKey)
  bound : Option Nat           -- the reservation it is bound to (R105)
  view  : View                 -- what its commits have released to consumers, and its frees to producers (R129, R384)
  back  : View
deriving DecidableEq, Repr, Inhabited

/-- A barrier object (Table 23-6). -/
structure Barrier where
  init : Bool
  e    : Nat
  ec   : Nat
  a    : Nat
  ph   : BitVec 32
  arr  : List (Nat × BitVec 32)      -- thread and the phase of its last arrival
  waiting : List Nat                 -- threads that wait at a BARWT for its phase (R232, R290)
  acc  : View                        -- what the arrivals of the current phase release (R289)
  seen : View                        -- what the completed phases have released
deriving DecidableEq, Repr, Inhabited

/-- An object register, codebook slot or barrier object as an entry found it, or the debug halt it has made: what the entry puts back when
it is discarded before it retires (R54, R55). -/
inductive ObjImage where
  | shape (k : Nat) (x : Option (List Byte))
  | resv (b : Nat) (x : Option Resv)
  | count (c : Nat) (x : Option Nat)
  | queue (q : Nat) (x : Option Queue)
  | book (slot : Nat) (x : Option (List Byte))
  | bar (id : Nat) (x : Barrier)
  | halt
deriving DecidableEq, Repr, Inhabited

/-- A reorder-buffer entry (R51). -/
structure Entry where
  seq      : Nat
  pc       : Dword
  run      : Mask
  act      : Mask
  executed : Bool
  flags    : BitVec 6
  mx       : BitVec 4
  wr       : Option (SReg × Dword)   -- SETSR of FPFLG or MXFLG, written at retirement (R91, R116)
  undo     : Arch                    -- the previous mappings: the registers before it (R51, R54)
  dsts     : List Opd                -- the registers it writes, which younger entries wait for (R47)
  deps     : List Nat                -- the older entries whose results it waits for (R47)
  branch   : Bool                    -- a branch, which fetch has predicted (R54)
  objs     : List ObjImage           -- what it has replaced outside the renamed registers
deriving DecidableEq, Repr, Inhabited

/-- Where a write goes: memory behind a translation, the scratchpad of a core rank, or its operand buffer. -/
inductive Target where
  | mem
  | scr (rank : Nat)
  | opbuf (rank : Nat)
deriving DecidableEq, Repr, Inhabited

/-- One run of bytes that an effect writes, and the threads it is written for: one lane, or all the active ones where the store acts
once (R394). -/
structure Piece where
  tgt  : Target
  addr : Nat
  data : List Byte
  lanes : Mask
  posted : Bool             -- on an MT 2 or MT 3 page (R187)
deriving DecidableEq, Repr, Inhabited

/-- What a write does to the reference tags of the words it touches (Table 13-1). -/
inductive TagOp where
  | clear | set
deriving DecidableEq, Repr, Inhabited

/-- Staged effects (Table 5-2). -/
inductive EffectKind where
  | write (pieces : List Piece) (tag : TagOp) (rel : Option Scope)
  | objInit (header : Piece) (ranges : List (Nat × Nat))   -- runs of bytes whose tags are cleared
  | qacq (id q first n : Nat)             -- of the buffer `id` of a QCFG, from a ring position on
  | qwait (id q first n : Nat)
  | qcommit (id q n : Nat)
  | qfree (id q n : Nat)
  | slotCommit (id q at_ : Nat)           -- an engine command's commit of its slot, at a ring position (Table 10-3)
  | slotFree (id q at_ : Nat)
  | arrive (id : Nat) (threads : List Nat)
  | schnxt (rank entry : Nat)
  | bfree (rank b : Nat)
  | tile (rank z shadow : Nat)
deriving DecidableEq, Repr, Inhabited

/-- A staged effect: its instruction's sequence number, its engine class (Table 14-5), what it does, when its data was
complete, its release time once its instruction has retired (R65), and what the threads had seen when it executed. -/
structure Effect where
  seq    : Nat
  cls    : Nat
  kind   : EffectKind
  execAt : Nat
  relAt  : Option Nat
  away   : Bool              -- its holder lies outside the core (R66)
  held   : Bool              -- sent ahead to its holder (R66)
  pois   : List (Target × Nat) -- the words of its data that have met a double-bit error (R76, R405)
  rels   : List Release           -- what its stores release, by lane
deriving DecidableEq, Repr, Inhabited

/-- What an engine command does when it executes (R133, R324, R403). -/
inductive CmdKind where
  | tld | tst | gath | scat | zcpyOut
deriving DecidableEq, Repr, Inhabited

/-- A run of bytes of an accepted command: the dense image offset, the length and the physical address, none for a fill; the
page's leaf entry and the virtual address. -/
structure Elem where
  off  : Nat
  len  : Nat
  addr : Option Nat
  pte  : Nat
  va   : Nat
deriving DecidableEq, Repr, Inhabited

/-- An engine command accepted by the probe and not finished (R343, R407). -/
structure Cmd where
  seq   : Nat
  cls   : Nat
  kind  : CmdKind
  size  : Nat
  fill  : List Byte
  elems : List Elem           -- what is left to move, in the order produced
  tgt   : Target
  base  : Nat                 -- image base in the target
  perm  : Nat                 -- bank permutation and row length of the image (R127)
  rowlen : Nat
  slot  : Option (Nat × Nat)  -- the q and its slot's ring position
  pc    : Dword
  act   : Mask
  paused : Bool
  past   : Bool               -- its writes pass L1 by (hint 3, R66)
  spill : Nat                 -- translation-spill entries in use (R134)
deriving DecidableEq, Repr, Inhabited

/-- A commit point of a group that has dispatched and not completed (R67): its PC, the number of its checkpoint, whether its effect has
begun (R293), its threads, none for the delivery of a trap, those of them that have left the PC table at an EXIT (R38, R314), its registers,
and its word. -/
structure Commit where
  pc    : Dword
  seq   : Nat
  begun : Bool
  run   : Mask
  exits : Mask
  dsts  : List Opd                 -- the registers it writes, which younger instructions wait for (R47)
  srcs  : List Opd                 -- the registers of the whole group that it has still to read
  sc    : Bool                     -- a FENCE.sc, for which younger loads wait (R176)
  word  : BitVec 96
  idle  : Bool                     -- it waits as a thread of R28 or R231 waits, and a save passes it over (R229)
deriving DecidableEq, Repr, Inhabited

/-- A parked lane: its fault record, its faulting address, and whether the fault cannot be resolved (R35, R36). -/
structure Park where
  lane : Nat
  id   : Nat
  addr : Nat
  bad  : Bool
deriving DecidableEq, Repr, Inhabited

/-- A PUB's walk under way (R162, R166): its lane, the references still to visit, the objects seen, the object being read with its
length and its next line, the counts, the home dies of the lines published, what the snapshots held, and the fault it waits for
with its answer. -/
structure Walk where
  lane  : Nat
  stack : List Nat
  seen  : List Nat
  cur   : Option (Nat × Nat × Nat)
  nobj  : Nat
  nlines : Nat
  dies  : List Nat
  view  : View
  fault : Option Park
  ready : Bool
  ticket : Nat                -- its place in the queue of the cluster's Drover (R162)
deriving DecidableEq, Repr, Inhabited

/-- A HOLDW that waits (R331): its PC, the threads of the run that has reached it, and the time it ends. -/
structure HoldWait where
  pc   : Dword
  run  : Mask
  until_ : Nat
  seen : Mask                     -- lanes whose word has been observed to differ
  woken : Bool
deriving DecidableEq, Repr, Inhabited

/-- A debug halt (R226, R313, Table 20-11). -/
structure Halt where
  pc  : Dword
  act : Mask
  imm : BitVec 32
deriving DecidableEq, Repr, Inhabited

/-- A group resident in an issue slot (R22 to R28). -/
structure Group where
  key     : GroupKey
  ctx     : Nat
  core    : CoreId
  quad    : Nat
  slot    : Nat
  rank    : Nat
  w       : Nat
  nv      : Nat
  ns      : Nat
  arch    : Arch
  gen     : Dword              -- the stochastic-rounding state G (R96)
  sensev  : Dword
  rstrt   : Dword
  clkevt  : Dword
  coll    : Mask               -- threads held at a group-collective point (R33)
  blocked : Mask               -- threads whose instruction was found waiting (R28)
  look    : Mask               -- those of them, and of the held ones, whose wait may be over: they are looked at again
  stall   : Bool               -- the next instruction in the order of R28 was found unable to dispatch: nothing dispatches (R53, R62, R64)
  lastAt  : Nat                -- when the group was last served (R39)
  objs    : List ObjImage      -- what the instruction being served has replaced, for its entry
  ceded   : Mask               -- threads that CEDE has made ineligible (R301)
  cededAt : Nat                -- when
  seq     : Nat                -- next dispatch sequence number (R64)
  rob     : List Entry
  staged  : List Effect        -- oldest first
  ckpts   : List Ckpt          -- oldest first; the first is verified
  lastRel : Nat                -- release time of the latest effect whose time is fixed (R65)
  commit  : Option Commit      -- the oldest commit point that has dispatched and not completed (R67)
  behind  : List Commit        -- those that have dispatched after it, oldest first
  trap    : Option Trap        -- a fault whose entry is not yet the oldest (R55)
  cut     : Option Nat         -- the fault is a commit point's: entries from this number on are younger and are discarded (R55)
  cmds    : List Cmd
  loads   : List (Nat × List Nat)   -- loads whose data is on its way: sequence number and lines (R79)
  parks   : List Park
  holds   : List HoldWait
  walk    : Option Walk
  halt    : Option Halt
  stop    : Bool                    -- a pre-emption or a reset has stopped dispatch (R229, R233)
deriving DecidableEq, Repr, Inhabited

/-- One signature of a group on a convergence register (R107): the group, how many threads, its TMAC word, its PC and
sequence number, and the B quarter it named, read at dispatch (R108). -/
structure Sign where
  group : GroupKey
  quad  : Nat
  count : Nat
  word  : Instr
  pc    : Dword
  mask  : Mask
  seq   : Nat
  regs  : List VReg            -- from vB onward, up to the declared count
  pois  : List (Nat × Nat)     -- their poisoned words: which of them, and the pair of lanes (R76)
  nv    : Nat
deriving DecidableEq, Repr, Inhabited

/-- A convergence register (R106, R107, R409): its declared count, the generations that dropped operations have reopened, with the
operations' numbers, in the order in which they first closed, and the current one. -/
structure Conv where
  count : Option Nat
  old   : List (Nat × List Sign)
  cur   : List Sign
deriving DecidableEq, Repr, Inhabited

/-- A tile row: 128 FP32 patterns and 128 pending narrow sums (R113, R118), and its poison. -/
structure Row where
  acc : List Word
  nar : List (Option (BitVec 22))
  pois : List Nat                  -- its poisoned words, each a pair of columns (R76)
deriving DecidableEq, Repr, Inhabited

/-- A matrix operation issued by a closed generation (R107, R112), and when its generation closed. -/
structure MatOp where
  id    : Nat
  c     : Nat
  signs : List Sign
  slot  : Option (Nat × Nat)       -- q and its slot's ring position, once the arrays have taken it
  started : Bool
  at_   : Nat
deriving DecidableEq, Repr, Inhabited

/-- An unreleased image of some rows of a tile (R118), and the operation that has built it. -/
structure Shadow where
  id    : Nat
  rows  : List (Nat × Row)
  cnt   : Nat
  waits : List (GroupKey × Nat)   -- writing entries whose effect has not reached its release
  op    : Option MatOp
deriving DecidableEq, Repr, Inhabited

/-- An accumulator tile (R117, R118). -/
structure Tile where
  rows    : List Row
  cnt     : Nat
  shadows : List Shadow            -- oldest first
deriving DecidableEq, Repr, Inhabited

/-- What a core rank of a team owns (R102, R125, R299). -/
structure Rank where
  scr      : Memory
  opbuf    : Memory
  scrPoison : List Nat
  opPoison  : List Nat
  k        : List (Nat × List Byte)
  b        : List (Nat × Resv)
  c        : List (Nat × Conv)
  q        : List (Nat × Queue)
  z        : List Tile
  cb       : List (Nat × List Byte)
  sched    : List Dword
  cursor   : Nat
  returned : List Nat
  ops      : List MatOp
  locks    : List (Nat × GroupKey)   -- locked lines, by physical address (R149)
  nextId   : Nat
deriving DecidableEq, Repr, Inhabited

/-- A launch block (Table 17-1), field by field. -/
structure Launch where
  addr     : Nat
  code     : Dword
  args     : List Dword
  nx       : Nat
  ny       : Nat
  nz       : Nat
  dx       : Nat
  dy       : Nat
  dz       : Nat
  shape    : BitVec 32
  scratch  : Nat
  opbuf    : Nat
  gang     : BitVec 16
  opreq    : BitVec 32
  sched    : Nat
  deps     : List (Nat × Nat)
  cntaddr  : Nat
  staddr   : Nat
  complctl : BitVec 32
  reserved : Bool                     -- a reserved bit is set
deriving DecidableEq, Repr, Inhabited

/-- Where a team that has been placed stands (R205, R229). -/
inductive TeamStatus where
  | resident | saving | saved
deriving DecidableEq, Repr, Inhabited

/-- A team of a started grid. -/
structure Team where
  key    : TeamKey
  ctx    : Nat
  blk    : Launch
  status : TeamStatus
  place  : Nat
  arena  : Dword
  clkreq : Dword
  bars   : List Barrier
  ranks  : List Rank
  cores  : List CoreId
  slot   : Option Nat                 -- save slot (R230)
  saved  : List Group                 -- the groups of a saved team
  level  : Nat
  started : Nat
deriving DecidableEq, Repr, Inhabited

/-- A running grid (R197). -/
structure Grid where
  num     : Nat
  ctx     : Nat
  blk     : Launch
  level   : Nat
  started : Nat
  next    : Nat                       -- teams created so far
  skip    : List Nat                  -- teams killed before they were placed (R195)
  lost    : Option Nat                -- linear index of the first team lost (R195)
  killed  : Bool
  gang    : Option Nat                -- the gang it is a copy of (R210)
  ring    : Option Nat                -- landing-ring slot its message took (R242)
  hb      : View                      -- what happens before its teams (R204, R243)
  did     : View                      -- what its retired groups have read and written (R198)
deriving DecidableEq, Repr, Inhabited

/-- A launch that waits at the head of its booth (R203, R205, R211). -/
structure Waiting where
  blk      : Launch
  ctx      : Nat
  since    : Option Nat               -- eligible since
  level    : Nat
  raised   : Nat                      -- when its level last rose
  tries    : Nat                      -- failed gang reservations
  retryAt  : Nat
  ring     : Option Nat
  hb       : View                     -- what the enqueue and the counters it has read release (R202, R204)
deriving DecidableEq, Repr, Inhabited

/-- A booth entry (R200): its eight words, and what the enqueue releases (R201, R202). -/
structure BoothEntry where
  words : List Dword
  view  : View
deriving DecidableEq, Repr, Inhabited

/-- A booth (R199 to R201). Its head's copied block is the first of `waits`; the virtual booth of armed tags holds every copy that
waits in it (R205, R207). -/
structure Booth where
  w0      : Dword
  w1      : Dword
  entries : List BoothEntry
  size    : Bool
  ovf     : Bool
  waits   : List Waiting
deriving DecidableEq, Repr, Inhabited

/-- A context (R247) with its SCOPEMD (R179). -/
structure Context where
  num     : Nat
  ptroot  : Nat
  shared  : Bool
  vdtab   : BitVec 16
  pasid   : Nat
  arenaTab : Nat
  arenaLen : Nat
  saveBase : Nat
  saveLen  : Nat
  slotSz   : Nat
  scopemd  : Dword
  debug    : Bool                     -- a debugger is attached (R313)
deriving DecidableEq, Repr, Inhabited

/-- Kinds of access (R137). -/
inductive Access where
  | read | write | atomic | fetch | engine
deriving DecidableEq, Repr, Inhabited

/-- A fault record (R137): who waits on it, whether FAULT_READ is still to hand it out (again, after a takeover, R212), and whether it
has been read and awaits FAULT_REPLY. -/
structure FaultRec where
  id    : Nat
  ctx   : Nat
  kind  : Access
  core  : CoreId
  page  : Nat
  teams : List TeamKey
  queued : Bool
  sent  : Bool
deriving DecidableEq, Repr, Inhabited

/-- An arming (R207). -/
structure Arming where
  tag    : Nat
  rep    : Bool
  blk    : Nat
  ctx    : Nat
  view   : View          -- what its NARM releases at device scope (R370)
deriving DecidableEq, Repr, Inhabited

/-- A Wharf message that no arming has matched (R207): its tag, its landing-ring slot and what its landing releases. -/
structure HeldMsg where
  tag  : Nat
  slot : Nat
  view : View
deriving DecidableEq, Repr, Inhabited

/-- A DMA transfer in progress (R252). -/
structure Xfer where
  desc   : List Byte
  ctx    : Nat
  moved  : Nat                        -- bytes released
  chunk  : List Byte                  -- staged bytes of the chunk in progress (R77)
  status : Nat
  at_    : Nat                        -- when the chunk was staged
  ended  : Bool
  pois   : Bool                       -- the chunk holds uncorrectable source data
  view   : View                       -- what the transfer has read and written
deriving DecidableEq, Repr, Inhabited

/-- A host DMA queue (R251). -/
structure DmaQueue where
  valid   : Bool
  ring    : Nat
  ringlog : Nat
  ctx     : Nat
  descs   : List (List Byte × View)  -- with what the writes released (R201, R252)
  cur     : Option Xfer
  size    : Bool
  ovf     : Bool
deriving DecidableEq, Repr, Inhabited

/-- A communicator entry (R304). -/
structure Comm where
  nr    : Nat
  my    : Nat
  tmo   : Nat
  ranks : List (Nat × Nat)            -- device, partition
deriving DecidableEq, Repr, Inhabited

/-- A collective in progress (R303). -/
structure CollOp where
  comm  : Nat
  seq   : Nat
  op    : Nat
  ty    : Nat
  root  : Nat
  count : Nat
  data  : List Byte                   -- what SRC holds, read once the group's earlier accesses have performed (R308)
  dst   : List (Nat × Nat)            -- the physical runs of DST
  group : GroupKey
  pc    : Dword
  run   : Mask
  dreg  : Nat
  start : Nat
  seen  : View                        -- what the group has performed before it (R308)
  fate  : Option Nat                  -- the rank of a peer that has aborted it (R234)
  msgs  : List (Nat × Nat × Nat)      -- its messages without an acknowledgement: destination, SEQ, and the rank there (R244)
deriving DecidableEq, Repr, Inhabited

/-- A message sent by NSEND and not yet acknowledged (R243, R372). -/
structure Send where
  dev    : Nat
  part   : Nat
  seq    : Nat
  group  : GroupKey
  pc     : Dword
  run    : Mask
  dreg   : Nat
  header : WharfHeader
  payload : List Byte
  sentAt : Option Nat                 -- none while it waits for credit (R242)
  view   : View                       -- what happens before the message (R243)
  addr   : Nat                        -- where its payload was read (Table 20-12)
deriving DecidableEq, Repr, Inhabited

/-- An MSI-X vector (Table 20-3). -/
structure Msix where
  count  : Nat
  timer  : Nat
  pend   : Nat
  oldest : Nat
  masked : Bool
  entry  : List Byte                  -- message address and data of the MSI-X table entry
deriving DecidableEq, Repr, Inhabited

/-- A write of a detector stream that an I/O die has staged (R77, R188): when, by which requester, the name of its window's stream, its bytes,
and whether it is to the flag range. -/
structure Posted where
  at_  : Nat
  who  : Nat × Nat
  key  : Nat × Nat
  addr : Nat
  data : List Byte
  flag : Bool
deriving DecidableEq, Repr, Inhabited

/-- A partition (R15), with its front end, its contexts and its queues. -/
structure Part where
  desc    : List Dword                -- words 0 to 3 (Table 2-3)
  gangMask : BitVec 16
  booths  : List Booth                -- 64, then the virtual booth of armed tags (R205)
  ctxs    : List Context
  grids   : List Grid
  nextGrid : Nat
  lastStart : List (Nat × Nat)        -- level and the booth of the last start at it (R205)
  armings : List Arming
  unmatched : List HeldMsg            -- oldest first (R207)
  ringN   : Option Nat
  ringPa  : Nat
  ringUsed : List Nat
  ringNext : Nat
  comms   : List (Nat × Comm)
  queues  : List DmaQueue
  mail    : Memory                     -- the mailbox in its VF's BAR0 (R238, R245)
  posted  : List Posted                -- staged writes of the streams to its windows, oldest first (R77, R188)
  faults  : List FaultRec
  nextFault : Nat
  keyFirst : Nat
  keyCount : Nat
  keys    : List (Nat × Nat)
  budget  : Option Nat
  vectors : List Msix
  ready   : Bool
  resetAt : Option Nat                -- when the fatal reset was asked for (R233)
  dropped : Bool                      -- its teams have been dropped
  resetMbox : List (MboxSource × Dword)  -- RESET requests to answer when the VF is ready
  txSeq   : List ((Nat × Nat) × Nat)
  rxSeq   : List ((Nat × Nat) × Nat)
  colls   : List CollOp
  sends   : List Send
  unlocked : Bool                     -- DEBUG_UNLOCK accepted (Table 20-11)
deriving DecidableEq, Repr, Inhabited

/-- The operating point of a domain of a cluster or a die, the point granted, the changes that alter it and have not been counted (R213,
R216), and the grant before droop lowerings, with the points that these hold back (R215, R217). -/
structure Grant where
  point  : Nat
  target : Nat
  changes : List (Nat × Bool)         -- changes that alter it and have not been counted, and whether they have taken effect here
  base   : Nat
  low    : Nat                        -- points that droop lowerings hold back (R217)
deriving DecidableEq, Repr, Inhabited

/-- A lead of 2 µs before a step (R220): its end, whether it announces a step of activity, and the raises of MATH that it announces, by
cluster, with the point. -/
structure Lead where
  end_   : Nat
  step   : Bool
  raises : List (Nat × Nat)
deriving DecidableEq, Repr, Inhabited

/-- A compute die. -/
structure Die where
  present  : Bool
  restartsIv : Nat                    -- droop and clock restarts in the running 10 ms interval (R217)
  math     : List Grant               -- one per cluster
  vec      : List Grant
  net      : Grant
  mem      : Grant
  droops   : List Nat                 -- times of the droop and clock restarts that count (R74)
  storm    : Option (Option Nat)      -- a lowering is in force: the start of the 10 ms interval once it acts (R217)
  storms   : Nat
  events   : List Nat                 -- sensor events by type (Table 20-12)
  restarts : Nat
  ecc      : Nat
  loadstep : Bool
  lead     : Option Lead
  limited  : Bool                     -- a step is admitted at 150 A/µs (R220)
  steps    : Nat                      -- thresholds of matrix activity whose step has been admitted (R220)
  raises   : List (Nat × Nat)         -- raises of MATH that a lead has announced, by cluster, with the point announced (R216, R220)
  admits   : List (Nat × Nat)         -- steps under the limit: when, and their current (R220)
  staticMw : Nat
  costs    : List (List Nat)          -- by domain and point, mW (Table 20-9)
  svn      : List (Nat × Nat)         -- fuse SVN by stage (R253)
deriving DecidableEq, Repr, Inhabited

/-- A detector stream window (R188). -/
structure StreamWin where
  enable : Bool
  part   : Nat
  tc     : Nat
  req    : Nat
  data   : Nat
  len    : Nat
  flag   : Nat
deriving DecidableEq, Repr, Inhabited

/-- An I/O die (R8, R236, R239). -/
structure Iod where
  proto   : Option LinkProto
  width   : Nat
  gts     : Nat
  streams : List (Nat × List Byte)    -- IDE stream keys (R239)
  wins    : List StreamWin
deriving DecidableEq, Repr, Inhabited

/-- A gang reservation in progress (R211). -/
structure GangResv where
  part    : Nat
  booth   : Nat
  start   : Nat
  held    : List (Nat × List (List CoreId)) -- by member partition, the cores reserved for its first teams
deriving DecidableEq, Repr, Inhabited

/-- A gang launch that has committed (R210): its leader's copy, the status so far, the copies that still run. -/
structure Gang where
  id     : Nat
  part   : Nat
  ctx    : Nat
  blk    : Launch
  left   : List Nat
  status : Nat
  lost   : Nat
  did    : View                       -- what the copies that have completed have done
deriving DecidableEq, Repr, Inhabited

/-- An alarm record (Table 20-10). -/
structure Alarm where
  time    : Nat
  cls     : Nat
  iod     : Nat
  part    : Nat
  trigger : Nat
deriving DecidableEq, Repr, Inhabited

/-- A telemetry log record (Table 20-12). -/
structure LogRec where
  time    : Nat
  source  : Nat
  part    : Nat
  details : List Byte                 -- bytes 63:16
deriving DecidableEq, Repr, Inhabited

/-- An answer in a mailbox (R245). -/
structure Reply where
  src    : MboxSource
  seq    : Dword
  status : Nat
  body   : List Byte
deriving DecidableEq, Repr, Inhabited

/-- What leaves the device. -/
inductive Out where
  | msix (part vec : Nat)
  | wharf (iod port : Nat) (h : WharfHeader) (payload : List Byte)
  | frame (iod port : Nat) (h : WharfHeader) (comm seq : Nat)   -- KIND 2 and 3: of which collective (R244)
  | peerReply (req : Nat) (ok : Bool) (data : List Byte)
  | spdm (port fn : Nat) (body : List Byte)
  | tlbSync (id : Nat)
  | credit (part slot : Nat)
deriving DecidableEq, Repr, Inhabited

/-- Device-wide state: the harbourmaster, gangs, power, fabric, security, debug, telemetry, mailbox answers and what has
left the device. -/
structure Device where
  cv360     : Bool
  hm        : Nat                     -- die that holds the harbourmaster role (R212)
  lease     : Nat                     -- when its lease ends
  takeover  : Option Nat              -- when a takeover ends
  gangResv  : Option GangResv
  gangs     : List Gang
  changes   : Nat                     -- number of the latest grant change (R216)
  cap       : Nat
  reserve   : Nat
  devNum    : Nat
  fabric    : List (Nat × Nat)
  provisioned : Bool
  classC    : Bool
  idKey     : Option (List Byte)      -- the device identity key (R254); none once it is zeroised (R235)
  nonces    : List (List Byte)
  images    : List (Nat × List Byte)         -- accepted images by stage (R253)
  booted    : List Nat                       -- the stages that the boot chain has run (R253)
  alarms    : List Alarm
  unlockFails : List (Nat × Nat)      -- partition (255 the device) and time of a failed DEBUG_UNLOCK
  unlockedAll : Bool
  log       : List LogRec
  retries   : List Nat                -- link retries of L0 to L7
  replies   : List Reply              -- the latest answer in each mailbox
  held      : List (Mbox × Instr)     -- requests that wait to be served (R149, R245, R246)
  unanswered : List (MboxSource × Dword)  -- by mailbox and SEQ, the requests that have begun and are not answered yet (R245)
  usedKeys  : List Nat                -- KEYIDs that a partition has owned (R406)
  restarting : List (CoreId × Nat)    -- cores whose restart has begun, and when, with fetch not yet resumed (R70)
  seen      : List ((Nat × Nat) × View) -- the writes of each requester: I/O die and requester ID (R188, R201)
  out       : List Out                -- newest first
deriving DecidableEq, Repr, Inhabited

/-- The instruction that is being served: its group, the run it was served for, its PC (R28). -/
structure Issue where
  group : GroupKey
  run   : Mask
  pc    : Dword
deriving DecidableEq, Repr, Inhabited

/-- An instruction that a FETCH_DECISION has fetched and that has not run: its 96 bits, the line word's fate and where it
was served. -/
structure Fetched where
  issue  : Issue
  word   : BitVec 96
  parity : Bool
  lineOk : Bool
deriving DecidableEq, Repr, Inhabited

/-- The machine. `agenda` is the order and spacing in time of the steps that the manual leaves to timing (log 3). -/
structure State where
  now    : Nat                        -- the die reference timer in ns (R328)
  fresh  : Nat                        -- how many free values have been drawn (log 4)
  agenda : List (Nat × Instr)         -- elapsed ns, and the event that comes about
  issue  : Option Issue
  latch  : Option Fetched
  cur    : Option GroupKey
  ram    : Ram
  coh    : Coh
  groups : List Group
  teams  : List Team
  parts  : List Part
  dies   : List Die
  iods   : List Iod
  dev    : Device
deriving DecidableEq, Repr, Inhabited

/-- Why a step stops. Every trap of the manual is a next state; this is the one stop of the model. -/
inductive Fault where
  /-- Raised by an instruction row when `State.issue` names no resident group: no instruction of the CV480 executes outside
  a group (R22, R28). Safe: the machine never does this, and `step` never does. -/
  | noGroup
deriving DecidableEq, Repr, Inhabited

/-- Why the model gives no meaning. -/
inductive Refusal where
  /-- Raised by an arm of `exec` that has no meaning yet. Safe. -/
  | notModelled (mnemonic : String)
deriving DecidableEq, Repr, Inhabited

/-- A booth after reset (Tables 17-7 and 17-8). -/
def Booth.reset : Booth := ⟨0, 0, [], false, false, []⟩

/-- An MSI-X vector after reset (Table 20-3); the MSI-X table starts masked (PRESUMED, PCI Express; log 10). -/
def Msix.reset : Msix := ⟨1, 1, 0, 0, true, List.replicate 12 0⟩

/-- A DMA queue after reset (R251). -/
def DmaQueue.reset : DmaQueue := ⟨false, 0, 0, 0, [], none, false, false⟩

/-- A partition after reset: an all-zero descriptor (Table 2-3) and nothing in it (log 10 for what no rule gives). -/
def Part.reset : Part where
  desc := [0, 0, 0, 0]
  gangMask := 0
  booths := List.replicate 65 Booth.reset
  ctxs := []
  grids := []
  nextGrid := 1
  lastStart := []
  armings := []
  unmatched := []
  ringN := none
  ringPa := 0
  ringUsed := []
  ringNext := 0
  comms := []
  queues := List.replicate 4 DmaQueue.reset
  mail := Memory.empty
  posted := []
  faults := []
  nextFault := 0
  keyFirst := 0
  keyCount := 0
  keys := []
  budget := none
  vectors := List.replicate 64 Msix.reset
  ready := true
  resetAt := none
  dropped := false
  resetMbox := []
  txSeq := []
  rxSeq := []
  colls := []
  sends := []
  unlocked := false

/-- A compute die after reset: nominal points (log 10), LOADSTEP deasserted, every counter zero. -/
def Die.reset : Die where
  present := true
  restartsIv := 0
  math := List.replicate 9 ⟨5, 5, [], 5, 0⟩
  vec := List.replicate 9 ⟨5, 5, [], 5, 0⟩
  net := ⟨5, 5, [], 5, 0⟩
  mem := ⟨7, 7, [], 7, 0⟩
  droops := []
  storm := none
  storms := 0
  events := [0, 0, 0]
  restarts := 0
  ecc := 0
  loadstep := false
  lead := none
  limited := false
  steps := 0
  raises := []
  admits := []
  staticMw := 0
  costs := List.replicate 4 (List.replicate 8 0)
  svn := []

/-- An I/O die after reset: untrained, no stream window enabled, no IDE key. -/
def Iod.reset : Iod := ⟨none, 0, 0, [], List.replicate 8 ⟨false, 0, 0, 0, 0, 0, 0⟩⟩

/-- The device-wide state after reset (log 10). -/
def Device.reset : Device where
  cv360 := false
  hm := 0
  lease := 40000000
  takeover := none
  gangResv := none
  gangs := []
  changes := 0
  cap := 3600
  reserve := 0
  devNum := 0
  fabric := []
  provisioned := true
  classC := false
  idKey := some []
  nonces := []
  images := []
  booted := []
  alarms := []
  unlockFails := []
  unlockedAll := false
  log := []
  retries := List.replicate 8 0
  replies := []
  held := []
  unanswered := []
  usedKeys := []
  restarting := []
  seen := []
  out := []

/-- The memory of the package after reset: nothing listed (log 2). -/
def Ram.reset : Ram := ⟨Memory.empty, [], [], [], 0, []⟩

/-- Coherence after reset: every line in I, every die generation 0 (log 10). -/
def Coh.reset : Coh := ⟨[], [], [], [], [], [], 0, [], [], [0, 0, 0, 0], [], [], [], [], [], [], 0⟩

/-- The machine right after package reset: timer 0 (Tables 24-6 and 24-7), no partition described, no context, no booth in
service, no team resident (log 1). -/
def State.reset : State where
  now := 0
  fresh := 0
  agenda := []
  issue := none
  latch := none
  cur := none
  ram := Ram.reset
  coh := Coh.reset
  groups := []
  teams := []
  parts := List.replicate 16 Part.reset
  dies := List.replicate 4 Die.reset
  iods := [Iod.reset, Iod.reset]
  dev := Device.reset

end Sys2Proof.Machine
end

