-- ==== Sys2Proof/Machine/Mem.lean ====
section
/-! DEFINITION. Machine/Mem.lean: the named operations over bytes and memories, little-endian (R6, R86), and over the tags
(R156) and poison (R405) of device memory. -/

namespace Sys2Proof.Machine

/-- The byte at an address of a list of cells; an unlisted address reads as 0x00 (log 2). -/
def cellAt : List Host.Cell → Nat → Byte
  | [], _ => 0
  | (a, b) :: r, x => if a = x then b else cellAt r x

/-- The cells after one byte is written: sorted, a zero byte unlisted. -/
def cellPut : List Host.Cell → Nat → Byte → List Host.Cell
  | [], x, v => if v = 0 then [] else [(x, v)]
  | (a, b) :: r, x, v =>
    if x < a then (if v = 0 then (a, b) :: r else (x, v) :: (a, b) :: r)
    else if x = a then (if v = 0 then r else (x, v) :: r)
    else (a, b) :: cellPut r x v

/-- Read one byte. -/
def Memory.get (m : Memory) (a : Nat) : Byte := cellAt m.cells a

/-- Write one byte. -/
def Memory.put (m : Memory) (a : Nat) (b : Byte) : Memory := ⟨cellPut m.cells a b⟩

/-- Read `n` bytes from `a` upward. -/
def Memory.getN (m : Memory) (a n : Nat) : List Byte := (List.range n).map fun i => m.get (a + i)

/-- Write bytes from `a` upward. -/
def Memory.putN (m : Memory) (a : Nat) : List Byte → Memory
  | [] => m
  | b :: r => (m.put a b).putN (a + 1) r

/-- The number that bytes hold, little-endian. -/
def leNat : List Byte → Nat
  | [] => 0
  | b :: r => b.toNat + 256 * leNat r

/-- The low `n` bytes of a number, little-endian. -/
def leBytes : Nat → Nat → List Byte
  | 0, _ => []
  | n + 1, x => BitVec.ofNat 8 x :: leBytes n (x / 256)

/-- Read an `n`-byte little-endian number. -/
def Memory.num (m : Memory) (a n : Nat) : Nat := leNat (m.getN a n)

/-- Write an `n`-byte little-endian number. -/
def Memory.putNum (m : Memory) (a n x : Nat) : Memory := m.putN a (leBytes n x)

/-- Set membership in a rising list of numbers: add. -/
def addSorted : List Nat → Nat → List Nat
  | [], x => [x]
  | a :: r, x => if x < a then x :: a :: r else if x = a then a :: r else a :: addSorted r x

/-- The aligned 8-byte words that `n` bytes from `a` touch. -/
def wordsOf (a n : Nat) : List Nat :=
  if n = 0 then [] else (List.range ((a + n - 1) / 8 + 1 - a / 8)).map fun i => 8 * (a / 8 + i)

/-- The 64-byte lines that `n` bytes from `a` touch (R141). -/
def linesOf (a n : Nat) : List Nat :=
  if n = 0 then [] else (List.range ((a + n - 1) / 64 + 1 - a / 64)).map fun i => 64 * (a / 64 + i)

/-- The words that `n` bytes from `a` write whole. -/
def fullWords (a n : Nat) : List Nat := (wordsOf a n).filter fun w => decide (a ≤ w) && decide (w + 8 ≤ a + n)

/-- A write of `n` bytes clears the poison of the words it writes whole (R405). -/
def unpoison (p : List Nat) (a n : Nat) : List Nat :=
  let f := fullWords a n
  p.filter fun w => !f.contains w

/-- The tag of the word that holds `a` (R156); none outside device memory. -/
def Ram.tag (r : Ram) (a : Nat) : Bool := r.tags.contains (8 * (a / 8))

/-- Clear the tags of the words that `n` bytes from `a` touch (Table 13-1). -/
def Ram.untag (r : Ram) (a n : Nat) : Ram :=
  let w := wordsOf a n
  { r with tags := r.tags.filter fun x => !w.contains x }

/-- Set the tag of the word at `a` (Table 13-1). -/
def Ram.retag (r : Ram) (a : Nat) : Ram := { r with tags := addSorted r.tags (8 * (a / 8)) }

/-- Mark the words that `n` bytes from `a` touch poisoned (R405). -/
def Ram.taint (r : Ram) (a n : Nat) : Ram := { r with poison := (wordsOf a n).foldl addSorted r.poison }

/-- Some word that `n` bytes from `a` touch is poisoned (R405). -/
def Ram.tainted (r : Ram) (a n : Nat) : Bool := (wordsOf a n).any r.poison.contains

/-- The aligned word at `w`. -/
def Ram.word (r : Ram) (w : Nat) : WordState := ⟨BitVec.ofNat 64 (r.mem.num w 8), r.tags.contains w, r.poison.contains w⟩

/-- Some bytes of a word as one number (log 8): the word, and a bit for each byte, bit 8 for the tag. -/
def locOf (key mask : Nat) : Nat := key * 512 + mask

/-- The bytes of the word at `w` that `n` bytes from `a` are. -/
def maskOf (w a n : Nat) : Nat := 2 ^ (min (a + n) (w + 8) - w) - 2 ^ (max a w - w)

/-- The latest number that a view holds for exactly some bytes of a word. -/
def View.at_ (v : View) (l : Nat) : Nat :=
  match v.find? fun e => e.1 = l with
  | some e => e.2
  | none => 0

/-- The latest store to any of some bytes of a word that a view holds. -/
def View.floor (v : View) (key mask : Nat) : Nat :=
  v.foldl (fun n e => if e.1 / 512 = key ∧ e.1 % 512 &&& mask ≠ 0 then max n e.2 else n) 0

/-- A view that also holds store `n` of some bytes. -/
def View.see (v : View) (l n : Nat) : View :=
  if n ≤ View.at_ v l then v else (l, n) :: v.filter fun e => e.1 ≠ l

/-- Two views joined: the later store of each. -/
def View.join (a b : View) : View := b.foldl (fun v e => View.see v e.1 e.2) a

/-- The view of some bytes of a word, given the number of the store that each holds; 0 for what memory held at first. -/
def viewOfBytes (key mask : Nat) (f : Nat → Nat) : View :=
  let on := (List.range 9).filter mask.testBit
  ((on.map f).eraseDups.filter (· ≠ 0)).map fun n => (locOf key ((on.filter fun i => f i = n).foldl (fun m i => m + 2 ^ i) 0), n)

/-- The number of the latest store to a byte of a word. -/
def Ram.lastByte (r : Ram) (key i : Nat) : Nat := ((r.hist.find? fun m => m.key = key ∧ m.mask.testBit i).map Msg.num).getD 0

/-- The latest stores to some bytes of a word. -/
def Ram.lastView (r : Ram) (key mask : Nat) : View := viewOfBytes key mask (r.lastByte key)

/-- The latest stores to a word that are no engine's. -/
def Ram.lastThread (r : Ram) (key : Nat) : View :=
  viewOfBytes key 511 fun i => ((r.hist.find? fun m => m.key = key ∧ m.mask.testBit i ∧ !m.eng).map Msg.num).getD 0

/-- What the latest stores to some bytes of a word release. -/
def Ram.lastRels (r : Ram) (key mask : Nat) : List Release :=
  ((((List.range 9).filter mask.testBit).filterMap fun i => r.hist.find? fun m => m.key = key ∧ m.mask.testBit i).eraseDups).flatMap Msg.rels

/-- What a store of number `r.num + 1` does to one word, added to the word's history (R170). An atomic goes on releasing what the stores
before it have released (R173). -/
def Ram.push (r : Ram) (key mask : Nat) (old val : WordState) (rels : List Release) (atom : Bool) (hid : Option CoreId) (eng : Bool := false) : Ram :=
  let rels := rels.map fun x => { x with view := View.see x.view (locOf key mask) (r.num + 1) }
  let before := r.hist.filter fun m => m.key = key ∧ m.mask &&& mask ≠ 0
  let rels := if atom then (rels ++ before.flatMap Msg.rels).eraseDups else rels
  { r with hist := ⟨key, mask, r.num + 1, old, val, rels, atom, hid.map fun c => (c, none), eng⟩ :: r.hist }

/-- The store is over: the next one has the next number. -/
def Ram.counted (r : Ram) : Ram := { r with num := r.num + 1 }

/-- What a store is, beside its bytes: what it does to tags, what it releases, whether it is an atomic's, who hides it, and whether an
engine makes it. -/
structure StoreKind where
  tag  : TagOp
  rels : List Release
  atom : Bool
  hid  : Option CoreId
  eng  : Bool

/-- A store that releases nothing. -/
def plainStore : StoreKind := ⟨.clear, [], false, none, false⟩

/-- Write bytes at `a` (R157, R170, R405): the bytes, the tags and the poison of the words they touch, and one store to each. -/
def Ram.write (r : Ram) (a : Nat) (d : List Byte) (k : StoreKind) : Ram :=
  let t := { r with mem := r.mem.putN a d, poison := unpoison r.poison a d.length }.untag a d.length
  let t := match k.tag with
    | .clear => t
    | .set => t.retag a
  ((wordsOf a d.length).foldl (fun x w => x.push w (maskOf w a d.length + 256) (r.word w) (t.word w) k.rels k.atom k.hid k.eng) t).counted

/-- From which store on a core sees a store (R351): from itself, or, where another core has kept it back, from the last of those kept back with
it; never while that core still holds the line locked. -/
def Msg.shownTo (m : Msg) (c : CoreId) : Option Nat :=
  match m.hid with
  | none => some m.num
  | some (x, k) => if x = c then some m.num else k

/-- The stores to a word that a core sees as of store number `t`, newest first. -/
def Ram.shown (r : Ram) (c : CoreId) (t key : Nat) : List Msg :=
  r.hist.filter fun m => m.key = key ∧ (m.shownTo c).any fun n => decide (n ≤ t)

/-- The bytes of a mask of one word in the place of another's, with the other's tag and poison. -/
def WordState.over (x y : WordState) (mask : Nat) : WordState :=
  ⟨(List.range 8).foldl (fun v i =>
      let b := BitVec.ofNat 64 (255 * 256 ^ i)
      if mask.testBit i then (v &&& ~~~b) ||| (y.val &&& b) else v) x.val, y.tag, y.pois⟩

/-- A word as a core sees it as of store number `t`; `cur` is the word as it stands. -/
def Ram.seenAt (r : Ram) (c : CoreId) (t key : Nat) (cur : WordState) : WordState :=
  let all := r.hist.filter fun m => m.key = key
  let l := r.shown c t key
  if l.length = all.length then cur
  else l.foldr (fun m x => x.over m.val m.mask) ((all.getLast?.map Msg.old).getD cur)

/-- The number of the store that a byte of a word, or its tag, holds for a core as of store number `t`. -/
def Ram.byteNum (r : Ram) (c : CoreId) (t key i : Nat) : Nat := (((r.shown c t key).find? fun m => m.mask.testBit i).map Msg.num).getD 0

/-- What the stores release that some bytes of a word hold for a core as of store number `t`. -/
def Ram.relsAt (r : Ram) (c : CoreId) (t key mask : Nat) : List Release :=
  ((((List.range 9).filter mask.testBit).filterMap fun i => (r.shown c t key).find? fun m => m.mask.testBit i).eraseDups).flatMap Msg.rels

/-- The moments, told by store numbers, from which a core may read some bytes at once (R174): nothing it reads is older than what it has to
see. A read is indivisible: each of its words is read as of one moment (R170, R351, R408). -/
def Ram.moments (r : Ram) (c : CoreId) (floor : View) (ws : List (Nat × Nat)) : List Nat :=
  let r := { r with hist := r.hist.filter fun m => ws.any fun w => w.1 = m.key }
  let ts := (r.hist.filterMap (fun m => m.shownTo c) ++ [0]).eraseDups
  ts.filter fun t => ws.all fun w => ((List.range 9).filter w.2.testBit).all fun i => decide (floor.floor w.1 (2 ^ i) ≤ r.byteNum c t w.1 i)

/-- Show other cores what a core has kept from them of a line (R351), all of it at once. -/
def Ram.unhide (r : Ram) (line : Nat) (c : CoreId) : Ram :=
  let mine := fun (m : Msg) => m.hid == some (c, none) && decide (line ≤ m.key) && decide (m.key < line + 64)
  let last := (r.hist.filter mine).foldl (fun n m => max n m.num) 0
  { r with hist := r.hist.map fun m => if mine m then { m with hid := some (c, some last) } else m }

end Sys2Proof.Machine
end

