-- ==== Sys2Proof/Machine/Translate.lean ====
section
/-! DEFINITION. Machine/Translate.lean: the page walk (R134 to R136), the partition's checks of a translation (R20) and the
ownership of private pages (R159, R161). -/

namespace Sys2Proof.Machine

/-- The descriptor word `i` of a partition (Table 2-3). -/
def Part.word (p : Part) (i : Nat) : Nat := (p.desc.getD i 0).toNat

/-- Cluster `c` of die `d` belongs to the partition (Table 2-3). -/
def Part.hasCluster (p : Part) (d c : Nat) : Bool := decide (c < 9) && (p.word 0).testBit (9 * d + c)

/-- Colour `c` belongs to the partition. -/
def Part.hasColour (p : Part) (c : Nat) : Bool := (p.word 1).testBit c

/-- Die `d` belongs to the partition. -/
def Part.hasDie (p : Part) (d : Nat) : Bool := decide (d < 4) && (p.word 3).testBit d

/-- The I/O die of the partition's PORT. -/
def Part.port (p : Part) : Nat := bitsOf (p.word 3) 4 4

/-- The partition's virtual function. -/
def Part.vf (p : Part) : Nat := bitsOf (p.word 3) 11 8

/-- A partition has been described. -/
def Part.described (p : Part) : Bool := p.word 3 % 16 != 0

/-- A context of the partition by its number. -/
def Part.ctx? (p : Part) (n : Nat) : Option Context := p.ctxs.find? fun c => c.num = n

/-- A field of a page-table entry (Table 10-5). -/
def pteV (e : Nat) : Bool := e.testBit 0
def pteR (e : Nat) : Bool := e.testBit 1
def pteW (e : Nat) : Bool := e.testBit 2
def pteX (e : Nat) : Bool := e.testBit 3
def ptePriv (e : Nat) : Bool := e.testBit 4
def pteMt (e : Nat) : Nat := bitsOf e 7 5
def pteG64 (e : Nat) : Bool := e.testBit 8
def pteLf (e : Nat) : Bool := e.testBit 9
def ptePpn (e : Nat) : Nat := bitsOf e 50 12 * 4096
def pteMig (e : Nat) : Bool := e.testBit 51
def pteHome (e : Nat) : Nat := bitsOf e 53 52
def pteKey (e : Nat) : Nat := bitsOf e 61 54
def ptePol (e : Nat) : Nat := bitsOf e 63 62

/-- What a walk finds (R136). -/
inductive WalkRes where
  | absent                          -- V = 0 at some level
  | malformed
  | leaf (pte base size : Nat)      -- the entry, the page's virtual base and its size
deriving DecidableEq, Repr

/-- The sixteen entries of a 64 KiB page agree but for PPN bits 15:12, which count (R135). -/
def g64Ok (m : Memory) (tab i : Nat) : Bool :=
  let b := i / 16 * 16
  let clr := fun (e : Nat) => e - bitsOf e 15 12 * 4096
  (List.range 16).all fun k =>
    let e := m.num (tab + 8 * (b + k)) 8
    bitsOf e 15 12 == k && clr e == clr (m.num (tab + 8 * b) 8)

/-- A leaf at level `n` is well formed (R135, R136). -/
def leafOk (m : Memory) (n tab i e : Nat) : Bool :=
  decide (n ≤ 3) && bitsOf e 11 10 == 0 && decide (pteMt e < 4) && (pteMt e != 0 || pteHome e == bitsOf e 38 37) &&
    (!pteG64 e || (n == 1 && g64Ok m tab i))

/-- The five-level walk (R134, R136): level `n + 1` of the tables, at `tab`. -/
def walkAt (m : Memory) (va : Nat) : Nat → Nat → WalkRes
  | 0, _ => .malformed
  | n + 1, tab =>
    let i := bitsOf va (12 + 9 * n + 8) (12 + 9 * n)
    let e := m.num (tab + 8 * i) 8
    if !pteV e then .absent
    else if pteLf e then
      if leafOk m (n + 1) tab i e then
        let size := if pteG64 e then 65536 else 4096 * 512 ^ n
        .leaf e (va / size * size) size
      else .malformed
    else if n = 0 || e != ptePpn e + 1 then .malformed
    else walkAt m va n (ptePpn e)

/-- The words of a table that are not zero. -/
def tableWords (m : Memory) (tab : Nat) : List Nat :=
  ((m.cells.filter fun c => decide (tab ≤ c.1) && decide (c.1 < tab + 4096)).map fun c => c.1 / 8 * 8).eraseDups

/-- The well-formed leaves of `n` levels of tables from `tab` (R135, R136): where each stands, the entry, and its page's size. -/
def tableLeaves (m : Memory) : Nat → Nat → List (Nat × Nat × Nat)
  | 0, _ => []
  | n + 1, tab => (tableWords m tab).flatMap fun a =>
    let e := m.num a 8
    if !pteV e then []
    else if pteLf e then
      if leafOk m (n + 1) tab ((a - tab) / 8) e then [(a, e, if pteG64 e then 65536 else 4096 * 512 ^ n)] else []
    else if n = 0 || e != ptePpn e + 1 then []
    else tableLeaves m n (ptePpn e)

/-- The tables of `n` levels from `tab` (R135). -/
def tablePages (m : Memory) : Nat → Nat → List Nat
  | 0, _ => []
  | n + 1, tab => tab :: (tableWords m tab).flatMap fun a =>
    let e := m.num a 8
    if pteV e && !pteLf e && e == ptePpn e + 1 then tablePages m n (ptePpn e) else []

/-- A word stands in a context's tables. -/
def State.inTables (s : State) (w : Nat) : Bool :=
  s.parts.any fun p => p.ctxs.any fun c => (tablePages s.ram.mem 5 c.ptroot).any fun t => decide (t ≤ w) && decide (w < t + 4096)

/-- The leaves of every context's tables. -/
def State.leaves (s : State) : List (Nat × Nat × Nat) :=
  s.parts.flatMap fun p => p.ctxs.flatMap fun c => tableLeaves s.ram.mem 5 c.ptroot

/-- The walk of a context's tables. -/
def walk (m : Memory) (root va : Nat) : WalkRes := walkAt m va 5 root

/-- The physical address behind a leaf: device memory as it is, host memory (MT 1, 2) and peer memory (MT 3) at their bases
(log 2). PPN bits below the page size are taken from the address (log 14). -/
def leafAddr (e size va : Nat) : Nat :=
  let pa := ptePpn e / size * size + va % size
  match pteMt e with
  | 0 => pa
  | 3 => Config.peerBase + pa
  | _ => Config.hostBase + pa

/-- The colours a page of device memory holds (R19, R20): all in the partition's COLMASK, and its die in DIEMASK. -/
def ownsPage (p : Part) (e size : Nat) : Bool :=
  let pa := ptePpn e / size * size
  let n := if size ≤ 65536 then 1 else if size ≤ 2 ^ 21 then 32 else 64
  p.hasDie (bitsOf pa 50 37) && (List.range n).all fun i => p.hasColour (((pa >>> 16) + i) % 64)

/-- A translated access: its physical address, its page's entry, base and size. -/
structure Phys where
  pa   : Nat
  pte  : Nat
  base : Nat
  size : Nat
deriving DecidableEq, Repr

/-- Data of a page of device memory is used under a KEYID (R406). -/
def Coh.useKey (c : Coh) (base size key : Nat) : Coh :=
  if (c.keyed.find? fun x => x.1 = base ∧ x.2.1 = size) = some (base, size, key) ∧ (c.keyed.head?.any fun x => x.1 == base) then c
  else { c with keyed := (base, size, key) :: c.keyed.filter fun x => !(x.1 = base ∧ x.2.1 = size) }

/-- The KEYID under which a word of device memory was used last, if it has been used. -/
def Coh.keyOf? (c : Coh) (w : Nat) : Option Nat := (c.keyed.find? fun x => decide (x.1 ≤ w) && decide (w < x.1 + x.2.1)).map fun x => x.2.2

/-- The page is cacheable: MT 0 or MT 1 (R141). -/
def Phys.cacheable (p : Phys) : Bool := pteMt p.pte == 0 || pteMt p.pte == 1

/-- What the probe finds for one address (R50). -/
inductive ProbeRes where
  | ok (p : Phys)
  | absent (page : Nat)     -- parks (R35); the virtual page
  | forbid                  -- trap 0x06 (R136, R20)
deriving DecidableEq, Repr

/-- What an access needs of its page. -/
def allows (k : Access) (e : Nat) : Bool :=
  match k with
  | .read => pteR e
  | .write => pteW e
  | .atomic => pteR e && pteW e
  | .fetch => pteX e
  | .engine => pteR e

/-- The two levels of a core's TLB (R134). DESIGN CHOICE (log 41): the 128 newest translations stand at level 1, the others at level 2. -/
def Coh.level1 (c : Coh) (core : CoreId) : List TlbEntry := (c.tlb.filter fun t => t.core = core && !t.ahead).take 128
def Coh.level2 (c : Coh) (core : CoreId) : List TlbEntry := (c.tlb.filter fun t => t.core = core && !t.ahead).drop 128

/-- A translation a core's TLB holds (R134): the entry whose page covers the address, at level 1 or else at level 2. -/
def tlbHit (s : State) (part ctx : Nat) (core : CoreId) (va : Nat) : Option TlbEntry :=
  let hit := fun (t : TlbEntry) => t.part = part && t.ctx = ctx && decide (t.va ≤ va) && decide (va < t.va + t.size)
  ((s.coh.level1 core).find? hit).orElse fun _ => (s.coh.level2 core).find? hit

/-- The translation of an address: what the core's TLB holds, else the walk (R134). -/
def lookup (s : State) (part : Nat) (c : Context) (core : CoreId) (va : Nat) : WalkRes :=
  match tlbHit s part c.num core va with
  | some t => .leaf t.pte t.va t.size
  | none => walk s.ram.mem c.ptroot va

/-- The page's KEYID is a key of the partition (R237, R406). -/
def keyOk (p : Part) (e : Nat) : Bool := decide (p.keyFirst ≤ pteKey e) && decide (pteKey e < p.keyFirst + p.keyCount)

/-- The port of the partition has trained as CXL (R237). -/
def cxlPort (s : State) (part : Nat) : Bool :=
  (s.iods.getD (s.parts.getD part Part.reset).port Iod.reset).proto == some .cxl

/-- What a translation gives one kind of access (R136, R20, R237). -/
def judged (s : State) (part : Nat) (k : Access) (va : Nat) : WalkRes → ProbeRes
  | .absent => .absent (va / 4096 * 4096)
  | .malformed => .forbid
  | .leaf e base size =>
    if !allows k e then .forbid
    else if pteMt e == 0 && !ownsPage (s.parts.getD part Part.reset) e size then .forbid
    else if !keyOk (s.parts.getD part Part.reset) e || (pteMt e == 1 && !cxlPort s part) then .forbid
    else .ok ⟨leafAddr e size va, e, base, size⟩

/-- The probe of one address for one kind of access. DESIGN CHOICE (log 38): the part of a die's window beyond the 96 GiB that are there
(R1) is memory like the rest. -/
def probe (s : State) (part : Nat) (c : Context) (core : CoreId) (k : Access) (va : Nat) : ProbeRes :=
  if va ≥ 2 ^ 57 then .forbid else judged s part k va (lookup s part c core va)

/-- The probe of an address of a box: the tile translation engine walks every page (R134). -/
def probeWalk (s : State) (part : Nat) (c : Context) (k : Access) (va : Nat) : ProbeRes :=
  if va ≥ 2 ^ 57 then .forbid else judged s part k va (walk s.ram.mem c.ptroot va)

/-- The window of a team (Table 13-2): its first address and the one past its last; empty where LOG2SIZE is 0. -/
def arenaWindow (arena : Dword) : Nat × Nat :=
  let n := bitsOf arena.toNat 7 0
  let base := bitsOf arena.toNat 56 16 * 65536
  (base, if n = 0 then base else base + 2 ^ n)

/-- The window of a team contains the page of `size` bytes at `va`. -/
def arenaHolds (arena : Dword) (va size : Nat) : Bool :=
  let w := arenaWindow arena
  decide (w.1 ≤ va) && decide (va + size ≤ w.2)

/-- The team that owns the PRIV page of `size` bytes at `va`: the team of the context whose window contains it, resident or being saved; a
page that lies in two windows belongs to neither (R159). -/
def ownerOf (s : State) (part ctx va size : Nat) : Option TeamKey :=
  match s.teams.filter fun t => t.key.part = part && t.ctx = ctx && t.status != .saved && arenaHolds t.arena va size with
  | [t] => some t.key
  | _ => none

/-- The home's record of a line; state I when it keeps none (R142). -/
def Coh.line (c : Coh) (a : Nat) : Line :=
  match c.lines.find? fun l => l.addr = a with
  | some l => l
  | none => ⟨a, .i, none, [], false, none⟩

/-- Keep a line's record; the record of an untouched line is dropped. -/
def Coh.setLine (c : Coh) (l : Line) : Coh :=
  let r := c.lines.filter fun x => x.addr ≠ l.addr
  { c with lines := if l = ⟨l.addr, .i, none, [], false, none⟩ then r else l :: r }

/-- A non-owner access to a line of a PRIV page that is not published (R161). `who` is none for an I/O die. -/
def escapes (s : State) (part ctx : Nat) (who : Option TeamKey) (p : Phys) : Bool :=
  ptePriv p.pte && pteMt p.pte == 0 && !(who.isSome && ownerOf s part ctx p.base p.size == who) && !(s.coh.line (p.pa / 64 * 64)).published

/-- The home die of a device line (R12, R141). -/
def homeDie (a : Nat) : Nat := bitsOf a 38 37

/-- A line of a PRIV page that is not published (R160, R161), as the page tables of the contexts, or a translation in use, tell it. -/
def State.privLine (s : State) (line : Nat) : Bool :=
  let on := fun (e size : Nat) =>
    ptePriv e && pteMt e == 0 && decide (ptePpn e / size * size ≤ line) && decide (line < ptePpn e / size * size + size)
  !(s.coh.line line).published && (s.coh.tlb.any (fun t => on t.pte t.size) || s.leaves.any fun x => on x.2.1 x.2.2)

end Sys2Proof.Machine
end

