-- ==== Sys2Proof/Machine/Ops.lean ====
section
/-! DEFINITION. Machine/Ops.lean: the named operations over the machine: finding and replacing its parts, the threads of a
group (R28 to R38), checkpoints and commit points (R56 to R67), serving an instruction (R278, R279), and taking a trap and
returning from it (R223, R224). -/

namespace Sys2Proof.Machine

/-- An element put before the first one of a list that it does not follow in an order. -/
def insertInto {α : Type} (le : α → α → Bool) (x : α) : List α → List α
  | [] => [x]
  | y :: t => if le x y then x :: y :: t else y :: insertInto le x t

/-- A list in order; equal elements keep their order. -/
def sortBy {α : Type} (le : α → α → Bool) : List α → List α
  | [] => []
  | x :: t => insertInto le x (sortBy le t)

/-- What every step answers. -/
abbrev Out_ := Host.Outcome State Fault Refusal

/-! ## Parts of the state -/

def State.group? (s : State) (k : GroupKey) : Option Group := s.groups.find? fun g => g.key = k
def State.setGroup (s : State) (g : Group) : State := { s with groups := s.groups.map fun h => if h.key = g.key then g else h }
def State.team? (s : State) (k : TeamKey) : Option Team := s.teams.find? fun t => t.key = k
def State.setTeam (s : State) (t : Team) : State := { s with teams := s.teams.map fun h => if h.key = t.key then t else h }
def State.part (s : State) (p : Nat) : Part := s.parts.getD p Part.reset
def State.setPart (s : State) (p : Nat) (x : Part) : State := { s with parts := s.parts.set p x }
def State.die (s : State) (d : Nat) : Die := s.dies.getD d Die.reset
def State.setDie (s : State) (d : Nat) (x : Die) : State := { s with dies := s.dies.set d x }
def State.iod (s : State) (d : Nat) : Iod := s.iods.getD d Iod.reset
def State.setIod (s : State) (d : Nat) (x : Iod) : State := { s with iods := s.iods.set d x }

/-- Change the group of a key. -/
def State.updGroup (s : State) (k : GroupKey) (f : Group → Group) : State :=
  { s with groups := s.groups.map fun h => if h.key = k then f h else h }

/-- Change the team of a key. -/
def State.updTeam (s : State) (k : TeamKey) (f : Team → Team) : State :=
  { s with teams := s.teams.map fun h => if h.key = k then f h else h }

/-- Change a partition. -/
def State.updPart (s : State) (p : Nat) (f : Part → Part) : State := s.setPart p (f (s.part p))

/-- Change what a core rank of a team owns. -/
def Team.updRank (t : Team) (r : Nat) (f : Rank → Rank) : Team :=
  match t.ranks[r]? with
  | some x => { t with ranks := t.ranks.set r (f x) }
  | none => t

/-- The core rank `r` of a team. -/
def State.rank? (s : State) (k : TeamKey) (r : Nat) : Option Rank := (s.team? k).bind fun t => t.ranks[r]?
def State.updRank (s : State) (k : TeamKey) (r : Nat) (f : Rank → Rank) : State := s.updTeam k fun t => t.updRank r f

/-- The context of a group. -/
def State.ctxOf (s : State) (g : Group) : Option Context := (s.part g.key.team.part).ctx? g.ctx

/-- A value in a list of numbered things. -/
def assoc {α : Type} (l : List (Nat × α)) (n : Nat) : Option α := (l.find? fun e => e.1 = n).map Prod.snd
def assocPut {α : Type} (l : List (Nat × α)) (n : Nat) (x : α) : List (Nat × α) := (n, x) :: l.filter fun e => e.1 ≠ n
def assocDel {α : Type} (l : List (Nat × α)) (n : Nat) : List (Nat × α) := l.filter fun e => e.1 ≠ n

/-! ## Threads -/

/-- Every lane of the group. -/
def Group.lanes (g : Group) : Mask := Mask.below g.w

/-- The threads that have not exited. -/
def Group.live (g : Group) : Mask := g.lanes &&& ~~~g.arch.exited

/-- The PC of lane `L`. -/
def Arch.pc (a : Arch) (L : Nat) : Dword := a.pcs.getD L 0

/-- Set the PC of the lanes of a mask. -/
def Arch.setPcs (a : Arch) (m : Mask) (f : Nat → Dword) : Arch := { a with pcs := a.pcs.mapIdx fun L x => if m.has L then f L else x }

/-- HMODE (Table 19-1). -/
def Arch.hmode (a : Arch) : Bool := a.tcause.getLsbD 8

/-- The commit points that have dispatched and not completed, oldest first (R67). -/
def Group.commits (g : Group) : List Commit := g.commit.toList ++ g.behind

/-- The threads of the commit points that have dispatched and not completed, and those of them whose EXIT has dispatched, which count as exited
(R38, R67). -/
def Group.committing (g : Group) : Mask := g.commits.foldl (fun m k => m ||| k.run) 0
def Group.leaving (g : Group) : Mask := g.commits.foldl (fun m k => m ||| k.exits) 0

/-- The threads that have not exited and are not parked, ceded, held by a trap, nor at a commit point that has dispatched. -/
def Group.present (g : Group) : Mask :=
  g.live &&& ~~~(g.arch.parked ||| g.committing ||| g.ceded ||| (if g.arch.hmode then g.arch.heldSet else 0))

/-- The threads that may be served, whether or not their instruction was found waiting (R28): those not held at a collective point. -/
def Group.free (g : Group) : Mask := g.present &&& ~~~g.coll

/-- The eligible threads (R28): a thread whose instruction waits is not one of them. -/
def Group.eligible (g : Group) : Mask := g.free &&& ~~~g.blocked

/-- The threads whose wait may be over: found waiting or held at a collective point, and to be looked at again. -/
def Group.retry (g : Group) : Mask := g.present &&& (g.blocked ||| g.coll) &&& g.look

/-- The lanes of `m` whose PC is `pc`. -/
def Arch.atPc (a : Arch) (m : Mask) (pc : Dword) : Mask := Mask.ofLanes (m.lanes.filter fun L => a.pc L == pc)

/-- The lowest PC among the lanes of `m`. -/
def Arch.lowPc (a : Arch) (m : Mask) : Option Dword :=
  m.lanes.foldl (fun o L => match o with
    | none => some (a.pc L)
    | some p => if (a.pc L).toNat < p.toNat then some (a.pc L) else some p) none

/-- The run of the lanes of `m` that stands at the lowest PC (R28). -/
def Arch.headRun (a : Arch) (m : Mask) : Option (Mask × Dword) := (a.lowPc m).map fun p => (a.atPc m p, p)

/-- The PC of the slot after `pc` (R265). -/
def nextPc (pc : Dword) : Dword := if pc &&& 7 = 4 then (pc &&& ~~~7) + 64 else pc + 1

/-- The group may dispatch: no trap of it is pending, it is not halted and not stopped, its next instruction was not found unable to, and it
holds fewer than 192 entries (R51). -/
def Group.canDispatch (g : Group) : Bool := g.trap.isNone && g.halt.isNone && !g.stop && !g.stall && decide (g.rob.length < 192)

/-- A quadrant's reorder buffer has an entry for a group (R51): 384 entries, of which 8 are kept for each resident group. -/
def State.robRoom (s : State) (g : Group) : Bool :=
  let mine := s.groups.filter fun h => h.core = g.core && h.quad == g.quad
  let extra := (mine.map fun h => h.rob.length - 8).foldl (· + ·) 0
  decide (g.rob.length < 8) || decide (extra + 8 * mine.length < 384)

/-- The checkpoint of sequence number `n`, or a younger one, is verified (R61). -/
def Group.verifiedAt (g : Group) (n : Nat) : Bool := g.ckpts.any fun c => decide (n ≤ c.seq) && c.verified

/-- Every entry older than `n` has retired and every staged effect older than `n` has been released. -/
def Group.drainedTo (g : Group) (n : Nat) : Bool := (g.rob.all fun e => decide (n ≤ e.seq)) && g.staged.all fun e => decide (n ≤ e.seq)

/-- Nothing of the group is in flight. -/
def Group.drained (g : Group) : Bool := g.rob.isEmpty && g.staged.isEmpty

/-- A dispatched commit point that may execute (R67): its threads and its PC. Its own checkpoint is verified, and every older entry has
retired and every older effect has been released. -/
def Group.commitTurn (g : Group) : Option (Mask × Dword) :=
  g.commit.bind fun k =>
    if k.run ≠ 0 && k.run &&& (g.blocked &&& ~~~g.look) == 0 && (k.begun || (g.verifiedAt k.seq && g.drainedTo k.seq)) then some (k.run, k.pc) else none

/-- Begin, continue or end a guard turn before a fetch decision (R31). -/
def Group.turnStep (g : Group) : Group :=
  let e := g.eligible
  let a := g.arch
  let a := match a.turn with
    | some (m, n) => if n ≥ Config.guardTurnLength ∨ e &&& m = 0 then { a with turn := none, starve := 0 } else a
    | none => a
  match a.turn with
  | some _ => { g with arch := a }
  | none =>
    match a.headRun e with
    | none => { g with arch := a }
    | some (h, _) =>
      let others := e &&& ~~~h
      if others = 0 ∨ h &&& a.lastRun = 0 then { g with arch := { a with starve := 0 } }
      else if a.starve ≥ Config.starvationLimit then
        let above := Mask.ofLanes (others.lanes.filter fun L => a.rot.toNat < (a.pc L).toNat)
        match a.headRun (if above = 0 then others else above) with
        | some (r, p) => { g with arch := { a with turn := some (r, 0), rot := p } }
        | none => { g with arch := a }
      else { g with arch := a }

/-- The run that the next fetch decision serves (R28, R31). -/
def Group.choose (g : Group) : Option (Mask × Dword) :=
  let e := g.eligible
  match g.arch.turn with
  | some (m, _) =>
    match g.arch.headRun (e &&& m) with
    | some (_, p) => some (g.arch.atPc e p, p)
    | none => g.arch.headRun e
  | none => g.arch.headRun e

/-- The fetch decision of a group: the run it serves. A commit point that may execute comes first, and is no turn of R31. -/
def Group.decide_ (g : Group) : Option (Mask × Dword) :=
  match g.commitTurn with
  | some r => some r
  | none => g.turnStep.choose

/-- A guard turn is over as soon as none of its threads is eligible (R31). -/
def Group.endTurn (g : Group) : Group :=
  match g.arch.turn with
  | some (m, _) => if g.eligible &&& m = 0 then { g with arch := { g.arch with turn := none, starve := 0 } } else g
  | none => g

/-- A fetch decision of the group `o` has served a run (R31): what it decided of the guard turn, and the head run for the next decision. What
CEDE holds back is over when the run holds none of it (R301). -/
def Group.decided (g o : Group) (run : Mask) : Group :=
  let a := o.turnStep.arch
  { g with
    arch := { g.arch with starve := a.starve, rot := a.rot, turn := a.turn, lastRun := run }
    ceded := if run &&& g.ceded = 0 then 0 else g.ceded }

/-- Count an instruction issued to a run by a fetch decision of the group `o` (R31), and look again at the threads found waiting. -/
def Group.noteIssue (g o : Group) (run : Mask) : Group :=
  let g := g.decided o run
  let a := match g.arch.turn with
    | some (m, n) => { g.arch with turn := some (m, n + 1) }
    | none => if g.eligible &&& ~~~run = 0 then { g.arch with starve := 0 } else { g.arch with starve := g.arch.starve + 1 }
  Group.endTurn { g with
    arch := a
    blocked := g.blocked &&& ~~~run
    look := (g.blocked &&& ~~~run) ||| (g.look &&& g.coll)
    stall := false }

/-- After an event, threads found waiting are looked at again, and so is an instruction that was found unable to dispatch. -/
def State.wake (s : State) : State :=
  { s with groups := s.groups.map fun g => { g with look := g.blocked ||| (g.look &&& g.coll), stall := false } }

/-! ## Registers -/

/-- Lane `L` of vector register `n`. -/
def Arch.vreg (a : Arch) (n L : Nat) : Word := (a.v.getD n ⟨[], []⟩).lanes.getD L 0

/-- Scalar register `n`. -/
def Arch.sreg (a : Arch) (n : Nat) : Dword := a.s.getD n 0

/-- Predicate `n`; p15 reads true in every lane (R269). -/
def Arch.preg (a : Arch) (n : Nat) : Mask := if n = 15 then BitVec.allOnes 64 else a.p.getD n 0

/-- A sidecar of 0x7F bytes (R88). -/
def plainSide : List Byte := List.replicate 16 0x7F

/-- A write of some lanes of a vector register covers a poisoned word of it: both its lanes (R405). -/
def wordCovered (n : Nat) (m : Mask) (p : RegFile × Nat × Nat) : Bool := p.1 == .vec && p.2.1 == n && m.has (2 * p.2.2) && m.has (2 * p.2.2 + 1)

/-- Write the lanes of `m` of a vector register; its sidecar becomes 0x7F (R45, R88). Words written whole lose their poison (R405). -/
def Arch.setV (a : Arch) (n : Nat) (m : Mask) (f : Nat → Word) : Arch :=
  { a with
    v := a.v.modify n fun r => ⟨r.lanes.mapIdx fun L x => if m.has L then f L else x, plainSide⟩
    pois := a.pois.filter fun p => !wordCovered n m p }

/-- Write a scalar register; its word loses its poison (R405). -/
def Arch.setS (a : Arch) (n : Nat) (x : Dword) : Arch :=
  { a with s := a.s.set n x, pois := a.pois.filter fun p => p.1 != .scl || p.2.1 != n }

/-- Write the lanes of `m` of a predicate; p15 discards (R45, R335). A predicate's lanes are one word, which a write of them all writes whole
(R405; DESIGN CHOICE, log 16). -/
def Arch.setP (a : Arch) (n : Nat) (m : Mask) (f : Nat → Bool) : Arch :=
  { a with
    p := a.p.modify n fun x => (x &&& ~~~m) ||| (Mask.ofLanes (m.lanes.filter f))
    pois := a.pois.filter fun p => !(p.1 == .prd && p.2.1 == n && Mask.below a.pcs.length &&& ~~~m == 0) }

/-- The value of a predicate operand in a lane. -/
def predAt (a : Arch) (o : Opd) (L : Nat) : Bool :=
  match o with
  | .prd n => (a.preg n.val).has L
  | _ => false

/-- One guard term (R269). -/
def guardTerm (a : Arch) (t : GuardTerm) : Mask := if t.neg then ~~~(a.preg t.p.val) else a.preg t.p.val

/-- The guard of an instruction in every lane (R269). -/
def guardOf (a : Arch) (c : Ctl) : Mask :=
  if c.gc then guardTerm a c.ga ||| guardTerm a c.gb else guardTerm a c.ga &&& guardTerm a c.gb

/-- A register operand lies below the declared counts (R27). -/
def Group.declares (g : Group) : Opd → Bool
  | .vec n => decide (n.val < g.nv)
  | .scl n => decide (n.val < g.ns)
  | _ => true

/-! ## Checkpoints and staged effects -/

/-- Checkpoints that are not verified. -/
def Group.unverified (g : Group) : Nat := (g.ckpts.filter fun c => !c.verified).length

/-- Every dispatched instruction has executed. -/
def Group.allExecuted (g : Group) : Bool := g.rob.all Entry.executed

/-- Every instruction older than sequence number `n` has executed; a commit point executes when it completes (R61, R67). -/
def Group.executedBefore (g : Group) (n : Nat) : Bool :=
  (g.rob.all fun e => decide (n ≤ e.seq) || e.executed) && g.commit.all fun k => decide (n ≤ k.seq)

/-- Checkpoints become complete once every older instruction has executed (R61). -/
def Group.completeCkpts (g : Group) (now : Nat) : Group :=
  { g with ckpts := g.ckpts.map fun c => if c.complete.isNone && g.executedBefore c.seq then { c with complete := some now } else c }

/-- A write of an engine command (R407). -/
def Effect.engine (e : Effect) : Bool :=
  match e.kind with
  | .write _ _ _ => decide (1 ≤ e.cls)
  | _ => false

/-- An entry has executed (R47): the address and the data of what it has staged are complete (R65). -/
def Group.markExecuted (g : Group) (now seq : Nat) : Group :=
  Group.completeCkpts { g with
    rob := g.rob.map fun e => if e.seq = seq then { e with executed := true } else e
    staged := g.staged.map fun e => if e.seq = seq ∧ !e.engine then { e with execAt := now } else e } now

/-- A source of an entry is not ready: it comes from an older entry that has not executed (R47). -/
def Group.depWaits (g : Group) (seq : Nat) : Bool :=
  g.rob.any fun e => e.seq == seq && e.deps.any fun d => g.rob.any fun o => o.seq == d && !o.executed

/-- What an entry waits for has come: it has executed, unless a source of it is still to come, after which EXECUTE_COMPLETE finishes it (R47). -/
def Group.finished (g : Group) (now seq : Nat) : Group := if g.depWaits seq then g else g.markExecuted now seq

/-- Take a checkpoint at a region head (R56, R60). It has a sequence number of its own, before its head's. -/
def Group.takeCkpt (g : Group) (now : Nat) : Group :=
  { g with ckpts := g.ckpts ++ [⟨g.seq, if g.executedBefore g.seq then some now else none, false, g.arch⟩], seq := g.seq + 1 }

/-- RSTRT with its CONSEC field replaced (Table 5-6). -/
def Group.setConsec (g : Group) (n : Nat) : Group :=
  { g with rstrt := (g.rstrt &&& ~~~(0xF00000000 : Dword)) ||| BitVec.ofNat 64 (n * 2 ^ 32) }

/-- Nothing of the group is in flight and a commit point has completed (R67): the checkpoint just after it is verified at once, so that it
alone is left (R61) and CONSEC is zero (R73). -/
def Group.commitDone (g : Group) (now : Nat) : Group :=
  { g with rob := [], ckpts := [⟨g.seq, some now, true, g.arch⟩], seq := g.seq + 1 }.setConsec 0

/-- Note in what a group is ordered by, from its entry `seq` on: in its registers and in what younger entries and checkpoints would
restore. -/
def Group.later (g : Group) (seq : Nat) (f : Arch → Arch) : Group :=
  { g with
    arch := f g.arch
    ckpts := g.ckpts.map fun c => if seq < c.seq then { c with arch := f c.arch } else c
    rob := g.rob.map fun e => if seq < e.seq then { e with undo := f e.undo } else e }

/-- Note what a store that has been released is ordered by (R170, R171): it has happened, whatever the group restores (R72). -/
def Group.ever (g : Group) (f : Arch → Arch) : Group :=
  { g with
    arch := f g.arch
    ckpts := g.ckpts.map fun c => { c with arch := f c.arch }
    rob := g.rob.map fun e => { e with undo := f e.undo } }

/-- The results of an older commit point in what a younger entry would restore (R54, R67): in the lanes of its run, what `b` holds; of the
scalars those it writes, `dsts`, which nothing younger has written since (`Group.holdsBack`); of the poison what it has changed. -/
def Arch.adopt (run : Mask) (dsts : List Opd) (old b a : Arch) : Arch :=
  let pick := fun {α : Type} (x y : List α) => x.mapIdx fun L z => if run.has L then y.getD L z else z
  let bits := fun (x y : Mask) => (x &&& ~~~run) ||| (y &&& run)
  { b with
    v := a.v.mapIdx fun n r =>
      let z := b.v.getD n r
      ⟨pick r.lanes z.lanes, if z = old.v.getD n r then r.side else z.side⟩
    s := a.s.mapIdx fun n x => if dsts.any (·.sclIs n) then b.s.getD n x else x
    p := a.p.mapIdx fun n x => bits x (b.p.getD n x)
    pcs := pick a.pcs b.pcs
    exited := bits a.exited b.exited
    parked := bits a.parked b.parked
    entering := bits a.entering b.entering
    starve := a.starve
    rot := a.rot
    lastRun := a.lastRun
    turn := a.turn
    pois := (a.pois.filter fun x => !old.pois.contains x || b.pois.contains x) ++ b.pois.filter fun x => !old.pois.contains x
    mem := { a.mem with threads := pick a.mem.threads b.mem.threads } }

/-- Trap 0x11 after the eighth restart (R73): at the lowest PC of the threads that are neither exited nor parked; with every thread parked
it waits for the first that is unparked. -/
def Group.limitTrap (g : Group) : Option Trap :=
  match g.arch.headRun (g.live &&& ~~~g.arch.parked &&& ~~~(if g.arch.hmode then g.arch.heldSet else 0)) with
  | some (m, p) => some ⟨0x11, p, m, 0, 0⟩
  | none => g.trap
def Group.limited (g : Group) : Group := { g with trap := g.limitTrap }

/-- The threads of a commit point that a restart has kept advance past it before trap 0x11 comes (R73, R293). -/
def Group.relimit (g : Group) : Group := { g with trap := if g.trap.any fun t => t.cause == 0x11 then g.limitTrap else g.trap }

/-- A commit point `k` has completed (R67): the group `g` holds its results, and `old` is the group as it was served. Younger entries of
other runs stand, with the results in what they would restore; the checkpoint just after it is verified at once, so that every older one
is dropped (R61) and CONSEC is zero (R73). The next commit point is the oldest now. No fetch decision was made (R31, R301). -/
def Group.completes (g : Group) (now : Nat) (k : Commit) (old : Group) : Group :=
  let a := { g.arch with starve := old.arch.starve, rot := old.arch.rot, lastRun := old.arch.lastRun, turn := old.arch.turn }
  let f := Arch.adopt k.run k.dsts old.arch a
  let rob := old.rob.filter fun e => decide (k.seq < e.seq)
  let own := (old.ckpts.find? fun c => c.seq = k.seq).map fun c => f c.arch
  let after : Ckpt := ⟨k.seq + 1, some now, true, if rob.isEmpty && old.behind.isEmpty then a else own.getD a⟩
  Group.completeCkpts (Group.setConsec (Group.relimit { g with
    arch := a
    ceded := old.ceded
    commit := old.behind.head?
    behind := old.behind.tail
    rob := rob.map fun e => { e with undo := f e.undo }
    ckpts := after :: (old.ckpts.filter fun c => decide (k.seq + 1 < c.seq)).map fun c => { c with arch := f c.arch } }) 0) now

/-- The entries whose results an instruction reads, or whose registers it writes, and for which it waits (R47). -/
def Group.depsOf (g : Group) (i : Instr) : List Nat :=
  let uses := (i.ctl.map i.uses).getD []
  (g.rob.filter fun e => !e.executed && e.dsts.any fun d => uses.any d.meets).map Entry.seq

/-- Add a reorder-buffer entry (R51) for the served run. -/
def Group.dispatch (g : Group) (i : Instr) (pc : Dword) (run act : Mask) (fl : BitVec 6) (undo : Arch) : Group :=
  { g with
    rob := g.rob ++ [⟨g.seq, pc, run, act, false, fl, 0, none, undo, i.orders, g.depsOf i, i.isBranch, g.objs⟩]
    seq := g.seq + 1
    objs := [] }

/-- The commit point is serialising: no younger instruction dispatches until it retires (R53). -/
def Commit.serial (k : Commit) : Bool := k.dsts.any fun d => match d with
  | .sreg r => [SReg.fpctl, .scopemd, .arena, .thand].contains r
  | _ => false

/-- An instruction cannot dispatch before a commit point that has: the commit point is serialising (R53); the instruction uses a register
which that will write, or writes one that it has still to read (R47); or it loads, and the commit point is a FENCE.sc (R176). -/
def Group.holdsBack (g : Group) (i : Instr) : Bool :=
  g.commits.any fun k : Commit => decide (k.run ≠ (0 : Mask)) &&
    (k.serial || (((i.ctl.map i.uses).getD []).any fun u => k.dsts.any u.meets) || (i.dsts.any fun d => k.srcs.any d.meets) ||
      (k.sc && i.reads))

/-- A branch of some of the lanes has not resolved (R54). -/
def Group.branching (g : Group) (m : Mask) : Bool := g.rob.any fun e => e.branch && !e.executed && e.run &&& m != 0

/-- A memory instruction or an engine command is held at the probe (R50, R54): an address operand comes from an entry that has not executed, or
an older branch of its run has not resolved. -/
def Group.unready (g : Group) (i : Instr) (run : Mask) : Bool :=
  i.addrs.any fun l => (g.rob.any fun e => !e.executed && e.dsts.any fun d => (d.isVec || d.isScl) && l.any d.meets) || g.branching run

/-- An older load of some of the lanes has not performed (R161). -/
def Group.loading (g : Group) (m : Mask) : Bool := g.loads.any fun l => g.rob.any fun e => e.seq == l.1 && e.act &&& m != 0

/-- Stage an effect under the next sequence number (R63). -/
def Group.stage (g : Group) (now cls : Nat) (k : EffectKind) (rels : List Release) (away : Bool := false) : Group :=
  { g with staged := g.staged ++ [⟨g.seq, cls, k, now, none, away, false, [], rels⟩] }

/-! ## Serving an instruction -/

/-- What a meaning sees: the group, the run it was served for, the active mask, the PC and the instruction; and whether it has taken a
checkpoint as a region head. -/
structure Served where
  g   : Group
  run : Mask
  act : Mask
  pc  : Dword
  i   : Instr
  hd  : Bool

/-- What a meaning answers. -/
inductive Res where
  | done (s : State) (g : Group) (fl : BitVec 6)    -- it acts; the run moves to the next slot
  | moved (s : State) (g : Group) (run : Mask) (fl : BitVec 6)  -- it acts for `run`; it has placed their PCs itself
  | wrote (s : State) (g : Group) (r : SReg) (x : Dword)      -- as done; `r` takes `x` when the entry retires (R91, R116)
  | flagged (s : State) (g : Group) (mx : BitVec 4)           -- as done, with flags of MXFLG (R116)
  | partly (s : State) (g : Group) (t : Trap)       -- a commit point completes, and meets a fault at its retirement (R410)
  | trap (s : State) (g : Group) (t : Trap)         -- it meets a fault (R55)
  | took (s : State)                                -- it has entered a trap itself (R223)
  | wait (s : State) (m : Mask)                     -- the threads of `m` wait (R28)
  | stall (s : State)                               -- it cannot dispatch, and what follows it in its group waits behind it (R53, R62)

/-- The sequence number under which an instruction is served: that of its commit point, once that has dispatched, or the next. -/
def Served.seq (v : Served) : Nat := ((v.g.commit.filter fun k => k.pc == v.pc && k.run == v.run).map Commit.seq).getD v.g.seq

/-- A trap of an instruction on some of its lanes. -/
def Served.trap (v : Served) (s : State) (cause : Nat) (m : Mask) (addr : Nat) : Res :=
  .trap s v.g ⟨cause, v.pc, m, BitVec.ofNat 64 addr, 0⟩

/-- Threads found waiting; those that have parked are not (R36). -/
def State.blockRun (s : State) (k : GroupKey) (m : Mask) : State :=
  s.updGroup k fun g => Group.endTurn { g with blocked := g.blocked ||| (m &&& ~~~g.arch.parked), look := g.look &&& ~~~m }

/-- A group whose next instruction cannot dispatch. -/
def State.stalled (s : State) (k : GroupKey) : State := s.updGroup k fun g => { g with stall := true }

/-- The instruction replaces something outside the renamed registers. -/
def Group.noting (g : Group) (o : ObjImage) : Group := { g with objs := o :: g.objs }

/-- A region head that does not dispatch takes no checkpoint (R60). -/
def Group.dropHead (g : Group) (hd : Bool) : Group := if hd then { g with ckpts := g.ckpts.dropLast } else g

/-- The instruction has acted for a run: the lanes it has parked are no longer of the run (R35), and when none is left nothing
dispatches. -/
def Group.issued (g : Group) (v : Served) (run : Mask) (fl : BitVec 6) : Group :=
  let run := run &&& ~~~g.arch.parked
  if run = 0 then ((g.dropHead v.hd).decided v.g v.run).endTurn
  else (g.dispatch v.i v.pc run (v.act &&& run) fl v.g.arch).noteIssue v.g run

/-- Store what a meaning answers (R29, R51, R55). -/
def conclude (v : Served) : Res → State
  | .done s g fl =>
    s.setGroup ({ g with arch := g.arch.setPcs (v.run &&& ~~~g.arch.parked) fun _ => nextPc v.pc }.issued v v.run fl)
  | .moved s g run fl => s.setGroup (g.issued v run fl)
  | .wrote s g r x =>
    let h := { g with arch := g.arch.setPcs v.run fun _ => nextPc v.pc }.issued v v.run 0
    s.setGroup { h with rob := h.rob.modify (h.rob.length - 1) fun e => { e with wr := some (r, x) } }
  | .flagged s g mx =>
    let h := { g with arch := g.arch.setPcs v.run fun _ => nextPc v.pc }.issued v v.run 0
    s.setGroup { h with rob := h.rob.modify (h.rob.length - 1) fun e => { e with mx := mx } }
  | .trap s g t | .partly s g t => s.setGroup { g with trap := some t }
  | .took s => s
  | .wait s m => s.blockRun v.g.key m
  | .stall s => s.stalled v.g.key

/-- The group that issues, and the threads served (R28). -/
def served (i : Instr) (s : State) (c : Ctl) : Option Served :=
  s.issue.bind fun q => (s.group? q.group).map fun g => ⟨g, q.run, q.run &&& guardOf g.arch c, q.pc, i, false⟩

/-- A region head dispatches with a checkpoint (R60), or waits with every other instruction of its group while four are unverified (R62). -/
def headed (c : Ctl) (s : State) (v : Served) (go : Served → State) : State :=
  if c.hd && decide (Config.maxUnverified ≤ v.g.unverified) then s.stalled v.g.key
  else go (if c.hd then { v with g := v.g.takeCkpt s.now, hd := true } else v)

/-- The lanes of a mask that read a poisoned word of an operand's register (R76, R405). -/
def Arch.poisonedAt (a : Arch) (m : Mask) (o : Opd) : Mask :=
  match o with
  | .vec n => Mask.ofLanes (m.lanes.filter fun L => a.pois.contains (.vec, n.val, L / 2))
  | .scl n => if a.pois.contains (.scl, n.val, 0) then m else 0
  | .prd n => if a.pois.contains (.prd, n.val, 0) then m else 0
  | _ => 0

/-- The lanes that read a poisoned word of the register files (R76, R405): every lane of the run reads the guard. -/
def Served.tainted (v : Served) : Mask :=
  if v.g.arch.pois = [] then 0
  else
    v.i.srcs.foldl (fun m o => m ||| v.g.arch.poisonedAt v.act o)
      (((v.i.ctl.map Ctl.guards).getD []).foldl (fun m o => m ||| v.g.arch.poisonedAt v.run o) 0)

/-- A body on operands free of poison; the lanes that read poison take trap 0x0B, whose TADDR is 0 for a register (log 16). -/
def clean (v : Served) (s : State) (body : Served → Res) : Res :=
  if v.tainted = 0 then body v else v.trap s 0x0B v.tainted 0

/-- A word that names a register past the declared counts (R27): illegal when a lane is active, otherwise a no-op (R278). -/
def undeclared (s : State) (v : Served) : State :=
  conclude v (if v.act = 0 then .done s v.g 0 else v.trap s 0x02 v.act 0)

/-- Serve an instruction that has no body with an empty active mask (R279): it dispatches behind the commit points before it, and a memory
access once it may be probed; a region head takes its checkpoint (R60, R62), the registers are judged against the declared counts
(R27), then the body acts. -/
def serve (i : Instr) (c : Ctl) (s : State) (body : Served → Res) : Out_ :=
  match served i s c with
  | none => .fault .noGroup
  | some v =>
    .next (if v.g.holdsBack i then s.stalled v.g.key
      else if decide (v.act ≠ 0) && v.g.unready i v.run then s.blockRun v.g.key v.run
      else headed c s v fun v =>
        if v.act = 0 && v.tainted = 0 then conclude v (.done s v.g 0)
        else if decide (v.act ≠ 0) && !i.regs.all v.g.declares then conclude v (v.trap s 0x02 v.act 0)
        else conclude v (clean v s body))

/-- Serve an instruction that waits or acts whatever its active mask (R279): collective and commit points, branches. A word that
names a register past the declared counts is illegal and neither waits nor acts. -/
def serveAll (i : Instr) (c : Ctl) (s : State) (body : Served → Res) : Out_ :=
  match served i s c with
  | none => .fault .noGroup
  | some v =>
    .next (if v.g.holdsBack i then s.stalled v.g.key
      else headed c s v fun v => if !i.regs.all v.g.declares then undeclared s v else conclude v (clean v s body))

/-! ## Collective points -/

/-- The threads that count for a collective point: those that have not exited, nor left the PC table at an EXIT (R33, R38). -/
def Group.here (g : Group) : Mask := g.live &&& ~~~g.leaving

/-- Every thread that counts is held at `pc` or served there. -/
def Group.gathered (g : Group) (run : Mask) (pc : Dword) : Bool :=
  let all := g.here
  all &&& ~~~(run ||| g.coll) == 0 && g.arch.atPc all pc == all

/-- The PCs at which threads are held, when there are two or more and nothing else can move (R34). -/
def Group.mismatch (g : Group) : Option (Dword × Mask) :=
  if g.free &&& g.here = 0 ∧ g.arch.parked &&& g.here = 0 ∧ g.committing &&& g.here = 0 ∧ g.ceded &&& g.here = 0 then
    match g.arch.headRun (g.coll &&& g.here) with
    | some (m, p) => if m = g.coll &&& g.here then none else some (p, m)
    | none => none
  else none

/-- Threads held at different points with nothing else to run take trap 0x0D (R34). -/
def Group.checkHeld (g : Group) : Group :=
  match g.mismatch with
  | some (p, m) => { g with trap := some ⟨0x0D, p, m, 0, 0⟩ }
  | none => g

/-- Hold the threads that have reached a collective point (R33). -/
def holdRun (v : Served) (s : State) : State :=
  s.setGroup (Group.checkHeld (Group.endTurn { v.g with coll := v.g.coll ||| v.run, blocked := v.g.blocked &&& ~~~v.run }))

/-- Serve a group-collective point (R33): threads that reach it are held; it acts once for all of them when every thread that counts
is held at it. -/
def serveColl (i : Instr) (c : Ctl) (s : State) (body : Served → Res) : Out_ :=
  match served i s c with
  | none => .fault .noGroup
  | some v =>
    .next (if !i.regs.all v.g.declares then (if v.g.holdsBack i then s.stalled v.g.key else headed c s v (undeclared s))
      else if !v.g.gathered v.run v.pc then holdRun v s
      else if v.g.holdsBack i then s.stalled v.g.key
      else headed c s { v with run := v.g.here, act := v.g.here &&& guardOf v.g.arch c } fun v =>
        let v := { v with g := { v.g with coll := 0 } }
        conclude v (clean v s body))

/-! ## Commit points -/

/-- A commit point has dispatched, behind those before it. -/
def Group.addCommit (g : Group) (k : Commit) : Group :=
  if g.commit.isNone then { g with commit := some k } else { g with behind := g.behind ++ [k] }

/-- A commit point dispatches (R67): as a region head, with a checkpoint of its own and, after it, a number for the checkpoint that its
completion will take. The threads of an EXIT leave the PC table, and the others of its run fall through (R38, R314); threads held at a
collective point are looked at again (R33, R34). -/
def Group.beginCommit (g : Group) (i : Instr) (v : Served) (now : Nat) : Group :=
  let n := g.seq
  let c := (i.ctl.map i.uses).getD []
  let h := { g.takeCkpt now with seq := n + 2 }
  match i with
  | .exit _ =>
    let out := if v.act = 0 then v.run else v.act
    let x := { h with arch := h.arch.setPcs (v.run &&& ~~~out) fun _ => nextPc v.pc }
    let y := (x.addCommit ⟨v.pc, n, false, out, v.act, [], [], false, encode i, false⟩).noteIssue g v.run
    Group.checkHeld { y with look := y.look ||| y.coll }
  | .fence _ _ _ => (h.addCommit ⟨v.pc, n, false, v.run, 0, [], [], true, encode i, false⟩).noteIssue g v.run
  | _ =>
    (h.addCommit ⟨v.pc, n, false, v.run, 0, i.dsts, c.filter (fun o => o.isScl || o.isSreg), false, encode i, false⟩).noteIssue g v.run

/-- A commit point cannot dispatch yet: four checkpoints are unverified (R62); it is serialising and the group holds an entry, or one before it
is serialising (R53); or its guard is still to be written (R47). -/
def Group.holdsPoint (g : Group) (i : Instr) : Bool :=
  decide (Config.maxUnverified ≤ g.unverified) || (i.serial && !(g.rob.isEmpty && g.commits.isEmpty)) ||
    g.commits.any fun k : Commit => decide (k.run ≠ (0 : Mask)) &&
      (k.serial || (((i.ctl.map Ctl.guards).getD []).any fun u => k.dsts.any u.meets))

/-- A commit point at its gate (R67): dispatched as a region head with a checkpoint of its own, it acts only once that checkpoint
is verified, every older entry has retired and every older staged effect has been released; then the group takes a checkpoint that is
verified at once. One that has begun and waits goes on (R293). -/
def gate (v : Served) (s : State) (body : Served → Res) : State :=
  let g := v.g
  match g.commit.filter fun k => k.pc == v.pc && k.run == v.run with
  | none => if g.holdsPoint v.i then s.stalled g.key else s.setGroup (g.beginCommit v.i v s.now)
  | some k =>
    if !k.begun && !(g.verifiedAt k.seq && g.drainedTo k.seq) then s
    else
      let cut := fun (h : Group) n => if h.drained && g.behind.isEmpty then none else some n
      let ends := fun (r : Res) => (conclude v r).updGroup g.key fun h => h.completes s.now k g
      match if v.act = 0 && v.tainted = 0 then Res.done s { g with coll := g.coll &&& ~~~v.run } 0 else clean v s body with
      | .done s' g' fl => ends (.done s' { g' with commit := none } fl)
      | .moved s' g' run fl => ends (.moved s' { g' with commit := none } run fl)
      | .wrote s' g' r x => conclude v (.wrote s' g' r x)
      | .flagged s' g' mx => conclude v (.flagged s' g' mx)
      | .trap s' g' t => conclude v (.trap s' { g' with commit := none, cut := cut g' (k.seq + 1) } t)
      | .partly s' g' t => ends (.partly s' { g' with commit := none, cut := cut g' (k.seq + 2) } t)
      | .took s' => s'
      | .stall s' => s'
      | .wait s' m => (conclude v (.wait s' m)).updGroup g.key fun h => { h with commit := h.commit.map fun k => { k with begun := true } }

/-- A commit point waits for what a save passes over (R28, R229, R231), or for what a save waits for too. -/
def Group.idling (g : Group) (b : Bool) : Group := { g with commit := g.commit.map fun k => { k with idle := b } }

/-- Serve a commit point (R67). -/
def serveCommit (i : Instr) (c : Ctl) (s : State) (body : Served → Res) : Out_ :=
  match served i s c with
  | none => .fault .noGroup
  | some v =>
    .next (if !i.regs.all v.g.declares then (if v.g.holdsBack i then s.stalled v.g.key else headed c s v (undeclared s)) else gate v s body)

/-! ## Traps -/

/-- The 64-byte line at a physical address, as 512 bits. -/
def lineBits (m : Memory) (a : Nat) : BitVec 512 := BitVec.ofNat 512 (m.num a 64)

/-- What the check of a branch target finds (R268). -/
inductive TargetRes where
  | ok
  | illegal             -- trap 0x03
  | forbid              -- trap 0x06
  | absent (page : Nat) -- the threads park
deriving DecidableEq, Repr

/-- Check a PC as a branch target (R268). -/
def checkTarget (s : State) (g : Group) (pc : Dword) : TargetRes :=
  if pc.extractLsb' 57 7 ≠ 0 ∨ pc.extractLsb' 3 3 ≠ 0 ∨ (pc &&& 7).toNat > 4 then .illegal else
  match s.ctxOf g with
  | none => .forbid
  | some c =>
    match probe s g.key.team.part c g.core .fetch (pc.toNat / 64 * 64) with
    | .absent p => .absent p
    | .forbid => .forbid
    | .ok p => if lineTarget (lineBits s.ram.mem p.pa) (pc &&& 7).toNat then .ok else .illegal

/-- The locked lines of a team, each with the core that holds it (R149); a saved team holds none (R150). -/
def Team.locked (t : Team) : List (Nat × CoreId) :=
  if t.status = .saved then [] else (List.range t.ranks.length).flatMap fun r => (t.ranks.getD r default).locks.map fun l => (l.1, t.cores.getD r default)

/-- Other cores see what a team's locked lines hold, once they are unlocked (R150, R351). -/
def State.showLocked (s : State) (k : TeamKey) : State :=
  { s with ram := ((s.team? k).map Team.locked).getD [] |>.foldl (fun r l => Ram.unhide r l.1 l.2) s.ram }

/-- What a group has read and written, of every class. -/
def Group.viewAll (g : Group) : View :=
  let m := g.arch.mem
  (m.must ++ m.seen).foldl View.join (m.threads.foldl (fun v t => View.join (View.join v t.view) t.hb) [])

/-- Something leaves the device. -/
def State.emit (s : State) (o : Out) : State := { s with dev := { s.dev with out := o :: s.dev.out } }

/-- NSEND's header (R372): SEQ counts the messages to one destination partition. -/
def State.headerFor (s : State) (part dev dpart tag len : Nat) : WharfHeader :=
  let n := (((s.part part).txSeq.find? fun e => e.1 = (dev, dpart)).map Prod.snd).getD 0
  ⟨len, n, tag, 1, s.dev.devNum, dev, part, dpart, 0⟩

/-- Count a message to a destination. -/
def Part.counted (p : Part) (h : WharfHeader) : Part :=
  { p with txSeq := ((h.dstDev, h.dstPart), (h.seq + 1) % 2 ^ 32) :: p.txSeq.filter fun e => e.1 ≠ (h.dstDev, h.dstPart) }

/-- A destination as one number, laid out as NSEND's first scalar (R372). -/
def destNo (dev part : Nat) : Nat := dev + 65536 * part

/-- The port by which messages for a partition of a device leave (R241): one of the four of the I/O die, the same for all of them (log 35). -/
def wharfPort (dev dpart : Nat) : Nat := Config.wharfHash dev dpart % 4

/-- The header of a collective's message or of an abort (R244, Table 20-4). Its LEN, its TAG and its payload, which tells the peers of which
collective, are not laid down: free values (log 35). -/
def State.frameHeader (s : State) (part dev dpart kind : Nat) : WharfHeader :=
  { s.headerFor part dev dpart (Config.freeNat (s.fresh + 1) % 2 ^ 32) (Config.freeNat s.fresh % 65537) with kind := kind }

/-- Send a frame about a collective to a partition of another device. -/
def State.sendFrame (s : State) (part dev dpart kind comm seq : Nat) : State :=
  let t := s.emit (.frame (bitsOf ((s.part part).desc.getD 3 0).toNat 4 4) (wharfPort dev dpart) (s.frameHeader part dev dpart kind) comm seq)
  { t with fresh := t.fresh + 2 }

/-- A collective in a partition loses a rank (R234): the lowest such rank is kept. -/
def CollOp.lose (o : CollOp) (comm seq rank : Nat) : CollOp :=
  if o.comm = comm ∧ o.seq = seq then { o with fate := some (min rank (o.fate.getD rank)) } else o

/-- The peers of a collective whose team or partition goes are told (R234, R244): those on this device at once, the others by an
abort message. -/
def State.abortColl (s : State) (part : Nat) (o : CollOp) : State :=
  match assoc (s.part part).comms o.comm with
  | none => s
  | some c =>
    (List.range c.nr).foldl (fun s r =>
      let d := c.ranks.getD r (0, 0)
      if r = c.my then s
      else if d.1 = s.dev.devNum then s.updPart d.2 fun p => { p with colls := p.colls.map fun q => q.lose o.comm o.seq c.my }
      else s.sendFrame part d.1 d.2 3 o.comm o.seq) s

/-- A team leaves the machine (R232): its groups leave their slots, its locked lines are unlocked, its queued faults, its
collectives and its messages go with it, and its grid keeps what its groups have read and written (R198). -/
def State.dropTeam (s : State) (k : TeamKey) : State :=
  let s := ((s.part k.part).colls.filter fun o => o.group.team = k).foldl (fun s o => s.abortColl k.part o) s
  let did := (s.groups.filter fun g => g.key.team = k).foldl (fun v g => View.join v g.viewAll) []
  let u := s.showLocked k
  { u with
    groups := u.groups.filter fun g => g.key.team ≠ k
    teams := u.teams.filter fun t => t.key ≠ k
    latch := if u.latch.any fun f => f.issue.group.team = k then none else u.latch
    coh := { u.coh with syncs := u.coh.syncs.map fun y => { y with waits := y.waits.filter fun w => w.1.team ≠ k } }
    parts := u.parts.mapIdx fun n p => if n ≠ k.part then p else
      { p with
        grids := p.grids.map fun g => if g.num = k.grid then { g with did := View.join g.did did } else g
        faults := (p.faults.map fun f => { f with teams := f.teams.filter (· ≠ k) }).filter fun f => !f.teams.isEmpty
        colls := p.colls.filter fun o => o.group.team ≠ k
        sends := p.sends.filter fun o => o.group.team ≠ k } }

/-- A log record of the telemetry endpoint (Table 20-12). -/
def State.logRec (s : State) (source part : Nat) (details : List Byte) : State :=
  { s with dev := { s.dev with log := s.dev.log ++ [⟨s.now, source, part, (details ++ List.replicate 48 0).take 48⟩] } }

/-- A team is lost (R225): killed, its grid marked LOST, the loss logged. -/
def State.loseTeam (s : State) (k : TeamKey) (t : Trap) : State :=
  let s := s.updPart k.part fun p => { p with grids := p.grids.map fun g =>
    if g.num = k.grid ∧ g.lost.isNone then { g with lost := some k.idx } else g }
  let s := s.logRec 0 k.part (leBytes 4 k.idx ++ leBytes 4 k.grid ++ leBytes 8 t.cause ++ leBytes 8 t.pc.toNat ++ leBytes 8 t.addr.toNat)
  s.dropTeam k

/-- The trap registers and the PCs when a trap is delivered (R223, Tables 19-1 to 19-5). -/
def Group.enterTrap (g : Group) (t : Trap) : Group :=
  let held := g.live &&& ~~~t.mask
  { g with
    trap := none
    coll := 0
    commit := none
    behind := []
    arch := { g.arch.setPcs t.mask fun _ => g.arch.thand with
      tcause := BitVec.ofNat 64 (t.cause % 256) ||| 0x100
      tpc := t.pc
      tmask := t.mask
      taddr := t.addr
      heldPc := g.arch.pcs
      heldSet := held
      turn := none
      fpflg := g.arch.fpflg ||| t.flags.setWidth 64 } }

/-- The threads of a mask stand at an entry whose line has still to be checked as a branch target's (R268). -/
def Group.entersAt (g : Group) (m : Mask) : Group := { g with arch := { g.arch with entering := m } }

/-- Deliver a trap to its group (R223): with no handler, with HMODE already set, or with a handler entry that is no legal branch
target, the team is lost (R225). A handler line without a translation parks the threads at THAND (R268). -/
def deliver (s : State) (g : Group) (t : Trap) : State :=
  if g.arch.hmode ∨ g.arch.thand = 0 then s.loseTeam g.key.team t
  else
    match checkTarget s g g.arch.thand with
    | .illegal | .forbid => s.loseTeam g.key.team t
    | .ok => s.setGroup ((g.enterTrap t).commitDone s.now)
    | .absent _ => s.setGroup ((g.enterTrap t).entersAt t.mask |>.commitDone s.now)

/-- Return from a trap (R224): the threads of TMASK go to TPC, the held threads to their held PCs, HMODE is cleared. -/
def Arch.leaveTrap (a : Arch) : Arch :=
  let a' := a.setPcs a.tmask fun _ => a.tpc
  let a'' := a'.setPcs a.heldSet fun L => a.heldPc.getD L 0
  { a'' with tcause := a.tcause &&& ~~~0x100, heldSet := 0, heldPc := [] }

/-- The last thread of TMASK has exited in the handler: the held threads resume (R224). -/
def Arch.handlerDone (a : Arch) : Arch :=
  if a.hmode ∧ a.tmask &&& ~~~a.exited = 0 then a.leaveTrap else a

end Sys2Proof.Machine
end

