-- ==== Sys2Proof/Machine/Operands.lean ====
section
/-! DEFINITION. Machine/Operands.lean: every operand form: how a source is read (R7, R84, R85, R272), how a destination is
written (R45, R85, R88, R272), and how an address is formed (R124). -/

namespace Sys2Proof.Machine

/-- The 64 bits an operand supplies to a lane: a pair or one register of a vector (R84), a scalar, an immediate's value
extended (R272), zero for class 110. -/
def readRaw (a : Arch) (wide : Bool) (o : Opd) (L : Nat) : Dword :=
  match o with
  | .vec n => if wide then a.vreg (n.val + 1) L ++ a.vreg n.val L else (a.vreg n.val L).setWidth 64
  | .scl n => a.sreg n.val
  | .imm i => i.signExtend 64
  | _ => 0

/-- An operand of a type, as the bits of that type's width (R85): the low bits of what it supplies. -/
def readBits (a : Arch) (ty : Ty) (o : Opd) (L : Nat) : Nat := (readRaw a ty.wide o L).toNat % 2 ^ ty.bits

/-- Bits as an integer of a type's signedness (R83). -/
def asInt (ty : Ty) (x : Nat) : Int := if ty.isS ∧ x ≥ 2 ^ (ty.bits - 1) then (x : Int) - 2 ^ ty.bits else x

/-- An integer operand (R333). -/
def readInt (a : Arch) (ty : Ty) (o : Opd) (L : Nat) : Int := asInt ty (readBits a ty o L)

/-- Bits 31:0 of an operand of one register, unsigned (R285, R386). -/
def read32 (a : Arch) (o : Opd) (L : Nat) : Nat := (readRaw a false o L).toNat % 2 ^ 32

/-- A result of a type extended to 64 bits: sign-extended for S types, zero-extended otherwise (R85). -/
def extend (ty : Ty) (x : Nat) : Dword :=
  if ty.isS ∧ x % 2 ^ ty.bits ≥ 2 ^ (ty.bits - 1) then BitVec.ofNat 64 (x % 2 ^ ty.bits + (2 ^ 64 - 2 ^ ty.bits))
  else BitVec.ofNat 64 (x % 2 ^ ty.bits)

/-- An integer taken modulo a type's width and extended (R334). -/
def extendInt (ty : Ty) (x : Int) : Dword := extend ty (x % 2 ^ ty.bits).toNat

/-- Write a destination in the lanes of `m`: an even/odd pair or one vector register, or a scalar once when a lane is active;
class 110 discards (R45, R84, R272). A scalar takes the value of the lowest active lane. -/
def writeDst (a : Arch) (wide : Bool) (d : Opd) (m : Mask) (f : Nat → Dword) : Arch :=
  match d with
  | .vec n =>
    if wide then (a.setV n.val m fun L => (f L).setWidth 32).setV (n.val + 1) m fun L => (f L).extractLsb' 32 32
    else a.setV n.val m fun L => (f L).setWidth 32
  | .scl n => match m.low? with
    | some L => a.setS n.val (f L)
    | none => a
  | _ => a

/-- Write a predicate destination in the lanes of `m`; p15 discards. -/
def writePrd (a : Arch) (d : Opd) (m : Mask) (f : Nat → Bool) : Arch :=
  match d with
  | .prd n => a.setP n.val m f
  | _ => a

/-- A term of an address (R124): the base as 64 bits. -/
def baseTerm (a : Arch) (o : Opd) (L : Nat) : Dword := readRaw a true o L

/-- An index term of an address (R124): a vector lane sign-extended, a scalar whole, an immediate extended. -/
def idxTerm (a : Arch) (o : Opd) (L : Nat) : Dword :=
  match o with
  | .vec n => (a.vreg n.val L).signExtend 64
  | o => readRaw a false o L

/-- OA + OB × size + OC × size, modulo 2^64 (R124). -/
def addrSum (a : Arch) (size : Nat) (t1 t2 t3 : Opd) (L : Nat) : Nat :=
  (baseTerm a t1 L + idxTerm a t2 L * BitVec.ofNat 64 size + idxTerm a t3 L * BitVec.ofNat 64 size).toNat

/-- Bytes of a type's element in memory (R86): an FP6 type counts a group of four, an FP4 type a group of eight. -/
def memBytes (t : Ty) : Nat :=
  match t.bits with
  | 64 => 8
  | 32 => 4
  | 16 => 2
  | 8 => 1
  | 6 => 3
  | _ => 4

/-- The alignment a type's element asks for (R124): the FP6 groups need byte alignment only. -/
def memAlign (t : Ty) : Nat := if memBytes t = 3 then 1 else memBytes t

/-- What a load of a type writes (Table 25-3). -/
def loaded (ty : Ty) (x : Nat) : Dword := if ty.bits < 8 then BitVec.ofNat 64 x else extend ty x

/-- The operand is uniform: one value for the group. -/
def uniform (o : Opd) : Bool := !o.isVec

/-- The number of a scalar operand. -/
def sclNo (o : Opd) : Nat :=
  match o with
  | .scl n => n.val
  | _ => 0

/-- The number of a vector operand. -/
def vecNo (o : Opd) : Nat :=
  match o with
  | .vec n => n.val
  | _ => 0

/-- The number of an object register operand. -/
def objNo (o : Opd) : Nat :=
  match o with
  | .kreg n => n.val
  | .creg n => n.val
  | .qreg n => n.val
  | .breg n => n.val
  | .zreg n => n.val
  | _ => 0

/-- The value of an immediate operand. -/
def immVal (o : Opd) : Int :=
  match o with
  | .imm i => i.toInt
  | _ => 0

end Sys2Proof.Machine
end

