-- ==== Sys2Proof/Machine/Flags.lean ====
section
/-! DEFINITION. Machine/Flags.lean: the flags of FPFLG (Table 7-4) and MXFLG (Table 8-6), what FPCTL says of them (Table 7-3),
and what an instruction that raises an enabled flag does (R93). -/

namespace Sys2Proof.Machine

/-- Flags an instruction raises, in FPFLG's layout. -/
abbrev Flg := BitVec 6

def Flg.nx : Flg := 1
def Flg.uf : Flg := 2
def Flg.ovf : Flg := 4
def Flg.dz : Flg := 8
def Flg.nv : Flg := 16
def Flg.idn : Flg := 32

/-- FPCTL.TE as a mask over FPFLG (Table 7-3). -/
def fpTe (fpctl : Dword) : Flg := (fpctl.extractLsb' 8 5).setWidth 6

/-- FPCTL.FTZ and FPCTL.DAZ of a class (Table 7-3). -/
def fpFtz (fpctl : Dword) (cls : Nat) : Bool := decide (cls < 6) && fpctl.getLsbD (24 + cls)
def fpDaz (fpctl : Dword) (cls : Nat) : Bool := decide (cls < 6) && fpctl.getLsbD (16 + cls)

/-- FPCTL.SAT8. -/
def fpSat8 (fpctl : Dword) : Bool := fpctl.getLsbD 4

/-- The rounding mode an instruction uses: dynamic takes FPCTL.RM (R94). -/
def rndMode (fpctl : Dword) (r : Rnd) : Rnd :=
  match r with
  | .dyn => if fpctl.getLsbD 1 then (if fpctl.getLsbD 0 then .ru else .rd) else if fpctl.getLsbD 0 then .rz else .rne
  | r => r

/-- Class of a format for flushing: 0 FP64, 1 FP32, 2 FP16, 3 BF16, 4 FP8, 5 FP6 and FP4; MXS8 and the integers have none. -/
def fpClass (t : Ty) : Nat :=
  match t with
  | .fp64 => 0
  | .fp32 => 1
  | .fp16 => 2
  | .bf16 => 3
  | .e5m2 | .e4m3 | .mxe5m2 | .mxe4m3 => 4
  | .e3m2 | .e2m3 | .e2m1 | .mxe3m2 | .mxe2m3 | .mxe2m1 => 5
  | _ => 6

/-- The writable bits of FPCTL (Table 7-3). -/
def fpctlMask : Dword := 0xFFFFFFFF3F3F1F13

/-- The flags of the lanes of `m`, together. -/
def orFlags (m : Mask) (f : Nat → Flg) : Flg := m.lanes.foldl (fun x L => x ||| f L) 0

/-- An instruction has computed, with flags for each lane. If one of them is enabled in FPCTL.TE it writes nothing and takes trap
0x13, TMASK the lanes that raised an enabled flag, TADDR the flags (R93); otherwise it acts. -/
def raiseFlags (v : Served) (s : State) (f : Nat → Flg) (g : Group) : Res :=
  let te := fpTe v.g.arch.fpctl
  let all := orFlags v.act f
  if all &&& te = 0 then .done s g all
  else .trap s v.g ⟨0x13, v.pc, Mask.ofLanes (v.act.lanes.filter fun L => f L &&& te ≠ 0), all.setWidth 64, all⟩

end Sys2Proof.Machine
end

