-- ==== Sys2Proof/Machine/Int.lean ====
section
/-! DEFINITION. Machine/Int.lean: the integer instructions (R333 to R337). -/

namespace Sys2Proof.Machine

/-- A per-lane computation with no flag: the destination takes `f` in every active lane, or once for a scalar (R272, R286). -/
def alu (i : Instr) (c : Ctl) (s : State) (wide : Bool) (d : Opd) (f : Arch → Nat → Dword) : Out_ :=
  serve i c s fun v => .done s { v.g with arch := writeDst v.g.arch wide d v.act (f v.g.arch) } 0

/-- A per-lane comparison with no flag: the predicate takes `f` in every active lane (R335). -/
def aluPrd (i : Instr) (c : Ctl) (s : State) (d : Opd) (f : Arch → Nat → Bool) : Out_ :=
  serve i c s fun v => .done s { v.g with arch := writePrd v.g.arch d v.act (f v.g.arch) } 0

/-- The least and the greatest value of a type (R334). -/
def tyLo (ty : Ty) : Int := if ty.isS then -(2 ^ (ty.bits - 1)) else 0
def tyHi (ty : Ty) : Int := if ty.isS then 2 ^ (ty.bits - 1) - 1 else 2 ^ ty.bits - 1

/-- Saturation (R334). -/
def saturate (sat : Bool) (ty : Ty) (r : Int) : Int := if sat then min (max r (tyLo ty)) (tyHi ty) else r

/-- What an integer instruction writes: saturated where asked, modulo the width, extended (R334). -/
def intResult (sat : Bool) (ty : Ty) (r : Int) : Dword := extendInt ty (saturate sat ty r)

/-- The conditions of ICMP on integers (R274). -/
def condInt (k : Cond) (a b : Int) : Bool :=
  match k with
  | .eq => a == b
  | .ne => a != b
  | .lt => decide (a < b)
  | .le => decide (a ≤ b)
  | .gt => decide (b < a)
  | .ge => decide (b ≤ a)
  | .ord => true
  | .unord => false

/-- IADD (R334). -/
def execIadd (c : Ctl) (sat : Bool) (ty : Ty) (d a b : Opd) (s : State) : Out_ :=
  alu (.iadd c sat ty d a b) c s ty.wide d fun r L => intResult sat ty (readInt r ty a L + readInt r ty b L)

/-- ISUB (R334). -/
def execIsub (c : Ctl) (sat : Bool) (ty : Ty) (d a b : Opd) (s : State) : Out_ :=
  alu (.isub c sat ty d a b) c s ty.wide d fun r L => intResult sat ty (readInt r ty a L - readInt r ty b L)

/-- IMUL (R334): the low half of the product. -/
def execImul (c : Ctl) (ty : Ty) (d a b : Opd) (s : State) : Out_ :=
  alu (.imul c ty d a b) c s ty.wide d fun r L => intResult false ty (readInt r ty a L * readInt r ty b L)

/-- IMULH (R334): the high half of the exact product. -/
def execImulh (c : Ctl) (ty : Ty) (d a b : Opd) (s : State) : Out_ :=
  alu (.imulh c ty d a b) c s ty.wide d fun r L => intResult false ty ((readInt r ty a L * readInt r ty b L) / 2 ^ ty.bits)

/-- IMAD (R334). -/
def execImad (c : Ctl) (ty : Ty) (d a b e : Opd) (s : State) : Out_ :=
  alu (.imad c ty d a b e) c s ty.wide d fun r L =>
    intResult false ty (readInt r ty a L * readInt r ty b L + readInt r ty e L)

/-- IMIN (R334). -/
def execImin (c : Ctl) (ty : Ty) (d a b : Opd) (s : State) : Out_ :=
  alu (.imin c ty d a b) c s ty.wide d fun r L => intResult false ty (min (readInt r ty a L) (readInt r ty b L))

/-- IMAX (R334). -/
def execImax (c : Ctl) (ty : Ty) (d a b : Opd) (s : State) : Out_ :=
  alu (.imax c ty d a b) c s ty.wide d fun r L => intResult false ty (max (readInt r ty a L) (readInt r ty b L))

/-- IABS (R334). -/
def execIabs (c : Ctl) (sat : Bool) (ty : Ty) (d a : Opd) (s : State) : Out_ :=
  alu (.iabs c sat ty d a) c s ty.wide d fun r L => intResult sat ty (readInt r ty a L).natAbs

/-- INEG (R334). -/
def execIneg (c : Ctl) (sat : Bool) (ty : Ty) (d a : Opd) (s : State) : Out_ :=
  alu (.ineg c sat ty d a) c s ty.wide d fun r L => intResult sat ty (-(readInt r ty a L))

/-- IXA (R336): a base and an index of one register, extended by TY's signedness and shifted. -/
def execIxa (c : Ctl) (ty : Ty) (d a b sh : Opd) (s : State) : Out_ :=
  alu (.ixa c ty d a b sh) c s true d fun r L =>
    readRaw r true a L + ((if ty.isS then (BitVec.ofNat 32 (read32 r b L)).signExtend 64 else BitVec.ofNat 64 (read32 r b L)) <<< (immVal sh).toNat)

/-- ICMP (R335). -/
def execIcmp (c : Ctl) (cond : Cond) (ty : Ty) (d a b : Opd) (s : State) : Out_ :=
  aluPrd (.icmp c cond ty d a b) c s d fun r L => condInt cond (readInt r ty a L) (readInt r ty b L)

end Sys2Proof.Machine
end

