-- ==== Sys2Proof/Machine/Bit.lean ====
section
/-! DEFINITION. Machine/Bit.lean: the bit, logic and shift instructions (R285, R286, R359, R386). -/

namespace Sys2Proof.Machine

/-- Bits 7:0 of a shift amount, position or length (R285, R386). -/
def read8 (r : Arch) (o : Opd) (L : Nat) : Nat := read32 r o L % 256

/-- What a bit instruction of a type writes. -/
def bits (ty : Ty) (x : Nat) : Dword := BitVec.ofNat 64 (x % 2 ^ ty.bits)

/-- How many of the low `n` bits are set. -/
def popCount (n x : Nat) : Nat := ((List.range n).filter x.testBit).length

/-- How many of the `n` bits are zero above the highest one set. -/
def leadZeros (n x : Nat) : Nat := if x = 0 then n else n - 1 - Nat.log2 x

/-- How many of the `n` bits are zero below the lowest one set. -/
def trailZeros (n x : Nat) : Nat := ((List.range n).find? x.testBit).getD n

/-- The low `n` bits in reverse order. -/
def reverseBits (n x : Nat) : Nat := (List.range n).foldl (fun r i => if x.testBit i then r + 2 ^ (n - 1 - i) else r) 0

/-- BXT's field (R286). -/
def bxtField (ty : Ty) (x p n : Nat) : Dword :=
  if n = 0 ∨ p ≥ ty.bits then 0
  else
    let n := min n (ty.bits - p)
    let f := x / 2 ^ p % 2 ^ n
    if ty.isS ∧ f ≥ 2 ^ (n - 1) then extendInt ty ((f : Int) - 2 ^ n) else extend ty f

/-- BINS's value (R286). -/
def binsValue (wd a b p n : Nat) : Nat :=
  if n = 0 ∨ p ≥ wd then a
  else
    let n := min n (wd - p)
    let m := (2 ^ n - 1) * 2 ^ p
    (a - (a &&& m)) + ((b * 2 ^ p) &&& m)

/-- One byte of BPERM (R286): selector nibble `t` over the pool of eight bytes. -/
def bpermByte (pool t : Nat) : Nat :=
  let y := pool / 2 ^ (8 * (t % 8)) % 256
  if t ≥ 8 then (if y ≥ 128 then 0xFF else 0) else y

/-- AND (R286). -/
def execAnd (c : Ctl) (ty : Ty) (d a b : Opd) (s : State) : Out_ :=
  alu (.and c ty d a b) c s ty.wide d fun r L => bits ty (readBits r ty a L &&& readBits r ty b L)

/-- OR (Table 25-6). -/
def execOr (c : Ctl) (ty : Ty) (d a b : Opd) (s : State) : Out_ :=
  alu (.or c ty d a b) c s ty.wide d fun r L => bits ty (readBits r ty a L ||| readBits r ty b L)

/-- XOR (Table 26-4). -/
def execXor (c : Ctl) (ty : Ty) (d a b : Opd) (s : State) : Out_ :=
  alu (.xor c ty d a b) c s ty.wide d fun r L => bits ty (readBits r ty a L ^^^ readBits r ty b L)

/-- NOT (Table 25-6). -/
def execNot (c : Ctl) (ty : Ty) (d a : Opd) (s : State) : Out_ :=
  alu (.not c ty d a) c s ty.wide d fun r L => bits ty (2 ^ ty.bits - 1 - readBits r ty a L)

/-- SHL (Table 26-4). -/
def execShl (c : Ctl) (ty : Ty) (d a b : Opd) (s : State) : Out_ :=
  alu (.shl c ty d a b) c s ty.wide d fun r L => bits ty (readBits r ty a L * 2 ^ read8 r b L)

/-- SHR (Table 26-4). -/
def execShr (c : Ctl) (ty : Ty) (d a b : Opd) (s : State) : Out_ :=
  alu (.shr c ty d a b) c s ty.wide d fun r L => bits ty (readBits r ty a L / 2 ^ read8 r b L)

/-- SAR (Table 26-4): copies of the top bit come in. -/
def execSar (c : Ctl) (ty : Ty) (d a b : Opd) (s : State) : Out_ :=
  alu (.sar c ty d a b) c s ty.wide d fun r L =>
    let x := readBits r ty a L
    let x : Int := if x ≥ 2 ^ (ty.bits - 1) then (x : Int) - 2 ^ ty.bits else x
    bits ty (x / 2 ^ read8 r b L % 2 ^ ty.bits).toNat

/-- ROT (Table 26-4): rotate left. -/
def execRot (c : Ctl) (ty : Ty) (d a b : Opd) (s : State) : Out_ :=
  alu (.rot c ty d a b) c s ty.wide d fun r L =>
    let k := read8 r b L % ty.bits
    let x := readBits r ty a L
    bits ty (x * 2 ^ k + x / 2 ^ (ty.bits - k))

/-- BXT (R286). -/
def execBxt (c : Ctl) (ty : Ty) (d a pos len : Opd) (s : State) : Out_ :=
  alu (.bxt c ty d a pos len) c s ty.wide d fun r L => bxtField ty (readBits r ty a L) (read8 r pos L) (read8 r len L)

/-- BINS (R286). -/
def execBins (c : Ctl) (ty : Ty) (d a b pos len : Opd) (s : State) : Out_ :=
  alu (.bins c ty d a b pos len) c s ty.wide d fun r L =>
    bits ty (binsValue ty.bits (readBits r ty a L) (readBits r ty b L) (read8 r pos L) (read8 r len L))

/-- BCNT (R286): an N32 count in one register. -/
def execBcnt (c : Ctl) (ty : Ty) (d a : Opd) (s : State) : Out_ :=
  alu (.bcnt c ty d a) c s false d fun r L => BitVec.ofNat 64 (popCount ty.bits (readBits r ty a L))

/-- LZC (Table 25-6): an N32 count in one register. -/
def execLzc (c : Ctl) (ty : Ty) (d a : Opd) (s : State) : Out_ :=
  alu (.lzc c ty d a) c s false d fun r L => BitVec.ofNat 64 (leadZeros ty.bits (readBits r ty a L))

/-- TZC (Table 26-4): an N32 count in one register. -/
def execTzc (c : Ctl) (ty : Ty) (d a : Opd) (s : State) : Out_ :=
  alu (.tzc c ty d a) c s false d fun r L => BitVec.ofNat 64 (trailZeros ty.bits (readBits r ty a L))

/-- BRVS (R286). -/
def execBrvs (c : Ctl) (ty : Ty) (d a : Opd) (s : State) : Out_ :=
  alu (.brvs c ty d a) c s ty.wide d fun r L => bits ty (reverseBits ty.bits (readBits r ty a L))

/-- BPERM (R286). -/
def execBperm (c : Ctl) (d a b sel : Opd) (s : State) : Out_ :=
  alu (.bperm c d a b sel) c s false d fun r L =>
    let pool := read32 r a L + read32 r b L * 2 ^ 32
    let t := fun (n : Nat) => bpermByte pool (read32 r sel L / 2 ^ (4 * n) % 16)
    BitVec.ofNat 64 (t 0 + t 1 * 2 ^ 8 + t 2 * 2 ^ 16 + t 3 * 2 ^ 24)

end Sys2Proof.Machine
end

