-- ==== Sys2Proof/Machine/Fp.lean ====
section
/-! DEFINITION. Machine/Fp.lean: the floating-point formats (Table 7-1), exact values, rounding (Tables 7-5 and 7-6, R92, R95,
R97) and the exact operations (R100, R317). A finite value is (−1)^neg × m × 2^e. -/

namespace Sys2Proof.Machine

/-- A float's value. -/
inductive Fv where
  | nan (signalling : Bool)
  | inf (neg : Bool)
  | fin (neg : Bool) (m : Nat) (e : Int)
deriving DecidableEq, Repr, Inhabited

/-- Where a format keeps infinities and NaNs (Table 7-1). -/
inductive FmtKind where
  | ieee | e4m3 | plain
deriving DecidableEq, Repr

/-- A format: exponent bits, fraction bits, bias, kind. -/
structure Fmt where
  eb   : Nat
  fb   : Nat
  bias : Nat
  kind : FmtKind
deriving DecidableEq, Repr

/-- Table 7-1. MX types have their element formats. -/
def fmtOf (t : Ty) : Fmt :=
  match t with
  | .fp64 => ⟨11, 52, 1023, .ieee⟩
  | .fp16 => ⟨5, 10, 15, .ieee⟩
  | .bf16 => ⟨8, 7, 127, .ieee⟩
  | .e5m2 | .mxe5m2 => ⟨5, 2, 15, .ieee⟩
  | .e4m3 | .mxe4m3 => ⟨4, 3, 7, .e4m3⟩
  | .e3m2 | .mxe3m2 => ⟨3, 2, 3, .plain⟩
  | .e2m3 | .mxe2m3 => ⟨2, 3, 1, .plain⟩
  | .e2m1 | .mxe2m1 => ⟨2, 1, 1, .plain⟩
  | _ => ⟨8, 23, 127, .ieee⟩

/-- NA22, the narrow sums of the arrays (Table 7-1). -/
def fmtNa22 : Fmt := ⟨8, 13, 127, .ieee⟩

/-- The sign bit, the code of infinity, of the largest finite value and of the canonical NaN. -/
def Fmt.signBit (f : Fmt) : Nat := 2 ^ (f.eb + f.fb)
def Fmt.infCode (f : Fmt) : Nat := (2 ^ f.eb - 1) * 2 ^ f.fb
def Fmt.maxCode (f : Fmt) : Nat :=
  match f.kind with
  | .ieee => f.infCode - 1
  | .e4m3 => 0x7E
  | .plain => 2 ^ (f.eb + f.fb) - 1
def Fmt.nanCode (f : Fmt) : Nat :=
  match f.kind with
  | .ieee => f.infCode + 2 ^ (f.fb - 1)
  | .e4m3 => 0x7F
  | .plain => 0

/-- A sign and a code together. -/
def Fmt.signed (f : Fmt) (neg : Bool) (code : Nat) : Nat := if neg then f.signBit + code else code

/-- The exponent of the smallest normal value, and of the last place of a subnormal. -/
def Fmt.emin (f : Fmt) : Int := 1 - f.bias
def Fmt.qmin (f : Fmt) : Int := f.emin - f.fb

/-- The value of a pattern (R81). -/
def Fmt.unpack (f : Fmt) (x : Nat) : Fv :=
  let neg := x.testBit (f.eb + f.fb)
  let c := x % f.signBit
  let e := c / 2 ^ f.fb
  let m := c % 2 ^ f.fb
  let special := match f.kind with
    | .ieee => e == 2 ^ f.eb - 1
    | .e4m3 => c == 0x7F
    | .plain => false
  if special then
    match f.kind with
    | .ieee => if m = 0 then .inf neg else .nan (!m.testBit (f.fb - 1))
    | _ => .nan false
  else if e = 0 then .fin neg m f.qmin
  else .fin neg (2 ^ f.fb + m) ((e : Int) - f.bias - f.fb)

/-- The pattern is subnormal (R81). -/
def Fmt.subnormal (f : Fmt) (x : Nat) : Bool :=
  let c := x % f.signBit
  decide (0 < c) && decide (c < 2 ^ f.fb)

/-- What rounding depends on: the mode, the random number of SR, FTZ of the class, FPCTL.SAT8 for an E5M2 destination. -/
structure Env where
  mode : Rnd
  rnd  : Nat
  ftz  : Bool
  sat8 : Bool
deriving DecidableEq, Repr

/-- Round a remainder `lo` of `s` bits below a kept integer `hi` up or not (Table 7-5, R97). -/
def roundsUp (mode : Rnd) (rnd : Nat) (neg : Bool) (hi lo s : Nat) : Bool :=
  match mode with
  | .rz => false
  | .rd => neg && lo != 0
  | .ru => !neg && lo != 0
  | .rna => decide (2 ^ s ≤ 2 * lo)
  | .sr => decide (2 ^ 16 ≤ lo * 2 ^ 16 / 2 ^ s + rnd)
  | _ => decide (2 ^ s < 2 * lo) || (2 * lo == 2 ^ s && hi % 2 == 1)

/-- A magnitude m × 2^e rounded to a multiple of 2^q: the multiple, and whether it is inexact. -/
def roundAt (mode : Rnd) (rnd : Nat) (neg : Bool) (m : Nat) (e q : Int) : Nat × Bool :=
  if q ≤ e then (m * 2 ^ (e - q).toNat, false)
  else
    let s := (q - e).toNat
    let hi := m / 2 ^ s
    let lo := m % 2 ^ s
    (if roundsUp mode rnd neg hi lo s then hi + 1 else hi, lo != 0)

/-- The result of a finite overflow (Table 7-6). -/
def Fmt.overflow (f : Fmt) (v : Env) (neg : Bool) : Nat :=
  let toInf := match v.mode with
    | .rz => false
    | .rd => neg
    | .ru => !neg
    | _ => true
  match f.kind with
  | .ieee => if toInf && !(v.sat8 && f.fb == 2) then f.signed neg f.infCode else f.signed neg f.maxCode
  | _ => f.signed neg f.maxCode

/-- Round a nonzero exact value to a format, with its flags (R92, R95, R97, Table 7-6). -/
def Fmt.round (f : Fmt) (v : Env) (neg : Bool) (m : Nat) (e : Int) : Nat × Flg :=
  let top := e + Nat.log2 m
  let q := max (top - f.fb) f.qmin
  let (n, inexact) := roundAt v.mode v.rnd neg m e q
  let code := (q - f.qmin).toNat * 2 ^ f.fb + n
  let (n', _) := roundAt v.mode v.rnd neg m e (top - f.fb)
  let tiny := decide (top < f.emin) && !(top + 1 == f.emin && n' == 2 ^ (f.fb + 1))
  if code > f.maxCode then (f.overflow v neg, Flg.ovf ||| Flg.nx)
  else if v.ftz && decide (0 < code) && decide (code < 2 ^ f.fb) then (f.signed neg 0, Flg.uf ||| Flg.nx)
  else (f.signed neg code, (if inexact then Flg.nx else 0) ||| (if tiny && inexact then Flg.uf else 0))

/-- Round any value to a format (R82, Table 7-6). A signalling NaN raises NV; a format without NaN turns one into +0 with NV. -/
def Fmt.ofFv (f : Fmt) (v : Env) : Fv → Nat × Flg
  | .nan sig => (f.nanCode, if sig || f.kind == .plain then Flg.nv else 0)
  | .inf neg =>
    match f.kind with
    | .ieee => if v.sat8 && f.fb == 2 then (f.signed neg f.maxCode, Flg.ovf ||| Flg.nx) else (f.signed neg f.infCode, 0)
    | _ => (f.signed neg f.maxCode, Flg.ovf ||| Flg.nx)
  | .fin neg m e => if m = 0 then (f.signed neg 0, 0) else f.round v neg m e

/-- An operand's value after DAZ (R95): the flag ID when a subnormal was flushed. -/
def Fmt.operand (f : Fmt) (daz : Bool) (x : Nat) : Fv × Flg :=
  if daz && f.subnormal x then (.fin (x.testBit (f.eb + f.fb)) 0 f.qmin, Flg.idn) else (f.unpack x, 0)

/-- NV for a signalling NaN (R82). -/
def Fv.nvOf : Fv → Flg
  | .nan true => Flg.nv
  | _ => 0

/-- The value is a NaN. -/
def Fv.isNan : Fv → Bool
  | .nan _ => true
  | _ => false

/-- The value with its sign turned. -/
def Fv.neg : Fv → Fv
  | .nan s => .nan s
  | .inf n => .inf !n
  | .fin n m e => .fin (!n) m e

/-- A finite value as an integer multiple of 2^q, for q at most its exponent. -/
def scaled (neg : Bool) (m : Nat) (e q : Int) : Int := let x : Int := m * 2 ^ (e - q).toNat; if neg then -x else x

/-- x + y (R317): the sign of an exact zero sum is −0 only under RD. -/
def Fv.add (mode : Rnd) : Fv → Fv → Fv × Flg
  | .nan s, y => (.nan false, (Fv.nan s).nvOf ||| y.nvOf)
  | x, .nan s => (.nan false, x.nvOf ||| (Fv.nan s).nvOf)
  | .inf a, .inf b => if a = b then (.inf a, 0) else (.nan false, Flg.nv)
  | .inf a, _ => (.inf a, 0)
  | _, .inf b => (.inf b, 0)
  | .fin a m e, .fin b n k =>
    if m = 0 ∧ n = 0 then (.fin (if a = b then a else mode == .rd) 0 0, 0)
    else
      let q := min e k
      let x := scaled a m e q + scaled b n k q
      if x = 0 then (.fin (mode == .rd) 0 0, 0) else (.fin (decide (x < 0)) x.natAbs q, 0)

/-- x × y (R317). -/
def Fv.mul : Fv → Fv → Fv × Flg
  | .nan s, y => (.nan false, (Fv.nan s).nvOf ||| y.nvOf)
  | x, .nan s => (.nan false, x.nvOf ||| (Fv.nan s).nvOf)
  | .inf a, .inf b => (.inf (a ^^ b), 0)
  | .inf a, .fin b m _ => if m = 0 then (.nan false, Flg.nv) else (.inf (a ^^ b), 0)
  | .fin a m _, .inf b => if m = 0 then (.nan false, Flg.nv) else (.inf (a ^^ b), 0)
  | .fin a m e, .fin b n k => (.fin (a ^^ b) (m * n) (e + k), 0)

/-- x × y + z with one rounding to come (R317); ∞ × 0 raises NV even beside a quiet NaN z. -/
def Fv.fma (mode : Rnd) (x y z : Fv) : Fv × Flg :=
  let p := x.mul y
  if p.1.isNan then (.nan false, p.2 ||| z.nvOf)
  else
    let r := p.1.add mode z
    (r.1, p.2 ||| r.2)

/-- The outcomes of a comparison. -/
inductive Cmp3 where
  | lt | eq | gt
deriving DecidableEq, Repr

/-- Compare two integers. -/
def cmpInt (x y : Int) : Cmp3 := if x < y then .lt else if x = y then .eq else .gt

/-- How two values compare; none when unordered (R100). -/
def Fv.cmp : Fv → Fv → Option Cmp3
  | .nan _, _ => none
  | _, .nan _ => none
  | .inf a, .inf b => some (if a = b then .eq else if a then .lt else .gt)
  | .inf a, _ => some (if a then .lt else .gt)
  | _, .inf b => some (if b then .gt else .lt)
  | .fin a m e, .fin b n k =>
    let q := min e k
    some (cmpInt (scaled a m e q) (scaled b n k q))

/-- The sign of a value. -/
def Fv.sign : Fv → Bool
  | .nan _ => false
  | .inf n => n
  | .fin n _ _ => n

/-- x counts as less than y in minimumNumber, where −0 is less than +0 (R100). -/
def Fv.below (x y : Fv) : Bool :=
  match x.cmp y with
  | some .lt => true
  | some .eq => x.sign && !y.sign
  | _ => false

end Sys2Proof.Machine
end

