-- ==== Sys2Proof/Machine/Float.lean ====
section
/-! DEFINITION. Machine/Float.lean: the float instructions (R315 to R319). -/

namespace Sys2Proof.Machine

/-- The pattern of an integer in a format, exact for −256 to 255 (R316). -/
def Fmt.ofInt (f : Fmt) (i : Int) : Nat :=
  if i = 0 then 0 else (f.round ⟨.rz, 0, false, false⟩ (decide (i < 0)) i.natAbs 0).1

/-- The pattern a float source supplies to a lane (R85, R272, R316). -/
def readFp (r : Arch) (ty : Ty) (o : Opd) (L : Nat) : Nat :=
  match o with
  | .imm i => (fmtOf ty).ofInt i.toInt
  | o => readBits r ty o L

/-- A float source's value after DAZ, and its flag (R316). -/
def fpIn (r : Arch) (ty : Ty) (o : Opd) (L : Nat) : Fv × Flg :=
  (fmtOf ty).operand (fpDaz r.fpctl (fpClass ty)) (readFp r ty o L)

/-- How an instruction of a type rounds and flushes its result (R94, R95). -/
def fpEnv (r : Arch) (rnd : Rnd) (ty : Ty) : Env := ⟨rndMode r.fpctl rnd, 0, fpFtz r.fpctl (fpClass ty), fpSat8 r.fpctl⟩

/-- A value rounded to a type, with the flags met on the way (R316). -/
def fpOut (r : Arch) (rnd : Rnd) (ty : Ty) (x : Fv × Flg) : Nat × Flg :=
  let y := (fmtOf ty).ofFv (fpEnv r rnd ty) x.1
  (y.1, x.2 ||| y.2)

/-- A per-lane float computation: `f` gives a lane's pattern and flags; an enabled flag writes nothing and traps (R93, R316). -/
def fpuBody (ty : Ty) (d : Opd) (f : Arch → Nat → Nat × Flg) (s : State) (v : Served) : Res :=
  raiseFlags v s (fun L => (f v.g.arch L).2)
    { v.g with arch := writeDst v.g.arch ty.wide d v.act fun L => extend ty (f v.g.arch L).1 }

/-- An instruction that is such a computation. -/
def fpu (i : Instr) (c : Ctl) (s : State) (ty : Ty) (d : Opd) (f : Arch → Nat → Nat × Flg) : Out_ :=
  serve i c s (fpuBody ty d f s)

/-- A float operation of two operands. -/
def fp2 (r : Arch) (ty : Ty) (rnd : Rnd) (a b : Opd) (L : Nat) (op : Rnd → Fv → Fv → Fv × Flg) : Nat × Flg :=
  let x := fpIn r ty a L
  let y := fpIn r ty b L
  let z := op (rndMode r.fpctl rnd) x.1 y.1
  fpOut r rnd ty (z.1, x.2 ||| y.2 ||| z.2)

/-- FADD (R317). -/
def execFadd (c : Ctl) (rnd : Rnd) (ty : Ty) (d a b : Opd) (s : State) : Out_ :=
  fpu (.fadd c rnd ty d a b) c s ty d fun r L => fp2 r ty rnd a b L Fv.add

/-- FSUB (R317). -/
def execFsub (c : Ctl) (rnd : Rnd) (ty : Ty) (d a b : Opd) (s : State) : Out_ :=
  fpu (.fsub c rnd ty d a b) c s ty d fun r L => fp2 r ty rnd a b L fun m x y => x.add m y.neg

/-- FMUL (R317). -/
def execFmul (c : Ctl) (rnd : Rnd) (ty : Ty) (d a b : Opd) (s : State) : Out_ :=
  fpu (.fmul c rnd ty d a b) c s ty d fun r L => fp2 r ty rnd a b L fun _ x y => x.mul y

/-- FFMA (R317): one rounding. -/
def execFfma (c : Ctl) (rnd : Rnd) (ty : Ty) (d a b e : Opd) (s : State) : Out_ :=
  fpu (.ffma c rnd ty d a b e) c s ty d fun r L =>
    let x := fpIn r ty a L
    let y := fpIn r ty b L
    let z := fpIn r ty e L
    let w := Fv.fma (rndMode r.fpctl rnd) x.1 y.1 z.1
    fpOut r rnd ty (w.1, x.2 ||| y.2 ||| z.2 ||| w.2)

/-- The pattern of an operand after DAZ. -/
def fpFlushed (r : Arch) (ty : Ty) (x : Nat) : Nat :=
  if fpDaz r.fpctl (fpClass ty) && (fmtOf ty).subnormal x then x / (fmtOf ty).signBit * (fmtOf ty).signBit else x

/-- minimumNumber or maximumNumber of two patterns after DAZ (R100, R318): a single NaN gives the other operand. -/
def minMaxFp (r : Arch) (ty : Ty) (isMax : Bool) (px py : Nat) : Nat × Flg :=
  let f := fmtOf ty
  let x := f.operand (fpDaz r.fpctl (fpClass ty)) px
  let y := f.operand (fpDaz r.fpctl (fpClass ty)) py
  let fl := x.2 ||| y.2 ||| x.1.nvOf ||| y.1.nvOf
  if x.1.isNan && y.1.isNan then (f.nanCode, fl)
  else if x.1.isNan then (fpFlushed r ty py, fl)
  else if y.1.isNan then (fpFlushed r ty px, fl)
  else
    let yFirst := if isMax then x.1.below y.1 else y.1.below x.1
    (fpFlushed r ty (if yFirst then py else px), fl)

/-- FMIN (R318). -/
def execFmin (c : Ctl) (ty : Ty) (d a b : Opd) (s : State) : Out_ :=
  fpu (.fmin c ty d a b) c s ty d fun r L => minMaxFp r ty false (readFp r ty a L) (readFp r ty b L)

/-- FMAX (R318). -/
def execFmax (c : Ctl) (ty : Ty) (d a b : Opd) (s : State) : Out_ :=
  fpu (.fmax c ty d a b) c s ty d fun r L => minMaxFp r ty true (readFp r ty a L) (readFp r ty b L)

/-- The conditions of FCMP (R100, R274). -/
def condFp (k : Cond) (x y : Fv) : Bool :=
  let o := x.cmp y
  match k with
  | .eq => o == some .eq
  | .ne => o != some .eq
  | .lt => o == some .lt
  | .le => o == some .lt || o == some .eq
  | .gt => o == some .gt
  | .ge => o == some .gt || o == some .eq
  | .ord => o.isSome
  | .unord => o.isNone

/-- The flags of FCMP (R100): lt, le, gt and ge raise NV for every NaN, the others for a signalling one. -/
def condFlags (k : Cond) (x y : Fv) : Flg :=
  match k with
  | .lt | .le | .gt | .ge => if x.isNan || y.isNan then Flg.nv else 0
  | _ => x.nvOf ||| y.nvOf

/-- FCMP (R318). -/
def execFcmp (c : Ctl) (cond : Cond) (ty : Ty) (d a b : Opd) (s : State) : Out_ :=
  serve (.fcmp c cond ty d a b) c s fun v =>
    let x := fun L => fpIn v.g.arch ty a L
    let y := fun L => fpIn v.g.arch ty b L
    raiseFlags v s (fun L => (x L).2 ||| (y L).2 ||| condFlags cond (x L).1 (y L).1)
      { v.g with arch := writePrd v.g.arch d v.act fun L => condFp cond (x L).1 (y L).1 }

/-- The class of a raw pattern (Table 24-3). -/
def fpClassOf (ty : Ty) (x : Nat) : Nat :=
  let f := fmtOf ty
  match f.unpack x with
  | .nan true => 0
  | .nan false => 1
  | .inf n => if n then 2 else 9
  | .fin n m _ => if m = 0 then (if n then 5 else 6) else if f.subnormal x then (if n then 4 else 7) else if n then 3 else 8

/-- FCLASS (R318): DAZ does not apply, no flag is raised, the N32 result takes one register. -/
def execFclass (c : Ctl) (ty : Ty) (d a : Opd) (s : State) : Out_ :=
  serve (.fclass c ty d a) c s fun v =>
    .done s { v.g with arch := writeDst v.g.arch false d v.act fun L => BitVec.ofNat 64 (2 ^ fpClassOf ty (readFp v.g.arch ty a L)) } 0

/-- A value rounded to an integral value of its own format (R319). -/
def fpIntegral (f : Fmt) (mode : Rnd) (x : Bool) : Fv → Nat × Flg
  | .fin neg m e =>
    let r := roundAt mode 0 neg m e 0
    if m = 0 ∨ r.1 = 0 then (f.signed neg 0, if x && r.2 then Flg.nx else 0)
    else ((f.round ⟨.rz, 0, false, false⟩ neg r.1 0).1, if x && r.2 then Flg.nx else 0)
  | v => f.ofFv ⟨mode, 0, false, false⟩ v

/-- FRND (R319). -/
def execFrnd (c : Ctl) (x : Bool) (rnd : Rnd) (ty : Ty) (d a : Opd) (s : State) : Out_ :=
  fpu (.frnd c x rnd ty d a) c s ty d fun r L =>
    let y := fpIn r ty a L
    let z := fpIntegral (fmtOf ty) (rndMode r.fpctl rnd) x y.1
    (z.1, y.2 ||| z.2)

/-- x × 2^n (R319); beyond ±5,000 every value over- or underflows alike. -/
def Fv.scale (n : Int) : Fv → Fv × Flg
  | .fin neg m e => (.fin neg m (e + max (-5000) (min 5000 n)), 0)
  | .nan s => (.nan false, (Fv.nan s).nvOf)
  | v => (v, 0)

/-- FSCL (R319). -/
def execFscl (c : Ctl) (rnd : Rnd) (ty : Ty) (d a n : Opd) (s : State) : Out_ :=
  fpu (.fscl c rnd ty d a n) c s ty d fun r L =>
    let x := fpIn r ty a L
    let y := x.1.scale (BitVec.ofNat 32 (read32 r n L)).toInt
    fpOut r rnd ty (y.1, x.2 ||| y.2)

end Sys2Proof.Machine
end

