-- ==== Sys2Proof/Machine/Lane.lean ====
section
/-! DEFINITION. Machine/Lane.lean: the lane instructions (R352 to R358) with GETL (R326) and PUTL (R381). Each is a
group-collective point: it acts once for every live thread of the group (R33). -/

namespace Sys2Proof.Machine

/-- A gathered lane instruction with no active lane retires as a no-op (R33); otherwise it acts. -/
def ifActive (s : State) (body : Served → Res) (v : Served) : Res := if v.act = 0 then .done s v.g 0 else body v

/-- The lane LXCH reads for lane `L` (R353). -/
def xchLane (mode : XchMode) (w L n : Nat) : Nat :=
  let s : Int := match mode with
    | .idx => n
    | .up => (L : Int) - n
    | .dn => L + n
    | .xor => (L ^^^ n : Nat)
  if 0 ≤ s ∧ s < w then s.toNat else L

/-- LXCH (R353). -/
def execLxch (c : Ctl) (mode : XchMode) (ty : Ty) (d a b : Opd) (s : State) : Out_ :=
  serveColl (.lxch c mode ty d a b) c s <| ifActive s fun v =>
    let r := v.g.arch
    .done s { v.g with arch := writeDst r ty.wide d v.act fun L => readRaw r ty.wide a (xchLane mode v.g.w L (read32 r b L)) } 0

/-- The vote of modes any, all and uni over the active lanes (R354). -/
def voteOf (mode : VoteMode) (act p : Mask) : Bool :=
  match mode with
  | .any => act &&& p != 0
  | .all => act &&& ~~~p == 0
  | _ => act &&& p == 0 || act &&& ~~~p == 0

/-- LVOTE (R354). -/
def execLvote (c : Ctl) (mode : VoteMode) (d a : Opd) (s : State) : Out_ :=
  serveColl (.lvote c mode d a) c s <| ifActive s fun v =>
    let r := v.g.arch
    let p := Mask.ofLanes (v.act.lanes.filter fun L => predAt r a L)
    .done s { v.g with arch := match mode with
      | .bal => writeDst r true d v.act fun _ => p
      | m => writePrd r d v.act fun _ => voteOf m v.act p } 0

/-- One step of a lane reduction on two patterns of a type (R355): integers wrap, fadd rounds RNE, fmin and fmax follow R100. -/
def redStep (r : Arch) (op : RedOp) (ty : Ty) (x y : Nat) : Nat × Flg :=
  let z := fun (i : Int) => ((i % 2 ^ ty.bits).toNat, (0 : Flg))
  match op with
  | .add => z (asInt ty x + asInt ty y)
  | .min => z (min (asInt ty x) (asInt ty y))
  | .max => z (max (asInt ty x) (asInt ty y))
  | .and => (x &&& y, 0)
  | .or => (x ||| y, 0)
  | .xor => (x ^^^ y, 0)
  | .fadd =>
    let f := fmtOf ty
    let daz := fpDaz r.fpctl (fpClass ty)
    let a := f.operand daz x
    let b := f.operand daz y
    let s := a.1.add .rne b.1
    fpOut r .rne ty (s.1, a.2 ||| b.2 ||| s.2)
  | .fmin => minMaxFp r ty false x y
  | .fmax => minMaxFp r ty true x y
  | _ => (y, 0)

/-- The first value of a reduction: daz(vA[L]) (R356). -/
def redFirst (r : Arch) (op : RedOp) (ty : Ty) (x : Nat) : Nat × Flg :=
  match op with
  | .fadd | .fmin | .fmax => (fpFlushed r ty x, ((fmtOf ty).operand (fpDaz r.fpctl (fpClass ty)) x).2)
  | _ => (x, 0)

/-- The value an exclusive scan gives its first lane (Table 25-5). -/
def redIdent (op : RedOp) (ty : Ty) : Nat :=
  match op with
  | .min => (tyHi ty % 2 ^ ty.bits).toNat
  | .max => (tyLo ty % 2 ^ ty.bits).toNat
  | .and => 2 ^ ty.bits - 1
  | .fmin => (fmtOf ty).infCode
  | .fmax => (fmtOf ty).signed true (fmtOf ty).infCode
  | _ => 0

/-- The running values of a scan over lanes in ascending order: each lane with the value before it and the value after it, and
the flags of every step (R356, R357). -/
def redScan (r : Arch) (op : RedOp) (ty : Ty) (f : Nat → Nat) : List Nat → Option Nat → List (Nat × Option Nat × Nat) × Flg
  | [], _ => ([], 0)
  | L :: t, acc =>
    let y := match acc with
      | some x => redStep r op ty x (f L)
      | none => redFirst r op ty (f L)
    let q := redScan r op ty f t (some y.1)
    ((L, acc, y.1) :: q.1, y.2 ||| q.2)

/-- Flags of a lane reduction: an enabled flag traps with every active lane in TMASK (R358). -/
def redFlags (v : Served) (s : State) (fl : Flg) (g : Group) : Res :=
  if fl &&& fpTe v.g.arch.fpctl = 0 then .done s g fl else .trap s v.g ⟨0x13, v.pc, v.act, fl.setWidth 64, fl⟩

/-- LRED (R356). -/
def execLred (c : Ctl) (op : RedOp) (ty : Ty) (d a : Opd) (s : State) : Out_ :=
  serveColl (.lred c op ty d a) c s <| ifActive s fun v =>
    let r := v.g.arch
    let q := redScan r op ty (readBits r ty a) v.act.lanes none
    let x := (q.1.getLast?.map fun e => e.2.2).getD 0
    redFlags v s q.2 { v.g with arch := writeDst r ty.wide d v.act fun _ => extend ty x }

/-- LSCN (R357). -/
def execLscn (c : Ctl) (ex : Bool) (op : RedOp) (ty : Ty) (d a : Opd) (s : State) : Out_ :=
  serveColl (.lscn c ex op ty d a) c s <| ifActive s fun v =>
    let r := v.g.arch
    let q := redScan r op ty (readBits r ty a) v.act.lanes none
    let at_ := fun (L : Nat) => match q.1.find? fun e => e.1 = L with
      | some (_, b, x) => if ex then b.getD (redIdent op ty) else x
      | none => 0
    redFlags v s q.2 { v.g with arch := writeDst r ty.wide d v.act fun L => extend ty (at_ L) }

/-- GETL (R326). -/
def execGetl (c : Ctl) (ty : Ty) (d a n : Opd) (s : State) : Out_ :=
  serveColl (.getl c ty d a n) c s <| ifActive s fun v =>
    let r := v.g.arch
    let m := read32 r n 0
    if m ≥ v.g.w then v.trap s 0x02 v.act 0
    else .done s { v.g with arch := writeDst r true d v.act fun _ => readRaw r ty.wide a m } 0

/-- PUTL (R381): lane m is written whatever its guard. -/
def execPutl (c : Ctl) (ty : Ty) (d a n : Opd) (s : State) : Out_ :=
  serveColl (.putl c ty d a n) c s <| ifActive s fun v =>
    let r := v.g.arch
    let m := read32 r n 0
    if m ≥ v.g.w then v.trap s 0x02 v.act 0
    else .done s { v.g with arch := writeDst r ty.wide d (Mask.bit m) fun _ => readRaw r ty.wide a 0 } 0

end Sys2Proof.Machine
end

