-- ==== Sys2Proof/Machine/Barrier.lean ====
section
/-! DEFINITION. Machine/Barrier.lean: barrier objects (R287 to R292, R232) and BARINIT, BARARV, BARWT and BARSYNC. -/

namespace Sys2Proof.Machine

/-! ## Barrier objects -/

/-- The linear index of a lane's thread in its team (R23). -/
def Group.thread (g : Group) (L : Nat) : Nat := g.key.grp * g.w + L

/-- A phase completes (R289). -/
def Barrier.complete (b : Barrier) : Barrier :=
  { b with ph := b.ph + 1, a := 0, ec := b.e, seen := View.join b.seen b.acc, acc := [] }

/-- A phase whose arrivals equal its expected count completes (R289, R232). -/
def Barrier.settle (b : Barrier) : Barrier := if b.a = b.ec ∧ b.ec ≠ 0 then b.complete else b

/-- The phase of a thread's last arrival. -/
def Barrier.arrOf (b : Barrier) (t : Nat) : Option (BitVec 32) := assoc b.arr t

/-- Threads arrive (R289), with what they release. -/
def Barrier.arrive (b : Barrier) (ts : List Nat) (v : View) : Barrier :=
  let arr := ts.foldl (fun l t => assocPut l t b.ph) b.arr
  ({ b with arr := arr, a := b.a + ts.length, acc := View.join b.acc v }).settle

/-- A thread departs from a barrier object (R232): it no longer counts in later phases, nor in the current one unless it has
arrived; with nobody left to take part the phase completes and the object becomes uninitialised. -/
def Barrier.depart (b : Barrier) (t : Nat) : Barrier :=
  if !b.init then b
  else
    let b' := if b.arrOf t = some b.ph then { b with e := b.e - 1 } else { b with e := b.e - 1, ec := b.ec - 1 }
    if b'.e = 0 then { b'.complete with init := false, e := 0, ec := 0, a := 0 } else b'.settle

/-- The barrier object of a team. -/
def State.bar (s : State) (k : TeamKey) (id : Nat) : Barrier :=
  ((s.team? k).bind fun t => t.bars[id]?).getD ⟨false, 0, 0, 0, 0, [], [], [], []⟩

/-- Change a barrier object of a team. -/
def State.updBar (s : State) (k : TeamKey) (id : Nat) (f : Barrier → Barrier) : State :=
  s.updTeam k fun t => { t with bars := t.bars.modify id f }

/-- Threads of a group depart from every barrier object of their team (R232). -/
def State.depart (s : State) (g : Group) (m : Mask) : State :=
  s.updTeam g.key.team fun t => { t with bars := t.bars.map fun b => m.lanes.foldl (fun b L => b.depart (g.thread L)) b }

/-- The number of a barrier immediate. -/
def barNo (o : Opd) : Nat := (immVal o).toNat

/-- An arrival of a thread at an object is staged in some group of its team. -/
def Group.stagedArrival (g : Group) (id : Nat) (p : Nat → Bool) : Bool :=
  g.staged.any fun e => match e.kind with
    | .arrive i ts => i == id && ts.any p
    | _ => false

/-- TADDR of trap 0x0D at a barrier (R292). -/
def barAddr (id kind : Nat) : Nat := id + 256 * kind

/-- What a thread is ordered by. -/
def Group.thr (g : Group) (L : Nat) : ThreadMem := g.arch.mem.threads.getD L ⟨[], [], [], [], []⟩

/-- Change what the threads of a mask are ordered by. -/
def Group.updThr (g : Group) (m : Mask) (f : ThreadMem → ThreadMem) : Group :=
  { g with arch := { g.arch with mem := { g.arch.mem with
      threads := g.arch.mem.threads.mapIdx fun L t => if m.has L then f t else t } } }

/-- What happens before the next access of any thread of a mask. -/
def Group.hbOf (g : Group) (m : Mask) : View := m.lanes.foldl (fun v L => View.join v (g.thr L).hb) []

/-- Threads of a mask acquire what a view holds (R171, R173). -/
def Group.acquire (g : Group) (m : Mask) (x : View) : Group :=
  if x = [] then g else g.updThr m fun t => { t with view := View.join t.view x, hb := View.join t.hb x }

/-- What a release of a thread covers at a scope: a narrower one than system's does not cover the posted writes to window pages (R187). -/
def ThreadMem.covered (t : ThreadMem) (sc : Scope) : View :=
  match sc with
  | .system => t.hb
  | _ => t.hb.filter fun e => View.at_ t.posted e.1 != e.2

/-- What a release of the threads of a mask covers at a scope. -/
def Group.coveredOf (g : Group) (sc : Scope) (m : Mask) : View := m.lanes.foldl (fun v L => View.join v ((g.thr L).covered sc)) []

/-- A group as an agent. -/
def Group.agent (g : Group) : Agent := .thread g.key g.core

/-- What the fences before a lane's store make it release (R412): by the thread where it is now (R168). -/
def Group.fencesOf (g : Group) (L : Nat) : List Release := (g.thr L).rels.map fun r => { r with lane := L, agent := g.agent }

/-- What a store or an arrival of a lane releases at a scope, covering its accesses so far (R172, R175). -/
def Group.release (g : Group) (s : State) (sc : Scope) (L : Nat) : Release :=
  ⟨sc, (g.thr L).covered sc, g.agent, L, g.seq, g.arch.mem.gsync, (s.coh.dg.getD g.core.die 0) % 65536, s.coh.ticks⟩

/-- What a core rank of a team owns, or nothing. -/
def State.rankOf (s : State) (k : TeamKey) (r : Nat) : Rank := (s.rank? k r).getD default

/-! ## XFENCE (R186) -/

/-- The signatures of a core rank whose operation has not completed (R107). -/
def Rank.signed (r : Rank) : List Sign :=
  (r.c.flatMap fun c => (c.2.old.flatMap Prod.snd) ++ c.2.cur) ++ r.ops.flatMap MatOp.signs

/-- Accesses of an engine class that a group made before a sequence number have not all performed. -/
def Group.pending (s : State) (g : Group) (cls seq : Nat) : Bool :=
  (g.staged.any fun e => decide (e.seq < seq) && e.cls == cls) || (g.cmds.any fun c => decide (c.seq < seq) && c.cls == cls) ||
    (cls == 0 && g.loads.any fun l => decide (l.1 < seq)) ||
    (cls == 2 && (s.rankOf g.key.team g.rank).signed.any fun x => x.group == g.key && decide (x.seq < seq))

/-- What an engine class has to see before its next access. -/
def Group.mustSee (g : Group) (cls : Nat) : View := if cls = 0 then g.hbOf g.lanes else g.arch.mem.must.getD (cls - 1) []

/-- An engine class has to see what a view holds. -/
def Group.needs (g : Group) (cls : Nat) (v : View) : Group :=
  if cls = 0 then g.acquire g.lanes v
  else { g with arch := { g.arch with mem := { g.arch.mem with must := g.arch.mem.must.modify (cls - 1) fun x => View.join x v } } }

/-- What an XFENCE's source class has performed. -/
def Group.done (g : Group) (cls : Nat) : View := if cls = 0 then g.hbOf g.lanes else g.arch.mem.seen.getD (cls - 1) []

/-- An access of class `cls` at sequence number `seq` has performed: the XFENCEs after it have that to show (R186). -/
def MemOrder.performed (m : MemOrder) (cls seq : Nat) (v : View) : MemOrder :=
  { m with xfences := m.xfences.map fun x => if x.src = cls ∧ seq < x.seq then { x with view := View.join x.view v } else x }

/-- The fences of FENCE.rel, ar and sc after an XFENCE to class 0 release what it orders before class 0 (R185, R412). -/
def Group.bound (g : Group) (cls : Nat) (x : XFence) : Group :=
  if cls ≠ 0 then g
  else g.updThr g.lanes fun t => { t with rels := t.rels.map fun r => if x.seq < r.upto then { r with view := View.join r.view x.view } else r }

/-- An access of class `cls` with sequence number `seq` at the XFENCEs before it: none while one of them still waits; otherwise it is ordered after what they
have waited for. -/
def xgate (s : State) (g : Group) (cls seq : Nat) : Option Group :=
  let mine := g.arch.mem.xfences.filter fun x => x.dst = cls ∧ x.seq < seq
  if mine.any fun x => Group.pending s g x.src x.seq then none
  else
    let h := mine.foldl (fun h x => (h.needs cls x.view).bound cls x) g
    some { h with arch := { h.arch with mem := { h.arch.mem with xfences := h.arch.mem.xfences.filter fun x => x.dst ≠ cls ∨ seq ≤ x.seq } } }

/-! ## The instructions -/

/-- BARINIT (R288): once for the group, visible to the team when it executes. -/
def execBarinit (c : Ctl) (id n : Opd) (s : State) : Out_ :=
  serve (.barinit c id n) c s fun v =>
    let i := barNo id
    let b := s.bar v.g.key.team i
    let k := (readRaw v.g.arch true n 0).toNat
    let busy := b.a ≠ 0 ∨ s.groups.any fun g => g.key.team = v.g.key.team && g.stagedArrival i fun _ => true
    let fresh : Barrier := ⟨true, k, k, 0, 0, [], [], [], b.seen⟩
    if k > 65536 then v.trap s 0x02 v.act 0
    else if !b.init then
      if k = 0 then .done s v.g 0 else .done (s.updBar v.g.key.team i fun _ => fresh) (v.g.noting (.bar i b)) 0
    else if busy then
      if k = b.e then .done s v.g 0 else v.trap s 0x02 v.act 0
    else .done (s.updBar v.g.key.team i fun b => { b with e := k, ec := k, init := k ≠ 0 }) (v.g.noting (.bar i b)) 0

/-- The lanes of a BARARV or BARSYNC whose thread has already arrived in the current phase (R292, kind 6). -/
def twice (s : State) (g : Group) (i : Nat) (m : Mask) : Mask :=
  let b := s.bar g.key.team i
  Mask.ofLanes (m.lanes.filter fun L => b.arrOf (g.thread L) == some b.ph || g.stagedArrival i fun t => t == g.thread L)

/-- BARARV (R289, R292): the arrival is staged; a release, it waits for what an XFENCE has ordered before class 0 (R185). -/
def execBararv (c : Ctl) (id : Opd) (s : State) : Out_ :=
  serve (.bararv c id) c s fun v =>
    let i := barNo id
    let tw := twice s v.g i v.act
    if !(s.bar v.g.key.team i).init then v.trap s 0x0D v.act (barAddr i 5)
    else if tw ≠ 0 then v.trap s 0x0D tw (barAddr i 6)
    else
      match xgate s v.g 0 v.seq with
      | none => .wait s v.run
      | some g => .done s (g.stage s.now 0 (.arrive i (v.act.lanes.map g.thread)) (v.act.lanes.map (g.release s .cluster))) 0

/-- The lanes that a BARWT lets pass (R290): those whose last arrival's phase has completed, or that never arrived. -/
def barPass (s : State) (g : Group) (i : Nat) (m : Mask) : Mask :=
  let b := s.bar g.key.team i
  Mask.ofLanes (m.lanes.filter fun L =>
    let t := g.thread L
    if b.init then !(g.stagedArrival i fun u => u == t) && b.arrOf t != some b.ph else b.waiting.contains t)

/-- Some threads wait at a barrier no more, and some others from now on. -/
def Barrier.waits (b : Barrier) (gone come : List Nat) : Barrier :=
  { b with waiting := come ++ b.waiting.filter fun t => !(gone ++ come).contains t }

/-- BARWT (R290): the lanes that may pass do so as a run of their own; the others wait. On an object that is not initialised only a
thread that was already waiting passes (R232); the others take trap 0x0D. -/
def execBarwt (c : Ctl) (id : Opd) (s : State) : Out_ :=
  serve (.barwt c id) c s fun v =>
    let i := barNo id
    let b := s.bar v.g.key.team i
    let pass := barPass s v.g i v.act
    let rest := if b.init then v.act &&& ~~~pass else 0
    let t := s.updBar v.g.key.team i fun b => b.waits (pass.lanes.map v.g.thread) (rest.lanes.map v.g.thread)
    if pass = 0 then
      if !b.init then v.trap s 0x0D v.act (barAddr i 5) else .wait t rest
    else
      let go := pass ||| (v.run &&& ~~~v.act)
      let g := v.g.acquire pass b.seen
      .moved t { g with arch := g.arch.setPcs go fun _ => nextPc v.pc, blocked := g.blocked ||| rest, look := g.look &&& ~~~rest } go 0

/-- The phase of a BARSYNC of the active lanes has completed (R291, R232). -/
def syncOver (s : State) (g : Group) (i : Nat) (act : Mask) : Bool :=
  let b := s.bar g.key.team i
  !b.init || act.lanes.all fun L => b.arrOf (g.thread L) != some b.ph

/-- BARSYNC passes: every held thread advances and acquires (R291). -/
def syncPass (v : Served) (s : State) (i : Nat) : Res :=
  .done s { v.g.acquire v.run (s.bar v.g.key.team i).seen with coll := 0 } 0

/-- What a gathered BARSYNC does at its gate (R291 to R293): its threads arrive at once, a release at cluster scope, then the group waits for
the phase. -/
def syncBody (i : Nat) (s : State) (v : Served) : Res :=
  if (v.g.commit.map Commit.begun).getD false then
    if syncOver s v.g i v.act then syncPass v s i else .wait s v.run
  else
    let tw := twice s v.g i v.act
    if !(s.bar v.g.key.team i).init then v.trap s 0x0D v.act (barAddr i 5)
    else if tw ≠ 0 then v.trap s 0x0D tw (barAddr i 6)
    else
      match xgate s v.g 0 v.seq with
      | none => .took s
      | some g =>
        let t := (s.setGroup g).updBar g.key.team i fun b => b.arrive (v.act.lanes.map g.thread) (g.coveredOf .cluster v.act)
        if syncOver t g i v.act then syncPass { v with g := g } t i
        else .wait (t.updGroup g.key fun g => g.idling true) v.run

/-- BARSYNC (R291): a group-collective point and a commit point. -/
def execBarsync (c : Ctl) (id : Opd) (s : State) : Out_ :=
  match served (.barsync c id) s c with
  | none => .fault .noGroup
  | some v =>
    if !v.g.gathered v.run v.pc then .next (holdRun v s)
    else .next (gate { v with run := v.g.here, act := v.g.here &&& guardOf v.g.arch c } s (syncBody (barNo id) s))

end Sys2Proof.Machine
end

