-- ==== Sys2Proof/Machine/Pages.lean ====
section
/-! DEFINITION. Machine/Pages.lean: what a core does with translations: parking the lanes that have none and queueing their
fault (R35, R137), keeping a translation in the TLB (R134), and reading a fetch line (R265 to R267). -/

namespace Sys2Proof.Machine

/-- The next fault id of a partition that no record still holds (R137). -/
def Part.faultId (p : Part) : Nat :=
  let used := p.faults.map FaultRec.id
  ((List.range (used.length + 1)).map fun i => (p.nextFault + i) % 2 ^ 32).find? (fun i => !used.contains i) |>.getD p.nextFault

/-- Queue a replayable fault for a team; faults on one page from one core merge (R137). Answers the record's id. -/
def Part.addFault (p : Part) (t : TeamKey) (ctx : Nat) (k : Access) (core : CoreId) (page : Nat) : Part × Nat :=
  match p.faults.find? fun f => f.ctx = ctx && f.core = core && f.page = page with
  | some f =>
    ({ p with faults := p.faults.map fun x => if x.id = f.id ∧ !x.teams.contains t then { x with teams := x.teams ++ [t] } else x }, f.id)
  | none =>
    let i := p.faultId
    ({ p with faults := p.faults ++ [⟨i, ctx, k, core, page, [t], true, false⟩], nextFault := (i + 1) % 2 ^ 32 }, i)

/-- Queue a fault of a group. -/
def State.queueFault (s : State) (g : Group) (k : Access) (page : Nat) : State × Nat :=
  let r := (s.part g.key.team.part).addFault g.key.team g.ctx k g.core page
  (s.setPart g.key.team.part r.1, r.2)

/-- Park a lane of a group on a fault record (R35). -/
def Group.park (g : Group) (L id addr : Nat) : Group :=
  { g with arch := { g.arch with parked := g.arch.parked ||| Mask.bit L }, parks := g.parks ++ [⟨L, id, addr, false⟩] }

/-- Park lanes at their PC, each for want of the translation of a page: a list of lanes with their addresses and pages. -/
def State.parkAll (s : State) (g : Group) (k : Access) : List (Nat × Nat × Nat) → State × Group
  | [] => (s, g)
  | (L, a, page) :: t =>
    let r := s.queueFault g k page
    r.1.parkAll (g.park L r.2 a) k t

/-- The first `n` entries of a kind, and every other entry. -/
def keepFirst {α : Type} (p : α → Bool) : Nat → List α → List α
  | _, [] => []
  | 0, x :: r => if p x then keepFirst p 0 r else x :: keepFirst p 0 r
  | n + 1, x :: r => x :: keepFirst p (if p x then n else n + 1) r

/-- A translation is used: data of its page is read and written under its KEYID (R406). -/
def State.useKey (s : State) (p : Phys) : State :=
  if pteMt p.pte = 0 then { s with coh := s.coh.useKey (ptePpn p.pte / p.size * p.size) p.size (pteKey p.pte) } else s

/-- Keep a translation in a core's TLB of 128 and 4,096 entries, or in its walk-ahead TLB of 512 (R134); the oldest entry goes (log 41). -/
def State.keepIn (s : State) (ahead : Bool) (part ctx : Nat) (core : CoreId) (p : Phys) : State :=
  if s.coh.tlb.any fun t => t.part = part && t.ctx = ctx && t.core = core && t.ahead == ahead && t.va = p.base then s
  else
    let l := ⟨part, ctx, core, p.base, p.size, p.pte, ahead⟩ :: s.coh.tlb
    { s with coh := { s.coh with tlb := keepFirst (fun t => t.core = core && t.ahead == ahead) (if ahead then 512 else 128 + 4096) l } }

def State.keepTlb (s : State) (part ctx : Nat) (core : CoreId) (p : Phys) : State := s.keepIn false part ctx core p

/-- What the fetch of the line at a PC finds. -/
inductive FetchRes where
  | line (bits : BitVec 512) (p : Phys)
  | absent (page : Nat)
  | fault (cause : Nat)

/-- Read the fetch line of a PC through the group's context (R136, R161, R265). -/
def fetchLine (s : State) (g : Group) (pc : Dword) : FetchRes :=
  match s.ctxOf g with
  | none => .fault 0x06
  | some c =>
    match probe s g.key.team.part c g.core .fetch (pc.toNat / 64 * 64) with
    | .absent p => .absent p
    | .forbid => .fault 0x06
    | .ok p => if escapes s g.key.team.part g.ctx (some g.key.team) p then .fault 0x07 else .line (lineBits s.ram.mem p.pa) p

/-- The word a fetch decision takes from a line (R265 to R267). -/
def fetched (g : Group) (run : Mask) (pc : Dword) (l : BitVec 512) : Fetched :=
  ⟨⟨g.key, run, pc⟩, slotWord l (pc &&& 7).toNat, lineParityOk l, lineReservedOk l⟩

end Sys2Proof.Machine
end

