-- ==== Sys2Proof/Machine/Access.lean ====
section
/-! DEFINITION. Machine/Access.lean: memory accesses of lanes: forming and probing an address (R124, R125, R50, R161, R410), what
a load reads (R48, R170, R174, R405; log 8), how a store is staged (R63, R64, R143, R394), and the order XFENCE keeps (R186). -/

namespace Sys2Proof.Machine

/-! ## Locations -/

/-- The base of the keys of scratchpad locations: above every address of memory (log 8). -/
def scrBase : Nat := 2 ^ 60

/-- The key of a word in the store history (log 8). -/
def keyOf (k : TeamKey) (t : Target) (w : Nat) : Nat :=
  match t with
  | .mem => w
  | .scr r | .opbuf r => scrBase + (((k.part * 2 ^ 32 + k.grid) * 2 ^ 32 + k.idx) * 16 + r) * 2 ^ 20 + w

/-- An aligned word at a target, as it stands. -/
def State.wordAt (s : State) (k : TeamKey) (t : Target) (w : Nat) : WordState :=
  match t with
  | .mem => s.ram.word w
  | .scr r => ⟨BitVec.ofNat 64 ((s.rankOf k r).scr.num w 8), false, (s.rankOf k r).scrPoison.contains w⟩
  | .opbuf r => ⟨BitVec.ofNat 64 ((s.rankOf k r).opbuf.num w 8), false, (s.rankOf k r).opPoison.contains w⟩

/-- Perform a store at a target: memory, a scratchpad (with its history) or an operand buffer. -/
def State.store (s : State) (k : TeamKey) (t : Target) (a : Nat) (d : List Byte) (sk : StoreKind) : State :=
  match t with
  | .mem => { s with ram := s.ram.write a d sk }
  | .scr r =>
    let u := s.updRank k r fun x => { x with scr := x.scr.putN a d, scrPoison := unpoison x.scrPoison a d.length }
    let note := fun (m : Ram) w => m.push (keyOf k t w) (maskOf w a d.length) (s.wordAt k t w) (u.wordAt k t w) sk.rels sk.atom sk.hid sk.eng
    { u with ram := ((wordsOf a d.length).foldl note u.ram).counted }
  | .opbuf r => s.updRank k r fun x => { x with opbuf := x.opbuf.putN a d, opPoison := unpoison x.opPoison a d.length }

/-- The store that has just written a piece, as a view. -/
def State.pieceView (s : State) (k : TeamKey) (p : Piece) : View :=
  match p.tgt with
  | .opbuf _ => []
  | t => (wordsOf p.addr p.data.length).flatMap fun w => s.ram.lastView (keyOf k t w) (maskOf w p.addr p.data.length + 256)

/-- The group and the core that hold a line locked (R149); a saved team holds none (R150). -/
def State.lockOf (s : State) (line : Nat) : Option (GroupKey × CoreId) :=
  s.teams.findSome? fun t => if t.status = .saved then none else
    (List.range t.ranks.length).findSome? fun r =>
      ((t.ranks.getD r default).locks.find? fun l => l.1 = line).map fun l => (l.2, t.cores.getD r default)

/-- A line is locked by another core than `c` (R149). -/
def State.lockedFrom (s : State) (c : CoreId) (line : Nat) : Bool := (s.lockOf line).any fun l => l.2 != c

/-- The core that hides a store of a group to an address: its own, while it holds the line locked (R351). -/
def State.hides (s : State) (g : Group) (t : Target) (a : Nat) : Option CoreId :=
  match t with
  | .mem => if (s.lockOf (a / 64 * 64)).any fun l => l.1 == g.key then some g.core else none
  | _ => none

/-! ## Ownership requests (R143) -/

/-- The core holds the line writable (Table 11-1). -/
def Coh.owns (c : Coh) (core : CoreId) (line : Nat) : Bool :=
  let l := c.line line
  (l.state == .m || l.state == .e) && l.owner == some core

/-- The core holds the line in a state that serves its loads. -/
def Coh.holds (c : Coh) (core : CoreId) (line : Nat) : Bool := (c.line line).owner == some core || (c.line line).holders.contains core

/-- A core writes a line that it owns: its copy is dirty, in M (Table 11-1). -/
def Coh.dirtied (c : Coh) (core : CoreId) (line : Nat) : Coh :=
  if c.owns core line then c.setLine { c.line line with state := .m } else c

/-- Ask the home for a line, unless the core holds it so or has asked already. -/
def State.request (s : State) (core : CoreId) (line : Nat) (own priv : Bool) : State :=
  if if own then s.coh.owns core line else s.coh.holds core line then s
  else if s.coh.reqs.any fun r => r.core = core && r.line = line && (r.own || !own) then s
  else
    let rest := s.coh.reqs.filter fun r => !(r.core = core && r.line = line)
    { s with coh := { s.coh with reqs := rest ++ [⟨core, line, own, priv, .sent, [], []⟩] } }

/-! ## The probe -/

/-- Some bytes of an access: where they lie, and the translation behind them. -/
structure Chunk where
  tgt  : Target
  addr : Nat
  n    : Nat
  phys : Option Phys
  va   : Nat
deriving DecidableEq, Repr

/-- The access of a lane: its address as formed, and its bytes in order. -/
structure Acc where
  lane : Nat
  addr : Nat
  chunks : List Chunk
deriving DecidableEq, Repr

/-- What the probe finds for a lane (R50). -/
inductive LaneRes where
  | ok (a : Acc)
  | park (page : Nat)
  | bad (cause : Nat)
deriving DecidableEq, Repr

/-- The probe of `size` bytes at a virtual address: one page, or the two of a crossing FP6 group (R408). -/
def globAcc (s : State) (g : Group) (k : Access) (size L a : Nat) : LaneRes :=
  if a + size > 2 ^ 57 then .bad 0x06
  else
    match s.ctxOf g with
    | none => .bad 0x06
    | some c =>
      let look := probe s g.key.team.part c g.core k
      let n := min size (4096 - a % 4096)
      match look a with
      | .absent p => .park p
      | .forbid => if n = size then .bad 0x06 else match look (a + n) with
        | .absent p => .park p
        | _ => .bad 0x06
      | .ok p =>
        if n = size then .ok ⟨L, a, [⟨.mem, p.pa, size, some p, a⟩]⟩
        else match look (a + n) with
          | .absent q => .park q
          | .forbid => .bad 0x06
          | .ok q => .ok ⟨L, a, [⟨.mem, p.pa, n, some p, a⟩, ⟨.mem, q.pa, size - n, some q, a + n⟩]⟩

/-- The scratchpad allotment of a group's team, and its core ranks (R125). -/
def State.allot (s : State) (g : Group) : Nat := ((s.team? g.key.team).map fun t => t.blk.scratch).getD 0
def State.rankCount (s : State) (g : Group) : Nat := ((s.team? g.key.team).map fun t => t.ranks.length).getD 0

/-- The probe of a lane's access (Table 10-1): alignment, then the limits of its space. -/
def laneAcc (s : State) (g : Group) (k : Access) (sp : Space) (size align L a : Nat) : LaneRes :=
  if a % align ≠ 0 then .bad 0x05
  else
    match sp with
    | .glob => globAcc s g k size L a
    | .own => if a + size ≤ s.allot g then .ok ⟨L, a, [⟨.scr g.rank, a, size, none, a⟩]⟩ else .bad 0x06
    | .team =>
      let r := bitsOf a 27 24
      let o := bitsOf a 17 0
      if a < 2 ^ 28 ∧ bitsOf a 23 18 = 0 ∧ r < s.rankCount g ∧ o + size ≤ s.allot g then
        .ok ⟨L, a, [⟨.scr r, o, size, none, a⟩]⟩
      else .bad 0x06

/-- The lines of memory that an access touches, each with its translation. -/
def Acc.lines (a : Acc) : List (Nat × Phys) :=
  a.chunks.flatMap fun c => match c.phys with
    | some p => (linesOf c.addr c.n).map fun l => (l, p)
    | none => []

/-- An access of a group meets an unpublished line of a private page that is not its team's (R161). -/
def State.escape (s : State) (g : Group) (a : Acc) : Bool :=
  a.chunks.any fun c => match c.phys with
    | some p => (linesOf c.addr c.n).any fun l => escapes s g.key.team.part g.ctx (some g.key.team) { p with pa := l }
    | none => false

/-- Keep what the accesses have translated (R134): in the core's TLB, or, of a bulk command's, the first 512 in the walk-ahead TLB. -/
def State.keepAcc (s : State) (bulk : Bool) (g : Group) (l : List Acc) : State :=
  let ps := (l.flatMap Acc.chunks).filterMap Chunk.phys
  (if bulk then ps.take 512 else ps).foldl (fun s p => s.keepIn bulk g.key.team.part g.ctx g.core p) (ps.foldl State.useKey s)

/-! ## An access of the active lanes -/

/-- The lanes that the probe parks, with the pages they want (R35): a bulk command parks every lane when one page is missing. -/
def parkers (bulk : Bool) (act : Mask) (ad : Nat → Nat) (rs : List (Nat × LaneRes)) : List (Nat × Nat × Nat) :=
  let out := rs.filterMap fun r => match r.2 with
    | .park p => some (r.1, ad r.1, p)
    | _ => none
  match out with
  | x :: _ => if bulk then act.lanes.map (fun L => (L, ((out.find? fun y => y.1 = L).getD x).2)) else out
  | [] => out

/-- The lanes that the probe has parked leave the instruction (R35), and a commit point's threads with them. -/
def Group.unparked (g : Group) : Group := { g with commit := g.commit.map fun k => { k with run := k.run &&& ~~~g.arch.parked } }

/-- Lanes stay parked whatever becomes of the rest of their instruction (R35, R36). -/
def State.keepParks (s : State) (g : Group) : State :=
  s.updGroup g.key fun h => { h with
    arch := { h.arch with parked := g.arch.parked }
    parks := g.parks
    commit := g.commit
    holds := h.holds.map fun x => { x with run := x.run &&& ~~~g.arch.parked } }

/-- The access of the active lanes (R50, R161, R410). `ad` is a lane's address, `res` what its probe finds; `extra` is a fault the
instruction finds in a translated access. Lanes without a translation park; with a fault in another lane nothing executes; else
`body` acts for the rest. -/
def probeBody (v : Served) (s : State) (k : Access) (bulk : Bool) (ad : Nat → Nat) (res : Nat → LaneRes) (extra : Acc → Option Nat)
    (body : State → Served → List Acc → Res) : Res :=
  match xgate s v.g 0 v.seq with
  | none => .wait s v.run
  | some g =>
    let rs := v.act.lanes.map fun L => (L, res L)
    let fault := fun (r : Nat × LaneRes) => match r.2 with
      | .bad c => some c
      | .park _ => none
      | .ok a => if s.escape g a then some (min 0x07 ((extra a).getD 0x07)) else extra a
    let bad := rs.filterMap fun r => (fault r).map fun c => (r.1, c)
    let out := parkers bulk v.act ad rs
    let bad := bad.filter fun b => !out.any fun o => o.1 == b.1
    if (bad.any fun b => b.2 == 0x07) && g.loading v.act then .wait s v.run
    else
      let ok := rs.filterMap fun r => match r.2 with
        | .ok a => if bulk && !out.isEmpty then none else some a
        | _ => none
      let r := (s.keepAcc bulk g ok).parkAll g k out
      match bad with
      | (L, c) :: _ =>
        .trap r.1 r.2 ⟨c, v.pc, Mask.ofLanes ((bad.filter fun b => b.2 = c).map Prod.fst),
          BitVec.ofNat 64 (if c = 0x02 then 0 else ad L), 0⟩
      | [] =>
        if ok.isEmpty then .done r.1 r.2 0
        else
          let h := r.2.unparked
          body (r.1.keepParks h) { v with g := h, run := v.run &&& ~~~h.arch.parked, act := v.act &&& ~~~h.arch.parked } ok

/-- The access of the active lanes of `size` bytes each in a space. -/
def memBody (v : Served) (s : State) (k : Access) (sp : Space) (size align : Nat) (ad : Nat → Nat) (extra : Acc → Option Nat)
    (body : State → Served → List Acc → Res) : Res :=
  probeBody v s k false ad (fun L => laneAcc s v.g k sp size align L (ad L)) extra body

/-! ## Loads -/

/-- The byte that a staged effect of the group holds at an address of a target (R48). -/
def Effect.byteAt (e : Effect) (t : Target) (a : Nat) : Option Byte :=
  let hit := fun (p : Piece) => if p.tgt = t ∧ p.addr ≤ a then p.data[a - p.addr]? else none
  match e.kind with
  | .write ps _ _ => ps.reverse.findSome? hit
  | .objInit h _ => hit h
  | _ => none

/-- The pieces that an effect writes. -/
def Effect.pieces (e : Effect) : List Piece :=
  match e.kind with
  | .write ps _ _ => ps
  | .objInit h _ => [h]
  | _ => []

/-- What a staged effect does to the tag of a word of memory (Table 13-1). -/
def Effect.tagAt (e : Effect) (w : Nat) : Option Bool :=
  match e.kind with
  | .write ps op _ =>
    if ps.any fun p => p.tgt == .mem && (wordsOf p.addr p.data.length).contains w then some (op == .set) else none
  | .objInit _ rs => if rs.any fun r => decide (r.1 ≤ w) && decide (w < r.1 + r.2) then some false else none
  | _ => none

/-- The byte, and the tag, that the group's own staged effects give, the newest first (R48). -/
def Group.fwdByte (g : Group) (t : Target) (a : Nat) : Option Byte := g.staged.reverse.findSome? fun e => e.byteAt t a
def Group.fwdTag (g : Group) (w : Nat) : Option Bool := g.staged.reverse.findSome? fun e => e.tagAt w

/-- The word of the staged effect that gives a byte is poisoned in the quarantine buffer (R76, R405). -/
def Group.fwdPois (g : Group) (t : Target) (a : Nat) : Bool :=
  (g.staged.reverse.find? fun e => (e.byteAt t a).isSome).any fun e => e.pois.contains (t, a / 8 * 8)

/-- What a load has read. -/
structure Got where
  bytes : List Byte
  tag   : Bool
  pois  : List Nat          -- the policies of the poisoned words read (R135, R405)
  saw   : View
  rels  : List Release

/-- Draw one of a list of choices; a free value decides when there is more than one (log 4). -/
def State.pick {α : Type} (s : State) (l : List α) (d : α) : α × State :=
  if l.length ≤ 1 then (l.headD d, s) else (l.getD (Config.freeNat s.fresh % l.length) d, { s with fresh := s.fresh + 1 })

/-- The bytes of a chunk in the word at `w` that come from storage, the rest being forwarded (R48); bit 8 is the tag, read with a whole word. -/
def Group.unforwarded (g : Group) (latest : Bool) (c : Chunk) (w : Nat) : Nat :=
  let m := maskOf w c.addr c.n
  let out := (List.range 8).foldl (fun x i => if m.testBit i && (latest || (g.fwdByte c.tgt (w + i)).isNone) then x + 2 ^ i else x) 0
  if c.tgt = .mem ∧ m = 255 ∧ (latest ∨ (g.fwdTag w).isNone) then out + 256 else out

/-- The words of a chunk that lie in one 64-byte line. -/
def Chunk.inLine (c : Chunk) (line : Nat) : List Nat := (wordsOf c.addr c.n).filter fun w => w / 64 * 64 = line

/-- The moments from which the part of a chunk in one line may be read (R174); none stands for memory as it is. -/
def State.moments (s : State) (g : Group) (floor : View) (latest : Bool) (c : Chunk) (line : Nat) : List (Option Nat) :=
  let need := ((c.inLine line).map fun w => (keyOf g.key.team c.tgt w, g.unforwarded latest c w)).filter fun x => x.2 ≠ 0
  match c.tgt with
  | .opbuf _ => [none]
  | _ =>
    if latest || need.isEmpty then [none]
    else match s.ram.moments g.core floor need with
      | [] => [none]
      | l => l.map some

/-- A word as a core sees it from a moment. -/
def State.wordSeen (s : State) (g : Group) (t : Target) (at_ : Option Nat) (w : Nat) : WordState :=
  match at_ with
  | none => s.wordAt g.key.team t w
  | some n => s.ram.seenAt g.core n (keyOf g.key.team t w) (s.wordAt g.key.team t w)

/-- The stores that some bytes of a word hold from a moment, and what they release. -/
def State.wordFrom (s : State) (g : Group) (t : Target) (at_ : Option Nat) (w mask : Nat) : View × List Release :=
  let key := keyOf g.key.team t w
  match t, at_ with
  | .opbuf _, _ => ([], [])
  | _, none => (s.ram.lastView key mask, s.ram.lastRels key mask)
  | _, some n => (viewOfBytes key mask (s.ram.byteNum g.core n key), s.ram.relsAt g.core n key mask)

/-- Read the bytes of a chunk that lie in one word, from a moment. -/
def State.loadWord (s : State) (g : Group) (latest : Bool) (c : Chunk) (at_ : Option Nat) (w : Nat) : Got :=
  let adr := (List.range 8).filterMap fun i => if c.addr ≤ w + i ∧ w + i < c.addr + c.n then some (w + i) else none
  let own := fun a => if latest then none else g.fwdByte c.tgt a
  let tag := if c.tgt = .mem ∧ !latest then g.fwdTag w else none
  let bad := if !latest && adr.any (g.fwdPois c.tgt) then [0] else []
  let rest := g.unforwarded latest c w
  if rest = 0 then ⟨adr.map fun a => (own a).getD 0, tag.getD false, bad, [], []⟩
  else
    let x := s.wordSeen g c.tgt at_ w
    let from_ := s.wordFrom g c.tgt at_ w rest
    let pol := (c.phys.map fun p => ptePol p.pte).getD 0
    let word := if x.pois ∧ pol = 1 then 0 else x.val
    ⟨adr.map fun a => (own a).getD (word.extractLsb' (8 * (a - w)) 8), tag.getD x.tag, bad ++ if x.pois then [pol] else [], from_.1, from_.2⟩

/-- Nothing read. -/
def Got.none_ : Got := ⟨[], false, [], [], []⟩

/-- Two reads of one access. -/
def Got.and (a b : Got) : Got := ⟨a.bytes ++ b.bytes, a.tag || b.tag, a.pois ++ b.pois, View.join a.saw b.saw, a.rels ++ b.rels⟩

/-- Read the part of a chunk in one line, indivisibly (R170, R351, R408): as of one moment that the rules allow. -/
def State.loadLine (s : State) (g : Group) (floor : View) (latest : Bool) (c : Chunk) (line : Nat) : State × Got :=
  let x := s.pick (s.moments g floor latest c line) none
  (x.2, (c.inLine line).foldl (fun r w => r.and (s.loadWord g latest c x.1 w)) Got.none_)

/-- Read a chunk, line by line. -/
def State.loadChunk (s : State) (g : Group) (floor : View) (latest : Bool) (c : Chunk) : State × Got :=
  (linesOf c.addr c.n).foldl (fun r l =>
    let x := r.1.loadLine g floor latest c l
    (x.1, r.2.and x.2)) (s, Got.none_)

/-- Read an access. -/
def State.loadAcc (s : State) (g : Group) (floor : View) (latest : Bool) (a : Acc) : State × Got :=
  a.chunks.foldl (fun r c =>
    let x := r.1.loadChunk g floor latest c
    (x.1, r.2.and x.2)) (s, Got.none_)

/-- What the threads of a mask have read and written. -/
def Group.viewOf (g : Group) (m : Mask) : View := m.lanes.foldl (fun v L => View.join v (g.thr L).view) []

/-- The threads of a mask have read something (R170, R176). -/
def Group.saw (g : Group) (m : Mask) (x : Got) : Group :=
  if x.saw = [] then g else g.updThr m fun t => { t with view := View.join t.view x.saw, pend := t.pend ++ x.rels }

/-- The accesses of an instruction, each with the lanes it is made for: one for all of them when it acts once (R346, R394). -/
def perLane (once : Bool) (act : Mask) (l : List Acc) : List (Mask × Acc) :=
  if once then (l.head?.map fun a => (act, a)).toList else l.map fun a => (Mask.bit a.lane, a)

/-- Read the accesses in lane order. -/
def State.loadAll (s : State) (g : Group) : List (Mask × Acc) → State × Group × List (Mask × Acc × Got)
  | [] => (s, g, [])
  | (m, a) :: r =>
    let x := s.loadAcc g (g.viewOf m) false a
    let t := x.1.loadAll (g.saw m x.2) r
    (t.1, t.2.1, (m, a, x.2) :: t.2.2)

/-- A machine check, a lost link or a commanded reset asks for the partition's fatal reset: none of its groups dispatches any
more, and its VF is not ready (R233). -/
def State.askReset (s : State) (part : Nat) : State :=
  let s := s.updPart part fun p => { p with ready := false, resetAt := some (p.resetAt.getD s.now) }
  { s with groups := s.groups.map fun g => if g.key.team.part = part then { g with stop := true } else g }

/-- A partition awaits its fatal reset, which drops every other event that reaches its groups (R226). -/
def State.falling (s : State) (part : Nat) : Bool := (s.part part).resetAt.isSome

/-- What reading poison does (R76, R135, R405): trap 0x0B where the policy says so, or for storage without pages; a machine check;
or a zero that is logged. Policy 0b11, reserved, acts as 0b00 (log 16). -/
def poisoned (v : Served) (s : State) (g : Group) (l : List (Mask × Acc × Got)) (k : State → Res) : Res :=
  let hit := fun (f : Nat → Bool) => l.filter fun x => x.2.2.pois.any f
  match hit fun p => p == 0 || p == 3 with
  | x :: r =>
    .trap s v.g ⟨0x0B, v.pc, (x :: r).foldl (fun m y => m ||| y.1) 0, BitVec.ofNat 64 x.2.1.addr, 0⟩
  | [] =>
    if (hit fun p => p == 2) ≠ [] then .took ((s.setGroup g).askReset g.key.team.part)
    else k ((hit fun p => p == 1).foldl (fun s x => s.logRec 3 g.key.team.part (leBytes 8 x.2.1.addr)) s)

/-- The read requests of the accesses, and the load that waits for their data (R143, R79): the lines the core does not hold. -/
def State.fetchLines (s : State) (g : Group) (l : List Acc) : State × Group :=
  let ls := ((l.flatMap Acc.lines).filter fun x => x.2.cacheable && !s.coh.holds g.core x.1).eraseDups
  if ls.isEmpty then (s, g)
  else
    (ls.foldl (fun s x => s.request g.core x.1 false (ptePriv x.2.pte && !(s.coh.line x.1).published)) s,
      { g with loads := g.loads ++ [(g.seq, (ls.map Prod.fst).eraseDups)] })

/-- A page that holds an address is being copied from, or to (R139). -/
def State.leaving (s : State) (a : Nat) : Bool := s.coh.migs.any fun m => decide (m.src ≤ a) && decide (a < m.src + m.size)
def State.arriving (s : State) (a : Nat) : Bool := s.coh.migs.any fun m => decide (m.dst ≤ a) && decide (a < m.dst + m.size)

/-- Some line of the accesses is locked by another core, whose probe waits there (R149), or lies on a page whose home holds or moves
every request (R139); a line that the core itself holds locked is served (R149). -/
def State.lockedOut (s : State) (g : Group) (l : List Acc) : Bool :=
  (l.flatMap Acc.lines).any fun x => s.lockedFrom g.core x.1 || ((s.leaving x.1 || s.arriving x.1) && (s.lockOf x.1).isNone)

/-- The core translates again what a home has answered "moved" (R139). -/
def State.retranslate (s : State) (g : Group) (l : List Acc) : State :=
  let away := ((l.flatMap Acc.lines).filter fun x => s.leaving x.1).map fun x => x.2.base
  { s with coh := { s.coh with tlb := s.coh.tlb.filter fun t => !(t.core = g.core && away.contains t.va) } }

/-- The plain loads of the active lanes: what they read goes to `k`, lane by lane. -/
def loadBody (v : Served) (s : State) (once : Bool) (l : List Acc)
    (k : State → Group → List (Mask × Acc × Got) → Res) : Res :=
  if s.lockedOut v.g l then .wait (s.retranslate v.g l) v.run
  else
    let x := s.loadAll v.g (perLane once v.act l)
    poisoned v x.1 x.2.1 x.2.2 fun t =>
      let y := t.fetchLines x.2.1 l
      k y.1 y.2 x.2.2

/-! ## Stores -/

/-- The sectors of 32 bytes that bytes touch. -/
def sectorsOf (a n : Nat) : List Nat :=
  if n = 0 then [] else (List.range ((a + n - 1) / 32 + 1 - a / 32)).map fun i => a / 32 + i

/-- Quarantine entries of an effect (R64): one for each sector, one for each OBJINIT lane; engine writes into a scratchpad wait in
the engine's staging buffer (Table 5-2). -/
def Effect.entries (e : Effect) : Nat :=
  match e.kind with
  | .write ps _ _ =>
    if e.held then 0
    else (ps.flatMap fun p => match p.tgt with
      | .opbuf _ => []
      | .scr r => if e.cls = 0 then (sectorsOf p.addr p.data.length).map fun x => (.scr r, x) else []
      | t => (sectorsOf p.addr p.data.length).map fun x => (t, x)).eraseDups.length
  | .objInit _ _ => 1
  | _ => 0

/-- Quarantine entries of a core that are in use (R64). -/
def State.entriesUsed (s : State) (c : CoreId) : Nat :=
  s.groups.foldl (fun n g => if g.core = c then n + (g.staged.map Effect.entries).foldl (· + ·) 0 else n) 0

/-- Some bytes of a store leave the core: for another rank's scratchpad, past L1 (hint 3), or for a page that is not device memory
(R66). -/
def Chunk.leaves (c : Chunk) (rank hint : Nat) : Bool :=
  match c.tgt, c.phys with
  | .scr r, _ => r != rank
  | _, some p => hint == 3 || pteMt p.pte != 0
  | _, _ => false

/-- Bytes on a page of the PCIe or the peer window: MT 2 or 3 (R141). -/
def Chunk.window (c : Chunk) : Bool := c.phys.any fun p => decide (2 ≤ pteMt p.pte)

/-- The pieces of an access that stores bytes `d` for the threads of a mask, each with whether it leaves the core. -/
def Acc.pieces (a : Acc) (rank hint : Nat) (m : Mask) (d : List Byte) : List (Bool × Piece) :=
  (a.chunks.foldl (fun (r : List (Bool × Piece) × List Byte) c =>
    (r.1 ++ [(c.leaves rank hint, ⟨c.tgt, c.addr, r.2.take c.n, m, c.window⟩)], r.2.drop c.n)) ([], d)).1

/-- Stage the pieces of one store (R63): those that the core applies itself, and those that go to a holder elsewhere (R66). -/
def Group.stagePieces (g : Group) (now : Nat) (ps : List (Bool × Piece)) (tag : TagOp) (sc : Option Scope) (rels : List Release) : Group :=
  let some_ := fun (g : Group) (away : Bool) =>
    match (ps.filter fun p => p.1 == away).map Prod.snd with
    | [] => g
    | l => g.stage now 0 (.write l tag sc) rels away
  some_ (some_ g false) true

/-- What the stores of lanes release: what the fences before them give (R412), and at `sc` what the lane has done so far. -/
def Group.releases (g : Group) (s : State) (sc : Option Scope) (m : Mask) : List Release :=
  m.lanes.flatMap fun L => g.fencesOf L ++ (sc.map fun c => g.release s c L).toList

/-- The store of the active lanes (R394): staged, with ownership asked for at once (R143). `data` gives a lane's bytes. One store for
all the active threads releases what each of them has done (R172). A store that finds too few quarantine entries waits (R64). -/
def storeBody (v : Served) (s : State) (once : Bool) (hint : Nat) (tag : TagOp) (sc : Option Scope) (l : List Acc)
    (data : Nat → List Byte) : Res :=
  let l := if once then l.take 1 else l
  let of := fun (a : Acc) => if once then v.act else Mask.bit a.lane
  let g := v.g.stagePieces s.now (l.flatMap fun a => a.pieces v.g.rank hint (of a) (data a.lane)) tag sc (v.g.releases s sc v.act)
  let need := ((g.staged.drop v.g.staged.length).map Effect.entries).foldl (· + ·) 0
  if Config.quarantineEntries < s.entriesUsed g.core + need then .stall s
  else
    let own := l.flatMap fun a => a.chunks.flatMap fun c => match c.phys with
      | some p => if c.leaves v.g.rank hint || !p.cacheable then [] else (linesOf c.addr c.n).map fun x => (x, p)
      | none => []
    .done (own.foldl (fun s x => s.request g.core x.1 true (ptePriv x.2.pte && !(s.coh.line x.1).published)) s) g 0

end Sys2Proof.Machine
end

