-- ==== Sys2Proof/Machine/Scopes.lean ====
section
/-! DEFINITION. Machine/Scopes.lean: scope instances (R168), what an acquire does (R173, R181 to R184), and what a release does at
its home (R180, R183, R190, R412). -/

namespace Sys2Proof.Machine

/-- Change a region's entry (R144); an entry of zeros is dropped. -/
def Coh.updRegion (c : Coh) (line : Nat) (f : Region → Region) : Coh :=
  let a := line / 512 * 512
  let r := f ((c.regions.find? fun r => r.addr = a).getD ⟨a, false, false, 0, 0⟩)
  let rest := c.regions.filter fun r => r.addr ≠ a
  { c with regions := if r = ⟨a, false, false, 0, 0⟩ then rest else r :: rest }

/-- The host behind a port as a holder of lines, through CXL.mem (R142, R144): a number that no core's die has. -/
def hostCore (port : Nat) : CoreId := ⟨6 + port, 0, 0⟩
/-- The holder is a host. -/
def isHost (c : CoreId) : Bool := decide (6 ≤ c.die)

/-- The clusters of a die's guest table that cache a region (R144). -/
def Coh.guest (c : Coh) (die line : Nat) : BitVec 9 :=
  ((c.guests.find? fun x => x.1 = die && x.2.1 = line / 512 * 512).map fun x => x.2.2).getD 0

/-- Change a guest table; an entry of zeros is dropped. -/
def Coh.setGuest (c : Coh) (die line : Nat) (v : BitVec 9) : Coh :=
  let rest := c.guests.filter fun x => !(x.1 = die && x.2.1 = line / 512 * 512)
  { c with guests := if v = 0 then rest else (die, line / 512 * 512, v) :: rest }

/-- The directory records that a core, or the host, holds a line of a region, and its die's guest table the cluster (R144); host lines have
their home at the host. -/
def Coh.track (c : Coh) (line : Nat) (core : CoreId) : Coh :=
  if Config.hostBase ≤ line then c
  else if isHost core then c.updRegion line fun r => { r with host := true }
  else if core.die = homeDie line then c.updRegion line fun r => { r with clus := r.clus ||| BitVec.twoPow 9 core.cluster }
  else (c.updRegion line fun r => { r with dies := r.dies ||| BitVec.twoPow 4 core.die }).setGuest core.die line
    (c.guest core.die line ||| BitVec.twoPow 9 core.cluster)

/-- A region's entry names a holder: its cluster on the home die, its die, whose guest table names its cluster, or the host (R144). -/
def Coh.names (c : Coh) (line : Nat) (core : CoreId) : Bool :=
  let r := (c.regions.find? fun r => r.addr = line / 512 * 512).getD ⟨line / 512 * 512, false, false, 0, 0⟩
  if isHost core then r.host
  else if core.die = homeDie line then r.clus.getLsbD core.cluster
  else r.dies.getLsbD core.die && (c.guest core.die line).getLsbD core.cluster

/-- A line of a region is held by some of its holders. -/
def Coh.regionHeld (c : Coh) (line : Nat) (p : CoreId → Bool) : Bool :=
  c.lines.any fun l => l.addr / 512 == line / 512 && (l.holders ++ l.owner.toList).any p

/-- The home has probed every cluster, die and host of a region's entry: the bits of those that hold no line of it are cleared (R144). -/
def Coh.trim (c : Coh) (line : Nat) : Coh :=
  if Config.hostBase ≤ line then c
  else
    let h := homeDie line
    let cl := fun (d : Nat) (v : BitVec 9) => (List.range 9).foldl (fun v i =>
      if v.getLsbD i && !c.regionHeld line (fun x => x.die = d && x.cluster == i) then v &&& ~~~(BitVec.twoPow 9 i) else v) v
    let gs := (List.range 4).foldl (fun (x : Coh) d => x.setGuest d line (cl d (x.guest d line))) c
    gs.updRegion line fun r => { r with
      clus := cl h r.clus
      dies := (List.range 4).foldl (fun v d => if c.regionHeld line (fun x => x.die == d) then v else v &&& ~~~(BitVec.twoPow 4 d)) r.dies
      host := r.host && c.regionHeld line isHost }

/-- `b` lies in `a`'s instance of a scope (Table 14-1). -/
def inScope (sc : Scope) (a b : Agent) : Bool :=
  match sc, a, b with
  | .system, _, _ => true
  | .device, .host, _ | .device, _, .host => false
  | .device, _, _ => true
  | .group, .thread g _, .thread h _ => g == h
  | .core, .thread _ c, .thread _ d => c == d
  | .cluster, .thread _ c, .thread _ d => c.die == d.die && c.cluster == d.cluster
  | .die, .thread _ c, .thread _ d => c.die == d.die
  | _, _, _ => false

/-- A scope narrower than device (14, "Widening a narrow release"). -/
def narrowScope : Scope → Bool
  | .group | .core | .cluster | .die => true
  | _ => false

/-- Scopes from narrow to wide. -/
def scopeRank : Scope → Nat
  | .group => 0
  | .core => 1
  | .cluster => 2
  | .die => 3
  | .device => 4
  | .system => 5

/-- A group as a scope checker sees it: its issue slot. -/
def Group.place (g : Group) : Releaser := .slot g.core g.quad g.slot

/-- `b` lies in `a`'s instance of a scope (Table 14-1), as a scope checker sees them (R183). -/
def Releaser.sees (sc : Scope) (a b : Releaser) : Bool :=
  match sc, a, b with
  | .system, _, _ => true
  | .device, .outside, _ | .device, _, .outside => false
  | .device, _, _ => true
  | .group, .slot c q n, .slot d r m => c == d && q == r && n == m
  | .core, .slot c _ _, .slot d _ _ => c == d
  | .cluster, .slot c _ _, .slot d _ _ => c.die == d.die && c.cluster == d.cluster
  | .die, .slot c _ _, .slot d _ _ => c.die == d.die
  | _, _, _ => false

/-- The scope instance of a thread on a core contains a cluster. -/
def hasCluster (sc : Scope) (c : CoreId) (die cluster : Nat) : Bool :=
  match sc with
  | .group | .core => false
  | .cluster => c.die == die && c.cluster == cluster
  | .die => c.die == die
  | _ => true

/-- A core lies outside the instance that a narrow-holder record stands for (R181). A record does not name the releasing core, so
every core lies outside a group or core scope (log 19). -/
def Narrow.excludes (n : Narrow) (c : CoreId) : Bool :=
  match n.scope with
  | .group | .core => true
  | .cluster => !(c.die == n.die && c.cluster == n.cluster)
  | .die => c.die != n.die
  | _ => false

/-- The context of a group is in check mode (Table 14-4). -/
def State.checkMode (s : State) (g : Group) : Bool := (s.ctxOf g).any fun c => c.scopemd.getLsbD 0

/-- Lines of device memory that the accesses touch: those with a home slice of the device (R141). -/
def homedLines (l : List Acc) : List Nat := ((l.flatMap Acc.lines).filterMap fun x => if pteMt x.2.pte = 0 then some x.1 else none).eraseDups

/-- The records that an acquire has to widen first (R181). -/
def State.toWiden (s : State) (g : Group) (sc : Scope) (l : List Acc) : List Narrow :=
  s.coh.narrows.filter fun n => (homedLines l).contains n.line && hasCluster sc g.core n.die n.cluster && n.excludes g.core

/-- A widen request for each of some records (R181). -/
def State.askWiden (s : State) (l : List Narrow) : State :=
  { s with coh := { s.coh with narrows := s.coh.narrows.map fun n => if l.contains n then { n with asked := true } else n } }

/-- A generation is at or before `g` in the sense of R152. -/
def genBefore (x g : Nat) : Bool := decide ((g + 65536 - x) % 65536 < 32768)

/-- A generation is at or before a bound in the sense of R152; without a bound every one is. -/
def genWithin (gen : Option Nat) (x : Nat) : Bool := gen.all (genBefore x)

/-- A cluster has completed its narrow releases at or before a generation (R180, R181), or all of them (R190): their records are freed. -/
def Coh.complete (c : Coh) (die cluster : Nat) (gen : Option Nat) : Coh :=
  let ns := c.narrows.filter fun n => !(n.die = die && n.cluster = cluster && genWithin gen n.gen)
  { c with
    narrows := ns
    regions := c.regions.map fun r => { r with narrow := ns.any fun n => n.line / 512 * 512 == r.addr }
    done := (die, cluster, c.ticks, gen) :: c.done.filter fun d => !(d.1 = die && d.2.1 = cluster && (gen.isNone || d.2.2.2.any (genWithin gen)))
    ticks := c.ticks + 1 }

/-- Complete a cluster's narrow releases at or before a generation, each dependence of them first, and theirs in turn (R182). -/
def Coh.widen : Nat → Coh → Nat → Nat → Option Nat → Coh
  | 0, c, die, cluster, gen => c.complete die cluster gen
  | n + 1, c, die, cluster, gen =>
    let mine := c.deps.filter fun x => x.1 = die ∧ x.2.1 = cluster
    let c' := { c with deps := c.deps.filter fun x => !(x.1 = die ∧ x.2.1 = cluster) }
    (mine.foldl (fun c d => Coh.widen n c d.2.2.1 d.2.2.2.1 (some d.2.2.2.2)) c').complete die cluster gen

/-- Chains of dependences are followed to their end: no chain is longer than the clusters of the package. -/
def widenDepth : Nat := 36

/-- Keep a dependence of a cluster (R182): at most sixteen; a seventeenth completes the releases behind the oldest one, as a widening
does, and drops it. The list holds the newest first. -/
def Coh.depend (c : Coh) (core : CoreId) (die cluster gen : Nat) : Coh :=
  let d := (core.die, core.cluster, die, cluster, gen)
  let mine := c.deps.filter fun x => x.1 = core.die ∧ x.2.1 = core.cluster
  if c.deps.contains d then c
  else if mine.length < 16 then { c with deps := d :: c.deps }
  else
    match mine.getLast? with
    | none => c
    | some o =>
      let w := Coh.widen widenDepth { c with deps := c.deps.erase o } o.2.2.1 o.2.2.2.1 (some o.2.2.2.2)
      { w with deps := d :: w.deps }

/-- The instance of an acquire contains the cluster of a release, whose record it widens or would have widened (R181, R191). -/
def widensOver (g : Group) (sc : Scope) (r : Release) : Bool :=
  match r.agent with
  | .thread _ c => hasCluster sc g.core c.die c.cluster
  | _ => false

/-- The agent of a release is one an acquire synchronises with (R173): when each lies in the other's instance; in widen mode, for a
line with a home slice, also when the acquire's instance contains the releaser's cluster (R181, R191). -/
def syncsWith (g : Group) (sc : Scope) (widens : Bool) (r : Release) : Bool :=
  inScope sc g.agent r.agent && ((widens && widensOver g sc r) || inScope r.scope r.agent g.agent)

/-- The lines whose checker entry an acquire breaks (R183). -/
def State.violates (s : State) (g : Group) (sc : Scope) (a : Acc) : Bool :=
  s.coh.checkers.any fun e => (homedLines [a]).contains e.line && !(Releaser.sees e.scope e.who g.place && Releaser.sees sc g.place e.who)

/-- An acquire in check mode uses the entries of its lines (R183): they are used least recently no more. -/
def State.consult (s : State) (g : Group) (l : List Acc) : State :=
  let used := fun (e : Checker) => s.checkMode g && (homedLines l).contains e.line
  { s with coh := { s.coh with checkers := s.coh.checkers.filter (fun e => !used e) ++ s.coh.checkers.filter used } }

/-- The order an acquire gives its threads, from what it has read (R171, R173, R175). -/
def Group.acquires (g : Group) (s : State) (sc : Scope) (m : Mask) (a : Acc) (x : Got) : Group :=
  let widens := !s.checkMode g && (homedLines [a]).length != 0
  let v := (x.rels.filter (syncsWith g sc widens)).foldl (fun v r => View.join v r.view) []
  g.acquire m v

/-- The dependences an acquire leaves in its cluster (R182). -/
def State.depends (s : State) (g : Group) (sc : Scope) (l : List Acc) : State :=
  let rs := s.coh.narrows.filter fun n => (homedLines l).contains n.line && hasCluster sc g.core n.die n.cluster && !n.excludes g.core &&
    !(n.die = g.core.die && n.cluster = g.core.cluster)
  { s with coh := rs.foldl (fun c n => c.depend g.core n.die n.cluster n.gen) s.coh }

/-- What an acquire finds at the home of its lines: it may go on, it waits for widening (R181), or lanes take trap 0x08 (R183). -/
inductive AcqRes where
  | go
  | wait (s : State)
  | trap (m : Mask) (addr : Nat)

/-- The accesses of an acquire that reach memory, not the group's own staged stores alone (R348). -/
def acquireCheck (s : State) (g : Group) (sc : Scope) (l : List (Mask × Acc)) : AcqRes :=
  if s.checkMode g then
    match l.filter fun x => s.violates g sc x.2 with
    | [] => .go
    | x :: r => .trap ((x :: r).foldl (fun m y => m ||| y.1) 0) x.2.addr
  else
    match s.toWiden g sc (l.map Prod.snd) with
    | [] => .go
    | r => .wait (s.askWiden r)

/-! ## Releases -/

/-- The number that `n` masks from place `at_` on give for an address of a die: bit `i` is the parity of the address bits that a mask
names (R19). -/
def hashBits (a at_ n : Nat) : Nat :=
  (List.range n).foldl (fun x i =>
    let m := Config.windowMask (homeDie a) (at_ + i)
    let ones := ((List.range 51).filter fun b => m.testBit b && a.testBit b).length
    x + ones % 2 * 2 ^ i) 0

/-- The home slice of a device line (R19, R141). -/
def sliceOf (line : Nat) : Nat := hashBits line 0 Config.ns

/-- The colour of a device address, its set within its home slice, whose six most significant index bits are the colour, and its
pseudo-channel of a stack (R19, R141). -/
def colourOf (a : Nat) : Nat := bitsOf a 21 16
def setOf (a : Nat) : Nat := colourOf a * 2 ^ Config.ni + hashBits a Config.ns Config.ni
def channelOf (a : Nat) : Nat := 2 * colourOf a + hashBits a (Config.ns + Config.ni) Config.np

/-! ## Stamps and sleeping banks (R152, R153) -/

/-- The lag of a stamp behind a die's generation. -/
def stampLag (dg stamp : Nat) : Nat := (dg + 65536 - stamp) % 65536

/-- The bank of a line sleeps (R153). DESIGN CHOICE (log 26): each home slice is one bank; the spec does not number them. -/
def Coh.sleeps (c : Coh) (line : Nat) : Bool := c.asleep.any fun a => a.1 == homeDie line && a.2.1 == sliceOf line

/-- Mark old the lines of a die that `p` picks. -/
def Coh.markOld (c : Coh) (die : Nat) (p : Line → Nat → Bool) : Coh :=
  { c with lines := c.lines.map fun l => if homeDie l.addr = die then
      (match l.stamp with
        | some x => if p l x then { l with stamp := none } else l
        | none => l) else l }

/-- A line counts as at or before a generation of its die (R152). -/
def Line.atOrBefore (l : Line) (g : Nat) : Bool :=
  match l.stamp with
  | none => true
  | some x => genBefore x g

/-- A bank that sleeps wakes before it serves an access (R153): it marks every line old when its die has advanced by 2^15 or more, and
sweeps otherwise. -/
def Coh.wake (c : Coh) (die slice : Nat) : Coh :=
  match c.asleep.find? fun a => a.1 = die ∧ a.2.1 = slice with
  | none => c
  | some (_, _, was) =>
    let dg := c.dg.getD die 0
    let far := decide (2 ^ 15 ≤ dg - was)
    let c := c.markOld die fun l x => sliceOf l.addr == slice && (far || decide (stampLag dg x ≥ 2 ^ 14))
    { c with asleep := c.asleep.filter fun a => !(a.1 = die && a.2.1 = slice) }

/-- The bank of a line is awake to serve an access to it (R153). -/
def Coh.woken (c : Coh) (line : Nat) : Coh := if c.sleeps line then c.wake (homeDie line) (sliceOf line) else c

/-! ## What a home keeps of a release -/

/-- How many of some lines lie in the slice of a line. The slice is worked out only where the die's lines could fill one. -/
def inSlice (lines : List Nat) (line cap : Nat) : Nat :=
  let d := lines.filter fun x => homeDie x = homeDie line
  if d.length < cap then 0 else (d.filter fun x => sliceOf x = sliceOf line).length

/-- The record of a core's cluster for a line (R180). -/
def Coh.narrow? (c : Coh) (core : CoreId) (line : Nat) : Option Narrow :=
  c.narrows.find? fun n => n.line = line && n.die = core.die && n.cluster = core.cluster

/-- A cluster has no record for a line, and the line's slice no free slot (R180). -/
def Coh.noSlot (c : Coh) (core : CoreId) (line : Nat) : Bool :=
  (c.narrow? core line).isNone && decide (64 ≤ inSlice (c.narrows.map Narrow.line) line 64)

/-- Note a narrow release at its line's home (R180): a record of its cluster for the line, keeping the later generation. -/
def Coh.narrowAt (c : Coh) (core : CoreId) (sc : Scope) (line gen : Nat) : Coh :=
  let g := match c.narrow? core line with
    | some n => if genBefore gen n.gen then n.gen else gen
    | none => gen
  let r := c.narrows.filter fun n => !(n.line = line && n.die = core.die && n.cluster = core.cluster)
  { c with narrows := ⟨line, core.die, core.cluster, sc, g, false⟩ :: r }.updRegion line fun x => { x with narrow := true }

/-- A context's EVICT is set (R183). -/
def State.evict (s : State) (part ctx : Nat) : State :=
  s.updPart part fun p => { p with ctxs := p.ctxs.map fun c => if c.num = ctx then { c with scopemd := c.scopemd ||| 2 } else c }

/-- Update the checker's entry of a line (R183); a full slice replaces the entry used least recently. -/
def State.checkAt (s : State) (e : Checker) : State :=
  let l := s.coh.checkers.filter fun x => x.line ≠ e.line
  let out := if l.length = s.coh.checkers.length ∧ 4096 ≤ inSlice (l.map Checker.line) e.line 4096 then
      l.find? fun x => homeDie x.line = homeDie e.line ∧ sliceOf x.line = sliceOf e.line
    else none
  let t := { s with coh := { s.coh.woken e.line with checkers := (match out with | some x => l.erase x | none => l) ++ [e] } }
  match out with
  | some x => t.evict x.part x.ctx
  | none => t

/-- The narrow releases of a cluster at or before a fence's generation have completed since the fence (R412). -/
def Coh.completedSince (c : Coh) (core : CoreId) (r : Release) : Bool :=
  c.done.any fun d => d.1 = core.die && d.2.1 = core.cluster && decide (r.born ≤ d.2.2.1) && genWithin d.2.2.2 r.gen

/-- The narrowest scope of some releases. -/
def narrowest (l : List Release) : Option Scope :=
  l.foldl (fun o r => match o with
    | none => some r.scope
    | some s => if scopeRank r.scope < scopeRank s then some r.scope else some s) none

/-- A releasing store to some lines: the scope of its own release, of a STREL, an atomic or a PUB, if it is one; what that gives; and the
releases of the fences before it. -/
structure Releasing where
  sc     : Option Scope
  own    : List Release
  fences : List Release

def Releasing.all (r : Releasing) : List Release := r.own ++ r.fences

/-- A release at a narrow scope of a store to some device lines is performed at device scope where a line's home has no free slot for its
record (R180). -/
def State.performedAt (s : State) (g : Group) (lines : List Nat) (r : Releasing) : Releasing :=
  if s.checkMode g then r
  else
    let full := lines.any (s.coh.noSlot g.core)
    let up := fun (sc : Scope) => if full && narrowScope sc then Scope.device else sc
    let wide := fun (x : Release) => { x with scope := up x.scope }
    ⟨r.sc.map up, r.own.map wide, r.fences.map fun x => if s.coh.completedSince g.core x then x else wide x⟩

/-- What a releasing store does at the home of a device line (R180, R183, R412), whose bank is awake (R153). -/
def State.releaseAt (s : State) (g : Group) (line : Nat) (fences : List Release) (own : Option Scope) : State :=
  if s.checkMode g then
    match narrowest fences, own with
    | none, none => s
    | some a, some b => s.checkAt ⟨line, if scopeRank a < scopeRank b then a else b, g.place, g.key.team.part, g.ctx⟩
    | some a, none | none, some a => s.checkAt ⟨line, a, g.place, g.key.team.part, g.ctx⟩
  else if fences.isEmpty && own.isNone then s
  else
    let coh := fences.foldl (fun c r =>
      if narrowScope r.scope && !c.completedSince g.core r then c.narrowAt g.core r.scope line r.gen else c) (s.coh.woken line)
    let coh := match own with
      | some sc => if narrowScope sc then coh.narrowAt g.core sc line ((s.coh.dg.getD g.core.die 0) % 65536) else coh
      | none => coh
    { s with coh := coh }

/-- A release at die, device or system scope completes the narrow releases and widens the dependences of its cluster first (R190). -/
def State.wideRelease (s : State) (g : Group) (rels : List Release) : State :=
  if rels.any fun r => scopeRank r.scope ≥ 3 then
    { s with coh := Coh.widen widenDepth s.coh g.core.die g.core.cluster none }
  else s

/-- The releases of a store, as they are performed at the homes of the device lines it writes (R180, R183, R190, R412). -/
def State.releaseTo (s : State) (g : Group) (lines : List Nat) (r : Releasing) : State × List Release :=
  let r := s.performedAt g lines r
  (lines.foldl (fun s l => s.releaseAt g l r.fences r.sc) (s.wideRelease g r.all), r.all)

end Sys2Proof.Machine
end

