-- ==== Sys2Proof/Machine/LoadStore.lean ====
section
/-! DEFINITION. Machine/LoadStore.lean: LD (R345 to R347), ST, STREL and STREF (R393 to R395), LDACQ (R348), LDREF (R349), PREF
(R378), LLOCK and LUNLK (R149, R350, R351) and HOLDW (R330 to R332). -/

namespace Sys2Proof.Machine

/-- The read that a lane's value comes from. -/
def gotFor (l : List (Mask × Acc × Got)) (L : Nat) : Got := ((l.find? fun x => x.1.has L).map fun x => x.2.2).getD Got.none_

/-- The number a lane has read. -/
def gotNum (l : List (Mask × Acc × Got)) (L : Nat) : Nat := leNat (gotFor l L).bytes

/-- LD (R346). -/
def execLd (c : Ctl) (sp : Space) (hint : BitVec 3) (ty : Ty) (d t1 t2 t3 : Opd) (s : State) : Out_ :=
  serve (.ld c sp hint ty d t1 t2 t3) c s fun v =>
    memBody v s .read sp (memBytes ty) (memAlign ty) (addrSum v.g.arch (memBytes ty) t1 t2 t3) (fun _ => none) fun s v l =>
      loadBody v s (!d.isVec) l fun s g r =>
        .done s { g with arch := writeDst g.arch ty.wide d v.act fun L => loaded ty (gotNum r L) } 0

/-- What an operand supplies to memory: an immediate of a float type stands for its integer (R272). -/
def memVal (a : Arch) (ty : Ty) (o : Opd) (L : Nat) : Nat :=
  match ty with
  | .fp64 | .fp32 | .fp16 | .bf16 | .e5m2 | .e4m3 => readFp a ty o L
  | _ => (readRaw a ty.wide o L).toNat

/-- The bytes a store of a type writes (R394). -/
def storeBytes (a : Arch) (ty : Ty) (o : Opd) (L : Nat) : List Byte := leBytes (memBytes ty) (memVal a ty o L)

/-- Every operand of a store is a scalar or an immediate: it acts once (R394). -/
def storesOnce (val t1 t2 t3 : Opd) : Bool := uniform val && uniform t1 && uniform t2 && uniform t3

/-- ST (R394). -/
def execSt (c : Ctl) (sp : Space) (hint : BitVec 3) (ty : Ty) (val t1 t2 t3 : Opd) (s : State) : Out_ :=
  serve (.st c sp hint ty val t1 t2 t3) c s fun v =>
    memBody v s .write sp (memBytes ty) (memAlign ty) (addrSum v.g.arch (memBytes ty) t1 t2 t3) (fun _ => none) fun s v l =>
      storeBody v s (storesOnce val t1 t2 t3) hint.toNat .clear none l (storeBytes v.g.arch ty val)

/-- STREL (R394): a release at its scope. -/
def execStrel (c : Ctl) (sp : Space) (sc : Scope) (ty : Ty) (val t1 t2 t3 : Opd) (s : State) : Out_ :=
  serve (.strel c sp sc ty val t1 t2 t3) c s fun v =>
    memBody v s .write sp (memBytes ty) (memAlign ty) (addrSum v.g.arch (memBytes ty) t1 t2 t3) (fun _ => none) fun s v l =>
      storeBody v s (storesOnce val t1 t2 t3) 0 .clear (some sc) l (storeBytes v.g.arch ty val)

/-- Every byte of an access lies on a page of device memory (Table 26-7, R374, R380). -/
def deviceOnly (a : Acc) : Option Nat :=
  if a.chunks.all fun c => match c.phys with
    | some p => pteMt p.pte == 0
    | none => false
  then none else some 0x06

/-- STREF (R394, R157): the word and its tag, on device memory only. -/
def execStref (c : Ctl) (sp : Space) (hint : BitVec 3) (val t1 t2 t3 : Opd) (s : State) : Out_ :=
  serve (.stref c sp hint val t1 t2 t3) c s fun v =>
    memBody v s .write sp 8 8 (addrSum v.g.arch 8 t1 t2 t3) deviceOnly fun s v l =>
      storeBody v s (storesOnce val t1 t2 t3) hint.toNat .set none l (storeBytes v.g.arch .b64 val)

/-- Some byte of an access lies on a page of the PCIe or the peer window (R141). -/
def windowPage (a : Acc) : Bool := a.chunks.any Chunk.window

/-- The group has a write to a window page that has not been issued (R187). -/
def Group.posted (g : Group) : Bool := g.staged.any fun e => match e.kind with
  | .write ps _ _ => ps.any Piece.posted
  | _ => false

/-- The accesses of which some byte is read from memory, not from the group's own staged stores (R348). -/
def reachHome (g : Group) (l : List (Mask × Acc)) : List (Mask × Acc) :=
  l.filter fun x => x.2.chunks.any fun c => (List.range c.n).any fun i => (g.fwdByte c.tgt (c.addr + i)).isNone

/-- LDACQ (R348): a load that acquires, widening (R181) or checked (R183) as the mode gives; at system scope on a window page it
waits for the group's earlier posted writes (R187). -/
def execLdacq (c : Ctl) (sp : Space) (sc : Scope) (ty : Ty) (d t1 t2 t3 : Opd) (s : State) : Out_ :=
  serve (.ldacq c sp sc ty d t1 t2 t3) c s fun v =>
    memBody v s .read sp (memBytes ty) (memAlign ty) (addrSum v.g.arch (memBytes ty) t1 t2 t3) (fun _ => none) fun s v l =>
      let ls := reachHome v.g (perLane (!d.isVec) v.act l)
      if sc == .system && l.any windowPage && v.g.posted then .wait s v.run
      else
        match acquireCheck s v.g sc ls with
        | .wait t => .wait t v.run
        | .trap m a => .trap s v.g ⟨0x08, v.pc, m, BitVec.ofNat 64 a, 0⟩
        | .go =>
          loadBody v (s.consult v.g (ls.map Prod.snd)) (!d.isVec) l fun s g r =>
            let g := r.foldl (fun g x => g.acquires s sc x.1 x.2.1 x.2.2) g
            .done (s.depends g sc (ls.map Prod.snd))
              { g with arch := writeDst g.arch ty.wide d v.act fun L => loaded ty (gotNum r L) } 0

/-- LDREF (R349): the word and its tag, in one access. -/
def execLdref (c : Ctl) (sp : Space) (hint : BitVec 3) (d t1 t2 t3 pt : Opd) (s : State) : Out_ :=
  serve (.ldref c sp hint d t1 t2 t3 pt) c s fun v =>
    memBody v s .read sp 8 8 (addrSum v.g.arch 8 t1 t2 t3) (fun _ => none) fun s v l =>
      loadBody v s (!d.isVec) l fun s g r =>
        let a := writeDst g.arch true d v.act fun L => BitVec.ofNat 64 (gotNum r L)
        .done s { g with arch := writePrd a pt v.act fun L => (gotFor r L).tag } 0

/-- PREF (R378): no architectural effect; the translations its walk finds stay in the TLB. -/
def execPref (c : Ctl) (sp : Space) (hint : BitVec 3) (ty : Ty) (t1 t2 t3 : Opd) (s : State) : Out_ :=
  serve (.pref c sp hint ty t1 t2 t3) c s fun v =>
    let ad := addrSum v.g.arch (memBytes ty) t1 t2 t3
    let l := if sp == .glob then v.act.lanes.filterMap fun L => match laneAcc s v.g .read sp (memBytes ty) (memAlign ty) L (ad L) with
        | .ok a => if s.escape v.g a || windowPage a then none else some a
        | _ => none
      else []
    .done (s.keepAcc false v.g l) v.g 0

/-! ## Locked lines -/

/-- Locks held on a core, over all the teams on it (R149). -/
def State.coreLocks (s : State) (c : CoreId) : List (Nat × GroupKey) :=
  s.teams.flatMap fun t => if t.status = .saved then [] else (List.range t.ranks.length).flatMap fun r =>
    if t.cores.getD r default = c then (t.ranks.getD r default).locks else []

/-- The lines that the active lanes name, ascending by virtual address: physical and virtual address (R350). -/
def lockLines (l : List Acc) : List (Nat × Nat) :=
  sortBy (fun a b => decide (a.2 ≤ b.2)) ((l.flatMap Acc.chunks).map fun c => (c.addr / 64 * 64, c.va / 64 * 64)).eraseDups

/-- The probe of LLOCK and LUNLK (R350): no alignment, scratchpad and window pages refused. -/
def lockBody (v : Served) (s : State) (sp : Space) (t1 t2 : Opd) (body : State → Served → List (Nat × Nat) → Res) : Res :=
  let ad := addrSum v.g.arch 4 t1 t2 .none
  if sp != .glob then v.trap s 0x09 v.act (ad (v.act.low?.getD 0))
  else
    memBody v s .read .glob 1 1 ad (fun a => if windowPage a then some 0x09 else none) fun s v l => body s v (lockLines l)

/-- Pin lines in M (R149). -/
def State.pin (s : State) (g : Group) (ls : List Nat) : State :=
  let coh := ls.foldl (fun c l => c.setLine { c.line l with state := .m, owner := some g.core, holders := [g.core] }) s.coh
  { s with coh := coh }.updRank g.key.team g.rank fun r => { r with locks := r.locks ++ ls.map fun l => (l, g.key) }

/-- LLOCK (R350, R149): waits while another group holds a line locked and until each line is in M. A save passes it over while a group of the
same core holds the lock (R28, R229). -/
def execLlock (c : Ctl) (sp : Space) (t1 t2 : Opd) (s : State) : Out_ :=
  serveCommit (.llock c sp t1 t2) c s fun v =>
    lockBody v s sp t1 t2 fun s v ls =>
      let held := s.coreLocks v.g.core
      let new := ls.filter fun l => !held.contains (l.1, v.g.key)
      if 16 < new.length + held.length then v.trap s 0x0A v.act ((new.head?.map Prod.snd).getD 0)
      else if new.any fun l => (s.lockOf l.1).isSome then .wait (s.updGroup v.g.key fun g => g.idling (new.any fun l => held.any fun h => h.1 == l.1)) v.run
      else
        let t := new.foldl (fun s l => s.request v.g.core l.1 true (s.privLine l.1)) s
        if new.all fun l => s.coh.owns v.g.core l.1 then .done (s.pin v.g (new.map Prod.fst)) v.g 0 else .wait (t.updGroup v.g.key fun g => g.idling false) v.run

/-- Unlock lines of a group (R149, R150). -/
def State.unlock (s : State) (g : Group) (ls : List Nat) : State :=
  let mine := ls.filter fun l => (s.rankOf g.key.team g.rank).locks.contains (l, g.key)
  let ram := mine.foldl (fun r l => Ram.unhide r l g.core) s.ram
  { s with ram := ram }.updRank g.key.team g.rank fun r => { r with locks := r.locks.filter fun x => !(x.2 = g.key && mine.contains x.1) }

/-- LUNLK (R350). -/
def execLunlk (c : Ctl) (sp : Space) (t1 t2 : Opd) (s : State) : Out_ :=
  serveCommit (.lunlk c sp t1 t2) c s fun v =>
    lockBody v s sp t1 t2 fun s v ls => .done (s.unlock v.g (ls.map Prod.fst)) v.g 0

/-! ## HOLDW -/

/-- The time-out of a HOLDW in ns (R330). -/
def holdTime (a : Arch) (e : Opd) : Nat :=
  min 1000000 (match e with
    | .imm i => i.toNat * 1000
    | o => read32 a o 0)

/-- What the group sees at an access now (R48): the latest state. -/
def State.peek (s : State) (g : Group) (a : Acc) : Nat :=
  leNat (a.chunks.flatMap fun c => (List.range c.n).map fun i =>
    (g.fwdByte c.tgt (c.addr + i)).getD ((s.wordAt g.key.team c.tgt ((c.addr + i) / 8 * 8)).val.extractLsb' (8 * ((c.addr + i) % 8)) 8))

/-- The HOLDWs that a run waits in, with what is observed now; threads of it that have reached no wait yet begin one (R331). -/
def Group.waits (g : Group) (v : Served) (now : Nat) (t : Nat) (seen : Mask) : List HoldWait :=
  let mine := g.holds.filter fun h => h.pc == v.pc && h.run &&& v.run != 0
  let new := v.run &&& ~~~(mine.foldl (fun m h => m ||| h.run) 0)
  let all : List HoldWait := if new = 0 then mine else mine ++ [⟨v.pc, new, now + t, 0, false⟩]
  all.map fun h => { h with run := h.run &&& v.run, seen := h.seen ||| (seen &&& h.run) }

/-- A HOLDW waits no more: every active lane's word has been observed to differ, or its time is over (R331). -/
def HoldWait.over (h : HoldWait) (act : Mask) (now : Nat) : Bool := h.woken || decide (h.until_ ≤ now) || act &&& h.run &&& ~~~h.seen == 0

/-- HOLDW (R331): a run waits at the probe until every active lane's word has been observed to differ or its time is over; then one plain
load per lane decides the predicate. Threads that reach the word later wait a time of their own. -/
def execHoldw (c : Ctl) (sp : Space) (hint : BitVec 3) (ty : Ty) (d a b cmp e : Opd) (s : State) : Out_ :=
  serve (.holdw c sp hint ty d a b cmp e) c s fun v =>
    memBody v s .read sp (memBytes ty) (memAlign ty) (addrSum v.g.arch (memBytes ty) a b .none) (fun _ => none) fun s v l =>
      let now := Mask.ofLanes ((l.filter fun x => s.peek v.g x != readBits v.g.arch ty cmp x.lane).map Acc.lane)
      let hs := v.g.waits v s.now (holdTime v.g.arch e) now
      let go := (hs.filter fun h => h.over v.act s.now).foldl (fun m h => m ||| h.run) 0
      let holds := fun (g : Group) (l : List HoldWait) => (g.holds.filter fun x => !(x.pc == v.pc && x.run &&& v.run != 0)) ++ l
      let stay := hs.filter fun h => !h.over v.act s.now
      if go = 0 then .wait (s.updGroup v.g.key fun g => { g with holds := holds g hs }) v.run
      else
        let w := { v with run := go, act := v.act &&& go }
        loadBody { w with g := { v.g with holds := holds v.g stay, blocked := v.g.blocked ||| (v.run &&& ~~~go) } } s false
          (l.filter fun x => go.has x.lane) fun s g r =>
          .moved s { g with arch := (writePrd g.arch d w.act fun L => gotNum r L != readBits g.arch ty cmp L).setPcs go fun _ => nextPc v.pc } go 0

end Sys2Proof.Machine
end

