-- ==== Sys2Proof/Machine/Atomic.lean ====
section
/-! DEFINITION. Machine/Atomic.lean: ATOM and ACAS (R145 to R148, R282 to R284). -/

namespace Sys2Proof.Machine

/-- The new value of an ATOM (Table 23-3, R146): float operations round RNE, keep subnormals and raise nothing. -/
def atomNew (a : Arch) (op : RedOp) (ty : Ty) (old opnd : Nat) : Nat :=
  match op with
  | .incw => if old ≥ opnd then 0 else old + 1
  | op => (redStep { a with fpctl := 0 } op ty old opnd).1

/-- The target supports an atomic (Table 11-4): scratchpad takes 32-bit integer operations, exch and fadd. -/
def atomOk (op : Option RedOp) (ty : Ty) (a : Acc) : Option Nat :=
  let float := match op with
    | some .fmin | some .fmax => true
    | _ => false
  if a.chunks.any fun c => c.phys.isNone && (ty.wide || float) then some 0x09 else none

/-- The proxy has a native AtomicOp for it: add, exch and ACAS (Table 11-4). -/
def atomNative (op : Option RedOp) : Bool :=
  match op with
  | none | some .add | some .exch => true
  | _ => false

/-- What the completer of a lane's AtomicOp on a window page answers (R147, R148; log 20): done, refused (trap 0x09), or, in a loop of
compare-and-swap, given up (trap 0x0A). The manual leaves it to the completer: a free value. -/
def State.proxy (s : State) (native : Bool) : Option Nat × State :=
  s.pick (if native then [none, some 0x09] else [none, some 0x09, some 0x0A]) none

/-- What an atomic asks of its home: its release and acquire halves, and its scope. -/
structure AtomKind where
  op  : Option RedOp        -- none: ACAS
  acq : Bool
  rel : Bool
  sc  : Scope
  ty  : Ty

/-- The state of an atomic as it goes through its lanes: what each has read, and the lanes that a completer has refused. -/
structure AtomRun where
  s    : State
  g    : Group
  olds : List (Nat × Nat)
  bad  : List (Nat × Nat × Nat)    -- lane, cause, address
  pois : List (Mask × Acc × Got)

/-- The store of one lane of an atomic: its bytes, what it releases, and what its thread has then done. -/
def atomStore (k : AtomKind) (rel : Bool) (r : AtomRun) (L : Nat) (c : Chunk) (d : List Byte) : AtomRun :=
  let g := r.g
  let own := if rel then [g.release r.s k.sc L] else []
  let x := r.s.releaseTo g (homedLines [⟨L, 0, [c]⟩]) ⟨if rel then some k.sc else none, own, g.fencesOf L⟩
  let s := x.1.store g.key.team c.tgt c.addr d ⟨.clear, x.2, true, x.1.hides g c.tgt c.addr, false⟩
  { r with s := s, g := g.acquire (Mask.bit L) (s.pieceView g.key.team ⟨c.tgt, c.addr, d, Mask.bit L, false⟩) }

/-- One lane of an atomic (R146, R283): one indivisible read and write of the latest value. What its acquire half depends on is noted
before its release half is performed (R182, R190). -/
def atomLane (k : AtomKind) (new : Nat → Nat → Option Nat) (r : AtomRun) (a : Acc) : AtomRun :=
  let p := if windowPage a then r.s.proxy (atomNative k.op) else (none, r.s)
  match p.1 with
  | some c => { r with s := p.2, bad := r.bad ++ [(a.lane, c, a.addr)] }
  | none =>
    let x := p.2.loadAcc r.g [] true a
    let m := Mask.bit a.lane
    let old := leNat x.2.bytes
    let g := r.g.saw m x.2
    let g := if k.acq then g.acquires x.1 k.sc m a x.2 else g
    let s := if k.acq then x.1.depends g k.sc [a] else x.1
    let r := { r with s := s, g := g, olds := r.olds ++ [(a.lane, old)], pois := if x.2.pois.isEmpty then r.pois else r.pois ++ [(m, a, x.2)] }
    match new a.lane old, a.chunks with
    | some n, c :: _ => atomStore k k.rel r a.lane c (leBytes (memBytes k.ty) n)
    | _, _ => r

/-- What a retirement fault of an atomic leaves (R147, R148, R410): the other lanes keep their effects and move on; the refused lanes
stand at the instruction. -/
def atomFault (v : Served) (r : AtomRun) (g : Group) (c ad : Nat) : Res :=
  let stay := Mask.ofLanes (r.bad.map Prod.fst)
  let h := { g with arch := g.arch.setPcs (v.run &&& ~~~stay &&& ~~~g.arch.parked) fun _ => nextPc v.pc }
  .partly r.s h ⟨c, v.pc, Mask.ofLanes ((r.bad.filter fun b => b.2.1 = c).map Prod.fst), BitVec.ofNat 64 ad, 0⟩

/-- An atomic at its place (R145): it waits for locked lines, for widening and for ownership, then runs through its lanes. -/
def atomBody (v : Served) (s : State) (k : AtomKind) (d : Opd) (new : Nat → Nat → Option Nat) (l : List Acc) : Res :=
  let lines := (l.flatMap Acc.lines).filter fun x => x.2.cacheable
  if s.lockedOut v.g l then .wait (s.retranslate v.g l) v.run
  else
    match if k.acq then acquireCheck s v.g k.sc (l.map fun a => (Mask.bit a.lane, a)) else .go with
    | .wait t => .wait t v.run
    | .trap m a => .trap s v.g ⟨0x08, v.pc, m, BitVec.ofNat 64 a, 0⟩
    | .go =>
      if !(lines.all fun x => s.coh.owns v.g.core x.1) then
        .wait (lines.foldl (fun s x => s.request v.g.core x.1 true (ptePriv x.2.pte && !(s.coh.line x.1).published)) s) v.run
      else
        let r := l.foldl (atomLane k new) ⟨if k.acq then s.consult v.g l else s, v.g, [], [], []⟩
        let coh := lines.foldl (fun c x => c.setLine { c.line x.1 with state := .m }) r.s.coh
        poisoned { v with g := v.g } { s with fresh := r.s.fresh } r.g r.pois fun t =>
          let u := { r.s with dev := t.dev, coh := coh }
          let done := v.act &&& ~~~(Mask.ofLanes (r.bad.map Prod.fst))
          let g := { r.g with arch := writeDst r.g.arch k.ty.wide d done fun L => extend k.ty ((assoc r.olds L).getD 0) }
          match r.bad with
          | [] => .done u g 0
          | (_, c, ad) :: _ => atomFault v { r with s := u } g c ad

/-- ATOM (R283). -/
def execAtom (c : Ctl) (op : RedOp) (ord : Ordering) (scope : Scope) (sp : Space) (ty : Ty) (d a b opnd : Opd) (s : State) : Out_ :=
  serveCommit (.atom c op ord scope sp ty d a b opnd) c s fun v =>
    let k : AtomKind := ⟨some op, ord == .acquire || ord == .acqRel, ord == .release || ord == .acqRel, scope, ty⟩
    memBody v s .atomic sp (memBytes ty) (memBytes ty) (addrSum v.g.arch (memBytes ty) a b .none) (atomOk (some op) ty) fun s w l =>
      atomBody w s k d (fun L old => some (atomNew v.g.arch op ty old (memVal v.g.arch ty opnd L % 2 ^ ty.bits))) l

/-- ACAS (R283): an acquire, and a release when its comparison succeeds. -/
def execAcas (c : Ctl) (scope : Scope) (sp : Space) (ty : Ty) (d a b cmp : Opd) (s : State) : Out_ :=
  serveCommit (.acas c scope sp ty d a b cmp) c s fun v =>
    let k : AtomKind := ⟨none, true, true, scope, ty⟩
    memBody v s .atomic sp (memBytes ty) (memBytes ty) (addrSum v.g.arch (memBytes ty) a b .none) (atomOk none ty) fun s w l =>
      atomBody w s k d (fun L old =>
        if old = readBits v.g.arch ty cmp L then some (readBits v.g.arch ty ((acasNew ty cmp).getD .none) L) else none) l

end Sys2Proof.Machine
end

