-- ==== Sys2Proof/Machine/Queue.lean ====
section
/-! DEFINITION. Machine/Queue.lean: circular buffers (R105, R128 to R130, R382 to R384) and QCFG, QACQ, QCOMMIT, QWAIT and QFREE.

Ring positions count on past S, position p standing for slot p mod S. Positions from `free` to `cons` are with consumers, from
`cons` to `fill` are filled, from `fill` to `prod` are with producers, and the rest are free (R128, R129). -/

namespace Sys2Proof.Machine

/-! ## A buffer -/

/-- Fields of a descriptor (Table 26-3). -/
def descS (d : Nat) : Nat := bitsOf d 53 48 + 1
def descSlot (d : Nat) : Nat := bitsOf d 47 32 * 64
def descBase (d : Nat) : Nat := bitsOf d 31 0
def descCons (d : Nat) : Nat := bitsOf d 63 61
def descProd (d : Nat) : Nat := bitsOf d 60 58
def descSpace (d : Nat) : Nat := bitsOf d 57 56

/-- The slot count, and the state of the slot at a ring position. -/
def Queue.size (q : Queue) : Nat := descS q.desc.toNat
def Queue.at_ (q : Queue) (p : Nat) : SlotState := q.slots.getD (p % q.size) .free
def Queue.put (q : Queue) (p : Nat) (x : SlotState) : Queue := { q with slots := q.slots.set (p % q.size) x }

/-- Ring positions from one up to another. -/
def span (a b : Nat) : List Nat := (List.range (b - a)).map fun i => a + i

/-- Slots that a restart has returned to producers, and to consumers. -/
def Queue.backFree (q : Queue) : List Nat := (span q.fill q.prod).filter fun p => q.at_ p == .returnedFree
def Queue.backFilled (q : Queue) : List Nat := (span q.free q.cons).filter fun p => q.at_ p == .returnedFilled

/-- The free, filled and held counts (R128). -/
def Queue.f (q : Queue) : Nat := q.size - (q.prod - q.free) + q.backFree.length
def Queue.n (q : Queue) : Nat := (q.fill - q.cons) + q.backFilled.length
def Queue.h (q : Queue) : Nat := q.size - q.f - q.n

/-- N advances over committed slots in ring order (R129); one that a group has taken ahead of its release is with that consumer. -/
def Queue.advanceN : Nat → Queue → Queue
  | 0, q => q
  | k + 1, q =>
    if q.fill < q.prod ∧ q.at_ q.fill = .committed then
      Queue.advanceN k { q.put q.fill ((assoc q.ahead q.fill).elim .filled .waited) with fill := q.fill + 1, ahead := assocDel q.ahead q.fill }
    else q

/-- F advances over freed slots in ring order (R129); one that a group has acquired ahead of its release is with that producer. -/
def Queue.advanceF : Nat → Queue → Queue
  | 0, q => q
  | k + 1, q =>
    if q.free < q.cons ∧ q.at_ q.free = .freed then
      let p := q.free + q.size
      Queue.advanceF k { q.put q.free ((assoc q.early p).elim .free .acquired) with free := q.free + 1, early := assocDel q.early p }
    else q

/-- The ring position from which the next producer gets `n` slots (R128): the first returned slot, else the next one. None while it
waits. -/
def Queue.canAcquire (q : Queue) (n : Nat) : Option Nat :=
  let i := q.backFree.headD q.prod
  if (span i (i + n)).all fun p => if p < q.prod then q.at_ p == .returnedFree else decide (p < q.free + q.size) then some i else none

/-- The ring position from which the next consumer gets `n` slots (R128). -/
def Queue.canTake (q : Queue) (n : Nat) : Option Nat :=
  let i := q.backFilled.headD q.cons
  if (span i (i + n)).all fun p => if p < q.cons then q.at_ p == .returnedFilled else decide (p < q.fill) then some i else none

/-- Slots are with a producer, and with a consumer: those that it alone sees to be free, or filled, once that is so for all (R128). -/
def Queue.holdAcq (q : Queue) (g : GroupKey) (i n : Nat) : Queue :=
  { (span i (i + n)).foldl (fun x p =>
      if p < q.free + q.size then x.put p (.acquired g) else { x with early := (p, g) :: x.early }) q with prod := max q.prod (i + n) }
def Queue.holdWait (q : Queue) (g : GroupKey) (i n : Nat) : Queue :=
  { (span i (i + n)).foldl (fun x p =>
      if p < q.fill then x.put p (.waited g) else { x with ahead := (p, g) :: x.ahead }) q with cons := max q.cons (i + n) }

/-- Hand `n` slots to a consumer that sees what all see: from which position, and the buffer after. -/
def Queue.take (q : Queue) (g : GroupKey) (n : Nat) : Option (Nat × Queue) := (q.canTake n).map fun i => (i, q.holdWait g i n)

/-- The positions a group holds in a role, in ring order. -/
def Queue.heldAcq (q : Queue) (g : GroupKey) : List Nat := (span q.fill q.prod).filter fun p => q.at_ p == .acquired g
def Queue.heldWait (q : Queue) (g : GroupKey) : List Nat := (span q.free q.cons).filter fun p => q.at_ p == .waited g

/-- Commit the `n` oldest slots a producer holds, or free those a consumer holds (Table 10-3). -/
def Queue.commit (q : Queue) (g : GroupKey) (n : Nat) : Queue :=
  Queue.advanceN q.size (((q.heldAcq g).take n).foldl (fun q p => q.put p .committed) q)
def Queue.release (q : Queue) (g : GroupKey) (n : Nat) : Queue :=
  Queue.advanceF q.size (((q.heldWait g).take n).foldl (fun q p => q.put p .freed) q)

/-- Commit or free the slot at a ring position: an engine command's (Table 10-3), or an operation's (R112). -/
def Queue.commitSlot (q : Queue) (p : Nat) : Queue := Queue.advanceN q.size (q.put p .committed)
def Queue.freeSlot (q : Queue) (p : Nat) : Queue := Queue.advanceF q.size (q.put p .freed)

/-- Return slots that a restart takes back from a producer or a consumer (R69, R128): those that it alone saw to be free, or filled, have
never been handed out to any other eye. -/
def Queue.unacquire (q : Queue) (i n : Nat) : Queue :=
  let gone := (span i (i + n)).filter fun p => (assoc q.early p).isSome
  { ((span i (i + n)).filter fun p => !gone.contains p).foldl (fun q p => q.put p .returnedFree) q with
    early := q.early.filter fun e => !gone.contains e.1
    prod := gone.headD q.prod }
def Queue.untake (q : Queue) (i n : Nat) : Queue :=
  let gone := (span i (i + n)).filter fun p => (assoc q.ahead p).isSome
  { ((span i (i + n)).filter fun p => !gone.contains p).foldl (fun q p => q.put p .returnedFilled) q with
    ahead := q.ahead.filter fun e => !gone.contains e.1
    cons := gone.headD q.cons }

/-- What a staged effect of a group does to a buffer. -/
def Effect.onQueue (e : Effect) (g : GroupKey) (q : Nat) (x : Queue) : Queue :=
  match e.kind with
  | .qcommit id q' n => if id = x.id ∧ q' = q then x.commit g n else x
  | .qfree id q' n => if id = x.id ∧ q' = q then x.release g n else x
  | .slotCommit id q' p => if id = x.id ∧ q' = q then x.commitSlot p else x
  | .slotFree id q' p => if id = x.id ∧ q' = q then x.freeSlot p else x
  | _ => x

/-- A buffer as a group sees it: its own staged commits and frees have come about (R128). -/
def Group.sees (g : Group) (q : Nat) (x : Queue) : Queue := g.staged.foldl (fun x e => e.onQueue g.key q x) x

/-- Hand `n` slots of buffer `q` to a group as a producer or as a consumer (R128): the first one's ring position, and the buffer after. -/
def Group.acquireOf (g : Group) (q : Nat) (x : Queue) (n : Nat) : Option (Nat × Queue) :=
  ((g.sees q x).canAcquire n).map fun i => (i, x.holdAcq g.key i n)
def Group.takeOf (g : Group) (q : Nat) (x : Queue) (n : Nat) : Option (Nat × Queue) :=
  ((g.sees q x).canTake n).map fun i => (i, x.holdWait g.key i n)

/-- What the releases of an effect give, all together. -/
def Effect.gives (e : Effect) : View := e.rels.foldl (fun v r => View.join v r.view) []

/-- What a consumer of buffer `q` acquires, and what a producer does (R129, R384): what the releases of its slots have given, the group's own
staged ones among them. -/
def Group.filledView (g : Group) (q : Nat) (x : Queue) : View :=
  g.staged.foldl (fun v e => match e.kind with
    | .qcommit id q' _ => if id = x.id ∧ q' = q then View.join v e.gives else v
    | .slotCommit id q' _ => if id = x.id ∧ q' = q then View.join v (g.done e.cls) else v
    | _ => v) x.view
def Group.freedView (g : Group) (q : Nat) (x : Queue) : View :=
  g.staged.foldl (fun v e => match e.kind with
    | .qfree id q' _ => if id = x.id ∧ q' = q then View.join v e.gives else v
    | .slotFree id q' _ => if id = x.id ∧ q' = q then View.join v (g.done e.cls) else v
    | _ => v) x.back

/-! ## Configuration -/

/-- The combinations of QCFG that are legal (R382). -/
def descOk (d : Nat) : Bool :=
  let c := descCons d
  let p := descProd d
  bitsOf d 55 54 == 0 && decide (1 ≤ bitsOf d 47 32) && decide (bitsOf d 47 32 ≤ 8192) && descBase d % 64 == 0 && decide (c ≤ 3) &&
    (p == 0 || p == 1 || p == 3) &&
    match descSpace d with
    | 0 => c != 2
    | 1 => p != 0 && c == 2
    | 2 => p == 0 && c == 0
    | _ => false

/-- The ring lies within the allotment of its space (R382, Table 10-1). -/
def ringFits (s : State) (g : Group) (d : Nat) : Bool :=
  let len := descS d * descSlot d
  let base := descBase d
  match descSpace d with
  | 0 => decide (base + len ≤ s.allot g)
  | 1 => decide (base + len ≤ ((s.team? g.key.team).map fun t => t.blk.opbuf).getD 0)
  | _ => decide (base < 2 ^ 28) && bitsOf base 23 18 == 0 && decide (bitsOf base 27 24 < s.rankCount g) &&
      decide (bitsOf base 17 0 + len ≤ s.allot g)

/-- The valid reservation that holds every slot of a ring (R105). -/
def Rank.binds (r : Rank) (d : Nat) : Option Nat :=
  (r.b.find? fun b => decide (b.2.off ≤ descBase d) && decide (descBase d + descS d * descSlot d ≤ b.2.off + b.2.len)).map Prod.fst

/-- A buffer as a QCFG leaves it (R382). -/
def Queue.fresh (id : Nat) (d : Dword) (bound : Option Nat) : Queue := ⟨id, d, List.replicate (descS d.toNat) .free, 0, 0, 0, 0, [], [], bound, [], []⟩

/-- A buffer of a core rank. -/
def Rank.queue? (r : Rank) (q : Nat) : Option Queue := assoc r.q q
def Rank.setQueue (r : Rank) (q : Nat) (x : Queue) : Rank := { r with q := assocPut r.q q x }

/-- QCFG (R382, R130). -/
def execQcfg (c : Ctl) (q desc : Opd) (s : State) : Out_ :=
  serve (.qcfg c q desc) c s fun v =>
    let d := readRaw v.g.arch true desc 0
    let r := s.rankOf v.g.key.team v.g.rank
    let bound := if descSpace d.toNat = 1 then r.binds d.toNat else none
    let put := fun x => s.updRank v.g.key.team v.g.rank fun r => r.setQueue (objNo q) x
    let new := s.updRank v.g.key.team v.g.rank fun r => { r.setQueue (objNo q) (Queue.fresh r.nextId d bound) with nextId := r.nextId + 1 }
    let g := v.g.noting (.queue (objNo q) (r.queue? (objNo q)))
    if !descOk d.toNat then v.trap s 0x02 v.act 0
    else if !ringFits s v.g d.toNat then v.trap s 0x06 v.act (descBase d.toNat)
    else
      match r.queue? (objNo q) with
      | some x =>
        if x.desc = d then (if x.bound.isNone then .done (put { x with bound := bound }) g 0 else .done s v.g 0)
        else if (v.g.sees (objNo q) x).h ≠ 0 ∨ (v.g.sees (objNo q) x).n ≠ 0 then v.trap s 0x0E v.act (objNo q)
        else .done new g 0
      | none => .done new g 0

/-! ## The lane path's instructions -/

/-- A buffer whose class for a role is the lane path's, with `n` from 1 to S; otherwise trap 0x0E (R130). -/
def queueBody (v : Served) (s : State) (q n : Opd) (producer : Bool) (body : Queue → Nat → Res) : Res :=
  let k := read32 v.g.arch n 0
  match (s.rankOf v.g.key.team v.g.rank).queue? (objNo q) with
  | none => v.trap s 0x0E v.act (objNo q)
  | some x =>
    let cls := if producer then descProd x.desc.toNat else descCons x.desc.toNat
    if cls ≠ 0 ∨ k = 0 ∨ x.size < k then v.trap s 0x0E v.act (objNo q) else body x k

/-- The scope of a buffer's releases and acquires: core, or cluster for SPACE 2 (R384). -/
def Queue.scope (q : Queue) : Scope := if descSpace q.desc.toNat = 2 then .cluster else .core

/-- QACQ (Table 10-3, R383, R384): waits while too few slots are free; the slots are reserved at execution. It acquires for every thread of
the group, as its slots are the group's. -/
def execQacq (c : Ctl) (d q n : Opd) (s : State) : Out_ :=
  serve (.qacq c d q n) c s fun v =>
    queueBody v s q n true fun x k =>
      match v.g.acquireOf (objNo q) x k with
      | none => .wait s v.run
      | some (i, x') =>
        let g := (v.g.acquire v.g.lanes (v.g.freedView (objNo q) x)).stage s.now 0 (.qacq x.id (objNo q) i k) []
        .done (s.updRank v.g.key.team v.g.rank fun r => r.setQueue (objNo q) x')
          { g with arch := writeDst g.arch true d v.act fun _ => BitVec.ofNat 64 (i % x.size) } 0

/-- QWAIT (Table 10-3, R383, R384). -/
def execQwait (c : Ctl) (d q n : Opd) (s : State) : Out_ :=
  serve (.qwait c d q n) c s fun v =>
    queueBody v s q n false fun x k =>
      match v.g.takeOf (objNo q) x k with
      | none => .wait s v.run
      | some (i, x') =>
        let g := (v.g.acquire v.g.lanes (v.g.filledView (objNo q) x)).stage s.now 0 (.qwait x.id (objNo q) i k) []
        .done (s.updRank v.g.key.team v.g.rank fun r => r.setQueue (objNo q) x')
          { g with arch := writeDst g.arch true d v.act fun _ => BitVec.ofNat 64 (i % x.size) } 0

/-- QCOMMIT (Table 10-3, R384): staged; a release, after what an XFENCE has ordered before class 0 (R185), of what the group's threads have done, the inactive ones among them: the stores to the slots
may be theirs. -/
def execQcommit (c : Ctl) (q n : Opd) (s : State) : Out_ :=
  serve (.qcommit c q n) c s fun v =>
    queueBody v s q n true fun x k =>
      if ((v.g.sees (objNo q) x).heldAcq v.g.key).length < k then v.trap s 0x0E v.act (objNo q)
      else
        match xgate s v.g 0 v.seq with
        | none => .wait s v.run
        | some g => .done s (g.stage s.now 0 (.qcommit x.id (objNo q) k) (g.releases s (some x.scope) g.lanes)) 0

/-- QFREE (Table 10-3, R384): a release as QCOMMIT is. -/
def execQfree (c : Ctl) (q n : Opd) (s : State) : Out_ :=
  serve (.qfree c q n) c s fun v =>
    queueBody v s q n false fun x k =>
      if ((v.g.sees (objNo q) x).heldWait v.g.key).length < k then v.trap s 0x0E v.act (objNo q)
      else
        match xgate s v.g 0 v.seq with
        | none => .wait s v.run
        | some g => .done s (g.stage s.now 0 (.qfree x.id (objNo q) k) (g.releases s (some x.scope) g.lanes)) 0

end Sys2Proof.Machine
end

