-- ==== Sys2Proof/Machine/Box.lean ====
section
/-! DEFINITION. Machine/Box.lean: shape records (R131, R132) with KLD and KSET (R341, R342), CBLD (R298, R299), and the acceptance of
TLD, TST, GATH and SCAT (R127, R133, R134, R323 to R325, R387, R388). What an accepted command does is in Engine.lean. -/

namespace Sys2Proof.Machine

/-! ## Shape records -/

/-- A field of a 128-byte image (Table 10-4). -/
def recField (r : List Byte) (a n : Nat) : Nat := leNat ((r.drop a).take n)

def recBase (r : List Byte) : Nat := recField r 0 8
def recTy (r : List Byte) : Nat := bitsOf (recField r 8 4) 4 0
def recRank (r : List Byte) : Nat := bitsOf (recField r 8 4) 10 8
def recSkip (r : List Byte) : Bool := (recField r 8 4).testBit 12
def recPerm (r : List Byte) : Nat := bitsOf (recField r 8 4) 18 16
def recFill (r : List Byte) : Nat := recField r 12 4
def recDim (r : List Byte) (d : Nat) : Nat := recField r (16 + 4 * d) 4
def recBox (r : List Byte) (d : Nat) : Nat := recField r (86 + 2 * d) 2
def recStride (r : List Byte) (d : Nat) : Int :=
  let x := recField r (44 + 6 * d) 6
  if x < 2 ^ 47 then x else (x : Int) - 2 ^ 48

/-- Bits of a type's element, and the elements that a box moves together: a whole group of a sub-byte type (R86, R133). -/
def codeBits (t : Nat) : Nat := ((Ty.ofCode t).getD .n8).bits
def codeGrain (t : Nat) : Nat := if codeBits t = 6 then 4 else if codeBits t = 4 then 8 else 1

/-- Bytes of what a box moves together. -/
def codeUnit (t : Nat) : Nat := codeBits t * codeGrain t / 8

/-- A record is one that R132 admits. -/
def recOk (r : List Byte) : Bool :=
  let k := recRank r
  let g := codeGrain (recTy r)
  let ds := List.range 7
  r.length == 128 && recField r 100 28 == 0 && bitsOf (recField r 8 4) 7 5 == 0 && bitsOf (recField r 8 4) 11 11 == 0 &&
    bitsOf (recField r 8 4) 15 13 == 0 && bitsOf (recField r 8 4) 31 19 == 0 && decide (recBase r < 2 ^ 57) &&
    decide (recTy r ≤ 19) && decide (1 ≤ k) && decide (recPerm r < 6) &&
    (ds.all fun d => recDim r d != 0 && recBox r d != 0 && (decide (d < k) || (recDim r d == 1 && recBox r d == 1 && recStride r d == 0))) &&
    recDim r 0 % g == 0 && recBox r 0 % g == 0 && ds.all fun d => recStride r d % (g : Int) == 0

/-- A shape register of a core rank. -/
def State.shape? (s : State) (g : Group) (k : Nat) : Option (List Byte) := assoc (s.rankOf g.key.team g.rank).k k
def State.setShape (s : State) (g : Group) (k : Nat) (x : List Byte) : State :=
  s.updRank g.key.team g.rank fun r => { r with k := assocPut r.k k x }

/-- KLD (R341). -/
def execKld (c : Ctl) (k addr : Opd) (s : State) : Out_ :=
  serve (.kld c k addr) c s fun v =>
    memBody v s .read .glob 128 128 (fun L => (baseTerm v.g.arch addr L).toNat) (fun _ => none) fun s v l =>
      loadBody v s true l fun s g r =>
        let x := (gotFor r ((v.act.low?).getD 0)).bytes
        if recOk x then .done (s.setShape v.g (objNo k) x) (g.noting (.shape (objNo k) (s.shape? v.g (objNo k)))) 0 else v.trap s 0x02 v.act 0

/-- The field of a selector (Table 25-2): where it stands, its bytes, and whether it is signed. -/
def selField (n : Nat) : Option (Nat × Nat × Bool) :=
  if n = 0 then some (0, 8, false)
  else if n = 1 then some (8, 4, false)
  else if n = 2 then some (12, 4, false)
  else if n < 10 then some (16 + 4 * (n - 3), 4, false)
  else if n < 17 then some (44 + 6 * (n - 10), 6, true)
  else if n < 24 then some (86 + 2 * (n - 17), 2, false)
  else none

/-- A record with a field replaced; none where sVal has bits outside it (R342). -/
def recSet (r : List Byte) (n : Nat) (x : Dword) : Option (List Byte) :=
  match selField n with
  | none => none
  | some (a, w, signed) =>
    let fits := if w = 8 then true
      else if signed then x == (x.setWidth 48).signExtend 64
      else decide (x.toNat < 2 ^ (8 * w))
    if fits then some (r.take a ++ leBytes w x.toNat ++ r.drop (a + w)) else none

/-- KSET (R342). -/
def execKset (c : Ctl) (k sel val : Opd) (s : State) : Out_ :=
  serve (.kset c k sel val) c s fun v =>
    match s.shape? v.g (objNo k) with
    | none => v.trap s 0x0C v.act 0
    | some r =>
      match recSet r (immVal sel).toNat (readRaw v.g.arch true val 0) with
      | some x => if recOk x then .done (s.setShape v.g (objNo k) x) (v.g.noting (.shape (objNo k) (some r))) 0 else v.trap s 0x02 v.act 0
      | none => v.trap s 0x02 v.act 0

/-! ## Codebooks -/

/-- An issued operation of a core rank reads a codebook slot (R112, R298). -/
def Rank.readsSlot (r : Rank) (n : Nat) : Bool :=
  r.ops.any fun o => o.signs.any fun x => match x.word with
    | .tmac _ _ _ _ bq _ _ _ =>
      let b := match bq with
        | .breg b => some b.val
        | .qreg q => (r.queue? q.val).bind Queue.bound
        | _ => none
      (b.bind fun b => assoc r.b b).any fun z => bitsOf z.fmt.toNat 4 0 == 19 && bitsOf z.fmt.toNat 55 48 == n
    | _ => false

/-- Physical codebook slots in use on a core, over its teams (R299). -/
def State.cbUsed (s : State) (c : CoreId) : Nat :=
  (s.teams.filter fun t => t.status != .saved).foldl (fun n t => (List.range t.ranks.length).foldl (fun n r => if t.cores.getD r default = c then n + (t.ranks.getD r default).cb.length else n) n) 0

/-- CBLD (R298, R299). -/
def execCbld (c : Ctl) (slot addr : Opd) (s : State) : Out_ :=
  serve (.cbld c slot addr) c s fun v =>
    let n := read32 v.g.arch slot 0
    let r := s.rankOf v.g.key.team v.g.rank
    if 63 < (readRaw v.g.arch true slot 0).toNat then v.trap s 0x02 v.act 0
    else
      memBody v s .read .glob 32 32 (fun L => (baseTerm v.g.arch addr L).toNat) (fun _ => none) fun s v l =>
        if r.readsSlot n then .wait s v.run
        else if (assoc r.cb n).isNone ∧ 64 ≤ s.cbUsed v.g.core then v.trap s 0x0C v.act 0
        else
          loadBody v s true l fun s g x =>
            .done (s.updRank v.g.key.team v.g.rank fun r => { r with cb := assocPut r.cb n (gotFor x ((v.act.low?).getD 0)).bytes })
              (g.noting (.book n (assoc r.cb n))) 0

/-! ## Boxes -/

/-- Digits of a number in a base, summed (R127). -/
def digitSum (b : Nat) : Nat → Nat → Nat
  | 0, _ => 0
  | k + 1, n => n % b + digitSum b k (n / b)

/-- The permuted offset of a dense byte offset (Table 10-2). -/
def permOff (perm rowlen o : Nat) : Nat :=
  let skew := fun (x : Nat) => 256 * (o / 256) + 4 * ((o / 4 % 64 + x) % 64) + o % 4
  match perm with
  | 1 | 2 | 3 =>
    let n := 32 * 2 ^ (perm - 1)
    rowlen * (o / rowlen) + ((o % rowlen) ^^^ (n * (o / rowlen % (min 256 rowlen / n))))
  | 4 => skew (digitSum 4 32 (o / 256))
  | 5 => skew (digitSum 8 32 (o / 256))
  | _ => o

/-- The box positions of dimensions 1 to 6 in dense order, as lists (b1 … b6). -/
def boxRows (r : List Byte) : List (List Nat) :=
  (List.range 6).foldr (fun d l => l.flatMap fun t => (List.range (recBox r (d + 1))).map fun b => (d, b) :: t) [([] : List (Nat × Nat))]
    |>.map fun l => l.map Prod.snd

/-- One thing a box moves: its dense offset, and its address when it lies in bounds (R133, R324). -/
structure Unit_ where
  off : Nat
  va  : Option Nat

/-- The dimension-1 coordinate of a row (R133, R324). -/
def rowCoord (coords : List Int) (list : Option (List Int)) (b1 : Nat) : Int :=
  match list with
  | some l => coords.getD 1 0 + l.getD b1 0
  | none => coords.getD 1 0 + b1

/-- What a box moves, in ascending dense offset (R133). -/
def boxUnits (r : List Byte) (coords : List Int) (list : Option (List Int)) : List Unit_ :=
  let t := recTy r
  let g := codeGrain t
  let u := codeUnit t
  let n0 := recBox r 0 / g
  let rows := boxRows r
  (rows.zipIdx).flatMap fun x =>
    let c := (List.range 6).map fun i =>
      if i = 0 then rowCoord coords list (x.1.getD 0 0) else coords.getD (i + 1) 0 + (x.1.getD i 0 : Int)
    let inRow := (List.range 6).all fun i => decide (recRank r ≤ i + 1) || (decide (0 ≤ c.getD i 0) && decide (c.getD i 0 < recDim r (i + 1)))
    let e0 := (List.range 6).foldl (fun s i => s + c.getD i 0 * recStride r (i + 1)) (0 : Int)
    (List.range n0).map fun i =>
      let c0 := coords.getD 0 0 + (i * g : Nat)
      let e := e0 + c0 * recStride r 0
      let va := ((recBase r : Int) + e * codeBits t / 8) % 2 ^ 64
      ⟨u * (i + n0 * x.2), if inRow && decide (0 ≤ c0) && decide (c0 < recDim r 0) then some va.toNat else none⟩

/-- Bytes of a box image, and of one of its rows. -/
def boxRow (r : List Byte) : Nat := recBox r 0 / codeGrain (recTy r) * codeUnit (recTy r)
def boxBytes (r : List Byte) : Nat := (List.range 6).foldl (fun n d => n * recBox r (d + 1)) (boxRow r)

/-- The fill of one unit (Table 10-4): the low bits of FILL, once for each element of a group. -/
def fillUnit (r : List Byte) : List Byte :=
  let t := recTy r
  let x := recFill r % 2 ^ codeBits t
  leBytes (codeUnit t) ((List.range (codeGrain t)).foldl (fun n i => n + x * 2 ^ (i * codeBits t)) 0)

/-- The coordinates a command reads (R133): none where the scalars run out, an extension is bad, or a group is split. -/
def boxCoords (g : Group) (r : List Byte) (co : Nat) : Option (List Int) :=
  let xs := (List.range (recRank r)).map fun i => g.arch.sreg (co + i)
  if g.ns < co + recRank r then none
  else if !xs.all fun x => x == (x.setWidth 32).signExtend 64 then none
  else
    let c := xs.map BitVec.toInt
    if c.getD 0 0 % (codeGrain (recTy r) : Int) = 0 then some (c ++ List.replicate (7 - recRank r) 0) else none

/-- The permutation's conditions on the image (R127); no permutation for the operand buffer. -/
def permFits (r : List Byte) (perm : Nat) : Bool :=
  match perm with
  | 1 | 2 | 3 => boxRow r % (32 * 2 ^ (perm - 1)) == 0
  | 4 | 5 => boxBytes r % 256 == 0
  | _ => true

/-- What a box command is: its class, whether it writes its target, and whether it takes an index list. -/
structure BoxKind where
  cls  : Nat
  kind : CmdKind
  prod : Bool
  gath : Bool

/-- The probe of a box's elements (R50, R134): translated elements, the pages that are missing, or a fault and its address. -/
structure BoxProbe where
  elems : List Elem
  trans : List Phys
  bad   : Option (Nat × Nat)
  miss  : Option (Nat × Nat)      -- address and page

/-- Bytes of a unit as runs within pages. -/
def unitRuns (va n : Nat) : List (Nat × Nat × Nat) :=
  let k := min n (4096 - va % 4096)
  if k = n then [(0, va, n)] else [(0, va, k), (k, va + k, n - k)]

/-- Probe the units of a box (R50, R161, R388). -/
def boxProbe (s : State) (g : Group) (k : BoxKind) (size align : Nat) (us : List Unit_) : BoxProbe :=
  let c := (s.ctxOf g).getD default
  let look := probeWalk s g.key.team.part c (if k.prod then .engine else .write)
  let worse := fun (o : Option (Nat × Nat)) (x : Nat × Nat) => match o with
    | some y => if x.1 < y.1 then some x else some y
    | none => some x
  us.foldl (fun b u =>
    match u.va with
    | none => { b with elems := b.elems ++ [⟨u.off, size, none, 0, 0⟩] }
    | some a =>
      if a % align ≠ 0 then { b with bad := worse b.bad (0x05, a) }
      else if 2 ^ 57 < a + size then { b with bad := worse b.bad (0x06, a) }
      else (unitRuns a size).foldl (fun b r =>
        match look r.2.1 with
        | .absent p => { b with miss := some (b.miss.getD (a, p)) }
        | .forbid => { b with bad := worse b.bad (0x06, a) }
        | .ok p =>
          let b := if (linesOf p.pa r.2.2).any fun l => escapes s g.key.team.part g.ctx (some g.key.team) { p with pa := l } then
              { b with bad := worse b.bad (0x07, a) } else b
          { b with elems := b.elems ++ [⟨u.off + r.1, r.2.2, some p.pa, p.pte, r.2.1⟩]
                   trans := if b.trans.any fun q => q.base == p.base then b.trans else p :: b.trans }) b) ⟨[], [], none, none⟩

/-- Translation-spill entries that a core's commands use (R134). -/
def State.spillUsed (s : State) (c : CoreId) : Nat :=
  s.groups.foldl (fun n g => if g.core = c then n + (g.cmds.map Cmd.spill).foldl (· + ·) 0 else n) 0

/-- Where a command's image stands (R323, R387): the buffer with its slot taken, or the own scratchpad. -/
structure BoxTarget where
  s    : State
  tgt  : Target
  base : Nat
  slot : Option (Nat × Nat)
  view : View

/-- Take a box command's target (R130, Table 10-3): none while a buffer has no slot for it. -/
def boxTarget (v : Served) (s : State) (k : BoxKind) (r : List Byte) (t : Opd) : Except Res BoxTarget :=
  let fault := v.trap s 0x0E v.act (objNo t)
  match t with
  | .qreg q =>
    match (s.rankOf v.g.key.team v.g.rank).queue? q.val with
    | none => .error fault
    | some x =>
      let d := x.desc.toNat
      if (if k.prod then descProd d else descCons d) ≠ k.cls ∨ boxBytes r ≠ descSlot d then .error fault
      else
        match if k.prod then v.g.acquireOf q.val x 1 else v.g.takeOf q.val x 1 with
        | none => .error (.wait s v.run)
        | some (i, x') =>
          let base := descBase d + descSlot d * (i % x.size)
          if descSpace d ≠ 1 ∧ recPerm r ≠ 0 ∧ base % 256 ≠ 0 then .error (v.trap s 0x05 v.act base)
          else .ok ⟨s.updRank v.g.key.team v.g.rank fun r => r.setQueue q.val x', if descSpace d = 1 then .opbuf v.g.rank else .scr v.g.rank,
            base, some (q.val, i), if k.prod then v.g.freedView q.val x else v.g.filledView q.val x⟩
  | t => .ok ⟨s, .scr v.g.rank, (readRaw v.g.arch true t 0).toNat, none, []⟩

/-- Accept a box command whose elements have been probed (R343): it takes its slot, its translations and its record. -/
def boxAccept (v : Served) (s : State) (k : BoxKind) (hint : BitVec 3) (r : List Byte) (t : Opd) (perm : Nat) (b : BoxProbe) : Res :=
  match boxTarget v s k r t with
  | .error e => e
  | .ok x =>
    let spill := b.trans.length - 512
    if 32768 < s.spillUsed v.g.core + spill then .wait s v.run
    else
      let el := if k.prod && !recSkip r then b.elems else b.elems.filter fun e => e.addr.isSome
      let cmd : Cmd := ⟨v.g.seq, k.cls, k.kind, codeUnit (recTy r), fillUnit r, el, x.tgt, x.base, perm, boxRow r, x.slot, v.pc, v.act, false,
        hint == 3, spill⟩
      let st := (b.trans.reverse.take 512).foldl (fun s p => s.keepIn true v.g.key.team.part v.g.ctx v.g.core p) (b.trans.foldl State.useKey x.s)
      let g := v.g.needs k.cls x.view
      .done st { g with cmds := g.cmds ++ [cmd] } 0

/-- The index list of GATH and SCAT, as the group sees it (R324). -/
def indexList (s : State) (g : Group) (off n : Nat) : List Int :=
  (List.range n).map fun i =>
    let x := s.peek g ⟨0, 0, [⟨.scr g.rank, off + 4 * i, 4, none, 0⟩]⟩
    asInt .s32 x

/-- The first entry of an index list that holds poison (R76, R405). -/
def listPoison (s : State) (g : Group) (off n : Nat) : Option Nat :=
  let t := Target.scr g.rank
  ((List.range n).map fun i => off + 4 * i).find? fun a => (List.range 4).any fun j =>
    if (g.fwdByte t (a + j)).isSome then g.fwdPois t (a + j) else (s.wordAt g.key.team t (a / 8 * 8)).pois

/-- A box command at the probe (R133, R325, R388, R410): what is wrong with its operands, then its elements. -/
def boxBody (v : Served) (s : State) (k : BoxKind) (hint : BitVec 3) (kr : Nat) (t : Opd) (co : Nat) (lo : Opd) : Res :=
  match s.shape? v.g kr with
  | none => v.trap s 0x0C v.act 0
  | some r =>
    let isQ := match t with
      | .qreg _ => true
      | _ => false
    let space := match t with
      | .qreg q => ((s.rankOf v.g.key.team v.g.rank).queue? q.val).map fun x => descSpace x.desc.toNat
      | _ => some 0
    let perm := if space = some 0 then recPerm r else 0
    let off := (readRaw v.g.arch true t 0).toNat
    let ls := (readRaw v.g.arch true lo 0).toNat
    match boxCoords v.g r co with
    | none => v.trap s 0x02 v.act 0
    | some coords =>
      if (k.gath && decide (recRank r < 2)) || !permFits r perm then v.trap s 0x02 v.act 0
      else if k.gath && ls % 4 != 0 then v.trap s 0x05 v.act ls
      else if !isQ && perm != 0 && off % 256 != 0 then v.trap s 0x05 v.act off
      else if k.gath && decide (s.allot v.g < ls + 4 * recBox r 1) then v.trap s 0x06 v.act ls
      else if !isQ && decide (s.allot v.g < off + boxBytes r) then v.trap s 0x06 v.act off
      else
        match xgate s v.g k.cls v.seq, if k.gath then listPoison s v.g ls (recBox r 1) else none with
        | none, _ => .wait s v.run
        | some _, some a => v.trap s 0x0B v.act a
        | some g, none =>
          let us := boxUnits r coords (if k.gath then some (indexList s v.g ls (recBox r 1)) else none)
          let t_ := recTy r
          let b := boxProbe s g k (codeUnit t_) (if codeGrain t_ = 4 then 1 else codeUnit t_) us
          match b.bad, b.miss with
          | _, some (a, p) =>
            let x := s.parkAll g .engine (v.act.lanes.map fun L => (L, a, p))
            .done x.1 x.2 0
          | bad, none =>
            if 32768 < b.trans.length then v.trap s 0x02 v.act 0
            else
              match bad with
              | some (0x07, a) => if g.loading v.act then .wait s v.run else v.trap s 0x07 v.act a
              | some (c, a) => v.trap s c v.act a
              | none => boxAccept { v with g := g } s k hint r t perm b

/-- TLD (R387). -/
def execTld (c : Ctl) (hint : BitVec 3) (k tgt coord : Opd) (s : State) : Out_ :=
  serve (.tld c hint k tgt coord) c s fun v => boxBody v s ⟨1, .tld, true, false⟩ hint (objNo k) tgt (sclNo coord) .none

/-- TST (R387). -/
def execTst (c : Ctl) (hint : BitVec 3) (k tgt coord : Opd) (s : State) : Out_ :=
  serve (.tst c hint k tgt coord) c s fun v => boxBody v s ⟨1, .tst, false, false⟩ hint (objNo k) tgt (sclNo coord) .none

/-- GATH (R324). -/
def execGath (c : Ctl) (hint : BitVec 3) (k tgt coord list : Opd) (s : State) : Out_ :=
  serve (.gath c hint k tgt coord list) c s fun v => boxBody v s ⟨3, .gath, true, true⟩ hint (objNo k) tgt (sclNo coord) list

/-- SCAT (R387). -/
def execScat (c : Ctl) (hint : BitVec 3) (k tgt coord list : Opd) (s : State) : Out_ :=
  serve (.scat c hint k tgt coord list) c s fun v => boxBody v s ⟨3, .scat, false, true⟩ hint (objNo k) tgt (sclNo coord) list

end Sys2Proof.Machine
end

