-- ==== Sys2Proof/Machine/Clocks.lean ====
section
/-! DEFINITION. Machine/Clocks.lean: requests, grants and the Timetable (R213 to R218), droop lowering (R74, R217), LOADSTEP
(R220), and their events. Domains: 0 MATH, 1 VEC, 2 NET, 3 MEM. -/

namespace Sys2Proof.Machine

/-- The point a request word asks for in a domain (Table 17-3, R213). -/
def reqPoint (w : Nat) (d : Nat) : Nat := if w.testBit 24 then bitsOf w (3 * d + 2) (3 * d) else Config.nominal d

/-- The domains of a request in order of importance (Table 17-3, R214). -/
def reqOrder (w : Nat) : List Nat :=
  if w.testBit 24 then (List.range 4).map fun i => bitsOf w (17 + 2 * i) (16 + 2 * i) else [0, 1, 2, 3]

/-- ORDER is a permutation (R194, R218). -/
def orderOk (w : Nat) : Bool := !w.testBit 24 || (List.range 4).all fun d => (reqOrder w).contains d

/-- A team whose groups occupy cores. -/
def Team.resident (t : Team) : Bool := t.status == .resident || t.status == .saving

/-- The cluster of a team's cores: its die and its number. -/
def Team.place? (t : Team) : Option (Nat × Nat) := t.cores.head?.map fun c => (c.die, c.cluster)

/-- Requests of a partition: by domain and place; MATH and VEC by cluster, NET and MEM by die, a die's place being (die, 0). -/
abbrev Points := List ((Nat × Nat × Nat) × Nat)

/-- The place of a domain for a cluster. -/
def domPlace (d : Nat) (p : Nat × Nat) : Nat × Nat := if d < 2 then p else (p.1, 0)

/-- The point at a place; OP0 where nothing is asked (R214). -/
def Points.at_ (l : Points) (d : Nat) (p : Nat × Nat) : Nat :=
  match l.find? fun e => e.1 = (d, (domPlace d p).1, (domPlace d p).2) with
  | some e => e.2
  | none => 0

/-- Raise the point at a place to at least `x`. -/
def Points.raise (l : Points) (d : Nat) (p : Nat × Nat) (x : Nat) : Points :=
  let k := (d, (domPlace d p).1, (domPlace d p).2)
  (k, max x (l.at_ d p)) :: l.filter fun e => e.1 ≠ k

/-- The requests of a partition's resident teams (R214). -/
def askedOf (ts : List Team) : Points :=
  ts.foldl (fun l t => match t.place? with
    | some p => (List.range 4).foldl (fun l d => l.raise d p (reqPoint t.clkreq.toNat d)) l
    | none => l) []

/-- The point of NET or MEM on a die: where the partition asks for none, the die's grant before any of its own (log 22). -/
def Points.dieAt (l : Points) (s : State) (k d : Nat) : Nat :=
  match l.find? fun e => e.1 = (k, d, 0) with
  | some e => e.2
  | none => (if k = 2 then (s.die d).net else (s.die d).mem).base

/-- OP0 in NET and MEM on every die, and so in every domain. -/
def noPoints : Points := (List.range 4).flatMap fun d => [((2, d, 0), 0), ((3, d, 0), 0)]

/-- Nine times a partition's estimated power in mW (R214): MATH and VEC by cluster, those without a resident team at OP0; static, NET and
MEM costs by the clusters held, whether or not teams are resident on them. -/
def estimate (s : State) (p : Part) (l : Points) : Nat :=
  (List.range 4).foldl (fun x d =>
    let row := fun k op => ((s.die d).costs.getD k []).getD op 0
    let cl := (List.range 9).filter (p.hasCluster d)
    x + cl.foldl (fun y c => y + 9 * (row 0 (l.at_ 0 (d, c)) + row 1 (l.at_ 1 (d, c)))) 0
      + cl.length * ((s.die d).staticMw + row 2 (l.dieAt s 2 d) + row 3 (l.dieAt s 3 d))) 0

/-- One step of a domain: one point lower everywhere it stands above OP0 (R215). DESIGN CHOICE (log 22): R215 says of MATH and VEC only that
every place of the partition is lowered at once; NET and MEM are lowered so on all its dies. -/
def Points.lower (l : Points) (d : Nat) : Points := l.map fun e => if e.1.1 = d then (e.1, e.2 - 1) else e

/-- Trim requests to a budget in W (R215): passes over the domains, least important first, stopping at the first step that fits. -/
def trim (s : State) (p : Part) (budget : Nat) (order : List Nat) : Nat → Points → Points
  | 0, l => l
  | n + 1, l =>
    let pass := order.reverse.foldl (fun (l : Points) d => if estimate s p l ≤ 9000 * budget then l else l.lower d) l
    if estimate s p pass ≤ 9000 * budget then pass else trim s p budget order n pass

/-- The dies where a partition holds clusters and asks nothing of NET or MEM, each with its grant before any lowering (log 22): they count in
the estimate, and are trimmed like a request. -/
def Points.unasked (l : Points) (s : State) (p : Part) : Points :=
  (List.range 4).flatMap fun d => if (List.range 9).any (p.hasCluster d) then
    [2, 3].filterMap fun k => if l.any fun e => e.1 == (k, d, 0) then none else some ((k, d, 0), l.dieAt s k d) else []

/-- The resident teams of a partition, highest level first and earliest start first (R205). -/
def State.ranked (s : State) (part : Nat) : List Team :=
  sortBy (fun a b => decide (a.level > b.level) || (a.level == b.level && decide (a.started ≤ b.started)))
    (s.teams.filter fun t => t.key.part = part && t.resident)

/-- The grants of a partition (R214, R215): where it asks something, and where it does not. -/
def grantsOf (s : State) (part : Nat) : Points × Points :=
  let p := s.part part
  let ts := s.ranked part
  let l := askedOf ts
  let all := match p.budget, ts with
    | some b, t :: _ => trim s p b (reqOrder t.clkreq.toNat) 8 (l ++ l.unasked s p)
    | _, _ => l
  all.partition fun e => l.any fun x => x.1 == e.1

/-- A grant computed anew: what R215 gives, less what lowerings hold back, never below OP0 (R217). It is altered by change `n` when its
target now differs from its point; a change that it had not yet taken, and now need not, alters it no more. A lowered grant stays where it
is while the grant computed changes, and is restored when that reaches it (R217). -/
def Grant.aim (g : Grant) (n base : Nat) : Grant :=
  let low := if g.low = 0 then 0 else base - (g.base - g.low)
  let h := { g with base := base, low := low, target := base - low }
  if g.target = h.target then h
  else if g.point = h.target then { h with changes := g.changes.filter Prod.snd }
  else { h with changes := (n, false) :: g.changes }

/-- A droop lowering: one point lower, but not below OP0 (R74, R217). -/
def Grant.drop (g : Grant) : Grant := { g with low := min g.base (min g.low g.base + 1) }

/-- One point of a lowering is restored (R217). -/
def Grant.lift (g : Grant) : Grant := { g with low := min g.low g.base - 1 }

/-- The grant of a domain on a cluster of a die. -/
def Die.grant (d : Die) (dom cl : Nat) : Grant :=
  match dom with
  | 0 => d.math.getD cl ⟨5, 5, [], 5, 0⟩
  | 1 => d.vec.getD cl ⟨5, 5, [], 5, 0⟩
  | 2 => d.net
  | _ => d.mem

/-- Every grant of a die. -/
def Die.grants (d : Die) : List Grant := d.math ++ d.vec ++ [d.net, d.mem]

/-- Count a change in CLKEVT, which saturates (Table 18-5). -/
def Group.countClk (g : Group) : Group := { g with clkevt := if g.clkevt.toNat < 0xFFFFFFFF then g.clkevt + 1 else g.clkevt }

/-- Change `n` still has a domain that has not taken effect. -/
def State.changing (s : State) (n : Nat) : Bool := s.dies.any fun d => d.grants.any fun g => g.changes.contains (n, false)

/-- A change that is complete is counted no more. -/
def Grant.settle (done : Nat → Bool) (g : Grant) : Grant := { g with changes := g.changes.filter fun x => !done x.1 }

/-- Count every change whose last domain has taken effect, each once in every group on an affected core (R216). -/
def State.countChanges (s : State) : State :=
  let done := fun n => !s.changing n
  let hits := fun (c : CoreId) => (((List.range 4).flatMap fun d => ((s.die c.die).grant d c.cluster).changes.map Prod.fst).filter done).eraseDups
  let groups := s.groups.map fun g => (hits g.core).foldl (fun g _ => Group.countClk g) g
  let settle := Grant.settle done
  let dies := s.dies.map fun d =>
    { d with math := d.math.map settle, vec := d.vec.map settle, net := settle d.net, mem := settle d.mem }
  { s with groups := groups, dies := dies }

/-- Cores of a die whose matrix engines are busy; of one cluster, where one is named. -/
def State.activity (s : State) (die : Nat) (cluster : Option Nat := none) : Nat :=
  s.teams.foldl (fun n t => if t.place?.any fun p => p.1 == die && cluster.all (· == p.2) then
    n + (t.ranks.filter fun r => r.ops.any MatOp.started).length else n) 0

/-- The thresholds that a number of busy engines has not fallen below. -/
def thresholdsHeld (n : Nat) : Nat := if n ≥ 108 then 3 else if n ≥ 72 then 2 else if n ≥ 36 then 1 else 0

/-- Something that a lead has announced, or announces now, is still to come. -/
def Die.announced (d : Die) : Bool := d.lead.isSome || !d.raises.isEmpty

/-- A raise of MATH that has been announced, or is being announced, and is called off again, is announced no more (R216, R220). -/
def Die.callOff (d : Die) : Die :=
  let on := fun (x : Nat × Nat) => (d.math.getD x.1 ⟨5, 5, [], 5, 0⟩).point < (d.math.getD x.1 ⟨5, 5, [], 5, 0⟩).target
  { d with raises := d.raises.filter on, lead := d.lead.map fun l => { l with raises := l.raises.filter on } }

/-- The sequence that restores a lowering (R217): it is over when every grant computed under R215 has been reached; its intervals begin when
the lowering takes effect, at once where no domain had to change. -/
def Die.settleStorm (d : Die) (now : Nat) : Die :=
  let l := d.math ++ d.vec
  { d with storm :=
      if l.all fun g => g.low == 0 then none
      else if d.storm = some none ∧ l.all fun g => g.point == g.target then some (some now) else d.storm }

/-- Activity has fallen: LOADSTEP is deasserted below the threshold (R220). -/
def State.noteStop (s : State) (die : Nat) : State :=
  let d := s.die die
  let k := min d.steps (thresholdsHeld (s.activity die))
  s.setDie die { d with
    steps := k
    loadstep := d.loadstep && (decide (0 < k) || d.announced)
    limited := d.limited && (decide (0 < k) || !d.raises.isEmpty) }

/-- Activity has fallen on every die: operations have been dropped (R68, R232, R233). -/
def State.noteStops (s : State) : State := (List.range 4).foldl State.noteStop s

/-- Recompute the grants (R215). MATH and VEC of a cluster come from its partition, NET and MEM of a die are the highest of its
partitions; a place where nothing is asked keeps its grant before any lowering, as far as budgets allow it. A lowering is taken off MATH and VEC and never below OP0 (R217). -/
def State.regrant (s : State) : State :=
  let n := s.dev.changes + 1
  let all := (List.range 16).map fun p => grantsOf s p
  let most := fun (ls : List Points) d p => ls.foldl (fun (o : Option Nat) (l : Points) =>
    match l.find? fun e => e.1 = (d, (domPlace d p).1, (domPlace d p).2) with
    | some e => some (max e.2 (o.getD 0))
    | none => o) none
  let aim := fun (g : Grant) d p => g.aim n (((most (all.map Prod.fst) d p).or (most (all.map Prod.snd) d p)).getD g.base)
  let dies := s.dies.mapIdx fun i d =>
    let math := d.math.mapIdx fun c g => aim g 0 (i, c)
    let vec := d.vec.mapIdx fun c g => aim g 1 (i, c)
    (Die.callOff { d with math := math, vec := vec, net := aim d.net 2 (i, 0), mem := aim d.mem 3 (i, 0) }).settleStorm s.now
  ({ s with dev := { s.dev with changes := n }, dies := dies } : State).countChanges.noteStops

/-- Compute the grants again once a team has left the machine (R215). -/
def State.regrantIf (s : State) (k : TeamKey) : State := if (s.team? k).isNone then s.regrant else s

/-- The number of a clock domain. -/
def domNum : Domain → Nat
  | .math => 0
  | .vec => 1
  | .net => 2
  | .mem => 3

/-- A grant takes effect. -/
def Grant.take (g : Grant) : Grant := { g with point := g.target, changes := g.changes.map fun x => (x.1, true) }

/-- A raise of a cluster's MATH clock to a point has been announced (R216, R220). -/
def Die.mayRaise (d : Die) (cluster x : Nat) : Bool := d.raises.any fun r => r.1 == cluster && decide (x ≤ r.2)

/-- The raises of MATH that wait and have not been announced, by cluster, with the point (R216, R220). -/
def Die.raising (d : Die) : List (Nat × Nat) :=
  (d.math.zipIdx.filter fun g => decide (g.1.point < g.1.target) && !d.mayRaise g.2 g.1.target).map fun g => (g.2, g.1.target)

/-- What busy engines draw at a MATH point (R220): 5.0 A each at OP5, scaled by the clock; in units of 0.1 A at 1 MHz. -/
def engineAmps (n op : Nat) : Nat := 50 * n * Config.mhz 0 op

/-- A step of current is within the 150 A that a limited step may add in any 1 µs (R220). -/
def State.admits (s : State) (die amps : Nat) : Bool :=
  let d := s.die die
  let recent := (d.admits.filter fun t => decide (s.now < t.1 + 1000)).foldl (fun n t => n + t.2) 0
  !d.limited || decide (recent + amps ≤ 1500 * 1300)

/-- Note a step of current. -/
def Die.noteStep (d : Die) (now amps : Nat) : Die :=
  { d with admits := if d.limited then (now, amps) :: d.admits.filter fun t => decide (now < t.1 + 1000) else [] }

/-- The step that a raise of a cluster's MATH clock makes. -/
def State.raiseAmps (s : State) (die cluster : Nat) (g : Grant) : Nat :=
  let n := s.activity die (some cluster)
  engineAmps n g.target - engineAmps n g.point

/-- GRANT_TAKE_EFFECT (R216): a domain's new point takes effect. A raise of MATH waits until it has been announced, and is a step of the
die's current (R220). DESIGN CHOICE (log 22): where the domains of a lowering act at different times, it has taken effect (R217) when the first
MATH or VEC domain of the die does. -/
def execGrantTakeEffect (die cluster : Nat) (dom : Domain) (s : State) : Out_ :=
  let d := s.die die
  let g := d.grant (domNum dom) cluster
  let up := dom == .math && decide (g.point < g.target)
  let step := if up then s.raiseAmps die cluster g else 0
  if g.point = g.target ∨ (up ∧ (!d.mayRaise cluster g.target ∨ !s.admits die step)) then .next s
  else
    let d := if up then d.noteStep s.now step else d
    let d := match dom with
      | .math => { d with math := d.math.modify cluster Grant.take }
      | .vec => { d with vec := d.vec.modify cluster Grant.take }
      | .net => { d with net := d.net.take }
      | .mem => { d with mem := d.mem.take }
    let d := if (dom == .math || dom == .vec) && d.storm == some none then { d with storm := some (some s.now), restartsIv := 0 } else d
    let d := d.callOff
    .next (s.setDie die { d with loadstep := d.loadstep && (decide (0 < d.steps) || d.announced) }).countChanges

/-! ## Droops (R74, R217) -/

/-- A droop or clock restart counts on a die; the 64th within 1 ms lowers MATH and VEC by one point (R74). -/
def State.countDroop (s : State) (die : Nat) : State :=
  let d := s.die die
  let l := s.now :: d.droops.filter fun t => decide (s.now < t + 1000000)
  if l.length < 64 then s.setDie die { d with droops := l, restartsIv := d.restartsIv + 1 }
  else
    let math := d.math.map Grant.drop
    let vec := d.vec.map Grant.drop
    let low := { d with droops := [], restartsIv := 0, storms := d.storms + 1, storm := some none, math := math, vec := vec }
    (s.setDie die low).regrant

/-- DROOP_RECOVERY_INTERVAL (R217): at the end of a 10 ms interval with fewer than 16 restarts MATH and VEC rise by one point. -/
def execDroopRecoveryInterval (die : Nat) (s : State) : Out_ :=
  let d := s.die die
  match d.storm with
  | some (some t) =>
    if s.now < t + 10000000 then .next s
    else
      let up := fun (g : Grant) => if d.restartsIv < 16 then g.lift else g
      let math := d.math.map up
      let vec := d.vec.map up
      .next (s.setDie die { d with restartsIv := 0, math := math, vec := vec, storm := some (some (t + 10000000)) }).regrant
  | _ => .next s

/-! ## LOADSTEP (R220) -/

/-- The thresholds of matrix activity below a number of busy engines. -/
def thresholds (n : Nat) : Nat := if n > 108 then 3 else if n > 72 then 2 else if n > 36 then 1 else 0

/-- One more engine may become busy (R220): no threshold is crossed that has not been admitted, and the rate of a limited step is
kept. -/
def State.mayStart (s : State) (die cluster : Nat) : Bool :=
  let d := s.die die
  decide (thresholds (s.activity die + 1) ≤ d.steps) && s.admits die (engineAmps 1 (d.grant 0 cluster).point)

/-- An engine becomes busy. -/
def State.noteStart (s : State) (die cluster : Nat) : State :=
  let d := s.die die
  s.setDie die (d.noteStep s.now (engineAmps 1 (d.grant 0 cluster).point))

/-- A step of activity is wanted: one more engine would cross a threshold that has not been admitted. -/
def State.crossing (s : State) (die : Nat) : Bool := decide ((s.die die).steps < thresholds (s.activity die + 1))

/-- LOADSTEP_ASSERT (R220): a step of activity, a raise of MATH, or both, are announced. -/
def execLoadstepAssert (die : Nat) (s : State) : Out_ :=
  let d := s.die die
  .next (if d.lead.isSome then s else s.setDie die { d with loadstep := true, lead := some ⟨s.now + 2000, s.crossing die, d.raising⟩ })

/-- LOADSTEP_LEAD_EXPIRY (R220): the first sample at or after the end of the lead finds LDACK asserted or not. -/
def execLoadstepLeadExpiry (die : Nat) (ldack : Bool) (s : State) : Out_ :=
  let d := s.die die
  match d.lead with
  | none => .next s
  | some t =>
    if s.now < (t.end_ + 99) / 100 * 100 then .next s
    else
      let steps := if t.step then min 3 (d.steps + 1) else d.steps
      let raises := t.raises ++ d.raises.filter fun r => !t.raises.any fun x => x.1 == r.1
      .next (s.setDie die { d with lead := none, limited := !ldack, steps := steps, raises := raises })

/-- LDACK_ASSERT (R220): a later sample finds LDACK asserted, and the remainder of the step is admitted. -/
def execLdackAssert (die : Nat) (s : State) : Out_ := .next (s.setDie die { s.die die with limited := false, admits := [] })

end Sys2Proof.Machine
end

