-- ==== Sys2Proof/Machine/Branch.lean ====
section
/-! DEFINITION. Machine/Branch.lean: branches, calls and returns (R268, R270, R295, R296, R339, R340, R385), EXIT (R314), CEDE
(R301), DBRK (R313), TRAP and TRET (R224, R398, R399), NOP (R371) and GSYNC (R329). -/

namespace Sys2Proof.Machine

/-- NOP (R371). -/
def execNop (c : Ctl) (s : State) : Out_ := serve (.nop c) c s fun v => .done s v.g 0

/-- The target of a Format B branch (R270). -/
def branchTarget (pc : Dword) (tslot : BitVec 3) (off : BitVec 32) : Dword :=
  (pc &&& ~~~(63 : Dword)) + (off.signExtend 64 <<< 6) + tslot.setWidth 64

/-- The cause a branch target's check gives, if any (R268). -/
def TargetRes.cause? : TargetRes → Option Nat
  | .illegal => some 0x03
  | .forbid => some 0x06
  | _ => none

/-- Move the active lanes of a branch to their targets (R29, R268): a lane whose target line has no translation parks; if a
remaining target fails its check no lane moves; otherwise `link` writes what a call writes and the inactive lanes fall through. -/
def branch (v : Served) (s : State) (target : Nat → Dword) (link : Arch → Mask → Arch) : Res :=
  let out := v.act.lanes.filterMap fun L => match checkTarget s v.g (target L) with
    | .absent p => some (L, (target L).toNat, p)
    | _ => none
  let act := v.act &&& ~~~(Mask.ofLanes (out.map Prod.fst))
  let bad := act.lanes.filterMap fun L => (checkTarget s v.g (target L)).cause?.map fun k => (L, k)
  let r := s.parkAll v.g .fetch out
  if !out.isEmpty && v.g.branching v.run then .wait s v.run
  else match bad with
  | (L, k) :: _ =>
    .trap r.1 r.2 ⟨k, v.pc, Mask.ofLanes ((bad.filter fun e => e.2 = k).map Prod.fst), target L, 0⟩
  | [] =>
    let a := (link r.2.arch act).setPcs (v.run &&& ~~~v.act) fun _ => nextPc v.pc
    .moved r.1 { r.2 with arch := a.setPcs act target } v.run 0

/-- JMP (R339). -/
def execJmp (c : Ctl) (tslot : BitVec 3) (off : BitVec 32) (s : State) : Out_ :=
  serve (.jmp c tslot off) c s fun v => branch v s (fun _ => branchTarget v.pc tslot off) fun a _ => a

/-- JMPX (R340). -/
def execJmpx (c : Ctl) (a : Opd) (s : State) : Out_ :=
  serve (.jmpx c a) c s fun v => branch v s (fun L => readRaw v.g.arch true a L) fun r _ => r

/-- CALL (R295). -/
def execCall (c : Ctl) (d : Opd) (tslot : BitVec 3) (off : BitVec 32) (s : State) : Out_ :=
  serve (.call c d tslot off) c s fun v =>
    branch v s (fun _ => branchTarget v.pc tslot off) fun a m => writeDst a true d m fun _ => nextPc v.pc

/-- CALLX (R296). -/
def execCallx (c : Ctl) (d a : Opd) (s : State) : Out_ :=
  serve (.callx c d a) c s fun v =>
    branch v s (fun L => readRaw v.g.arch true a L) fun r m => writeDst r true d m fun _ => nextPc v.pc

/-- RET (R385). -/
def execRet (c : Ctl) (a : Opd) (s : State) : Out_ :=
  serve (.ret c a) c s fun v => branch v s (fun L => readRaw v.g.arch true a L) fun r _ => r

/-- EXIT (R314, R38): the active threads leave their barrier objects (R232) and exit; the last thread of a trap's handler ends the trap (R224).
The others of its run have fallen through at its dispatch. -/
def execExit (c : Ctl) (s : State) : Out_ :=
  serveCommit (.exit c) c s fun v =>
    let a := v.g.arch.setPcs (v.run &&& ~~~v.act) fun _ => nextPc v.pc
    .moved (s.depart v.g v.act) { v.g with arch := { a with exited := a.exited ||| v.act }.handlerDone } v.run 0

/-- CEDE (R301). -/
def execCede (c : Ctl) (s : State) : Out_ :=
  serve (.cede c) c s fun v => .done s { v.g with ceded := v.act, cededAt := s.now } 0

/-- DBRK (R313): a debug halt when a debugger is attached to the group's context, else trap 0x10. -/
def execDbrk (c : Ctl) (imm : BitVec 32) (s : State) : Out_ :=
  serve (.dbrk c imm) c s fun v =>
    if (s.ctxOf v.g).any Context.debug then .done s (Group.noting { v.g with halt := some ⟨v.pc, v.act, imm⟩ } .halt) 0
    else v.trap s 0x10 v.act imm.toNat

/-- TRAP (R398): a commit point that takes trap 0x0F itself, once younger entries of other runs, if there are any, have been discarded (R55). -/
def execTrap (c : Ctl) (imm : BitVec 32) (s : State) : Out_ :=
  serveCommit (.trap c imm) c s fun v =>
    let t : Trap := ⟨0x0F, v.pc, v.act, imm.setWidth 64, 0⟩
    if v.g.drained then .took ((deliver s v.g t).regrantIf v.g.key.team) else .trap s v.g t

/-- The threads of TMASK that have not exited. -/
def Group.handlers (g : Group) : Mask := g.arch.tmask &&& g.here

/-- TRET for its gathered threads (R224, R155): they go to TPC, checked as a branch target, and the held threads go on; after
trap 0x11 CONSEC returns to 0 (R73). -/
def tretBody (v : Served) (s : State) : Res :=
  if v.act = 0 then .done s v.g 0
  else
    match checkTarget s v.g v.g.arch.tpc with
    | .illegal => .trap s v.g ⟨0x03, v.pc, v.run, v.g.arch.tpc, 0⟩
    | .forbid => .trap s v.g ⟨0x06, v.pc, v.run, v.g.arch.tpc, 0⟩
    | .absent p =>
      if v.g.branching v.run then .wait s v.run
      else
      let r := s.parkAll v.g .fetch (v.run.lanes.map fun L => (L, v.g.arch.tpc.toNat, p))
      .moved r.1 r.2 v.run 0
    | .ok =>
      let g := { v.g with arch := v.g.arch.leaveTrap }
      .moved s (if v.g.arch.tcause.toNat % 256 = 0x11 then g.setConsec 0 else g) v.run 0

/-- TRET (R399, R224): a collective point among the threads of TMASK; with HMODE = 0 it is trap 0x02. -/
def execTret (c : Ctl) (s : State) : Out_ :=
  match served (.tret c) s c with
  | none => .fault .noGroup
  | some v =>
    let all := v.g.handlers
    if !v.g.arch.hmode then serve (.tret c) c s fun v => v.trap s 0x02 v.act 0
    else if v.g.holdsBack (.tret c) then .next (s.stalled v.g.key)
    else if !(all &&& ~~~(v.run ||| v.g.coll) == 0 && v.g.arch.atPc all v.pc == all) then .next (holdRun v s)
    else
      .next (headed c s { v with run := all, act := all &&& guardOf v.g.arch c } fun v =>
        let v := { v with g := { v.g with coll := 0 } }
        conclude v (tretBody v s))

/-- GSYNC (R329): every held thread releases to and acquires from every other at group scope. -/
def execGsync (c : Ctl) (s : State) : Out_ :=
  serveColl (.gsync c) c s fun v =>
    let g := if v.act = 0 then v.g else v.g.acquire v.run (v.g.hbOf v.run)
    let m := g.arch.mem
    .done s { g with arch := { g.arch with mem := { m with gsync := if v.act = 0 then m.gsync else g.seq } } } 0

end Sys2Proof.Machine
end

