-- ==== Sys2Proof/Machine/Special.lean ====
section
/-! DEFINITION. Machine/Special.lean: the special functions (R320, Table 24-4), correctly rounded. FRCP, FRSQ and FSQRT are computed
exactly with a sticky bit. FEX2, FLG2, FSIN, FCOS and FTNH are enclosed between two numbers of 384 fraction bits; where the two do
not round alike, the result is one of them by a free choice (log 11). -/

namespace Sys2Proof.Machine

/-- The integer square root, one bit at a time from bit `n - 1` down. -/
def isqrtFrom (x : Nat) : Nat → Nat → Nat
  | 0, r => r
  | n + 1, r => isqrtFrom x n (if (r + 2 ^ n) * (r + 2 ^ n) ≤ x then r + 2 ^ n else r)

def isqrt (x : Nat) : Nat := isqrtFrom x (Nat.log2 x / 2 + 1) 0

/-- A magnitude with a sticky bit below its last place. -/
def sticky (n : Nat) (inexact : Bool) : Nat := 2 * n + if inexact then 1 else 0

/-- 1 / (m × 2^e) for m > 0. -/
def recipFv (fb : Nat) (neg : Bool) (m : Nat) (e : Int) : Fv :=
  let k := Nat.log2 m + fb + 4
  .fin neg (sticky (2 ^ k / m) (2 ^ k % m != 0)) (-(k : Int) - e - 1)

/-- √(m × 2^e) for m > 0. -/
def sqrtFv (fb : Nat) (m : Nat) (e : Int) : Fv :=
  let h := 2 * (fb + 4) + (if e % 2 = 0 then 0 else 1)
  let x := m * 2 ^ h
  let r := isqrt x
  .fin false (sticky r (r * r != x)) ((e - h) / 2 - 1)

/-- 1 / √(m × 2^e) for m > 0. -/
def rsqrtFv (fb : Nat) (m : Nat) (e : Int) : Fv :=
  let m := if e % 2 = 0 then m else 2 * m
  let e := if e % 2 = 0 then e else e - 1
  let k := Nat.log2 m + fb + 6
  let r := isqrt (2 ^ (2 * k) / m)
  .fin false (sticky r (r * r * m != 2 ^ (2 * k))) (-(k : Int) - e / 2 - 1)

/-- FRCP (Table 24-4). -/
def frcpOf (fb : Nat) : Fv → Fv × Flg
  | .nan s => (.nan false, (Fv.nan s).nvOf)
  | .inf n => (.fin n 0 0, 0)
  | .fin n m e => if m = 0 then (.inf n, Flg.dz) else (recipFv fb n m e, 0)

/-- FRSQ (Table 24-4). -/
def frsqOf (fb : Nat) : Fv → Fv × Flg
  | .nan s => (.nan false, (Fv.nan s).nvOf)
  | .inf n => if n then (.nan false, Flg.nv) else (.fin false 0 0, 0)
  | .fin n m e => if m = 0 then (.inf n, Flg.dz) else if n then (.nan false, Flg.nv) else (rsqrtFv fb m e, 0)

/-- FSQRT (Table 24-4). -/
def fsqrtOf (fb : Nat) : Fv → Fv × Flg
  | .nan s => (.nan false, (Fv.nan s).nvOf)
  | .inf n => if n then (.nan false, Flg.nv) else (.inf false, 0)
  | .fin n m e => if m = 0 then (.fin n 0 0, 0) else if n then (.nan false, Flg.nv) else (sqrtFv fb m e, 0)

/-! ## Numbers of 384 fraction bits -/

/-- One. -/
def fxOne : Nat := 2 ^ 384

/-- A product. -/
def fxMul (a b : Nat) : Nat := a * b / fxOne

/-- Bound, in the last place, on the error of every value below: each takes fewer than 2^10 roundings of one place, and at most
sixteen squarings of a value below 2. -/
def fxErr : Nat := 2 ^ 64

/-- z + z³/3 + z⁵/5 + … for z below 1/2, `n` terms from power `t`, with denominator `k`; `alt` turns every second sign. -/
def atanhSum (alt : Bool) (z2 : Nat) : Nat → Nat → Nat → Bool → Int
  | 0, _, _, _ => 0
  | n + 1, t, k, neg =>
    let x : Int := (t / k : Nat)
    (if alt && neg then -x else x) + atanhSum alt z2 n (fxMul t z2) (k + 2) (!neg)

/-- ln y for 1 ≤ y < 2, as 2 atanh((y − 1)/(y + 1)). -/
def fxLn (y : Nat) : Nat :=
  let z := (y - fxOne) * fxOne / (y + fxOne)
  (2 * atanhSum false (fxMul z z) 130 z 1 false).toNat

/-- ln 2. -/
def fxLn2 : Nat :=
  let z := fxOne / 3
  (2 * atanhSum false (fxMul z z) 130 z 1 false).toNat

/-- π, as 16 atan(1/5) − 4 atan(1/239). -/
def fxPi : Nat :=
  let a := fxOne / 5
  let b := fxOne / 239
  (16 * atanhSum true (fxMul a a) 100 a 1 false - 4 * atanhSum true (fxMul b b) 40 b 1 false).toNat

/-- Terms x^k/k! from power `t` and index `k`, the sign turning every second time when `alt`, `step` indices at a time. -/
def expSum (alt : Bool) (x : Nat) (step : Nat) : Nat → Nat → Nat → Bool → Int
  | 0, _, _, _ => 0
  | n + 1, t, k, neg =>
    let y : Int := t
    let t' := if step = 1 then fxMul t x / (k + 1) else fxMul t x / ((k + 1) * (k + 2))
    (if alt && neg then -y else y) + expSum alt x step n t' (k + step) (!neg)

/-- A number squared `n` times. -/
def fxSquare : Nat → Nat → Nat
  | 0, x => x
  | n + 1, x => fxSquare n (fxMul x x)

/-- e^x for 0 ≤ x < 1, the argument cut by 2^8. -/
def fxExp (x : Nat) : Nat := fxSquare 8 (expSum false (x / 2 ^ 8) 1 60 fxOne 0 false).toNat

/-- e^(−x) for x ≥ 0, as 2^(−k) e^(−r): by 1/e^r for r = x − k ln 2. -/
def fxExpNeg (x : Nat) : Nat :=
  let k := x / fxLn2
  fxOne * fxOne / fxExp (x % fxLn2) / 2 ^ k

/-- sin x and cos x for 0 ≤ x < 1. -/
def fxSin (x : Nat) : Nat := (expSum true (fxMul x x) 2 40 x 1 false).toNat
def fxCos (x : Nat) : Nat := (expSum true (fxMul x x) 2 40 fxOne 0 false).toNat

/-- m × 2^e as a number of 384 fraction bits, when it is a whole number of them. -/
def toFx (m : Nat) (e : Int) : Nat := m * 2 ^ (e + 384).toNat / 2 ^ (-(e + 384)).toNat

/-- A result: exact, or enclosed between two magnitudes, each m × 2^e with a sticky place. -/
inductive Enc where
  | exact (v : Fv) (fl : Flg)
  | between (neg : Bool) (lo hi : Nat) (e : Int)

/-- A number of 384 fraction bits with its error, times 2^k. -/
def around (neg : Bool) (x : Nat) (k : Int) : Enc := .between neg (2 * (x - fxErr) + 1) (2 * (x + fxErr) + 1) (k - 385)

/-- FEX2 (Table 24-4). -/
def fex2Of : Fv → Enc
  | .nan s => .exact (.nan false) (Fv.nan s).nvOf
  | .inf n => .exact (if n then .fin false 0 0 else .inf false) 0
  | .fin n m e =>
    if m = 0 then .exact (.fin false 1 0) 0
    else if e + Nat.log2 m ≥ 12 then .between false 3 3 (if n then -5000 else 5000)
    else
      let x : Int := toFx m e
      let x := if n then -x else x
      let k := x / fxOne
      let f := (x % fxOne).toNat
      if f = 0 then .exact (.fin false 1 k) 0 else around false (fxExp (fxMul f fxLn2)) k

/-- FLG2 (Table 24-4). -/
def flg2Of : Fv → Enc
  | .nan s => .exact (.nan false) (Fv.nan s).nvOf
  | .inf n => if n then .exact (.nan false) Flg.nv else .exact (.inf false) 0
  | .fin n m e =>
    if m = 0 then .exact (.inf true) Flg.dz
    else if n then .exact (.nan false) Flg.nv
    else
      let t := Nat.log2 m
      let k : Int := e + t
      if m = 2 ^ t then .exact (.fin (decide (k < 0)) k.natAbs 0) 0
      else
        let l := fxLn (m * 2 ^ (384 - t)) * fxOne / fxLn2
        let x : Int := k * fxOne + l
        around (decide (x < 0)) x.natAbs 0

/-- sin(π r) for a number r of 384 fraction bits, 0 < r < 1, by symmetry about 1/2 and 1/4. -/
def fxSinPi (r : Nat) : Nat :=
  let r := if 2 * r > fxOne then fxOne - r else r
  if 4 * r ≤ fxOne then fxSin (fxMul r fxPi) else fxCos (fxMul (fxOne / 2 - r) fxPi)

/-- sin(π x) for x = ± m × 2^e, m > 0 (Table 24-4): x mod 2 decides the sign; multiples of 1/2 are exact. -/
def sinPi (n : Bool) (m : Nat) (e : Int) (zeroSign : Bool) : Enc :=
  let x := toFx m e % (2 * fxOne)
  let neg := n ^^ decide (x ≥ fxOne)
  let r := x % fxOne
  if r = 0 then .exact (.fin zeroSign 0 0) 0
  else if 2 * r = fxOne then .exact (.fin neg 1 0) 0
  else around neg (fxSinPi r) 0

/-- FSIN (Table 24-4). -/
def fsinOf : Fv → Enc
  | .nan s => .exact (.nan false) (Fv.nan s).nvOf
  | .inf _ => .exact (.nan false) Flg.nv
  | .fin n m e => if m = 0 then .exact (.fin n 0 0) 0 else sinPi n m e n

/-- FCOS (Table 24-4): cos(π x) = sin(π (|x| + 1/2)); a zero is +0. -/
def fcosOf : Fv → Enc
  | .nan s => .exact (.nan false) (Fv.nan s).nvOf
  | .inf _ => .exact (.nan false) Flg.nv
  | .fin _ m e =>
    if m = 0 then .exact (.fin false 1 0) 0
    else if e < -384 ∨ e + Nat.log2 m < -180 then .between false (2 * (2 ^ 200 - 1) + 1) (2 * (2 ^ 200 - 1) + 1) (-201)
    else sinPi false (toFx m e + fxOne / 2) (-384) false

/-- FTNH (Table 24-4). Below 2^−30 the result lies between x(1 − 2^−60) and x; from 64 on between 1 − 2^−150 and 1. -/
def ftnhOf : Fv → Enc
  | .nan s => .exact (.nan false) (Fv.nan s).nvOf
  | .inf n => .exact (.fin n 1 0) 0
  | .fin n m e =>
    if m = 0 then .exact (.fin n 0 0) 0
    else if e + Nat.log2 m < -30 then .between n (2 * (m * 2 ^ 60 - 1) + 1) (2 * (m * 2 ^ 60 - 1) + 1) (e - 61)
    else if e + Nat.log2 m ≥ 6 then .between n (2 * (2 ^ 150 - 1) + 1) (2 * (2 ^ 150 - 1) + 1) (-151)
    else
      let u := fxExpNeg (2 * toFx m e)
      around n ((fxOne - u) * fxOne / (fxOne + u)) 0

/-- Round an enclosed result (R320): both ends alike, or one of the two by a free choice (log 11). -/
def Fmt.ofEnc (f : Fmt) (v : Env) (key : Nat) : Enc → Nat × Flg
  | .exact x fl =>
    let y := f.ofFv v x
    (y.1, fl ||| y.2)
  | .between neg lo hi e =>
    let x := f.round v neg lo e
    let y := f.round v neg hi e
    if x = y then x else if (Config.freeNat key).testBit 0 then x else y

/-- A special function of one operand that the model computes exactly. -/
def fp1 (r : Arch) (ty : Ty) (rnd : Rnd) (a : Opd) (L : Nat) (op : Nat → Fv → Fv × Flg) : Nat × Flg :=
  let x := fpIn r ty a L
  let y := op (fmtOf ty).fb x.1
  fpOut r rnd ty (y.1, x.2 ||| y.2)

/-- A special function of one operand that the model encloses. -/
def fp1e (r : Arch) (ty : Ty) (rnd : Rnd) (a : Opd) (L : Nat) (op : Fv → Enc) : Nat × Flg :=
  let x := fpIn r ty a L
  let y := (fmtOf ty).ofEnc (fpEnv r rnd ty) (readFp r ty a L) (op x.1)
  (y.1, x.2 ||| y.2)

/-- FRCP (Table 24-4). -/
def execFrcp (c : Ctl) (rnd : Rnd) (ty : Ty) (d a : Opd) (s : State) : Out_ :=
  fpu (.frcp c rnd ty d a) c s ty d fun r L => fp1 r ty rnd a L frcpOf

/-- FRSQ (Table 24-4). -/
def execFrsq (c : Ctl) (rnd : Rnd) (ty : Ty) (d a : Opd) (s : State) : Out_ :=
  fpu (.frsq c rnd ty d a) c s ty d fun r L => fp1 r ty rnd a L frsqOf

/-- FSQRT (Table 24-4). -/
def execFsqrt (c : Ctl) (rnd : Rnd) (ty : Ty) (d a : Opd) (s : State) : Out_ :=
  fpu (.fsqrt c rnd ty d a) c s ty d fun r L => fp1 r ty rnd a L fsqrtOf

/-- FEX2 (Table 24-4). -/
def execFex2 (c : Ctl) (rnd : Rnd) (ty : Ty) (d a : Opd) (s : State) : Out_ :=
  fpu (.fex2 c rnd ty d a) c s ty d fun r L => fp1e r ty rnd a L fex2Of

/-- FLG2 (Table 24-4). -/
def execFlg2 (c : Ctl) (rnd : Rnd) (ty : Ty) (d a : Opd) (s : State) : Out_ :=
  fpu (.flg2 c rnd ty d a) c s ty d fun r L => fp1e r ty rnd a L flg2Of

/-- FSIN (Table 24-4). -/
def execFsin (c : Ctl) (rnd : Rnd) (ty : Ty) (d a : Opd) (s : State) : Out_ :=
  fpu (.fsin c rnd ty d a) c s ty d fun r L => fp1e r ty rnd a L fsinOf

/-- FCOS (Table 24-4). -/
def execFcos (c : Ctl) (rnd : Rnd) (ty : Ty) (d a : Opd) (s : State) : Out_ :=
  fpu (.fcos c rnd ty d a) c s ty d fun r L => fp1e r ty rnd a L fcosOf

/-- FTNH (Table 24-4). -/
def execFtnh (c : Ctl) (rnd : Rnd) (ty : Ty) (d a : Opd) (s : State) : Out_ :=
  fpu (.ftnh c rnd ty d a) c s ty d fun r L => fp1e r ty rnd a L ftnhOf

end Sys2Proof.Machine
end

