-- ==== Sys2Proof/Machine/Convert.lean ====
section
/-! DEFINITION. Machine/Convert.lean: CVT (R309 to R311, R98), the stochastic-rounding generator (R96) and CBXP (R300). -/

namespace Sys2Proof.Machine

/-- One step of the generator (R96). -/
def genStep (g : Dword) : Dword :=
  let g := g ^^^ (g >>> 12)
  let g := g ^^^ (g <<< 25)
  g ^^^ (g >>> 27)

/-- rnd[L][n] drawn from a stepped generator (R96). -/
def genDraw (g : Dword) (L n : Nat) : Nat :=
  let m := g * 0x2545F4914F6CDD1D
  let h := m + BitVec.ofNat 64 (8 * L + n) * 0x9E3779B97F4A7C15
  let h := h ^^^ (h >>> 31)
  (h.extractLsb' 48 16).toNat

/-- Packed element `n` of a word (Table 7-2). -/
def elemOf (ty : Ty) (x n : Nat) : Nat := x / 2 ^ (ty.bits * n) % 2 ^ ty.bits

/-- A word with packed element `n` replaced; 6-bit types leave bits 31:24 zero (R311). -/
def elemPut (ty : Ty) (x n y : Nat) : Nat :=
  let b := ty.bits * n
  let z := x - elemOf ty x n * 2 ^ b + y % 2 ^ ty.bits * 2 ^ b
  if ty.bits = 6 then z % 2 ^ 24 else z

/-- A float to an integer type (Table 7-6): rounded first, then checked. -/
def fpToInt (mode : Rnd) (rnd : Nat) (ty : Ty) : Fv → Nat × Flg
  | .nan _ => (0, Flg.nv)
  | .inf neg => (((if neg then tyLo ty else tyHi ty) % 2 ^ ty.bits).toNat, Flg.nv)
  | .fin neg m e =>
    let r := roundAt mode rnd neg m e 0
    let x : Int := if neg then -(r.1 : Int) else r.1
    if x < tyLo ty then ((tyLo ty % 2 ^ ty.bits).toNat, Flg.nv)
    else if x > tyHi ty then ((tyHi ty % 2 ^ ty.bits).toNat, Flg.nv)
    else ((x % 2 ^ ty.bits).toNat, if r.2 then Flg.nx else 0)

/-- An integer to an integer type (Table 7-6): wraps, or clamps with NX. -/
def intToInt (sat : Bool) (ty : Ty) (x : Int) : Nat × Flg :=
  let y := saturate sat ty x
  ((y % 2 ^ ty.bits).toNat, if y = x then 0 else Flg.nx)

/-- convert(x, src, dst, rnd) of R311. -/
def convert (r : Arch) (rnd : Rnd) (draw : Nat) (sat : Bool) (dty sty : Ty) (x : Nat) : Nat × Flg :=
  let mode := rndMode r.fpctl rnd
  let env : Env := ⟨mode, draw, fpFtz r.fpctl (fpClass dty), fpSat8 r.fpctl⟩
  if sty.isInt then
    let i := asInt sty x
    if dty.isInt then intToInt sat dty i
    else (fmtOf dty).ofFv env (.fin (decide (i < 0)) i.natAbs 0)
  else
    let v := (fmtOf sty).operand (fpDaz r.fpctl (fpClass sty)) x
    let y := if dty.isInt then fpToInt mode draw dty v.1 else (fmtOf dty).ofFv env v.1
    (y.1, v.2 ||| y.2)

/-- The pattern a CVT source supplies: an element, an integer, or a float. -/
def cvtSrc (r : Arch) (form : Packing) (sty : Ty) (a n : Opd) (L : Nat) : Nat :=
  match form with
  | .upk => elemOf sty (read32 r a L) (immVal n).toNat
  | _ => if sty.isInt then readBits r sty a L else readFp r sty a L

/-- What CVT makes of a lane's source. An immediate source of a float type stands for its integer, exactly (R272, R311). -/
def cvtOf (r : Arch) (rnd : Rnd) (draw : Nat) (sat : Bool) (form : Packing) (dty sty : Ty) (a n : Opd) (L : Nat) : Nat × Flg :=
  match form, a with
  | .upk, _ => convert r rnd draw sat dty sty (cvtSrc r form sty a n L)
  | _, .imm i =>
    if sty.isInt then convert r rnd draw sat dty sty (cvtSrc r form sty a n L)
    else
      let v := Fv.fin (decide (i.toInt < 0)) i.toInt.natAbs 0
      let mode := rndMode r.fpctl rnd
      if dty.isInt then fpToInt mode draw dty v
      else (fmtOf dty).ofFv ⟨mode, draw, fpFtz r.fpctl (fpClass dty), fpSat8 r.fpctl⟩ v
  | _, _ => convert r rnd draw sat dty sty (cvtSrc r form sty a n L)

/-- An instruction that rounds stochastically acts when it is the oldest of its group, no commit point that has dispatched before it, and steps the generator once (R96). `f` is
given the stepped generator's draw for a lane and element. -/
def withDraw (v : Served) (s : State) (rnd : Rnd) (f : Served → (Nat → Nat → Nat) → Res) : Res :=
  if rnd = .sr then
    if v.g.rob.isEmpty && v.g.commits.isEmpty then
      let g := genStep v.g.gen
      f { v with g := { v.g with gen := g } } (genDraw g)
    else .stall s
  else f v fun _ _ => 0

/-- CVT (R311). -/
def execCvt (c : Ctl) (rnd : Rnd) (sat : Bool) (form : Packing) (dty sty : Ty) (d a n : Opd) (s : State) : Out_ :=
  serve (.cvt c rnd sat form dty sty d a n) c s fun v =>
    withDraw v s rnd fun v draw =>
      let r := v.g.arch
      let k := if form = .plain then 0 else (immVal n).toNat
      let y := fun L => cvtOf r rnd (draw L k) sat form dty sty a n L
      let out := fun L => match form with
        | .pk => BitVec.ofNat 64 (elemPut dty (read32 r d L) k (y L).1)
        | _ => extend dty (y L).1
      raiseFlags v s (fun L => (y L).2) { v.g with arch := writeDst r (form != .pk && dty.wide) d v.act out }

/-- Entry `c` of a codebook slot (R90). -/
def cbEntry (slot : List Byte) (c : Nat) : Nat := leNat ((slot.drop (2 * c)).take 2)

/-- CBXP (R300); a slot never loaded is trap 0x0C (R299). -/
def execCbxp (c : Ctl) (ty : Ty) (d a slot q : Opd) (s : State) : Out_ :=
  serve (.cbxp c ty d a slot q) c s fun v =>
    let n := (readRaw v.g.arch false slot 0).toNat
    match (s.rank? v.g.key.team v.g.rank).bind fun r => assoc r.cb n with
    | none => v.trap s 0x0C v.act 0
    | some img =>
      let k := (immVal q).toNat
      let code := fun L i => elemOf .cb4 (read32 v.g.arch a L) i
      let out := fun L => match ty with
        | .bf16 => BitVec.ofNat 64 (cbEntry img (code L (2 * k)) + cbEntry img (code L (2 * k + 1)) * 65536)
        | _ => BitVec.ofNat 64 (cbEntry img (code L k) * 65536)
      .done s { v.g with arch := writeDst v.g.arch false d v.act out } 0

end Sys2Proof.Machine
end

