-- ==== Sys2Proof/Machine/Create.lean ====
section
/-! DEFINITION. Machine/Create.lean: what a team and its groups hold when they are created (R22 to R27, R102, R232, R287). -/

namespace Sys2Proof.Machine

/-- A product of natural numbers a launch gives, its team size T (R23). -/
def Launch.threads (b : Launch) : Nat := b.dx * b.dy * b.dz

/-- The fields of SHAPE (Table 17-2). -/
def Launch.width (b : Launch) : Nat := 16 * 2 ^ (b.shape.toNat % 4)
def Launch.nv (b : Launch) : Nat := 32 * (bitsOf b.shape.toNat 14 12 + 1)
def Launch.ns (b : Launch) : Nat := 32 * (bitsOf b.shape.toNat 19 16 + 1)
def Launch.ranks (b : Launch) : Nat := bitsOf b.shape.toNat 11 8 + 1
def Launch.tiles (b : Launch) : Nat := bitsOf b.shape.toNat 23 20
def Launch.prio (b : Launch) : Nat := bitsOf b.shape.toNat 25 24
def Launch.coop (b : Launch) : Bool := b.shape.getLsbD 26
def Launch.teams (b : Launch) : Nat := b.nx * b.ny * b.nz

/-- Groups of a team: the threads in groups of the launch's width (R22). -/
def Launch.groups (b : Launch) : Nat := (b.threads + b.width - 1) / b.width

/-- A fresh stochastic-rounding state (R96). -/
def genReset : Dword := 0x9E3779B9

/-- The registers of a group at entry (R27). -/
def Arch.fresh (w nv ns : Nat) (code : Dword) (args : List Dword) (exited : Mask) : Arch where
  v := List.replicate nv ⟨List.replicate w 0, plainSide⟩
  s := (List.range ns).map fun i => if i < 16 then args.getD i 0 else 0
  p := List.replicate 15 0
  pcs := List.replicate w code
  exited := exited
  parked := 0
  entering := 0
  starve := 0
  rot := 0
  lastRun := 0
  turn := none
  fpctl := 0
  fpflg := 0
  mxflg := 0
  tcause := 0
  tpc := 0
  taddr := 0
  tmask := 0
  thand := 0
  heldPc := []
  heldSet := 0
  pois := []
  mem := ⟨List.replicate w ⟨[], [], [], [], []⟩, List.replicate 5 [], List.replicate 5 [], [], 0⟩

/-- A group as it is created: its entry state is a verified checkpoint (R60). -/
def Group.fresh (k : GroupKey) (ctx : Nat) (core : CoreId) (quad slot rank w nv ns now : Nat) (a : Arch) : Group where
  key := k
  ctx := ctx
  core := core
  quad := quad
  slot := slot
  rank := rank
  w := w
  nv := nv
  ns := ns
  arch := a
  gen := genReset
  sensev := 0
  rstrt := 0
  clkevt := 0
  coll := 0
  blocked := 0
  look := 0
  stall := false
  lastAt := 0
  objs := []
  ceded := 0
  cededAt := 0
  seq := 1
  rob := []
  staged := []
  ckpts := [⟨0, some now, true, a⟩]
  lastRel := 0
  commit := none
  behind := []
  trap := none
  cut := none
  cmds := []
  loads := []
  parks := []
  holds := []
  walk := none
  halt := none
  stop := false

/-- What a core rank holds when a team is created: everything zero, every object invalid (R131, R232). -/
def Rank.fresh (tiles : Nat) (sched : List Dword) : Rank where
  scr := Memory.empty
  opbuf := Memory.empty
  scrPoison := []
  opPoison := []
  k := []
  b := []
  c := []
  q := []
  z := List.replicate tiles ⟨List.replicate 64 ⟨List.replicate 128 0, List.replicate 128 none, []⟩, 0, []⟩
  cb := []
  sched := sched
  cursor := 0
  returned := []
  ops := []
  locks := []
  nextId := 0

/-- A barrier object at team creation (Table 23-6). -/
def Barrier.fresh : Barrier := ⟨false, 0, 0, 0, 0, [], [], [], []⟩

/-- The quadrant, the core rank and the issue slot of group `g` (R24). -/
def quadOf (g : Nat) : Nat := g % 4
def rankOf (c g : Nat) : Nat := (g / 4) % c
def slotOf (c g : Nat) : Nat := g / (4 * c)

/-- The groups of a team of a launch placed on `cores` (R23, R24, R27). -/
def teamGroups (k : TeamKey) (ctx : Nat) (b : Launch) (cores : List CoreId) (now : Nat) : List Group :=
  (List.range b.groups).map fun g =>
    let n := min b.width (b.threads - g * b.width)
    let ex := Mask.below b.width &&& ~~~(Mask.below n)
    let r := rankOf b.ranks g
    Group.fresh ⟨k, g⟩ ctx (cores.getD r ⟨0, 0, 0⟩) (quadOf g) (slotOf b.ranks g) r b.width b.nv b.ns now
      (Arch.fresh b.width b.nv b.ns b.code b.args ex)

/-- The lowest issue slot of a quadrant that no group of a list holds. -/
def slotFree (l : List Group) (core : CoreId) (quad : Nat) : Nat :=
  ((List.range 16).find? fun n => !l.any fun g => g.core == core && g.quad == quad && g.slot == n).getD 16

/-- Seat the groups of a team beside those already there: each takes the lowest free issue slot of its quadrant, which is R24's own
number where the team has the core alone. DESIGN CHOICE (log 42): R24 does not number the slots of teams that share a core. -/
def seat (here gs : List Group) : List Group :=
  gs.foldl (fun l g => l ++ [{ g with slot := slotFree (here ++ l) g.core g.quad }]) []

/-- A team of a launch placed on `cores`. -/
def Team.fresh (k : TeamKey) (ctx : Nat) (b : Launch) (cores : List CoreId) (arena : Dword) (lists : List (List Dword))
    (level started : Nat) : Team where
  key := k
  ctx := ctx
  blk := b
  status := .resident
  place := 0
  arena := arena
  clkreq := b.opreq.setWidth 64
  bars := List.replicate 16 Barrier.fresh
  ranks := (List.range b.ranks).map fun r => Rank.fresh b.tiles (lists.getD r [])
  cores := cores
  slot := none
  saved := []
  level := level
  started := started

end Sys2Proof.Machine
end

