-- ==== Sys2Proof/Machine/Discard.lean ====
section
/-! DEFINITION. Machine/Discard.lean: what happens to the entries a group gives up, at a restart (R69, R119, Table 5-3), or behind an
entry that traps after younger ones have dispatched (R55): their effects, commands, reservations and signatures. -/

namespace Sys2Proof.Machine

/-- A signature that a group made from sequence number `n` on. -/
def Sign.from_ (x : Sign) (k : GroupKey) (n : Nat) : Bool := x.group == k && decide (n ≤ x.seq)

/-- The signatures that stand. -/
def standing (k : GroupKey) (n : Nat) (l : List Sign) : List Sign := l.filter fun x => !x.from_ k n

/-- An operation one of whose signatures is withdrawn (R119). -/
def MatOp.loses (o : MatOp) (k : GroupKey) (n : Nat) : Bool := o.signs.any fun x => x.from_ k n

/-- Change a queue of a core rank. -/
def Rank.updQueue (r : Rank) (q : Nat) (f : Queue → Queue) : Rank :=
  match r.queue? q with
  | some x => r.setQueue q (f x)
  | none => r

/-- Change the queue that a QCFG has made, if it still stands. -/
def Rank.updQueueOf (r : Rank) (id q : Nat) (f : Queue → Queue) : Rank := r.updQueue q fun x => if x.id = id then f x else x

/-- Change a convergence register of a core rank; undeclared and without signatures until it is named. -/
def Rank.conv (r : Rank) (c : Nat) : Conv := (assoc r.c c).getD ⟨none, [], []⟩
def Rank.setConv (r : Rank) (c : Nat) (x : Conv) : Rank := { r with c := assocPut r.c c x }

/-- Put a number's bearer into a list in rising order of the number. -/
def insertBy {α : Type} (f : α → Nat) (x : α) : List α → List α
  | [] => [x]
  | y :: r => if f x < f y then x :: y :: r else y :: insertBy f x r

/-- A dropped operation returns its slot and reopens its generation, at its place in the order in which the generations first closed
(R119, R409). -/
def Rank.reopen (k : GroupKey) (n : Nat) (o : MatOp) (r : Rank) : Rank :=
  let r := match o.slot with
    | some (q, i) => r.updQueue q fun x => x.untake i 1
    | none => r
  let c := r.conv o.c
  r.setConv o.c { c with old := insertBy Prod.fst (o.id, standing k n o.signs) c.old }

/-- Settle one more image of a tile, behind those that stay (R118): released by all its writers, each of its rows that no older image
holds becomes live. -/
def Tile.settle (t : Tile) (x : Shadow) : Tile :=
  if !x.waits.isEmpty then { t with shadows := t.shadows ++ [x] }
  else
    let held := fun (p : Nat × Row) => t.shadows.any fun y => (assoc y.rows p.1).isSome
    let stuck := x.rows.filter held
    let live := x.rows.filter fun p => !held p
    { t with
      rows := t.rows.mapIdx fun i y => (assoc live i).getD y
      cnt := if stuck.isEmpty then x.cnt else t.cnt
      shadows := if stuck.isEmpty then t.shadows else t.shadows ++ [{ x with rows := stuck, op := none }] }

/-- Settle the images of a tile, the oldest first; a released operation's slot is freed (R112, R118). -/
def Rank.settleTile (r : Rank) (z : Nat) : Rank :=
  match r.z[z]? with
  | none => r
  | some t =>
    let freed := (t.shadows.filter fun x => x.waits.isEmpty).filterMap fun x => x.op.bind MatOp.slot
    freed.foldl (fun r p => r.updQueue p.1 fun y => y.freeSlot p.2) { r with z := r.z.set z (t.shadows.foldl Tile.settle { t with shadows := [] }) }

/-- Withdraw a group's signatures from sequence number `n` on, dropping the operations that hold them and the shadow rows of the
entries (R69, R119); an image that waited behind one of those, and is released, becomes live (R118). -/
def Rank.withdraw (r : Rank) (k : GroupKey) (n : Nat) : Rank :=
  let hit := fun (o : MatOp) => o.loses k n
  let built := (r.z.flatMap Tile.shadows).filterMap fun x => x.op.filter hit
  let gone := (built ++ r.ops.filter hit).foldl (fun l o => insertBy MatOp.id o l) []
  let keep := fun (x : Shadow) => match x.op with
    | some o => !hit o
    | none => !x.waits.any fun w => w.1 == k && decide (n ≤ w.2)
  let r := { r with
    c := r.c.map fun c => (c.1, { c.2 with old := c.2.old.map (fun x => (x.1, standing k n x.2)), cur := standing k n c.2.cur })
    ops := r.ops.filter fun o => !hit o
    z := r.z.map fun z => { z with shadows := z.shadows.filter keep } }
  (List.range r.z.length).foldl Rank.settleTile (gone.foldr (Rank.reopen k n) r)

/-- Undo what a staged effect has reserved (Table 5-3). -/
def Rank.undo (r : Rank) (e : EffectKind) : Rank :=
  match e with
  | .qacq id q i n => r.updQueueOf id q fun x => x.unacquire i n
  | .qwait id q i n => r.updQueueOf id q fun x => x.untake i n
  | .slotCommit id q i => r.updQueueOf id q fun x => x.unacquire i 1
  | .slotFree id q i => r.updQueueOf id q fun x => x.untake i 1
  | .schnxt _ i => { r with returned := addSorted r.returned i }
  | .bfree _ b => { r with b := r.b.map fun y => if y.1 = b ∧ !y.2.freed then (y.1, { y.2 with marked := false }) else y }
  | _ => r

/-- A command writes its target: TLD and GATH. -/
def CmdKind.produces : CmdKind → Bool
  | .tld | .gath => true
  | _ => false

/-- Abort an engine command: its slot returns (Table 5-3). -/
def Rank.abort (r : Rank) (c : Cmd) : Rank :=
  match c.slot with
  | some (q, i) => r.updQueue q fun x => if c.kind.produces then x.unacquire i 1 else x.untake i 1
  | none => r

/-- The entry of a COLL or NSEND in progress, which a restart keeps (R293). -/
def Group.inProgress (g : Group) (e : Entry) : Bool := !e.executed && g.commit.any fun k => k.begun && k.pc == e.pc

/-- A group gives up what has a sequence number from `n` on and returns to registers `a` (R56, R69): a commit point that has begun
is kept (R293), one that has not is given up with its own checkpoint's (R68), and lanes that were not parked then are parked no more (R37). -/
def Group.windBack (g : Group) (n : Nat) (a : Arch) : Group :=
  let ks := g.commits.filter fun k => k.begun || (decide (k.seq + 1 < n) && k.run != 0)
  { g with
    arch := a
    coll := 0
    blocked := 0
    look := 0
    stall := false
    ceded := 0
    rob := g.rob.filter fun e => decide (e.seq < n) || g.inProgress e
    staged := g.staged.filter fun e => decide (e.seq < n)
    ckpts := g.ckpts.filter fun c => decide (c.seq < n)
    commit := ks.head?
    behind := ks.tail
    trap := none
    cut := none
    objs := []
    cmds := g.cmds.filter fun c => decide (c.seq < n)
    loads := g.loads.filter fun l => decide (l.1 < n)
    parks := g.parks.filter fun p => a.parked.has p.lane
    holds := []
    walk := if g.commit.any Commit.begun then g.walk else none }

/-- Discard the entries of a group from sequence number `n` on. -/
def State.discard (s : State) (k : GroupKey) (n : Nat) (a : Arch) : State :=
  match s.group? k with
  | none => s
  | some g =>
    let undo := fun (r : Rank) =>
      let r := (g.staged.filter fun e => decide (n ≤ e.seq)).foldl (fun r e => r.undo e.kind) r
      ((g.cmds.filter fun c => decide (n ≤ c.seq)).foldl Rank.abort r).withdraw k n
    let t := (s.updRank k.team g.rank undo).updGroup k fun g => g.windBack n a
    if (s.rankOf k.team g.rank).ops.any fun o => o.started && o.loses k n then t.noteStops else t

/-- A numbered thing put back as it was: absent where it was absent. -/
def assocSet {α : Type} (l : List (Nat × α)) (n : Nat) : Option α → List (Nat × α)
  | some x => assocPut l n x
  | none => assocDel l n

/-- Put back what an entry of a group has replaced (R54). -/
def State.putBack (g : Group) (s : State) (o : ObjImage) : State :=
  let r := fun f => s.updRank g.key.team g.rank f
  match o with
  | .shape k x => r fun y => { y with k := assocSet y.k k x }
  | .resv b x => r fun y => { y with b := assocSet y.b b x }
  | .count c x => r fun y => y.setConv c { y.conv c with count := x }
  | .queue q x => r fun y => { y with q := assocSet y.q q x }
  | .book n x => r fun y => { y with cb := assocSet y.cb n x }
  | .bar i x => s.updTeam g.key.team fun t => { t with bars := t.bars.modify i fun b => { b with init := x.init, e := x.e, ec := x.ec } }
  | .halt => s.updGroup g.key fun h => { h with halt := none }

/-- The entries of a group from sequence number `n` on are discarded and leave no trace (R54, R55): what they have replaced outside the
renamed registers is put back, the youngest's first. -/
def State.recover (s : State) (k : GroupKey) (n : Nat) (a : Arch) : State :=
  match s.group? k with
  | none => s
  | some g => (((g.rob.filter fun e => decide (n ≤ e.seq)).reverse.flatMap Entry.objs).foldl (State.putBack g) s).discard k n a

/-- An entry that has dispatched meets a fault (R55): the entries from it on are discarded, and the trap waits until it is the
oldest. -/
def State.faultEntry (s : State) (k : GroupKey) (seq cause : Nat) (mask : Mask) (addr : Nat) : State :=
  match (s.group? k).bind fun g => g.rob.find? fun e => e.seq = seq with
  | none => s
  | some e => (s.recover k seq e.undo).updGroup k fun g => { g with trap := some ⟨cause, e.pc, mask, BitVec.ofNat 64 addr, 0⟩ }

/-- A commit point has met a fault: what has a number from `n` on is younger, and is discarded (R55). -/
def State.cutBehind (s : State) (g : Group) (n : Nat) : State :=
  match (g.ckpts.filter fun c => decide (c.seq < n)).getLast? with
  | none => s
  | some c => (s.recover g.key n c.arch).updGroup g.key fun h => { h with trap := g.trap }

end Sys2Proof.Machine
end

