-- ==== Sys2Proof/Machine/Home.lean ====
section
/-! DEFINITION. Machine/Home.lean: the home slices and the links: requests, probes and grants (R142 to R144, R149, R189), data
returned to loads (R79, R346), generations, sweeps and sleeping banks (R152, R153), lost links (R10, R151), widening answers
(R181, R191), and their events. -/

namespace Sys2Proof.Machine

/-! ## Requests (R143) -/

/-- What an event does when it is enabled; an event that is not enabled does not come about (log 3). -/
def when_ (c : Bool) (s t : State) : Out_ := .next (if c then t else s)

/-- Change the request of a core for a line. -/
def State.updReq (s : State) (core : CoreId) (line : Nat) (f : HomeReq → HomeReq) : State :=
  { s with coh := { s.coh with reqs := s.coh.reqs.map fun r => if r.core = core ∧ r.line = line then f r else r } }

/-- The request of a core for a line. -/
def Coh.req? (c : Coh) (core : CoreId) (line : Nat) : Option HomeReq := c.reqs.find? fun r => r.core = core ∧ r.line = line

/-- The holders that a request has to hear from: for ownership every other holder, for a read the owner (R143). -/
def Line.askedBy (l : Line) (core : CoreId) (own : Bool) : List CoreId :=
  let o := l.owner.toList
  ((if own then o ++ l.holders else o).eraseDups).filter (· ≠ core)

/-- The holders that the home's probes of a request reach (R144): those that the region's entry and the guest tables name. A line that the
directory does not track is kept coherent by its cluster's filter (R160), and a line of host memory by its home there. -/
def Coh.asked (c : Coh) (r : HomeReq) : List CoreId :=
  ((c.line r.line).askedBy r.core r.own).filter fun x => r.priv || decide (Config.hostBase ≤ r.line) || c.names r.line x

/-- Where a "moved" page's address lies now (R139). -/
def State.movedTo (s : State) (a : Nat) : Nat :=
  match s.coh.migs.find? fun m => m.src ≤ a ∧ a < m.src + m.size with
  | some m => m.dst + (a - m.src)
  | none => a

/-- A core's staged stores to a moved line, and its loads of it, go to its new home (R139). -/
def State.retarget (s : State) (core : CoreId) (line dst : Nat) : State :=
  let mv := fun (p : Piece) => if p.tgt = .mem ∧ p.addr / 64 * 64 = line then { p with addr := dst + p.addr % 64 } else p
  let at_ := fun (x : Target × Nat) => if x.1 = .mem ∧ x.2 / 64 * 64 = line then (x.1, dst + x.2 % 64) else x
  let eff := fun (e : Effect) => let e := { e with pois := e.pois.map at_ }; match e.kind with
    | .write ps t r => { e with kind := .write (ps.map mv) t r }
    | .objInit h ws => { e with kind := .objInit (mv h) ws }
    | _ => e
  let ld := fun (l : Nat × List Nat) => (l.1, l.2.map fun x => if x = line then dst else x)
  let grp := fun (g : Group) => if g.core = core then { g with staged := g.staged.map eff, loads := g.loads.map ld } else g
  { s with groups := s.groups.map grp }

/-- HOME_REQUEST (R143, R144, R139): the home takes one request for a line at a time and probes the holders. A page being copied answers "moved", and the
request goes to the destination, which holds it until the copy ends. -/
def execHomeRequest (core : CoreId) (line : Nat) (s : State) : Out_ :=
  match s.coh.req? core line with
  | none => .next s
  | some r =>
    if r.stage ≠ .sent ∨ s.arriving line ∨ (s.coh.reqs.any fun q => q.line = line && q.stage == .probing) then .next s
    else if s.leaving line then
      let t := (s.retarget core line (s.movedTo line)).updReq core line fun r => { r with line := s.movedTo line }
      .next t
    else
      let c := s.coh.woken line
      .next (State.updReq { s with coh := c } core line fun r => { r with stage := .probing, wait := c.asked r })

/-- A core holds a staged store to a line (R189). -/
def State.wants (s : State) (core : CoreId) (line : Nat) : Bool :=
  s.groups.any fun g => g.core = core && g.staged.any fun e => !e.away && match e.kind with
    | .write ps _ _ => ps.any fun p => p.tgt == .mem && p.addr / 64 * 64 == line
    | .objInit h _ => h.addr / 64 * 64 == line
    | _ => false

/-- A holder gives a line up, or keeps a copy that others may read (Table 11-1). A sharer's copy is gone with the owner's state as it was;
the copies that are left without an owner are clean. -/
def Line.yield (l : Line) (core : CoreId) (own : Bool) : Line :=
  if own then
    let h := l.holders.filter (· ≠ core)
    let o := if l.owner = some core then none else l.owner
    { l with owner := o, holders := h, state := if o.isSome then l.state else if h = [] then .i else .s }
  else
    match l.state with
    | .m | .o => { l with state := .o }
    | _ => { l with state := .s, owner := none }

/-- COHERENCE_PROBE (R143, R144, R189, R351): a holder answers the probes for a line, unless it holds the line locked. It answers with the
line as it stands, without its staged stores, and asks for ownership again if it still wants it. -/
def execCoherenceProbe (core : CoreId) (line : Nat) (s : State) : Out_ :=
  match s.coh.reqs.find? fun r => r.line = line && r.stage == .probing && r.wait.contains core with
  | none => .next s
  | some r =>
    if (s.lockOf line).any fun l => l.2 == core then .next s
    else
      let coh := s.coh.setLine ((s.coh.line line).yield core r.own)
      let t := { s with coh := coh }.updReq r.core line fun r => { r with wait := r.wait.filter (· ≠ core), acks := r.acks ++ [core] }
      .next (if r.own && t.wants core line then t.request core line true r.priv else t)

/-- INVALIDATION_ACK (R143): an acknowledgement reaches the home. -/
def execInvalidationAck (core : CoreId) (line : Nat) (s : State) : Out_ :=
  .next { s with coh := { s.coh with reqs := s.coh.reqs.map fun r => if r.line = line then { r with acks := r.acks.filter (· ≠ core) } else r } }

/-- A request has heard from every holder. -/
def HomeReq.answered (r : HomeReq) : Bool := r.stage == .probing && r.wait.isEmpty && r.acks.isEmpty

/-- The home, its bank awake (R153), grants a line: M or E for ownership, otherwise a copy that others may hold too (R142 to R144, R160). Where it has probed
every holder of the region's entry it clears the bits that name none. -/
def Coh.grant (c : Coh) (r : HomeReq) : Coh :=
  let c := c.woken r.line
  let l := c.line r.line
  let others := l.holders.filter (· ≠ r.core)
  let l' := if r.own then { l with state := .m, owner := some r.core, holders := [r.core] }
    else if others = [] ∧ l.owner = none then { l with state := .e, owner := some r.core, holders := [r.core] }
    else { l with state := if l.owner.isSome then .o else .s, holders := r.core :: others }
  let c := Coh.setLine { c with reqs := c.reqs.filter fun q => !(q.core = r.core && q.line = r.line) } l'
  let c := if r.own then c.trim r.line else c
  if r.priv then c else c.track r.line r.core

/-- A load of a core waits for a line. -/
def State.loadWaits (s : State) (core : CoreId) (line : Nat) : Bool := s.groups.any fun g => g.core = core && g.loads.any fun l => l.2.contains line

/-- The home may answer a request by itself: one for ownership, or a read whose load has been given up (R69). -/
def State.grantable (s : State) (r : HomeReq) : Bool := r.answered && (r.own || !s.loadWaits r.core r.line)

/-- OWNERSHIP_GRANT (R143, R65): the home grants M. A read that no load waits for any more is granted as a read. -/
def execOwnershipGrant (core : CoreId) (line : Nat) (s : State) : Out_ :=
  match s.coh.req? core line with
  | none => .next s
  | some r => when_ (s.grantable r) s { s with coh := s.coh.grant r }

/-- A line of a load is there: the core holds it, or the home has answered for it. -/
def State.lineHere (s : State) (core : CoreId) (line : Nat) : Bool :=
  s.coh.holds core line || (s.coh.req? core line).any fun r => r.answered && !r.own

/-- A line that the core neither has, as it needs it, nor has asked for: a probe or a migration took it (R139, R143). -/
def State.lineLost (s : State) (core : CoreId) (own : Bool) (line : Nat) : Bool :=
  !(if own then s.coh.owns core line else s.coh.holds core line) && !(s.coh.reqs.any fun r => r.core = core && r.line = line && (r.own || !own))

/-- Ask for some lines again. -/
def State.askAgain (s : State) (core : CoreId) (own : Bool) (ls : List Nat) : State :=
  ls.foldl (fun s l => s.request core l own (s.privLine l)) s

/-- LOAD_RETURN (R346, R79): the data of a load arrives, and its lines are held. A line that was taken away before is asked for
again. -/
def execLoadReturn (k : GroupKey) (seq : Nat) (s : State) : Out_ :=
  match s.group? k with
  | none => .next s
  | some g =>
    match g.loads.find? fun l => l.1 = seq with
    | none => .next s
    | some (_, ls) =>
      if !ls.all (s.lineHere g.core) then .next (s.askAgain g.core false (ls.filter (s.lineLost g.core false)))
      else
        let coh := ls.foldl (fun c x => match c.req? g.core x with
          | some r => if r.own then c else c.grant r
          | none => c) s.coh
        .next ({ s with coh := coh }.setGroup (Group.finished { g with loads := g.loads.filter fun l => l.1 ≠ seq } s.now seq))

/-! ## Generations (R152, R153) -/

/-- A die's generation advances (R152, R165, R181). It may pass no unswept stamp of an awake slice by 2^15: the sweep catches up
first. -/
def Coh.advance (c : Coh) (die : Nat) : Coh :=
  let dg := c.dg.getD die 0
  let c := c.markOld die fun l x => stampLag (dg + 1) x ≥ 2 ^ 15 && !c.sleeps l.addr
  { c with dg := c.dg.set die (dg + 1) }

/-- STAMP_SWEEP (R152): an awake slice marks old every line whose stamp lags by 2^14 or more. -/
def execStampSweep (die slice : Nat) (s : State) : Out_ :=
  let dg := s.coh.dg.getD die 0
  when_ (!s.coh.asleep.any fun a => a.1 == die && a.2.1 == slice) s
    { s with coh := s.coh.markOld die fun l x => stampLag dg x ≥ 2 ^ 14 && sliceOf l.addr == slice }

/-- BANK_SLEEP (R153): a bank enters retention sleep and records DG. -/
def execBankSleep (die slice : Nat) (s : State) : Out_ :=
  when_ (!s.coh.asleep.any fun a => a.1 == die && a.2.1 == slice) s
    { s with coh := { s.coh with asleep := (die, slice, s.coh.dg.getD die 0) :: s.coh.asleep } }

/-- BANK_WAKE (R153). -/
def execBankWake (die slice : Nat) (s : State) : Out_ := .next { s with coh := s.coh.wake die slice }

/-! ## Widening and narrow releases (R180, R181, R191) -/

/-- WIDEN_ANSWER (R181, R182): a holding cluster has completed its narrow releases at or before the record's generation and the
dependences behind them; the records are freed, and the generation of the die of the record asked for advances: of that die alone, whatever
other dies' clusters the chain has reached. DESIGN CHOICE (log 19): R182 says of a chained widening only that it completes. -/
def execWidenAnswer (line : Nat) (die cluster : Nat) (s : State) : Out_ :=
  match s.coh.narrows.find? fun n => n.line = line && n.die = die && n.cluster = cluster && n.asked with
  | none => .next s
  | some n => .next { s with coh := (Coh.widen widenDepth s.coh die cluster (some n.gen)).advance die }

/-- NARROW_RELEASE_COMPLETE (R180, R191): a cluster has completed its narrow releases at or before a generation in the background, with
every dependence of theirs. -/
def execNarrowReleaseComplete (die cluster gen : Nat) (s : State) : Out_ :=
  .next { s with coh := Coh.widen widenDepth s.coh die cluster (some (gen % 65536)) }

/-! ## Links (R9, R10, R17, R151) -/

/-- Which dies are present. -/
def State.hasDie (s : State) (d : Nat) : Bool := (s.dies.getD d Die.reset).present && decide (d < 4)

/-- The links between a compute die (0 to 3) or an I/O die (4, 5) and a compute die, as Table 2-2 gives them. -/
def routeFrom (has : Nat → Bool) (a b : Nat) : List Nat :=
  match a, b with
  | 0, 1 | 1, 0 => [0]
  | 2, 3 | 3, 2 => [1]
  | 0, 2 | 2, 0 => [2]
  | 1, 3 | 3, 1 => [3]
  | 0, 3 | 3, 0 => if has 1 then [0, 3] else [2, 1]
  | 1, 2 | 2, 1 => if has 0 then [0, 2] else [3, 1]
  | 4, 0 => [4]
  | 4, 2 => [5]
  | 4, 1 => if has 0 then [4, 0] else [5, 1, 3]
  | 4, 3 => if has 2 then [5, 1] else [4, 0, 3]
  | 5, 1 => [6]
  | 5, 3 => [7]
  | 5, 0 => if has 1 then [6, 0] else [7, 1, 2]
  | 5, 2 => if has 3 then [7, 1] else [6, 0, 2]
  | _, _ => []

/-- The route between two dies of the machine (R10). -/
def State.route (s : State) (a b : Nat) : List Nat := routeFrom s.hasDie a b

/-- The links that a set of dies with a port uses (R17). -/
def linksOf (has : Nat → Bool) (dies : List Nat) (port : Nat) : List Nat :=
  (dies.flatMap fun a => routeFrom has (4 + port) a ++ dies.flatMap fun b => routeFrom has a b).eraseDups

/-- The dies of a partition (Table 2-3). -/
def Part.dies (p : Part) : List Nat := (List.range 4).filter p.hasDie

/-- The links that a partition uses (R17). -/
def State.linksUsed (s : State) (p : Part) : List Nat := linksOf s.hasDie p.dies p.port

/-- The die that a holder's messages leave: a host's come through the I/O die of its port. -/
def portDie (c : CoreId) : Nat := if isHost c then c.die - 2 else c.die

/-- A region's entry records a copy across a link (R144, R151): on a die, or at a host, whose route from the home die takes it. -/
def State.regionAcross (s : State) (link : Nat) (r : Region) : Bool :=
  let d := homeDie r.addr
  ((List.range 4).any fun x => r.dies.getLsbD x && (s.route x d).contains link) ||
    (r.host && (List.range 2).any fun p => (s.iod p).proto == some .cxl && (s.route (4 + p) d).contains link)

/-- The lines whose entry records a copy across a link, or that await an acknowledgement or a directory update across it (R151). -/
def State.lostLinesOf (s : State) (link : Nat) : List Nat :=
  let regs := (s.coh.regions.filter (s.regionAcross link)).flatMap fun r => (List.range 8).map fun i => r.addr + 64 * i
  let reqs := s.coh.reqs.filter fun r => decide (r.line < Config.hostBase) && !r.priv &&
    (r.core :: (r.wait ++ r.acks)).any fun c => (s.route (portDie c) (homeDie r.line)).contains link
  (regs ++ reqs.map HomeReq.line).eraseDups

/-- Poison every word of some lines (R140, R151, R233). -/
def Ram.taintLines (r : Ram) (ls : List Nat) : Ram := ls.foldl (fun r l => r.taint l 64) r

/-- LINK_DOWN (R151): the link stays down; the lines whose copies or acknowledgements cross it are lost, and the partitions that use it
take the fatal reset. -/
def execLinkDown (link : Nat) (s : State) : Out_ :=
  if s.coh.linkDown.contains link ∨ 8 ≤ link then .next s
  else
    let lost := s.lostLinesOf link
    let coh := lost.foldl (fun c l => c.setLine { c.line l with state := .i, owner := none, holders := [] }) s.coh
    let coh := { coh with linkDown := link :: coh.linkDown, reqs := coh.reqs.filter fun r => !lost.contains r.line }
    let t := { s with ram := s.ram.taintLines lost, coh := coh }
    .next ((List.range 16).foldl (fun t p => if (s.linksUsed (s.part p)).contains link then t.askReset p else t) t)

/-- LINK_RETRY (R151, Table 20-12): a flit is sent again; the link's counter counts it. -/
def execLinkRetry (link : Nat) (s : State) : Out_ :=
  .next { s with dev := { s.dev with retries := s.dev.retries.modify link (· + 1) } }

/-- Poison a word of a group's registers (R76), in its registers now and in the images that hold the same value. -/
def Group.taint (g : Group) (p : RegFile × Nat × Nat) : Group :=
  let word := fun (a : Arch) => match p.1 with
    | .vec => [(a.vreg p.2.1 (2 * p.2.2)).setWidth 64, (a.vreg p.2.1 (2 * p.2.2 + 1)).setWidth 64]
    | .scl => [a.sreg p.2.1]
    | .prd => [a.preg p.2.1]
  let f := fun (a : Arch) => if word a = word g.arch then { a with pois := (p :: a.pois).eraseDups } else a
  { g with
    arch := f g.arch
    ckpts := g.ckpts.map fun c => { c with arch := f c.arch }
    rob := g.rob.map fun e => { e with undo := f e.undo } }

/-- The words that an effect writes, in order. -/
def Effect.words (e : Effect) : List (Target × Nat) :=
  (e.pieces.flatMap fun p => (wordsOf p.addr p.data.length).map fun w => (p.tgt, w)).eraseDups

/-- A word of what an entry has staged has met a double-bit error in the quarantine buffer (R76, R405): of its words, counted over its
effects, that of number `w`. -/
def Group.taintStaged (g : Group) (seq w : Nat) : Group :=
  let hit := (((g.staged.filter fun e => e.seq = seq).flatMap Effect.words).drop w).head?
  { g with staged := g.staged.map fun e =>
    if e.seq = seq then { e with pois := e.pois ++ (hit.toList.filter fun x => e.words.contains x && !e.pois.contains x) } else e }

/-- MACHINE_CHECK (R76, R78, R226, R233): the partitions whose state an uncorrectable upset outside quarantine has held take the fatal reset;
a corrected error counts (Table 20-12); a double-bit error poisons the word that holds it. -/
def execMachineCheck (u : Upset) (s : State) : Out_ :=
  .next (match u with
    | .check parts => parts.foldl (fun s p => if p < 16 then s.askReset p else s) s
    | .corrected die => s.setDie die { s.die die with ecc := (s.die die).ecc + 1 }
    | .memory a => { s with ram := s.ram.taint a 1 }
    | .scratchpad t r a => s.updRank t r fun x => { x with scrPoison := addSorted x.scrPoison (8 * (a / 8)) }
    | .operandBuffer t r a => s.updRank t r fun x => { x with opPoison := addSorted x.opPoison (8 * (a / 8)) }
    | .vector g n p => s.updGroup g fun x => x.taint (.vec, n, p)
    | .scalar g n => s.updGroup g fun x => x.taint (.scl, n, 0)
    | .predicate g n => if n < 15 then s.updGroup g fun x => x.taint (.prd, n, 0) else s
    | .accumulator t r z i p => s.updRank t r fun x => { x with z := x.z.modify z fun y =>
        { y with rows := y.rows.modify i fun w => { w with pois := addSorted w.pois p } } }
    | .quarantine g n w => s.updGroup g fun x => x.taintStaged n w)

end Sys2Proof.Machine
end

