-- ==== Sys2Proof/Machine/Move.lean ====
section
/-! DEFINITION. Machine/Move.lean: moves, selection, predicates and the sidecar move (R360 to R362, R377, R390, R391). -/

namespace Sys2Proof.Machine

/-- The FP64 pattern of an FP32 pattern, exact; a NaN keeps its sign, its quiet bit and its payload (R361). -/
def widenFp32 (x : BitVec 32) : Dword :=
  let sgn := (x.extractLsb' 31 1).setWidth 64 <<< 63
  let e := (x.extractLsb' 23 8).toNat
  let f := (x.extractLsb' 0 23).toNat
  if e = 255 then sgn ||| (0x7FF : Dword) <<< 52 ||| BitVec.ofNat 64 (f * 2 ^ 29)
  else if e = 0 then
    if f = 0 then sgn
    else
      let k := Nat.log2 f
      sgn ||| BitVec.ofNat 64 ((k + 874) * 2 ^ 52 + (f * 2 ^ (52 - k)) % 2 ^ 52)
  else sgn ||| BitVec.ofNat 64 ((e + 896) * 2 ^ 52 + f * 2 ^ 29)

/-- What MOVI writes for its type (R361). -/
def moviValue (ty : Ty) (imm : BitVec 32) : Dword :=
  match ty with
  | .fp64 => widenFp32 imm
  | .s64 => imm.signExtend 64
  | .b64 | .n64 => imm.setWidth 64
  | t => extend t imm.toNat

/-- The operations of PAND (R377). -/
def predOp (op : PredOp) (a b : Bool) : Bool :=
  match op with
  | .and => a && b
  | .or => a || b
  | .xor => a ^^ b
  | .andn => a && !b
  | .orn => a || !b
  | .xnor => a == b

/-- MOV (R360): bits copied unchanged. -/
def execMov (c : Ctl) (ty : Ty) (d a : Opd) (s : State) : Out_ :=
  alu (.mov c ty d a) c s ty.wide d fun r L => bits ty (readBits r ty a L)

/-- MOVI (R361). -/
def execMovi (c : Ctl) (ty : Ty) (d : Opd) (imm : BitVec 32) (s : State) : Out_ :=
  alu (.movi c ty d imm) c s ty.wide d fun _ _ => moviValue ty imm

/-- MOVH (R362): IMM into bits 63:32, bits 31:0 kept. -/
def execMovh (c : Ctl) (d : Opd) (imm : BitVec 32) (s : State) : Out_ :=
  alu (.movh c d imm) c s true d fun r L => imm ++ (readRaw r true d L).extractLsb' 0 32

/-- SEL (R391). -/
def execSel (c : Ctl) (ty : Ty) (d p a b : Opd) (s : State) : Out_ :=
  alu (.sel c ty d p a b) c s ty.wide d fun r L => bits ty (if predAt r p L then readBits r ty a L else readBits r ty b L)

/-- PAND (R377). -/
def execPand (c : Ctl) (op : PredOp) (d a b : Opd) (s : State) : Out_ :=
  aluPrd (.pand c op d a b) c s d fun r L => predOp op (predAt r a L) (predAt r b L)

/-- The sidecar of a vector register. -/
def Arch.side (a : Arch) (n : Nat) : List Byte := (a.v.getD n ⟨[], plainSide⟩).side

/-- Replace the sidecar of a vector register. -/
def Arch.setSide (a : Arch) (n : Nat) (x : List Byte) : Arch := { a with v := a.v.modify n fun r => { r with side := x } }

/-- SCMOV.get (R390): the sidecar's bytes into lanes 0 to 3, zero into the other active lanes. -/
def execScmovGet (c : Ctl) (d a : Opd) (s : State) : Out_ :=
  alu (.scmovGet c d a) c s false d fun r L =>
    if L < 4 then BitVec.ofNat 64 (leNat (((r.side (vecNo a)).drop (4 * L)).take 4)) else 0

/-- SCMOV.put (R390): the bytes of lanes 0 to 3, whatever their guard, into the sidecar; the data lanes stay. -/
def execScmovPut (c : Ctl) (d a : Opd) (s : State) : Out_ :=
  serve (.scmovPut c d a) c s fun v =>
    let x := (List.range 16).map fun b => (v.g.arch.vreg (vecNo a) (b / 4)).extractLsb' (8 * (b % 4)) 8
    .done s { v.g with arch := v.g.arch.setSide (vecNo d) x } 0

end Sys2Proof.Machine
end

