-- ==== Sys2Proof/Machine/Mx.lean ====
section
/-! DEFINITION. Machine/Mx.lean: the block-scaled forms (R87 to R89, R363 to R369). -/

namespace Sys2Proof.Machine

/-- emax of R89. -/
def mxEmax (ty : Ty) : Int :=
  match ty with
  | .mxe4m3 => 8
  | .mxe5m2 => 15
  | .mxe3m2 => 4
  | .mxs8 => 0
  | _ => 2

/-- The block of packed element `n` of lane `L` (R88). -/
def mxBlockOf (ty : Ty) (L n : Nat) : Nat := (L * ty.per + n) / 32

/-- The lanes of block `b`: 32 / k of them. -/
def mxLanes (ty : Ty) (b : Nat) : List Nat := (List.range (32 / ty.per)).map fun i => b * (32 / ty.per) + i

/-- Blocks of a register of a group (R88). -/
def mxBlocks (ty : Ty) (w : Nat) : Nat := w * ty.per / 32

/-- An element's own value, before its scale, after DAZ (R87, R364). -/
def mxRaw (r : Arch) (ty : Ty) (x : Nat) : Fv × Flg :=
  if ty = .mxs8 then
    let i := asInt .s8 x
    (.fin (decide (i < 0)) i.natAbs (-6), 0)
  else (fmtOf ty).operand (fpDaz r.fpctl (fpClass ty)) x

/-- A value times the scale of a byte (R87). -/
def mxScaled (x : Nat) : Fv → Fv
  | .fin n m e => if x = 255 then .nan false else .fin n m (e + x - 127)
  | v => if x = 255 then .nan false else v

/-- Element `n` of lane `L` of an MX register, exact (R364). In a block of scale NaN every element reads as the canonical NaN, whatever its
bits: nothing is flushed, and nothing signals (R87). -/
def mxElem (r : Arch) (ty : Ty) (o : Opd) (L n : Nat) : Fv × Flg :=
  let v := mxRaw r ty (elemOf ty (r.vreg (vecNo o) L).toNat n)
  let x := ((r.side (vecNo o)).getD (mxBlockOf ty L n) 0x7F).toNat
  (mxScaled x v.1, if x = 255 then 0 else v.2)

/-- A block's scale byte from its exact results (R89, R364). -/
def mxScale (ty : Ty) (l : List Fv) : Nat :=
  if l.any Fv.isNan then 255
  else
    let tops : List Int := l.filterMap fun v => match v with
      | .fin _ m e => if m = 0 then none else some (e + Nat.log2 m)
      | _ => none
    match tops with
    | [] => if l.any (fun v => match v with | .inf _ => true | _ => false) then 254 else 0
    | t :: ts => (max 0 (min 254 (ts.foldl max t - mxEmax ty + 127))).toNat

/-- A value divided by the scale of a byte. -/
def mxUnscaled (x : Nat) : Fv → Fv
  | .fin n m e => .fin n m (e - x + 127)
  | v => v

/-- An MXS8 element: rounded to an integer of 2^−6 and clamped with OF (R364). -/
def mxInt (mode : Rnd) (rnd : Nat) : Fv → Nat × Flg
  | .fin neg m e =>
    let r := roundAt mode rnd neg m e (-6)
    let x : Int := if neg then -(r.1 : Int) else r.1
    if x < -128 then (0x80, Flg.ovf ||| Flg.nx)
    else if x > 127 then (0x7F, Flg.ovf ||| Flg.nx)
    else ((x % 256).toNat, if r.2 then Flg.nx else 0)
  | .inf neg => (if neg then 0x80 else 0x7F, Flg.ovf ||| Flg.nx)
  | .nan _ => (0, 0)

/-- The number of the free value of element `n` in lane-and-element order, of the instruction that a group dispatches next (log 15). -/
def Group.freeKey (g : Group) (n : Nat) : Nat :=
  let t := g.key.team
  n + 512 * (g.seq + 2 ^ 64 * (g.key.grp + 64 * (t.idx + 2 ^ 64 * (t.part + 16 * t.grid))))

/-- One element at a block's scale (R89). In a block of scale NaN an element that is itself a NaN is the canonical NaN of a format that has
one (R82); to every other element the manual gives no bits: a free choice (log 15). -/
def mxCode (r : Arch) (ty : Ty) (rnd : Rnd) (draw scale key : Nat) (v : Fv) : Nat × Flg :=
  if scale = 255 then
    if v.isNan && (ty == .mxe4m3 || ty == .mxe5m2) then (((fmtOf ty).ofFv ⟨.rne, 0, false, false⟩ v).1, 0)
    else (Config.freeNat key % 2 ^ ty.bits, 0)
  else if ty = .mxs8 then mxInt (rndMode r.fpctl rnd) draw (mxUnscaled scale v)
  else (fmtOf ty).ofFv ⟨rndMode r.fpctl rnd, draw, fpFtz r.fpctl (fpClass ty), fpSat8 r.fpctl⟩ (mxUnscaled scale v)

/-- A block's lanes: all active, none active, or neither (R88). -/
def mxCover (ty : Ty) (act : Mask) (b : Nat) : Option Bool :=
  let l := mxLanes ty b
  if l.all act.has then some true else if l.all fun L => !act.has L then some false else none

/-- A body of an MX instruction: a block that its active lanes cover only in part is trap 0x02 (R88). -/
def mxWhole (ty : Ty) (v : Served) (s : State) (body : Unit → Res) : Res :=
  if (List.range (mxBlocks ty v.g.w)).all fun b => (mxCover ty v.act b).isSome then body () else v.trap s 0x02 v.act 0

/-- An MX instruction that writes an MX register (R364): `f` gives the exact result of an element with its flags. -/
def mxWrite (i : Instr) (c : Ctl) (s : State) (rnd : Rnd) (ty : Ty) (d : Opd) (f : Arch → Nat → Nat → Fv × Flg) : Out_ :=
  serve i c s fun v =>
    let n := mxBlocks ty v.g.w
    mxWhole ty v s fun _ =>
      withDraw v s rnd fun v draw =>
        let r := v.g.arch
        let scale := fun b => mxScale ty ((mxLanes ty b).flatMap fun L => (List.range ty.per).map fun k => (f r L k).1)
        let scales := (List.range n).map fun b => if mxCover ty v.act b = some true then scale b else ((r.side (vecNo d)).getD b 0).toNat
        let code := fun L k => mxCode r ty rnd (draw L k) (scales.getD (mxBlockOf ty L k) 0) (v.g.freeKey (L * 8 + k)) (f r L k).1
        let word := fun L => (List.range ty.per).foldl (fun x k => x + (code L k).1 * 2 ^ (ty.bits * k)) 0
        let flag := fun L => (List.range ty.per).foldl (fun x k => x ||| (f r L k).2 ||| (code L k).2) 0
        let side := (List.range 16).map fun b => if b < n then BitVec.ofNat 8 (scales.getD b 0) else 0x7F
        raiseFlags v s flag { v.g with arch := (writeDst r false d v.act fun L => BitVec.ofNat 64 (word L)).setSide (vecNo d) side }

/-- MXADD (R365). -/
def execMxadd (c : Ctl) (rnd : Rnd) (ty : Ty) (d a b : Opd) (s : State) : Out_ :=
  mxWrite (.mxadd c rnd ty d a b) c s rnd ty d fun r L n =>
    let x := mxElem r ty a L n
    let y := mxElem r ty b L n
    let z := x.1.add (rndMode r.fpctl rnd) y.1
    (z.1, x.2 ||| y.2 ||| z.2)

/-- MXMUL (R365). -/
def execMxmul (c : Ctl) (rnd : Rnd) (ty : Ty) (d a b : Opd) (s : State) : Out_ :=
  mxWrite (.mxmul c rnd ty d a b) c s rnd ty d fun r L n =>
    let x := mxElem r ty a L n
    let y := mxElem r ty b L n
    let z := x.1.mul y.1
    (z.1, x.2 ||| y.2 ||| z.2)

/-- MXFMA (R365). -/
def execMxfma (c : Ctl) (rnd : Rnd) (ty : Ty) (d a b e : Opd) (s : State) : Out_ :=
  mxWrite (.mxfma c rnd ty d a b e) c s rnd ty d fun r L n =>
    let x := mxElem r ty a L n
    let y := mxElem r ty b L n
    let z := mxElem r ty e L n
    let w := Fv.fma (rndMode r.fpctl rnd) x.1 y.1 z.1
    (w.1, x.2 ||| y.2 ||| z.2 ||| w.2)

/-- MXNORM (R366). -/
def execMxnorm (c : Ctl) (rnd : Rnd) (ty : Ty) (d a : Opd) (s : State) : Out_ :=
  mxWrite (.mxnorm c rnd ty d a) c s rnd ty d fun r L n =>
    let x := mxElem r ty a L n
    (x.1, x.2 ||| x.1.nvOf)

/-- MXPACK (R367): FP32 values from vA + n, after DAZ of class 1. -/
def execMxpack (c : Ctl) (rnd : Rnd) (ty : Ty) (d a : Opd) (s : State) : Out_ :=
  mxWrite (.mxpack c rnd ty d a) c s rnd ty d fun r L n =>
    let x := (fmtOf .fp32).operand (fpDaz r.fpctl 1) (r.vreg (vecNo a + n) L).toNat
    (x.1, x.2 ||| x.1.nvOf)

/-- One element of a lane to FP32 (R368). -/
def mxUnpacked (rnd : Rnd) (ty : Ty) (a n : Opd) (r : Arch) (L : Nat) : Nat × Flg :=
  let x := mxElem r ty a L (immVal n).toNat
  let y := (fmtOf .fp32).ofFv (fpEnv r rnd .fp32) x.1
  (y.1, x.2 ||| y.2)

/-- MXUNPK (R368). -/
def execMxunpk (c : Ctl) (rnd : Rnd) (ty : Ty) (d a n : Opd) (s : State) : Out_ :=
  serve (.mxunpk c rnd ty d a n) c s fun v => mxWhole ty v s fun _ => fpuBody .fp32 d (mxUnpacked rnd ty a n) s v

end Sys2Proof.Machine
end

