-- ==== Sys2Proof/Machine/Matrix.lean ====
section
/-! DEFINITION. Machine/Matrix.lean: reservations (R103 to R105, R294), convergence registers and signing (R106 to R109, R122, R409),
TMAC (R110 to R116, R396, R397), the accumulator tiles (R117 to R120, R403, R404), and the events of the arrays. -/

namespace Sys2Proof.Machine

/-! ## Reservations -/

/-- Fields of a reservation's format (Table 8-1). -/
def fmtTy (f : Nat) : Nat := bitsOf f 4 0
def fmtSlot (f : Nat) : Nat := bitsOf f 55 48
def fmtScoff (f : Nat) : Nat := bitsOf f 47 16

/-- A format word that Table 8-1 admits. -/
def fmtOk (f : Nat) : Bool :=
  let t := fmtTy f
  let mx := decide (20 ≤ t)
  bitsOf f 63 56 == 0 && bitsOf f 15 13 == 0 && bitsOf f 7 5 == 0 && (t == 1 || decide (12 ≤ t)) && decide (t ≤ 25) &&
    (if t = 19 then decide (fmtSlot f ≤ 63) else fmtSlot f == 0) &&
    (if mx then fmtScoff f != 0 && fmtScoff f % 64 == 0 else fmtScoff f == 0) && bitsOf f 12 8 == if mx then 5 else 0

/-- Two runs of bytes overlap. -/
def overlaps (a m b n : Nat) : Bool := decide (a < b + n) && decide (b < a + m)

/-- BRSV (R103, R104). -/
def execBrsv (c : Ctl) (b sa sb : Opd) (s : State) : Out_ :=
  serve (.brsv c b sa sb) c s fun v =>
    let x := readRaw v.g.arch true sa 0
    let f := readRaw v.g.arch true sb 0
    let off := bitsOf x.toNat 31 0
    let len := bitsOf x.toNat 63 32
    let r := s.rankOf v.g.key.team v.g.rank
    let room := ((s.team? v.g.key.team).map fun t => t.blk.opbuf).getD 0
    let ok := fmtOk f.toNat && off % 256 == 0 && len % 256 == 0 && decide (256 ≤ len) && decide (off + len ≤ room)
    match assoc r.b (objNo b) with
    | some y =>
      if y.marked then .wait s v.run
      else if y.off = off ∧ y.len = len ∧ y.fmt = f then .done s v.g 0
      else v.trap s 0x0C v.act 0
    | none =>
      if !ok || r.b.any (fun y => overlaps off len y.2.off y.2.len) then v.trap s 0x0C v.act 0
      else
        let t := s.updRank v.g.key.team v.g.rank fun r => { r with b := assocPut r.b (objNo b) ⟨off, len, f, false, false⟩ }
        .done t (v.g.noting (.resv (objNo b) none)) 0

/-- A configured buffer of the rank is bound to a reservation (R105). -/
def Rank.boundTo (r : Rank) (b : Nat) : Bool := r.q.any fun q => q.2.bound == some b

/-- The engine class of effects that are no access (Table 14-5). -/
def noClass : Nat := 6

/-- BFREE (R104): always a region head; it marks the b, and its release frees it. -/
def execBfree (c : Ctl) (b : Opd) (s : State) : Out_ :=
  serve (.bfree c b) { c with hd := true } s fun v =>
    let r := s.rankOf v.g.key.team v.g.rank
    match assoc r.b (objNo b) with
    | none => .done s v.g 0
    | some y =>
      if y.marked then .done s v.g 0
      else if r.boundTo (objNo b) then v.trap s 0x0C v.act 0
      else
        let t := s.updRank v.g.key.team v.g.rank fun r => { r with b := assocPut r.b (objNo b) { y with marked := true } }
        .done t (v.g.stage s.now noClass (.bfree v.g.rank (objNo b)) []) 0

/-! ## What a TMAC word names -/

/-- The fields of a TMAC word: its tile, whether it defers, its type, its first register and its interval P. -/
structure Tmac where
  z  : Nat
  n  : Bool
  ty : Ty
  vb : Nat
  p  : Nat

/-- The fields of a signature's word. -/
def Sign.tmac (x : Sign) : Tmac :=
  match x.word with
  | .tmac _ n ty z _ vb _ p => ⟨objNo z, n, ty, vecNo vb, (immVal p).toNat⟩
  | _ => ⟨0, false, .b32, 0, 1⟩

/-- The buffer or the reservation that a signature names. -/
def Sign.source (x : Sign) : Opd :=
  match x.word with
  | .tmac _ _ _ _ bq _ _ _ => bq
  | _ => .none

/-- The reservation behind a source, and the length of a tile of A (R105). -/
def Rank.tileOf (r : Rank) (o : Opd) : Option (Resv × Nat) :=
  match o with
  | .breg b => (assoc r.b b.val).map fun y => (y, y.len)
  | .qreg q =>
    match r.queue? q.val with
    | none => none
    | some x =>
      let d := x.desc.toNat
      match x.bound.bind fun b => assoc r.b b with
      | none => none
      | some y =>
        if descSpace d = 1 ∧ descCons d = 2 ∧ y.off ≤ descBase d ∧ descBase d + descS d * descSlot d ≤ y.off + y.len then some (y, descSlot d)
        else none
  | _ => none

/-- How a tile of A is laid out (R105): its element type, its data bytes, K and the k-step. -/
structure ATile where
  ty   : Ty
  data : Nat
  k    : Nat
  ks   : Nat

/-- The k-step of Table 8-4. -/
def kStep (ty : Ty) : Nat :=
  match ty.bits with
  | 16 => 16
  | 8 => 32
  | _ => 64

/-- The layout of a tile of `len` bytes under a format (R105); none where K or the scales do not fit. -/
def aTile (f len : Nat) : Option ATile :=
  let ty := (Ty.ofCode (fmtTy f)).getD .s8
  let mx := decide (20 ≤ fmtTy f)
  let d := if mx then fmtScoff f else len
  let bits := 8 * (d / 64)
  let k := bits / ty.bits
  if bits % ty.bits = 0 ∧ k % kStep ty = 0 ∧ 0 < k ∧ k ≤ 4096 ∧ (!mx ∨ fmtScoff f + 2 * k ≤ len) then some ⟨ty, d, k, kStep ty⟩ else none

/-- Table 8-3. -/
def pairs (a b : Ty) : Bool :=
  match a, b with
  | .bf16, .bf16 | .fp16, .fp16 | .s8, .s8 | .mxs8, .mxs8 => true
  | .e4m3, .e4m3 | .e4m3, .e5m2 | .e5m2, .e4m3 | .e5m2, .e5m2 => true
  | .e3m2, y | .e2m3, y | .e2m1, y | .cb4, y => y == .e3m2 || y == .e2m3 || y == .e2m1
  | .mxe4m3, y | .mxe5m2, y => y == .mxe4m3 || y == .mxe5m2
  | .mxe3m2, y | .mxe2m3, y | .mxe2m1, y => y == .mxe3m2 || y == .mxe2m3 || y == .mxe2m1
  | _, _ => false

/-- Registers of a B quarter (R110). -/
def bRegs (k w : Nat) (ty : Ty) : Nat := (k * 32 + w * ty.per - 1) / (w * ty.per)

/-- Threads of a generation. -/
def genCount (l : List Sign) : Nat := (l.map Sign.count).foldl (· + ·) 0

/-- Exactly one group of each quadrant (R109, kind 2). -/
def genSquare (l : List Sign) : Bool := l.length == 4 && (List.range 4).all fun q => l.any fun x => x.quad == q

/-- TADDR of trap 0x0D at a convergence register (R109). -/
def convAddr (c kind : Nat) : Nat := c + 256 * kind

/-- The faults a closing generation of register `c` meets (R109 kind 2, R122, Table 26-8): the lowest code (R410), with its TADDR. DESIGN CHOICE
(log 24): a TMAC that names a b which is not reserved has no K to read a layout from, and takes trap 0x0C with TADDR 0; no rule names a
trap for it. -/
def closeFault (r : Rank) (w c : Nat) (l : List Sign) : Option (Nat × Nat) :=
  let x := l.headD default
  let t := x.tmac
  let q := match x.source with
    | .qreg n => some n.val
    | _ => none
  let tile := r.tileOf x.source
  let lay := tile.bind fun y => aTile y.1.fmt.toNat y.2
  let cb := tile.all fun y => fmtTy y.1.fmt.toNat != 19 || (assoc r.cb (fmtSlot y.1.fmt.toNat)).isSome
  let pair := tile.all fun y => pairs ((Ty.ofCode (fmtTy y.1.fmt.toNat)).getD .s8) t.ty
  let fits := lay.all fun a => l.all fun y => decide (t.vb + bRegs a.k w t.ty ≤ y.nv)
  if !fits then some (0x02, 0)
  else if r.z.length ≤ t.z || (tile.isNone && q.isNone) || (tile.isSome && lay.isNone) || !cb || !pair then some (0x0C, 0)
  else if !genSquare l then some (0x0D, convAddr c 2)
  else if tile.isNone then some (0x0E, q.getD 0)
  else none

/-! ## Convergence registers -/

/-- The word of a TMAC without its guard and HD bit (R109, kind 1). -/
def bareWord (i : Instr) : Instr :=
  let c : Ctl := ⟨⟨false, 0⟩, ⟨false, 0⟩, false, false⟩
  match i with
  | .tmac _ n ty z bq vb cr p => .tmac c n ty z bq vb cr p
  | i => i

/-- The kind of R109 that an open generation meets as it stands: 3, 1 or 8. DESIGN CHOICE (log 24): where kinds 1 and 3 hold together,
kind 3 is reported; R109 ranks neither. -/
def genKind (count : Option Nat) (l : List Sign) : Option Nat :=
  let twice := (l.map Sign.group).eraseDups.length != l.length
  let mixed := l.any fun x => bareWord x.word != bareWord (l.headD default).word
  if twice then some 3 else if mixed then some 1 else if count.getD 256 < genCount l then some 8 else none

/-- A signer whose TMAC has retired before a dropped operation returned its signature (R119) takes the trap with that TMAC's PC; its
entries, younger ones all, are discarded. DESIGN CHOICE (log 24): the spec does not say where such a group stands. -/
def State.faultRetired (s : State) (x : Sign) (cause addr : Nat) : State :=
  match s.group? x.group with
  | none => s
  | some g =>
    let n := (g.rob.head?.map Entry.seq).getD g.seq
    let a := (g.rob.head?.map Entry.undo).getD g.arch
    (s.recover x.group n a).updGroup x.group fun h => { h with trap := some ⟨cause, x.pc, x.mask, BitVec.ofNat 64 addr, 0⟩ }

/-- The entry of a signer is still in its group's reorder buffer. -/
def State.signer? (s : State) (x : Sign) : Bool := (s.group? x.group).any fun g => g.rob.any fun e => e.seq == x.seq

/-- The signatures at which the signers of a generation trap: of each group, its oldest whose TMAC has not retired. -/
def State.trapSigns (s : State) (l : List Sign) : List Sign :=
  ((l.map Sign.group).eraseDups).filterMap fun k =>
    let mine := l.filter fun x => x.group == k
    (mine.find? s.signer?).orElse fun _ => mine.head?

/-- Void signatures: every signer takes the trap at its TMAC (R109, R122). -/
def State.voidSigns (s : State) (l : List Sign) (cause addr : Nat) : State :=
  (s.trapSigns l).foldl (fun s x => if s.signer? x then s.faultEntry x.group x.seq cause x.mask addr else s.faultRetired x cause addr) s

/-- Change a convergence register. -/
def State.setConv (s : State) (k : TeamKey) (r c : Nat) (x : Conv) : State := s.updRank k r fun y => y.setConv c x

/-- The open generations of a convergence register, the oldest first (R409). -/
def Conv.gens (x : Conv) : List (List Sign) := x.old.map Prod.snd ++ [x.cur]

/-- Void each open generation to which `kind` gives a kind of R109: it holds no signature and issues nothing, and its signers take
trap 0x0D (R109, R409). -/
def State.voidGens (s : State) (k : TeamKey) (r c : Nat) (kind : List Sign → Option Nat) : State :=
  let x := (s.rankOf k r).conv c
  let bad := fun l => (kind l).isSome
  let keep := { x with old := x.old.filter fun l => !bad l.2, cur := if bad x.cur then [] else x.cur }
  (x.gens.filter bad).foldl (fun s l => s.voidSigns l 0x0D (convAddr c ((kind l).getD 0))) (s.setConv k r c keep)

/-- Void every open generation that meets kind 1, 3 or 8 (R109, R409). -/
def State.voidBad (s : State) (k : TeamKey) (r c : Nat) : State := s.voidGens k r c (genKind ((s.rankOf k r).conv c).count)

/-- Put an operation in the order of closing, then of c (R107). -/
def queueOp (l : List MatOp) (o : MatOp) : List MatOp :=
  match l with
  | [] => [o]
  | x :: r => if o.at_ < x.at_ ∨ (o.at_ = x.at_ ∧ o.c < x.c) then o :: x :: r else x :: queueOp r o

/-- The registers of a B quarter that a closing generation takes from each signer (R110). -/
def bQuarter (r : Rank) (w : Nat) (x : Sign) : Nat :=
  match (r.tileOf x.source).bind fun y => aTile y.1.fmt.toNat y.2 with
  | some a => bRegs a.k w x.tmac.ty
  | none => 0

/-- The lanes of a signer whose words of the first `n` registers of its B quarter are poisoned (R76). -/
def Sign.poisoned (x : Sign) (n : Nat) : Mask :=
  Mask.ofLanes (x.mask.lanes.filter fun L => x.pois.any fun p => decide (p.1 < n) && p.2 == L / 2)

/-- Close a generation (R107): the checks of R109 and R122; then its operation is queued, under the number it had when it closed
first (R409). A signer whose B quarter holds poison takes trap 0x0B at its TMAC, and its signature is withdrawn (R76, R119). -/
def State.closeGen (s : State) (k : TeamKey) (r c : Nat) (id : Option Nat) (l : List Sign) : State :=
  let w := ((s.team? k).map fun t => t.blk.width).getD 64
  match closeFault (s.rankOf k r) w c l with
  | some (cause, addr) => s.voidSigns l cause addr
  | none =>
    let t := s.updRank k r fun y =>
      { y with ops := queueOp y.ops ⟨id.getD y.nextId, c, l, none, false, s.now⟩, nextId := if id.isNone then y.nextId + 1 else y.nextId }
    let n := bQuarter (s.rankOf k r) w (l.headD default)
    l.foldl (fun t x => if x.poisoned n = 0 then t else t.faultEntry x.group x.seq 0x0B (x.poisoned n) 0) t

/-- Close the generations that have reached the declared count, the oldest first (R107, R409). -/
def State.closeAll : Nat → State → TeamKey → Nat → Nat → State
  | 0, s, _, _, _ => s
  | n + 1, s, k, r, c =>
    let x := (s.rankOf k r).conv c
    match x.count, x.old with
    | none, _ => s
    | some m, (id, l) :: old =>
      if genCount l = m then State.closeAll n ((s.setConv k r c { x with old := old }).closeGen k r c (some id) l) k r c else s
    | some m, [] =>
      if genCount x.cur = m then State.closeAll n ((s.setConv k r c { x with cur := [] }).closeGen k r c none x.cur) k r c else s

/-- Judge a convergence register after a signature or a CVSET. -/
def State.judge (s : State) (k : TeamKey) (r c : Nat) : State :=
  let t := s.voidBad k r c
  State.closeAll (((t.rankOf k r).conv c).old.length + 1) t k r c

/-- Every resident group of the core rank holds a signature in a generation that some group holds. -/
def State.allSigned (s : State) (k : TeamKey) (r : Nat) (l : List Sign) : Bool :=
  !l.isEmpty && (s.groups.filter fun g => g.key.team = k && g.rank == r).all fun g => l.any fun x => x.group == g.key

/-- Void the generations that can gain no further signature (R109, kind 4): those of which every group without a signature has
retired, and whose count is not reached; one that has reached it waits behind an older generation (R409). -/
def State.judge4 (s : State) (k : TeamKey) (r c : Nat) : State :=
  let m := ((s.rankOf k r).conv c).count
  s.voidGens k r c fun l => if s.allSigned k r l && m != some (genCount l) then some 4 else none

/-- Groups of a team that stand on a core rank (R24). -/
def Launch.onRank (b : Launch) (r : Nat) : Nat := ((List.range b.groups).filter fun g => rankOf b.ranks g = r).length

/-- A group of the core rank has retired. -/
def State.someRetired (s : State) (k : TeamKey) (r : Nat) : Bool :=
  match s.team? k with
  | none => false
  | some t => decide ((s.groups.filter fun g => g.key.team = k && g.rank == r).length < t.blk.onRank r)

/-- Judge a convergence register after a signature or a CVSET; a declared generation that can gain no further signature is voided too
(R109). DESIGN CHOICE (log 24): the spec judges kind 4 when a group retires, whether or not c is declared; a signature that comes after is
judged only on a declared c, and only once a group has retired. -/
def State.signed (s : State) (k : TeamKey) (rank c : Nat) : State :=
  let t := s.judge k rank c
  if ((t.rankOf k rank).conv c).count.isSome && t.someRetired k rank then t.judge4 k rank c else t

/-- Void, with kind 7, the open generations that `bad` names (R106, R109): the CVSET's own group takes the trap at its TMAC where that
has not retired, and at the CVSET otherwise. -/
def cvsetVoid (s : State) (v : Served) (c : Nat) (bad : List Sign → Bool) : Res :=
  let k := v.g.key.team
  let x := (s.rankOf k v.g.rank).conv c
  let own := fun (y : Sign) => y.group == v.g.key && s.signer? y
  let mine := (x.gens.filter bad).flatten.any own
  let x' : Conv := { x with
    old := x.old.map fun l => if bad l.2 then (l.1, l.2.filter fun y => y.group != v.g.key || own y) else l
    cur := if bad x.cur then x.cur.filter fun y => y.group != v.g.key || own y else x.cur }
  let gone := (x.gens.filter bad).map (fun l => l.filter fun y => y.group != v.g.key || own y)
  let t := (s.setConv k v.g.rank c x').voidGens k v.g.rank c fun l => if gone.contains l then some 7 else none
  if mine then .took t else v.trap t 0x0D v.act (convAddr c 7)

/-- CVSET (R106), on each open generation on its own (R409). DESIGN CHOICE (log 24): trap 0x02, for an n above 256, has TADDR 0 as in
Table 19-6, though R106 gives the TADDR of a CVSET that traps the layout of R109. -/
def execCvset (c : Ctl) (cr : Opd) (imm : BitVec 32) (s : State) : Out_ :=
  serve (.cvset c cr imm) c s fun v =>
    let k := v.g.key.team
    let r := v.g.rank
    let x := (s.rankOf k r).conv (objNo cr)
    let n := imm.toNat
    let held := x.gens.flatten
    let set := fun n => s.setConv k r (objNo cr) { x with count := if n = 0 then none else some n }
    let done := fun (t : State) => Res.done t (v.g.noting (.count (objNo cr) x.count)) 0
    if 256 < n then v.trap s 0x02 v.act 0
    else
      match x.count with
      | none =>
        if n = 0 then .done s v.g 0
        else if x.gens.any fun l => decide (n < genCount l) then cvsetVoid s v (objNo cr) fun l => decide (n < genCount l)
        else
          let t := (set n).signed k r (objNo cr)
          match (t.group? v.g.key).bind Group.trap with
          | some _ => .took t
          | none => done t
      | some m => if held = [] then done (set n) else if n = m then .done s v.g 0 else cvsetVoid s v (objNo cr) fun l => !l.isEmpty

/-! ## TMAC: signing -/

/-- A register with its inactive lanes at zero (R107). -/
def VReg.active (r : VReg) (act : Mask) : VReg := { r with lanes := r.lanes.mapIdx fun L x => if act.has L then x else 0 }

/-- Add a signature to the oldest open generation in which its group holds none; to the newest when it holds one in each (R409). -/
def Conv.sign (c : Conv) (x : Sign) : Conv :=
  match c.old.findIdx? fun l => !l.2.any fun y => y.group == x.group with
  | some i => { c with old := c.old.modify i fun l => (l.1, l.2 ++ [x]) }
  | none => { c with cur := c.cur ++ [x] }

/-- The poisoned words of the vector registers from `n` on in the lanes of a mask: which register, from `n`, and which pair of lanes (R76). -/
def Arch.poisonFrom (a : Arch) (n : Nat) (m : Mask) : List (Nat × Nat) :=
  (a.pois.filter fun p => p.1 == .vec && decide (n ≤ p.2.1) && (m.has (2 * p.2.2) || m.has (2 * p.2.2 + 1))).map fun p => (p.2.1 - n, p.2.2)

/-- What a TMAC that is served does: it signs (R107). -/
def tmacBody (i : Instr) (vb cr : Nat) (s : State) (v : Served) : Res :=
  match xgate s v.g 2 v.seq with
  | none => .wait s v.run
  | some g =>
    let x : Sign := ⟨g.key, g.quad, v.run.lanes.length, i, v.pc, v.run, g.seq, (g.arch.v.drop vb).map fun r => r.active v.act, g.arch.poisonFrom vb v.act, g.nv⟩
    .done (s.updRank g.key.team g.rank fun r => r.setConv cr ((r.conv cr).sign x)) g 0

/-- TMAC (R107, R108, R396). -/
def execTmac (c : Ctl) (n : Bool) (ty : Ty) (z bq vb cr p : Opd) (s : State) : Out_ :=
  let i : Instr := .tmac c n ty z bq vb cr p
  match serveColl i c s (tmacBody i (vecNo vb) (objNo cr) s), served i s c with
  | .next t, some v => .next (t.signed v.g.key.team v.g.rank (objNo cr))
  | o, _ => o

/-! ## The arithmetic of the arrays (R113 to R115) -/

/-- The flags of Table 8-6. -/
def mxNsat : BitVec 4 := 1
def mxAovf : BitVec 4 := 2
def mxNanin : BitVec 4 := 4
def mxInfin : BitVec 4 := 8

/-- The value is an infinity. -/
def Fv.isInf : Fv → Bool
  | .inf _ => true
  | _ => false

/-- The flags that an element taken in raises. -/
def elemFlags (x : Fv) : BitVec 4 := (if x.isNan then mxNanin else 0) ||| (if x.isInf then mxInfin else 0)

/-- An exact sum: a zero is −0 only when both are −0 (R113); a NaN raises NANIN (R114). -/
def mxAdd (x y : Fv) : Fv × BitVec 4 :=
  let z := (x.add .rne y).1
  (z, if z.isNan then mxNanin else 0)

/-- A product, exact. -/
def mxMul (x y : Fv) : Fv × BitVec 4 :=
  let z := (x.mul y).1
  (z, elemFlags x ||| elemFlags y ||| if z.isNan then mxNanin else 0)

/-- The exact sum of the products of one k-step (R113). -/
def stepSum (xs ys : List Fv) : Fv × BitVec 4 :=
  match (xs.zip ys).map fun p => mxMul p.1 p.2 with
  | [] => (.fin true 0 0, 0)
  | t :: ts => ts.foldl (fun a b => let z := mxAdd a.1 b.1; (z.1, a.2 ||| b.2 ||| z.2)) t

/-- How the arrays round: RNE, nothing flushed (R113). -/
def mxEnv : Env := ⟨.rne, 0, false, false⟩

/-- round_NA22: a finite value beyond the range saturates and raises NSAT (R114). -/
def roundNa22 (x : Fv) : BitVec 22 × BitVec 4 :=
  let y := fmtNa22.ofFv mxEnv x
  match x with
  | .fin neg _ _ => if y.2 &&& Flg.ovf ≠ 0 then (BitVec.ofNat 22 (fmtNa22.signed neg fmtNa22.maxCode), mxNsat) else (BitVec.ofNat 22 y.1, 0)
  | _ => (BitVec.ofNat 22 y.1, 0)

/-- round_FP32: a finite value beyond the range becomes an infinity and raises AOVF (R114). -/
def roundAcc (x : Fv) : Word × BitVec 4 :=
  let y := (fmtOf .fp32).ofFv mxEnv x
  match x with
  | .fin _ _ _ => (BitVec.ofNat 32 y.1, if y.2 &&& Flg.ovf ≠ 0 then mxAovf else 0)
  | _ => (BitVec.ofNat 32 y.1, 0)

/-- One element of a tile: its FP32 pattern, its narrow sum, the flags met. -/
structure Chain where
  acc : Word
  nar : Option (BitVec 22)
  fl  : BitVec 4

/-- promote() of one element (R113, R116). -/
def Chain.promote (c : Chain) : Chain :=
  match c.nar with
  | none => c
  | some n =>
    let a := (fmtOf .fp32).unpack c.acc.toNat
    let b := fmtNa22.unpack n.toNat
    let z := mxAdd a b
    let y := roundAcc z.1
    ⟨y.1, none, c.fl ||| elemFlags a ||| elemFlags b ||| z.2 ||| y.2⟩

/-- Add a k-step's sum to the narrow sum (R113). -/
def Chain.step (c : Chain) (t : Fv × BitVec 4) : Chain :=
  match c.nar with
  | none => let y := roundNa22 t.1; ⟨c.acc, some y.1, c.fl ||| t.2 ||| y.2⟩
  | some n =>
    let z := mxAdd (fmtNa22.unpack n.toNat) t.1
    let y := roundNa22 z.1
    ⟨c.acc, some y.1, c.fl ||| t.2 ||| z.2 ||| y.2⟩

/-- The k-steps of one element, with the tile's pending count (R113). -/
def chainSteps (p : Nat) : List (Fv × BitVec 4) → Nat → Chain → Nat × Chain
  | [], cnt, c => (cnt, c)
  | t :: ts, cnt, c =>
    let c := c.step t
    if cnt + 1 = p then chainSteps p ts 0 c.promote else chainSteps p ts (cnt + 1) c

/-- One element through an operation (R113). -/
def chainOp (p : Nat) (defer : Bool) (ts : List (Fv × BitVec 4)) (cnt : Nat) (c : Chain) : Nat × Chain :=
  let r := if p ≤ cnt then chainSteps p ts 0 c.promote else chainSteps p ts cnt c
  if !defer && decide (0 < r.1) then (0, r.2.promote) else r

/-- The integer chain of an S8 pair (R115): a step's exact sum is added and saturates. -/
def chainS8 (ts : List Int) (c : Chain) : Chain :=
  ts.foldl (fun c t =>
    let x := c.acc.toInt + t
    if x < -(2 ^ 31) then { c with acc := 0x80000000, fl := c.fl ||| mxAovf }
    else if 2 ^ 31 ≤ x then { c with acc := 0x7FFFFFFF, fl := c.fl ||| mxAovf }
    else { c with acc := BitVec.ofInt 32 x }) c

/-- Cut a list into runs of `n`. -/
def chunks {α : Type} (n : Nat) : Nat → List α → List (List α)
  | 0, _ => []
  | k + 1, l => l.take n :: chunks n k (l.drop n)

/-- The value of an element code (R81, R90, R115). -/
def codeVal (ty : Ty) (cb : List Byte) (x : Nat) : Fv :=
  match ty with
  | .s8 => let i := asInt .s8 x; .fin (decide (i < 0)) i.natAbs 0
  | .mxs8 => let i := asInt .s8 x; .fin (decide (i < 0)) i.natAbs (-6)
  | .cb4 => (fmtOf .bf16).unpack (cbEntry cb x)
  | ty => (fmtOf ty).unpack x

/-- The type is block-scaled. -/
def isMx : Ty → Bool
  | .mxe4m3 | .mxe5m2 | .mxe3m2 | .mxe2m3 | .mxe2m1 | .mxs8 => true
  | _ => false

/-- Row `i` of a tile of A (R105). -/
def aRow (l : ATile) (scoff : Nat) (cb bytes : List Byte) (i : Nat) : List Fv :=
  let x := leNat ((bytes.drop (i * (l.data / 64))).take (l.data / 64))
  (List.range l.k).map fun k =>
    let v := codeVal l.ty cb (elemOf l.ty x k)
    if isMx l.ty then mxScaled (bytes.getD (scoff + i * (l.k / 32) + k / 32) 0).toNat v else v

/-- Column `j` of a quarter of B (R110). DESIGN CHOICE (log 24): in a block whose scale byte is 0xFF every element is the NaN of R87, an
inactive lane's too, whose code reads as +0 (R107). -/
def bCol (ty : Ty) (w k : Nat) (regs : List VReg) (j : Nat) : List Fv :=
  (List.range k).map fun i =>
    let e := j * k + i
    let p := ty.per
    let r := regs.getD (e / (w * p)) ⟨[], []⟩
    let L := e % (w * p) / p
    let v := codeVal ty [] (elemOf ty (r.lanes.getD L 0).toNat (e % p))
    if isMx ty then mxScaled (r.side.getD (mxBlockOf ty L (e % p)) 0x7F).toNat v else v

/-- What the arrays make of one tile. -/
structure Product where
  rows : List Row
  cnt  : Nat
  fl   : BitVec 4

/-- One row of an operation. -/
def rowOp (s8 : Bool) (p : Nat) (defer : Bool) (a : List (List Fv)) (b : List (List (List Fv))) (cnt : Nat) (r : Row) : Nat × Row × BitVec 4 :=
  let cells := b.mapIdx fun j col =>
    let c : Chain := ⟨r.acc.getD j 0, r.nar.getD j none, 0⟩
    let ts := (a.zip col).map fun x => stepSum x.1 x.2
    if s8 then
      let ints := ts.map fun t => match t.1 with
        | .fin neg m e => scaled neg m e 0
        | _ => 0
      (cnt, chainS8 ints c)
    else chainOp p defer ts cnt c
  ((cells.head?.map Prod.fst).getD cnt, ⟨cells.map fun c => c.2.acc, cells.map fun c => c.2.nar, []⟩,
    cells.foldl (fun f c => f ||| c.2.fl) 0)

/-- An operation on the newest image of its tile (R112 to R115). -/
def product (l : ATile) (scoff : Nat) (cb bytes : List Byte) (w : Nat) (signs : List Sign) (rows : List Row) (cnt : Nat) : Product :=
  let t := (signs.headD default).tmac
  let n := l.k / l.ks
  let quarter := fun q => ((signs.find? fun x => x.quad = q).map Sign.regs).getD []
  let b := (List.range 128).map fun j => chunks l.ks n (bCol t.ty w l.k (quarter (j / 32)) (j % 32))
  let out := rows.mapIdx fun i r => rowOp (t.ty == .s8) t.p t.n (chunks l.ks n (aRow l scoff cb bytes i)) b cnt r
  ⟨out.map fun x => x.2.1, (out.head?.map Prod.fst).getD cnt, out.foldl (fun f x => f ||| x.2.2) 0⟩

/-! ## Tiles (R117, R118) -/

/-- The newest image of a row, and the newest pending count. -/
def Tile.row (z : Tile) (i : Nat) : Row :=
  match z.shadows.reverse.findSome? fun x => assoc x.rows i with
  | some r => r
  | none => z.rows.getD i ⟨[], [], []⟩
def Tile.newCnt (z : Tile) : Nat := match z.shadows.getLast? with
  | some x => x.cnt
  | none => z.cnt

/-- Every row of some rows has a free shadow row. -/
def Tile.room (z : Tile) (rows : List Nat) : Bool :=
  rows.all fun i => decide ((z.shadows.filter fun x => (assoc x.rows i).isSome).length < 2)

/-- The tile effect of an entry is released. -/
def Rank.releaseTile (r : Rank) (z id : Nat) (k : GroupKey) (seq : Nat) : Rank :=
  let r := { r with z := r.z.modify z fun t => { t with shadows := t.shadows.map fun (x : Shadow) =>
    if x.id = id then { x with waits := x.waits.filter fun w => w != (k, seq) } else x } }
  r.settleTile z

/-- An operation that writes a tile is in progress, or a TMAC of the group on it has not completed (R47, R118). -/
def Rank.tileBusy (r : Rank) (k : GroupKey) (z : Nat) : Bool :=
  (r.ops.any fun o => o.started && (o.signs.headD default).tmac.z == z) || r.signed.any fun x => x.group == k && x.tmac.z == z

/-- The instructions on a tile (R117, R118): a z past the team's tiles is trap 0x0C; `rows` are the rows written. -/
def tileBody (v : Served) (s : State) (z : Nat) (rows : List Nat) (body : Rank → Tile → Res) : Res :=
  let r := s.rankOf v.g.key.team v.g.rank
  match r.z[z]? with
  | none => v.trap s 0x0C v.act 0
  | some t => if r.tileBusy v.g.key z || !t.room rows then .wait s v.run else body r t

/-- An instruction that reads some rows of a tile: a poisoned word of one is trap 0x0B (R76). -/
def tileClean (v : Served) (s : State) (t : Tile) (rows : List Nat) (body : Unit → Res) : Res :=
  if rows.any fun i => !(t.row i).pois.isEmpty then v.trap s 0x0B v.act 0 else body ()

/-- Write new images of some rows: a shadow, and its staged effect (R118). -/
def tileWrite (v : Served) (s : State) (cls z : Nat) (rows : List (Nat × Row)) (cnt : Nat) (mx : BitVec 4) : Res :=
  let id := (s.rankOf v.g.key.team v.g.rank).nextId
  let x : Shadow := ⟨id, rows, cnt, [(v.g.key, v.g.seq)], none⟩
  let t := s.updRank v.g.key.team v.g.rank fun r =>
    { r with z := r.z.modify z fun t => { t with shadows := t.shadows ++ [x] }, nextId := id + 1 }
  .flagged t (v.g.stage s.now cls (.tile v.g.rank z id) []) mx

/-- ZCLR (Table 8-7). -/
def execZclr (c : Ctl) (z : Opd) (s : State) : Out_ :=
  serve (.zclr c z) c s fun v =>
    tileBody v s (objNo z) (List.range 64) fun _ _ =>
      tileWrite v s noClass (objNo z) ((List.range 64).map fun i => (i, ⟨List.replicate 128 0, List.replicate 128 none, []⟩)) 0 0

/-- promote() on a row (R113). -/
def Row.promote (r : Row) : Row × BitVec 4 :=
  let cells := r.acc.mapIdx fun j a => Chain.promote ⟨a, r.nar.getD j none, 0⟩
  (⟨cells.map Chain.acc, cells.map Chain.nar, []⟩, cells.foldl (fun f c => f ||| c.fl) 0)

/-- ZPROM (R116, Table 8-7). -/
def execZprom (c : Ctl) (z : Opd) (s : State) : Out_ :=
  serve (.zprom c z) c s fun v =>
    tileBody v s (objNo z) (List.range 64) fun _ t => tileClean v s t (List.range 64) fun _ =>
      let out := (List.range 64).map fun i => (i, (t.row i).promote)
      tileWrite v s noClass (objNo z) (out.map fun x => (x.1, x.2.1)) 0 (out.foldl (fun f x => f ||| x.2.2) 0)

/-- A position operand of ZMOV: its row and its column; none where a reserved bit is set or the run passes column 127 (R120). -/
def zPos (x w : Nat) : Option (Nat × Nat) :=
  let row := bitsOf x 5 0
  let col := bitsOf x 22 16
  if x = row + col * 2 ^ 16 ∧ col + w ≤ 128 then some (row, col) else none

/-- ZMOV from a tile (R403, R404). -/
def execZmovToVector (c : Ctl) (ty : Ty) (d z pos : Opd) (s : State) : Out_ :=
  serve (.zmovToVector c ty d z pos) c s fun v =>
    match zPos (readRaw v.g.arch true pos 0).toNat v.g.w with
    | none => v.trap s 0x02 v.act 0
    | some (row, col) =>
      tileBody v s (objNo z) [] fun _ t =>
        let bad := Mask.ofLanes (v.act.lanes.filter fun L => (t.row row).pois.contains ((col + L) / 2))
        if bad ≠ 0 then v.trap s 0x0B bad 0
        else .done s { v.g with arch := writeDst v.g.arch false d v.act fun L => ((t.row row).acc.getD (col + L) 0).setWidth 64 } 0

/-- ZMOV into a tile (R403). -/
def execZmovToTile (c : Ctl) (ty : Ty) (x z pos : Opd) (s : State) : Out_ :=
  serve (.zmovToTile c ty x z pos) c s fun v =>
    match zPos (readRaw v.g.arch true pos 0).toNat v.g.w with
    | none => v.trap s 0x02 v.act 0
    | some (row, col) =>
      tileBody v s (objNo z) [row] fun _ t =>
        let old := t.row row
        let new := fun (j : Nat) => decide (col ≤ j) && decide (j < col + v.g.w) && v.act.has (j - col)
        let acc := old.acc.mapIdx fun j a => if new j then v.g.arch.vreg (vecNo x) (j - col) else a
        let pois := old.pois.filter fun p => !(new (2 * p) && new (2 * p + 1))
        tileWrite v s noClass (objNo z) [(row, { old with acc := acc, pois := pois })] t.newCnt 0

/-- The rows of a ZCPY (R120): the first and the count. -/
def zRows (x : Nat) : Option (Nat × Nat) :=
  let first := bitsOf x 5 0
  let n := bitsOf x 14 8
  if x = first + n * 2 ^ 8 ∧ 1 ≤ n ∧ first + n ≤ 64 then some (first, n) else none

/-- What ZCPY checks (R120): its rows, its offset, its tile and its XFENCEs. -/
def zcpyBody (v : Served) (s : State) (addr z rows : Opd) (write : Bool) (body : Served → Tile → Nat → Nat → Nat → Res) : Res :=
  let off := (readRaw v.g.arch true addr 0).toNat
  match zRows (readRaw v.g.arch true rows 0).toNat with
  | none => v.trap s 0x02 v.act 0
  | some (first, n) =>
    if off % 64 ≠ 0 then v.trap s 0x05 v.act off
    else if s.allot v.g < off + 512 * n then v.trap s 0x06 v.act off
    else
      tileBody v s (objNo z) (if write then (List.range n).map (first + ·) else []) fun _ t =>
        match xgate s v.g 2 v.seq with
        | none => .wait s v.run
        | some g => body { v with g := g } t off first n

/-- ZCPY out of a tile (R120, R404): the engine writes the scratchpad when it runs the command. -/
def execZcpyToScratchpad (c : Ctl) (ty : Ty) (addr z rows : Opd) (s : State) : Out_ :=
  serve (.zcpyToScratchpad c ty addr z rows) c s fun v =>
    zcpyBody v s addr z rows false fun v t off first n => tileClean v s t ((List.range n).map (first + ·)) fun _ =>
      let bytes := (List.range n).flatMap fun i => (t.row (first + i)).acc.flatMap fun a => leBytes 4 a.toNat
      let cmd : Cmd := ⟨v.g.seq, 2, .zcpyOut, 512, bytes, (List.range n).map fun i => ⟨512 * i, 512, none, 0, 0⟩, .scr v.g.rank, off, 0, 512 * n, none, v.pc,
        v.act, false, false, 0⟩
      .done s { v.g with cmds := v.g.cmds ++ [cmd] } 0

/-- The 32-bit words of bytes. -/
def wordsOfBytes (n : Nat) (l : List Byte) : List Word := (List.range n).map fun i => BitVec.ofNat 32 (leNat ((l.drop (4 * i)).take 4))

/-- ZCPY into a tile (R120): the pending sums of the rows stay. -/
def execZcpyToTile (c : Ctl) (ty : Ty) (addr z rows : Opd) (s : State) : Out_ :=
  serve (.zcpyToTile c ty addr z rows) c s fun v =>
    zcpyBody v s addr z rows true fun v t off first n =>
      let x := s.loadChunk { v.g with staged := [] } (v.g.mustSee 2) false ⟨.scr v.g.rank, off, 512 * n, none, off⟩
      if x.2.pois ≠ [] then v.trap s 0x0B v.act off
      else
        let m := { v.g.arch.mem with seen := v.g.arch.mem.seen.modify 1 fun y => View.join y x.2.saw }
        let v := { v with g := { v.g with arch := { v.g.arch with mem := m } } }
        let row := fun i => (first + i, { t.row (first + i) with acc := wordsOfBytes 128 ((x.2.bytes.drop (512 * i)).take 512), pois := [] })
        tileWrite v x.1 2 (objNo z) ((List.range n).map row) t.newCnt 0

/-! ## Events of the arrays -/

/-- The core of a core rank. -/
def State.coreOf (s : State) (k : TeamKey) (r : Nat) : CoreId := ((s.team? k).map fun t => t.cores.getD r default).getD default

/-- Every queued operation of a core. -/
def State.coreOps (s : State) (c : CoreId) : List MatOp :=
  s.teams.flatMap fun t => (List.range t.ranks.length).flatMap fun r => if t.resident && t.cores.getD r default == c then (t.ranks.getD r default).ops else []

/-- The oldest operation of a core rank, when it may take the arrays: they are free, no operation of the core closed before it, its tile
has shadow rows and its buffer has a slot (R107, R112, R118). With the rank after it has taken the slot, and the slot. -/
def State.opReady (s : State) (t : TeamKey) (rank : Nat) : Option (MatOp × Rank × Option (Nat × Nat)) :=
  let r := s.rankOf t rank
  let ops := s.coreOps (s.coreOf t rank)
  match r.ops.head? with
  | none => none
  | some o =>
    let x := o.signs.headD default
    if ops.any MatOp.started || (ops.any fun p => decide (p.at_ < o.at_)) || !(r.z.getD x.tmac.z default).room (List.range 64) then none
    else
      match x.source with
      | .qreg q => ((r.queue? q.val).bind fun y => y.take x.group 1).map fun y => (o, r.setQueue q.val y.2, some (q.val, y.1))
      | _ => some (o, r, none)

/-- MATRIX_OPERATION_ISSUE (R107, R112, R118, R220): the oldest operation of the core takes the arrays, as far as LOADSTEP admits it. -/
def execMatrixOperationIssue (t : TeamKey) (rank : Nat) (s : State) : Out_ :=
  let core := s.coreOf t rank
  match s.opReady t rank with
  | none => .next s
  | some (o, r, slot) =>
    if !s.mayStart core.die core.cluster then .next s
    else
      let o' := { o with started := true, slot := slot }
      .next ((s.updRank t rank fun _ => { r with ops := o' :: r.ops.tail }).noteStart core.die core.cluster)

/-- The effect is a tile write. -/
def Effect.isTile (e : Effect) : Bool :=
  match e.kind with
  | .tile _ _ _ => true
  | _ => false

/-- A signer's entry takes the flags of its operation (R116). Those of an entry that has retired, when the operation has run again (R119), go
to MXFLG itself, in the registers and in what younger entries and checkpoints would restore. -/
def Group.signFlags (g : Group) (fl : BitVec 4) (seq : Nat) : Group :=
  if g.rob.any fun (e : Entry) => e.seq == seq then { g with rob := g.rob.map fun (e : Entry) => if e.seq = seq then { e with mx := e.mx ||| fl } else e }
  else g.later seq fun a => { a with mxflg := a.mxflg ||| fl.setWidth 64 }

/-- A signer's entry after its operation (R112, R118): executed, and its tile write staged under its sequence number. -/
def Group.completeSign (g : Group) (now rank z id : Nat) (seq : Nat) : Group :=
  let mine := fun (e : Effect) => e.seq == seq && e.isTile
  let kind : EffectKind := .tile rank z id
  if g.staged.any mine then { g with staged := g.staged.map fun e => if mine e then { e with kind := kind } else e }
  else if g.rob.any fun (e : Entry) => e.seq == seq then
    let eff : Effect := ⟨seq, 2, kind, now, none, false, false, [], []⟩
    Group.finished { g with staged := insertBy Effect.seq eff g.staged } now seq
  else g

/-- The entry of a signature has not reached its release. -/
def State.signLive (s : State) (x : Sign) : Bool :=
  (s.group? x.group).any fun g => (g.rob.any fun e => e.seq == x.seq) || g.staged.any fun e => e.seq == x.seq && e.isTile

/-- MATRIX_OPERATION_COMPLETE (R112 to R118): the shadow rows of the operation on the arrays are complete. -/
def execMatrixOperationComplete (t : TeamKey) (rank : Nat) (s : State) : Out_ :=
  let r := s.rankOf t rank
  match r.ops.find? MatOp.started with
  | none => .next s
  | some o =>
    let x := o.signs.headD default
    let z := x.tmac.z
    let tile := r.z.getD z default
    let w := ((s.team? t).map fun y => y.blk.width).getD 64
    let y := (r.tileOf x.source).getD (⟨0, 0, 0, false, false⟩, 0)
    let off := match o.slot with
      | some (q, i) => ((r.queue? q).map fun q => descBase q.desc.toNat + descSlot q.desc.toNat * (i % q.size)).getD 0
      | none => y.1.off
    let rest := { r with ops := r.ops.filter fun p => p.id != o.id }
    let acc := (List.range 64).any fun i => !(tile.row i).pois.isEmpty
    let bad := if acc then some 0 else (wordsOf off y.2).find? r.opPoison.contains
    match bad with
    | some a =>
      let free := match o.slot with
        | some (q, i) => rest.updQueue q fun q => q.untake i 1
        | none => rest
      .next (((s.updRank t rank fun _ => free).voidSigns o.signs 0x0B a).noteStop (s.coreOf t rank).die)
    | none =>
      let l := (aTile y.1.fmt.toNat y.2).getD ⟨.s8, 0, 0, 32⟩
      let cb := (assoc r.cb (fmtSlot y.1.fmt.toNat)).getD []
      let p := product l (fmtScoff y.1.fmt.toNat) cb (r.opbuf.getN off y.2) w o.signs ((List.range 64).map tile.row) tile.newCnt
      let live := o.signs.filter s.signLive
      let sh : Shadow := ⟨o.id, p.rows.mapIdx fun i r => (i, r), p.cnt, live.map fun x => (x.group, x.seq), some o⟩
      let r' := Rank.settleTile { rest with z := rest.z.modify z fun t => { t with shadows := t.shadows ++ [sh] } } z
      let s' := s.updRank t rank fun _ => r'
      let s' := o.signs.foldl (fun s x => s.updGroup x.group fun g => g.signFlags p.fl x.seq) s'
      let s' := live.foldl (fun s x => s.updGroup x.group fun g => g.completeSign s.now rank z o.id x.seq) s'
      .next (s'.noteStop (s.coreOf t rank).die)

/-- An issued operation of the rank reads a reservation (R104). -/
def Rank.reads (r : Rank) (b : Nat) : Bool :=
  r.ops.any fun o => o.signs.any fun x => match x.source with
    | .breg n => n.val == b
    | .qreg q => (r.queue? q.val).bind Queue.bound == some b
    | _ => false

/-- RESERVATION_INVALIDATE (R104): a b whose BFREE has been released becomes invalid once every operation issued on it has executed. -/
def execReservationInvalidate (t : TeamKey) (rank b : Nat) (s : State) : Out_ :=
  let r := s.rankOf t rank
  when_ ((assoc r.b b).any (fun y => y.marked && y.freed) && !r.reads b) s (s.updRank t rank fun r => { r with b := assocDel r.b b })

end Sys2Proof.Machine
end

