-- ==== Sys2Proof/Machine/Engine.lean ====
section
/-! DEFINITION. Machine/Engine.lean: what an accepted engine command does when it runs: TLD and GATH read memory into the scratchpad or
the operand buffer, TST and SCAT write memory, ZCPY writes the scratchpad (R64, R133, R324, R387, R407), and ENGINE_RESUME. -/

namespace Sys2Proof.Machine

/-- A command that reads memory or a target, byte by byte in dense order. -/
structure Moved where
  s      : State
  pieces : List Piece
  saw    : View
  pois   : List (Nat × Nat)      -- policy and address of poisoned data

/-- The group as an engine sees it: none of its own staged stores (R48 serves loads only). -/
def Group.bare (g : Group) : Group := { g with staged := [] }

/-- The runs of a unit's bytes in a target under a permutation: offset in the unit, address, length (R127). Four aligned bytes stay
together. -/
def permRuns (c : Cmd) (e : Elem) : List (Nat × Nat × Nat) :=
  if c.perm = 0 then [(0, c.base + e.off, e.len)]
  else
    let n := if e.off % 4 = 0 ∧ e.len % 4 = 0 then 4 else 1
    (List.range (e.len / n)).map fun i => (n * i, c.base + permOff c.perm c.rowlen (e.off + n * i), n)

/-- The bytes that a unit takes from its source: memory, the fill, or the target (R133, R387). -/
def readElem (g : Group) (c : Cmd) (m : Moved) (e : Elem) : Moved × List Byte :=
  let floor := g.mustSee c.cls
  let one := fun (r : Moved × List Byte) (k : Chunk) (pol : Option Nat) =>
    let x := r.1.s.loadChunk g.bare floor false k
    let bad := if x.2.pois.isEmpty then [] else [(pol.getD 0, e.va)]
    ({ r.1 with s := x.1, saw := View.join r.1.saw x.2.saw, pois := r.1.pois ++ bad }, r.2 ++ x.2.bytes)
  if c.kind.produces then
    match e.addr with
    | some pa => one (m, []) ⟨.mem, pa, e.len, some ⟨pa, e.pte, 0, 0⟩, e.va⟩ (some (ptePol e.pte))
    | none => (m, c.fill.take e.len)
  else
    match e.addr with
    | none => (m, (c.fill.drop e.off).take e.len)
    | some _ => (permRuns c e).foldl (fun r k => one r ⟨c.tgt, k.2.1, k.2.2, none, k.2.1⟩ none) (m, [])

/-- The command writes memory: TST and SCAT, whose writes wait in the quarantine buffer (Table 5-2). -/
def CmdKind.stores : CmdKind → Bool
  | .tst | .scat => true
  | _ => false

/-- The writes of a unit: to memory, or to the target. -/
def writeElem (c : Cmd) (e : Elem) (d : List Byte) : List Piece :=
  if c.kind.stores then
    match e.addr with
    | some pa => [⟨.mem, pa, d, 0, decide (2 ≤ pteMt e.pte)⟩]
    | none => []
  else (permRuns c e).map fun k => ⟨c.tgt, k.2.1, (d.drop k.1).take k.2.2, 0, false⟩

/-- Move one unit. -/
def moveElem (g : Group) (c : Cmd) (m : Moved) (e : Elem) : Moved :=
  let x := readElem g c m e
  { x.1 with pieces := x.1.pieces ++ writeElem c e x.2 }

/-- The sectors of 32 bytes that a unit fills: of memory (R64), or of its image. -/
def Elem.sectors (c : Cmd) (e : Elem) : List Nat :=
  if c.kind.stores then (match e.addr with
    | some pa => sectorsOf pa e.len
    | none => [])
  else sectorsOf e.off e.len

/-- A unit that a command writes to memory, cut where it crosses into another sector (R64). -/
def Elem.cut (c : Cmd) (e : Elem) : List Elem :=
  match if c.kind.stores then e.addr else none with
  | some pa =>
    let n := min e.len (32 - pa % 32)
    if n = e.len then [e] else [{ e with len := n }, { e with off := e.off + n, len := e.len - n, addr := some (pa + n), va := e.va + n }]
  | none => [e]

/-- The writes that a command makes of its units, in order (R407): a unit joins the write before it where it fills no further sector. -/
def Cmd.writes (c : Cmd) : List Elem → List (List Elem)
  | [] => []
  | e :: r =>
    match c.writes r with
    | (f :: l) :: t => if (e.sectors c).all (f.sectors c).contains && (f.sectors c).all (e.sectors c).contains then (e :: f :: l) :: t else [e] :: (f :: l) :: t
    | t => [e] :: t

/-- What a write takes of the buffer it waits in: quarantine entries for memory, bytes of the engine's staging buffer for its target. -/
def Cmd.room (c : Cmd) (w : List Elem) : Nat :=
  if c.kind.stores then ((w.flatMap (Elem.sectors c)).eraseDups).length else (w.map Elem.len).foldl (· + ·) 0

/-- The writes that find room: as many as there are from the front, and the units left (R64). -/
def Cmd.fitting (c : Cmd) (free : Nat) : List (List Elem) → List (List Elem) × List Elem
  | [] => ([], [])
  | w :: r =>
    if free < c.room w then ([], w ++ r.flatten)
    else
      let x := c.fitting (free - c.room w) r
      (w :: x.1, x.2)

/-- Bytes of an engine's staging buffer that a staged write takes (Table 5-2). -/
def Effect.stagingBytes (e : Effect) (cls : Nat) : Nat :=
  match e.kind with
  | .write ps _ _ => if e.cls = cls ∧ 1 ≤ cls then (ps.map fun p => if p.tgt = .mem then 0 else p.data.length).foldl (· + ·) 0 else 0
  | _ => 0

/-- Bytes of a core's staging buffer of an engine class that are in use. -/
def State.stagingUsed (s : State) (core : CoreId) (cls : Nat) : Nat :=
  s.groups.foldl (fun n g => if g.core = core then n + (g.staged.map fun e => e.stagingBytes cls).foldl (· + ·) 0 else n) 0

/-- The room that a command finds (R64). -/
def State.roomFor (s : State) (g : Group) (c : Cmd) : Nat :=
  if c.kind.stores then Config.quarantineEntries - s.entriesUsed g.core else Config.stagingBytes - s.stagingUsed g.core c.cls

/-- What a command can write now, and what is left. -/
def State.fits (s : State) (g : Group) (c : Cmd) : List (List Elem) × List Elem := c.fitting (s.roomFor g c) (c.writes (c.elems.flatMap (Elem.cut c)))

/-- An engine class has performed accesses of an entry (R186). -/
def Arch.seen (cls seq : Nat) (v : View) (a : Arch) : Arch :=
  { a with mem := { a.mem.performed cls seq v with seen := a.mem.seen.modify (cls - 1) fun x => View.join x v } }

/-- Staged effects of an entry, after every effect that is older or its own (R65). -/
def Group.stageAll (g : Group) (seq : Nat) (l : List Effect) : Group :=
  { g with staged := g.staged.filter (fun e => decide (e.seq ≤ seq)) ++ l ++ g.staged.filter fun e => decide (seq < e.seq) }

/-- The command has moved its last unit: its slot is committed or freed with its last write (Table 10-3), and its entry has
executed. -/
def Group.endCmd (g : Group) (now : Nat) (c : Cmd) (r : Rank) : Group :=
  let slot : List Effect := match c.slot with
    | some (q, i) =>
      let id := ((r.queue? q).map Queue.id).getD 0
      [⟨c.seq, c.cls, if c.kind.produces then .slotCommit id q i else .slotFree id q i, now, none, false, false, [], []⟩]
    | none => []
  Group.markExecuted { g with
    staged := (g.stageAll c.seq slot).staged
    cmds := g.cmds.filter fun x => x.seq != c.seq } now c.seq

/-- A command reads a slot that its group has taken ahead of the release that fills it: the slot's data comes with that release (R128, R129). -/
def State.slotAhead (s : State) (g : Group) (c : Cmd) : Bool :=
  !c.kind.produces && c.slot.any fun p => ((s.rankOf g.key.team g.rank).queue? p.1).any fun x => (assoc x.ahead p.2).isSome

/-- A command cannot go on yet: a line that it reads or writes is locked by another core or on a page in motion (R139, R149; a line that the core
itself holds locked is served), or the slot that it reads is still to be filled. -/
def State.engineWaits (s : State) (g : Group) (c : Cmd) : Bool :=
  s.slotAhead g c || c.elems.any fun e => match e.addr with
    | some pa => (linesOf pa e.len).any fun l =>
      s.lockedFrom g.core l || ((s.leaving l || s.arriving l) && (s.lockOf l).isNone)
    | none => false

/-- A write of a command leaves the core: past L1, or for a page that is not device memory (R66). -/
def Cmd.leaves (c : Cmd) (e : Elem) : Bool := c.kind.stores && (c.past || pteMt e.pte != 0)

/-- One write of a command (R133, R387, R407): its units move, and what they write is staged as an effect of its own, executed now. -/
def moveWrite (g : Group) (c : Cmd) (now : Nat) (m : Moved × List Effect) (w : List Elem) : Moved × List Effect :=
  let x := w.foldl (moveElem g c) { m.1 with pieces := [] }
  if x.pieces.isEmpty then (x, m.2)
  else (x, m.2 ++ [⟨c.seq, c.cls, .write x.pieces .clear none, now, none, w.any c.leaves, false, [], []⟩])

/-- Ask for the lines that a command's writes to device memory need in M (R143). -/
def State.askLines (s : State) (g : Group) (c : Cmd) (l : List Elem) : State :=
  l.foldl (fun s e => match e.addr with
    | some a =>
      if !c.kind.stores || c.leaves e then s
      else (linesOf a e.len).foldl (fun s x => s.request g.core x true (ptePriv e.pte && !(s.coh.line x).published)) s
    | none => s) s

/-- Run a command (R133, R387, R407) as far as its writes find room, each of them staged by itself; it pauses where they find none (R64).
Poisoned data ends it under the page's policy (R405). -/
def State.runCmd (s : State) (g : Group) (c : Cmd) : State :=
  let cut := s.fits g c
  let m := cut.1.foldl (moveWrite g c s.now) (⟨s, [], [], []⟩, [])
  match m.1.pois.find? fun p => p.1 != 1 with
  | some (2, _) => s.askReset g.key.team.part
  | some (_, a) => s.faultEntry g.key c.seq 0x0B c.act a
  | none =>
    let t := m.1.pois.foldl (fun s p => s.logRec 3 g.key.team.part (leBytes 8 p.2)) m.1.s
    let t := t.askLines g c cut.1.flatten
    let h := (g.stageAll c.seq m.2).later c.seq (Arch.seen c.cls c.seq m.1.saw)
    if cut.2.isEmpty then t.setGroup (h.endCmd s.now c (s.rankOf g.key.team g.rank))
    else t.setGroup { h with cmds := h.cmds.map fun x => if x.seq = c.seq then { x with elems := cut.2, paused := true } else x }

/-- ENGINE_RESUME (R64): a paused command goes on as quarantine entries are released. -/
def execEngineResume (k : GroupKey) (seq : Nat) (s : State) : Out_ :=
  match s.group? k with
  | none => .next s
  | some g =>
    match g.cmds.find? fun c => c.seq = seq ∧ c.paused with
    | none => .next s
    | some c => .next (if s.engineWaits g c then s else s.runCmd g c)

end Sys2Proof.Machine
end

