-- ==== Sys2Proof/Machine/Fence.lean ====
section
/-! DEFINITION. Machine/Fence.lean: FENCE (R176, R177, R412) and XFENCE (R186). -/

namespace Sys2Proof.Machine

/-- FENCE.acq of a thread (Table 14-3): its earlier loads act as acquires, and synchronise under R173 only. -/
def fenceAcq (g : Group) (sc : Scope) (t : ThreadMem) : ThreadMem :=
  let hit := t.pend.filter (syncsWith g sc false)
  let v := hit.foldl (fun v r => View.join v r.view) []
  { t with view := View.join t.view v, hb := View.join t.hb v, pend := t.pend.filter fun r => !hit.contains r }

/-- FENCE.rel of a lane: its later stores release what it has done so far (R412). A later fence at the same scope covers the earlier. -/
def fenceRel (g : Group) (s : State) (sc : Scope) (L : Nat) (t : ThreadMem) : ThreadMem :=
  { t with rels := t.rels.filter (fun r => r.scope ≠ sc) ++ [g.release s sc L] }

/-- A fence of the threads of a mask. -/
def fenceOf (g : Group) (s : State) (acq rel : Bool) (sc : Scope) (m : Mask) : Group :=
  let g := if acq then g.updThr m (fenceAcq g sc) else g
  if rel then m.lanes.foldl (fun h L => h.updThr (Mask.bit L) (fenceRel g s sc L)) g else g

/-- A FENCE.sc of a lane takes its place in the total order (R176): it follows the earlier ones that share its instance. The order takes in
every access before it, the writes to window pages too (R177). -/
def fenceSc (x : State × Group) (sc : Scope) (L : Nat) : State × Group :=
  let s := x.1
  let g := x.2
  let v := (s.ram.sc.filter (syncsWith g sc false)).foldl (fun v r => View.join v r.view) []
  let g := g.acquire (Mask.bit L) v
  ({ s with ram := { s.ram with sc := { g.release s sc L with view := (g.thr L).hb } :: s.ram.sc } }, g)

/-- FENCE (R176): acq, rel and ar are neither staged nor commit points; sc is a commit point, and waits for what an XFENCE
has ordered before class 0 (R185). What a FENCE.rel or ar binds so takes it in when it has performed (`Group.bound`). -/
def execFence (c : Ctl) (kind : FenceKind) (scope : Scope) (s : State) : Out_ :=
  match kind with
  | .acq => serve (.fence c kind scope) c s fun v => .done s (fenceOf v.g s true false scope v.act) 0
  | .rel => serve (.fence c kind scope) c s fun v => .done s (fenceOf v.g s false true scope v.act) 0
  | .ar => serve (.fence c kind scope) c s fun v => .done s (fenceOf v.g s true true scope v.act) 0
  | .sc => serveCommit (.fence c kind scope) c s fun v =>
      match xgate s v.g 0 v.seq with
      | none => .wait s v.run
      | some g =>
        let x := v.act.lanes.foldl (fun x L => fenceSc x scope L) (s, fenceOf g s true false scope v.act)
        .done x.1 (fenceOf x.2 x.1 false true scope v.act) 0

/-- XFENCE (R186): later accesses of class `dst` wait for the earlier ones of class `src`. -/
def execXfence (c : Ctl) (src dst : Fin 6) (scope : Scope) (s : State) : Out_ :=
  serve (.xfence c src dst scope) c s fun v =>
    let m := v.g.arch.mem
    .done s { v.g with arch := { v.g.arch with mem := { m with xfences := m.xfences ++ [⟨src.val, dst.val, v.g.seq, v.g.done src.val⟩] } } } 0

end Sys2Proof.Machine
end

