-- ==== Sys2Proof/Machine/Place.lean ====
section
/-! DEFINITION. Machine/Place.lean: which group the next fetch decision serves, and how the model's own loader puts an
instruction where that fetch reads it (log 1). The loader stands for what a host does before a launch; no rule of the manual
describes it. -/

namespace Sys2Proof.Machine

/-- The run that a group would serve next: a commit point that may execute, whatever stops dispatch (R67, R226, R229), or what a fetch
decision chooses. -/
def Group.ready (g : Group) : Option (Mask × Dword) := if g.commitTurn.isSome || g.canDispatch then g.decide_ else none

/-- A group may be served: a commit point holds its entry of the reorder buffer already, and anything else needs one (R51). -/
def State.mayServe (s : State) (g : Group) : Bool := g.ready.isSome && (g.commitTurn.isSome || s.robRoom g)

/-- Of the groups that may be served, the one served longest ago, so that none waits for more than the others of its quadrant (R39). -/
def State.oldestReady (s : State) : Option Group :=
  (s.groups.filter s.mayServe).foldl (fun o g => match o with
    | none => some g
    | some h => if g.lastAt < h.lastAt then some g else some h) none

/-- The group the next fetch decision serves: the one the agenda's side has pinned, if it may be served. -/
def State.nextGroup (s : State) : Option Group :=
  match (s.cur.bind s.group?).filter s.mayServe with
  | some g => some g
  | none => s.oldestReady

/-- The launch of the loader's group: one team of sixteen threads on one core. -/
def loaderLaunch : Launch :=
  ⟨0, 0x1000, [], 1, 1, 1, 16, 1, 1, 0x00877000, 4096, 4096, 0, 0, 0, [], 0, 0, 0, false⟩

/-- The context of the loader's group: a table with one code and data page at virtual 0x1000. -/
def loaderCtx : Context := ⟨0, 0x10000, false, 0x8, 0, 0, 0, 0, 0, 0, 0, false⟩

/-- The core of the loader's group. -/
def loaderCore : CoreId := ⟨0, 0, 0⟩

/-- The key of the loader's team. -/
def loaderTeam : TeamKey := ⟨0, 1, 0⟩

/-- Five levels of tables that map virtual 0x1000 to physical 0x20000 with R, W and X. -/
def loaderTables (m : Memory) : Memory :=
  ((((m.putNum 0x10000 8 0x11001).putNum 0x11000 8 0x12001).putNum 0x12000 8 0x13001).putNum 0x13000 8 0x14001).putNum 0x14008 8 0x2020F

/-- The machine with the loader's partition, context, team and group in it. -/
def State.loaderGroup (s : State) : State :=
  let t := Team.fresh loaderTeam 0 loaderLaunch [loaderCore] 0 [] 0 s.now
  let p := s.part 0
  { s with
    ram := { s.ram with mem := loaderTables s.ram.mem }
    coh := { s.coh with tlb := s.coh.tlb.filter fun e => e.core ≠ loaderCore }
    groups := teamGroups loaderTeam 0 loaderLaunch [loaderCore] s.now ++ s.groups.filter fun g => g.key.team ≠ loaderTeam
    teams := t :: s.teams.filter fun t => t.key ≠ loaderTeam
    parts := s.parts.set 0 { p with
      desc := [1, BitVec.allOnes 64, 0x1000000, 0x1]
      ctxs := loaderCtx :: p.ctxs.filter fun c => c.num ≠ 0
      grids := ⟨1, 0, loaderLaunch, 0, s.now, 1, [], none, false, none, none, [], []⟩ :: p.grids.filter fun g => g.num ≠ 1
      nextGrid := 2
      keyFirst := 0
      keyCount := 1 } }

/-- Where the next fetch decision reads its word: the line's physical address and the slot, when its page translates. -/
def State.fetchSpot (s : State) : Option (Nat × Nat) :=
  match s.nextGroup with
  | none => none
  | some g =>
    match if g.commitTurn.isSome then none else g.ready with
    | none => none
    | some (run, pc) =>
      match if run &&& g.arch.entering = 0 then fetchLine s g pc else .fault 0x03 with
      | .line _ p => some (p.pa, (pc &&& 7).toNat)
      | _ => none

/-- The 512 bits of a line with slot `n` replaced, its reserved bits clear and its parity computed (R265 to R267). -/
def lineWith (l : BitVec 512) (n : Nat) (w : BitVec 96) : BitVec 512 :=
  let pay := (List.range 5).foldl (fun x i => x + (if i = n then w else slotWord l i).toNat * 2 ^ (96 * i)) 0
  let low := (lineWord l).toNat % 512
  let b := BitVec.ofNat 512 (pay + low * 2 ^ 480)
  BitVec.ofNat 512 (pay + (low + (lineParity b).toNat * 65536) * 2 ^ 480)

/-- Put a word into a slot of the line at a physical address. -/
def State.putWord (s : State) (pa n : Nat) (w : BitVec 96) : State :=
  { s with ram := { s.ram with mem := s.ram.mem.putNum pa 64 (lineWith (lineBits s.ram.mem pa) n w).toNat } }

/-- Put a word where the next fetch decision reads it, loading a program of one instruction when nothing can issue. -/
def State.placeWord (s : State) (w : BitVec 96) : State :=
  let s := { s with latch := none, agenda := [], groups := s.groups.map fun (g : Group) => { g with look := 0 } }
  match s.fetchSpot with
  | some (pa, n) => { s.putWord pa n w with cur := s.nextGroup.map Group.key }
  | none =>
    let t := { s.loaderGroup with cur := some ⟨loaderTeam, 0⟩ }
    t.putWord 0x20000 0 w

end Sys2Proof.Machine
end

