-- ==== Sys2Proof/Machine/Fetch.lean ====
section
/-! DEFINITION. Machine/Fetch.lean: the fetch decision (R28, R30, R31, R136), and what a word that does not decode does (R267,
R278). -/

namespace Sys2Proof.Machine

/-- A word with fault 0x04 traps whatever its guard (R267). -/
def runParity (s : State) (c : Ctl) : Out_ :=
  serveAll (.nop c) c s fun v => v.trap s 0x04 v.run (v.pc.toNat / 64 * 64)

/-- A word that is no instruction traps when a lane is active and otherwise retires as a no-op (R278). -/
def runIllegal (s : State) (c : Ctl) (cause : Nat) : Out_ :=
  serve (.nop c) c s fun v => v.trap s cause v.act 0

/-- Fetch resumes on a core: a restart of it is over (R70). -/
def State.resumed (s : State) (core : CoreId) : State :=
  { s with dev := { s.dev with restarting := s.dev.restarting.filter fun r => r.1 ≠ core } }

/-- Fetch the word of a run (R265): the latched word; a run that parks at its PC (R136), once every older branch of it has resolved (R54); or
the fault of its line, an escape fault once the older loads have performed (R161). -/
def fetchRun (s : State) (g : Group) (run : Mask) (pc : Dword) : State :=
  match fetchLine s g pc with
  | .line l _ => { s.setGroup g with latch := some (fetched g run pc l), cur := none }
  | .absent page =>
    if g.branching run then (s.setGroup g).blockRun g.key run
    else
      let r := s.parkAll g .fetch (run.lanes.map fun L => (L, pc.toNat, page))
      r.1.setGroup (r.2.decided g run).endTurn
  | .fault c =>
    if c = 0x07 && g.loading run then (s.setGroup g).blockRun g.key run
    else s.setGroup { g.decided g run with trap := some ⟨c, pc, run, pc, 0⟩ }

/-- What a fetch decision of a group gives. A commit point that may execute goes on with its own word; a run that stands at THAND or CODE
and has not been checked as a branch's target is checked first (R268). -/
def fetchDecide (s : State) (g : Group) : State :=
  let d := g.decide_
  let g := { g with lastAt := s.now }
  match d with
  | none => s.setGroup g
  | some (run, pc) =>
    let s := s.resumed g.core
    match g.commit, g.commitTurn with
    | some k, some _ => { s.setGroup g with latch := some ⟨⟨g.key, run, pc⟩, k.word, true, true⟩, cur := none }
    | _, _ =>
      if run &&& g.arch.entering = 0 then fetchRun s g run pc
      else
        let h := { g with arch := { g.arch with entering := g.arch.entering &&& ~~~run } }
        match checkTarget s g pc with
        | .illegal => s.setGroup { h.decided g run with trap := some ⟨0x03, pc, run, pc, 0⟩ }
        | .forbid => s.setGroup { h.decided g run with trap := some ⟨0x06, pc, run, pc, 0⟩ }
        | .absent _ => fetchRun s g run pc
        | .ok => fetchRun s h run pc

/-- FETCH_DECISION: the group chooses its run and fetches the run's word (R28, R30, R31). A group that may not dispatch, or has no
eligible thread, fetches nothing. -/
def execFetchDecision (k : GroupKey) (s : State) : Out_ :=
  match s.group? k with
  | none => .next s
  | some g => .next (if s.mayServe g && s.latch.isNone then fetchDecide s g else s)

/-- GUARD_TURN: a group whose starvation counter has reached 1,024 begins a guard turn; one whose turn is over ends it (R31). -/
def execGuardTurn (k : GroupKey) (s : State) : Out_ := .next (s.updGroup k Group.turnStep)

end Sys2Proof.Machine
end

