-- ==== Sys2Proof/Machine/Reach.lean ====
section
/-! DEFINITION. Machine/Reach.lean: objects and publication: OBJINIT (R158, R374, R375), PUB (R162 to R167, R379, R380) and
DROVER_WALK_RESUME. -/

namespace Sys2Proof.Machine

/-- The length of an object is one that R158 admits. -/
def objLenOk (n : Nat) : Bool := decide (8 ≤ n) && decide (n ≤ 0xFFFFFFF8) && n % 8 == 0

/-- The pages of 4 KiB that a run of bytes touches, as runs within a page: address and length. -/
def pageRuns (a n : Nat) : List (Nat × Nat) :=
  if n = 0 then []
  else (List.range ((a + n - 1) / 4096 + 1 - a / 4096)).map fun i =>
    let lo := max a ((a / 4096 + i) * 4096)
    (lo, min (a + n) ((a / 4096 + i + 1) * 4096) - lo)

/-- Translate runs of bytes, one page each: the chunks, or the first page that is missing or forbidden. -/
def runChunks (look : Nat → ProbeRes) : List (Nat × Nat) → Except LaneRes (List Chunk)
  | [] => .ok []
  | (a, n) :: r =>
    match look a with
    | .absent p => .error (.park p)
    | .forbid => .error (.bad 0x06)
    | .ok p => (runChunks look r).map fun l => ⟨.mem, p.pa, n, some p, a⟩ :: l

/-- The probe of a run of bytes in global memory as one bulk access (R50, R374), which the tile translation engine walks (R134). -/
def bulkAcc (s : State) (g : Group) (k : Access) (L a n : Nat) : LaneRes :=
  if a + n > 2 ^ 57 then .bad 0x06
  else
    match s.ctxOf g with
    | none => .bad 0x06
    | some c =>
      match runChunks (probeWalk s g.key.team.part c k) (pageRuns a n) with
      | .ok l => .ok ⟨L, a, l⟩
      | .error e => e

/-- The probe of a lane's OBJINIT (R374). -/
def objAcc (s : State) (g : Group) (L a n : Nat) : LaneRes :=
  if !objLenOk n then .bad 0x02 else if a % 8 ≠ 0 then .bad 0x05 else bulkAcc s g .write L a n

/-- The effect of one lane of an OBJINIT (R375). -/
def objEffect (m : Mask) (a : Acc) (n : Nat) : EffectKind :=
  .objInit ⟨.mem, (a.chunks.head?.map Chunk.addr).getD 0, leBytes 8 n, m, false⟩ (a.chunks.map fun c => (c.addr, c.n))

/-- OBJINIT (R374): in lane order, each lane's header and tag clears are staged. -/
def execObjinit (c : Ctl) (a len : Opd) (s : State) : Out_ :=
  serve (.objinit c a len) c s fun v =>
    let ad := fun L => (baseTerm v.g.arch a L).toNat
    let n := fun L => (readRaw v.g.arch false len L).toNat
    probeBody v s .write true ad (fun L => objAcc s v.g L (ad L) (n L)) deviceOnly fun s v l =>
      let once := uniform a && uniform len
      let l := if once then l.take 1 else l
      let of := fun (x : Acc) => if once then v.act else Mask.bit x.lane
      if Config.quarantineEntries < s.entriesUsed v.g.core + l.length then .stall s
      else
        let g := l.foldl (fun g x => g.stage s.now 0 (objEffect (of x) x (n x.lane)) (v.g.releases s none (of x))) v.g
        let heads := l.filterMap fun x => x.lines.head?
        .done (heads.foldl (fun s x => s.request g.core x.1 true (ptePriv x.2.pte && !(s.coh.line x.1).published)) s) g 0

/-! ## The Drover (R162 to R166) -/

/-- How a walk stands. -/
inductive WalkStep where
  | more (s : State) (w : Walk)
  | done (s : State) (w : Walk)
  | page (s : State) (w : Walk) (va page : Nat)         -- it wants the translation of the page of an address
  | locked (s : State) (w : Walk)                       -- a line is locked by another core (R149)
  | trap (s : State) (cause : Nat) (addr : Nat)
  | check (s : State)                                   -- poison under policy 0b10

/-- TADDR of trap 0x12 (R163). -/
def abortAddr (kind a : Nat) : Nat := kind * 2 ^ 62 + a % 2 ^ 57

/-- A walk at its start, with its PUB's place in the Drover's queue. -/
def Walk.start (ticket L ref : Nat) : Walk := ⟨L, if ref = 0 then [] else [ref], [], none, 0, 0, [], [], none, false, ticket⟩

/-- The header of an object is one the walk admits (R166). -/
def headOk (h : WordState) : Bool := !h.tag && h.val.extractLsb' 32 32 == 0 && objLenOk h.val.toNat

/-- The page of an address as the walk judges it (R166): a page with MT 1, 2 or 3 is not followed, whatever it permits. -/
def walkProbe (s : State) (g : Group) (va : Nat) : ProbeRes :=
  match s.ctxOf g with
  | none => .forbid
  | some c =>
    if va ≥ 2 ^ 57 then .forbid
    else
      let r := lookup s g.key.team.part c g.core va
      match r with
      | .leaf e base size => if pteMt e ≠ 0 then .ok ⟨leafAddr e size va, e, base, size⟩ else judged s g.key.team.part .read va r
      | _ => judged s g.key.team.part .read va r

/-- Publish a line of a private page (R162, R160): stamp it, let the owner's copies drop to S, and enter it in the directory;
requests for it that the home has still to grant are tracked too (R143, R144). -/
def State.publish (s : State) (g : Group) (line : Nat) : State :=
  let l := s.coh.line line
  let copies := (l.holders ++ l.owner.toList).eraseDups
  let l' := { l with published := true, stamp := some ((s.coh.dg.getD (homeDie line) 0) % 65536), owner := none, holders := copies,
                     state := if copies = [] then .i else .s }
  let coh := ((s.coh.woken line).setLine l').track line g.core
  { s with coh := { coh with reqs := coh.reqs.map fun r => if r.line = line then { r with priv := false } else r } }

/-- Take up the object at the top of the stack (R162, R166). -/
def walkHead (s : State) (g : Group) (w : Walk) : WalkStep :=
  match w.stack with
  | [] => .done s w
  | h :: r =>
    if w.seen.contains h then .more s { w with stack := r }
    else if 16384 < w.nobj + 1 then .trap s 0x12 (abortAddr 1 h)
    else if h % 8 ≠ 0 then .trap s 0x12 (abortAddr 2 h)
    else
      match walkProbe s g h with
      | .absent p => .page s w h p
      | .forbid => .trap s 0x06 (h / 64 * 64)
      | .ok p =>
        let w' := { w with stack := r, seen := h :: w.seen, nobj := w.nobj + 1 }
        if pteMt p.pte ≠ 0 then .more s w'
        else if s.lockedFrom g.core (p.pa / 64 * 64) then .locked s w
        else if escapes s g.key.team.part g.ctx (some g.key.team) p then .trap s 0x07 (h / 64 * 64)
        else
          let x := s.ram.word p.pa
          if x.pois ∧ ptePol p.pte = 2 then .check s
          else if x.pois ∧ ptePol p.pte ≠ 1 then .trap s 0x0B h
          else
            let x := if x.pois then { x with val := 0 } else x
            let s := if x.pois then s.logRec 3 g.key.team.part (leBytes 8 h) else s
            if headOk x then .more s { w' with cur := some (h, x.val.toNat, h / 64 * 64) } else .trap s 0x12 (abortAddr 2 h)

/-- Read one line of the object in hand (R162, R164): its snapshot, its publication, and the references in it. A line on a page with MT 1, 2
or 3, of an object whose header is not on one, is counted and passed over. DESIGN CHOICE (log 23): R166 speaks of references only. An engine's
write is in the snapshot's bytes, and is not ordered before the reference (R123). -/
def walkLine (s : State) (g : Group) (w : Walk) (h len x : Nat) : WalkStep :=
  if h + len ≤ x then .more s { w with cur := none }
  else if 65536 < w.nlines + 1 then .trap s 0x12 (abortAddr 0 x)
  else
    match walkProbe s g x with
    | .absent p => .page s w x p
    | .forbid => .trap s 0x06 x
    | .ok p =>
      let w := { w with nlines := w.nlines + 1, cur := some (h, len, x + 64) }
      if pteMt p.pte ≠ 0 then .more s w
      else if s.lockedFrom g.core p.pa then .locked s { w with nlines := w.nlines - 1, cur := some (h, len, x) }
      else if escapes s g.key.team.part g.ctx (some g.key.team) p then .trap s 0x07 x
      else
        let ws := (List.range 8).map fun i => (x + 8 * i, s.ram.word (p.pa + 8 * i))
        let bad := ws.find? fun y => y.2.pois
        match bad, ptePol p.pte with
        | some _, 2 => .check s
        | some y, 0 | some y, 3 => .trap s 0x0B y.1
        | _, _ =>
          let s := match bad with
            | some y => s.logRec 3 g.key.team.part (leBytes 8 y.1)
            | none => s
          let priv := ptePriv p.pte && !(s.coh.line p.pa).published
          let refs := (ws.filter fun y => decide (h + 8 ≤ y.1) && decide (y.1 < h + len) && y.2.tag && !y.2.pois && y.2.val != 0).map
            fun y => y.2.val.toNat
          let view := (List.range 8).foldl (fun v i => View.join v (s.ram.lastThread (p.pa + 8 * i))) w.view
          let dies := if priv ∧ !w.dies.contains (homeDie p.pa) then homeDie p.pa :: w.dies else w.dies
          .more (if priv then s.publish g p.pa else s) { w with stack := refs ++ w.stack, view := view, dies := dies }

/-- One step of a walk. -/
def walkStep (s : State) (g : Group) (w : Walk) : WalkStep :=
  match w.cur with
  | some (h, len, x) => walkLine s g w h len x
  | none => walkHead s g w

/-- A walk to its end or its next stop. -/
def walkRun (g : Group) : Nat → State → Walk → WalkStep
  | 0, s, w => .more s w
  | n + 1, s, w =>
    match walkStep s g w with
    | .more s w => walkRun g n s w
    | r => r

/-- More steps than any walk takes: every line pushes eight references at most, and each is popped once (R162). -/
def walkFuel : Nat := 1000000

/-- A PUB stores its reference for the threads of a mask (R162, R165, R172): a release at its scope that covers the snapshots. -/
def pubStore (s : State) (g : Group) (sc : Scope) (m : Mask) (w : Walk) (a : Acc) (ref : Nat) : State × Group :=
  let s := { s with coh := w.dies.foldl Coh.advance s.coh }
  let own := m.lanes.map fun L => { g.release s sc L with view := View.join (g.release s sc L).view w.view }
  let pa := (a.chunks.head?.map Chunk.addr).getD 0
  let x := s.releaseTo g [pa / 64 * 64] ⟨some sc, own, m.lanes.flatMap g.fencesOf⟩
  let s := x.1.store g.key.team .mem pa (leBytes 8 ref) ⟨.set, x.2, false, x.1.hides g .mem pa, false⟩
  let s := { s with coh := s.coh.dirtied g.core (pa / 64 * 64) }
  let v := s.pieceView g.key.team ⟨.mem, pa, leBytes 8 ref, m, false⟩
  (s, g.ever fun b => (Group.acquire { g with arch := b } m v).arch)

/-- A PUB stops at a lane (R163): the lanes below have stored their references and move on; this lane and every higher one stay. -/
def pubStop (v : Served) (s : State) (g : Group) (L cause addr : Nat) : Res :=
  let stay := Mask.ofLanes (v.act.lanes.filter fun l => decide (L ≤ l))
  let t : Trap := ⟨cause, v.pc, stay, BitVec.ofNat 64 addr, 0⟩
  if v.act &&& ~~~stay = 0 then .trap s { g with walk := none } t
  else .partly s { g with walk := none, arch := g.arch.setPcs (v.run &&& ~~~stay &&& ~~~g.arch.parked) fun _ => nextPc v.pc } t

/-- The lanes of a PUB in ascending order, from the walk in hand on (R162). One that acts once does so for every active thread. -/
def pubLanes (v : Served) (sc : Scope) (once : Bool) (ref : Nat → Nat) : List Acc → State → Group → Walk → Res
  | [], s, g, _ => .done s { g with walk := none } 0
  | a :: r, s, g, w =>
    if a.lane < w.lane then pubLanes v sc once ref r s g w
    else
      match walkRun g walkFuel s (if w.lane = a.lane then w else Walk.start w.ticket a.lane (ref a.lane)) with
      | .done s w =>
        let x := pubStore s g sc (if once then v.act else Mask.bit a.lane) w a (ref a.lane)
        pubLanes v sc once ref r x.1 x.2 ((r.head?.map fun b => Walk.start w.ticket b.lane (ref b.lane)).getD w)
      | .more s w | .locked s w => .wait (s.setGroup { g with walk := some w }) v.run
      | .page s w va p =>
        let q := s.queueFault g .read p
        .wait (q.1.setGroup { g with walk := some { w with fault := some ⟨a.lane, q.2, va, false⟩ } }) v.run
      | .trap s c ad => pubStop v s g a.lane c ad
      | .check s => .took ((s.setGroup g).askReset g.key.team.part)

/-- A PUB of the cluster that executed earlier is still at the Drover (R162). -/
def State.droverBusy (s : State) (g : Group) (ticket : Nat) : Bool :=
  s.groups.any fun h => h.key != g.key && h.core.die == g.core.die && h.core.cluster == g.core.cluster &&
    h.walk.any fun w => decide (w.ticket < ticket)

/-- A PUB whose flag lines are held (R143, R162): it takes its place in the queue of the cluster's Drover, and walks when it is the first
there; a walk that waits for a page goes on when it is answered (R166). -/
def pubBody (v : Served) (s : State) (sc : Scope) (once : Bool) (ref : Nat → Nat) (l : List Acc) : Res :=
  let lines := l.flatMap Acc.lines
  if s.lockedOut v.g l then .wait (s.retranslate v.g l) v.run
  else if !(lines.all fun x => s.coh.owns v.g.core x.1) then
    .wait (lines.foldl (fun s x => s.request v.g.core x.1 true (ptePriv x.2.pte && !(s.coh.line x.1).published)) s) v.run
  else
    match v.g.walk with
    | none =>
      let L := (l.head?.map Acc.lane).getD 0
      let w := Walk.start s.coh.nextId L (ref L)
      let t := { s with coh := { s.coh with nextId := s.coh.nextId + 1 } }
      if s.droverBusy v.g w.ticket then .wait (t.setGroup { v.g with walk := some w }) v.run
      else pubLanes v sc once ref (if once then l.take 1 else l) t v.g w
    | some w =>
      match w.fault with
      | some f => if f.bad then pubStop v s v.g f.lane 0x06 f.addr else .wait s v.run
      | none => if s.droverBusy v.g w.ticket then .wait s v.run else pubLanes v sc once ref (if once then l.take 1 else l) s v.g w

/-- PUB (R379, R162): a commit point that walks what each lane's reference reaches, then stores the reference. -/
def execPub (c : Ctl) (scope : Scope) (val t1 t2 : Opd) (s : State) : Out_ :=
  serveCommit (.pub c scope val t1 t2) c s fun v =>
    memBody v s .write .glob 8 8 (addrSum v.g.arch 8 t1 t2 .none) deviceOnly fun s v l =>
      pubBody v s scope (uniform val && uniform t1 && uniform t2) (fun L => (readRaw v.g.arch true val L).toNat) l

/-- DROVER_WALK_RESUME (R166): a walk whose fault has been resolved goes on. -/
def execDroverWalkResume (g : GroupKey) (s : State) : Out_ :=
  .next (s.updGroup g fun x => { x with walk := x.walk.map fun w => if w.ready then { w with fault := none, ready := false } else w })

end Sys2Proof.Machine
end

