-- ==== Sys2Proof/Machine/SysReg.lean ====
section
/-! DEFINITION. Machine/SysReg.lean: the special registers (Table 22-7): GETSR (R327), SETSR (R392), VDHOP (R14, R400) and CLKQ
(R302). -/

namespace Sys2Proof.Machine

/-- Entry `v` of a virtual-die table (R13): the physical die, when the entry is valid. -/
def vdEntry (tab : BitVec 16) (v : Nat) : Option Nat :=
  if v < 4 ∧ tab.getLsbD (4 * v + 3) then some (bitsOf tab.toNat (4 * v + 1) (4 * v)) else none

/-- The virtual die of a physical die (R14). DESIGN CHOICE (log 38): 0 for a die that the context's table does not name. -/
def vdOf (tab : BitVec 16) (d : Nat) : Nat := ((List.range 4).find? fun v => vdEntry tab v == some d).getD 0

/-- Hop distance between two dies: their positions stand in a square, die 0 and 1 above die 2 and 3 (R11, Table 2-1). -/
def hops (a b : Nat) : Nat := (if a % 2 = b % 2 then 0 else 1) + (if a / 2 = b / 2 then 0 else 1)

/-- The coordinates of a linear index. -/
def coord (nx ny : Nat) (t k : Nat) : Nat :=
  match k with
  | 0 => t % nx
  | 1 => t / nx % ny
  | _ => t / (nx * ny)

/-- CLKGNT for a request on a cluster (Table 18-3). -/
def clkgnt (d : Die) (cl req : Nat) : Nat :=
  let p := fun k => (d.grant k cl).point
  p 0 + 8 * p 1 + 64 * p 2 + 512 * p 3 + (if (List.range 4).any fun k => decide (p k < reqPoint req k) then 2 ^ 14 else 0)
    + (if d.storm.isSome then 2 ^ 15 else 0)

/-- What a special register holds for lane `L` (Tables 3-2, 7-3, 7-4, 8-6, 19-1 to 19-5, 18-3 to 18-5, 5-4 to 5-6, 24-6, 24-7,
14-4, 13-2). -/
def readSreg (s : State) (g : Group) (r : SReg) (L : Nat) : Dword :=
  let n := fun (x : Nat) => BitVec.ofNat 64 x
  let team := s.team? g.key.team
  let b := ((s.team? g.key.team).map Team.blk).getD default
  let t := g.key.grp * g.w + L
  match r with
  | .laneid => n L
  | .grpid => n g.key.grp
  | .teamx => n (coord b.nx b.ny g.key.team.idx 0)
  | .teamy => n (coord b.nx b.ny g.key.team.idx 1)
  | .teamz => n (coord b.nx b.ny g.key.team.idx 2)
  | .thrx => n (coord b.dx b.dy t 0)
  | .thry => n (coord b.dx b.dy t 1)
  | .thrz => n (coord b.dx b.dy t 2)
  | .grpw => n g.w
  | .nteamx => n b.nx
  | .nteamy => n b.ny
  | .nteamz => n b.nz
  | .core => n g.rank
  | .clus => n g.core.cluster
  | .vdie => n (vdOf (((s.ctxOf g).map Context.vdtab).getD 0) g.core.die)
  | .place => n ((team.map Team.place).getD 0)
  | .fpctl => g.arch.fpctl
  | .fpflg => g.arch.fpflg
  | .mxflg => g.arch.mxflg
  | .tcause => g.arch.tcause
  | .tpc => g.arch.tpc
  | .taddr => g.arch.taddr
  | .tmask => g.arch.tmask
  | .thand => g.arch.thand
  | .clkgnt => n (clkgnt (s.die g.core.die) g.core.cluster ((team.map Team.clkreq).getD 0).toNat)
  | .clkevt => g.clkevt
  | .clkreq => (team.map Team.clkreq).getD 0
  | .qwin => n (0x400000 + g.unverified * 65536 + Config.window)
  | .sensev => g.sensev
  | .rstrt => g.rstrt
  | .timel => n (s.now % 2 ^ 32)
  | .timeh => n (s.now / 2 ^ 32 % 2 ^ 32)
  | .scopemd => ((s.ctxOf g).map Context.scopemd).getD 0
  | .arena => (team.map Team.arena).getD 0

/-- What GETSR waits for (R47, R53, R327): no older entry for registers written at retirement or counted by the core, every older entry
executed for the timer; a commit point that has dispatched is an entry that has not executed (R67). -/
def sregReady (g : Group) (r : SReg) : Bool :=
  match r with
  | .fpflg | .mxflg | .clkevt | .sensev => g.rob.isEmpty && g.commits.isEmpty
  | .timel | .timeh => g.allExecuted && g.commits.isEmpty
  | _ => true

/-- GETSR (R327). -/
def execGetsr (c : Ctl) (ty : Ty) (d : Opd) (r : SReg) (s : State) : Out_ :=
  serve (.getsr c ty d r) c s fun v =>
    if !sregReady v.g r then .stall s
    else .done s { v.g with arch := writeDst v.g.arch ty.wide d v.act (readSreg s v.g r) } 0

/-- The generator state that a SETSR of FPCTL sets (R96). -/
def genSeed (fpctl : Dword) : Dword :=
  let seed := fpctl.extractLsb' 32 32
  seed ++ (seed ^^^ 0x9E3779B9)

/-- The writable bits of ARENA (Table 13-2) and of a PC. -/
def arenaMask : Dword := 0x01FFFFFFFFFF00FF
def pcMask : Dword := 0x01FFFFFFFFFFFFFF

/-- An ARENA value that R159 admits: no window, or a size of 16 to 40 with an aligned base. -/
def arenaOk (x : Nat) : Bool :=
  let n := bitsOf x 7 0
  let base := bitsOf x 56 16 * 65536
  (n == 0 || (decide (16 ≤ n) && decide (n ≤ 40))) && (n == 0 || base % 2 ^ n == 0)

/-- Bits 31:0 replaced. -/
def low32 (old x : Dword) : Dword := old.extractLsb' 32 32 ++ x.extractLsb' 0 32

/-- SCOPEMD after a write (R179): CHK is written; EVICT is cleared by a write of 0 and kept by a write of 1. -/
def scopemdWrite (old x : Dword) : Dword := (x &&& 1) ||| (old &&& x &&& 2)

/-- Change the context of a group. -/
def State.updCtx (s : State) (part ctx : Nat) (f : Context → Context) : State :=
  s.updPart part fun p => { p with ctxs := p.ctxs.map fun c => if c.num = ctx then f c else c }

/-- What a SETSR that is a commit point does (Table 26-6). -/
def setCommit (v : Served) (s : State) (r : SReg) (x : Dword) : Res :=
  let g := v.g
  match r with
  | .fpctl =>
    let f := x &&& fpctlMask
    .done s { g with arch := { g.arch with fpctl := f }, gen := genSeed f } 0
  | .scopemd => .done (s.updCtx g.key.team.part g.ctx fun c => { c with scopemd := scopemdWrite c.scopemd x }) g 0
  | .arena =>
    let y := x &&& arenaMask
    if arenaOk y.toNat then .done (s.updTeam g.key.team fun t => { t with arena := y }) g 0 else v.trap s 0x02 v.act 0
  | .thand => .done s { g with arch := { g.arch with thand := x &&& pcMask } } 0
  | .clkreq =>
    let y := x.toNat
    if y ≥ 2 ^ 32 ∨ bitsOf y 31 25 ≠ 0 ∨ bitsOf y 15 12 ≠ 0 ∨ !orderOk y then v.trap s 0x02 v.act 0
    else
      let t := (s.updTeam g.key.team fun t => { t with clkreq := x }).regrant
      .done t { g with clkevt := ((t.group? g.key).map Group.clkevt).getD g.clkevt } 0
  | .sensev => .done s { g with sensev := low32 g.sensev x } 0
  | .rstrt => .done s { g with rstrt := low32 g.rstrt x } 0
  | _ => .done s g 0

/-- SETSR (R392, Table 26-6). -/
def execSetsr (c : Ctl) (r : SReg) (a : Opd) (s : State) : Out_ :=
  let body := fun (f : Served → Dword → Res) (v : Served) => f v (readRaw v.g.arch true a 0)
  match r with
  | .fpctl | .scopemd | .arena | .thand | .clkreq | .sensev | .rstrt =>
    serveCommit (.setsr c r a) c s (body fun v x => setCommit v s r x)
  | .fpflg => serve (.setsr c r a) c s (body fun v x => .wrote s v.g r (x &&& 0x3F))
  | .mxflg => serve (.setsr c r a) c s (body fun v x => .wrote s v.g r (x &&& 0xF))
  | .tpc => serve (.setsr c r a) c s (body fun v x => .done s { v.g with arch := { v.g.arch with tpc := x &&& pcMask } } 0)
  | .tcause | .taddr | .tmask => serve (.setsr c r a) c s (body fun v _ => .done s v.g 0)
  | _ => serve (.setsr c r a) c s (body fun v _ => v.trap s 0x02 v.act 0)

/-- VDHOP (R14, R400). -/
def execVdhop (c : Ctl) (d a b : Opd) (s : State) : Out_ :=
  serve (.vdhop c d a b) c s fun v =>
    let tab := ((s.ctxOf v.g).map Context.vdtab).getD 0
    let phys := fun o => vdEntry tab (readRaw v.g.arch true o 0).toNat
    let x := match phys a, phys b with
      | some i, some j => BitVec.ofNat 64 (hops i j)
      | _, _ => BitVec.allOnes 64
    .done s { v.g with arch := writeDst v.g.arch true d v.act fun _ => x } 0

/-- CLKQ's value for a domain (Table 23-8). -/
def clkqValue (s : State) (g : Group) (dom : Nat) : Nat :=
  let d := s.die g.core.die
  let op := (d.grant dom g.core.cluster).point
  let req := reqPoint (((s.team? g.key.team).map Team.clkreq).getD 0).toNat dom
  g.clkevt.toNat % 2 ^ 32 * 2 ^ 32 + (if d.storm.isSome then 2 ^ 25 else 0) + (if op < req then 2 ^ 24 else 0) + req * 2 ^ 20
    + op * 2 ^ 16 + Config.mhz dom op

/-- CLKQ (R302). The value has 64 bits, so a vector destination is an even pair (R84). -/
def execClkq (c : Ctl) (d dom : Opd) (s : State) : Out_ :=
  serve (.clkq c d dom) c s fun v =>
    let k := (readRaw v.g.arch true dom 0).toNat
    if k > 3 then v.trap s 0x02 v.act 0
    else if !v.g.rob.isEmpty || !v.g.commits.isEmpty then .stall s
    else
      let x := BitVec.ofNat 64 (clkqValue s v.g k)
      .done s { v.g with arch := writeDst v.g.arch true d v.act fun _ => x } 0

end Sys2Proof.Machine
end

