-- ==== Sys2Proof/Machine/Pipeline.lean ====
section
/-! DEFINITION. Machine/Pipeline.lean: the steps of a group after dispatch: the probe (R50), execution and retirement (R47, R52), branch
recovery (R54), trap delivery (R55, R223), checkpoints (R61), the release of staged effects (R65, R66, R407), restarts (R68 to R74),
the ends of HOLDW and CEDE waits (R331, R301) and the retirement of groups and teams (R38, R232). -/

namespace Sys2Proof.Machine

/-! ## The probe -/

/-- What an instruction asks of the translation probe: its guard, kind, space, bytes, alignment and address terms. -/
structure ProbeForm where
  c    : Ctl
  kind : Access
  sp   : Space
  size : Nat
  align : Nat
  unit : Nat
  t1   : Opd
  t2   : Opd
  t3   : Opd

/-- The probe of an instruction that makes one access per lane (R50). -/
def Instr.probeForm (i : Instr) : Option ProbeForm :=
  match i with
  | .ld c sp _ ty _ a b e | .ldacq c sp _ ty _ a b e => some ⟨c, .read, sp, memBytes ty, memAlign ty, memBytes ty, a, b, e⟩
  | .st c sp _ ty _ a b e | .strel c sp _ ty _ a b e => some ⟨c, .write, sp, memBytes ty, memAlign ty, memBytes ty, a, b, e⟩
  | .holdw c sp _ ty _ a b _ _ => some ⟨c, .read, sp, memBytes ty, memAlign ty, memBytes ty, a, b, .none⟩
  | .stref c sp _ _ a b e => some ⟨c, .write, sp, 8, 8, 8, a, b, e⟩
  | .ldref c sp _ _ a b e _ => some ⟨c, .read, sp, 8, 8, 8, a, b, e⟩
  | .atom c _ _ _ sp ty _ a b _ | .acas c _ sp ty _ a b _ => some ⟨c, .atomic, sp, memBytes ty, memBytes ty, memBytes ty, a, b, .none⟩
  | .llock c sp a b | .lunlk c sp a b => some ⟨c, .read, sp, 1, 1, 4, a, b, .none⟩
  | .pub c _ _ a b => some ⟨c, .write, .glob, 8, 8, 8, a, b, .none⟩
  | .kld c _ a => some ⟨c, .read, .glob, 128, 128, 1, a, .none, .none⟩
  | .cbld c _ a => some ⟨c, .read, .glob, 32, 32, 1, a, .none, .none⟩
  | _ => none

/-- TRANSLATION_PROBE (R50, R35): the fetched instruction of a group is translated ahead: lanes without a translation park and leave
its run, the translations of the others stay in the TLB. It comes once the address operands are ready and the older branches of the run
have resolved (R54). The instruction itself probes again. -/
def execTranslationProbe (k : GroupKey) (s : State) : Out_ :=
  match s.latch, s.group? k with
  | some f, some g =>
    match (decode f.word).toOption.bind fun i => (Instr.probeForm i).map fun p => (i, p) with
    | some (i, p) =>
      if f.issue.group ≠ k ∨ !f.parity ∨ !f.lineOk ∨ !i.regs.all g.declares ∨ g.unready i f.issue.run ∨ g.holdsBack i then .next s
      else
        let act := f.issue.run &&& guardOf g.arch p.c
        let rs := act.lanes.map fun L => (L, laneAcc s g p.kind p.sp p.size p.align L (addrSum g.arch p.unit p.t1 p.t2 p.t3 L))
        let out := parkers false act (addrSum g.arch p.unit p.t1 p.t2 p.t3) rs
        let ok := rs.filterMap fun r => match r.2 with
          | .ok a => some a
          | _ => none
        let x := (s.keepAcc false g ok).parkAll g p.kind out
        let run := f.issue.run &&& ~~~x.2.arch.parked
        .next { x.1.setGroup x.2 with latch := if run = 0 then none else some { f with issue := { f.issue with run := run } } }
    | none => .next s
  | _, _ => .next s

/-! ## Execution and retirement -/

/-- An entry waits for something that only another event brings: a source, load data, a matrix operation, a collective or a message. -/
def State.entryWaits (s : State) (g : Group) (seq : Nat) : Bool :=
  g.depWaits seq || (g.loads.any fun l => l.1 == seq) || ((s.rankOf g.key.team g.rank).signed.any fun x => x.group == g.key && x.seq == seq) ||
    g.rob.any fun e => e.seq == seq && g.inProgress e

/-- EXECUTE_COMPLETE (R47, R61): an entry finishes on its unit; an engine command has executed once its last write is staged. -/
def execExecuteComplete (k : GroupKey) (seq : Nat) (s : State) : Out_ :=
  match s.group? k with
  | none => .next s
  | some g =>
    match g.cmds.find? fun c => c.seq = seq with
    | some c => .next (if c.paused || g.depWaits seq || s.engineWaits g c then s else s.runCmd g c)
    | none => .next (if s.entryWaits g seq then s else s.setGroup (g.markExecuted s.now seq))

/-- What an entry does to FPFLG and MXFLG when it retires (R52, R91, R116). -/
def Entry.flagsInto (e : Entry) (a : Arch) : Arch :=
  let a := { a with fpflg := a.fpflg ||| e.flags.setWidth 64, mxflg := a.mxflg ||| e.mx.setWidth 64 }
  match e.wr with
  | some (.fpflg, x) => { a with fpflg := x }
  | some (.mxflg, x) => { a with mxflg := x }
  | _ => a

/-- The release times of an entry's effects, fixed at its retirement, in order (R65): the later of retirement, execution plus W, and
the time before, which for the writes of an engine command before it is their own (R407). -/
def timeEffects (now seq : Nat) : Nat → List Effect → Nat × List Effect
  | last, [] => (last, [])
  | last, e :: r =>
    if seq < e.seq then (last, e :: r)
    else if e.engine then
      let x := timeEffects now seq (max last (e.execAt + Config.window)) r
      (x.1, e :: x.2)
    else if e.seq = seq ∧ e.relAt.isNone then
      let t := max (max now (e.execAt + Config.window)) last
      let x := timeEffects now seq t r
      (x.1, { e with relAt := some t } :: x.2)
    else
      let x := timeEffects now seq last r
      (x.1, e :: x.2)

/-- The oldest entry may retire (R52): it has executed, and no commit point that dispatched before it is still to complete. -/
def Group.canRetire (g : Group) (e : Entry) : Bool := e.executed && g.commit.all fun k => k.run == 0 || decide (e.seq < k.seq)

/-- RETIRE (R52): the oldest entry, once it has executed; its flags reach the registers and every younger checkpoint. -/
def execRetire (k : GroupKey) (s : State) : Out_ :=
  match s.group? k with
  | none => .next s
  | some g =>
    match g.rob with
    | [] => .next s
    | e :: r =>
      if !g.canRetire e then .next s
      else
        let h := { g with rob := r }.later e.seq e.flagsInto
        let x := timeEffects s.now e.seq h.lastRel h.staged
        .next (s.setGroup { h with staged := x.2, lastRel := x.1 })

/-- BRANCH_RECOVERY (R54): the entries younger than the mispredicted branch `seq` are discarded and leave no trace, and the registers, the
PC table and the starvation state return to what they were after it; fetch resumes by R28. -/
def execBranchRecovery (k : GroupKey) (seq : Nat) (s : State) : Out_ :=
  match s.group? k with
  | none => .next s
  | some g =>
    if g.rob.any fun e => e.seq == seq && e.branch then
      match g.rob.find? fun e => decide (seq < e.seq) with
      | none => .next s
      | some e => .next (s.recover k (seq + 1) e.undo)
    else .next s

/-! ## Traps -/

/-- The trap of parked threads whose fault cannot be resolved (R36): those on one fault record. -/
def Group.badPark (g : Group) : Option Trap :=
  match g.parks.find? Park.bad with
  | none => none
  | some p =>
    let m := Mask.ofLanes ((g.parks.filter fun q => q.bad && q.id == p.id && g.arch.pc q.lane == g.arch.pc p.lane).map Park.lane)
    let low := (g.parks.find? fun q => m.low? == some q.lane).getD p
    some ⟨0x06, g.arch.pc p.lane, m, BitVec.ofNat 64 low.addr, 0⟩

/-- The parked threads of a mask are parked no more. -/
def Group.unpark (g : Group) (m : Mask) : Group :=
  { g with
    blocked := g.blocked &&& ~~~(m &&& g.arch.parked)
    arch := { g.arch with parked := g.arch.parked &&& ~~~m }
    ckpts := g.ckpts.map fun c => { c with arch := { c.arch with parked := c.arch.parked &&& ~~~m } }
    rob := g.rob.map fun e => { e with undo := { e.undo with parked := e.undo.parked &&& ~~~m } }
    parks := g.parks.filter fun p => !m.has p.lane }

/-- TRAP_DELIVERY (R55, R223, R226): a fault whose entry is the oldest is delivered as a commit point (R67): its checkpoint first, and
the entry into the handler once that is verified and every older effect has been released. A halted group takes it at its resume. -/
def execTrapDelivery (k : GroupKey) (s : State) : Out_ :=
  match s.group? k with
  | none => .next s
  | some g =>
    match g.trap.orElse fun _ => g.badPark with
    | none => .next s
    | some t =>
      let g := { g with trap := some t }
      if g.halt.isSome || s.falling k.team.part then .next s
      else
        match g.cut, g.commit with
        | some n, _ => .next (s.cutBehind g n)
        | none, none =>
          if !g.rob.isEmpty || decide (Config.maxUnverified ≤ g.unverified) then .next (s.setGroup g)
          else .next (s.setGroup { g.takeCkpt s.now with commit := some ⟨t.pc, g.seq, false, 0, 0, [], [], false, 0, false⟩ })
        | none, some c =>
          .next (if c.run == 0 && g.verifiedAt c.seq && g.drained then (deliver s (g.unpark t.mask) t).regrantIf k.team else s)

/-! ## Checkpoints -/

/-- CHECKPOINT_VERIFY (R61, R73): the oldest unverified checkpoint, W after it became complete; older ones are dropped. -/
def execCheckpointVerify (k : GroupKey) (s : State) : Out_ :=
  match s.group? k with
  | none => .next s
  | some g =>
    match g.ckpts.find? fun c => !c.verified with
    | none => .next s
    | some c =>
      if c.complete.any fun t => decide (t + Config.window ≤ s.now) then
        let rest := (g.ckpts.dropWhile Ckpt.verified).drop 1
        .next (s.setGroup ({ g with ckpts := { c with verified := true } :: rest }.setConsec 0))
      else .next s

/-! ## The release of staged effects -/

/-- The lines of memory that an effect writes. -/
def Effect.lines (e : Effect) : List Nat :=
  (e.pieces.flatMap fun p => if p.tgt = .mem then linesOf p.addr p.data.length else []).eraseDups

/-- The effect's route crosses three Causeway links, so it is not sent ahead (R66). -/
def State.farRoute (s : State) (g : Group) (e : Effect) : Bool :=
  e.lines.any fun l =>
    let far := if l < Config.hostBase then s.route g.core.die (homeDie l) else s.route (4 + (s.part g.key.team.part).port) g.core.die
    decide (3 ≤ far.length)

/-- The lines that the core itself writes when it releases an effect (R65, R143). -/
def Effect.ownLines (e : Effect) : List Nat :=
  if e.away then [] else e.lines

/-- The effect's holder is ready (R65, R143): ownership of the lines that the core itself writes, an effect for elsewhere there, and
no line locked by another core or on a page in motion (R139, R149). -/
def State.holderReady (s : State) (g : Group) (e : Effect) : Bool :=
  let lines := e.lines
  (!e.away || e.held || s.farRoute g e) && (e.ownLines.all fun l => s.coh.owns g.core l) &&
    lines.all fun l => !s.lockedFrom g.core l && ((!s.leaving l && !s.arriving l) || (s.lockOf l).isSome)

/-- The release time of an effect, once it is fixed (R65): an engine write's when every entry before its command has retired, counted from
its own execution (R407). -/
def Group.relTime (g : Group) (e : Effect) : Option Nat :=
  if e.engine then
    if (g.rob.all fun x => decide (e.seq ≤ x.seq)) && g.commit.all fun k => k.run == 0 || decide (e.seq < k.seq) then some (e.execAt + Config.window)
    else none
  else e.relAt

/-- The effect's release time has passed (R65, R407). -/
def Group.due (g : Group) (now : Nat) (e : Effect) : Bool :=
  match g.relTime e with
  | some t => decide (t ≤ now)
  | none => false

/-- A release that a store of the threads of a mask under sequence number `seq` comes before (R172, R412); a write to a window page is
covered at system scope alone (R187). -/
def Release.covers (r : Release) (m : Mask) (posted : Bool) (seq : Nat) : Bool :=
  (!posted || r.scope == .system) && ((m.has r.lane && decide (seq < r.upto)) || decide (seq < r.sync))

/-- A released store joins what a release covers. -/
def Release.add (r : Release) (m : Mask) (posted : Bool) (seq : Nat) (v : View) : Release :=
  if r.covers m posted seq then { r with view := View.join r.view v } else r

/-- A store of some threads has been released: the group has seen it (R48), it happens before their later accesses, it joins the releases
that cover it, and the XFENCEs after it have it to show. -/
def Arch.stored (m : Mask) (posted : Bool) (seq : Nat) (v : View) (a : Arch) : Arch :=
  let one := fun M (t : ThreadMem) =>
    { t with
      view := View.join t.view v
      posted := if posted then View.join t.posted v else t.posted
      hb := if m.has M ∨ seq < a.mem.gsync then View.join t.hb v else t.hb
      rels := t.rels.map fun r => r.add m posted seq v }
  { a with mem := { a.mem.performed 0 seq v with threads := a.mem.threads.mapIdx one } }

/-- A store that passes L1 by, or an I/O die's, takes a line from its holders (R66, R143, R411), which answer within its step (log 26); a
core that holds it locked is served as the line's own (R149). -/
def State.bypass (s : State) (l : Nat) : State :=
  if (s.lockOf l).isSome then s
  else { s with coh := ((s.coh.woken l).setLine { s.coh.line l with state := .i, owner := none, holders := [] }).trim l }

/-- What a group is ordered by once a store of an effect has been released (R170, R171): the class, or the threads, that made it; and the
releases of its staged effects that cover it. -/
def Group.showed (g : Group) (e : Effect) (m : Mask) (posted : Bool) (v : View) : Group :=
  if e.engine then g.ever (Arch.seen e.cls e.seq v)
  else
    let up := fun (f : Effect) => { f with rels := f.rels.map fun r => r.add m posted e.seq v }
    { g.ever (Arch.stored m posted e.seq v) with staged := g.staged.map up }

/-- What a piece of an effect releases: what its threads do, at `own` and through the fences before it. -/
def Effect.releasing (e : Effect) (own : Option Scope) (m : Mask) : Releasing :=
  let rels := e.rels.filter fun r => m.has r.lane
  let mine := fun (r : Release) => own == some r.scope && r.upto == e.seq
  ⟨own, rels.filter mine, rels.filter fun r => !mine r⟩

/-- Release one piece of a store (R143, R180, R190, R412). -/
def relPiece (e : Effect) (tag : TagOp) (own : Option Scope) (x : State × Group) (p : Piece) : State × Group :=
  let g := x.2
  let lines := if p.tgt == .mem then linesOf p.addr p.data.length else []
  let r := x.1.releaseTo g (lines.filter fun l => decide (l < Config.hostBase)) (e.releasing own p.lanes)
  let s := if e.away then lines.foldl State.bypass r.1 else { r.1 with coh := lines.foldl (fun c l => c.dirtied g.core l) r.1.coh }
  let s := s.store g.key.team p.tgt p.addr p.data ⟨tag, r.2, false, s.hides g p.tgt p.addr, e.engine⟩
  (s, g.showed e p.lanes p.posted (s.pieceView g.key.team p))

/-- The words of some runs whose tag is set, or has been. -/
def Ram.tagged (r : Ram) (rs : List (Nat × Nat)) : List Nat :=
  let hit := fun (w : Nat) => rs.any fun x => decide (x.1 ≤ w) && decide (w < x.1 + x.2)
  (r.tags.filter hit ++ (r.hist.filter fun m => hit m.key && (m.old.tag || m.val.tag)).map Msg.key).eraseDups

/-- The tags of some words are cleared (R375): one store to those tags. -/
def Ram.clearTags (r : Ram) (ws : List Nat) (rels : List Release) : Ram :=
  (ws.foldl (fun r w => ({ r with tags := r.tags.filter (· ≠ w) }).push w 256 (r.word w) { r.word w with tag := false } rels false none) r).counted

/-- Release the tag clears of an OBJINIT (R158, R375): they count as stores of the threads that its header is a store of. -/
def relClears (e : Effect) (h : Piece) (rs : List (Nat × Nat)) (s : State) (g : Group) : State × Group :=
  let ws := s.ram.tagged rs
  let lines := (ws.map fun w => w / 64 * 64).eraseDups
  let r := s.releaseTo g (lines.filter fun l => decide (l < Config.hostBase)) (e.releasing none h.lanes)
  let s := { r.1 with ram := r.1.ram.clearTags ws r.2 }
  (s, g.showed e h.lanes h.posted (ws.flatMap fun w => s.ram.lastView w 256))

/-- Some pieces together write every byte of a word of a target. -/
def written (ps : List Piece) (t : Target) (w : Nat) : Bool :=
  (List.range 8).all fun i => ps.any fun p => p.tgt == t && decide (p.addr ≤ w + i) && decide (w + i < p.addr + p.data.length)

/-- The words that the pieces of one effect write whole lose their poison (R405); those that are poisoned in the effect itself are poisoned
where it has written them (R76). -/
def State.settlePoison (s : State) (k : TeamKey) (ps : List Piece) (bad : List (Target × Nat)) : State :=
  let keep := fun (t : Target) (l : List Nat) => l.filter fun w => !written ps t w
  let add := fun (t : Target) (l : List Nat) => ((bad.filter fun x => x.1 == t).map Prod.snd).foldl addSorted l
  let fix := fun (t : Target) (l : List Nat) => add t (keep t l)
  let ranks := (ps.filterMap fun p => match p.tgt with
    | .scr r | .opbuf r => some r
    | .mem => none).eraseDups
  ranks.foldl (fun s r => s.updRank k r fun x => { x with scrPoison := fix (.scr r) x.scrPoison, opPoison := fix (.opbuf r) x.opPoison })
    { s with ram := { s.ram with poison := fix .mem s.ram.poison } }

/-- Slots that a group has taken ahead of its own staged commits, or frees, are now with it for all eyes: its next accesses of the role's class
come after what those have released (R128, R129, R384). -/
def Group.handed (g : Group) (cls before after : Nat) (v : View) : Group :=
  if after < before then g.ever fun a => (Group.needs { g with arch := a } cls v).arch else g

/-- Change the buffer that a QCFG has made, if it still stands, and tell the group of the slots that it had taken ahead. -/
def State.onQueue (s : State) (g : Group) (id n : Nat) (f : Queue → Queue) : State × Group :=
  match ((s.rankOf g.key.team g.rank).queue? n).filter fun x => x.id = id with
  | none => (s, g)
  | some x =>
    let y := f x
    (s.updRank g.key.team g.rank fun r => r.setQueue n y,
      (g.handed (descCons x.desc.toNat) x.ahead.length y.ahead.length y.view).handed (descProd x.desc.toNat) x.early.length y.early.length y.back)

/-- Apply a staged effect (Table 5-2). -/
def State.applyEffect (s : State) (g : Group) (e : Effect) : State × Group :=
  let k := g.key.team
  let q := fun id n f => s.onQueue g id n f
  match e.kind with
  | .write ps tag own =>
    let x := ps.foldl (relPiece e tag own) (s, g)
    (x.1.settlePoison k ps e.pois, x.2)
  | .objInit h rs =>
    let x := relPiece e .clear none (relClears e h rs s g) h
    (x.1.settlePoison k [h] e.pois, x.2)
  | .qcommit id n c => q id n fun x => { x.commit g.key c with view := View.join x.view e.gives }
  | .qfree id n c => q id n fun x => { x.release g.key c with back := View.join x.back e.gives }
  | .slotCommit id n i => q id n fun x => { x.commitSlot i with view := View.join x.view (g.done e.cls) }
  | .slotFree id n i => q id n fun x => { x.freeSlot i with back := View.join x.back (g.done e.cls) }
  | .arrive i ts => (s.updBar k i fun b => b.arrive ts e.gives, g)
  | .bfree _ b => (s.updRank k g.rank fun r => { r with b := r.b.map fun y => if y.1 = b then (y.1, { y.2 with freed := true }) else y }, g)
  | .tile _ z id => (s.updRank k g.rank fun r => r.releaseTile z id g.key e.seq, g)
  | .qacq _ _ _ _ | .qwait _ _ _ _ | .schnxt _ _ => (s, g)

/-- The oldest staged effect of a group may be released. -/
def State.releasable (s : State) (g : Group) : Bool :=
  match g.staged with
  | [] => false
  | e :: _ => g.due s.now e && s.holderReady g e

/-- Lines of an effect that was ready, and that a probe or a migration has taken since. -/
def State.lostLines (s : State) (g : Group) (e : Effect) : List Nat :=
  e.ownLines.filter fun l => s.lineLost g.core true l && !s.leaving l && !s.arriving l

/-- EFFECT_RELEASE (R65, R407): the oldest staged effect becomes visible at its release time, once its holder is ready. Lines taken
from its core since it was staged are asked for again. -/
def execEffectRelease (k : GroupKey) (s : State) : Out_ :=
  match s.group? k with
  | none => .next s
  | some g =>
    match g.staged with
    | [] => .next s
    | e :: r =>
      if !s.releasable g then .next (if g.due s.now e then s.askAgain g.core true (s.lostLines g e) else s)
      else
        let last := if e.engine then max g.lastRel (e.execAt + Config.window) else g.lastRel
        let x := s.applyEffect { g with staged := r, lastRel := last } e
        .next (x.1.setGroup x.2)

/-- HELD_EFFECT_ARRIVAL (R66): a retired effect for elsewhere reaches its holder, ahead of its release; its quarantine entries are
freed. -/
def execHeldEffectArrival (k : GroupKey) (seq : Nat) (s : State) : Out_ :=
  .next (s.updGroup k fun g => { g with staged := g.staged.map fun e =>
    if e.seq = seq && e.away && !s.farRoute g e && (g.relTime e).isSome then { e with held := true } else e })

/-- SQUASH_MESSAGE (R66, R69): holders discard the held effects of a group at or above a sequence number. -/
def execSquashMessage (k : GroupKey) (seq : Nat) (s : State) : Out_ :=
  .next (s.updGroup k fun g => { g with staged := g.staged.filter fun e => !(e.held && decide (seq ≤ e.seq)) })

/-! ## Restarts -/

/-- The code of a sensor type (Table 5-1). -/
def sensorCode : SensorType → Nat
  | .strike => 1
  | .droop => 2
  | .clock => 3

/-- SENSEV after an event (Table 5-5): its count saturates. -/
def Group.sensed (g : Group) (ty : SensorType) : Group :=
  let n := min 0xFFFFFFFF (bitsOf g.sensev.toNat 31 0 + 1)
  { g with sensev := BitVec.ofNat 64 (n + sensorCode ty * 2 ^ 32) }

/-- CONSEC of RSTRT. -/
def Group.consec (g : Group) : Nat := bitsOf g.rstrt.toNat 35 32

/-- RSTRT after a restart (Table 5-6). -/
def Group.restarted (g : Group) : Group :=
  let n := min 0xFFFFFFFF (bitsOf g.rstrt.toNat 31 0 + 1)
  { g with rstrt := BitVec.ofNat 64 (n + min 8 (g.consec + 1) * 2 ^ 32) }

/-- Trap 0x11 of a group whose CONSEC has reached 8 (R73). -/
def Group.limit (g : Group) : Group := if g.consec < 8 then g else g.limited

/-- Return a group to its youngest verified checkpoint (R68, R56, R73), unless a machine check has dropped the event (R226). -/
def State.restartGroup (s : State) (k : GroupKey) (ty : SensorType) : State :=
  match s.group? k with
  | none => s
  | some g =>
    match (g.ckpts.filter fun c => c.verified && !s.falling k.team.part).getLast? with
    | none => s
    | some c => (s.discard k (c.seq + 1) c.arch).updGroup k fun g => ((g.sensed ty).restarted).limit

/-- A sensor's event reaches the core of a zone (R68 to R74): every group of the core restarts, and the line fills in flight to its L1 are
dropped (R79); a droop or clock event on a core with a resident group counts (R74). An event that reaches a core within 4 ns of a restart,
before any of its groups has fetched again, merges with it (R70). -/
def State.strikeCore (s : State) (core : CoreId) (ty : SensorType) : State :=
  let ks := (s.groups.filter fun g => g.core = core).map Group.key
  let merges := s.dev.restarting.any fun r => r.1 = core && decide (s.now ≤ r.2 + 4)
  let t := if merges then ks.foldl (fun s k => s.updGroup k fun g => g.sensed ty) s else ks.foldl (fun s k => s.restartGroup k ty) s
  let d := t.die core.die
  let t := t.setDie core.die { d with restarts := d.restarts + if ks != [] && !merges then 1 else 0 }
  let t := { t with coh := { t.coh with reqs := t.coh.reqs.filter fun r => r.core ≠ core } }
  let t := { t with latch := if t.latch.any fun f => ks.contains f.issue.group then none else t.latch }
  let begun := (core, s.now) :: t.dev.restarting.filter fun r => r.1 ≠ core
  let t := if ks = [] || merges then t else { t with dev := { t.dev with restarting := begun } }
  if ks ≠ [] ∧ ty ≠ .strike then t.countDroop core.die else t

/-- The zones of a sensor (R57): one core, or, for a strike sensor on the boundary of two cores, both. -/
def sensorZones (cores : List CoreId) (ty : SensorType) : Bool :=
  match cores with
  | [_] => true
  | [a, b] => ty == .strike && a != b && a.die == b.die
  | _ => false

/-- SENSOR_RESTART (R57, R68): a sensor's event reaches the cores of its zones, and counts once on their die (Table 20-12). -/
def execSensorRestart (cores : List CoreId) (ty : SensorType) (s : State) : Out_ :=
  let die := (cores.head?.map CoreId.die).getD 0
  let d := s.die die
  let t := s.setDie die { d with events := d.events.modify (sensorCode ty - 1) (· + 1) }
  .next (if sensorZones cores ty then cores.foldl (fun t c => t.strikeCore c ty) t else s)

/-! ## Ends of waits -/

/-- HOLDW_WAKE (R331): the group looks again at the words its HOLDW waits for; a wait whose time is over ends. -/
def execHoldwWake (k : GroupKey) (s : State) : Out_ :=
  .next (s.updGroup k fun g =>
    { g with look := g.blocked ||| (g.look &&& g.coll), holds := g.holds.map fun h => if h.until_ ≤ s.now then { h with woken := true } else h })

/-- When ceded threads become eligible again (R301): 64 VEC cycles later, in ns. -/
def State.cedeEnd (s : State) (g : Group) : Nat :=
  let f := Config.mhz 1 ((s.die g.core.die).grant 1 g.core.cluster).point
  g.cededAt + (64000 + f - 1) / f

/-- CEDE_EXPIRY (R301). -/
def execCedeExpiry (k : GroupKey) (s : State) : Out_ :=
  .next (s.updGroup k fun g => if s.cedeEnd g ≤ s.now then { g with ceded := 0 } else g)

/-! ## Retirement of groups and teams -/

/-- A group's threads have all exited and its effects have been released (R38). -/
def Group.over (g : Group) : Bool := g.live == 0 && g.rob.isEmpty && g.staged.isEmpty && g.cmds.isEmpty && g.trap.isNone

/-- GROUP_RETIRE (R38, R109, R232): the group leaves its slot; generations that can gain no further signature are voided; with its
last group the team retires and the grants are computed again (R215). -/
def execGroupRetire (k : GroupKey) (s : State) : Out_ :=
  match s.group? k with
  | none => .next s
  | some g =>
    if !g.over || s.falling k.team.part then .next s
    else
      let note := fun (r : Grid) => if r.num = k.team.grid then { r with did := View.join r.did g.viewAll } else r
      let t := { s with groups := s.groups.filter fun h => h.key ≠ k }.updPart k.team.part fun p => { p with grids := p.grids.map note }
      if t.groups.any fun h => h.key.team = k.team then
        let cs := (t.rankOf k.team g.rank).c.map Prod.fst
        .next (cs.foldl (fun t c => t.judge4 k.team g.rank c) t)
      else .next (t.dropTeam k.team).regrant

end Sys2Proof.Machine
end

