-- ==== Sys2Proof/Machine/IoAccess.lean ====
section
/-! DEFINITION. Machine/IoAccess.lean: accesses of the I/O dies to memory through a context (R411, R252, R161), their releases
(R198, R201, R242), and interrupts (R240). -/

namespace Sys2Proof.Machine

/-- The I/O dies translate at their own engines (R252): no core's TLB. -/
def iodCore : CoreId := ⟨9, 0, 0⟩

/-- The translation of an address for an I/O die, in a context of a partition (R20, R136, R237). -/
def ioProbe (s : State) (part ctx : Nat) (k : Access) (va : Nat) : ProbeRes :=
  match (s.part part).ctx? ctx with
  | none => .forbid
  | some c => probe s part c iodCore k va

/-- Bytes in physical memory. -/
structure IoRun where
  addr : Nat
  n    : Nat
  pte  : Nat
deriving DecidableEq, Repr

/-- A run of virtual bytes for an I/O die: its pieces page by page, or none where a page is missing, forbidden, or holds an
unpublished line (R161). -/
def ioRuns (s : State) (part ctx : Nat) (k : Access) (a n : Nat) : Option (List IoRun) :=
  if 2 ^ 57 < a + n then none
  else
    (pageRuns a n).foldr (fun x o => o.bind fun l =>
      match ioProbe s part ctx k x.1 with
      | .ok p =>
        if (linesOf p.pa x.2).any fun y => escapes s part ctx none { p with pa := y } then none
        else some (⟨p.pa, x.2, p.pte⟩ :: l)
      | _ => none) (some [])

/-- A word of some runs is poisoned (R405). -/
def ioPoison (s : State) (l : List IoRun) : Bool :=
  s.ram.poison.any fun w => l.any fun x => decide (x.addr < w + 8) && decide (w < x.addr + x.n)

/-- A line of some runs is locked by a core, or moves to another page: the access waits there (R139, R149). -/
def ioBusy (s : State) (l : List IoRun) : Bool :=
  (s.teams.flatMap Team.locked).any (fun y => l.any fun x => decide (x.addr < y.1 + 64) && decide (y.1 < x.addr + x.n)) ||
    s.coh.migs.any fun m => l.any fun x =>
      (decide (x.addr < m.src + m.size) && decide (m.src < x.addr + x.n)) || (decide (x.addr < m.dst + m.size) && decide (m.dst < x.addr + x.n))

/-- The bytes of some runs, as they stand. -/
def ioBytes (s : State) (l : List IoRun) : List Byte := l.flatMap fun x => s.ram.mem.getN x.addr x.n

/-- Read bytes through a context: none where a page or the data cannot be read. -/
def ioRead (s : State) (part ctx a n : Nat) : Option (List Byte) :=
  (ioRuns s part ctx .read a n).bind fun l => if ioPoison s l then none else some (ioBytes s l)

/-- The stores an I/O die has made, or read, at some runs: the latest of each word. -/
def ioView (s : State) (l : List IoRun) : View :=
  l.flatMap fun x => (wordsOf x.addr x.n).flatMap fun w => s.ram.lastView w 511

/-- What a release by an I/O die, or by an agent of its port, gives (R188, R198, R242): at system scope. -/
def ioRelease (a : Agent) (v : View) : Release := ⟨.system, v, a, 0, 0, 0, 0, 0⟩

/-- A write of an engine class (R185). -/
def engineStore : StoreKind := { plainStore with eng := true }

/-- Write bytes at a physical address (R157, R411): the copies of the cores go. -/
def State.ioPut (s : State) (a : Nat) (d : List Byte) (k : StoreKind) : State :=
  (linesOf a d.length).foldl State.bypass { s with ram := s.ram.write a d k }

/-- The pages of a run are written under its KEYID (R406). -/
def State.ioKey (s : State) (x : IoRun) : State :=
  if pteMt x.pte = 0 ∧ x.addr < Config.hostBase then
    { s with coh := (pageRuns x.addr x.n).foldl (fun c y => c.useKey (y.1 / 4096 * 4096) 4096 (pteKey x.pte)) s.coh }
  else s

/-- Write bytes over some runs. -/
def State.ioPutRuns (s : State) : List IoRun → List Byte → StoreKind → State
  | [], _, _ => s
  | x :: r, d, k => ((s.ioKey x).ioPut x.addr (d.take x.n) k).ioPutRuns r (d.drop x.n) k

/-- A release to a line by an I/O die, or from outside the device, enters the scope checker of a partition that checks scopes
(R183, R188). -/
def State.ioChecked (s : State) (who : Releaser) (part ctx a : Nat) : State :=
  if a < Config.hostBase ∧ (s.part part).ctxs.any (fun c => c.scopemd.getLsbD 0) then s.checkAt ⟨a / 64 * 64, .system, who, part, ctx⟩
  else s

/-- What an acquire at system scope reads from a word: what its stores release (R173, R203). -/
def ioAcquire (s : State) (a : Nat) : View :=
  (s.ram.lastRels (a / 8 * 8) 511).foldl (fun v r => View.join v r.view) []

/-- What a transfer has seen of some runs that it reads with acquire ordering at system scope (R252). -/
def ioSeen (s : State) (l : List IoRun) : View :=
  (l.flatMap fun x => wordsOf x.addr x.n).foldl (fun v w => View.join v (ioAcquire s w)) (ioView s l)

/-- A log record that names an address (Table 20-12). -/
def State.logAt (s : State) (source part a : Nat) : State := s.logRec source part (leBytes 8 a)

/-! ## Completion (R198, R252, R411) -/

/-- The status word of a completion. -/
def State.putStatus (s : State) (part ctx va x : Nat) : State :=
  match ioRuns s part ctx .write va 8 with
  | some [r] => s.ioPut r.addr (leBytes 8 x) plainStore
  | _ => s.logAt 10 part va

/-- The counter's increment, an atomic with release at system scope of what has been done before. On a window page (MT 2, MT 3) the target
may answer with an error: a free value (log 20). -/
def State.addCounter (s : State) (part ctx va : Nat) (v : View) : State :=
  match ioRuns s part ctx .atomic va 8 with
  | some [r] =>
    let x := if 2 ≤ pteMt r.pte then s.pick [true, false] true else (true, s)
    if !x.1 || (pteMt r.pte < 2 && ioPoison s [r]) then x.2.logAt 10 part va
    else
      let n := s.ram.mem.num r.addr 8 + 1
      (x.2.ioPut r.addr (leBytes 8 n) ⟨.clear, [ioRelease .iod v], true, none, false⟩).ioChecked .iod part ctx r.addr
  | _ => s.logAt 10 part va

/-- The words of a completion (R198, R252): the status word, then the counter, whose release covers the status word and what has been done. -/
def State.completed (s : State) (part ctx : Nat) (st : Option (Nat × Nat)) (cnt : Option Nat) (did : View) : State :=
  let runs := (st.bind fun x => ioRuns s part ctx .write x.1 8).getD []
  let t := (st.map fun x => s.putStatus part ctx x.1 x.2).getD s
  (cnt.map fun a => t.addCounter part ctx a (if runs = [] then did else View.join did (ioView t runs))).getD t

/-! ## Interrupts (R240) -/

/-- A vector whose message may go: unmasked, with its count reached or its oldest event's timer over. -/
def Msix.due (m : Msix) (now : Nat) : Bool :=
  !m.masked && decide (0 < m.pend) && (decide (m.count ≤ m.pend) || decide (m.oldest + 1000 * m.timer ≤ now))

/-- Deliver a vector's message. -/
def State.deliverVec (s : State) (part vec : Nat) : State :=
  (s.updPart part fun p => { p with vectors := p.vectors.modify vec fun m => { m with pend := 0 } }).emit (.msix part vec)

/-- Deliver a vector when one of its conditions holds. -/
def State.tryVec (s : State) (part vec : Nat) : State :=
  if ((s.part part).vectors.getD vec Msix.reset).due s.now then s.deliverVec part vec else s

/-- An event on a vector. -/
def State.raiseVec (s : State) (part vec : Nat) : State :=
  let up := fun (m : Msix) => { m with pend := min 255 (m.pend + 1), oldest := if m.pend = 0 then s.now else m.oldest }
  (s.updPart part fun p => { p with vectors := p.vectors.modify vec up }).tryVec part vec

/-- MSIX_TIMER_EXPIRY (R240): the timer of a vector's oldest event is over. -/
def execMsixTimerExpiry (part vec : Nat) (s : State) : Out_ := .next (s.tryVec part vec)

/-- Bits of a coalescing control (Table 20-3): a zero stores 1. -/
def atLeast1 (n : Nat) : Nat := if n = 0 then 1 else n

/-- COALESCING_CONTROL_WRITE (R240, Table 20-3). -/
def execCoalescingControlWrite (part vec : Nat) (val : Dword) (s : State) : Out_ :=
  let n := val.toNat
  let up := fun (m : Msix) => { m with count := atLeast1 (bitsOf n 7 0), timer := atLeast1 (bitsOf n 15 8) }
  if !(s.part part).described then .next s
  else if !(s.part part).ready then .next (s.logAt 5 part (0x40000 + 8 * vec))
  else .next ((s.updPart part fun p => { p with vectors := p.vectors.modify vec up }).tryVec part vec)

end Sys2Proof.Machine
end

