-- ==== Sys2Proof/Machine/FrontEnd.lean ====
section
/-! DEFINITION. Machine/FrontEnd.lean: launch blocks and their refusals (R193 to R195), booths (R199 to R202), completion actions (R198),
dependences and levels (R203, R205), armings (R207), and WQENQ, WQDEQ, LAUNCH, NARM and SCHNXT. -/

namespace Sys2Proof.Machine

/-! ## Launch blocks -/

/-- A field of `n` bytes at offset `o` of some bytes. -/
def fieldAt (d : List Byte) (o n : Nat) : Nat := leNat ((d.drop o).take n)

/-- The launch block that 256 bytes at an address hold (Tables 17-1 to 17-4). -/
def parseLaunch (addr : Nat) (d : List Byte) : Launch where
  addr := addr
  code := BitVec.ofNat 64 (fieldAt d 0 8)
  args := (List.range 16).map fun n => BitVec.ofNat 64 (fieldAt d (8 + 8 * n) 8)
  nx := fieldAt d 136 4
  ny := fieldAt d 140 2
  nz := fieldAt d 142 2
  dx := fieldAt d 144 4
  dy := fieldAt d 148 4
  dz := fieldAt d 152 4
  shape := BitVec.ofNat 32 (fieldAt d 156 4)
  scratch := fieldAt d 160 4
  opbuf := fieldAt d 164 4
  gang := BitVec.ofNat 16 (fieldAt d 168 2)
  opreq := BitVec.ofNat 32 (fieldAt d 172 4)
  sched := fieldAt d 176 8
  deps := (List.range 3).map fun n => (fieldAt d (184 + 16 * n) 8, fieldAt d (192 + 16 * n) 8)
  cntaddr := fieldAt d 232 8
  staddr := fieldAt d 240 8
  complctl := BitVec.ofNat 32 (fieldAt d 248 4)
  reserved :=
    fieldAt d 170 2 != 0 || fieldAt d 252 4 != 0 || (BitVec.ofNat 32 (fieldAt d 156 4)) &&& 0xF80080FC != 0 ||
      (BitVec.ofNat 32 (fieldAt d 172 4)) &&& 0xFE00F000 != 0 || (BitVec.ofNat 32 (fieldAt d 248 4)) &&& 0xFFFFC0F8 != 0

/-- The bits of COMPLCTL (Table 17-4). -/
def Launch.cnt (b : Launch) : Bool := b.complctl.getLsbD 0
def Launch.irq (b : Launch) : Bool := b.complctl.getLsbD 1
def Launch.stw (b : Launch) : Bool := b.complctl.getLsbD 2
def Launch.vec (b : Launch) : Nat := bitsOf b.complctl.toNat 13 8

/-- The fields that make a block MALFORMED (Table 17-5, first row), but for its schedule header. -/
def Launch.bad (b : Launch) : Bool :=
  b.reserved || b.shape.toNat % 4 == 3 || b.nx == 0 || b.ny == 0 || b.nz == 0 || b.threads == 0 || decide (2 ^ 31 ≤ b.nx) ||
    decide (65536 < b.threads) || b.scratch % 256 != 0 || b.opbuf % 256 != 0 || decide (262144 < b.scratch) || decide (524288 < b.opbuf) ||
    decide (8 < b.tiles) || !orderOk b.opreq.toNat || (b.cnt && (b.cntaddr == 0 || b.cntaddr % 8 != 0)) ||
    (b.stw && (b.staddr == 0 || b.staddr % 8 != 0))

/-- The most groups of a launch on one quadrant of an empty core (R44). -/
def Launch.quadCap (b : Launch) : Nat := min 16 (min (2048 / (b.nv + 16)) (8192 / (b.ns + 16)))

/-- The most core ranks of `t` teams of a launch on one empty core, but for their groups (R44, R208): one of each team. -/
def Launch.rankCap (b : Launch) (t : Nat) : Nat :=
  let most := fun (all one : Nat) => if one = 0 then t else all / one
  min (min t (if b.sched = 0 then t else 1)) (min (most 262144 b.scratch) (min (most 524288 b.opbuf) (most 8 b.tiles)))

/-- The most core ranks with `n` groups a quadrant that an empty core takes beside `a` ranks with `n + 1`; none when these do not fit. -/
def Launch.lightRanks (b : Launch) (t a : Nat) : Option Nat :=
  let n := b.groups / (4 * b.ranks)
  let left := b.rankCap t - a
  if b.rankCap t < a ∨ b.quadCap < (n + 1) * a then none
  else some (if n = 0 then left else min left ((b.quadCap - (n + 1) * a) / n))

/-- The most light ranks on some cores that hold 0, 1, 2 … heavy ones, with one core more that takes `one a` beside `a`. -/
def addCore (one : Nat → Option Nat) (l : List (Option Nat)) : List (Option Nat) :=
  (List.range l.length).map fun i => (List.range (min i 16 + 1)).foldl (fun best a =>
    match one a, l.getD (i - a) none with
    | some x, some y => some (max (x + y) (best.getD 0))
    | _, _ => best) none

/-- `t` teams of a launch fit together on the sixteen empty cores of a cluster (Table 17-5). A rank has `n + 1` groups on some quadrant, or
`n` on each (R24); cores that hold the ranks, at most `t` each, hold them so that no team has two on one core. -/
def Launch.fits (b : Launch) (t : Nat) : Bool :=
  let heavy := (b.groups % (4 * b.ranks) + 3) / 4
  let start := (List.range (t * heavy + 1)).map fun i => if i = 0 then some 0 else none
  decide (t ≤ 256) && (((List.range 16).foldl (fun l _ => addCore (b.lightRanks t) l) start).getLast?.join).any fun x =>
    decide (t * (b.ranks - heavy) ≤ x)

/-- The clusters of a partition. -/
def Part.clusters (p : Part) : List (Nat × Nat) :=
  (List.range 4).flatMap fun d => ((List.range 9).filter (p.hasCluster d)).map fun c => (d, c)

/-- All teams of a launch fit on the partition's clusters, were they empty (Table 17-5). -/
def Launch.allFit (b : Launch) (p : Part) : Bool :=
  let n := p.clusters.length
  n != 0 && b.fits ((b.teams + n - 1) / n)

/-- The partitions of a gang (R210). -/
def Launch.members (b : Launch) : List Nat := (List.range 16).filter b.gang.getLsbD

/-- The block is UNFIT (Table 17-5): no team fits on empty cores, or a cooperative or gang grid does not fit at once. -/
def Launch.unfit (s : State) (part : Nat) (b : Launch) : Bool :=
  decide (64 * b.ranks < b.groups) || !b.fits 1 ||
    (if b.gang = 0 then b.coop && !b.allFit (s.part part) else b.members.any fun n => !b.allFit (s.part n))

/-- A GANG mask that R210 does not permit. -/
def Launch.badGang (s : State) (part : Nat) (armed : Bool) (b : Launch) : Bool :=
  b.gang != 0 && (armed || !b.gang.getLsbD part || b.members.any fun n => n != part && !(s.part part).gangMask.getLsbD n)

/-- What the header of a schedule image says (R208): LEN and NL; none when it is malformed. -/
def schedHead (d : List Byte) : Option (Nat × Nat) :=
  let w := fieldAt d 0 8
  let len := w % 2 ^ 13
  let nl := bitsOf w 31 16
  if 1 ≤ len ∧ len ≤ 4096 ∧ 1 ≤ nl ∧ w = len + nl * 65536 ∧ fieldAt d 8 56 = 0 then some (len, nl) else none

/-- The schedule image of a block is malformed, or cannot be read (R208, Table 17-5). -/
inductive SchedRes where
  | none_ | ok (len nl : Nat) | malformed | faulted

def schedOf (s : State) (part ctx : Nat) (b : Launch) : SchedRes :=
  if b.sched = 0 then .none_
  else
    match ioRead s part ctx b.sched 64 with
    | none => .faulted
    | some d =>
      match schedHead d with
      | none => .malformed
      | some (len, nl) =>
        match ioRuns s part ctx .read b.sched (64 + 8 * len * nl) with
        | some l => if ioPoison s l then .faulted else .ok len nl
        | none => .faulted

/-- The status a block is refused with (Table 17-5), the first row that applies: 1 MALFORMED, 2 UNFIT, 6 FAULTED. -/
def judgeLaunch (s : State) (part ctx : Nat) (armed : Bool) (b : Launch) : Option Nat :=
  if b.bad || b.badGang s part armed then some 1
  else
    match schedOf s part ctx b with
    | .malformed => some 1
    | .faulted => if b.unfit s part then some 2 else some 6
    | _ => if b.unfit s part then some 2 else none

/-! ## Completion actions (R198) -/

/-- The completion words of a block lie on lines that are locked or on pages in motion: the I/O die waits (R149, R411). -/
def finishBusy (s : State) (part ctx : Nat) (b : Launch) : Bool :=
  let at_ := fun va => ((ioRuns s part ctx .write va 8).getD []) 
  (b.stw && ioBusy s (at_ b.staddr)) || (b.cnt && ioBusy s (at_ b.cntaddr))

/-- A completion action: the status word, the counter, the interrupt (R198, Table 17-6). -/
def State.finish (s : State) (part ctx : Nat) (b : Launch) (status lost : Nat) (did : View) : State :=
  let word := status + (if status = 5 then lost % 2 ^ 32 * 2 ^ 32 else 0)
  let s := s.completed part ctx (if b.stw then some (b.staddr, word) else none) (if b.cnt then some b.cntaddr else none) did
  if b.irq then s.raiseVec part b.vec else s

/-! ## Booths -/

/-- Change a booth of a partition. -/
def State.updBooth (s : State) (part n : Nat) (f : Booth → Booth) : State :=
  s.updPart part fun p => { p with booths := p.booths.modify n f }

/-- A booth of a partition; 64 is the virtual booth of armed tags (R205). -/
def State.booth (s : State) (part n : Nat) : Booth := (s.part part).booths.getD n Booth.reset

/-- Fields of a booth descriptor (Table 17-7). -/
def Booth.valid (b : Booth) : Bool := b.w1.getLsbD 3
def Booth.devenq (b : Booth) : Bool := b.w1.getLsbD 2
def Booth.hostenq (b : Booth) : Bool := b.w1.getLsbD 1
def Booth.work (b : Booth) : Bool := b.w1.getLsbD 0
def Booth.ctx (b : Booth) : Nat := bitsOf b.w1.toNat 15 8
def Booth.ring (b : Booth) : Nat := bitsOf b.w0.toNat 4 0

/-- Entries that a booth and its ring hold: 32, and 2^RINGLOG beyond (R199). -/
def ringCap (base log : Nat) : Nat := if log = 0 then base else base + 2 ^ log

/-- The booth and its ring are full. -/
def Booth.full (b : Booth) : Bool := decide (ringCap 32 b.ring ≤ b.entries.length)

/-- A landing-ring slot is free again (R242). -/
def State.freeSlot (s : State) (part : Nat) (slot : Option Nat) : State :=
  match slot with
  | none => s
  | some i => (s.updPart part fun p => { p with ringUsed := p.ringUsed.filter (· ≠ i) }).emit (.credit part i)

/-- The head of a booth leaves it (R200). -/
def State.popHead (s : State) (part n : Nat) : State :=
  s.updBooth part n fun b => { b with entries := b.entries.drop 1, waits := b.waits.drop 1 }

/-- Refuse the launch at the head of a booth (R194): its completion action runs at once, and the booth moves on. -/
def State.refuse (s : State) (part n : Nat) (w : Waiting) (status : Nat) : State :=
  ((s.popHead part n).finish part w.ctx w.blk status 0 []).freeSlot part w.ring

/-! ## Dependences (R203) -/

/-- What the dependences of a launch give: a counter that cannot be read, one below its target or locked away, or all met, with what
the counters release. -/
inductive DepRes where
  | faulted | unmet | met (v : View)

/-- The used dependences of a block. -/
def Launch.used (b : Launch) : List (Nat × Nat) := b.deps.filter fun d => d.1 ≠ 0

/-- Read the counters of some dependences. A counter that is not aligned to 8 cannot be read as one. -/
def depsOf (s : State) (part ctx : Nat) : List (Nat × Nat) → DepRes
  | [] => .met []
  | d :: r =>
    match if d.1 % 8 = 0 then ioRuns s part ctx .read d.1 8 else none with
    | some [x] =>
      if ioPoison s [x] then .faulted
      else
        match depsOf s part ctx r with
        | .met v => if !ioBusy s [x] && decide (d.2 ≤ s.ram.mem.num x.addr 8) then .met (View.join v (ioAcquire s x.addr)) else .unmet
        | o => o
    | _ => .faulted

/-- Evaluate the launch that waits at the head of a booth; true when it has been refused. -/
def evalBooth (part : Nat) (x : State × Bool) (n : Nat) : State × Bool :=
  let s := x.1
  match (s.booth part n).waits with
  | [] => x
  | w :: r =>
    if w.since.isSome then x
    else
      match depsOf s part w.ctx w.blk.used with
      | .faulted => if finishBusy s part w.ctx w.blk then x else (s.refuse part n w 6, true)
      | .unmet => x
      | .met v =>
        (s.updBooth part n fun b => { b with waits := { w with since := some s.now, raised := s.now, hb := View.join w.hb v } :: r }, x.2)

/-- Evaluate every waiting launch of a partition; again after a refusal, whose completion action may meet others. -/
def evalDeps (part : Nat) : Nat → State → State
  | 0, s => s
  | n + 1, s =>
    let x := (List.range 65).foldl (evalBooth part) (s, false)
    if x.2 then evalDeps part n x.1 else x.1

/-- Evaluate the dependences of a partition (R203). -/
def State.deps (s : State) (part : Nat) : State := evalDeps part 66 s

/-- DEPENDENCE_EVALUATION (R203): at least every 20 µs. -/
def execDependenceEvaluation (part : Nat) (s : State) : Out_ := .next (s.deps part)

/-- PRIORITY_AGING (R205): a launch that has stayed eligible for another 10 ms rises by a level, up to 3. -/
def execPriorityAging (part booth : Nat) (s : State) : Out_ :=
  match (s.booth part booth).waits with
  | [] => .next s
  | w :: r =>
    .next (if w.since.isSome && decide (w.raised + 10000000 ≤ s.now) && decide (w.level < 3) then
        s.updBooth part booth fun b => { b with waits := { w with level := w.level + 1, raised := w.raised + 10000000 } :: r }
      else s)

/-! ## Copying a block (R194, R200) -/

/-- A copied launch as it begins to wait. -/
def Waiting.fresh (b : Launch) (ctx : Nat) (ring : Option Nat) (hb : View) : Waiting := ⟨b, ctx, none, b.prio, 0, 0, 0, ring, hb⟩

/-- The layout of a launch entry (R200). -/
def launchEntryOk (e : List Dword) : Bool :=
  let w := (e.getD 0 0).toNat
  bitsOf w 63 57 == 8 && w % 256 == 0 && (e.drop 1).all (· == 0)

/-- LAUNCH_COPY (R194, R200): the head of a launch booth is read, judged, and refused or made to wait. -/
def execLaunchCopy (part booth : Nat) (s : State) : Out_ :=
  let b := s.booth part booth
  match b.entries with
  | [] => .next s
  | e :: _ =>
    if !b.valid || b.work || !b.waits.isEmpty || decide (64 ≤ booth) then .next s
    else if !launchEntryOk e.words then .next ((s.popHead part booth).logAt 1 part booth)
    else
      let a := (e.words.getD 0 0).toNat % 2 ^ 57
      match ioRuns s part b.ctx .read a 256 with
      | none => .next ((s.popHead part booth).logAt 1 part a)
      | some l =>
        if ioBusy s l then .next s
        else if ioPoison s l then .next ((s.popHead part booth).logAt 1 part a)
        else
          let blk := parseLaunch a (ioBytes s l)
          let w := Waiting.fresh blk b.ctx none e.view
          match judgeLaunch s part b.ctx false blk with
          | some st => .next (if finishBusy s part b.ctx blk then s else (s.refuse part booth w st).deps part)
          | none => .next ((s.updBooth part booth fun b => { b with waits := [w] }).deps part)

/-! ## Enqueuing (R201, R202) -/

/-- An entry enters a booth (R200); the dependences are evaluated (R203). -/
def State.enqueue (s : State) (part n : Nat) (e : BoothEntry) : State :=
  (s.updBooth part n fun b => { b with entries := b.entries ++ [e] }).deps part

/-- What a front-end instruction releases at device scope (R202, R370): the accesses of its threads so far, and what an XFENCE has ordered
before them, for which it waits (R185). -/
def frontRelease (v : Served) (s : State) : Option (Group × State × View) :=
  (xgate s v.g 0 v.seq).map fun g => (g, s.wideRelease g [g.release s .device 0], g.coveredOf .device v.act)

/-- Write a truth value to a predicate in the active lanes. -/
def Group.answer (g : Group) (p : Opd) (m : Mask) (x : Bool) : Group := { g with arch := writePrd g.arch p m fun _ => x }

/-- Enqueue an entry to a booth, or answer that it is full (R202). -/
def enqueueBody (v : Served) (s : State) (p : Opd) (n : Nat) (words : List Dword) : Res :=
  let part := v.g.key.team.part
  match frontRelease v s with
  | none => .wait s v.run
  | some (g, t, view) =>
    if (s.booth part n).full then .done t (g.answer p v.act false) 0
    else .done (t.enqueue part n ⟨words, view⟩) (g.answer p v.act true) 0

/-- The booth cannot be used by the group's context (R202). -/
def Booth.denied (b : Booth) (ctx : Nat) : Bool := !b.valid || b.ctx != ctx

/-- WQENQ (R202, R401). -/
def execWqenq (c : Ctl) (p booth first : Opd) (s : State) : Out_ :=
  serveCommit (.wqenq c p booth first) c s fun v =>
    let n := (immVal booth).toNat
    let b := s.booth v.g.key.team.part n
    if b.denied v.g.ctx || !b.devenq then v.trap s 0x0E v.act n
    else enqueueBody v s p n ((List.range 8).map fun i => v.g.arch.sreg (sclNo first + i))

/-- LAUNCH (R202, R344). -/
def execLaunch (c : Ctl) (p booth blk : Opd) (s : State) : Out_ :=
  serveCommit (.launch c p booth blk) c s fun v =>
    let n := (immVal booth).toNat
    let b := s.booth v.g.key.team.part n
    let a := (v.g.arch.sreg (sclNo blk)).toNat
    if a % 256 ≠ 0 then v.trap s 0x05 v.act a
    else if 2 ^ 57 ≤ a then v.trap s 0x06 v.act a
    else if b.denied v.g.ctx || !b.devenq || b.work then v.trap s 0x0E v.act n
    else enqueueBody v s p n (BitVec.ofNat 64 (a + 2 ^ 60) :: List.replicate 7 0)

/-- WQDEQ (R202, R401). -/
def execWqdeq (c : Ctl) (p booth first : Opd) (s : State) : Out_ :=
  serveCommit (.wqdeq c p booth first) c s fun v =>
    let n := (immVal booth).toNat
    let part := v.g.key.team.part
    let b := s.booth part n
    let put := fun (g : Group) (w : List Dword) =>
      { g with arch := (List.range 8).foldl (fun a i => a.setS (sclNo first + i) (w.getD i 0)) g.arch }
    if b.denied v.g.ctx || !b.work then v.trap s 0x0E v.act n
    else
      match b.entries with
      | [] => .done s ((put v.g []).answer p v.act false) 0
      | e :: _ => .done (s.popHead part n) (((put v.g e.words).answer p v.act true).acquire v.act e.view) 0

/-! ## Armings (R207, R370) -/

/-- The bytes of a landing-ring slot: a header and a payload of 64 KiB (R242). -/
def slotBytes : Nat := 65600

/-- Where the payload of a landing-ring slot lies. -/
def Part.payloadAt (p : Part) (slot : Nat) : Nat := p.ringPa + slotBytes * slot + 64

/-- An arming fires on the message of a slot (R207, R194): its block is copied, with ARG15 replaced, and enters virtual booth 64. -/
def State.fire (s : State) (part : Nat) (a : Arming) (slot : Nat) (v : View) : State :=
  match ioRead s part a.ctx a.blk 256 with
  | none => (s.logAt 1 part a.blk).freeSlot part (some slot)
  | some d =>
    let blk := parseLaunch a.blk d
    let blk := { blk with args := blk.args.set 15 (BitVec.ofNat 64 ((s.part part).payloadAt slot)) }
    match judgeLaunch s part a.ctx true blk with
    | some st => ((s.finish part a.ctx blk st 0 []).freeSlot part (some slot)).deps part
    | none => (s.updBooth part 64 fun b => { b with waits := b.waits ++ [Waiting.fresh blk a.ctx (some slot) (View.join a.view v)] }).deps part

/-- An arming that fires now waits (R149, R411): a line of its block, or of the completion words of one that is refused, is locked by a
core or in motion. -/
def State.fireBusy (s : State) (part : Nat) (a : Arming) : Bool :=
  match ioRuns s part a.ctx .read a.blk 256 with
  | none => false
  | some l =>
    let b := parseLaunch a.blk (ioBytes s l)
    ioBusy s l || (!ioPoison s l && (judgeLaunch s part a.ctx true b).isSome && finishBusy s part a.ctx b)

/-- Held messages with an arming's tag fire it: the oldest, or all of them when it repeats (R370). -/
def State.fireHeld (s : State) (part : Nat) (a : Arming) : State :=
  let hit := ((s.part part).unmatched.filter fun m => m.tag = a.tag)
  let hit := if a.rep then hit else hit.take 1
  let s := s.updPart part fun p => { p with
    unmatched := p.unmatched.filter fun m => !hit.contains m
    armings := if a.rep || hit.isEmpty then p.armings ++ [a] else p.armings }
  hit.foldl (fun s m => s.fire part a m.slot m.view) s

/-- NARM (R207, R370). -/
def execNarm (c : Ctl) (p tag blk : Opd) (s : State) : Out_ :=
  serveCommit (.narm c p tag blk) c s fun v =>
    let t := (v.g.arch.sreg (sclNo tag)).toNat
    let a := (v.g.arch.sreg (sclNo blk)).toNat
    let part := v.g.key.team.part
    if 2 ^ 33 ≤ t then v.trap s 0x02 v.act 0
    else if a % 256 ≠ 0 then v.trap s 0x05 v.act a
    else if 2 ^ 57 ≤ a then v.trap s 0x06 v.act a
    else
      match frontRelease v s with
      | none => .wait s v.run
      | some (g, r, view) =>
        let arm : Arming := ⟨t % 2 ^ 32, t.testBit 32, a, g.ctx, view⟩
        if ((s.part part).unmatched.any fun m => m.tag == arm.tag) && s.fireBusy part arm then .wait s v.run
        else if 64 ≤ (s.part part).armings.length then .done r (g.answer p v.act false) 0
        else .done (r.fireHeld part arm) (g.answer p v.act true) 0

/-! ## SCHNXT (R209, R389) -/

/-- The next entry of a core rank's list: the lowest returned one, else the one at the cursor (R209). -/
def Rank.nextEntry (r : Rank) : Option (Nat × Rank) :=
  match r.returned with
  | e :: t => some (e, { r with returned := t })
  | [] => if r.cursor < r.sched.length then some (r.cursor, { r with cursor := r.cursor + 1 }) else none

/-- SCHNXT (R209, R389): the taking of the entry is staged. -/
def execSchnxt (c : Ctl) (p d : Opd) (s : State) : Out_ :=
  serve (.schnxt c p d) c s fun v =>
    let k := v.g.key.team
    let put := fun (g : Group) (x : Dword) (b : Bool) => { g with arch := writePrd (g.arch.setS (sclNo d) x) p v.act fun _ => b }
    match (s.rankOf k v.g.rank).nextEntry with
    | none => .done s (put v.g 0 false) 0
    | some (e, r) =>
      .done (s.updRank k v.g.rank fun _ => r) (put (v.g.stage s.now noClass (.schnxt v.g.rank e) []) (r.sched.getD e 0) true) 0

end Sys2Proof.Machine
end

