-- ==== Sys2Proof/Machine/Schedule.lean ====
section
/-! DEFINITION. Machine/Schedule.lean: what starts and where (R24, R40, R44, R196, R197, R205, R208, R229), the completion of grids (R38,
R195, R198, R242), gangs (R210, R211) and the harbourmaster's lease (R212). Where the manual leaves the cores to the scheduler (R196)
the event names them; an event that names none takes the lowest. -/

namespace Sys2Proof.Machine

/-! ## Cores -/

/-- Groups of a launch that stand on quadrant `q` of core rank `r` (R24). -/
def Launch.newOn (b : Launch) (r q : Nat) : Nat :=
  if q + 4 * r < b.groups then (b.groups - q - 4 * r - 1) / (4 * b.ranks) + 1 else 0

/-- A sum over a list. -/
def sumOf {α : Type} (f : α → Nat) (l : List α) : Nat := l.foldl (fun n x => n + f x) 0

/-- The codebook slots that a team's rank on a core has loaded (R299). -/
def Team.cbOn (t : Team) (c : CoreId) : Nat := ((t.ranks.getD (t.cores.findIdx (· == c)) default).cb).length

/-- The core ranks that an open gang reservation holds room for on a core, each with its launch (R211). -/
def State.heldOn (s : State) (c : CoreId) : List (Launch × Nat) :=
  match s.dev.gangResv with
  | none => []
  | some r =>
    match (s.booth r.part r.booth).waits with
    | [] => []
    | w :: _ => (r.held.flatMap Prod.snd).filterMap fun cs => if cs.contains c then some (w.blk, cs.findIdx (· == c)) else none

/-- A core takes core rank `r` of a team of a launch (R44, R208, R299), with `cb` codebook slots already loaded, beside what is on it and
what else it has to hold. -/
def State.coreTakesBeside (s : State) (held : List (Launch × Nat)) (b : Launch) (r cb : Nat) (c : CoreId) : Bool :=
  let quad := fun q =>
    let m := b.newOn r q
    let more := fun (f : Launch → Nat) => sumOf (fun (x : Launch × Nat) => x.1.newOn x.2 q * f x.1) held
    let gs := s.groups.filter fun g => g.core = c && g.quad == q
    let n := gs.length + m + more fun _ => 1
    decide (n ≤ 16) && decide (sumOf Group.nv gs + m * b.nv + more Launch.nv + 16 * n ≤ 2048) &&
      decide (sumOf Group.ns gs + m * b.ns + more Launch.ns + 16 * n ≤ 8192)
  let bs := (s.teams.filter fun t => t.resident && t.cores.contains c).map Team.blk ++ held.map Prod.fst
  (List.range 4).all quad && decide (sumOf Launch.scratch bs + b.scratch ≤ 262144) &&
    decide (sumOf Launch.opbuf bs + b.opbuf ≤ 524288) && decide (sumOf Launch.tiles bs + b.tiles ≤ 8) &&
    (b.sched == 0 || bs.all fun x => x.sched == 0) &&
    decide (sumOf (fun t => t.cbOn c) (s.teams.filter fun t => t.resident && t.cores.contains c) + cb ≤ 64)

/-- A core takes a core rank beside what a gang has reserved. -/
def State.coreTakes (s : State) (b : Launch) (r cb : Nat) (c : CoreId) : Bool := s.coreTakesBeside (s.heldOn c) b r cb c

/-- Cores that a team may be placed on, in rank order: C of them, of one cluster of the partition (R24). -/
def State.coresOk (s : State) (part : Nat) (b : Launch) (cbs : List Nat) (cs : List CoreId) : Bool :=
  match cs with
  | [] => false
  | c :: _ =>
    decide (cs.length = b.ranks) && cs.eraseDups.length == cs.length && (s.part part).hasCluster c.die c.cluster &&
      (cs.all fun x => x.die == c.die && x.cluster == c.cluster && decide (x.core < 16)) &&
      (List.range cs.length).all fun r => s.coreTakes b r (cbs.getD r 0) (cs.getD r default)

/-- Seat core rank `r` of a team on one of sixteen cores: the lowest free one that takes it, or one whose rank can go to another core.
`seats` holds core and rank, `seen` the cores already tried. -/
def seatRank (takes : Nat → Nat → Bool) : Nat → List (Nat × Nat) → List Nat → Nat → List Nat × Option (List (Nat × Nat))
  | 0, _, seen, _ => (seen, none)
  | fuel + 1, seats, seen, r =>
    match (List.range 16).find? fun c => !seen.contains c && (assoc seats c).isNone && takes r c with
    | some c => (seen, some (assocPut seats c r))
    | none => (List.range 16).foldl (fun x c =>
        match x.2, assoc seats c with
        | none, some o =>
          if x.1.contains c || !takes r c then x
          else
            let y := seatRank takes fuel seats (c :: x.1) o
            (y.1, y.2.map fun m => assocPut m c r)
        | _, _ => x) (seen, none)

/-- Seat the ranks of a team. -/
def seatRanks (takes : Nat → Nat → Bool) (ranks : Nat) : Option (List (Nat × Nat)) :=
  (List.range ranks).foldl (fun m r => m.bind fun m => (seatRank takes 17 m [] r).2) (some [])

/-- Cores that take a team: those of the first cluster that has them, the lowest where there is a choice. -/
def State.findCores (s : State) (part : Nat) (b : Launch) (cbs : List Nat) : Option (List CoreId) :=
  (s.part part).clusters.findSome? fun d =>
    let core := fun (i : Nat) => (⟨d.1, d.2, i⟩ : CoreId)
    (seatRanks (fun r i => s.coreTakes b r (cbs.getD r 0) (core i)) b.ranks).map fun m =>
      (List.range b.ranks).map fun r => core (((m.find? fun x => x.2 = r).map Prod.fst).getD 0)

/-! ## All teams of a gang's copy at once (R211) -/

/-- A core takes some core ranks of teams of a launch, one after another. -/
def State.coreTakesAll (s : State) (b : Launch) (c : CoreId) : List (Launch × Nat) → List Nat → Bool
  | _, [] => true
  | held, r :: l => s.coreTakesBeside held b r 0 c && s.coreTakesAll b c ((b, r) :: held) l

/-- The core ranks with one block of groups more than the others (R24): the first. -/
def Launch.heavy (b : Launch) : Nat := (b.groups % (4 * b.ranks) + 3) / 4

/-- The most lighter core ranks that a core takes beside `a` heavy ones, of `t` teams, each with one rank there at most. -/
def State.lightOn (s : State) (b : Launch) (t : Nat) (c : CoreId) (a : Nat) : Option Nat :=
  let heavy := List.replicate a 0
  if t < a || !s.coreTakesAll b c [] heavy then none
  else some ((List.range (t - a)).takeWhile fun n => s.coreTakesAll b c [] (heavy ++ List.replicate (n + 1) (b.ranks - 1))).length

/-- The most light ranks on some cores that hold 0, 1, 2 … heavy ones, and how many of each stand on each core, with one core more. -/
def planCore (one : List (Option Nat)) (l : List (Option (Nat × List (Nat × Nat)))) : List (Option (Nat × List (Nat × Nat))) :=
  (List.range l.length).map fun i => (List.range (min i 16 + 1)).foldl (fun best a =>
    match one.getD a none, l.getD (i - a) none with
    | some x, some y => if best.all fun z => decide (z.1 < x + y.1) then some (x + y.1, (a, x) :: y.2) else best
    | _, _ => best) none

/-- The first of some numbers, as far as their sum is `n`. -/
def upTo : Nat → List Nat → List Nat
  | _, [] => []
  | n, x :: r => min n x :: upTo (n - min n x) r

/-- For each of `k` ranks the cores of its `t` teams, from how many such ranks each core holds. -/
def rankCores (t k : Nat) (per : List Nat) : List (List Nat) :=
  let all := per.zipIdx.flatMap fun x => List.replicate x.1 x.2
  (List.range k).map fun r => (all.drop (r * t)).take t

/-- Deal cores to teams, one of each rank's cores to each, all of a team different. Every core occurs as often as there are teams. -/
def dealTeams : Nat → List (List Nat) → List (List Nat)
  | 0, _ => []
  | n + 1, l =>
    match seatRanks (fun r c => (l.getD r []).contains c) l.length with
    | none => []
    | some m =>
      let mine := (List.range l.length).map fun r => ((m.find? fun x => x.2 = r).map Prod.fst).getD 0
      mine :: dealTeams n ((l.zip mine).map fun x => x.1.erase x.2)

/-- Cores of a cluster for `t` teams of a launch together, where there are any. -/
def State.planCluster (s : State) (b : Launch) (d : Nat × Nat) (t : Nat) : Option (List (List CoreId)) :=
  let core := fun (i : Nat) => (⟨d.1, d.2, i⟩ : CoreId)
  let light := t * (b.ranks - b.heavy)
  let start := (List.range (t * b.heavy + 1)).map fun i => if i = 0 then some (0, []) else none
  let ends := (List.range 16).foldl (fun l i => planCore ((List.range 17).map (s.lightOn b t (core i))) l) start
  (ends.getLast?.join.filter fun x => decide (light ≤ x.1)).bind fun x =>
    let hs := x.2.reverse.map Prod.fst
    let ls := upTo light (x.2.reverse.map Prod.snd)
    let rest := (hs.zip ls).map fun y => t - y.1 - y.2
    let teams := dealTeams t (rankCores t b.heavy hs ++ rankCores t (b.ranks - b.heavy) ls ++ rankCores t (16 - b.ranks) rest)
    if teams.length = t then some (teams.map fun m => (m.take b.ranks).map core) else none

/-- Cores for `t` teams of a launch, as many on each cluster as it takes. -/
def State.planTeams (s : State) (b : Launch) : List (Nat × Nat) → Nat → Option (List (List CoreId))
  | _, 0 => some []
  | [], _ => none
  | d :: r, t =>
    let here := (((List.range t).map fun i => t - i).findSome? fun n => s.planCluster b d n).getD []
    (s.planTeams b r (t - here.length)).map fun l => here ++ l

/-! ## The cores of a team -/

/-- The cores of the next team: the first that an event names, or the lowest that take it; with those left to name. -/
def State.pickCores (s : State) (part : Nat) (b : Launch) (cbs : List Nat) (cs : List CoreId) : Option (List CoreId × List CoreId) :=
  match cs with
  | [] => (s.findCores part b cbs).map fun l => (l, [])
  | _ => if s.coresOk part b cbs (cs.take b.ranks) then some (cs.take b.ranks, cs.drop b.ranks) else none

/-! ## Grids -/

/-- The number that the next grid of a partition takes (R197). -/
def Part.gridNo (p : Part) : Nat :=
  let used := p.grids.map Grid.num
  (((List.range (used.length + 1)).map fun i => (p.nextGrid - 1 + i) % 0xFFFFFFFF + 1).find? fun n => !used.contains n).getD 1

/-- The linear index of the next team that a grid places, passing those killed before (R195, R196). -/
def Grid.nextIdx (g : Grid) : Nat := ((List.range (g.skip.length + 1)).find? fun i => !g.skip.contains (g.next + i)).getD 0 + g.next

/-- Teams of a grid are still to be created. -/
def Grid.more (g : Grid) : Bool := decide (g.nextIdx < g.blk.teams)

/-- Change a grid of a partition. -/
def State.updGrid (s : State) (part num : Nat) (f : Grid → Grid) : State :=
  s.updPart part fun p => { p with grids := p.grids.map fun g => if g.num = num then f g else g }

def State.grid? (s : State) (part num : Nat) : Option Grid := (s.part part).grids.find? fun g => g.num = num

/-- The arena image of a team (R196). DESIGN CHOICE (log 33): the log record of an entry that cannot be read holds the linear team index, as R196
says, where R250 has the address or booth of every source but 0. -/
def State.arenaOf (s : State) (part ctx t : Nat) : State × Dword :=
  match (s.part part).ctx? ctx with
  | none => (s, 0)
  | some c =>
    if c.arenaLen ≤ t then (s, 0)
    else
      match ioRead s part ctx (c.arenaTab + 8 * t) 8 with
      | none => (s.logAt 9 part t, 0)
      | some d =>
        let x := BitVec.ofNat 64 (leNat d)
        (s, if x &&& ~~~arenaMask = 0 ∧ arenaOk x.toNat then x else 0)

/-- The schedule lists of a team's core ranks (R208). DESIGN CHOICE (log 33): the image is read again when a team loads its lists; one whose
header then cannot be read or is not legal gives no list, and entries that cannot be read give zeros. -/
def schedLists (s : State) (part ctx : Nat) (b : Launch) (t : Nat) : List (List Dword) :=
  match schedOf s part ctx b with
  | .ok len nl => (List.range b.ranks).map fun r =>
      let d := (ioRead s part ctx (b.sched + 64 + 8 * len * ((t * b.ranks + r) % nl)) (8 * len)).getD []
      (List.range len).map fun i => BitVec.ofNat 64 (fieldAt d (8 * i) 8)
  | _ => []

/-- A group starts from the registers it has (R67): its one checkpoint is verified at once. -/
def Group.startsAt (g : Group) (now : Nat) : Group := { g with ckpts := [⟨0, some now, true, g.arch⟩] }

/-- The entry at CODE is checked as a branch's target is (R268): when it is not legal, the team has no handler yet and is lost (R225); a
line without a translation is checked once it has one. -/
def State.enterCode (s : State) (k : TeamKey) : State :=
  match s.groups.find? fun g => g.key.team = k with
  | none => s
  | some g =>
    let code := (g.arch.pcs.headD 0)
    let lose := fun c => s.loseTeam k ⟨c, code, g.live, code, 0⟩
    match checkTarget s g code with
    | .illegal => lose 0x03
    | .forbid => lose 0x06
    | .absent _ => { s with groups := s.groups.map fun g => if g.key.team = k then g.entersAt g.live |>.startsAt s.now else g }
    | .ok => s

/-- Create the next team of a grid on some cores (R23, R24, R27, R196, R208). -/
def State.newTeam (s : State) (part : Nat) (g : Grid) (cs : List CoreId) : State :=
  let i := g.nextIdx
  let k : TeamKey := ⟨part, g.num, i⟩
  let a := s.arenaOf part g.ctx i
  let s := a.1.updGrid part g.num fun g => { g with next := i + 1 }
  let t := Team.fresh k g.ctx g.blk cs a.2 (schedLists s part g.ctx g.blk i) g.level s.now
  let gs := (teamGroups k g.ctx g.blk cs s.now).map fun x => ((List.range 6).foldl (fun y c => y.needs c g.hb) x).startsAt s.now
  ({ s with teams := s.teams ++ [t], groups := s.groups ++ seat s.groups gs }).enterCode k

/-- Place the next teams of a grid, `n` of them, on the cores that an event names or on the lowest. -/
def State.newTeams (s : State) (part num : Nat) : Nat → List CoreId → Option State
  | 0, _ => some s
  | n + 1, cs =>
    match s.grid? part num with
    | none => some s
    | some g =>
      if !g.more then some s
      else (s.pickCores part g.blk [] cs).bind fun x => (s.newTeam part g x.1).newTeams part num n x.2

/-! ## Restoring a saved team (R229, R150, R299) -/

/-- A group as it is restored: a checkpoint that is verified at once, and a move that CLKEVT counts (R216, R229). -/
def Group.restored (g : Group) (now : Nat) (core : CoreId) : Group :=
  Group.countClk { g with
    core := core
    seq := g.seq + 2
    ckpts := [⟨g.seq, some now, true, g.arch⟩]
    commit := g.commit.map fun k => { k with seq := g.seq }
    look := g.blocked ||| g.coll
    stall := false
    stop := false }

/-- The fences of a saved group bind its later stores on its new die, as of now (R168, R412). DESIGN CHOICE (log 19): they count as narrow
releases of the new cluster with its die's generation. -/
def Group.fencedAt (g : Group) (c : Coh) (die : Nat) : Group :=
  let now := fun (r : Release) => { r with gen := (c.dg.getD die 0) % 65536, born := c.ticks }
  g.updThr g.lanes fun t => { t with rels := t.rels.map now }

/-- The home gives a locked line back to its core in M (R150); its holders answer within the step (log 26), and the request of another core
that it was serving is taken up again after it (R143). -/
def Coh.relock (c : Coh) (core : CoreId) (line : Nat) (priv : Bool) : Coh :=
  let c := ((c.woken line).setLine { c.line line with state := .m, owner := some core, holders := [core] }).trim line
  let c := { c with reqs := c.reqs.map fun r => if r.line = line then { r with stage := .sent, wait := [], acks := [] } else r }
  if priv then c else c.track line core

/-- Restore a saved team on some cores; none while a line it had locked is locked by another, or a core would
hold more than sixteen locked lines (R149). -/
def State.restoreTeam (s : State) (t : Team) (cs : List CoreId) : Option State :=
  let locks := (List.range t.ranks.length).flatMap fun r => ((t.ranks.getD r default).locks.map fun l => (cs.getD r default, l.1))
  if (locks.any fun l => (s.lockOf l.2).isSome) || locks.any (fun l => decide (16 < (s.coreLocks l.1).length + (locks.filter fun x => x.1 == l.1).length)) then none
  else
    let gs := t.saved.map fun g => (g.fencedAt s.coh (cs.getD g.rank default).die).restored s.now (cs.getD g.rank default)
    let t' := { t with status := .resident, place := t.place + 1, cores := cs, slot := none, saved := [] }
    some { s.setTeam t' with
      groups := s.groups ++ seat s.groups gs
      coh := locks.foldl (fun c l => c.relock l.1 l.2 (s.privLine l.2)) s.coh }

/-- Restore some saved teams. -/
def State.restoreTeams (s : State) (part : Nat) : List Team → List CoreId → Option State
  | [], _ => some s
  | t :: r, cs =>
    (s.pickCores part t.blk (t.ranks.map fun x => x.cb.length) cs).bind fun x =>
      (s.restoreTeam t x.1).bind fun u => u.restoreTeams part r x.2

/-! ## The order of placement (R205) -/

/-- The saved teams of a grid, in rising order. -/
def State.savedOf (s : State) (part num : Nat) : List Team :=
  sortBy (fun a b => decide (a.key.idx ≤ b.key.idx)) (s.teams.filter fun t => t.key.part = part && t.key.grid == num && t.status == .saved)

/-- The started grids with a team to place: highest level first, oldest start first. -/
def State.unplaced (s : State) (part : Nat) : List Grid :=
  sortBy (fun a b => decide (a.level > b.level) || (a.level == b.level && decide (a.started ≤ b.started)))
    ((s.part part).grids.filter fun g => g.more || !(s.savedOf part g.num).isEmpty)

/-- The eligible launches of a partition, each with its booth: highest level first, round robin within a level. -/
def State.eligibleLaunches (s : State) (part : Nat) : List (Nat × Waiting) :=
  [3, 2, 1, 0].flatMap fun l =>
    let last := (assoc (s.part part).lastStart l).getD 64
    (List.range 65).filterMap fun i =>
      let b := (last + 1 + i) % 65
      match (s.booth part b).waits with
      | w :: _ => if w.since.isSome && w.level == l then some (b, w) else none
      | [] => none

/-- A gang's open reservation keeps a partition from placing a new team of a level (R211). -/
def State.reserved (s : State) (part level : Nat) : Bool :=
  match s.dev.gangResv with
  | none => false
  | some r => (s.booth r.part r.booth).waits.any fun w => w.blk.gang.getLsbD part && decide (level ≤ w.level)

/-- A team of a grid is being saved. -/
def State.savingGrid (s : State) (part num : Nat) : Bool := s.teams.any fun t => t.key.part = part && t.key.grid == num && t.status == .saving

/-- Place the next team of a started grid: its saved teams first; all of them when it is cooperative, and only once none is still being
saved (R40). -/
def State.placeGrid (s : State) (part : Nat) (g : Grid) (cs : List CoreId) : Option State :=
  let saved := s.savedOf part g.num
  if g.blk.coop && s.savingGrid part g.num then none
  else if !saved.isEmpty then s.restoreTeams part (if g.blk.coop then saved else saved.take 1) cs
  else if s.reserved part g.level then none
  else s.newTeams part g.num 1 cs

/-- A launch becomes a started grid (R197). -/
def State.startGrid (s : State) (part ctx : Nat) (b : Launch) (level : Nat) (gang ring : Option Nat) (hb : View) : State × Nat :=
  let n := (s.part part).gridNo
  (s.updPart part fun p => { p with
    grids := p.grids ++ [⟨n, ctx, b, level, s.now, 0, [], none, false, gang, ring, hb, []⟩]
    nextGrid := n % 0xFFFFFFFF + 1 }, n)

/-- Start the launch at the head of a booth and place its first team, or all of them when it is cooperative (R205, R40). -/
def State.placeLaunch (s : State) (part booth : Nat) (w : Waiting) (cs : List CoreId) : Option State :=
  if s.reserved part w.level then none
  else
    let x := (s.popHead part booth).startGrid part w.ctx w.blk w.level none w.ring w.hb
    let t := x.1.updPart part fun p => { p with lastStart := assocPut p.lastStart w.level booth }
    t.newTeams part x.2 (if w.blk.coop then w.blk.teams else 1) cs

/-- What R205 places next: the first started grid with an unplaced team; when that cannot be placed, the first eligible launch, if its
level is higher. A gang launch starts by its reservation, and holds up those after it. -/
def State.placeNext (s : State) (part : Nat) (grid : Nat) (cs : List CoreId) : Option State :=
  let launch := (s.eligibleLaunches part).head?.filter fun x => x.2.blk.gang = 0
  let start := fun (x : Nat × Waiting) => if grid = (s.part part).gridNo then s.placeLaunch part x.1 x.2 cs else none
  match (s.unplaced part).head?, launch with
  | none, none => none
  | none, some x => start x
  | some g, l =>
    if grid = g.num then s.placeGrid part g cs
    else if (s.placeGrid part g []).isSome then none
    else match l with
      | some x => if g.level < x.2.level then start x else none
      | none => none

/-- TEAM_PLACE (R205, R196, R229): the team that the front end has chosen is placed on the cores named, and the grants are computed
again (R215). `grid` is its grid's number, or the number that the launch it starts takes. -/
def execTeamPlace (part grid : Nat) (cores : List CoreId) (s : State) : Out_ :=
  if !(s.part part).ready then .next s
  else
    match s.placeNext part grid cores with
    | none => .next s
    | some t => .next t.regrant

/-! ## Completion (R38, R195, R198) -/

/-- A grid has completed: no team of it is left, nor will be. -/
def State.gridOver (s : State) (part : Nat) (g : Grid) : Bool :=
  !g.more && !(s.teams.any fun t => t.key.part = part && t.key.grid == g.num)

/-- The status of a completed grid, the higher of LOST and KILLED (R195). -/
def Grid.status (g : Grid) : Nat := if g.lost.isSome then 5 else if g.killed then 4 else 0

/-- A gang launch after one of its copies has completed with a status (R210), with what the copy has done. -/
def Gang.after (a : Gang) (part status lost : Nat) (did : View) : Gang :=
  { a with
    did := View.join a.did did
    left := a.left.filter (· ≠ part)
    lost := if status = 5 ∧ a.status ≠ 5 then lost else a.lost
    status := max a.status status }

/-- All copies of a gang have completed: its completion action runs once, when its words can be written (R149, R210, R411). -/
def State.endGang (s : State) (a : Gang) : State :=
  if finishBusy s a.part a.ctx a.blk then s
  else
    let s := { s with dev := { s.dev with gangs := s.dev.gangs.filter fun x => x.id ≠ a.id } }
    (s.finish a.part a.ctx a.blk a.status a.lost a.did).deps a.part

/-- A copy of a gang launch has completed; with the last one the gang has. -/
def State.copyDone (s : State) (part id status lost : Nat) (did : View) : State :=
  match s.dev.gangs.find? fun a => a.id = id with
  | none => s
  | some a =>
    let a := a.after part status lost did
    let s := { s with dev := { s.dev with gangs := s.dev.gangs.map fun x => if x.id = id then a else x } }
    if a.left.isEmpty then s.endGang a else s

/-- A completed grid leaves its partition, and frees the slot its message took (R242). -/
def State.endGrid (s : State) (part : Nat) (g : Grid) : State :=
  (s.updPart part fun p => { p with grids := p.grids.filter fun x => x.num ≠ g.num }).freeSlot part g.ring

/-- COMPLETION_ACTION (R198, R210, R203): a completed grid's action runs, then the dependences are evaluated. A gang whose copies have all
completed, and whose words could not be written then, ends under a number that no grid of its leader has. -/
def execCompletionAction (part grid : Nat) (s : State) : Out_ :=
  match s.grid? part grid with
  | none => .next (((s.dev.gangs.find? fun a => a.part = part && a.left.isEmpty).map s.endGang).getD s)
  | some g =>
    if !s.gridOver part g then .next s
    else
      match g.gang with
      | none =>
        if finishBusy s part g.ctx g.blk then .next s
        else .next (((s.endGrid part g).finish part g.ctx g.blk g.status (g.lost.getD 0) g.did).deps part)
      | some id =>
        if (s.dev.gangs.any fun a => a.id == id && finishBusy s a.part a.ctx a.blk) then .next s
        else .next ((s.endGrid part g).copyDone part id g.status (g.lost.getD 0) g.did)

/-! ## Gangs (R210, R211) -/

/-- The block of the copy on partition `n` (R210): a cooperative grid, whose ARG15 tells its place in the gang. -/
def Launch.copyFor (b : Launch) (n : Nat) : Launch :=
  let below := (b.members.filter fun m => decide (m < n)).length
  { b with
    shape := b.shape ||| 0x4000000
    args := b.args.set 15 (BitVec.ofNat 64 (below + (b.members.length - 1) * 256)) }

/-- Start the copies of a gang on some partitions and place all their teams on the cores reserved for them. -/
def State.startCopies (s : State) (w : Waiting) (id : Nat) (held : List (Nat × List (List CoreId))) : List Nat → Option State
  | [] => some s
  | n :: r =>
    let x := s.startGrid n (s.booth n 0).ctx (w.blk.copyFor n) w.level (some id) none w.hb
    (x.1.newTeams n x.2 w.blk.teams ((assoc held n).getD []).flatten).bind fun t => t.startCopies w id held r

/-- A number for a gang. -/
def State.gangId (s : State) : Nat := s.dev.gangs.foldl (fun n a => max n (a.id + 1)) 0

/-- Reserve cores for the next teams of a gang's copy on a partition, as far as there are any free (R211). Which of the free cores is the
scheduler's choice (R196): the lowest (log 33), as long as all teams have room so. -/
def State.holdTeams (s : State) (w : Waiting) (n : Nat) : Nat → GangResv → GangResv
  | 0, r => r
  | k + 1, r =>
    let mine := (assoc r.held n).getD []
    if w.blk.teams ≤ mine.length then r
    else
      match State.findCores { s with dev := { s.dev with gangResv := some r } } n w.blk [] with
      | none => r
      | some cs => s.holdTeams w n k { r with held := assocPut r.held n (mine ++ [cs]) }

/-- A reservation with what one member can reserve now: where the lowest cores do not have room for all teams, and others do, those. -/
def State.holdMember (s : State) (w : Waiting) (r : GangResv) (n : Nat) : GangResv :=
  let low := s.holdTeams w n w.blk.teams r
  if ((assoc low.held n).getD []).length = w.blk.teams then low
  else ((s.planTeams w.blk (s.part n).clusters w.blk.teams).map fun l => { r with held := assocPut r.held n l }).getD low

/-- A reservation with what every member can reserve now. -/
def State.holdGang (s : State) (w : Waiting) (r : GangResv) : GangResv :=
  w.blk.members.foldl (fun r n => if (s.part n).ready then s.holdMember w r n else r) r

/-- Every member has reserved for all the teams of its copy. -/
def GangResv.whole (r : GangResv) (w : Waiting) : Bool := w.blk.members.all fun n => ((assoc r.held n).getD []).length == w.blk.teams

/-- A member's booth 0 cannot carry its copy (R210). -/
def State.noCarrier (s : State) (b : Launch) : Bool := b.members.any fun n => !(s.booth n 0).valid || (s.booth n 0).work

/-- The launch completes with GANGFAIL, which is logged (R210, R211). -/
def State.gangFail (s : State) (part booth : Nat) (w : Waiting) : State :=
  if finishBusy s part w.ctx w.blk then s else ((s.refuse part booth w 3).logAt 8 part booth).deps part

/-- A gang launch goes on with its reservation: it commits when every member has reserved within 100 µs, and otherwise stays open. -/
def State.gangTry (s : State) (part booth : Nat) (w : Waiting) (r : GangResv) : State :=
  let r := s.holdGang w r
  let keep := { s with dev := { s.dev with gangResv := some r } }
  if !r.whole w ∨ r.start + 100000 < s.now then keep
  else
    let id := s.gangId
    let a : Gang := ⟨id, part, w.ctx, w.blk, w.blk.members, 0, 0, []⟩
    let t := { s.popHead part booth with dev := { s.dev with
      gangResv := none
      gangs := s.dev.gangs ++ [a] } }
    let t := t.updPart part fun p => { p with lastStart := assocPut p.lastStart w.level booth }
    match t.startCopies w id r.held w.blk.members with
    | some u => u.regrant
    | none => keep

/-- The reservation of a booth's launch is open. -/
def State.gangOpen (s : State) (part booth : Nat) : Bool := s.dev.gangResv.any fun r => r.part == part && r.booth == booth

/-- The gang launch of a booth that is next in its partition's order (R205): after the started grids, unless it is above what waits there. -/
def State.gangTurn (s : State) (part booth : Nat) : Option Waiting :=
  let first := fun (w : Waiting) => (s.unplaced part).head?.all fun g => decide (g.level < w.level) && (s.placeGrid part g []).isNone
  match (s.eligibleLaunches part).head? with
  | some (b, w) => if b = booth ∧ w.blk.gang ≠ 0 ∧ first w then some w else none
  | none => none

/-- The gang launches that may ask for a reservation now, by partition and booth, with the time they became eligible. -/
def State.gangAsking (s : State) : List (Nat × Nat × Nat) :=
  (List.range 16).filterMap fun p =>
    (((s.eligibleLaunches p).head?).bind fun x => s.gangTurn p x.1 |>.map fun w => (x.1, w)).bind fun x =>
      if x.2.tries = 0 ∨ x.2.retryAt ≤ s.now then some (p, x.1, x.2.since.getD 0) else none

/-- Begin, or go on with, a reservation (R211): the device runs one at a time, in the order in which the launches became eligible. -/
def State.gangStep (s : State) (part booth : Nat) (w : Waiting) : State :=
  if s.dev.takeover.isSome then s
  else if s.noCarrier w.blk then s.gangFail part booth w
  else
    match s.dev.gangResv with
    | none =>
      let mine := (w.since.getD 0, part)
      if s.gangAsking.any fun x => decide (x.2.2 < mine.1) || (x.2.2 == mine.1 && decide (x.1 < part)) then s
      else s.gangTry part booth w ⟨part, booth, s.now, []⟩
    | some r => if r.part = part ∧ r.booth = booth then s.gangTry part booth w r else s

/-- GANG_RESERVE (R211): a gang launch chosen for the first time, or one whose reservation is open. -/
def execGangReserve (part booth : Nat) (s : State) : Out_ :=
  match if s.gangOpen part booth then (s.booth part booth).waits.head? else s.gangTurn part booth with
  | none => .next s
  | some w => .next (if w.tries = 0 || s.gangOpen part booth then s.gangStep part booth w else s)

/-- GANG_RETRY (R211): 1 ms after a failed attempt. -/
def execGangRetry (part booth : Nat) (s : State) : Out_ :=
  match s.gangTurn part booth with
  | none => .next s
  | some w => .next (if 0 < w.tries ∧ w.retryAt ≤ s.now then s.gangStep part booth w else s)

/-- GANG_RESERVE_TIMEOUT (R211): 100 µs after the first request the reservation is released; the sixteenth failure ends the launch. -/
def execGangReserveTimeout (s : State) : Out_ :=
  match s.dev.gangResv with
  | none => .next s
  | some r =>
    if s.now < r.start + 100000 then .next s
    else
      let t := { s with dev := { s.dev with gangResv := none } }
      match (s.booth r.part r.booth).waits with
      | [] => .next t
      | w :: q =>
        if 15 ≤ w.tries then .next (if finishBusy s r.part w.ctx w.blk then s else t.gangFail r.part r.booth w)
        else
          .next (t.updBooth r.part r.booth fun b => { b with waits := { w with tries := w.tries + 1, retryAt := s.now + 1000000 } :: q })

/-! ## The harbourmaster (R212) -/

/-- LEASE_RENEW (R212): the holder renews its lease of 40 ms; the first renewal of a new holder ends the takeover. -/
def execLeaseRenew (s : State) : Out_ := .next { s with dev := { s.dev with lease := s.now + 40000000, takeover := none } }

/-- LEASE_LAPSE (R212): the role passes to the lowest-numbered healthy die, within 60 ms; an open gang reservation is released without
counting, and queued fault records are sent again. -/
def execLeaseLapse (healthy : List Nat) (s : State) : Out_ :=
  if s.now < s.dev.lease ∨ s.dev.takeover.isSome then .next s
  else
    match (List.range 4).find? fun d => s.hasDie d && healthy.contains d with
    | none => .next s
    | some d =>
      let parts := s.parts.map fun p => { p with faults := p.faults.map fun f => { f with queued := true } }
      .next ({ s with
        parts := parts
        dev := { s.dev with hm := d, takeover := some (s.now + 60000000), gangResv := none } }.logAt 6 255 d)

end Sys2Proof.Machine
end

