-- ==== Sys2Proof/Machine/Wharf.lean ====
section
/-! DEFINITION. Machine/Wharf.lean: COLL (R303 to R308), NSEND (R243, R372, R373), the Wharf ports and the landing rings (R241, R242, R244),
and their events. -/

namespace Sys2Proof.Machine

/-! ## Commit points that stay in progress (R293) -/

/-- A COLL or NSEND begins: its entry, the oldest of the group, stands until it completes, its threads are held, and its operands have been
read (R303). -/
def Group.beginHeld (g : Group) (v : Served) : Group :=
  let n := ((g.commit.map Commit.seq).getD g.seq) + 1
  { g with
    commit := g.commit.map fun k => { k with srcs := [] }
    rob := ⟨n, v.pc, v.run, v.act, false, 0, 0, none, v.g.arch, v.i.orders, [], false, []⟩ :: g.rob }

/-- The threads of a run stand past a slot. -/
def Arch.pass (a : Arch) (run : Mask) (pc : Dword) : Arch := a.setPcs run fun _ => nextPc pc

/-- A COLL or NSEND completes (R67, R293): its results reach the registers and what younger entries and checkpoints would restore, and
the checkpoint just after it is verified at once. -/
def Group.endHeld (g : Group) (now : Nat) (pc : Dword) (run : Mask) (f : Arch → Arch) : Group :=
  let f := fun a => (f a).pass run pc
  let g := { g with commit := g.behind.head?, behind := g.behind.tail, blocked := g.blocked &&& ~~~run }
  match g.rob.find? fun e => e.pc = pc ∧ !e.executed with
  | none => Group.commitDone { g with arch := f g.arch } now
  | some e =>
    let h := g.later e.seq f
    let rob := h.rob.filter fun x => x.seq != e.seq
    let own := (g.ckpts.find? fun c => c.seq + 1 = e.seq).map fun c => f c.arch
    let a := if rob.isEmpty && g.commit.isNone then h.arch else own.getD h.arch
    let h : Group := { h with rob := rob, ckpts := ⟨e.seq, some now, true, a⟩ :: h.ckpts.filter fun c => decide (e.seq < c.seq) }
    Group.completeCkpts (h.relimit.setConsec 0) now

/-- The commit point of a group has begun. -/
def Group.begun (g : Group) : Bool := g.commit.any Commit.begun

/-! ## COLL -/

/-- A collective descriptor (Table 23-9). -/
structure CollDesc where
  src   : Nat
  dst   : Nat
  count : Nat
  op    : Nat
  ty    : Option Ty
  root  : Nat
  comm  : Nat
  seq   : Nat
  resv  : Bool
deriving Inhabited

/-- The descriptor in 64 bytes. -/
def parseColl (d : List Byte) : CollDesc :=
  let ctl := fieldAt d 24 4
  ⟨fieldAt d 0 8, fieldAt d 8 8, fieldAt d 16 5, ctl % 16, Ty.ofCode (bitsOf ctl 12 8), bitsOf ctl 23 16, bitsOf ctl 31 24, fieldAt d 28 4,
    fieldAt d 21 3 != 0 || bitsOf ctl 7 4 != 0 || bitsOf ctl 15 13 != 0 || fieldAt d 32 32 != 0⟩

/-- The types a collective admits (R305). -/
def collTy (t : Option Ty) : Option Ty :=
  match t with
  | some .fp64 | some .fp32 | some .fp16 | some .bf16 | some .s32 | some .n32 | some .s64 | some .n64 => t
  | _ => none

/-- The bytes of SRC and DST (Table 23-10), with elements of `n` bytes in `nr` ranks. -/
def CollDesc.srcLen (d : CollDesc) (n nr : Nat) : Nat := if d.op = 6 then 0 else d.count * n * (if d.op = 4 then nr else 1)
def CollDesc.dstLen (d : CollDesc) (n nr : Nat) : Nat := if d.op = 6 then 0 else d.count * n * (if d.op = 3 then nr else 1)

/-- What makes a descriptor trap 0x02 (R305). -/
def CollDesc.bad (d : CollDesc) (c : Option Comm) : Bool :=
  match collTy d.ty, c with
  | some t, some c =>
    decide (7 ≤ d.op) || d.resv || decide (c.nr ≤ d.root) || (d.op != 6 && d.count == 0) ||
      (d.op == 6 && (d.count != 0 || d.src != 0 || d.dst != 0)) ||
      decide (2 ^ 30 < d.srcLen (memBytes t) c.nr) || decide (2 ^ 30 < d.dstLen (memBytes t) c.nr)
  | _, _ => true

/-- What the probe of a COLL finds (R303, R305): a fault and its address, or the descriptor with the chunks of the descriptor, SRC and
DST. -/
inductive CollRes where
  | no (r : LaneRes) (addr : Nat)
  | ok (d : CollDesc) (desc src dst : List Chunk)

/-- The chunks of a bulk access, or what stops it. -/
def chunksOf (s : State) (g : Group) (k : Access) (a n : Nat) : Except (LaneRes × Nat) (List Chunk) :=
  if n = 0 then .ok []
  else match bulkAcc s g k 0 a n with
    | .ok x => .ok x.chunks
    | r => .error (r, a)

/-- The probe of a COLL (R303). -/
def collProbe (s : State) (g : Group) (a : Nat) : CollRes :=
  if a % 64 ≠ 0 then .no (.bad 0x05) a
  else
    match chunksOf s g .engine a 64 with
    | .error e => .no e.1 e.2
    | .ok l =>
      let d := parseColl (l.flatMap fun c => s.ram.mem.getN c.addr c.n)
      let c := assoc (s.part g.key.team.part).comms d.comm
      let n := (d.ty.map memBytes).getD 1
      let nr := (c.map Comm.nr).getD 0
      if d.bad c then .no (.bad 0x02) 0
      else if d.src % n ≠ 0 then .no (.bad 0x05) d.src
      else if d.dst % n ≠ 0 then .no (.bad 0x05) d.dst
      else
        match chunksOf s g .engine d.src (d.srcLen n nr), chunksOf s g .write d.dst (d.dstLen n nr) with
        | .ok x, .ok y => .ok d l x y
        | .error e, _ => .no e.1 e.2
        | _, .error e => .no e.1 e.2

/-- The status word of a collective (Table 23-11). -/
def collStatus (code rank : Nat) : Dword := BitVec.ofNat 64 (code + rank % 256 * 256)

/-- A collective sends its part to a rank on another device (R244): a message through that partition's landing ring, with the next SEQ. -/
def State.callPeer (s : State) (part : Nat) (o : CollOp) (dev dpart rank : Nat) : State :=
  let h := s.frameHeader part dev dpart 2
  let note := fun (q : CollOp) => if q.comm = o.comm ∧ q.seq = o.seq then { q with msgs := q.msgs ++ [(destNo dev dpart, h.seq, rank)] } else q
  (s.sendFrame part dev dpart 2 o.comm o.seq).updPart part fun p => { p.counted h with colls := p.colls.map note }

/-- A COLL begins (R303): its SRC is read and the other ranks hear of it; a second one with its COMM and SEQ is a mismatch (R307). -/
def collStart (v : Served) (s : State) (dreg : Nat) (d : CollDesc) (dst : List Chunk) (data : List Byte) : Res :=
  let part := v.g.key.team.part
  match assoc (s.part part).comms d.comm with
  | none => v.trap s 0x02 v.act 0
  | some c =>
    if (s.part part).colls.any fun o => o.comm == d.comm && o.seq == d.seq then
      .done s { v.g with arch := v.g.arch.setS dreg (collStatus 3 c.my) } 0
    else
      let o : CollOp := ⟨d.comm, d.seq, d.op, (d.ty.map fun t => t.code.toNat).getD 0, d.root, d.count, data, dst.map fun x => (x.addr, x.n),
        v.g.key, v.pc, v.run, dreg, s.now, v.g.viewAll, none, []⟩
      let t := s.updPart part fun p => { p with colls := p.colls ++ [o] }
      let far := c.ranks.zipIdx.filter fun r => r.2 != c.my && r.1.1 != s.dev.devNum
      let t := far.foldl (fun t r => t.callPeer part o r.1.1 r.1.2 r.2) t
      .wait (t.setGroup (v.g.beginHeld v)) v.run

/-- COLL (R303): a commit point that stays in progress until the collective completes. -/
def execColl (c : Ctl) (d desc : Opd) (s : State) : Out_ :=
  serveCommit (.coll c d desc) c s fun v =>
    if (s.part v.g.key.team.part).colls.any fun o => o.group == v.g.key then .wait s v.run
    else
      let a := (v.g.arch.sreg (sclNo desc)).toNat
      match collProbe s v.g a with
      | .no r x => probeBody v s .engine true (fun _ => x) (fun _ => r) (fun _ => none) fun s v _ => .done s v.g 0
      | .ok de l src dst =>
        probeBody v s .engine true (fun _ => a) (fun L => .ok ⟨L, a, l ++ src ++ dst⟩) (fun _ => none) fun s v _ =>
          if s.lockedOut v.g [⟨0, a, l ++ src⟩] then .wait s v.run
          else
            let acc : Acc := ⟨0, a, l ++ src⟩
            let x := s.loadAcc v.g.bare [] true acc
            poisoned v x.1 v.g [(v.act, acc, x.2)] fun t => collStart v t (sclNo d) de dst (x.2.bytes.drop 64)

/-- The operation of a reduction step on a type (R305, R306). -/
def collOp (op : Nat) (t : Ty) : RedOp :=
  match op, t.isF with
  | 1, true => .fmax
  | 1, false => .max
  | 2, true => .fmin
  | 2, false => .min
  | _, true => .fadd
  | _, false => .add

/-- A register file with FPCTL at zero: reductions round RNE and keep subnormals (R306). -/
def plainArch : Arch := Arch.fresh 0 0 0 0 [] 0

/-- Element `i` of a block. -/
def elemAt (d : List Byte) (n i : Nat) : Nat := fieldAt d (n * i) n

/-- One element reduced over all ranks, in rank order (R306). -/
def reduceAt (op : RedOp) (t : Ty) (n i : Nat) : List (List Byte) → Nat
  | [] => 0
  | b :: r => r.foldl (fun x y => (redStep plainArch op t x (elemAt y n i)).1) (elemAt b n i)

/-- What DST of a rank receives (Table 23-10). -/
def collResult (o : CollOp) (my : Nat) (blocks : List (List Byte)) : List Byte :=
  match Ty.ofCode o.ty with
  | none => []
  | some t =>
    let n := memBytes t
    let red := fun lo => (List.range o.count).flatMap fun i => leBytes n (reduceAt (collOp o.op t) t n (lo + i) blocks)
    match o.op with
    | 3 => blocks.flatten
    | 4 => red (my * o.count)
    | 5 => blocks.getD o.root []
    | 6 => []
    | _ => red 0

/-- A collective's write of bytes over physical runs: class 4 (R308). -/
def State.putRuns (s : State) : List (Nat × Nat) → List Byte → State
  | [], _ => s
  | (a, n) :: r, d => (s.ioPut a (d.take n) engineStore).putRuns r (d.drop n)

/-- The bytes of some runs take free values (R234, R307; log 4). -/
def State.undefRuns (s : State) (l : List (Nat × Nat)) : State :=
  let d := l.flatMap fun r => (List.range r.2).map fun i => Config.freeByte (r.1 + i) s.fresh
  { s with fresh := s.fresh + 1 }.putRuns l d

/-- A line of some runs cannot be written now. -/
def runsBusy (s : State) (l : List (Nat × Nat)) : Bool := ioBusy s (l.map fun r => ⟨r.1, r.2, 0⟩)

/-- A collective ends with a status: it leaves the partition, and its group goes on (R307, R308). -/
def State.endColl (s : State) (part : Nat) (o : CollOp) (code rank : Nat) : State :=
  let v : View := o.dst.flatMap fun r => (wordsOf r.1 r.2).flatMap fun w => s.ram.lastView w 511
  let s := s.updPart part fun p => { p with colls := p.colls.filter fun q => !(q.comm = o.comm && q.seq = o.seq) }
  let n := (((s.group? o.group).bind Group.commit).map Commit.seq).getD 0
  let f := fun (a : Arch) => (Arch.seen 4 n (View.join o.seen v) a).setS o.dreg (collStatus code rank)
  s.updGroup o.group fun g => g.endHeld s.now o.pc o.run f

/-- The collective of a partition with a COMM and a SEQ. -/
def State.coll? (s : State) (part comm seq : Nat) : Option CollOp := (s.part part).colls.find? fun o => o.comm = comm && o.seq == seq

/-- A rank's own part of a collective. -/
def CollOp.own (o : CollOp) : CollPart := ⟨o.op, o.ty, o.root, o.count, o.data, o.seq⟩

/-- The parts of a collective as this device knows them: those of its own partitions as their COLLs give them, the rest as they have come. A
partition that is in another collective of the communicator than this one gives that one's part (R307). -/
def State.collParts (s : State) (c : Comm) (comm seq : Nat) (blocks : List CollPart) : List CollPart :=
  blocks.zipIdx.map fun b =>
    match c.ranks[b.2]? with
    | some r =>
      if r.1 = s.dev.devNum then (((s.coll? r.2 comm seq).or (s.coll? r.2 comm b.1.seq)).map CollOp.own).getD b.1 else b.1
    | none => b.1

/-- The lowest rank that disagrees with a rank's part on OP, TY, ROOT, COUNT or SEQ (R307), or has sent data of another size. -/
def mismatchAt (x : CollPart) (blocks : List CollPart) : Option Nat :=
  (List.range blocks.length).find? fun r => blocks[r]?.any fun y =>
    y.seq != x.seq || y.op != x.op || y.ty != x.ty || y.root != x.root || y.count != x.count || y.data.length != x.data.length

/-- COLL_COMPLETE (R306, R307, R308, R234): every rank's part has come, this rank's own as read, or a peer has aborted. -/
def execCollComplete (part comm seq : Nat) (blocks : List CollPart) (s : State) : Out_ :=
  match s.coll? part comm seq, assoc (s.part part).comms comm with
  | some o, some c =>
    if runsBusy s o.dst then .next s
    else
      match o.fate with
      | some r => .next ((s.undefRuns o.dst).endColl part o 1 r)
      | none =>
        let all := (s.collParts c comm seq blocks).set c.my o.own
        if blocks.length ≠ c.nr then .next s
        else match mismatchAt o.own all with
          | some r => .next (s.endColl part o 3 r)
          | none => .next ((s.putRuns o.dst (collResult o c.my (all.map CollPart.data))).endColl part o 0 0)
  | _, _ => .next s

/-- COLL_TIMEOUT (R307): a rank that has not completed after TMO ms; `lowest` is the lowest rank that has not come. -/
def execCollTimeout (part comm seq lowest : Nat) (s : State) : Out_ :=
  match s.coll? part comm seq, assoc (s.part part).comms comm with
  | some o, some c =>
    if s.now < o.start + 1000000 * c.tmo ∨ runsBusy s o.dst then .next s
    else .next ((s.undefRuns o.dst).endColl part o 2 (min lowest (c.nr - 1)))
  | _, _ => .next s

/-! ## Landing (R242, R207) -/

/-- A message header in its 64 bytes (Table 20-4). -/
def WharfHeader_bytes (h : WharfHeader) : List Byte :=
  leBytes 2 0 ++ leBytes 1 h.dstPart ++ leBytes 1 h.srcPart ++ leBytes 2 h.dstDev ++ leBytes 2 h.srcDev ++ leBytes 2 0 ++ leBytes 2 h.kind ++
    leBytes 4 h.tag ++ leBytes 4 h.seq ++ leBytes 4 h.len ++ leBytes 40 0

/-- Slots of a partition's landing ring (R242). -/
def Part.slots (p : Part) : Nat := (p.ringN.map fun n => 2 ^ n).getD 0

/-- The next free slot of the ring. -/
def Part.freeSlot? (p : Part) : Option Nat :=
  ((List.range p.slots).map fun i => (p.ringNext + i) % p.slots).find? fun i => !p.ringUsed.contains i

/-- A tagged message lands in a slot and is matched (R242, R207): it fires the oldest arming with its tag, or is held; the 65th held
message drops the oldest. -/
def State.land (s : State) (part slot : Nat) (h : WharfHeader) (payload : List Byte) (before : View) : State :=
  let p := s.part part
  let a := p.payloadAt slot
  let t := (s.ioPut (a - 64) (WharfHeader_bytes h) plainStore).ioPut a payload plainStore
  let v := View.join before ((wordsOf (a - 64) (64 + payload.length)).flatMap fun w => t.ram.lastView w 511)
  let t := t.updPart part fun p => { p with ringUsed := slot :: p.ringUsed, ringNext := (slot + 1) % p.slots }
  match p.armings.find? fun x => x.tag = h.tag with
  | some x => (t.updPart part fun p => { p with armings := if x.rep then p.armings else p.armings.erase x }).fire part x slot v
  | none =>
    let held := p.unmatched ++ [⟨h.tag, slot, v⟩]
    match if 64 < held.length then held.head? else none with
    | some o => ((t.updPart part fun p => { p with unmatched := held.drop 1 }).logAt 2 part (p.payloadAt o.slot)).freeSlot part (some o.slot)
    | none => t.updPart part fun p => { p with unmatched := held }

/-- The sequence number a partition expects next from a source (R243). -/
def Part.expects (p : Part) (src : Nat × Nat) : Nat := ((p.rxSeq.find? fun e => e.1 = src).map Prod.snd).getD 0

/-- Count a message from a source. -/
def Part.received (p : Part) (src : Nat × Nat) : Part :=
  { p with rxSeq := (src, (p.expects src + 1) % 2 ^ 32) :: p.rxSeq.filter fun e => e.1 ≠ src }

/-- A message arrives for a partition: it lands when it is the next of its source and a slot is free; else it waits at the sender. -/
def State.arrive (s : State) (h : WharfHeader) (payload : List Byte) (before : View) : Option State :=
  let p := s.part h.dstPart
  match p.freeSlot? with
  | none => none
  | some i =>
    if !p.ready || p.expects (h.srcDev, h.srcPart) ≠ h.seq || runsBusy s [(p.payloadAt i - 64, slotBytes)] ||
        (p.armings.find? fun a => a.tag = h.tag).any (s.fireBusy h.dstPart) then none
    else some ((s.updPart h.dstPart fun p => p.received (h.srcDev, h.srcPart)).land h.dstPart i h payload before)

/-- A message of a collective lands in its turn (R242, R244); the collective takes it from its slot at once. -/
def State.arriveColl (s : State) (h : WharfHeader) (payload : List Byte) : Option State :=
  let p := s.part h.dstPart
  match p.freeSlot? with
  | none => none
  | some i =>
    let a := p.payloadAt i
    if !p.ready || p.expects (h.srcDev, h.srcPart) ≠ h.seq || runsBusy s [(a - 64, slotBytes)] then none
    else
      let t := (s.ioPut (a - 64) (WharfHeader_bytes h) plainStore).ioPut a payload plainStore
      some ((t.updPart h.dstPart fun p => { p.received (h.srcDev, h.srcPart) with ringNext := (i + 1) % p.slots }).freeSlot h.dstPart (some i))

/-- What happens before a message (R243): for one that a partition of this device has sent, what its group had performed. DESIGN CHOICE (log
35): what a group of another device has performed here has come as peer writes, of which no requester is known to be that group's: one from
another device comes after every peer write that has been made. -/
def State.sentView (s : State) (h : WharfHeader) : View :=
  if h.srcDev ≠ s.dev.devNum then (s.dev.seen.filter fun e => decide (e.1.1 < 2)).foldl (fun v e => View.join v e.2) []
  else (((s.part h.srcPart).sends.find? fun m => m.header == h).map Send.view).getD []

/-- The message breaks the layout (R242). -/
def badHeader (h : WharfHeader) (payload : List Byte) : Bool :=
  h.kind == 0 || decide (3 < h.kind) || h.reserved != 0 || h.len != payload.length || decide (65536 < h.len)

/-- WHARF_MESSAGE_RECEIVE (R242, R207, R244). What a collective's messages bring comes about as COLL_COMPLETE, an abort as
WHARF_ABORT_RECEIVE. A dropped message is logged with the address of the landing ring (log 35). -/
def execWharfMessageReceive (h : WharfHeader) (payload : List Byte) (s : State) : Out_ :=
  if h.dstDev ≠ s.dev.devNum ∨ 16 ≤ h.dstPart then .next s
  else if badHeader h payload then .next (s.logAt 2 h.dstPart (s.part h.dstPart).ringPa)
  else if h.kind = 3 then .next s
  else if h.kind = 2 then .next ((s.arriveColl h payload).getD s)
  else .next ((s.arrive h payload (s.sentView h)).getD s)

/-- WHARF_ABORT_RECEIVE (R244, R234): the collective of an aborting peer completes with PEER ABORTED. -/
def execWharfAbortReceive (h : WharfHeader) (comm seq : Nat) (s : State) : Out_ :=
  if h.dstDev ≠ s.dev.devNum ∨ 16 ≤ h.dstPart ∨ h.kind ≠ 3 then .next s
  else
    match assoc (s.part h.dstPart).comms comm with
    | none => .next s
    | some c =>
      let r := c.ranks.findIdx fun x => x == (h.srcDev, h.srcPart)
      .next (if r < c.nr then s.updPart h.dstPart fun p => { p with colls := p.colls.map fun o => o.lose comm seq r } else s)

/-! ## NSEND -/

/-- Change a send of a partition. -/
def State.updSends (s : State) (part : Nat) (f : List Send → List Send) : State := s.updPart part fun p => { p with sends := f p.sends }

/-- The destination device is in the fabric map, or is this one (R373). -/
def State.reaches (s : State) (dev : Nat) : Bool := dev == s.dev.devNum || s.dev.fabric.any fun f => f.1 == dev

/-- The message of an NSEND is handed to the Wharf ports (R372, R373). -/
def sendStart (v : Served) (s : State) (dreg dst tag addr len : Nat) (payload : List Byte) : Res :=
  let part := v.g.key.team.part
  let dev := dst % 65536
  let dp := bitsOf dst 19 16
  if !s.reaches dev then .done s { v.g with arch := v.g.arch.setS dreg 2 } 0
  else
    let h := s.headerFor part dev dp tag len
    let t := s.updPart part fun p => { p.counted h with
      sends := p.sends ++ [⟨dev, dp, h.seq, v.g.key, v.pc, v.run, dreg, h, payload, none, v.g.viewAll, addr⟩] }
    .wait (t.setGroup (v.g.beginHeld v)) v.run

/-- The probe of an NSEND's payload (R372): as an agent other than the owning team (R161). -/
def sendProbe (s : State) (g : Group) (a n : Nat) : CollRes :=
  if a % 64 ≠ 0 then .no (.bad 0x05) a
  else
    match chunksOf s g .engine a n with
    | .error e => .no e.1 e.2
    | .ok l =>
      let hidden := l.flatMap fun c => match c.phys with
        | some p => (linesOf c.addr c.n).filter fun x => escapes s g.key.team.part g.ctx none { p with pa := x }
        | none => []
      if hidden.isEmpty then .ok default l [] [] else .no (.bad 0x07) a

/-- NSEND (R372): a commit point that stays in progress until its message completes. -/
def execNsend (c : Ctl) (d first : Opd) (s : State) : Out_ :=
  serveCommit (.nsend c d first) c s fun v =>
    if (s.part v.g.key.team.part).sends.any fun m => m.group == v.g.key then .wait s v.run
    else
      let x := fun i => (v.g.arch.sreg (sclNo first + i)).toNat
      if 2 ^ 20 ≤ x 0 ∨ 2 ^ 32 ≤ x 1 ∨ 65536 < x 3 then v.trap s 0x02 v.act 0
      else
        match sendProbe s v.g (x 2) (x 3) with
        | .no r a => probeBody v s .engine true (fun _ => a) (fun _ => r) (fun _ => none) fun s v _ => .done s v.g 0
        | .ok _ l _ _ =>
          probeBody v s .engine true (fun _ => x 2) (fun L => .ok ⟨L, x 2, l⟩) (fun _ => none) fun s v _ =>
            if s.lockedOut v.g [⟨0, x 2, l⟩] then .wait s v.run
            else
              let y := s.loadAcc v.g.bare [] true ⟨0, x 2, l⟩
              poisoned v y.1 v.g [(v.act, ⟨0, x 2, l⟩, y.2)] fun t => sendStart v t (sclNo d) (x 0) (x 1) (x 2) (x 3) y.2.bytes

/-- A message completes at its sender with a status (R373). -/
def State.endSend (s : State) (part : Nat) (m : Send) (code : Nat) : State :=
  let t := s.updSends part fun l => l.filter fun x => !(x.dev = m.dev && x.part = m.part && x.seq = m.seq)
  t.updGroup m.group fun g => g.endHeld s.now m.pc m.run fun a => a.setS m.dreg (BitVec.ofNat 64 code)

/-- The messages of a partition to a destination. -/
def State.sendsTo (s : State) (part dst : Nat) : List Send := (s.part part).sends.filter fun m => destNo m.dev m.part = dst

/-- WHARF_CREDIT (R242, R372): credit for a destination lets its oldest waiting message go; one to the own device and partition lands and
completes at once. -/
def execWharfCredit (part dst : Nat) (s : State) : Out_ :=
  match (s.sendsTo part dst).find? fun m => m.sentAt.isNone with
  | none => .next s
  | some m =>
    if m.dev = s.dev.devNum ∧ m.part = part then
      .next (match s.arrive m.header m.payload m.view with
        | some t => t.endSend part m 0
        | none => s)
    else
      let sent := fun (x : Send) => if x = m then { x with sentAt := some s.now } else x
      .next ((s.updSends part fun l => l.map sent).emit (.wharf (s.part part).port (wharfPort m.dev m.part) m.header m.payload))

/-- The collective of a partition that a message belongs to. -/
def State.collOf (s : State) (part dst seq : Nat) : Option CollOp := (s.part part).colls.find? fun o => o.msgs.any fun m => m.1 = dst && m.2.1 == seq

/-- A message of a collective waits for its acknowledgement no more. -/
def CollOp.acked (o : CollOp) (dst seq : Nat) : CollOp := { o with msgs := o.msgs.filter fun m => !(m.1 = dst && m.2.1 == seq) }

/-- WHARF_ACK (R243, R373): the destination acknowledges a message. -/
def execWharfAck (part dst seq : Nat) (s : State) : Out_ :=
  match (s.sendsTo part dst).find? fun m => m.seq = seq && m.sentAt.isSome with
  | none => .next (s.updPart part fun p => { p with colls := p.colls.map fun o => o.acked dst seq })
  | some m => .next (s.endSend part m 0)

/-- A collective whose message to a rank has gone unacknowledged for 1 ms ends as if that rank had aborted (R244). -/
def CollOp.unacked (o : CollOp) (dst seq : Nat) : CollOp :=
  (o.msgs.find? fun m => m.1 = dst && m.2.1 == seq).elim o fun m => (o.acked dst seq).lose o.comm o.seq m.2.2

/-- MESSAGE_ACK_TIMEOUT (R243, R244, R373): 1 ms after its first transmission an unacknowledged message fails, and is logged at both ends:
with the address of its payload, and at a partition of this device with that of the landing ring it did not reach. `dst` and `seq` may also
name a message that a partition of another device has sent to `part`: it is logged here, as at the other end. -/
def execMessageAckTimeout (part dst seq : Nat) (s : State) : Out_ :=
  match (s.sendsTo part dst).find? fun m => m.seq = seq && m.sentAt.any fun t => decide (t + 1000000 ≤ s.now) with
  | some m =>
    let t := (s.endSend part m 1).logAt 7 part m.addr
    .next (if m.dev = s.dev.devNum then t.logAt 7 m.part (s.part m.part).ringPa else t)
  | none =>
    match s.collOf part dst seq with
    | none => .next (if dst % 65536 = s.dev.devNum then s else s.logAt 7 part (s.part part).ringPa)
    | some o =>
      .next (if s.now < o.start + 1000000 then s
        else (s.updPart part fun p => { p with colls := p.colls.map fun o => o.unacked dst seq }).logAt 7 part
          ((o.dst.head?.map Prod.fst).getD 0))

end Sys2Proof.Machine
end

