-- ==== Sys2Proof/Machine/HostIo.lean ====
section
/-! DEFINITION. Machine/HostIo.lean: what hosts and PCIe peers do: the windows of a VF (R201, R238, R240, R251), peer accesses (R161, R236),
stream windows (R188) and host DMA (R77, R251, R252). -/

namespace Sys2Proof.Machine

/-! ## Requesters -/

/-- What the writes of a requester have made visible (R188, R201). -/
def State.seenBy (s : State) (k : Nat × Nat) : View := ((s.dev.seen.find? fun e => e.1 = k).map Prod.snd).getD []

/-- Note the writes of a requester. -/
def State.noteSeen (s : State) (k : Nat × Nat) (v : View) : State :=
  { s with dev := { s.dev with seen := (k, View.join (s.seenBy k) v) :: s.dev.seen.filter fun e => e.1 ≠ k } }

/-- The latest stores to the words of some bytes of physical memory. -/
def physView (s : State) (a n : Nat) : View := (wordsOf a n).flatMap fun w => s.ram.lastView w 511

/-- The partition whose colours and dies hold a physical address (R19, R20). -/
def State.holder (s : State) (a : Nat) : Option Nat :=
  (List.range 16).find? fun n => (s.part n).hasDie (homeDie a) && (s.part n).hasColour ((a >>> 16) % 64)

/-! ## Windows of a VF -/

/-- A write to ENQ of a booth window (R201). -/
def State.enqWrite (s : State) (part n : Nat) (view : View) (aligned : Bool) (data : List Byte) : State :=
  let b := s.booth part n
  if !(s.part part).described then s
  else if !(s.part part).ready then s.logAt 5 part (4096 * n)
  else if !aligned || data.length != 64 then s.updBooth part n fun b => { b with size := true }
  else if !b.hostenq || !b.valid || b.full then s.updBooth part n fun b => { b with ovf := true }
  else s.enqueue part n ⟨(List.range 8).map fun i => BitVec.ofNat 64 (fieldAt data (8 * i) 8), view⟩

/-- BOOTH_ENQ (R201): a write to ENQ by a requester, which releases that requester's earlier writes at system scope. -/
def execBoothEnq (part booth : Nat) (req : Nat) (aligned : Bool) (data : List Byte) (s : State) : Out_ :=
  .next (if 64 ≤ booth then s else s.enqWrite part booth (s.seenBy ((s.part part).port, req)) aligned data)

/-- Change a DMA queue. -/
def State.updQueue (s : State) (part n : Nat) (f : DmaQueue → DmaQueue) : State :=
  s.updPart part fun p => { p with queues := p.queues.modify n f }

/-- A DMA queue of a partition. -/
def State.queue (s : State) (part n : Nat) : DmaQueue := (s.part part).queues.getD n DmaQueue.reset

/-- Descriptors that a queue and its ring hold: 16, and 2^RINGLOG beyond (R251). -/
def DmaQueue.full (q : DmaQueue) : Bool := decide (ringCap 16 q.ringlog ≤ q.descs.length)

/-- A write to the descriptor entry of a DMA queue window (R251), with what it releases. -/
def State.descWrite (s : State) (part n : Nat) (view : View) (aligned : Bool) (data : List Byte) : State :=
  let q := s.queue part n
  if !(s.part part).described then s
  else if !(s.part part).ready then s.logAt 5 part (0x60000 + 4096 * n)
  else if !aligned || data.length != 64 then s.updQueue part n fun q => { q with size := true }
  else if !q.valid || q.full then s.updQueue part n fun q => { q with ovf := true }
  else s.updQueue part n fun q => { q with descs := q.descs ++ [(data, view)] }

/-- DMA_DESCRIPTOR_SUBMIT (R251, R252): a write of a requester, which releases that requester's earlier writes at system scope. -/
def execDmaDescriptorSubmit (part queue : Nat) (req : Nat) (aligned : Bool) (data : List Byte) (s : State) : Out_ :=
  .next (if 4 ≤ queue then s else s.descWrite part queue (s.seenBy ((s.part part).port, req)) aligned data)

/-- Bytes of a register overlaid from offset `o`. -/
def overlay (old : List Byte) (o : Nat) (d : List Byte) : List Byte :=
  old.zipIdx.map fun b => if o ≤ b.2 ∧ b.2 < o + d.length then d.getD (b.2 - o) 0 else b.1

/-- The coalescing control as a register (Table 20-3). -/
def Msix.control (m : Msix) : Nat := m.count + 256 * m.timer + 65536 * m.pend

/-- A write into the MSI-X table (Table 20-2): the message address and data, and the mask of the vector control word. -/
def Msix.tableWrite (m : Msix) (o : Nat) (d : List Byte) : Msix :=
  let b := overlay (m.entry ++ leBytes 4 (if m.masked then 1 else 0)) o d
  { m with entry := b.take 12, masked := (b.getD 12 0).getLsbD 0 }

/-- The partition bound to a virtual function of a port (R238). -/
def State.bound (s : State) (port vf : Nat) : Option Nat :=
  (List.range 16).find? fun n => (s.part n).described && (s.part n).port == port && (s.part n).vf == vf

/-- A write by a requester into the BAR0 of the VF of a partition (R238, Table 20-2). What it puts into the mailbox stands there; the request it
makes comes about as an event of its own (log 38). -/
def State.vfWrite (s : State) (part req offset : Nat) (data : List Byte) : Out_ :=
  let n := offset / 4096
  let seen := s.seenBy ((s.part part).port, req)
  let o := offset % 4096
  let w1c := fun (bit : Nat) => decide (o ≤ 0x48) && decide (0x48 < o + data.length) && (data.getD (0x48 - o) 0).getLsbD bit
  if !(s.part part).ready then .next (s.logAt 5 part offset)
  else if offset < 0x40000 then
    if o < 0x40 then .next (s.enqWrite part n seen (o == 0) data)
    else .next (s.updBooth part n fun b => { b with size := b.size && !w1c 1, ovf := b.ovf && !w1c 0 })
  else if offset < 0x40200 then
    let vec := (offset - 0x40000) / 8
    let m := (s.part part).vectors.getD vec Msix.reset
    execCoalescingControlWrite part vec (BitVec.ofNat 64 (leNat (overlay (leBytes 8 m.control) (offset % 8) data))) s
  else if 0x41000 ≤ offset ∧ offset < 0x41400 then
    let vec := (offset - 0x41000) / 16
    .next ((s.updPart part fun p => { p with vectors := p.vectors.modify vec fun m => m.tableWrite (offset % 16) data }).tryVec part vec)
  else if 0x50000 ≤ offset ∧ offset < 0x51000 then .next (s.updPart part fun p => { p with mail := p.mail.putN o (data.take (4096 - o)) })
  else if 0x60000 ≤ offset ∧ offset < 0x64000 then
    let q := n - 0x60
    if o < 0x40 then .next (s.descWrite part q seen (o == 0) data)
    else .next (s.updQueue part q fun b => { b with size := b.size && !w1c 1, ovf := b.ovf && !w1c 0 })
  else .next s

/-- REGISTER_WRITE (R238): a VF with no partition bound to it is Not Ready, and takes no write. -/
def execRegisterWrite (to_ : VfAccess) (offset : Nat) (data : List Byte) (s : State) : Out_ :=
  match s.bound to_.port to_.vf with
  | none => .next s
  | some part => s.vfWrite part to_.req offset data

/-- What 8 bytes of the BAR0 of a partition's VF hold (Tables 17-8, 20-2, 20-3). -/
def State.vfReg (s : State) (part offset : Nat) : Dword :=
  let n := offset / 4096
  let stat := fun (size ovf : Bool) => BitVec.ofNat 64 ((if size then 2 else 0) + if ovf then 1 else 0)
  if offset < 0x40000 then
    let b := s.booth part n
    match offset % 4096 with
    | 0x40 => BitVec.ofNat 64 (ringCap 32 b.ring - b.entries.length)
    | 0x48 => stat b.size b.ovf
    | _ => 0
  else if offset < 0x40200 then BitVec.ofNat 64 ((s.part part).vectors.getD ((offset - 0x40000) / 8) Msix.reset).control
  else if 0x41000 ≤ offset ∧ offset < 0x41400 then
    let m := (s.part part).vectors.getD ((offset - 0x41000) / 16) Msix.reset
    BitVec.ofNat 64 (fieldAt (m.entry ++ leBytes 4 (if m.masked then 1 else 0)) (offset % 16) 8)
  else if offset = 0x42000 then
    BitVec.ofNat 64 (sumOf (fun i => if 0 < ((s.part part).vectors.getD i Msix.reset).pend then 2 ^ i else 0) (List.range 64))
  else if 0x50000 ≤ offset ∧ offset < 0x51000 then BitVec.ofNat 64 ((s.part part).mail.num (offset % 4096) 8)
  else if 0x60000 ≤ offset ∧ offset < 0x64000 then
    let q := s.queue part (n - 0x60)
    match offset % 4096 with
    | 0x40 => BitVec.ofNat 64 (ringCap 16 q.ringlog - q.descs.length)
    | 0x48 => stat q.size q.ovf
    | _ => 0
  else 0

/-- A read of 8 bytes of a VF's BAR0: Unsupported Request from one that is Not Ready, unbound or in its reset (R233, R238). -/
def vfRead (s : State) (port vf offset : Nat) : Option Dword :=
  (s.bound port vf).bind fun part => if (s.part part).ready then some (s.vfReg part offset) else none

/-! ## Peer accesses (R161, R236) -/

/-- A peer access may not be made: no partition holds the address, or a line of it is private and unpublished. -/
def State.peerRefused (s : State) (a n : Nat) : Bool :=
  (s.holder a).isNone || (s.holder (a + n - 1)) != s.holder a || (linesOf a n).any s.privLine

/-- A host's own access to lines of device memory through CXL.mem, as a coherent requester (R142, R144, R236): it asks the homes for the
lines it does not hold, and is served once it holds them. DESIGN CHOICE (log 30): the host is a TSO one, whose stores are seen in their order
(R187, Table 14-6): each releases those before it at system scope. -/
def hostAccess (w : PeerReq) (n : Nat) (s : State) : Out_ :=
  let h := hostCore w.iod
  let own := w.moves
  let ls := linesOf w.addr n
  if !ls.all (fun l => if own then s.coh.owns h l else s.coh.holds h l) then .next (ls.foldl (fun s l => s.request h l own false) s)
  else if own then
    let k : StoreKind := ⟨.clear, [ioRelease .host (s.seenBy (w.iod, w.req))], false, none, false⟩
    let t := { s with ram := s.ram.write w.addr w.data k, coh := ls.foldl (fun c l => c.dirtied h l) s.coh }
    .next (t.noteSeen (w.iod, w.req) (physView t w.addr n))
  else if s.ram.tainted w.addr n then .next (s.emit (.peerReply w.req false []))
  else .next (s.emit (.peerReply w.req true (s.ram.mem.getN w.addr n)))

/-- PEER_ACCESS (R161, R233, R236): a PCIe read or write of device memory, an AtomicOp, which a device BAR does not support, or the host's
own access through CXL.mem. -/
def execPeerAccess (w : PeerReq) (s : State) : Out_ :=
  let n := if w.moves then w.data.length else w.len
  let p := (s.holder w.addr).getD 255
  let no := fun (t : State) => if w.moves then t else t.emit (.peerReply w.req false [])
  if w.kind = .atomic ∨ (w.cxl ∧ (s.iod w.iod).proto ≠ some .cxl) then .next (s.emit (.peerReply w.req false []))
  else if n = 0 then .next s
  else if s.peerRefused w.addr n then .next (no (s.logAt 4 p w.addr))
  else if !(s.part p).ready then .next (if w.moves then s.logAt 5 p w.addr else no s)
  else if w.cxl then hostAccess w n s
  else if ioBusy s [⟨w.addr, n, 0⟩] then .next s
  else if w.moves then
    let t := s.ioPut w.addr w.data plainStore
    .next (t.noteSeen (w.iod, w.req) (physView t w.addr n))
  else if s.ram.tainted w.addr n then .next (no s)
  else .next (s.emit (.peerReply w.req true (s.ram.mem.getN w.addr n)))

/-! ## Stream windows (R188) -/

/-- A write lands in a window. -/
def StreamWin.takes (x : StreamWin) (w : PeerReq) : Bool :=
  x.enable && x.req == w.req && x.tc == w.tc &&
    ((decide (x.data ≤ w.addr) && decide (w.addr < x.data + x.len)) || (decide (x.flag ≤ w.addr) && decide (w.addr < x.flag + 4096)))

/-- The window of an I/O die that takes a write. -/
def State.window? (s : State) (w : PeerReq) : Option (Nat × StreamWin) :=
  ((s.iod w.iod).wins.zipIdx.find? fun x => x.1.takes w).map fun x => (x.2, x.1)

/-- The name of a window's stream among the requesters. -/
def streamKey (iod win : Nat) (w : PeerReq) : Nat × Nat := (16 + 8 * iod + win, w.req * 256 + w.tc)

/-- A staged stream write becomes visible: of the data range, or of the flag range, which releases the stream so far. DESIGN CHOICE (log 19):
the checker's entry of a flag line, whose replacement sets EVICT (R183), counts to context 0 of the window's partition. -/
def State.streamPut (s : State) (part : Nat) (x : Posted) : State :=
  let t := s.ioPut x.addr x.data (if x.flag then ⟨.clear, [ioRelease .host (s.seenBy x.key)], false, none, false⟩ else plainStore)
  let t := if x.flag then t.ioChecked .outside part 0 x.addr else t
  let v := physView t x.addr x.data.length
  (t.noteSeen x.key v).noteSeen x.who v

/-- The parts of a stream write (R188): one that runs from the data range into the flag range is split, its data first. -/
def StreamWin.split (x : StreamWin) (w : PeerReq) (now win : Nat) : List Posted :=
  let in_ := decide (x.flag ≤ w.addr) && decide (w.addr < x.flag + 4096)
  let n := if in_ then 0 else if w.addr < x.flag ∧ x.flag < w.addr + w.data.length then x.flag - w.addr else w.data.length
  let part := fun a d flag => (⟨now, (w.iod, w.req), streamKey w.iod win w, a, d, flag⟩ : Posted)
  [part w.addr (w.data.take n) false, part (w.addr + n) (w.data.drop n) true].filter fun y => !y.data.isEmpty

/-- STREAM_WRITE (R188, R77): a peer write that a window takes is staged in arrival order under the I/O die's window. -/
def execStreamWrite (w : PeerReq) (s : State) : Out_ :=
  match s.window? w with
  | none => .next s
  | some (i, x) =>
    if !w.write || w.data.isEmpty then .next s
    else if !(s.part x.part).ready then .next (s.logAt 5 x.part w.addr)
    else if (linesOf w.addr w.data.length).any s.privLine then .next (s.logAt 4 x.part w.addr)
    else .next (s.updPart x.part fun p => { p with posted := p.posted ++ x.split w s.now i })

/-! ## Host DMA (R251, R252, R77) -/

/-- A DMA descriptor (Table 20-13). -/
structure DmaDesc where
  src : Nat
  dst : Nat
  len : Nat
  cnt : Nat
  st  : Nat
  dir : Nat
  doCnt : Bool
  doIrq : Bool
  doSt : Bool
  vec : Nat
  resv : Bool
deriving DecidableEq, Repr

/-- The descriptor in 64 bytes. -/
def parseDma (d : List Byte) : DmaDesc :=
  let c := fieldAt d 40 4
  ⟨fieldAt d 0 8, fieldAt d 8 8, fieldAt d 16 4, fieldAt d 24 8, fieldAt d 32 8, c % 4, c.testBit 4, c.testBit 5, c.testBit 6, bitsOf c 13 8,
    fieldAt d 20 4 != 0 || fieldAt d 44 20 != 0 || bitsOf c 3 2 != 0 || c.testBit 7 || bitsOf c 31 14 != 0⟩

/-- A descriptor that is MALFORMED (R252); a length of 0 is none of those Table 20-13 admits. -/
def DmaDesc.bad (d : DmaDesc) : Bool :=
  d.resv || d.dir == 3 || d.st % 8 != 0 || d.cnt % 8 != 0 || (d.doCnt && d.cnt == 0) || (d.doSt && d.st == 0) || d.len == 0

/-- The physical runs of `n` bytes of one side of a transfer: a host bus address, or a device address through the context. -/
def dmaRuns (s : State) (part ctx : Nat) (host : Bool) (k : Access) (a n : Nat) : Option (List IoRun) :=
  if host then some [⟨Config.hostBase + a, n, 0⟩] else ioRuns s part ctx k a n

/-- A page of a device range is there, but a line of it is private and unpublished (R161). -/
def dmaEscapes (s : State) (part ctx : Nat) (k : Access) (a n : Nat) : Bool :=
  (pageRuns a n).any fun x => match ioProbe s part ctx k x.1 with
    | .ok p => (linesOf p.pa x.2).any fun y => escapes s part ctx none { p with pa := y }
    | _ => false

/-- The bytes of the chunk at offset `moved`. -/
def DmaDesc.chunk (d : DmaDesc) (moved : Nat) : Nat := min 4096 (d.len - moved)

/-- The source and the destination of a chunk. -/
def chunkRuns (s : State) (part : Nat) (x : Xfer) : Option (List IoRun × List IoRun) :=
  let d := parseDma x.desc
  let n := d.chunk x.moved
  (dmaRuns s part x.ctx (d.dir == 0) .read (d.src + x.moved) n).bind fun a =>
    (dmaRuns s part x.ctx (d.dir == 1) .write (d.dst + x.moved) n).map fun b => (a, b)

/-- Stage the chunk in progress, or end the transfer: at its end, or FAULTED where a side cannot be translated, or the host answers the
read with an error completion, a free choice (R252, R77; log 36). While a line of its source is locked, or in motion, the chunk is not
read (R149, R411). -/
def State.stageChunk (s : State) (part : Nat) (x : Xfer) : State × Xfer :=
  let d := parseDma x.desc
  if d.len ≤ x.moved then (s, { x with chunk := [], ended := true })
  else if (chunkRuns s part x).any fun r => ioBusy s r.1 then (s, { x with chunk := [] })
  else if d.dir == 0 && Config.hostError s.fresh then ({ s with fresh := s.fresh + 1 }, { x with chunk := [], ended := true, status := 1 })
  else
    let s := if d.dir == 0 then { s with fresh := s.fresh + 1 } else s
    match chunkRuns s part x with
    | none =>
      let n := d.chunk x.moved
      let bad := if d.dir != 0 && dmaEscapes s part x.ctx .read (d.src + x.moved) n then some (d.src + x.moved)
        else if d.dir != 1 && dmaEscapes s part x.ctx .write (d.dst + x.moved) n then some (d.dst + x.moved) else none
      ((bad.map fun a => s.logAt 4 part a).getD s, { x with chunk := [], ended := true, status := 1 })
    | some (a, _) =>
      (s, { x with chunk := ioBytes s a, pois := ioPoison s a, at_ := s.now, view := View.join x.view (ioSeen s a) })

/-- Put a transfer back into its queue. -/
def State.setXfer (s : State) (part n : Nat) (x : Option Xfer) : State := s.updQueue part n fun q => { q with cur := x }

/-- DMA_TRANSFER_START (R252): the queue takes its oldest descriptor when it has no transfer. -/
def execDmaTransferStart (part queue : Nat) (s : State) : Out_ :=
  let q := s.queue part queue
  match q.cur, q.descs with
  | none, d :: r =>
    let x : Xfer := ⟨d.1, q.ctx, 0, [], 0, s.now, false, false, d.2⟩
    let s := s.updQueue part queue fun q => { q with descs := r }
    if (parseDma d.1).bad then .next (s.setXfer part queue (some { x with status := 4, ended := true }))
    else
      let y := s.stageChunk part x
      .next (y.1.setXfer part queue (some y.2))
  | _, _ => .next s

/-- The release of a staged chunk: its writes, poisoned where its source was (R252, R405). -/
def State.putChunk (s : State) (x : Xfer) (dst : List IoRun) : State × Xfer :=
  let t := s.ioPutRuns dst x.chunk engineStore
  let t := if x.pois then { t with ram := dst.foldl (fun r y => r.taint y.addr y.n) t.ram } else t
  let y := { x with moved := x.moved + x.chunk.length, view := View.join x.view (ioView t dst) }
  (t, if x.pois then { y with status := 2, ended := true, chunk := [] } else y)

/-- The number that stands for the staged stream writes of a partition beside its DMA queues. -/
def streamQueue : Nat := 4

/-- The oldest staged stream write of a partition becomes visible, its window over, once no line of it is locked or in motion (R77, R188,
R411). -/
def State.streamRelease (s : State) (part : Nat) : State :=
  match (s.part part).posted with
  | [] => s
  | x :: r =>
    if s.now < x.at_ + Config.window || ioBusy s [⟨x.addr, x.data.length, 0⟩] then s
    else (s.updPart part fun p => { p with posted := r }).streamPut part x

/-- DMA_CHUNK_RELEASE (R77): the I/O die's window of 48 ns after it was staged, a chunk is released; then the next is staged. One that has
waited for its source is staged. Stream writes are released so too (R188). -/
def execDmaChunkRelease (part queue : Nat) (s : State) : Out_ :=
  if queue = streamQueue then .next (s.streamRelease part) else
  match (s.queue part queue).cur with
  | none => .next s
  | some x =>
    if x.ended ∨ (s.now < x.at_ + Config.window ∧ x.chunk ≠ []) then .next s
    else if x.chunk = [] then
      let y := s.stageChunk part x
      .next (y.1.setXfer part queue (some y.2))
    else
      match chunkRuns s part x with
      | none => let y := s.stageChunk part x; .next (y.1.setXfer part queue (some y.2))
      | some (a, b) =>
        if ioBusy s a || ioBusy s b then .next s
        else
          let y := s.putChunk x b
          if y.2.ended then .next (y.1.setXfer part queue (some y.2))
          else
            let z := y.1.stageChunk part y.2
            .next (z.1.setXfer part queue (some z.2))

/-- DMA_COMPLETE (R252, R411): a transfer that has ended writes its status word, increments its counter and raises its interrupt. -/
def execDmaComplete (part queue : Nat) (s : State) : Out_ :=
  match (s.queue part queue).cur with
  | none => .next s
  | some x =>
    let d := parseDma x.desc
    let at_ := fun va => (ioRuns s part x.ctx .write va 8).getD []
    if !x.ended || (d.doSt && ioBusy s (at_ d.st)) || (d.doCnt && ioBusy s (at_ d.cnt)) then .next s
    else
      let word := x.status + (if x.status = 1 ∨ x.status = 2 then x.moved * 2 ^ 32 else 0)
      let word_ := fun (on : Bool) (a : Nat) => if on && a % 8 == 0 && a != 0 then some a else none
      let t := (s.setXfer part queue none).completed part x.ctx ((word_ d.doSt d.st).map fun a => (a, word)) (word_ d.doCnt d.cnt) x.view
      .next (if d.doIrq then t.raiseVec part d.vec else t)

/-- Copy the chunk in progress of a queue again (R77). -/
def State.restage (s : State) (part n : Nat) : State :=
  match (s.queue part n).cur with
  | none => s
  | some x => if x.ended then s else let y := s.stageChunk part x; y.1.setXfer part n (some y.2)

/-- The staged stream writes of an I/O die are staged anew (R77, R188). -/
def Part.restreamed (p : Part) (iod now : Nat) : Part :=
  { p with posted := p.posted.map fun x => if x.who.1 = iod then { x with at_ := now } else x }

/-- IOD_SENSOR_EVENT (R77): every DMA engine of the I/O die discards the staged writes of its chunk and copies it again. DESIGN CHOICE (log
36): the zone of a sensor of an I/O die holds all its DMA engines, those of every partition on its port; a peer's write that it has staged for
a stream window, which has no source to be copied from, is staged again as it came. -/
def execIodSensorEvent (iod : Nat) (s : State) : Out_ :=
  let s := { s with parts := s.parts.map fun p => p.restreamed iod s.now }
  .next ((List.range 16).foldl (fun s p => if (s.part p).port = iod then (List.range 4).foldl (fun s q => s.restage p q) s else s) s)

end Sys2Proof.Machine
end

