-- ==== Sys2Proof/Machine/Save.lean ====
section
/-! DEFINITION. Machine/Save.lean: spatial and time-slice pre-emption (R121, R150, R160, R226 to R231): the image of a team (Table 19-9),
the choice of what is saved, and PREEMPT_SAVE. -/

namespace Sys2Proof.Machine

/-! ## The image (Table 19-9) -/

/-- A number rounded up to a multiple of 4 KiB. -/
def pageUp (n : Nat) : Nat := (n + 4095) / 4096 * 4096

/-- The sizes of the parts of a team's image: the header, a group block, a core-rank block, the team block. -/
def Launch.groupBlock (b : Launch) : Nat := pageUp (4096 + b.nv * 272 + b.ns * 8)
def Launch.rankBlock (b : Launch) : Nat := pageUp (65536 + b.scratch + b.opbuf + b.tiles * 65536)
def Launch.teamBlock (b : Launch) : Nat := pageUp (4096 + 16 * ((b.threads + 7) / 8))
def Launch.imageLen (b : Launch) : Nat := 4096 + b.groups * b.groupBlock + b.ranks * b.rankBlock + b.teamBlock

/-- Bytes filled up with zeros to a length. -/
def padTo (n : Nat) (d : List Byte) : List Byte := d ++ List.replicate (n - d.length) 0

/-- A 64-bit field. -/
def q8 (x : Dword) : List Byte := leBytes 8 x.toNat

/-- The header part. -/
def headerImage (t : Team) : List Byte :=
  let b := t.blk
  leBytes 8 b.imageLen ++ leBytes 4 t.key.idx ++ leBytes 4 t.key.grid ++ leBytes 4 b.shape.toNat ++ leBytes 4 b.groups ++ leBytes 4 b.ranks ++
    leBytes 4 t.place ++ q8 t.arena ++ leBytes 4 b.threads

/-- A group block: the fields of its first 4 KiB stand in the order of Table 19-9, 8 bytes each (log 27). -/
def groupImage (t : Team) (g : Group) : List Byte :=
  let a := g.arch
  let tab := fun (l : List Dword) => padTo 512 (l.flatMap q8)
  let head := tab a.pcs ++ tab a.heldPc ++ q8 a.parked ++ q8 a.exited ++ q8 a.heldSet ++ leBytes 8 a.starve ++ q8 a.rot ++ q8 a.tcause ++
    q8 a.tpc ++ q8 a.taddr ++ q8 a.tmask ++ q8 a.thand ++ q8 a.fpctl ++ q8 a.fpflg ++ q8 a.mxflg ++ q8 t.clkreq ++ q8 g.sensev ++
    q8 g.rstrt ++ q8 g.clkevt ++ q8 g.gen ++ a.p.flatMap q8
  let lanes := a.v.flatMap fun r => padTo 256 (r.lanes.flatMap fun x => leBytes 4 x.toNat)
  padTo 4096 head ++ lanes ++ a.v.flatMap VReg.side ++ a.s.flatMap q8

/-- A tile: its 64 × 128 values, then its pending sums. -/
def tileImage (z : Tile) : List Byte :=
  (z.rows.flatMap fun r => r.acc.flatMap fun x => leBytes 4 x.toNat) ++
    z.rows.flatMap fun r => r.nar.flatMap fun o => leBytes 4 (match o with
      | some x => x.toNat + 2 ^ 31
      | none => 0)

/-- Exactly `n` bytes: the first of `d`, filled up with zeros. -/
def fitTo (n : Nat) (d : List Byte) : List Byte := padTo n (d.take n)

/-- `n` records of `z` bytes, of the things that are numbered. -/
def records {α : Type} (n z : Nat) (l : List (Nat × α)) (f : α → List Byte) : List Byte :=
  (List.range n).flatMap fun i => fitTo z (((assoc l i).map f).getD [])

/-- A slot of a circular buffer in one byte. -/
def SlotState.code : SlotState → Nat
  | .free => 0
  | .acquired _ => 1
  | .committed => 2
  | .filled => 3
  | .waited _ => 4
  | .freed => 5
  | .returnedFree => 6
  | .returnedFilled => 7

/-- A circular-buffer record: descriptor, counters, the reservation it is bound to (from 1; 0 for none), a byte for each slot. -/
def Queue.image (q : Queue) : List Byte :=
  q8 q.desc ++ leBytes 8 q.prod ++ leBytes 8 q.fill ++ leBytes 8 q.cons ++ leBytes 8 q.free ++ leBytes 8 ((q.bound.map (· + 1)).getD 0) ++
    q.slots.flatMap fun x => leBytes 1 x.code

/-- A reservation record: offset, length, format word, and a byte of its marks; bit 0 says that it is valid. -/
def Resv.image (x : Resv) : List Byte :=
  leBytes 8 x.off ++ leBytes 8 x.len ++ q8 x.fmt ++ leBytes 1 (1 + (if x.marked then 2 else 0) + if x.freed then 4 else 0)

/-- A convergence register: its declared count (from 1; 0 for none), how many signatures it holds, then for each its group, its generation,
oldest first, and its lanes. -/
def Conv.image (c : Conv) : List Byte :=
  let gens := (c.old.map Prod.snd ++ [c.cur]).zipIdx
  leBytes 8 ((c.count.map (· + 1)).getD 0) ++ leBytes 8 (sumOf (fun x => x.1.length) gens) ++ gens.flatMap fun x =>
    x.1.flatMap fun y => leBytes 2 y.group.grp ++ leBytes 2 x.2 ++ q8 y.mask

/-- A core-rank block (Table 19-9): the objects in its order, in records whose layout it leaves open (log 27), each region at a fixed place
of the first 64 KiB; then the allotments and the tiles. -/
def rankImage (b : Launch) (r : Rank) : List Byte :=
  let head := records 64 128 r.k id ++ records 32 128 r.q Queue.image ++ records 16 32 r.b Resv.image ++ records 16 1024 r.c Conv.image ++
    records 64 32 r.cb id ++ fitTo 256 (r.locks.flatMap fun l => leBytes 8 l.1 ++ leBytes 8 l.2.grp) ++
    fitTo 64 (r.z.flatMap fun z => leBytes 8 z.cnt) ++ fitTo 32768 (r.sched.flatMap q8) ++ leBytes 8 r.cursor ++
    leBytes 512 (sumOf (fun i => 2 ^ i) r.returned)
  padTo 65536 head ++ r.scr.getN 0 b.scratch ++ r.opbuf.getN 0 b.opbuf ++ r.z.flatMap tileImage

/-- A barrier object in its 16 bytes: INIT above E, EC, A and PH, 4 bytes each (log 27). -/
def Barrier.image (b : Barrier) : List Byte :=
  leBytes 4 (b.e + if b.init then 2 ^ 31 else 0) ++ leBytes 4 b.ec ++ leBytes 4 b.a ++ leBytes 4 b.ph.toNat

/-- The team block: the barrier objects, then one bit for each thread that has arrived in the current phase. -/
def teamImage (t : Team) : List Byte :=
  let bits := fun (b : Barrier) => leBytes ((t.blk.threads + 7) / 8)
    (sumOf (fun i => if b.arrOf i = some b.ph then 2 ^ i else 0) (List.range t.blk.threads))
  padTo 4096 (t.bars.flatMap Barrier.image) ++ t.bars.flatMap bits

/-- The parts of the image at a base, each with its place. -/
def imageParts (t : Team) (gs : List Group) (base : Nat) : List (Nat × List Byte) :=
  let b := t.blk
  let g0 := base + 4096
  let r0 := g0 + b.groups * b.groupBlock
  let t0 := r0 + b.ranks * b.rankBlock
  (base, padTo 4096 (headerImage t)) ::
    (gs.map fun g => (g0 + g.key.grp * b.groupBlock, groupImage t g)) ++
    (t.ranks.zipIdx.map fun r => (r0 + r.2 * b.rankBlock, rankImage b r.1)) ++
    [(t0, teamImage t)]

/-- Write parts through a context: none where a page is missing or cannot be written. DESIGN CHOICE (log 27): Table 13-1 has no row for the write
of a save image (R157); it clears the tags of the words it covers, as an I/O-die write does. -/
def State.putParts (s : State) (part ctx : Nat) : List (Nat × List Byte) → Option State
  | [] => some s
  | (a, d) :: r => (ioRuns s part ctx .write a d.length).bind fun l => (s.ioPutRuns l d plainStore).putParts part ctx r

/-! ## Killing (R232) -/

/-- A team is killed: it leaves the machine, and its grid will complete with KILLED (R195). -/
def State.killTeam (s : State) (k : TeamKey) : State :=
  (s.updGrid k.part k.grid fun g => { g with killed := true }).dropTeam k

/-- Kill every team of a grid, placed or not (R232, R195); a machine check drops the kill (R226). -/
def State.killGrid (s : State) (part num : Nat) : State :=
  let ks := (s.teams.filter fun t => t.key.part = part && t.key.grid == num).map Team.key
  if s.falling part then s else (ks.foldl State.killTeam s).updGrid part num fun g => { g with killed := true, next := g.blk.teams }

/-! ## What a pre-emption saves (R227, R228, R230) -/

/-- A context's save area (R230): base, slot size, and how many slots. -/
def State.saveArea (s : State) (part ctx : Nat) : Nat × Nat × Nat :=
  match (s.part part).ctx? ctx with
  | none => (0, 0, 0)
  | some c => (c.saveBase, c.slotSz, if c.slotSz = 0 then 0 else c.saveLen / c.slotSz)

/-- The slots of a context that hold a team, or will. -/
def State.slotsUsed (s : State) (part ctx : Nat) : List Nat :=
  s.teams.filterMap fun t => if t.key.part = part ∧ t.ctx = ctx then t.slot else none

/-- The lowest free slot of a context. -/
def State.freeSlotOf (s : State) (part ctx : Nat) : Option Nat :=
  (List.range (s.saveArea part ctx).2.2).find? fun i => !(s.slotsUsed part ctx).contains i

/-- The teams can all be saved: each context has slots for its own, each as large as an image (R230). -/
def State.canSave (s : State) (ts : List Team) : Bool :=
  ts.all fun t =>
    let mine := ts.filter fun u => u.key.part = t.key.part && u.ctx == t.ctx
    let a := s.saveArea t.key.part t.ctx
    let busy := (s.teams.filter fun u => u.key.part = t.key.part && u.ctx == t.ctx && u.status == .saving).length
    decide (t.blk.imageLen ≤ a.2.1) && decide ((s.slotsUsed t.key.part t.ctx).length + busy + mine.length ≤ a.2.2)

/-- The saves of some teams begin: their groups stop dispatching (R229). A machine check of their partition drops the pre-emption (R226). -/
def State.beginSave (s : State) (ts : List Team) : State :=
  let hit := fun k => ts.any fun t => t.key == k && !s.falling k.part
  { s with
    teams := s.teams.map fun t => if hit t.key then { t with status := .saving } else t
    groups := s.groups.map fun g => if hit g.key.team then { g with stop := true } else g }

/-- The cores of a partition. -/
def Part.cores (p : Part) : List CoreId := p.clusters.flatMap fun d => (List.range 16).map fun i => ⟨d.1, d.2, i⟩

/-- The `n` cores of a partition with the fewest resident groups, lower numbers first among equals (R227). -/
def State.leastCores (s : State) (part n : Nat) : List CoreId :=
  let load := fun c => (s.groups.filter fun g => g.core == c).length
  ((sortBy (fun a b => decide (a.1 ≤ b.1)) ((s.part part).cores.map fun c => (load c, c))).map Prod.snd).take n

/-- The resident teams with a group on some cores, and for a cooperative grid all its teams (R227, R40). -/
def State.teamsOn (s : State) (part : Nat) (cs : List CoreId) : List Team :=
  let on := s.teams.filter fun t => t.key.part = part && t.status == .resident && t.cores.any cs.contains
  s.teams.filter fun t => t.key.part = part && t.status == .resident && on.any fun u => u.key == t.key || (u.blk.coop && u.key.grid == t.key.grid)

/-! ## PREEMPT_SAVE (R229) -/

/-- An entry of a group holds a place in a generation that is still open: the save keeps it (R121). -/
def State.openSign (s : State) (g : Group) (e : Entry) : Bool :=
  (s.rankOf g.key.team g.rank).c.any fun c => ((c.2.old.flatMap Prod.snd) ++ c.2.cur).any fun x => x.group == g.key && x.seq == e.seq

/-- The save of a group need wait for nothing more (R229): no entry, no fault that is still to be delivered, no commit point that has still
to act; a BARSYNC that waits for its phase (R231), and an LLOCK that waits for another group's lock (R28), are saved waiting. -/
def State.quiet (s : State) (g : Group) : Bool :=
  (g.rob.all fun e => s.openSign g e) && g.staged.isEmpty && g.cmds.isEmpty && g.loads.isEmpty && g.ckpts.all Ckpt.verified &&
    g.trap.isNone && g.cut.isNone && g.walk.isNone && (g.commit.all fun k => k.begun && k.idle) &&
    !((s.part g.key.team.part).colls.any (fun o => o.group == g.key)) && !((s.part g.key.team.part).sends.any fun o => o.group == g.key)

/-- The old cluster gives up what it caches of lines that are not published (R160), but for those to keep. -/
def Coh.vacate (c : Coh) (cs : List CoreId) (keep : Nat → Bool) : Coh :=
  (c.lines.filter fun l => !l.published && !keep l.addr).foldl (fun c l =>
    let hs := l.holders.filter fun x => !cs.contains x
    let o := l.owner.filter fun x => !cs.contains x
    c.setLine { l with holders := hs, owner := o, state := if hs = [] ∧ o = none then .i else l.state }) c

/-- A team is saved: its image is written, its locks and its cores are given up (R229). A save area that cannot be written loses it. -/
def State.saveTeam (s : State) (t : Team) : State :=
  let part := t.key.part
  let gs := s.groups.filter fun g => g.key.team = t.key
  let a := s.saveArea part t.ctx
  let lose := s.loseTeam t.key ⟨0, 0, 0, 0, 0⟩
  match s.freeSlotOf part t.ctx with
  | none => lose
  | some i =>
    match s.putParts part t.ctx (imageParts t gs (a.1 + i * a.2.1)) with
    | none => lose
    | some u =>
      let u := u.showLocked t.key
      let u := u.setTeam { t with status := .saved, slot := some i, saved := gs, cores := [] }
      { u with
        groups := u.groups.filter fun g => g.key.team ≠ t.key
        coh := u.coh.vacate t.cores fun l => !u.privLine l || (u.lockOf l).any fun x => x.1.team != t.key }

/-- PREEMPT_SAVE (R229): once every group of the team is quiet. -/
def execPreemptSave (t : TeamKey) (s : State) : Out_ :=
  match s.team? t with
  | none => .next s
  | some x =>
    let gs := s.groups.filter fun g => g.key.team = t
    if x.status ≠ .saving || s.falling t.part || !gs.all s.quiet || (x.ranks.any fun r => !r.ops.isEmpty || r.z.any fun z => !z.shadows.isEmpty) then .next s
    else .next (s.saveTeam x).regrant

end Sys2Proof.Machine
end

