-- ==== Sys2Proof/Machine/Lifecycle.lean ====
section
/-! DEFINITION. Machine/Lifecycle.lean: the fatal reset (R233, R234), security alarms (R235), link encryption and attestation (R239, R254),
link training (R236), keys (R406) and the package reset. -/

namespace Sys2Proof.Machine

/-! ## Keys (R406) -/

/-- The words of device memory that have been written, in a partition's colours and dies; all of them for none. -/
def State.writtenWords (s : State) (part : Option Nat) : List Nat :=
  let all := (s.ram.hist.map Msg.key ++ s.ram.mem.cells.map fun (c : Host.Cell) => c.1 / 8 * 8).eraseDups
  all.filter fun w => decide (w < Config.hostBase) && (part.all fun n => (s.part n).hasDie (homeDie w) && (s.part n).hasColour ((w >>> 16) % 64))

/-- Memory written under a key that is gone reads as ciphertext under another: free values, whichever of its stores is read (R235, R406; log
28). Words to keep are those written under another key. -/
def State.scramble (s : State) (part : Option Nat) (keep : Nat → Bool := fun _ => false) : State :=
  let put := fun (m : Memory) w => m.putN w ((List.range 8).map fun i => Config.freeByte (w + i) s.fresh)
  let ws := (s.writtenWords part).filter fun w => !keep w
  let r := { s.ram with mem := ws.foldl put s.ram.mem }
  let hist := r.hist.map fun m => if ws.contains m.key then { m with old := r.word m.key, val := r.word m.key } else m
  { s with ram := { r with hist := hist }, fresh := s.fresh + 1 }

/-- A word lies on a page that was used last under one of some KEYIDs, or that a context maps under one (R406; log 28). -/
def State.underKeys (s : State) (ids : List Nat) : Nat → Bool :=
  let l := s.leaves.filter fun x => pteMt x.2.1 == 0 && ids.contains (pteKey x.2.1)
  fun w => (s.coh.keyOf? w).any ids.contains || l.any fun x => decide (ptePpn x.2.1 / x.2.2 * x.2.2 ≤ w) && decide (w < ptePpn x.2.1 / x.2.2 * x.2.2 + x.2.2)

/-- Draw a key for each of some KEYIDs. -/
def State.drawKeys (s : State) (ids : List Nat) : State × List (Nat × Nat) :=
  ({ s with fresh := s.fresh + ids.length }, ids.zipIdx.map fun i => (i.1, Config.freshKey (s.fresh + i.2)))

/-- The KEYIDs of a partition. -/
def Part.keyIds (p : Part) : List Nat := (List.range p.keyCount).map fun i => p.keyFirst + i

/-- Zeroise a partition's keys and draw new ones (R235). -/
def State.rekey (s : State) (part : Nat) : State :=
  let x := s.drawKeys (s.part part).keyIds
  (x.1.updPart part fun p => { p with keys := x.2 }).scramble (some part)

/-! ## The fatal reset (R233) -/

/-- The cores of a partition hold no line any more, nor ask for one; the lines in flight of its colours are poisoned. -/
def State.dropLines (s : State) (part : Nat) : State :=
  let p := s.part part
  let mine := fun (l : Nat) => decide (l < Config.hostBase) && p.hasDie (homeDie l) && p.hasColour ((l >>> 16) % 64)
  let core := fun (c : CoreId) => p.hasCluster c.die c.cluster
  let flying := ((s.coh.reqs.map HomeReq.line).filter mine).eraseDups
  let coh := (s.coh.lines.filter fun l => mine l.addr || l.holders.any core).foldl (fun c l =>
    c.setLine { l with owner := none, holders := [], state := .i }) s.coh
  { s with
    ram := s.ram.taintLines flying
    coh := { coh with
      reqs := coh.reqs.filter fun r => !(mine r.line || core r.core)
      tlb := coh.tlb.filter fun t => t.part ≠ part
      checkers := coh.checkers.filter fun e => e.part ≠ part } }

/-- The copies of gangs that ran on a partition are lost with it; a gang whose leader is reset completes nothing (log 29). -/
def State.dropGangs (s : State) (part : Nat) (gs : List Grid) : State :=
  let s := { s with dev := { s.dev with
    gangResv := s.dev.gangResv.filter fun r => !(r.part == part || (s.booth r.part r.booth).waits.any fun w => w.blk.gang.getLsbD part)
    gangs := s.dev.gangs.filter fun a => a.part ≠ part } }
  gs.foldl (fun s g => (g.gang.map fun id => s.copyDone part id 5 0 g.did).getD s) s

/-- What the reset empties: booths, rings, armings, held messages (R233), and the transfers of its queues (R252). -/
def Part.emptied (p : Part) : Part :=
  { p with
    booths := p.booths.map fun b => { b with entries := [], waits := [] }
    grids := []
    armings := []
    unmatched := []
    ringUsed := []
    ringNext := 0
    faults := []
    posted := []
    queues := p.queues.map fun q => { q with
      descs := []
      cur := q.cur.map fun x => if x.ended then x else { x with chunk := [], ended := true, status := 3 } }
    dropped := true }

/-- FATAL_RESET (R233, R234): every team of the partition is dropped without completion actions, and what the partition holds is
emptied. -/
def execFatalReset (part : Nat) (s : State) : Out_ :=
  let p := s.part part
  if p.resetAt.isNone || p.dropped then .next s
  else
    let ks := (s.teams.filter fun t => t.key.part = part).map Team.key
    let t := (ks.foldl State.dropTeam s).dropGangs part p.grids
    let t := (t.dropLines part).updPart part Part.emptied
    let wins := fun (d : Iod) => { d with wins := d.wins.map fun x => if x.part = part then ⟨false, 0, 0, 0, 0, 0, 0⟩ else x }
    .next { t with iods := t.iods.map wins }.regrant

/-- Answer a mailbox request (R245): the latest answer stands in its mailbox. -/
def State.answer (s : State) (src : MboxSource) (seq : Dword) (status : Nat) (body : List Byte) : State :=
  { s with dev := { s.dev with
    replies := ⟨src, seq, status, body⟩ :: s.dev.replies.filter fun r => r.src ≠ src
    unanswered := s.dev.unanswered.filter (· ≠ (src, seq)) } }

/-- PARTITION_READY (R233): the VF reports ready, and the RESET requests are answered; not before the device is provisioned again after a
class C alarm (R235). -/
def execPartitionReady (part : Nat) (s : State) : Out_ :=
  let p := s.part part
  if !p.dropped || s.dev.classC then .next s
  else
    let t := s.updPart part fun p => { p with ready := true, resetAt := none, dropped := false, resetMbox := [] }
    .next (p.resetMbox.foldl (fun t m => t.answer m.1 m.2 0 []) t)

/-- VF_RESET (R233): a VF reset from the host. -/
def execVfReset (port vf : Nat) (s : State) : Out_ :=
  .next (match s.bound port vf with
    | some n => s.askReset n
    | none => s)

/-! ## Alarms (R235, Table 19-8) -/

/-- An alarm is recorded: its class, its I/O die, its partition or 0xFF, and its trigger. -/
def State.alarm (s : State) (cls iod part trigger : Nat) : State :=
  { s with dev := { s.dev with alarms := s.dev.alarms ++ [⟨s.now, cls, iod, part, trigger⟩] } }

/-- The classes as alarm records number them. -/
def classA : Nat := 0
def classB : Nat := 1
def classC : Nat := 2

/-- A class B alarm: the partition takes the fatal reset, with new keys. -/
def State.alarmB (s : State) (iod part trigger : Nat) : State := ((s.alarm classB iod part trigger).askReset part).rekey part

/-- A class C alarm: every key is zeroised, every partition takes the fatal reset, and only the SECURITY endpoint answers. -/
def State.alarmC (s : State) (iod trigger : Nat) : State :=
  let t := (List.range 16).foldl (fun s p => if (s.part p).word 3 = 0 then s else s.askReset p) (s.alarm classC iod 255 trigger)
  { t.scramble none with
    parts := t.parts.map fun p => { p with keys := p.keys.map fun k => (k.1, 0) }
    iods := t.iods.map fun d => { d with streams := [] }
    dev := { t.dev with idKey := none, provisioned := false, classC := true, unanswered := [] } }

/-- TAMPER_MESH_BREACH, SUPPLY_GLITCH, CLOCK_GLITCH (R235): the triggers of class C. -/
def execTamperMeshBreach (iod : Nat) (s : State) : Out_ := .next (s.alarmC iod 0)
def execSupplyGlitch (iod : Nat) (s : State) : Out_ := .next (s.alarmC iod 1)
def execClockGlitch (iod : Nat) (s : State) : Out_ := .next (s.alarmC iod 2)

/-! ## IDE, SPDM and links (R236, R239, R254) -/

/-- IDE_INTEGRITY_FAILURE (R239, R235): the TLP is dropped; a stream that is bound to a partition raises class B. Stream 0 is the PF's,
stream n + 1 that of VF n (log 30). -/
def execIdeIntegrityFailure (port stream : Nat) (s : State) : Out_ :=
  if (assoc (s.iod port).streams stream).isNone then .next s
  else
    match if stream = 0 then none else s.bound port (stream - 1) with
    | some n => .next (s.alarmB port n 0)
    | none => .next s

/-- IDE_KEY_PROGRAM (R239): one of 17 streams of a port takes a key over its function's DOE mailbox; not after a class C alarm. -/
def execIdeKeyProgram (port stream : Nat) (key : List Byte) (s : State) : Out_ :=
  .next (if 17 ≤ stream ∨ s.dev.classC then s
    else s.setIod port { s.iod port with streams := assocPut (s.iod port).streams stream key })

/-- What a function's report measures (R254): the firmware's digests and fuse SVNs; for a VF its descriptor and its booths. -/
def State.measured (s : State) (port fn : Nat) : List Byte :=
  let fw := s.dev.images.flatMap (fun i => leBytes 1 i.1 ++ Config.digest i.2) ++ s.dies.flatMap fun d => d.svn.flatMap fun v => leBytes 1 v.1 ++ leBytes 4 v.2
  match if fn = 0 then none else s.bound port (fn - 1) with
  | none => fw
  | some n => fw ++ (s.part n).desc.flatMap q8 ++ ((s.part n).booths.take 64).flatMap fun b => q8 b.w0 ++ q8 b.w1

/-- SPDM_REQUEST (R254, R235): a signed report, or an error after a class C alarm or to a malformed challenge, which raises class A. -/
def execSpdmRequest (port fn : Nat) (nonce : List Byte) (s : State) : Out_ :=
  if s.dev.classC then .next (s.emit (.spdm port fn []))
  else if !Config.spdmWellFormed nonce then .next ((s.alarm classA port 255 2).emit (.spdm port fn []))
  else .next (s.emit (.spdm port fn (Config.spdmSign (s.dev.idKey.getD []) nonce (s.measured port fn))))

/-- LINK_TRAIN (R236): a port trains as CXL at up to 64 GT/s or as PCI Express at up to 128 GT/s, x16, x8 or x4. -/
def execLinkTrain (port : Nat) (proto : LinkProto) (width : Nat) (gts : Nat) (s : State) : Out_ :=
  let most := match proto with
    | .pcie => 128
    | .cxl => 64
  .next (if [16, 8, 4].contains width && decide (1 ≤ gts) && decide (gts ≤ most) then
      s.setIod port { s.iod port with proto := some proto, width := width, gts := gts }
    else s)

/-- The fuse SVN of a stage: the highest of the dies (R253). -/
def State.fuse (s : State) (stage : Nat) : Nat := s.dies.foldl (fun n d => max n ((assoc d.svn stage).getD 0)) 0

/-- An image of a stage that its check refuses (R253): its signature fails, or its SVN is below the fuses'. -/
def State.badImage (s : State) (stage : Nat) (img : List Byte) : Bool :=
  !Config.imageSignatureOk img || decide (Config.imageSvn img < s.fuse stage)

/-- The boot chain (R253): the boot ROM of each die checks the first stage, and each stage the next. A refused one raises class A, and ends
the chain (R235). -/
def State.bootChain (s : State) : List (Nat × List Byte) → State
  | [] => s
  | i :: r =>
    if s.badImage i.1 i.2 then s.alarm classA 0 255 0
    else State.bootChain { s with dev := { s.dev with booted := s.dev.booted ++ [i.1] } } r

/-- PACKAGE_RESET (R253, R328): everything returns to its state after reset but for the fuses, the product and its power table, and what
lies outside the device: host and peer memory (log 31). -/
def execPackageReset (s : State) : Out_ :=
  let keep := s.dies.map fun d => { Die.reset with present := d.present, svn := d.svn, staticMw := d.staticMw, costs := d.costs }
  let t : State := { State.reset with
    fresh := s.fresh
    agenda := s.agenda
    ram := { Ram.reset with mem := ⟨s.ram.mem.cells.filter fun c => decide (Config.hostBase ≤ c.1)⟩ }
    dies := keep
    dev := { Device.reset with
      cv360 := s.dev.cv360
      reserve := s.dev.reserve
      provisioned := s.dev.provisioned
      classC := s.dev.classC
      idKey := s.dev.idKey
      images := s.dev.images } }
  .next (t.bootChain (sortBy (fun a b => decide (a.1 ≤ b.1)) s.dev.images))

end Sys2Proof.Machine
end

