-- ==== Sys2Proof/Machine/Mailbox.lean ====
section
/-! DEFINITION. Machine/Mailbox.lean: how endpoint requests are served and answered (R245, R246, R248, Table 20-5), and the PARTITION
requests (Table 20-7). -/

namespace Sys2Proof.Machine

/-! ## Serving a request -/

/-- What a request answers (Table 20-5): a status and its reply body; nothing yet, though it has begun; or that it cannot begin and stays in
its mailbox. -/
inductive Ans where
  | ok (s : State) (body : List Byte)
  | status (s : State) (code : Nat)
  | later (s : State)
  | wait (s : State)

/-- The codes of Table 20-5. -/
def stBusy : Nat := 1
def stConflict : Nat := 2
def stLinkDown : Nat := 3
def stMalformed : Nat := 4
def stDenied : Nat := 5

/-- An endpoint, as far as it decides whether the device answers (R235, R250). -/
inductive Endpoint where
  | security (always : Bool)      -- ALARM_READ, NONCE and PROVISION are always answered
  | other (vf : Bool)             -- a VF's mailbox takes the request (R248)
deriving DecidableEq, Repr

/-- How the body of a request is judged (R248): its least length and the bytes of it that are reserved. -/
structure Shape where
  len  : Nat
  zero : List (Nat × Nat)          -- first byte, and how many

/-- A body of LEN bytes; bytes that were not sent read as zero. -/
def mboxBytes (m : Mbox) : List Byte := padTo (min m.len 4080) (m.body.take m.len)

/-- The request breaks R248's rules for every request. -/
def mboxBad (m : Mbox) (x : Shape) : Bool :=
  decide (m.len < x.len) || decide (4080 < m.len) || x.zero.any fun z => fieldAt (mboxBytes m) z.1 z.2 != 0

/-- A request stays in its mailbox. -/
def State.hold (s : State) (m : Mbox) (i : Instr) : State :=
  if s.dev.held.contains (m, i) then s else { s with dev := { s.dev with held := s.dev.held ++ [(m, i)] } }

/-- Answer a request with a status; a VF finds the answer in its mailbox, where the request was (R245). -/
def State.respond (s : State) (m : Mbox) (status : Nat) (body : List Byte) : State :=
  let head := leBytes 1 m.ep ++ leBytes 1 status ++ leBytes 2 m.op ++ leBytes 4 body.length ++ leBytes 8 m.seq.toNat
  let t := match m.src with
    | .die _ => s
    | .vf p => s.updPart p fun q => { q with mail := q.mail.putN 0 (head ++ body) }
  t.answer m.src m.seq status body

/-- What becomes of a request. -/
def reply (i : Instr) (m : Mbox) : Ans → State
  | .ok t b => t.respond m 0 b
  | .status t c => t.respond m c []
  | .later t => { t with dev := { t.dev with unanswered := (m.src, m.seq) :: t.dev.unanswered } }
  | .wait t => t.hold m i

/-- The mailbox is there: a present die's, or that of a partition whose VF is ready (R233, R238, R245). -/
def State.hasMbox (s : State) (m : Mbox) : Bool :=
  match m.src with
  | .die d => s.hasDie d
  | .vf p => decide (p < 16) && (s.part p).described && (s.part p).ready

/-- A request in a mailbox that is not there: one that a VF in its reset takes is a write dropped, and logged (R233). -/
def State.missMbox (s : State) (m : Mbox) : State :=
  match m.src with
  | .die _ => s
  | .vf p => if p < 16 ∧ (s.part p).described then s.logAt 5 p 0x50000 else s

/-- The partition that a request names in byte 0; a VF's own, whatever byte 0 holds (R248). -/
def mboxPart (m : Mbox) : Nat :=
  match m.src with
  | .die _ => fieldAt (mboxBytes m) 0 1
  | .vf p => p

/-- The ENDPOINT and OPCODE of a request (R245, Tables 20-7 to 20-12). -/
def codeOf : Instr → Nat × Nat
  | .descWrite _ => (0, 1)
  | .descRead _ => (0, 2)
  | .boothWrite _ => (0, 3)
  | .gangMask _ => (0, 4)
  | .ctxCreate _ => (0, 5)
  | .ctxDestroy _ => (0, 6)
  | .gridList _ => (0, 7)
  | .preemptSpace _ => (0, 8)
  | .preemptTime _ => (0, 9)
  | .kill _ => (0, 10)
  | .reset _ => (0, 11)
  | .dmaqWrite _ => (0, 12)
  | .dieMap _ => (0, 13)
  | .windowInfo _ => (1, 1)
  | .faultRead _ => (1, 2)
  | .faultReply _ => (1, 3)
  | .invalidate _ => (1, 4)
  | .migrate _ => (1, 5)
  | .publishReset _ => (1, 6)
  | .streamWindow _ => (1, 7)
  | .commWrite _ => (1, 8)
  | .landingRing _ => (1, 9)
  | .budget _ => (2, 1)
  | .cap _ => (2, 2)
  | .powerTable _ => (2, 3)
  | .grants _ => (2, 4)
  | .reserve _ => (2, 5)
  | .alarmRead _ => (3, 1)
  | .imageLoad _ => (3, 2)
  | .svnCommit _ => (3, 3)
  | .nonce _ => (3, 4)
  | .debugUnlock _ => (3, 5)
  | .provision _ => (3, 6)
  | .keyAssign _ => (3, 7)
  | .attach _ => (4, 1)
  | .detach _ => (4, 2)
  | .haltList _ => (4, 3)
  | .haltRead _ => (4, 4)
  | .resume _ => (4, 5)
  | .fabricMap _ => (4, 6)
  | .logRead _ => (5, 1)
  | .counters _ => (5, 2)
  | _ => (0, 0)

/-- The endpoint is there and defines the OPCODE: each numbers its requests from 1 (R245, R248). -/
def mboxKnown (m : Mbox) : Bool := decide (1 ≤ m.op) && decide (m.op ≤ [13, 9, 5, 7, 6, 2].getD m.ep 0)

/-- Serve a request (R245, R248, R250). After a class C alarm only SECURITY answers; a VF's mailbox denies what it does not take; a header
that names no request is MALFORMED, and one that names another request than this is that request's, not this one's. -/
def serveMbox (i : Instr) (m : Mbox) (e : Endpoint) (x : Shape) (s : State) (body : List Byte → Ans) : Out_ :=
  let vf := match m.src with
    | .vf _ => true
    | .die _ => false
  let takes := match e with
    | .other takes => takes
    | .security _ => false
  let open_ := match e with
    | .security false => !s.dev.classC && s.dev.provisioned
    | _ => true
  let no := fun c => Host.Outcome.next (reply i m (.status s c))
  if !s.hasMbox m then .next (s.missMbox m)
  else if (mboxKnown m && (m.ep, m.op) != codeOf i) || (s.dev.classC && m.ep != 3) then .next s
  else if vf && !(takes && mboxKnown m) then no stDenied
  else if !mboxKnown m || mboxBad m x then no stMalformed
  else if !open_ then no stDenied
  else .next (reply i m (body (mboxBytes m)))

/-- A request with a lower SEQ of the same mailbox waits, or has begun and is not answered yet (R245). -/
def State.behind (s : State) (m : Mbox) : Bool :=
  (s.dev.held.any fun h => h.1.src == m.src && decide (h.1.seq < m.seq)) || s.dev.unanswered.any fun u => u.1 == m.src && decide (u.2 < m.seq)

/-- Serve a request in its turn: one that the harbourmaster serves waits for the end of a takeover (R246), and one behind another of its
mailbox waits for that one's answer, for a mailbox is served in SEQ order (R245). -/
def mboxTurn (hm : Bool) (i : Instr) (m : Mbox) (s : State) (k : State → Out_) : Out_ :=
  if (hm && s.dev.takeover.isSome) || s.behind m then .next (s.hold m i)
  else k { s with dev := { s.dev with held := s.dev.held.erase (m, i) } }

/-- A request that the firmware of its die serves alone. -/
def mbox (i : Instr) (m : Mbox) (e : Endpoint) (x : Shape) (s : State) (body : State → List Byte → Ans) : Out_ :=
  mboxTurn false i m s fun s => serveMbox i m e x s (body s)

/-- A request that needs the harbourmaster (R246). -/
def mboxHm (i : Instr) (m : Mbox) (e : Endpoint) (x : Shape) (s : State) (body : State → List Byte → Ans) : Out_ :=
  mboxTurn true i m s fun s => serveMbox i m e x s (body s)

/-- A request about a partition, which must be one of the sixteen (R248). -/
def forPart (m : Mbox) (s : State) (k : Nat → Ans) : Ans := if 16 ≤ mboxPart m then .status s stMalformed else k (mboxPart m)

/-- A request about a physical die, which must be present (R248). -/
def forDie (s : State) (d : List Byte) (k : Nat → Ans) : Ans :=
  if s.hasDie (fieldAt d 0 1) then k (fieldAt d 0 1) else .status s stMalformed

/-! ## DESC_WRITE and DESC_READ (R15 to R18) -/

/-- The partition has a resident team, an entry in a booth, or an outstanding transfer (R16, R406). DESIGN CHOICE (log 38): a launch that waits
in virtual booth 64 (R205, R207) counts as an entry. -/
def State.busyPart (s : State) (n : Nat) : Bool :=
  (s.teams.any fun t => t.key.part = n && t.resident) || ((s.part n).booths.any fun b => !b.entries.isEmpty || !b.waits.isEmpty) ||
    (s.part n).queues.any fun q => !q.descs.isEmpty || q.cur.isSome

/-- The writable bits of the descriptor (Table 2-3). -/
def descMask (l : List Dword) : List Dword :=
  [l.getD 0 0 &&& 0xFFFFFFFFF, l.getD 1 0, l.getD 2 0 &&& 0xFFFFFFFFFFFF, l.getD 3 0 &&& 0xF1F]

/-- A partition's share of a link (Table 2-3). -/
def Part.share (p : Part) (link : Nat) : Nat := bitsOf (p.word 2) (6 * link + 5) (6 * link)

/-- A descriptor conflicts with the other partitions or with itself (R16, R17, R18). -/
def descConflict (s : State) (n : Nat) (p : Part) : Bool :=
  let others := ((List.range 16).filter fun i => i != n && (s.part i).described).map s.part
  let used := s.linksUsed p
  (others.any fun q => p.word 0 &&& q.word 0 != 0 || p.word 1 &&& q.word 1 != 0 || (p.port == q.port && p.vf == q.vf)) ||
    ((List.range 4).any fun d => (p.hasDie d && !s.hasDie d) || ((List.range 9).any (p.hasCluster d) && !(p.hasDie d && s.hasDie d))) ||
    p.word 0 == 0 || p.word 1 == 0 || p.word 3 % 16 == 0 ||
    ((List.range 8).any fun l => (p.share l == 0) == used.contains l || decide (56 < p.share l + sumOf (fun q => q.share l) others))

/-- DESC_WRITE (R16, R17, R151). DESIGN CHOICE (log 38): one that is in conflict and would use a lost link is answered CONFLICT. -/
def execDescWrite (m : Mbox) (s : State) : Out_ :=
  mboxHm (.descWrite m) m (.other false) ⟨40, [(1, 7)]⟩ s fun s d => forPart m s fun n =>
    let p := { s.part n with desc := descMask ((List.range 4).map fun i => BitVec.ofNat 64 (fieldAt d (8 + 8 * i) 8)) }
    if s.busyPart n then .status s stBusy
    else if descConflict s n p then .status s stConflict
    else if (s.linksUsed p).any s.coh.linkDown.contains then .status s stLinkDown
    else .ok (s.setPart n p) []

/-- DESC_READ (Table 20-7). -/
def execDescRead (m : Mbox) (s : State) : Out_ :=
  mbox (.descRead m) m (.other false) ⟨1, []⟩ s fun s _ => forPart m s fun n => .ok s ((s.part n).desc.flatMap q8)

/-! ## Booths, gangs, contexts -/

/-- A run of physical memory lies in the partition's dies and colours. -/
def Part.owns (p : Part) (a n : Nat) : Bool :=
  p.hasDie (homeDie a) && decide (a < 2 ^ 39) && decide (a / 2 ^ 37 = (a + n - 1) / 2 ^ 37) &&
    (List.range (min 64 ((a + n - 1) / 65536 + 1 - a / 65536))).all fun i => p.hasColour ((a / 65536 + i) % 64)

/-- BOOTH_WRITE (R199). -/
def execBoothWrite (m : Mbox) (s : State) : Out_ :=
  mboxHm (.boothWrite m) m (.other false) ⟨24, [(2, 6)]⟩ s fun s d => forPart m s fun n =>
    let i := fieldAt d 1 1
    let b := s.booth n i
    let w0 := BitVec.ofNat 64 (fieldAt d 8 8) &&& 0x7FFFFFFFFF01F
    let w1 := BitVec.ofNat 64 (fieldAt d 16 8) &&& 0xFF0F
    let c := { b with w0 := w0, w1 := w1 }
    let ringBad := c.ring != 0 && (decide (c.ring < 6) || decide (20 < c.ring) || !(s.part n).owns (bitsOf w0.toNat 50 12 * 4096) (64 * 2 ^ c.ring))
    if 64 ≤ i then .status s stMalformed
    else if !b.entries.isEmpty || !b.waits.isEmpty then .status s stBusy
    else if ringBad || (c.valid && ((s.part n).ctx? c.ctx).isNone) then .status s stMalformed
    else .ok (s.updBooth n i fun _ => c) []

/-- GANG_MASK (R210). -/
def execGangMask (m : Mbox) (s : State) : Out_ :=
  mboxHm (.gangMask m) m (.other false) ⟨4, [(1, 1)]⟩ s fun s d => forPart m s fun n =>
    .ok (s.updPart n fun p => { p with gangMask := BitVec.ofNat 16 (fieldAt d 2 2) }) []

/-- A virtual-die table that R13 admits. -/
def vdtabOk (s : State) (p : Part) (tab : BitVec 16) : Bool :=
  let es := (List.range 4).map fun v => vdEntry tab v
  let ds := es.filterMap id
  ((List.range 4).all fun v => !tab.getLsbD (4 * v + 2)) && es.take ds.length == ds.map some && ds.eraseDups.length == ds.length &&
    ds.all fun d => s.hasDie d && p.hasDie d

/-- The context that a record image describes (Table 20-6). -/
def parseCtx (num : Nat) (d : List Byte) : Context :=
  let fl := fieldAt d 8 1
  ⟨num, fieldAt d 0 8, fl.testBit 0, BitVec.ofNat 16 (fieldAt d 16 2), fieldAt d 20 4, fieldAt d 24 8, fieldAt d 36 4, fieldAt d 40 8,
    fieldAt d 48 8, fieldAt d 56 8, if fl.testBit 1 then 1 else 0, false⟩

/-- A record image that R247 refuses. -/
def ctxBad (s : State) (p : Part) (d : List Byte) : Bool :=
  let c := parseCtx 0 d
  let root := bitsOf c.ptroot 50 12 * 4096
  decide (4 ≤ fieldAt d 8 1) || fieldAt d 9 7 != 0 || fieldAt d 18 2 != 0 || fieldAt d 32 4 != 0 || fieldAt d 64 192 != 0 ||
    decide (2 ^ 20 ≤ c.pasid) || c.ptroot != root || !p.owns root 4096 || !vdtabOk s p c.vdtab || decide (2 ^ 20 < c.arenaLen) ||
    c.arenaTab % 8 != 0 || c.saveBase % 65536 != 0 || c.slotSz == 0 || c.slotSz % 65536 != 0 || c.saveLen % c.slotSz != 0

/-- CTX_CREATE (R247). -/
def execCtxCreate (m : Mbox) (s : State) : Out_ :=
  mboxHm (.ctxCreate m) m (.other false) ⟨16, [(2, 6)]⟩ s fun s d => forPart m s fun n =>
    let a := fieldAt d 8 8
    let rec_ := s.ram.mem.getN a 256
    if a % 256 != 0 || decide (2 ^ 39 ≤ a) || s.ram.tainted a 256 || ctxBad s (s.part n) rec_ then .status s stMalformed
    else if ((s.part n).ctx? (fieldAt d 1 1)).isSome then .status s stBusy
    else .ok (s.updPart n fun p => { p with ctxs := p.ctxs ++ [parseCtx (fieldAt d 1 1) rec_] }) []

/-- A context that something of the partition still uses (R247). -/
def State.ctxUsed (s : State) (n c : Nat) : Bool :=
  let p := s.part n
  (s.teams.any fun t => t.key.part = n && t.ctx == c) || (p.grids.any fun g => g.ctx == c && g.more) ||
    (p.booths.any fun b => b.valid && b.ctx == c) || (p.queues.any fun q => q.valid && q.ctx == c) || p.faults.any fun f => f.ctx == c

/-- CTX_DESTROY (R247). -/
def execCtxDestroy (m : Mbox) (s : State) : Out_ :=
  mboxHm (.ctxDestroy m) m (.other false) ⟨2, []⟩ s fun s d => forPart m s fun n =>
    let c := fieldAt d 1 1
    if s.ctxUsed n c then .status s stBusy
    else
      let t := s.updPart n fun p => { p with ctxs := p.ctxs.filter fun x => x.num ≠ c }
      .ok { t with coh := { t.coh with tlb := t.coh.tlb.filter fun e => !(e.part = n && e.ctx = c) } } []

/-! ## Grids -/

/-- Where a grid stands in GRID_LIST: 1 running, 2 saved, 0 waiting or unplaced. -/
def State.gridState (s : State) (n : Nat) (g : Grid) : Nat :=
  let ts := s.teams.filter fun t => t.key.part = n && t.key.grid == g.num
  if ts.any Team.resident then 1 else if ts.isEmpty then 0 else 2

/-- GRID_LIST (R197). -/
def execGridList (m : Mbox) (s : State) : Out_ :=
  mbox (.gridList m) m (.other false) ⟨1, []⟩ s fun s _ => forPart m s fun n =>
    .ok s (((s.part n).grids.take 255).flatMap fun g =>
      leBytes 4 g.num ++ leBytes 1 g.ctx ++ leBytes 1 g.level ++ leBytes 1 (s.gridState n g) ++ leBytes 1 0 ++ leBytes 8 g.blk.addr)

/-- PREEMPT_SPACE (R227, R230): the answer names how many cores the saves vacate. -/
def execPreemptSpace (m : Mbox) (s : State) : Out_ :=
  mboxHm (.preemptSpace m) m (.other false) ⟨4, [(1, 1)]⟩ s fun s d => forPart m s fun n =>
    let cs := s.leastCores n (fieldAt d 2 2)
    let ts := s.teamsOn n cs
    if !s.canSave ts then .status s stBusy else .ok (s.beginSave ts) (leBytes 2 cs.length)

/-- PREEMPT_TIME (R228, R230). -/
def execPreemptTime (m : Mbox) (s : State) : Out_ :=
  mboxHm (.preemptTime m) m (.other false) ⟨8, [(1, 3)]⟩ s fun s d => forPart m s fun n =>
    let ts := s.teams.filter fun t => t.key.part = n && t.key.grid == fieldAt d 4 4 && t.status == .resident
    if !s.canSave ts then .status s stBusy else .ok (s.beginSave ts) []

/-- Kill one team of a grid (R232): a placed one leaves, one not yet placed never starts, one that has retired is passed over; a machine check
drops the kill (R226). -/
def State.killOne (s : State) (n : Nat) (g : Grid) (i : Nat) : State :=
  if s.falling n then s
  else if (s.team? ⟨n, g.num, i⟩).isSome then (s.killTeam ⟨n, g.num, i⟩).regrant
  else if decide (g.next ≤ i) && !g.skip.contains i then s.updGrid n g.num fun g => { g with killed := true, skip := i :: g.skip }
  else s

/-- KILL (R232, R195). -/
def execKill (m : Mbox) (s : State) : Out_ :=
  mboxHm (.kill m) m (.other false) ⟨12, [(2, 2)]⟩ s fun s d => forPart m s fun n =>
    let one := fieldAt d 1 1
    let i := fieldAt d 8 4
    if 1 < one then .status s stMalformed
    else
      match s.grid? n (fieldAt d 4 4) with
      | none => .ok s []
      | some g =>
        if one = 0 then .ok (s.killGrid n g.num).regrant []
        else if g.blk.teams ≤ i then .status s stMalformed
        else .ok (s.killOne n g i) []

/-- RESET (R233): answered when the VF reports ready. -/
def execReset (m : Mbox) (s : State) : Out_ :=
  mboxHm (.reset m) m (.other false) ⟨1, []⟩ s fun s _ => forPart m s fun n =>
    .later ((s.askReset n).updPart n fun p => { p with resetMbox := p.resetMbox ++ [(m.src, m.seq)] })

/-- DMAQ_WRITE (R247, R251): clearing VALID aborts the running transfer (R252). -/
def execDmaqWrite (m : Mbox) (s : State) : Out_ :=
  mboxHm (.dmaqWrite m) m (.other false) ⟨24, [(2, 6), (19, 5)]⟩ s fun s d => forPart m s fun n =>
    let i := fieldAt d 1 1
    let a := fieldAt d 8 8
    let log := fieldAt d 16 1
    let valid := (fieldAt d 18 1).testBit 0
    let q := s.queue n i
    if 4 ≤ i ∨ 2 ≤ fieldAt d 18 1 ∨ a % 4096 ≠ 0 ∨ (log ≠ 0 ∧ (log < 6 ∨ 16 < log)) then .status s stMalformed
    else if !q.descs.isEmpty then .status s stBusy
    else if valid && ((s.part n).ctx? (fieldAt d 17 1)).isNone then .status s stMalformed
    else
      let cur := if valid then q.cur else q.cur.map fun x => if x.ended then x else { x with chunk := [], ended := true, status := 3 }
      .ok (s.updQueue n i fun q => { q with valid := valid, ring := a, ringlog := log, ctx := fieldAt d 17 1, cur := cur }) []

/-- DIE_MAP (R2). -/
def execDieMap (m : Mbox) (s : State) : Out_ :=
  mbox (.dieMap m) m (.other false) ⟨1, [(0, 1)]⟩ s fun s _ =>
    .ok s [BitVec.ofNat 8 (sumOf (fun d => if s.hasDie d then 2 ^ d else 0) (List.range 4)), if s.dev.cv360 then 1 else 0]

end Sys2Proof.Machine
end

