-- ==== Sys2Proof/Machine/MailMemory.lean ====
section
/-! DEFINITION. Machine/MailMemory.lean: the MEMORY and POWER requests (Tables 20-8 and 20-9), the service of faults (R36, R137), the removal
of translations (R138) and page migration (R139, R140). -/

namespace Sys2Proof.Machine

/-! ## Windows -/

/-- The populated length of a die's window (R12): two HBM stacks of 48 GiB (R1). -/
def populated : Nat := 96 * 2 ^ 30

/-- WINDOW_INFO (R12, R19). -/
def execWindowInfo (m : Mbox) (s : State) : Out_ :=
  mbox (.windowInfo m) m (.other false) ⟨1, []⟩ s fun s d => forDie s d fun n =>
    .ok s (leBytes 8 populated ++ leBytes 1 Config.ns ++ leBytes 1 Config.ni ++ leBytes 1 Config.np ++ leBytes 5 0 ++
      (List.range (Config.ns + Config.ni + Config.np)).flatMap fun i => leBytes 8 (Config.windowMask n i))

/-! ## Faults (R36, R137) -/

/-- How FAULT_READ codes an access kind. -/
def accessCode : Access → Nat
  | .read => 0
  | .write => 1
  | .atomic => 2
  | .fetch => 3
  | .engine => 4

/-- A fault record as FAULT_READ gives it. -/
def FaultRec.bytes (f : FaultRec) : List Byte :=
  leBytes 4 f.id ++ leBytes 1 f.ctx ++ leBytes 1 (accessCode f.kind) ++ leBytes 1 f.core.die ++ leBytes 1 f.core.cluster ++
    leBytes 1 f.core.core ++ leBytes 7 0 ++ leBytes 8 f.page ++ leBytes 8 0

/-- FAULT_READ (R137): up to 64 queued records, oldest first, which then await FAULT_REPLY. -/
def execFaultRead (m : Mbox) (s : State) : Out_ :=
  mboxHm (.faultRead m) m (.other true) ⟨1, []⟩ s fun s _ => forPart m s fun n =>
    let l := ((s.part n).faults.filter FaultRec.queued).take 64
    let mark := fun (f : FaultRec) => if l.any fun x => x.id = f.id then { f with queued := false, sent := true } else f
    .ok (s.updPart n fun p => { p with faults := p.faults.map mark }) (l.flatMap FaultRec.bytes)

/-- A fault of a group is serviced (R36): its lanes are eligible again, or will take trap 0x06; a walk of the Drover goes on, or will
stop (R166). A restart limit that found every thread parked is reached by the first that is unparked (R73). -/
def Group.serviced (g : Group) (id : Nat) (bad : Bool) : Group :=
  let mine := g.parks.filter fun p => p.id = id
  let wk := g.walk.map fun w => match w.fault with
    | some f => if f.id = id then (if bad then { w with fault := some { f with bad := true } } else { w with ready := true }) else w
    | none => w
  if bad then { g with walk := wk, parks := g.parks.map fun p => if p.id = id then { p with bad := true } else p }
  else
    let h := { g with walk := wk }.unpark (Mask.ofLanes (mine.map Park.lane))
    if h.trap.isNone && !mine.isEmpty then h.limit else h

/-- The service of a fault reaches every group that waits on it, saved ones too. -/
def State.serviced (s : State) (n id : Nat) (bad : Bool) : State :=
  let one := fun (g : Group) => if g.key.team.part = n then g.serviced id bad else g
  { s with groups := s.groups.map one, teams := s.teams.map fun t => { t with saved := t.saved.map one } }

/-- FAULT_REPLY (R36, R137). -/
def execFaultReply (m : Mbox) (s : State) : Out_ :=
  mboxHm (.faultReply m) m (.other true) ⟨8, [(2, 2)]⟩ s fun s d => forPart m s fun n =>
    let id := fieldAt d 4 4
    if 1 < fieldAt d 1 1 then .status s stMalformed
    else if !((s.part n).faults.any fun f => f.id = id && f.sent) then .ok s []
    else
      let t := s.updPart n fun p => { p with faults := p.faults.filter fun f => f.id ≠ id }
      .ok (t.serviced n id (fieldAt d 1 1 == 1)) []

/-! ## Removing translations (R138) -/

/-- A page size of Table 20-8. -/
def pageSize (n : Nat) : Option Nat := ([4096, 65536, 2 ^ 21, 2 ^ 30] : List Nat)[n]?

/-- The groups of a context with accesses under way, and the sequence numbers before which they were made. -/
def State.underWay (s : State) (n c : Nat) : List (GroupKey × Nat) :=
  (s.groups.filter fun g => g.key.team.part = n && g.ctx == c).map fun g => (g.key, g.seq)

/-- Remove the translations of a context that a range touches, all of them for none, and wait for what was translated through
them. -/
def State.untranslate (s : State) (n c : Nat) (range : Option (Nat × Nat)) (m : Option (MboxSource × Dword)) : State :=
  let hit := fun (t : TlbEntry) => t.part == n && t.ctx == c && range.all fun r => decide (t.va < r.1 + r.2) && decide (r.1 < t.va + t.size)
  { s with coh := { s.coh with
      tlb := s.coh.tlb.filter fun t => !hit t
      syncs := s.coh.syncs ++ [⟨s.coh.nextId, s.underWay n c, m⟩]
      nextId := s.coh.nextId + 1 } }

/-- INVALIDATE (R138): answered by TLB_SYNC_ANSWER. DESIGN CHOICE (log 26): an address that is not aligned to the size is rounded down. -/
def execInvalidate (m : Mbox) (s : State) : Out_ :=
  mbox (.invalidate m) m (.other false) ⟨16, [(3, 5)]⟩ s fun s d => forPart m s fun n =>
    let c := fieldAt d 1 1
    let va := fieldAt d 8 8
    match fieldAt d 2 1, pageSize (fieldAt d 2 1) with
    | 7, _ => .later (s.untranslate n c none (some (m.src, m.seq)))
    | _, some z => .later (s.untranslate n c (some (va / z * z, z)) (some (m.src, m.seq)))
    | _, none => .status s stMalformed

/-- HOST_TLB_INVALIDATE (R138): a broadcast on the CXL link reaches the contexts that share the host's address space under a PASID. -/
def execHostTlbInvalidate (pasid : Nat) (va size : Nat) (s : State) : Out_ :=
  if !s.iods.any fun d => d.proto == some .cxl then .next s
  else
    let cs := (List.range 16).flatMap fun n => ((s.part n).ctxs.filter fun c => c.shared && c.pasid == pasid).map fun c => (n, c.num)
    let hit := fun (t : TlbEntry) => cs.contains (t.part, t.ctx) && decide (t.va < va + size) && decide (va < t.va + t.size)
    .next { s with coh := { s.coh with
      tlb := s.coh.tlb.filter fun t => !hit t
      syncs := s.coh.syncs ++ [⟨s.coh.nextId, cs.flatMap fun c => s.underWay c.1 c.2, none⟩]
      nextId := s.coh.nextId + 1 } }

/-- The accesses that a group made before a sequence number have performed or been discarded. -/
def State.performed (s : State) (w : GroupKey × Nat) : Bool :=
  match s.group? w.1 with
  | none => true
  | some g => (g.staged.all fun e => decide (w.2 ≤ e.seq)) && (g.cmds.all fun c => decide (w.2 ≤ c.seq)) && (g.loads.all fun l => decide (w.2 ≤ l.1)) &&
      !((s.part g.key.team.part).colls.any fun o => o.group == g.key)

/-- TLB_SYNC_ANSWER (R138). -/
def execTlbSyncAnswer (id : Nat) (s : State) : Out_ :=
  match s.coh.syncs.find? fun y => y.id = id with
  | none => .next s
  | some y =>
    if !y.waits.all s.performed then .next s
    else
      let t := { s with coh := { s.coh with syncs := s.coh.syncs.filter fun x => x.id ≠ id } }
      .next (match y.mbox with
        | some x => t.answer x.1 x.2 0 []
        | none => t.emit (.tlbSync id))

/-! ## Page migration (R139, R140) -/

/-- An address lies in a page. -/
def inPage (a base size : Nat) : Bool := decide (base ≤ a) && decide (a < base + size)

/-- MIGRATE (R139): the source's home recalls every copy of the page, but for locked lines, whose cores answer once they are unlocked (R149);
the copy begins. DESIGN CHOICE (log 26): a page that is not aligned to its size, or lies beyond the device's memory, is MALFORMED; R2 leaves open a page
in the window of a die whose HBM stacks are absent, and the model serves it as memory like any other below 2^39. -/
def execMigrate (m : Mbox) (s : State) : Out_ :=
  mbox (.migrate m) m (.other false) ⟨24, [(2, 6)]⟩ s fun s d => forPart m s fun n =>
    let src := fieldAt d 8 8
    let dst := fieldAt d 16 8
    match pageSize (fieldAt d 1 1) with
    | none => .status s stMalformed
    | some z =>
      if src % z ≠ 0 ∨ dst % z ≠ 0 ∨ 2 ^ 39 ≤ src ∨ 2 ^ 39 ≤ dst then .status s stMalformed
      else
        let coh := (s.coh.lines.filter fun l => inPage l.addr src z && (s.lockOf l.addr).isNone).foldl (fun c l =>
          c.setLine { l with state := .i, owner := none, holders := [] }) s.coh
        .later { s with coh := { coh with migs := coh.migs ++ [⟨coh.nextId, n, z, src, dst, (m.src, m.seq)⟩], nextId := coh.nextId + 1 } }

/-- The content of one page put in the place of another: bytes, tags, poison by whole lines (R140), and what the latest stores
release. -/
def Ram.copyPage (r : Ram) (src dst size : Nat) : Ram :=
  let bytes := r.mem.cells.filter fun c => inPage c.1 src size
  let mem := bytes.foldl (fun (m : Memory) c => m.put (dst + (c.1 - src)) c.2) ⟨r.mem.cells.filter fun c => !inPage c.1 dst size⟩
  let tags := (r.tags.filter fun w => inPage w src size).foldl (fun l w => addSorted l (dst + (w - src))) (r.tags.filter fun w => !inPage w dst size)
  let bad := ((r.poison.filter fun w => inPage w src size).map fun w => w / 64 * 64).eraseDups
  let keys := ((r.hist.filter fun m => inPage m.key src size).map Msg.key).eraseDups
  let t := { r with mem := mem, tags := tags, poison := r.poison.filter fun w => !inPage w dst size, hist := r.hist.filter fun m => !inPage m.key dst size }
  let t := bad.foldl (fun t l => t.taint (dst + (l - src)) 64) t
  (keys.foldl (fun t k => t.push (dst + (k - src)) 511 (t.word (dst + (k - src))) (t.word (dst + (k - src))) (r.lastRels k 511) false none) t).counted

/-- The published bits and stamps of a page's lines go with them (R160), and the KEYIDs its data was written under (R406). DESIGN CHOICE (log
26): R139 and R160 do not say what becomes of the bits; a destination line whose source has no record keeps its own. -/
def Coh.copyPage (c : Coh) (src dst size : Nat) : Coh :=
  let c := (c.keyed.filter fun x => decide (x.1 < src + size) && decide (src < x.1 + x.2.1)).foldr (fun x c =>
    let lo := max x.1 src
    c.useKey (dst + (lo - src)) (min (x.1 + x.2.1) (src + size) - lo) x.2.2) c
  (c.lines.filter fun l => inPage l.addr src size).foldl (fun c l =>
    c.setLine { l with addr := dst + (l.addr - src), state := .i, owner := none, holders := [] }) c

/-- Every staged store, engine command, load and request of a page goes to another (R139, R140), and so do the lines that a saved team had
locked (R150). -/
def State.redirect (s : State) (src dst size : Nat) : State :=
  let to_ := fun (a : Nat) => if inPage a src size then dst + (a - src) else a
  let mv := fun (p : Piece) => if p.tgt = .mem then { p with addr := to_ p.addr } else p
  let at_ := fun (x : Target × Nat) => if x.1 = .mem then (x.1, to_ x.2) else x
  let eff := fun (e : Effect) =>
    let e := { e with pois := e.pois.map at_ }
    match e.kind with
    | .write ps t r => { e with kind := .write (ps.map mv) t r }
    | .objInit h ws => { e with kind := .objInit (mv h) (ws.map fun w => (to_ w.1, w.2)) }
    | _ => e
  let rank := fun (r : Rank) => { r with locks := r.locks.map fun l => (to_ l.1, l.2) }
  let cmd := fun (c : Cmd) => { c with elems := c.elems.map fun (e : Elem) =>
    if c.kind = .zcpyOut then e else { e with addr := e.addr.map to_ } }
  let grp := fun (g : Group) => { g with staged := g.staged.map eff, cmds := g.cmds.map cmd, loads := g.loads.map fun l => (l.1, l.2.map to_) }
  { s with
    groups := s.groups.map grp
    teams := s.teams.map fun t => { t with ranks := t.ranks.map rank }
    coh := { s.coh with reqs := s.coh.reqs.map fun r => { r with line := to_ r.line } } }

/-- A line of a page is locked by a core (R149). -/
def State.pageLocked (s : State) (base size : Nat) : Bool := (s.teams.flatMap Team.locked).any fun l => inPage l.1 base size

/-- Firmware rewrites the page-table entries that a migration has set MIG in: those that map the destination (R139, R140). -/
def State.rewritePtes (s : State) (m : Migration) (f : Nat → Nat) : State :=
  (s.leaves.filter fun x => pteMig x.2.1 && pteMt x.2.1 == 0 && inPage (ptePpn x.2.1) m.dst m.size).foldl
    (fun s x => s.ioPut x.1 (leBytes 8 (f x.2.1)) plainStore) s

/-- An entry with MIG clear. -/
def pteSettled (e : Nat) : Nat := e - e % 2 ^ 52 / 2 ^ 51 * 2 ^ 51

/-- An entry of a destination page turned back to its source, with MIG clear and the source's home die (R140). -/
def pteRestored (m : Migration) (e : Nat) : Nat :=
  let pa := m.src + (ptePpn e - m.dst)
  e % 4096 + pa % 2 ^ 51 + bitsOf pa 38 37 * 2 ^ 52 + e / 2 ^ 54 * 2 ^ 54

/-- The translations of a physical page are dropped from every TLB (R138). -/
def Coh.forget (c : Coh) (base size : Nat) : Coh :=
  { c with tlb := c.tlb.filter fun t => !(pteMt t.pte == 0 && inPage (ptePpn t.pte / t.size * t.size) base size) }

/-- MIGRATION_COMPLETE (R139, R140): the copy ends, the destination serves what it has held, and firmware clears MIG. -/
def execMigrationComplete (id : Nat) (s : State) : Out_ :=
  match s.coh.migs.find? fun m => m.id = id with
  | none => .next s
  | some m =>
    if s.pageLocked m.src m.size then .next s
    else
      let coh := { s.coh with migs := s.coh.migs.filter fun x => x.id ≠ id }
      let t := { s with ram := s.ram.copyPage m.src m.dst m.size, coh := coh.copyPage m.src m.dst m.size }
      .next (((t.redirect m.src m.dst m.size).rewritePtes m pteSettled).answer m.mbox.1 m.mbox.2 0 [0])

/-- MIGRATION_ABORT (R140): the copy faults; firmware restores the source's translation, and what the destination holds goes back to the
source. -/
def execMigrationAbort (id : Nat) (s : State) : Out_ :=
  match s.coh.migs.find? fun m => m.id = id with
  | none => .next s
  | some m =>
    let t := { s with coh := Coh.forget { s.coh with migs := s.coh.migs.filter fun x => x.id ≠ id } m.dst m.size }
    .next (((t.redirect m.dst m.src m.size).rewritePtes m (pteRestored m)).answer m.mbox.1 m.mbox.2 0 [1])

/-! ## Published pages, stream windows, communicators, landing rings -/

/-- A line as a recall leaves it, which all but some of its holders answer (R142): without its owner the copies left are clean. -/
def Line.recalled (l : Line) (keep : CoreId → Bool) : Line :=
  let hs := l.holders.filter keep
  let o := l.owner.filter keep
  { l with holders := hs, owner := o, state := if o.isSome || o == l.owner then (if hs = [] ∧ o = none then .i else l.state) else if hs = [] then .i else .s }

/-- The lines of a page are unpublished, and tracked copies outside the owner's cluster recalled (R160); requests from inside it are kept
out of the directory from then on. -/
def Coh.unpublish (c : Coh) (base size : Nat) (keep : CoreId → Bool) : Coh :=
  let c := (c.lines.filter fun l => inPage l.addr base size).foldl (fun c l =>
    (c.woken l.addr).setLine { (c.line l.addr).recalled keep with published := false, stamp := none }) c
  { c with reqs := c.reqs.map fun r => if inPage r.line base size ∧ keep r.core then { r with priv := true } else r }

/-- What a PUBLISH_RESET acts on (R160): the base and the size, and the cores of the owning team's cluster. DESIGN CHOICE (log 26): a size
that is not the leaf's stands for the lesser of the two, and an address that is not aligned to it is rounded down. -/
def resetPage (s : State) (n : Nat) (d : List Byte) : Option (Nat × Nat × (CoreId → Bool)) :=
  match pageSize (fieldAt d 2 1), (s.part n).ctx? (fieldAt d 1 1) with
  | some z, some c =>
    match walk s.ram.mem c.ptroot (fieldAt d 8 8) with
    | .leaf e _ size =>
      let home := ((ownerOf s n c.num (fieldAt d 8 8 / size * size) size).bind s.team?).bind Team.place?
      some (ptePpn e / size * size + (fieldAt d 8 8 % size) / z * z, min z size, fun x => home == some (x.die, x.cluster))
    | _ => none
  | _, _ => none

/-- The recall of a PUBLISH_RESET waits at a core outside the owner's cluster that holds a line of the page locked (R149). -/
def State.resetWaits (s : State) (m : Mbox) : Bool :=
  (resetPage s (mboxPart m) (mboxBytes m)).any fun x => (s.teams.flatMap Team.locked).any fun l => inPage l.1 x.1 x.2.1 && !x.2.2 l.2

/-- PUBLISH_RESET (R160). -/
def execPublishReset (m : Mbox) (s : State) : Out_ :=
  mbox (.publishReset m) m (.other false) ⟨16, [(3, 5)]⟩ s fun s d => forPart m s fun n =>
    if (pageSize (fieldAt d 2 1)).isNone then .status s stMalformed
    else
      match resetPage s n d with
      | none => .ok s []
      | some x => if s.resetWaits m then .wait s else .ok { s with coh := s.coh.unpublish x.1 x.2.1 x.2.2 } []

/-- STREAM_WINDOW (R188). -/
def execStreamWindow (m : Mbox) (s : State) : Out_ :=
  mboxHm (.streamWindow m) m (.other false) ⟨32, [(7, 1)]⟩ s fun s d =>
    let io := fieldAt d 0 1
    let w := fieldAt d 1 1
    let n := fieldAt d 2 1
    let x : StreamWin := ⟨(fieldAt d 6 1).testBit 0, n, fieldAt d 3 1, fieldAt d 4 2, fieldAt d 8 8, fieldAt d 16 8, fieldAt d 24 8⟩
    let ranges := x.data % 65536 = 0 ∧ x.len % 65536 = 0 ∧ x.len ≠ 0 ∧ x.flag % 4096 = 0 ∧ (s.part n).owns x.data x.len ∧ (s.part n).owns x.flag 4096
    if 2 ≤ io ∨ 8 ≤ w ∨ 16 ≤ n ∨ 2 ≤ fieldAt d 6 1 ∨ (x.enable ∧ ¬ranges) then .status s stMalformed
    else .ok (s.setIod io { s.iod io with wins := (s.iod io).wins.set w x }) []

/-- A communicator entry in its bytes (R304): none when it is refused. -/
def parseComm (devNum part len : Nat) (d : List Byte) : Option Comm :=
  let nr := fieldAt d 0 2
  let my := fieldAt d 2 2
  let tmo := fieldAt d 4 2
  let ranks := (List.range nr).map fun i => fieldAt d (16 + 4 * i) 4
  let own := (List.range nr).any fun i => i != my && ranks.getD i 0 == devNum % 65536 + 65536 * part
  if nr < 2 ∨ 256 < nr ∨ tmo = 0 ∨ nr ≤ my ∨ own ∨ fieldAt d 6 10 ≠ 0 ∨ len < 16 + 4 * nr ∨ ranks.any (fun r => decide (2 ^ 20 ≤ r)) then none
  else some ⟨nr, my, tmo, ranks.map fun r => (r % 65536, bitsOf r 19 16)⟩

/-- COMM_WRITE (R304): an entry with NR = 0 makes the communicator invalid. -/
def execCommWrite (m : Mbox) (s : State) : Out_ :=
  mbox (.commWrite m) m (.other false) ⟨24, [(2, 6)]⟩ s fun s d => forPart m s fun n =>
    let c := fieldAt d 1 1
    match parseComm s.dev.devNum n (m.len - 8) (d.drop 8) with
    | none => .status s stMalformed
    | some x => .ok (s.updPart n fun p => { p with comms := assocPut p.comms c x }) []

/-- LANDING_RING (R242). -/
def execLandingRing (m : Mbox) (s : State) : Out_ :=
  mbox (.landingRing m) m (.other false) ⟨16, [(2, 6)]⟩ s fun s d => forPart m s fun n =>
    let k := fieldAt d 1 1
    let a := fieldAt d 8 8
    if k < 2 ∨ 10 < k ∨ a % 65536 ≠ 0 ∨ !(s.part n).owns a (slotBytes * 2 ^ k) then .status s stMalformed
    else if !(s.part n).ringUsed.isEmpty then .status s stBusy
    else .ok (s.updPart n fun p => { p with ringN := some k, ringPa := a, ringNext := 0 }) []

/-! ## POWER (R214, R215, R218) -/

/-- The budgets of the partitions but for one, in W. -/
def State.budgets (s : State) (but : Nat) : Nat := sumOf (fun n => if n = but then 0 else ((s.part n).budget).getD 0) (List.range 16)

/-- BUDGET (R214). -/
def execBudget (m : Mbox) (s : State) : Out_ :=
  mboxHm (.budget m) m (.other false) ⟨8, [(1, 3)]⟩ s fun s d => forPart m s fun n =>
    let w := fieldAt d 4 4
    if 9000 * w < estimate s (s.part n) noPoints ∨ s.dev.cap < s.budgets n + w + s.dev.reserve then .status s stConflict
    else .ok (s.updPart n fun p => { p with budget := some w }).regrant []

/-- CAP (R214). -/
def execCap (m : Mbox) (s : State) : Out_ :=
  mboxHm (.cap m) m (.other false) ⟨4, []⟩ s fun s d =>
    let w := fieldAt d 0 4
    if w < 1200 ∨ 3600 < w then .status s stMalformed
    else if w < s.budgets 16 + s.dev.reserve then .status s stConflict
    else .ok { s with dev := { s.dev with cap := w } } []

/-- POWER_TABLE (R214, R215). -/
def execPowerTable (m : Mbox) (s : State) : Out_ :=
  mbox (.powerTable m) m (.other false) ⟨1, []⟩ s fun s d => forDie s d fun n =>
    .ok s (leBytes 4 (s.die n).staticMw ++ (s.die n).costs.flatMap fun row => row.flatMap (leBytes 4))

/-- CLKGNT of a cluster as GRANTS gives it (Table 18-3): TRIM against the cluster's request, that of its resident teams. -/
def grantsValue (s : State) (d c : Nat) : Nat :=
  let asked := (s.teams.filter fun t => t.resident && t.place? == some (d, c)).map fun t => t.clkreq.toNat
  let p := fun k => ((s.die d).grant k c).point
  let trim := (List.range 4).any fun k => asked.any fun r => decide (p k < reqPoint r k)
  p 0 + 8 * p 1 + 64 * p 2 + 512 * p 3 + (if trim then 2 ^ 14 else 0) + (if (s.die d).storm.isSome then 2 ^ 15 else 0)

/-- GRANTS (R214, R218). -/
def execGrants (m : Mbox) (s : State) : Out_ :=
  mbox (.grants m) m (.other false) ⟨1, []⟩ s fun s d => forDie s d fun n => .ok s ((List.range 9).flatMap fun c => leBytes 8 (grantsValue s n c))

/-- RESERVE (R214). -/
def execReserve (m : Mbox) (s : State) : Out_ := mbox (.reserve m) m (.other false) ⟨0, []⟩ s fun s _ => .ok s (leBytes 4 s.dev.reserve)

end Sys2Proof.Machine
end

