-- ==== Sys2Proof/Machine/MailSecurity.lean ====
section
/-! DEFINITION. Machine/MailSecurity.lean: the SECURITY, DEBUG and TELEMETRY requests (Tables 20-10 to 20-12; R226, R235, R253, R313, R406). -/

namespace Sys2Proof.Machine

/-! ## SECURITY -/

/-- An alarm record as ALARM_READ gives it. -/
def Alarm.bytes (a : Alarm) : List Byte :=
  leBytes 8 a.time ++ leBytes 1 a.cls ++ leBytes 1 a.iod ++ leBytes 1 a.part ++ leBytes 1 a.trigger ++ leBytes 20 0

/-- ALARM_READ (R235): the oldest 64 records. -/
def execAlarmRead (m : Mbox) (s : State) : Out_ :=
  mbox (.alarmRead m) m (.security true) ⟨0, []⟩ s fun s _ => .ok s ((s.dev.alarms.take 64).flatMap Alarm.bytes)

/-- IMAGE_LOAD (R253, R235): a refused image raises class A. -/
def execImageLoad (m : Mbox) (s : State) : Out_ :=
  mbox (.imageLoad m) m (.security false) ⟨20, [(1, 7)]⟩ s fun s d =>
    let img := s.ram.mem.getN (fieldAt d 8 8) (fieldAt d 16 4)
    let st := fieldAt d 0 1
    if s.badImage st img then .status (s.alarm classA 0 255 0) stDenied
    else .ok { s with dev := { s.dev with images := (st, img) :: s.dev.images.filter fun i => i.1 ≠ st } } []

/-- SVN_COMMIT (R253): the fuse SVN of a stage rises to that of an accepted image; a digest of none is DENIED. -/
def execSvnCommit (m : Mbox) (s : State) : Out_ :=
  mbox (.svnCommit m) m (.security false) ⟨56, [(1, 7)]⟩ s fun s d =>
    let st := fieldAt d 0 1
    match s.dev.images.find? fun i => i.1 = st && Config.digest i.2 == (d.drop 8).take 48 with
    | none => .status s stDenied
    | some i =>
      let rise := fun (x : Die) => { x with svn := assocPut x.svn st (max (Config.imageSvn i.2) ((assoc x.svn st).getD 0)) }
      .ok { s with dies := s.dies.map rise } []

/-- NONCE (Table 20-10). -/
def execNonce (m : Mbox) (s : State) : Out_ :=
  mbox (.nonce m) m (.security true) ⟨0, []⟩ s fun s _ =>
    let n := Config.freshNonce s.fresh
    .ok { s with fresh := s.fresh + 1, dev := { s.dev with nonces := n :: s.dev.nonces } } (padTo 32 (n.take 32))

/-- A nonce serves once: the latest is used up (Table 20-10). -/
def State.useNonce (s : State) : State := { s with dev := { s.dev with nonces := s.dev.nonces.drop 1 } }

/-- A failed unlock (R235): class A; the third against one partition within 1 hour is class B. -/
def State.unlockFailed (s : State) (n : Nat) : State :=
  let recent := s.dev.unlockFails.filter fun f => f.1 = n && decide (s.now < f.2 + 3600000000000)
  let t := { s with dev := { s.dev with unlockFails := (n, s.now) :: s.dev.unlockFails } }.alarm classA 0 n 1
  if recent.length = 2 ∧ n < 16 then
    { t with dev := { t.dev with unlockFails := t.dev.unlockFails.filter fun f => f.1 ≠ n } }.alarmB 0 n 1
  else t

/-- DEBUG_UNLOCK (R235): a credential over the latest nonce and the partition byte. -/
def execDebugUnlock (m : Mbox) (s : State) : Out_ :=
  mbox (.debugUnlock m) m (.security false) ⟨8, [(1, 7)]⟩ s fun s d =>
    let n := fieldAt d 0 1
    if (16 ≤ n ∧ n ≠ 255) ∨ 1032 < m.len then .status s stMalformed
    else if s.dev.nonces.any (fun x => some x == s.dev.nonces.head? && Config.credentialOk (d.drop 8) x n) then
      if n = 255 then .ok { s.useNonce with dev := { s.useNonce.dev with unlockedAll := true } } []
      else .ok (s.useNonce.updPart n fun p => { p with unlocked := true }) []
    else .status (s.useNonce.unlockFailed n) stDenied

/-- PROVISION (R235, R254): a bundle that verifies provisions the device; after a class C alarm the partitions' keys are drawn anew. -/
def execProvision (m : Mbox) (s : State) : Out_ :=
  mbox (.provision m) m (.security true) ⟨8, [(0, 8)]⟩ s fun s d =>
    if !Config.provisionOk (d.drop 8) then .status s stDenied
    else
      let draw := fun (s : State) n =>
        let x := s.drawKeys (s.part n).keyIds
        x.1.updPart n fun p => { p with keys := x.2 }
      let t := if s.dev.classC then (List.range 16).foldl draw s else s
      .ok { t.useNonce with dev := { t.useNonce.dev with provisioned := true, idKey := some (Config.provisionKey (d.drop 8)), classC := false } } []

/-- Two runs of KEYIDs have one in common. -/
def keysMeet (a m b n : Nat) : Bool := decide (a < b + n) && decide (b < a + m) && decide (0 < m) && decide (0 < n)

/-- KEY_ASSIGN (R406). -/
def execKeyAssign (m : Mbox) (s : State) : Out_ :=
  mbox (.keyAssign m) m (.security false) ⟨8, [(4, 4)]⟩ s fun s d => forPart m s fun n =>
    let a := fieldAt d 1 1
    let k := fieldAt d 2 2
    let p := s.part n
    if 256 < a + k then .status s stMalformed
    else if (List.range 16).any fun i => i != n && keysMeet a k (s.part i).keyFirst (s.part i).keyCount then .status s stConflict
    else if s.busyPart n then .status s stBusy
    else
      let new := ((List.range k).map fun i => a + i).filter fun i => !p.keyIds.contains i
      let x := s.drawKeys new
      let keep := p.keys.filter fun e => decide (a ≤ e.1) && decide (e.1 < a + k)
      let t := x.1.updPart n fun p => { p with keyFirst := a, keyCount := k, keys := keep ++ x.2 }
      let kept := t.underKeys ((t.parts.flatMap fun q => q.keys.map Prod.fst).filter fun i => !new.contains i)
      let t := if new.any s.dev.usedKeys.contains then t.scramble (some n) fun w => kept w || t.inTables w else t
      .ok { t with dev := { t.dev with usedKeys := (new ++ t.dev.usedKeys).eraseDups } } []

/-! ## DEBUG -/

/-- A debugger is attached to a context, or is not. -/
def State.setDebug (s : State) (n c : Nat) (b : Bool) : State := s.updCtx n c fun x => { x with debug := b }

/-- ATTACH (R313). -/
def execAttach (m : Mbox) (s : State) : Out_ :=
  mbox (.attach m) m (.other false) ⟨2, []⟩ s fun s d => forPart m s fun n =>
    if !(s.dev.unlockedAll || (s.part n).unlocked) then .status s stDenied else .ok (s.setDebug n (fieldAt d 1 1) true) []

/-- Halted groups that a predicate picks go on (R313); saved ones too. -/
def State.resumeIf (s : State) (p : Group → Bool) : State :=
  let one := fun (g : Group) => if p g then { g with halt := none } else g
  { s with groups := s.groups.map one, teams := s.teams.map fun t => { t with saved := t.saved.map one } }

/-- DETACH (R313). -/
def execDetach (m : Mbox) (s : State) : Out_ :=
  mbox (.detach m) m (.other false) ⟨2, []⟩ s fun s d => forPart m s fun n =>
    .ok ((s.setDebug n (fieldAt d 1 1) false).resumeIf fun g => g.key.team.part == n && g.ctx == fieldAt d 1 1) []

/-- The groups of a partition, saved ones too. -/
def State.allGroups (s : State) (n : Nat) : List Group :=
  (s.groups ++ s.teams.flatMap Team.saved).filter fun g => g.key.team.part = n

/-- HALT_LIST (R226). -/
def execHaltList (m : Mbox) (s : State) : Out_ :=
  mbox (.haltList m) m (.other false) ⟨1, []⟩ s fun s _ => forPart m s fun n =>
    .ok s (((s.allGroups n).filter fun g => g.halt.isSome).flatMap fun g =>
      leBytes 4 g.key.team.grid ++ leBytes 4 g.key.team.idx ++ leBytes 2 g.key.grp ++ leBytes 6 0)

/-- The group that a request names. -/
def namedGroup (n : Nat) (d : List Byte) : GroupKey := ⟨⟨n, fieldAt d 4 4, fieldAt d 8 4⟩, fieldAt d 12 2⟩

/-- The parked sub-groups of a group: the mask and the fault record of each (R35). -/
def Group.subGroups (g : Group) : List (Mask × Nat) :=
  (g.parks.map Park.id).eraseDups.map fun i => (Mask.ofLanes ((g.parks.filter fun p => p.id = i).map Park.lane), i)

/-- HALT_READ (R226, R313). -/
def execHaltRead (m : Mbox) (s : State) : Out_ :=
  mbox (.haltRead m) m (.other false) ⟨14, [(1, 3)]⟩ s fun s d => forPart m s fun n =>
    match (s.allGroups n).find? fun g => g.key = namedGroup n d && g.halt.isSome with
    | none => .status s stMalformed
    | some g =>
      let h := g.halt.getD ⟨0, 0, 0⟩
      .ok s (q8 h.pc ++ q8 h.act ++ leBytes 4 h.imm.toNat ++ leBytes 12 0 ++ padTo 512 (g.arch.pcs.flatMap q8) ++
        g.subGroups.flatMap fun x => q8 x.1 ++ leBytes 8 x.2)

/-- RESUME (R313). -/
def execResume (m : Mbox) (s : State) : Out_ :=
  mbox (.resume m) m (.other false) ⟨14, [(1, 3)]⟩ s fun s d => forPart m s fun n => .ok (s.resumeIf fun g => g.key == namedGroup n d) []

/-- FABRIC_MAP (R241). -/
def execFabricMap (m : Mbox) (s : State) : Out_ :=
  mbox (.fabricMap m) m (.other false) ⟨8, [(2, 6)]⟩ s fun s d =>
    let k := (m.len - 8) / 8
    if m.len % 8 ≠ 0 ∨ 500 < k then .status s stMalformed
    else
      .ok { s with dev := { s.dev with
        devNum := fieldAt d 0 2
        fabric := (List.range k).map fun i => (fieldAt d (8 + 8 * i) 2, fieldAt d (10 + 8 * i) 6) } } []

/-! ## TELEMETRY -/

/-- A log record as LOG_READ gives it. -/
def LogRec.bytes (r : LogRec) : List Byte := leBytes 8 r.time ++ leBytes 1 r.source ++ leBytes 1 r.part ++ leBytes 6 0 ++ padTo 48 r.details

/-- LOG_READ (R250): up to 62 records of a partition, or of the device, oldest first, which leave the log. -/
def execLogRead (m : Mbox) (s : State) : Out_ :=
  mbox (.logRead m) m (.other true) ⟨1, []⟩ s fun s _ =>
    if 16 ≤ mboxPart m ∧ mboxPart m ≠ 255 then .status s stMalformed
    else
      let l := (s.dev.log.filter fun r => r.part = mboxPart m).take 62
      .ok { s with dev := { s.dev with log := l.foldl (fun x r => x.erase r) s.dev.log } } (l.flatMap LogRec.bytes)

/-- COUNTERS (Table 20-12). -/
def execCounters (m : Mbox) (s : State) : Out_ :=
  mbox (.counters m) m (.other false) ⟨1, []⟩ s fun s d => forDie s d fun n =>
    let x := s.die n
    .ok s ((x.events ++ [x.restarts, x.storms, x.ecc] ++ s.dev.retries).flatMap (leBytes 8))

end Sys2Proof.Machine
end

