-- ==== Sys2Proof/Machine/Dispatch.lean ====
section
/-! DEFINITION. Machine/Dispatch.lean: one arm per row of the operation table, each a direct call of the row's meaning. -/

namespace Sys2Proof.Machine

/-- What an instruction or an event does. -/
def exec (i : Instr) (s : State) : Host.Outcome State Fault Refusal :=
  match i with
  | .nop c => Sys2Proof.Machine.execNop c s
  | .jmp c tslot off => Sys2Proof.Machine.execJmp c tslot off s
  | .jmpx c a => Sys2Proof.Machine.execJmpx c a s
  | .call c d tslot off => Sys2Proof.Machine.execCall c d tslot off s
  | .callx c d a => Sys2Proof.Machine.execCallx c d a s
  | .ret c a => Sys2Proof.Machine.execRet c a s
  | .exit c => Sys2Proof.Machine.execExit c s
  | .cede c => Sys2Proof.Machine.execCede c s
  | .dbrk c imm => Sys2Proof.Machine.execDbrk c imm s
  | .trap c imm => Sys2Proof.Machine.execTrap c imm s
  | .tret c => Sys2Proof.Machine.execTret c s
  | .holdw c sp hint ty d a b cmp e => Sys2Proof.Machine.execHoldw c sp hint ty d a b cmp e s
  | .iadd c sat ty d a b => Sys2Proof.Machine.execIadd c sat ty d a b s
  | .isub c sat ty d a b => Sys2Proof.Machine.execIsub c sat ty d a b s
  | .imul c ty d a b => Sys2Proof.Machine.execImul c ty d a b s
  | .imulh c ty d a b => Sys2Proof.Machine.execImulh c ty d a b s
  | .imad c ty d a b e => Sys2Proof.Machine.execImad c ty d a b e s
  | .imin c ty d a b => Sys2Proof.Machine.execImin c ty d a b s
  | .imax c ty d a b => Sys2Proof.Machine.execImax c ty d a b s
  | .iabs c sat ty d a => Sys2Proof.Machine.execIabs c sat ty d a s
  | .ineg c sat ty d a => Sys2Proof.Machine.execIneg c sat ty d a s
  | .and c ty d a b => Sys2Proof.Machine.execAnd c ty d a b s
  | .or c ty d a b => Sys2Proof.Machine.execOr c ty d a b s
  | .xor c ty d a b => Sys2Proof.Machine.execXor c ty d a b s
  | .not c ty d a => Sys2Proof.Machine.execNot c ty d a s
  | .shl c ty d a b => Sys2Proof.Machine.execShl c ty d a b s
  | .shr c ty d a b => Sys2Proof.Machine.execShr c ty d a b s
  | .sar c ty d a b => Sys2Proof.Machine.execSar c ty d a b s
  | .rot c ty d a b => Sys2Proof.Machine.execRot c ty d a b s
  | .bxt c ty d a pos len => Sys2Proof.Machine.execBxt c ty d a pos len s
  | .bins c ty d a b pos len => Sys2Proof.Machine.execBins c ty d a b pos len s
  | .bcnt c ty d a => Sys2Proof.Machine.execBcnt c ty d a s
  | .lzc c ty d a => Sys2Proof.Machine.execLzc c ty d a s
  | .tzc c ty d a => Sys2Proof.Machine.execTzc c ty d a s
  | .brvs c ty d a => Sys2Proof.Machine.execBrvs c ty d a s
  | .ixa c ty d a b sh => Sys2Proof.Machine.execIxa c ty d a b sh s
  | .icmp c cond ty d a b => Sys2Proof.Machine.execIcmp c cond ty d a b s
  | .sel c ty d p a b => Sys2Proof.Machine.execSel c ty d p a b s
  | .mov c ty d a => Sys2Proof.Machine.execMov c ty d a s
  | .movi c ty d imm => Sys2Proof.Machine.execMovi c ty d imm s
  | .movh c d imm => Sys2Proof.Machine.execMovh c d imm s
  | .bperm c d a b sel => Sys2Proof.Machine.execBperm c d a b sel s
  | .pand c op d a b => Sys2Proof.Machine.execPand c op d a b s
  | .cvt c rnd sat pack dty sty d a n => Sys2Proof.Machine.execCvt c rnd sat pack dty sty d a n s
  | .fadd c rnd ty d a b => Sys2Proof.Machine.execFadd c rnd ty d a b s
  | .fsub c rnd ty d a b => Sys2Proof.Machine.execFsub c rnd ty d a b s
  | .fmul c rnd ty d a b => Sys2Proof.Machine.execFmul c rnd ty d a b s
  | .ffma c rnd ty d a b e => Sys2Proof.Machine.execFfma c rnd ty d a b e s
  | .fmin c ty d a b => Sys2Proof.Machine.execFmin c ty d a b s
  | .fmax c ty d a b => Sys2Proof.Machine.execFmax c ty d a b s
  | .fcmp c cond ty d a b => Sys2Proof.Machine.execFcmp c cond ty d a b s
  | .fclass c ty d a => Sys2Proof.Machine.execFclass c ty d a s
  | .frnd c x rnd ty d a => Sys2Proof.Machine.execFrnd c x rnd ty d a s
  | .fscl c rnd ty d a n => Sys2Proof.Machine.execFscl c rnd ty d a n s
  | .frcp c rnd ty d a => Sys2Proof.Machine.execFrcp c rnd ty d a s
  | .frsq c rnd ty d a => Sys2Proof.Machine.execFrsq c rnd ty d a s
  | .fsqrt c rnd ty d a => Sys2Proof.Machine.execFsqrt c rnd ty d a s
  | .fex2 c rnd ty d a => Sys2Proof.Machine.execFex2 c rnd ty d a s
  | .flg2 c rnd ty d a => Sys2Proof.Machine.execFlg2 c rnd ty d a s
  | .fsin c rnd ty d a => Sys2Proof.Machine.execFsin c rnd ty d a s
  | .fcos c rnd ty d a => Sys2Proof.Machine.execFcos c rnd ty d a s
  | .ftnh c rnd ty d a => Sys2Proof.Machine.execFtnh c rnd ty d a s
  | .mxadd c rnd ty d a b => Sys2Proof.Machine.execMxadd c rnd ty d a b s
  | .mxmul c rnd ty d a b => Sys2Proof.Machine.execMxmul c rnd ty d a b s
  | .mxfma c rnd ty d a b e => Sys2Proof.Machine.execMxfma c rnd ty d a b e s
  | .mxnorm c rnd ty d a => Sys2Proof.Machine.execMxnorm c rnd ty d a s
  | .mxpack c rnd ty d a => Sys2Proof.Machine.execMxpack c rnd ty d a s
  | .mxunpk c rnd ty d a n => Sys2Proof.Machine.execMxunpk c rnd ty d a n s
  | .scmovGet c d a => Sys2Proof.Machine.execScmovGet c d a s
  | .scmovPut c d a => Sys2Proof.Machine.execScmovPut c d a s
  | .cbld c slot addr => Sys2Proof.Machine.execCbld c slot addr s
  | .cbxp c ty d a slot q => Sys2Proof.Machine.execCbxp c ty d a slot q s
  | .lxch c mode ty d a b => Sys2Proof.Machine.execLxch c mode ty d a b s
  | .lvote c mode d a => Sys2Proof.Machine.execLvote c mode d a s
  | .lred c op ty d a => Sys2Proof.Machine.execLred c op ty d a s
  | .lscn c ex op ty d a => Sys2Proof.Machine.execLscn c ex op ty d a s
  | .getl c ty d a n => Sys2Proof.Machine.execGetl c ty d a n s
  | .putl c ty d a n => Sys2Proof.Machine.execPutl c ty d a n s
  | .ld c sp hint ty d t1 t2 t3 => Sys2Proof.Machine.execLd c sp hint ty d t1 t2 t3 s
  | .st c sp hint ty v t1 t2 t3 => Sys2Proof.Machine.execSt c sp hint ty v t1 t2 t3 s
  | .pref c sp hint ty t1 t2 t3 => Sys2Proof.Machine.execPref c sp hint ty t1 t2 t3 s
  | .llock c sp t1 t2 => Sys2Proof.Machine.execLlock c sp t1 t2 s
  | .lunlk c sp t1 t2 => Sys2Proof.Machine.execLunlk c sp t1 t2 s
  | .atom c op ord scope sp ty d a b opnd => Sys2Proof.Machine.execAtom c op ord scope sp ty d a b opnd s
  | .acas c scope sp ty d a b cmp => Sys2Proof.Machine.execAcas c scope sp ty d a b cmp s
  | .ldacq c sp scope ty d t1 t2 t3 => Sys2Proof.Machine.execLdacq c sp scope ty d t1 t2 t3 s
  | .strel c sp scope ty v t1 t2 t3 => Sys2Proof.Machine.execStrel c sp scope ty v t1 t2 t3 s
  | .fence c kind scope => Sys2Proof.Machine.execFence c kind scope s
  | .xfence c src dst scope => Sys2Proof.Machine.execXfence c src dst scope s
  | .stref c sp hint v t1 t2 t3 => Sys2Proof.Machine.execStref c sp hint v t1 t2 t3 s
  | .ldref c sp hint d t1 t2 t3 pt => Sys2Proof.Machine.execLdref c sp hint d t1 t2 t3 pt s
  | .pub c scope v t1 t2 => Sys2Proof.Machine.execPub c scope v t1 t2 s
  | .objinit c a len => Sys2Proof.Machine.execObjinit c a len s
  | .kld c k addr => Sys2Proof.Machine.execKld c k addr s
  | .kset c k sel v => Sys2Proof.Machine.execKset c k sel v s
  | .tld c hint k tgt coord => Sys2Proof.Machine.execTld c hint k tgt coord s
  | .tst c hint k tgt coord => Sys2Proof.Machine.execTst c hint k tgt coord s
  | .gath c hint k tgt coord list => Sys2Proof.Machine.execGath c hint k tgt coord list s
  | .scat c hint k tgt coord list => Sys2Proof.Machine.execScat c hint k tgt coord list s
  | .coll c d desc => Sys2Proof.Machine.execColl c d desc s
  | .qcfg c q desc => Sys2Proof.Machine.execQcfg c q desc s
  | .qacq c d q n => Sys2Proof.Machine.execQacq c d q n s
  | .qcommit c q n => Sys2Proof.Machine.execQcommit c q n s
  | .qwait c d q n => Sys2Proof.Machine.execQwait c d q n s
  | .qfree c q n => Sys2Proof.Machine.execQfree c q n s
  | .brsv c b sa sb => Sys2Proof.Machine.execBrsv c b sa sb s
  | .bfree c b => Sys2Proof.Machine.execBfree c b s
  | .cvset c cr imm => Sys2Proof.Machine.execCvset c cr imm s
  | .tmac c n ty z bq vb cr p => Sys2Proof.Machine.execTmac c n ty z bq vb cr p s
  | .zclr c z => Sys2Proof.Machine.execZclr c z s
  | .zmovToVector c ty d z pos => Sys2Proof.Machine.execZmovToVector c ty d z pos s
  | .zmovToTile c ty v z pos => Sys2Proof.Machine.execZmovToTile c ty v z pos s
  | .zcpyToScratchpad c ty addr z rows => Sys2Proof.Machine.execZcpyToScratchpad c ty addr z rows s
  | .zcpyToTile c ty addr z rows => Sys2Proof.Machine.execZcpyToTile c ty addr z rows s
  | .zprom c z => Sys2Proof.Machine.execZprom c z s
  | .gsync c => Sys2Proof.Machine.execGsync c s
  | .barinit c id count => Sys2Proof.Machine.execBarinit c id count s
  | .bararv c id => Sys2Proof.Machine.execBararv c id s
  | .barwt c id => Sys2Proof.Machine.execBarwt c id s
  | .barsync c id => Sys2Proof.Machine.execBarsync c id s
  | .wqenq c p booth first => Sys2Proof.Machine.execWqenq c p booth first s
  | .wqdeq c p booth first => Sys2Proof.Machine.execWqdeq c p booth first s
  | .schnxt c p d => Sys2Proof.Machine.execSchnxt c p d s
  | .launch c p booth blk => Sys2Proof.Machine.execLaunch c p booth blk s
  | .narm c p tag blk => Sys2Proof.Machine.execNarm c p tag blk s
  | .nsend c d first => Sys2Proof.Machine.execNsend c d first s
  | .getsr c ty d r => Sys2Proof.Machine.execGetsr c ty d r s
  | .setsr c r a => Sys2Proof.Machine.execSetsr c r a s
  | .vdhop c d a b => Sys2Proof.Machine.execVdhop c d a b s
  | .clkq c d dom => Sys2Proof.Machine.execClkq c d dom s
  | .fetchDecision g => Sys2Proof.Machine.execFetchDecision g s
  | .guardTurn g => Sys2Proof.Machine.execGuardTurn g s
  | .translationProbe g => Sys2Proof.Machine.execTranslationProbe g s
  | .executeComplete g seq => Sys2Proof.Machine.execExecuteComplete g seq s
  | .retire g => Sys2Proof.Machine.execRetire g s
  | .branchRecovery g seq => Sys2Proof.Machine.execBranchRecovery g seq s
  | .trapDelivery g => Sys2Proof.Machine.execTrapDelivery g s
  | .checkpointVerify g => Sys2Proof.Machine.execCheckpointVerify g s
  | .effectRelease g => Sys2Proof.Machine.execEffectRelease g s
  | .engineResume g seq => Sys2Proof.Machine.execEngineResume g seq s
  | .heldEffectArrival g seq => Sys2Proof.Machine.execHeldEffectArrival g seq s
  | .squashMessage g seq => Sys2Proof.Machine.execSquashMessage g seq s
  | .sensorRestart cores ty => Sys2Proof.Machine.execSensorRestart cores ty s
  | .droopRecoveryInterval die => Sys2Proof.Machine.execDroopRecoveryInterval die s
  | .holdwWake g => Sys2Proof.Machine.execHoldwWake g s
  | .cedeExpiry g => Sys2Proof.Machine.execCedeExpiry g s
  | .groupRetire g => Sys2Proof.Machine.execGroupRetire g s
  | .matrixOperationIssue t rank => Sys2Proof.Machine.execMatrixOperationIssue t rank s
  | .matrixOperationComplete t rank => Sys2Proof.Machine.execMatrixOperationComplete t rank s
  | .reservationInvalidate t rank b => Sys2Proof.Machine.execReservationInvalidate t rank b s
  | .ownershipGrant core line => Sys2Proof.Machine.execOwnershipGrant core line s
  | .homeRequest core line => Sys2Proof.Machine.execHomeRequest core line s
  | .coherenceProbe core line => Sys2Proof.Machine.execCoherenceProbe core line s
  | .invalidationAck core line => Sys2Proof.Machine.execInvalidationAck core line s
  | .loadReturn g seq => Sys2Proof.Machine.execLoadReturn g seq s
  | .stampSweep die slice => Sys2Proof.Machine.execStampSweep die slice s
  | .bankSleep die slice => Sys2Proof.Machine.execBankSleep die slice s
  | .bankWake die slice => Sys2Proof.Machine.execBankWake die slice s
  | .linkDown link => Sys2Proof.Machine.execLinkDown link s
  | .machineCheck u => Sys2Proof.Machine.execMachineCheck u s
  | .widenAnswer line die cluster => Sys2Proof.Machine.execWidenAnswer line die cluster s
  | .narrowReleaseComplete die cluster gen => Sys2Proof.Machine.execNarrowReleaseComplete die cluster gen s
  | .droverWalkResume g => Sys2Proof.Machine.execDroverWalkResume g s
  | .migrationComplete id => Sys2Proof.Machine.execMigrationComplete id s
  | .migrationAbort id => Sys2Proof.Machine.execMigrationAbort id s
  | .hostTlbInvalidate pasid va size => Sys2Proof.Machine.execHostTlbInvalidate pasid va size s
  | .tlbSyncAnswer id => Sys2Proof.Machine.execTlbSyncAnswer id s
  | .launchCopy part booth => Sys2Proof.Machine.execLaunchCopy part booth s
  | .dependenceEvaluation part => Sys2Proof.Machine.execDependenceEvaluation part s
  | .priorityAging part booth => Sys2Proof.Machine.execPriorityAging part booth s
  | .teamPlace part grid cores => Sys2Proof.Machine.execTeamPlace part grid cores s
  | .completionAction part grid => Sys2Proof.Machine.execCompletionAction part grid s
  | .gangReserve part booth => Sys2Proof.Machine.execGangReserve part booth s
  | .gangReserveTimeout => Sys2Proof.Machine.execGangReserveTimeout s
  | .gangRetry part booth => Sys2Proof.Machine.execGangRetry part booth s
  | .leaseRenew => Sys2Proof.Machine.execLeaseRenew s
  | .leaseLapse healthy => Sys2Proof.Machine.execLeaseLapse healthy s
  | .grantTakeEffect die cluster dom => Sys2Proof.Machine.execGrantTakeEffect die cluster dom s
  | .loadstepAssert die => Sys2Proof.Machine.execLoadstepAssert die s
  | .loadstepLeadExpiry die ldack => Sys2Proof.Machine.execLoadstepLeadExpiry die ldack s
  | .ldackAssert die => Sys2Proof.Machine.execLdackAssert die s
  | .preemptSave t => Sys2Proof.Machine.execPreemptSave t s
  | .fatalReset part => Sys2Proof.Machine.execFatalReset part s
  | .partitionReady part => Sys2Proof.Machine.execPartitionReady part s
  | .dmaTransferStart part queue => Sys2Proof.Machine.execDmaTransferStart part queue s
  | .dmaChunkRelease part queue => Sys2Proof.Machine.execDmaChunkRelease part queue s
  | .dmaComplete part queue => Sys2Proof.Machine.execDmaComplete part queue s
  | .coalescingControlWrite part vec val => Sys2Proof.Machine.execCoalescingControlWrite part vec val s
  | .msixTimerExpiry part vec => Sys2Proof.Machine.execMsixTimerExpiry part vec s
  | .wharfAbortReceive h comm seq => Sys2Proof.Machine.execWharfAbortReceive h comm seq s
  | .wharfAck part dst seq => Sys2Proof.Machine.execWharfAck part dst seq s
  | .messageAckTimeout part dst seq => Sys2Proof.Machine.execMessageAckTimeout part dst seq s
  | .collComplete part comm seq blocks => Sys2Proof.Machine.execCollComplete part comm seq blocks s
  | .collTimeout part comm seq lowest => Sys2Proof.Machine.execCollTimeout part comm seq lowest s
  | .wharfCredit part dst => Sys2Proof.Machine.execWharfCredit part dst s
  | .descWrite m => Sys2Proof.Machine.execDescWrite m s
  | .descRead m => Sys2Proof.Machine.execDescRead m s
  | .boothWrite m => Sys2Proof.Machine.execBoothWrite m s
  | .gangMask m => Sys2Proof.Machine.execGangMask m s
  | .ctxCreate m => Sys2Proof.Machine.execCtxCreate m s
  | .ctxDestroy m => Sys2Proof.Machine.execCtxDestroy m s
  | .gridList m => Sys2Proof.Machine.execGridList m s
  | .preemptSpace m => Sys2Proof.Machine.execPreemptSpace m s
  | .preemptTime m => Sys2Proof.Machine.execPreemptTime m s
  | .kill m => Sys2Proof.Machine.execKill m s
  | .reset m => Sys2Proof.Machine.execReset m s
  | .dmaqWrite m => Sys2Proof.Machine.execDmaqWrite m s
  | .dieMap m => Sys2Proof.Machine.execDieMap m s
  | .windowInfo m => Sys2Proof.Machine.execWindowInfo m s
  | .faultRead m => Sys2Proof.Machine.execFaultRead m s
  | .faultReply m => Sys2Proof.Machine.execFaultReply m s
  | .invalidate m => Sys2Proof.Machine.execInvalidate m s
  | .migrate m => Sys2Proof.Machine.execMigrate m s
  | .publishReset m => Sys2Proof.Machine.execPublishReset m s
  | .streamWindow m => Sys2Proof.Machine.execStreamWindow m s
  | .commWrite m => Sys2Proof.Machine.execCommWrite m s
  | .landingRing m => Sys2Proof.Machine.execLandingRing m s
  | .budget m => Sys2Proof.Machine.execBudget m s
  | .cap m => Sys2Proof.Machine.execCap m s
  | .powerTable m => Sys2Proof.Machine.execPowerTable m s
  | .grants m => Sys2Proof.Machine.execGrants m s
  | .reserve m => Sys2Proof.Machine.execReserve m s
  | .alarmRead m => Sys2Proof.Machine.execAlarmRead m s
  | .imageLoad m => Sys2Proof.Machine.execImageLoad m s
  | .svnCommit m => Sys2Proof.Machine.execSvnCommit m s
  | .nonce m => Sys2Proof.Machine.execNonce m s
  | .debugUnlock m => Sys2Proof.Machine.execDebugUnlock m s
  | .provision m => Sys2Proof.Machine.execProvision m s
  | .keyAssign m => Sys2Proof.Machine.execKeyAssign m s
  | .attach m => Sys2Proof.Machine.execAttach m s
  | .detach m => Sys2Proof.Machine.execDetach m s
  | .haltList m => Sys2Proof.Machine.execHaltList m s
  | .haltRead m => Sys2Proof.Machine.execHaltRead m s
  | .resume m => Sys2Proof.Machine.execResume m s
  | .fabricMap m => Sys2Proof.Machine.execFabricMap m s
  | .logRead m => Sys2Proof.Machine.execLogRead m s
  | .counters m => Sys2Proof.Machine.execCounters m s
  | .vfReset port vf => Sys2Proof.Machine.execVfReset port vf s
  | .tamperMeshBreach iod => Sys2Proof.Machine.execTamperMeshBreach iod s
  | .supplyGlitch iod => Sys2Proof.Machine.execSupplyGlitch iod s
  | .clockGlitch iod => Sys2Proof.Machine.execClockGlitch iod s
  | .ideIntegrityFailure port stream => Sys2Proof.Machine.execIdeIntegrityFailure port stream s
  | .ideKeyProgram port stream key => Sys2Proof.Machine.execIdeKeyProgram port stream key s
  | .spdmRequest port fn nonce => Sys2Proof.Machine.execSpdmRequest port fn nonce s
  | .linkTrain port proto width gts => Sys2Proof.Machine.execLinkTrain port proto width gts s
  | .packageReset => Sys2Proof.Machine.execPackageReset s
  | .boothEnq part booth req aligned data => Sys2Proof.Machine.execBoothEnq part booth req aligned data s
  | .dmaDescriptorSubmit part queue req aligned data => Sys2Proof.Machine.execDmaDescriptorSubmit part queue req aligned data s
  | .iodSensorEvent iod => Sys2Proof.Machine.execIodSensorEvent iod s
  | .streamWrite w => Sys2Proof.Machine.execStreamWrite w s
  | .wharfMessageReceive h payload => Sys2Proof.Machine.execWharfMessageReceive h payload s
  | .registerWrite to_ offset data => Sys2Proof.Machine.execRegisterWrite to_ offset data s
  | .peerAccess w => Sys2Proof.Machine.execPeerAccess w s
  | .linkRetry link => Sys2Proof.Machine.execLinkRetry link s

end Sys2Proof.Machine
end

