-- ==== Sys2Proof/Machine/Next.lean ====
section
/-! DEFINITION. Machine/Next.lean: the event that comes about next of itself when the agenda names none. The manual fixes no
order among events of different units; this order is one of those it allows (log 3). What comes from outside the device (a restart, a
peer's message, a request) is on the agenda only. -/

namespace Sys2Proof.Machine

/-- Events with the times at which they are due. -/
abbrev Due := List (Nat × Instr)

/-- An event that is due at a time when a condition holds. -/
def dueAt (c : Bool) (t : Nat) (i : Instr) : Due := if c then [(t, i)] else []

/-- An event changes its partition or the device. -/
def State.changes (s : State) (part : Nat) : Out_ → Bool
  | .next t => t.part part != s.part part || t.dev != s.dev
  | _ => false

/-! ## A group -/

/-- An entry that can finish now. -/
def State.canExecute (s : State) (g : Group) (e : Entry) : Bool :=
  !e.executed && match g.cmds.find? fun c => c.seq = e.seq with
    | some c => !c.paused && !g.depWaits e.seq && !s.engineWaits g c && !s.falling g.key.team.part
    | none => !s.entryWaits g e.seq

/-- A paused command that finds quarantine entries. -/
def State.canResume (s : State) (g : Group) (c : Cmd) : Bool :=
  c.paused && !s.engineWaits g c && !s.falling g.key.team.part &&
    !(s.fits g c).1.isEmpty

/-- A trap that can take its next step. -/
def Group.canTrap (g : Group) : Bool :=
  (g.trap.orElse fun _ => g.badPark).isSome && g.halt.isNone &&
    match g.cut, g.commit with
    | some _, _ => true
    | none, none => g.trap.isNone || (g.rob.isEmpty && decide (g.unverified < Config.maxUnverified))
    | none, some c => c.run == 0 && g.verifiedAt c.seq && g.drained

/-- The release of the oldest staged effect. -/
def State.nextRelease (s : State) (g : Group) : Due :=
  match g.staged with
  | [] => []
  | e :: _ =>
    match g.relTime e with
    | none => []
    | some t => dueAt (decide (s.now < t) || s.releasable g || !(s.lostLines g e).isEmpty) t (.effectRelease g.key)

/-- The verification of the oldest unverified checkpoint. -/
def Group.nextVerify (g : Group) : Due :=
  match (g.ckpts.find? fun c => !c.verified).bind Ckpt.complete with
  | some t => [(t + Config.window, .checkpointVerify g.key)]
  | none => []

/-- The events of a group. -/
def State.groupDue (s : State) (g : Group) : Due :=
  let k := g.key
  let n := s.now
  ((g.rob.filter (s.canExecute g)).map fun e => (n, .executeComplete k e.seq)) ++
    dueAt (g.rob.head?.any g.canRetire) n (.retire k) ++
    ((g.cmds.filter (s.canResume g)).map fun c => (n, .engineResume k c.seq)) ++
    ((g.staged.filter fun e => e.away && !e.held && !s.farRoute g e && (g.relTime e).isSome).map fun e => (n, .heldEffectArrival k e.seq)) ++
    s.nextRelease g ++ g.nextVerify ++
    dueAt (g.canTrap && !s.falling k.team.part) n (.trapDelivery k) ++
    ((g.loads.filter fun l => l.2.all (s.lineHere g.core) || l.2.any (s.lineLost g.core false)).map fun l => (n, .loadReturn k l.1)) ++
    dueAt (g.walk.any Walk.ready) n (.droverWalkResume k) ++
    ((g.holds.filter fun h => !h.woken).map fun h => (h.until_, .holdwWake k)) ++
    dueAt (g.ceded != 0) (s.cedeEnd g) (.cedeExpiry k) ++
    dueAt (g.over && !s.falling k.team.part) n (.groupRetire k)

/-! ## Teams, coherence, dies -/

/-- When the rate of a limited step admits another engine (R220). -/
def Die.nextAdmit (d : Die) (now : Nat) : Option Nat :=
  ((d.admits.map fun t => t.1 + 1000).filter fun t => decide (now < t)).foldl (fun o t => some (min t (o.getD t))) none

/-- The events of a core rank of a team. -/
def State.rankDue (s : State) (k : TeamKey) (i : Nat) (r : Rank) : Due :=
  let core := s.coreOf k i
  let ready := (s.opReady k i).isSome
  let may := s.mayStart core.die core.cluster
  dueAt (r.ops.any MatOp.started) s.now (.matrixOperationComplete k i) ++
    dueAt (ready && may) s.now (.matrixOperationIssue k i) ++
    (if ready && !may then ((s.die core.die).nextAdmit s.now).toList.map fun t => (t, .matrixOperationIssue k i) else []) ++
    ((r.b.filter fun y => y.2.marked && y.2.freed && !r.reads y.1).map fun y => (s.now, .reservationInvalidate k i y.1))

/-- The events of a team. -/
def State.teamDue (s : State) (t : Team) : Due :=
  if !t.resident then []
  else
    (t.ranks.zipIdx.flatMap fun r => s.rankDue t.key r.2 r.1) ++
      dueAt (t.status == .saving && s.changes t.key.part (execPreemptSave t.key s)) s.now (.preemptSave t.key)

/-- A core keeps a line for the effect it will release next, whose time is fixed (R189 leaves the moment of the answer open). -/
def State.keeps (s : State) (core : CoreId) (line : Nat) : Bool :=
  s.groups.any fun g => g.core = core && match g.staged with
    | [] => false
    | e :: _ => (g.relTime e).isSome && e.ownLines.contains line && s.holderReady g e

/-- The events of the home slices. Probes are answered every 16 ns, so that a line does not pass between cores in no time. -/
def State.homeDue (s : State) (r : HomeReq) : Due :=
  let free := r.stage == .sent && !s.arriving r.line && !s.coh.reqs.any fun q => q.line = r.line && q.stage == .probing
  dueAt free s.now (.homeRequest r.core r.line) ++
    (r.acks.map fun c => (s.now, .invalidationAck c r.line)) ++
    dueAt (s.grantable r) s.now (.ownershipGrant r.core r.line) ++
    (if r.stage == .probing then
      (r.wait.filter fun c => !((s.lockOf r.line).any fun l => l.2 == c) && !s.keeps c r.line).map fun c =>
        ((s.now / 16 + 1) * 16, .coherenceProbe c r.line)
     else [])

/-- The other events of coherence and translation. -/
def State.cohDue (s : State) : Due :=
  (s.coh.reqs.flatMap s.homeDue) ++
    ((s.coh.narrows.filter Narrow.asked).map fun n => (s.now, .widenAnswer n.line n.die n.cluster)) ++
    ((s.coh.syncs.filter fun y => y.waits.all s.performed).map fun y => (s.now, .tlbSyncAnswer y.id)) ++
    ((s.coh.migs.filter fun m => !s.pageLocked m.src m.size).map fun m => (s.now, .migrationComplete m.id))

/-- A matrix operation of a die waits for a step of activity to be announced (R220). -/
def State.wantsStep (s : State) (i : Nat) : Bool :=
  s.crossing i && s.teams.any fun t =>
    (t.place?.map Prod.fst) == some i && (List.range t.ranks.length).any fun r => (s.opReady t.key r).isSome

/-- The events of a die's clocks. -/
def State.dieDue (s : State) (i : Nat) : Due :=
  let d := s.die i
  let late := fun (g : Grant) => g.point != g.target
  let math := (List.range 9).filter fun c => let g := d.grant 0 c; late g && (decide (g.target < g.point) || d.mayRaise c g.target)
  let at_ := fun c => if s.admits i (s.raiseAmps i c (d.grant 0 c)) then s.now else (d.nextAdmit s.now).getD s.now
  (math.map fun c => (at_ c, .grantTakeEffect i c .math)) ++
    (((List.range 9).filter fun c => late (d.grant 1 c)).map fun c => (s.now, .grantTakeEffect i c .vec)) ++
    dueAt (late d.net) s.now (.grantTakeEffect i 0 .net) ++ dueAt (late d.mem) s.now (.grantTakeEffect i 0 .mem) ++
    dueAt (d.lead.isNone && (!d.raising.isEmpty || s.wantsStep i)) s.now (.loadstepAssert i) ++
    (d.lead.toList.map fun t => ((t.end_ + 99) / 100 * 100, .loadstepLeadExpiry i true)) ++
    (match d.storm with
      | some (some t) => [(t + 10000000, .droopRecoveryInterval i)]
      | _ => [])

/-! ## Partitions -/

/-- The events of a booth. -/
def State.boothDue (s : State) (p n : Nat) (b : Booth) : Due :=
  let go := fun t (o : Out_) i => dueAt (decide (s.now < t) || s.changes p o) (max t s.now) i
  dueAt (!b.entries.isEmpty && s.changes p (execLaunchCopy p n s)) s.now (.launchCopy p n) ++
    match b.waits with
    | [] => []
    | w :: _ =>
      dueAt (w.since.isSome && decide (w.level < 3)) (w.raised + 10000000) (.priorityAging p n) ++
        (if w.blk.gang = 0 then []
         else dueAt (s.changes p (execGangReserve p n s)) s.now (.gangReserve p n) ++
          (if w.tries = 0 then [] else go w.retryAt (execGangRetry p n s) (.gangRetry p n)))

/-- The events of a DMA queue. -/
def State.dmaDue (s : State) (p n : Nat) (q : DmaQueue) : Due :=
  match q.cur with
  | none => dueAt (!q.descs.isEmpty) s.now (.dmaTransferStart p n)
  | some x =>
    if x.ended then dueAt (s.changes p (execDmaComplete p n s)) s.now (.dmaComplete p n)
    else
      let t := x.at_ + Config.window
      dueAt (decide (s.now < t) || s.changes p (execDmaChunkRelease p n s)) t (.dmaChunkRelease p n)

/-- The events of a message (R243, R372). -/
def State.sendDue (s : State) (p : Nat) (m : Send) : Due :=
  let d := destNo m.dev m.part
  match m.sentAt with
  | none => dueAt (s.changes p (execWharfCredit p d s)) s.now (.wharfCredit p d)
  | some t => [(t + 1000000, .messageAckTimeout p d m.seq)]

/-- The events of a collective (R234, R307): a peer has aborted it, or its time is over. No rank but this one is known to have come. -/
def State.collDue (s : State) (p : Nat) (o : CollOp) : Due :=
  match assoc (s.part p).comms o.comm with
  | none => []
  | some c =>
    let t := o.start + 1000000 * c.tmo
    let low := if c.my = 0 then 1 else 0
    dueAt (o.fate.isSome && s.changes p (execCollComplete p o.comm o.seq [] s)) s.now (.collComplete p o.comm o.seq []) ++
      dueAt (decide (s.now < t) || s.changes p (execCollTimeout p o.comm o.seq low s)) t (.collTimeout p o.comm o.seq low)

/-- A partition has something that its own events could move. -/
def Part.busy (p : Part) : Bool := p.booths.any fun b => !b.entries.isEmpty || !b.waits.isEmpty

/-- The events of a partition. -/
def State.partDue (s : State) (n : Nat) : Due :=
  let p := s.part n
  let reset := match p.resetAt with
    | some t => if p.dropped then dueAt (!s.dev.classC) (t + 1000000) (.partitionReady n) else [(t, .fatalReset n)]
    | none => []
  let next := p.gridNo
  reset ++
    (p.grids.flatMap fun g => dueAt (s.changes n (execCompletionAction n g.num s)) s.now (.completionAction n g.num)) ++
    dueAt (s.dev.gangs.any fun a => a.part == n && a.left.isEmpty && !finishBusy s n a.ctx a.blk) s.now (.completionAction n next) ++
    (if p.busy then
      (p.booths.zipIdx.flatMap fun b => s.boothDue n b.2 b.1) ++
        dueAt (s.deps n != s) ((s.now + 19999) / 20000 * 20000) (.dependenceEvaluation n) ++
        dueAt (s.changes n (execTeamPlace n next [] s)) s.now (.teamPlace n next [])
     else []) ++
    (p.grids.flatMap fun g => dueAt (s.changes n (execTeamPlace n g.num [] s)) s.now (.teamPlace n g.num [])) ++ (p.queues.zipIdx.flatMap fun q => s.dmaDue n q.2 q.1) ++
    (match p.posted with
      | [] => []
      | x :: _ => dueAt (decide (s.now < x.at_ + Config.window) || s.changes n (execDmaChunkRelease n streamQueue s)) (x.at_ + Config.window) (.dmaChunkRelease n streamQueue)) ++
    (p.vectors.zipIdx.flatMap fun m => dueAt (!m.1.masked && decide (0 < m.1.pend)) (m.1.oldest + 1000 * m.1.timer) (.msixTimerExpiry n m.2)) ++
    (p.sends.flatMap (s.sendDue n)) ++ p.colls.flatMap (s.collDue n)

/-- A request that waits on still: a PUBLISH_RESET for a locked line (R149). -/
def State.stillHeld (s : State) (i : Instr) : Bool :=
  match i with
  | .publishReset m => s.resetWaits m
  | _ => false

/-- The request that is served first of those that wait: nothing of its mailbox with a lower SEQ is before it (R245). -/
def State.nextHeld (s : State) : List Instr :=
  ((s.dev.held.find? fun h => !s.behind h.1 && !s.stillHeld h.2).map Prod.snd).toList

/-- The events of the harbourmaster (R211, R212): its lease is renewed every 10 ms; requests held by a takeover are served after it. -/
def State.devDue (s : State) : Due :=
  (match s.dev.takeover with
    | some t => [(t, .leaseRenew)]
    | none => [(s.dev.lease - 30000000, .leaseRenew)]) ++
    (if s.dev.takeover.isNone then s.nextHeld.map fun i => (s.now, i) else []) ++
    match s.dev.gangResv with
    | some r =>
      let t := r.start + 100000
      dueAt (decide (s.now < t) || s.changes r.part (execGangReserveTimeout s)) t .gangReserveTimeout
    | none => []

/-! ## The next event -/

/-- Every event that can come about of itself. -/
def State.allDue (s : State) : Due :=
  (s.groups.flatMap s.groupDue) ++ (s.teams.flatMap s.teamDue) ++ s.cohDue ++ ((List.range 16).flatMap s.partDue) ++
    ((List.range 4).flatMap s.dieDue) ++ s.devDue

/-- The first of the events that are due earliest. -/
def earliest : Due → Option (Nat × Instr)
  | [] => none
  | e :: r =>
    match earliest r with
    | some f => if f.1 < e.1 then some f else some e
    | none => some e

/-- The next event, with the time at which it is due. -/
def State.nextEvent (s : State) : Option (Nat × Instr) := earliest s.allDue

end Sys2Proof.Machine
end

