-- ==== Sys2Proof/Machine/Run.lean ====
section
/-! DEFINITION. Machine/Run.lean: what one step runs. A fetched word runs; else the agenda's next event comes about; else a group that
the agenda's side has pinned fetches and runs; else an event that is due, an instruction of a ready group, or the next event of all
(log 3). -/

namespace Sys2Proof.Machine

/-- Run a fetched word (R278). -/
def runFetched (s : State) (f : Fetched) : Out_ :=
  let s := { s with latch := none, issue := some f.issue }
  if !f.parity then runParity s (ctlOf f.word)
  else
    match decode f.word with
    | .error r => runIllegal s (ctlOf f.word) r.cause
    | .ok i => if f.lineOk then exec i s else runIllegal s (ctlOf f.word) 0x02

/-! ## Threads whose wait may be over (R28) -/

/-- What serving a run would give, with its threads no longer found waiting or held. -/
def State.tryRun (s : State) (g : Group) (run : Mask) (pc : Dword) : State × Option State :=
  let g := { g with blocked := g.blocked &&& ~~~run, coll := g.coll &&& ~~~run, look := g.look &&& ~~~run }
  let t := s.setGroup g
  let u := fetchRun t g run pc
  (t, match u.latch with
    | none => some u
    | some f => match runFetched u f with
      | .next x => some x
      | _ => none)

/-- Look again at a run whose wait may be over: if all its threads wait as before, what they have asked for stands; if not, those that wait no
more are eligible, and nothing else has come about. -/
def State.lookAt (s : State) (k : GroupKey) (run : Mask) (pc : Dword) : State :=
  match s.group? k with
  | none => s
  | some g =>
    let r := s.tryRun g run pc
    match r.2.bind fun x => (x.group? k).map fun h => (x, run &&& (h.blocked ||| h.coll)) with
    | none => r.1
    | some (x, m) =>
      if m = run then { x with latch := s.latch, issue := s.issue, cur := s.cur }
      else r.1.updGroup k fun h => { h with blocked := h.blocked ||| (g.blocked &&& m), coll := h.coll ||| (g.coll &&& m) }

/-- The runs of a group whose wait may be over, by PC. -/
def Group.retries (g : Group) : List (Mask × Dword) :=
  ((g.retry.lanes.map g.arch.pc).eraseDups).map fun p => (g.arch.atPc g.retry p, p)

/-- Every group that may dispatch knows which of its threads are eligible (R28). -/
def State.looked (s : State) : State :=
  s.groups.foldl (fun s g => if g.canDispatch && g.retry != 0 then g.retries.foldl (fun s r => s.lookAt g.key r.1 r.2) s else s) s

/-- A group fetches (R28), and what it has fetched runs. An instruction takes 1 ns of the model's time. -/
def runGroup (s : State) (g : Group) : Out_ :=
  let t := fetchDecide { s with cur := none, now := s.now + 1 } g
  match t.latch with
  | some f => runFetched t f
  | none => .next t

/-- An event that decides which run is served. -/
def decides : Instr → Bool
  | .fetchDecision _ | .guardTurn _ => true
  | _ => false

/-- An event comes about at a time. -/
def runEvent (s : State) (now : Nat) (ev : Instr) : Out_ :=
  let s := { s.wake with now := max s.now now, issue := none }
  exec ev (if decides ev && s.latch.isNone then s.looked else s)

/-- The event that comes before another instruction, if one is due by its end. -/
def State.dueEvent (s : State) : Option (Nat × Instr) :=
  if s.cur.isSome then none else s.nextEvent.filter fun e => decide (e.1 ≤ s.now + 1)

/-- A step with no fetched word and nothing on the agenda. -/
def stepFree (s : State) : Out_ :=
  let s := s.looked
  match s.nextGroup with
  | some g =>
    match s.dueEvent with
    | some e => runEvent s e.1 e.2
    | none => runGroup s g
  | none =>
    match s.nextEvent with
    | some e => runEvent { s with cur := none } e.1 e.2
    | none => .next { s with cur := none }

/-- The head of the agenda is the probe of the fetched word, which comes before the word runs (R50). -/
def probesFirst (s : State) (f : Fetched) : Bool :=
  match s.agenda with
  | (_, .translationProbe k) :: _ => k == f.issue.group
  | _ => false

/-- The rank of an event among those that reach a group at once (R226, Table 19-7); 7 for any other. -/
def eventRank : Instr → Nat
  | .machineCheck (.check _) => 1
  | .sensorRestart _ _ => 2
  | .trapDelivery _ => 3
  | .preemptSave _ | .preemptSpace _ | .preemptTime _ => 5
  | .kill _ => 6
  | _ => 7

/-- The event of the agenda that comes about next, with those that stay: of those that are due at once with its head, the one of highest
rank that precedes it (R226). -/
def nextOnAgenda : List (Nat × Instr) → Option ((Nat × Instr) × List (Nat × Instr))
  | [] => none
  | h :: r =>
    let now := (r.takeWhile fun x => x.1 = 0).zipIdx
    let best := now.foldl (fun (o : Option (Nat × Nat)) x =>
      let k := eventRank x.1.2
      if k < (o.map Prod.fst).getD (eventRank h.2) then some (k, x.2) else o) none
    match best with
    | some (_, i) => r[i]?.map fun x => ((h.1, x.2), (0, h.2) :: r.eraseIdx i)
    | none => some (h, r)

/-- The agenda's next event comes about, or a free step. -/
def stepAgenda (s : State) : Out_ :=
  match nextOnAgenda s.agenda with
  | some (e, r) => runEvent { s with agenda := r } (s.now + e.1) e.2
  | none => stepFree s

/-- One step of the machine. -/
def stepOf (s : State) : Out_ :=
  match s.latch with
  | some f => if probesFirst s f then stepAgenda s else runFetched s f
  | none => stepAgenda s

end Sys2Proof.Machine
end

