-- ==== Sys2Proof/Safety.lean ====
section
/-! DEFINITION. Safety.lean: the terms claims use: what a safe run is, when an instruction is served, what one that acts on its
group alone leaves behind, and what writing a destination means. -/

namespace Sys2Proof

/-- A run of `n` steps from a state that meets no stop. -/
def RunsFor (n : Nat) (s : Machine.State) : Prop := ∃ t, Host.Core.run core n s = .next t

/-- The machine never stops from a state. -/
def Safe (s : Machine.State) : Prop := ∀ n, RunsFor n s

/-- A property that every step keeps. -/
def Kept (p : Machine.State → Prop) : Prop := ∀ s t, p s → Machine.step s = .next t → p t

end Sys2Proof

namespace Sys2Proof.Claims

open Sys2Proof.Machine

/-! ## When an instruction is served -/

/-- Group `g` is resident, and its threads `run`, none of which is parked, are served the word at `pc` (R28). -/
structure Turn (s : State) (g : Group) (run : Mask) (pc : Dword) : Prop where
  here  : s.group? g.key = some g
  issue : s.issue = some ⟨g.key, run, pc⟩
  free  : run &&& g.arch.parked = 0

/-- A region head finds room for its checkpoint (R62), and the registers a word names are declared (R27). -/
structure Admitted (i : Instr) (c : Ctl) (s : State) (g : Group) (run : Mask) (pc : Dword) : Prop extends Turn s g run pc where
  head  : c.hd = true → g.unverified < 4
  regs  : i.regs.all g.declares = true

/-- No register operand that a lane of `act` reads is poisoned, nor a guard that a lane of the run reads (R76, R405). -/
def Untainted (i : Instr) (g : Group) (run act : Mask) : Prop := (⟨g, run, act, 0, i, false⟩ : Served).tainted = 0

/-- A lane is active (R279), the instruction is admitted, its sources are free of poison, no commit point that has dispatched before it holds
it back (R47), and a memory access may be probed: its address operands have executed, and no older branch of its lanes is open (R50, R54). -/
structure Able (i : Instr) (c : Ctl) (s : State) (g : Group) (run : Mask) (pc : Dword) : Prop extends
    Admitted i c s g run pc where
  lanes : run &&& guardOf g.arch c ≠ 0
  sound : Untainted i g run (run &&& guardOf g.arch c)
  order : g.holdsBack i = false
  ready : g.unready i run = false

/-- A group-collective point is complete (R33): every thread that counts, none of them parked, stands at `pc` and is held there or
served. -/
structure Gathered (i : Instr) (c : Ctl) (s : State) (g : Group) (run : Mask) (pc : Dword) : Prop extends
    Admitted i c s g run pc where
  all    : g.gathered run pc = true
  live   : g.here ≠ 0
  parked : g.here &&& g.arch.parked = 0
  sound  : Untainted i g g.here (g.here &&& guardOf g.arch c)
  order  : g.holdsBack i = false

/-- A commit point `k` stands at its gate and may act (R67): it has dispatched with a checkpoint of its own, which is verified, and every
older entry has retired and every older effect has been released. Younger entries of other runs may stand. -/
structure AtGate (i : Instr) (c : Ctl) (s : State) (g : Group) (run : Mask) (pc : Dword) (k : Commit) : Prop extends
    Turn s g run pc where
  regs  : i.regs.all g.declares = true
  lanes : run &&& guardOf g.arch c ≠ 0
  sound : Untainted i g run (run &&& guardOf g.arch c)
  mine  : g.commit = some k ∧ k.pc = pc ∧ k.run = run
  gate  : k.begun = true ∨ (g.verifiedAt k.seq = true ∧ g.drainedTo k.seq = true)

/-- The lanes an instruction is active in (R279). -/
def active (c : Ctl) (g : Group) (run : Mask) : Mask := run &&& guardOf g.arch c

/-! ## What an instruction leaves behind -/

/-- Nothing outside one group has changed: no memory, scratchpad or operand buffer, no coherence state, no team, partition, die or
I/O die, nothing device-wide, and no other group. -/
structure OnlyGroup (s t : State) (k : GroupKey) : Prop where
  world  : { t with groups := s.groups } = s
  others : ∀ k', k' ≠ k → t.group? k' = s.group? k'

/-- A group once a word has been admitted: a region head has taken a checkpoint, with a number of its own before its entry's (R60). -/
def headOf (c : Ctl) (s : State) (g : Group) : Group := if c.hd then g.takeCkpt s.now else g

/-- `b` with the general registers and their poison, the PCs and the guard-turn state (R31) of `a`. -/
def withRegsOf (a b : Arch) : Arch :=
  { b with
    v := a.v
    s := a.s
    p := a.p
    pois := a.pois
    pcs := a.pcs
    starve := a.starve
    rot := a.rot
    turn := a.turn
    lastRun := a.lastRun }

/-- `h` with the registers, the entries, the checkpoints and the fetch bookkeeping (R28, R31, R301) of `g`. -/
def withIssueOf (g h : Group) : Group :=
  { h with
    arch := g.arch
    rob := g.rob
    seq := g.seq
    objs := g.objs
    ckpts := g.ckpts
    blocked := g.blocked
    look := g.look
    stall := g.stall
    ceded := g.ceded }

/-- The entry that an instruction of group `g` leaves in the reorder buffer (R51, R47): among the rest, what it has replaced outside the
renamed registers (R54). -/
def entryOf (i : Instr) (g : Group) (pc : Dword) (run act : Mask) (fl : Flg) (obj : List ObjImage := []) : Entry :=
  ⟨g.seq, pc, run, act, false, fl, 0, none, g.arch, i.orders, g.depsOf i, i.isBranch, obj ++ g.objs⟩

/-- An instruction has dispatched (R51, R29): its entry is the youngest, its threads stand where `to` says, and every other thread of the
group and every other group stand as they did. -/
structure Entered (c : Ctl) (s t : State) (g h : Group) (run : Mask) (e : Entry) (to_ : Nat → Dword) : Prop where
  others : ∀ k', k' ≠ g.key → t.group? k' = s.group? k'
  mine   : t.group? g.key = some h
  entry  : h.rob = g.rob ++ [e]
  seq    : h.seq = (headOf c s g).seq + 1
  ckpts  : h.ckpts = (headOf c s g).ckpts
  objs   : h.objs = []
  pcs    : ∀ L, L < g.arch.pcs.length → h.arch.pc L = if run.has L then to_ L else g.arch.pc L

/-- Nothing outside the groups of the machine is other than in `u`. -/
def World (t u : State) : Prop := { t with groups := u.groups } = u

/-- No special, trap or flag register has changed, nor what the group's accesses are ordered by. -/
def SameArch (g h : Group) : Prop := withRegsOf g.arch h.arch = g.arch

/-- The same, but for what its accesses are ordered by. -/
def SameButMem (g h : Group) : Prop := withRegsOf g.arch { h.arch with mem := g.arch.mem } = g.arch

/-- The general registers, and their poison, stay as they were. -/
def SameRegs (a b : Arch) : Prop := b.v = a.v ∧ b.s = a.s ∧ b.p = a.p ∧ b.pois = a.pois

/-- The instruction has acted on its group alone, and its threads stand at the next slot. Of its group nothing else has changed but
general registers, which other predicates describe: no special, trap or flag register, no staged effect. -/
structure Issued (i : Instr) (c : Ctl) (s t : State) (g h : Group) (run act : Mask) (pc : Dword) (fl : Flg) : Prop extends
    Entered c s t g h run (entryOf i (headOf c s g) pc run act fl) (fun _ => nextPc pc) where
  world : World t s
  arch  : SameArch g h
  rest  : withIssueOf g h = g

/-- The instruction has met a fault (R55): nothing has changed but that the trap waits for delivery. -/
structure Trapped (c : Ctl) (s t : State) (g : Group) (tr : Trap) : Prop extends OnlyGroup s t g.key where
  mine : t.group? g.key = some { headOf c s g with trap := some tr }

/-- An entry but for what it would restore. -/
def bare (e : Entry) : Entry := { e with undo := default }

/-- A commit point `k` has completed (R67): its entry has retired, and the entries younger than it, of other runs, stand, with its results in
what they would restore; the next commit point that has dispatched is the oldest now. The checkpoint just after it is verified at once and every older one is gone (R61), and CONSEC is zero (R73). Its
threads stand where `to_` says, and every other group stands as it did. -/
structure Committed (s t : State) (g h : Group) (k : Commit) (run : Mask) (to_ : Nat → Dword) : Prop where
  others : ∀ k', k' ≠ g.key → t.group? k' = s.group? k'
  mine   : t.group? g.key = some h
  rob    : h.rob.map bare = (g.rob.filter fun e => decide (k.seq < e.seq)).map bare
  seq    : h.seq = g.seq + 1
  ckpts  : ∃ a r, h.ckpts = ⟨k.seq + 1, some s.now, true, a⟩ :: r ∧
    r.map Ckpt.seq = (g.ckpts.filter fun c => decide (k.seq + 1 < c.seq)).map Ckpt.seq ∧
    ((∀ e ∈ g.rob, e.seq ≤ k.seq) → g.behind = [] → a = h.arch)
  commit : h.commit = g.behind.head?
  behind : h.behind = g.behind.tail
  consec : h.rstrt = g.rstrt &&& ~~~(0xF00000000 : Dword)
  pcs    : ∀ L, L < g.arch.pcs.length → h.arch.pc L = if run.has L then to_ L else g.arch.pc L

/-- Of a group whose commit point has completed nothing else has changed, but that a trap 0x11 which waited for it (R73, R293) then names the
threads it has left. -/
def SameAfterCommit (g h : Group) : Prop :=
  { withIssueOf g h with commit := g.commit, behind := g.behind, rstrt := g.rstrt, trap := g.trap } = g ∧
    ((g.trap.any fun t => t.cause == 0x11) = false → h.trap = g.trap)

/-! ## Destinations -/

/-- Vector register `n` has a lane `L`. -/
abbrev HasLane (a : Arch) (n L : Nat) : Prop := L < (a.v.getD n ⟨[], []⟩).lanes.length

/-- The sidecar of a vector register (R88). -/
def sideOf (a : Arch) (n : Nat) : List Byte := (a.v.getD n ⟨[], plainSide⟩).side

/-- Vector register `n`, and `n + 1` when `wide`, takes `f` in the lanes of `m` and a sidecar of 0x7F bytes; every other lane and every
other sidecar stays (R45, R84, R88). A word of two lanes that is written whole loses its poison, and no other does (R405). -/
structure VecWritten (a b : Arch) (wide : Bool) (n : Nat) (m : Mask) (f : Nat → Dword) : Prop where
  low   : ∀ L, m.has L = true → HasLane a n L → b.vreg n L = (f L).setWidth 32
  high  : wide = true → ∀ L, m.has L = true → HasLane a (n + 1) L → b.vreg (n + 1) L = (f L).extractLsb' 32 32
  keep  : ∀ k L, (m.has L = false ∨ (k ≠ n ∧ ¬(wide = true ∧ k = n + 1))) → b.vreg k L = a.vreg k L
  side  : ∀ k, (k = n ∨ (wide = true ∧ k = n + 1)) → sideOf b k = plainSide
  sides : ∀ k, k ≠ n → ¬(wide = true ∧ k = n + 1) → sideOf b k = sideOf a k
  pois  : ∀ x, x ∈ b.pois ↔ x ∈ a.pois ∧ ¬(x.1 = .vec ∧ (x.2.1 = n ∨ (wide = true ∧ x.2.1 = n + 1)) ∧
    m.has (2 * x.2.2) = true ∧ m.has (2 * x.2.2 + 1) = true)

/-- Scalar register `n` takes the value of the lowest lane of `m`, when `m` has one, and loses its poison (R405); every other stays
(R272). -/
structure SclWritten (a b : Arch) (n : Nat) (m : Mask) (f : Nat → Dword) : Prop where
  value : ∀ L, m.low? = some L → n < a.s.length → b.sreg n = f L
  none_ : m.low? = none → b.s = a.s ∧ b.pois = a.pois
  keep  : ∀ k, k ≠ n → b.sreg k = a.sreg k
  pois  : m.low? ≠ none → ∀ x, x ∈ b.pois ↔ x ∈ a.pois ∧ ¬(x.1 = .scl ∧ x.2.1 = n)

/-- A destination has been written, and no other general register: a vector register or pair, a scalar register, or nothing at all for
class 110, which discards (R45, R84, R85, R272). -/
def Written (a b : Arch) (wide : Bool) (d : Opd) (m : Mask) (f : Nat → Dword) : Prop :=
  match d with
  | .vec n => VecWritten a b wide n.val m f ∧ b.s = a.s ∧ b.p = a.p
  | .scl n => SclWritten a b n.val m f ∧ b.v = a.v ∧ b.p = a.p
  | _ => SameRegs a b

/-- Predicate `n` takes `f` in the lanes of `m`; p15 discards; every other predicate stays (R45, R269, R335). One that is written in every lane
of the group loses its poison, and no other does (R405; log 16). -/
structure PrdWritten (a b : Arch) (n : Nat) (m : Mask) (f : Nat → Bool) : Prop where
  value : ∀ L, L < 64 → n ≠ 15 → n < a.p.length → (b.preg n).has L = if m.has L then f L else (a.preg n).has L
  keep  : ∀ k, (k ≠ n ∨ k = 15) → b.preg k = a.preg k
  pois  : ∀ x, x ∈ b.pois ↔ x ∈ a.pois ∧ ¬(x.1 = .prd ∧ x.2.1 = n ∧ ∀ L, L < min 64 a.pcs.length → m.has L = true)

/-- A predicate destination has been written, and no other general register. -/
def WrittenPrd (a b : Arch) (d : Opd) (m : Mask) (f : Nat → Bool) : Prop :=
  b.v = a.v ∧ b.s = a.s ∧
    match d with
    | .prd n => PrdWritten a b n.val m f
    | _ => b.p = a.p ∧ b.pois = a.pois

/-! ## Whole shapes of instruction -/

/-- A per-lane instruction without flags: whenever it is able to act, it completes, and its destination takes `f` in the active lanes. -/
def Writes (i : Instr) (c : Ctl) (wide : Bool) (d : Opd) (f : Arch → Nat → Dword) : Prop :=
  ∀ s g run pc, Able i c s g run pc →
    ∃ t h, exec i s = .next t ∧ Issued i c s t g h run (active c g run) pc 0 ∧
      Written g.arch h.arch wide d (active c g run) (f g.arch)

/-- The same for a predicate destination. -/
def WritesPrd (i : Instr) (c : Ctl) (d : Opd) (f : Arch → Nat → Bool) : Prop :=
  ∀ s g run pc, Able i c s g run pc →
    ∃ t h, exec i s = .next t ∧ Issued i c s t g h run (active c g run) pc 0 ∧
      WrittenPrd g.arch h.arch d (active c g run) (f g.arch)

/-- The group once a stochastically rounding instruction has stepped its generator (R96), and the draw for a lane and an element; any
other rounding leaves the generator alone and draws nothing. -/
def stepped (rnd : Rnd) (g : Group) : Group := if rnd = .sr then { g with gen := genStep g.gen } else g
def drawn (rnd : Rnd) (g : Group) (L n : Nat) : Nat := if rnd = .sr then genDraw (genStep g.gen) L n else 0

/-- A computation with flags for each lane (R93): with no raised flag enabled in FPCTL.TE it completes as `R` says; else it writes nothing
and trap 0x13 waits for delivery, with the lanes that raised an enabled flag. `P` is what it asks beside being able to act; one that
rounds stochastically acts when it is the oldest. -/
def Flagged (i : Instr) (c : Ctl) (rnd : Rnd) (P : Group → Mask → Prop) (fl : Group → Mask → Nat → Flg)
    (R : Group → Mask → Arch → Prop) : Prop :=
  ∀ s g run pc, Able i c s g run pc → (rnd = .sr → g.rob = []) → P g (active c g run) →
    let act := active c g run
    let q := headOf c s g
    let all := orFlags act (fl q act)
    (all &&& fpTe g.arch.fpctl = 0 →
      ∃ t h, exec i s = .next t ∧ Issued i c s t (stepped rnd g) h run act pc all ∧ R q act h.arch) ∧
    (all &&& fpTe g.arch.fpctl ≠ 0 →
      ∃ t, exec i s = .next t ∧ Trapped c s t (stepped rnd g)
        ⟨0x13, pc, Mask.ofLanes (act.lanes.filter fun L => fl q act L &&& fpTe g.arch.fpctl ≠ 0), all.setWidth 64, all⟩)

/-- A float instruction whose destination takes a lane's result. -/
def WritesFp (i : Instr) (c : Ctl) (ty : Ty) (d : Opd) (f : Arch → Nat → Nat × Flg) : Prop :=
  Flagged i c .rne (fun _ _ => True) (fun g _ L => (f g.arch L).2) fun g act b => Written g.arch b ty.wide d act fun L => extend ty (f g.arch L).1

/-- An instruction that acts as `R` says, where `P` holds beside its being able to. `R` speaks of the group as it is once a region head has
taken its checkpoint; `obj` is what the instruction replaces outside the renamed registers. -/
def Acts (i : Instr) (c : Ctl) (P : State → Group → Mask → Prop) (R : State → Group → Mask → State → Group → Prop)
    (obj : State → Group → List ObjImage := fun _ _ => []) : Prop :=
  ∀ s g run pc, Able i c s g run pc → P s g (active c g run) →
    ∃ t h, exec i s = .next t ∧
      Entered c s t g h run (entryOf i (headOf c s g) pc run (active c g run) 0 (obj s g)) (fun _ => nextPc pc) ∧
      R s (headOf c s g) (active c g run) t h

/-- A commit point that acts as `R` says at its gate, where `P` holds. -/
def Commits (i : Instr) (c : Ctl) (P : State → Group → Mask → Prop) (R : State → Group → Mask → State → Group → Prop) : Prop :=
  ∀ s g run pc k, AtGate i c s g run pc k → P s g (active c g run) →
    ∃ t h, exec i s = .next t ∧ Committed s t g h k run (fun _ => nextPc pc) ∧ R s g (active c g run) t h

/-- An instruction that takes a trap where `P` holds: its cause, the lanes and TADDR. -/
def TrapsWhere (i : Instr) (c : Ctl) (P : State → Group → Mask → Prop) (cause : Nat) (mask : Group → Mask → Mask)
    (addr : Group → Mask → Nat) : Prop :=
  ∀ s g run pc, Able i c s g run pc → P s g (active c g run) →
    ∃ t, exec i s = .next t ∧
      Trapped c s t g ⟨cause, pc, mask g (active c g run), BitVec.ofNat 64 (addr g (active c g run)), 0⟩

/-- A group-collective point that acts once for every thread that counts (R33), raising `fl`, none of it enabled. -/
def Collects (i : Instr) (c : Ctl) (P : Group → Mask → Prop) (fl : Group → Mask → Flg) (R : Group → Mask → Arch → Prop) : Prop :=
  ∀ s g run pc, Gathered i c s g run pc → P g (active c g g.here) → fl g (active c g g.here) &&& fpTe g.arch.fpctl = 0 →
    ∃ t h, exec i s = .next t ∧
      Issued i c s t { g with coll := 0 } h g.here (active c g g.here) pc (fl g (active c g g.here)) ∧
      R g (active c g g.here) h.arch

/-- What saturation makes of an exact integer result (R334): the nearest value the type can hold. -/
def clamped (sat : Bool) (ty : Ty) (x : Int) : Int :=
  if sat then (if x < tyLo ty then tyLo ty else if tyHi ty < x then tyHi ty else x) else x

/-- An MX destination has been written (R88, R89): in a block whose lanes are all active, the scale byte `sc` gives and the words `word`
gives; every other lane and scale byte of the register stays, bytes past the last block are 0x7F, and so does every other register. -/
structure MxWritten (a b : Arch) (ty : Ty) (w n : Nat) (m : Mask) (sc word : Nat → Nat) : Prop where
  words : ∀ L, m.has L = true → HasLane a n L → b.vreg n L = BitVec.ofNat 32 (word L)
  keep  : ∀ k L, (m.has L = false ∨ k ≠ n) → b.vreg k L = a.vreg k L
  scale : ∀ q, n < a.v.length → q < mxBlocks ty w → q < 16 →
    (sideOf b n).getD q 0 = if mxCover ty m q = some true then BitVec.ofNat 8 (sc q) else (sideOf a n).getD q 0
  rest  : ∀ q, n < a.v.length → mxBlocks ty w ≤ q → q < 16 → (sideOf b n).getD q 0 = 0x7F
  sides : ∀ k, k ≠ n → sideOf b k = sideOf a k
  s     : b.s = a.s
  p     : b.p = a.p
  pois  : ∀ x, x ∈ b.pois ↔ x ∈ a.pois ∧ ¬(x.1 = .vec ∧ x.2.1 = n ∧ m.has (2 * x.2.2) = true ∧ m.has (2 * x.2.2 + 1) = true)

/-- R364: what an MX instruction writes, given the exact result of each element: each block's scale by R89, each element rounded once at
it. In a block whose scale is NaN the manual gives an element no bits, and the model takes free ones (log 15). -/
def mxStates (i : Instr) (c : Ctl) (rnd : Rnd) (ty : Ty) (d : Opd) (f : Arch → Nat → Nat → Fv × Flg) : Prop :=
  let scale := fun (g : Group) q => mxScale ty ((mxLanes ty q).flatMap fun L => (List.range ty.per).map fun k => (f g.arch L k).1)
  let scales := fun (g : Group) act =>
    (List.range (mxBlocks ty g.w)).map fun q =>
      if mxCover ty act q = some true then scale g q else ((sideOf g.arch (vecNo d)).getD q 0).toNat
  let code := fun (g : Group) act L k =>
    mxCode g.arch ty rnd (drawn rnd g L k) ((scales g act).getD (mxBlockOf ty L k) 0) (g.freeKey (L * 8 + k)) (f g.arch L k).1
  Flagged i c rnd (fun g act => ∀ q, q < mxBlocks ty g.w → (mxCover ty act q).isSome)
    (fun g act L => (List.range ty.per).foldl (fun x k => x ||| (f g.arch L k).2 ||| (code g act L k).2) 0)
    (fun g act r => MxWritten g.arch r ty g.w (vecNo d) act (scale g)
      fun L => (List.range ty.per).foldl (fun x k => x + (code g act L k).1 * 2 ^ (ty.bits * k)) 0)

/-! ## Memory accesses -/

/-- No XFENCE of a group waits before class 0 (R186). -/
abbrev Unfenced (g : Group) : Prop := ∀ x ∈ g.arch.mem.xfences, x.dst ≠ 0

/-- The lanes of `m` reach memory (R50): the probe of each finds `acc`, no XFENCE of the group waits before class 0 (R186), and no lane meets
a private line that is not its team's (R161). -/
structure Reaches (s : State) (g : Group) (m : Mask) (k : Access) (sp : Space) (size align : Nat) (ad : Nat → Nat) (acc : Nat → Acc) :
    Prop where
  found : ∀ L, m.has L = true → laneAcc s g k sp size align L (ad L) = .ok (acc L)
  fence : Unfenced g
  mine  : ∀ L, m.has L = true → s.escape g (acc L) = false

/-- No line that the lanes of `m` reach is locked by another core (R149) or on a page in motion (R139). -/
def Unheld (s : State) (g : Group) (m : Mask) (acc : Nat → Acc) : Prop := s.lockedOut g (m.lanes.map acc) = false

/-- No word of an access holds poison, as it is or from any moment, nor does a staged store that gives a byte of it (R405). -/
def Sound (s : State) (g : Group) (a : Acc) : Prop :=
  ∀ c ∈ a.chunks, (∀ w ∈ wordsOf c.addr c.n, ∀ o, (s.wordSeen g c.tgt o w).pois = false) ∧
    ∀ i, i < c.n → g.fwdPois c.tgt (c.addr + i) = false

/-- The byte that a load of the group reads at an address as of a moment: what its own staged stores hold there (R48), else the byte that
the group's core sees from that moment. -/
def byteSeen (s : State) (g : Group) (t : Target) (o : Option Nat) (a : Nat) : Byte :=
  (g.fwdByte t a).getD ((s.wordSeen g t o (a / 8 * 8)).val.extractLsb' (8 * (a % 8)) 8)

/-- The bytes of one chunk that a load may read: those in one 64-byte line all as of one moment (R170, R351, R408), none of whose bytes is
older than what the reader has seen (R174). -/
def ChunkRead (s : State) (g : Group) (floor : View) (c : Chunk) (l : List Byte) : Prop :=
  ∃ mo : Nat → Option Nat, (∀ x ∈ linesOf c.addr c.n, mo x ∈ s.moments g floor false c x) ∧
    l = (List.range c.n).map fun i => byteSeen s g c.tgt (mo ((c.addr + i) / 64 * 64)) (c.addr + i)

/-- The bytes of an access that a load may read, chunk by chunk. -/
def Readings (s : State) (g : Group) (floor : View) (a : Acc) (l : List Byte) : Prop :=
  ∃ ls, List.Forall₂ (ChunkRead s g floor) a.chunks ls ∧ l = ls.flatten

/-- A load has left every byte of memory, of every scratchpad and operand buffer, and their tags and poison as they were, and every home
state; of the machine outside its group only translations, requests, dependences of scopes and the count of free values have changed. -/
structure LoadWorld (s t : State) : Prop where
  world : { t with groups := s.groups, coh := s.coh, fresh := s.fresh } = s
  lines : t.coh.lines = s.coh.lines

/-- Of the group of a load nothing but general registers, what its accesses are ordered by and the loads on their way has changed. -/
def LoadGroup (g h : Group) : Prop := SameButMem g h ∧ withIssueOf g { h with loads := g.loads } = g

/-- A load that its lanes can make completes: `R` says what its destination takes from the bytes `f` of each lane. For a scalar destination it
is made once, for the lowest lane. -/
def Loads (i : Instr) (c : Ctl) (sp : Space) (size align : Nat) (once : Bool) (ad : Group → Nat → Nat)
    (P : State → Group → Mask → (Nat → Acc) → Prop) (R : State → Group → Mask → Arch → (Nat → Acc) → (Nat → List Byte) → Prop) : Prop :=
  ∀ s g run pc acc, Able i c s g run pc → Reaches s g (active c g run) .read sp size align (ad g) acc →
    Unheld s g (active c g run) acc → (∀ L, (active c g run).has L = true → Sound s g (acc L)) → P s g (active c g run) acc →
    ∃ t h f, exec i s = .next t ∧
      Entered c s t g h run (entryOf i (headOf c s g) pc run (active c g run) 0) (fun _ => nextPc pc) ∧ LoadWorld s t ∧ LoadGroup g h ∧
      (∀ L, (active c g run).has L = true → (once = false ∨ (active c g run).low? = some L) →
        Readings s g (g.viewOf (if once then active c g run else Mask.bit L)) (acc L) (f L)) ∧
      R s g (active c g run) h.arch acc f

/-- The pieces that the stores of some lanes write: each lane's bytes at the address its probe has found, with whether their holder lies
outside the core (R66). A store that acts once writes for all the lanes (R394). -/
def storePieces (rank hint : Nat) (m : Mask) (once : Bool) (acc : Nat → Acc) (data : Nat → List Byte) : List (Bool × Piece) :=
  (if once then m.lanes.take 1 else m.lanes).flatMap fun L => (acc L).pieces rank hint (if once then m else Mask.bit L) (data L)

/-- Effects that stage some pieces: those that the core applies itself in one, and those for a holder elsewhere in another (R63, R66). -/
def Stages (ps : List (Bool × Piece)) (tag : TagOp) (sc : Option Scope) (es : List Effect) : Prop :=
  let part := fun (away : Bool) => (ps.filter fun p => p.1 == away).map Prod.snd
  (es.map fun e => (e.away, e.kind)) =
      (([false, true].filter fun away => !(part away).isEmpty).map fun away => (away, EffectKind.write (part away) tag sc)) ∧
    ∀ e ∈ es, e.cls = 0 ∧ e.held = false ∧ e.pois = [] ∧ e.relAt = none

/-- A store that its lanes can make, with room in the quarantine (R64), completes: effects are staged (R63) that write each lane's bytes
where its address says; no byte of memory changes before their release, and no register. -/
def Stores (i : Instr) (c : Ctl) (sp : Space) (size align hint : Nat) (once : Bool) (tag : TagOp) (sc : Option Scope)
    (ad : Group → Nat → Nat) (P : (Nat → Acc) → Mask → Prop) (data : Group → Nat → List Byte) : Prop :=
  ∀ s g run pc acc, Able i c s g run pc → Reaches s g (active c g run) .write sp size align (ad g) acc → P acc (active c g run) →
    let ps := storePieces g.rank hint (active c g run) once acc (data g)
    (∀ es, Stages ps tag sc es → s.entriesUsed g.core + (es.map Effect.entries).sum ≤ 512) →
    ∃ t h es, exec i s = .next t ∧
      Entered c s t g h run (entryOf i (headOf c s g) pc run (active c g run) 0) (fun _ => nextPc pc) ∧ LoadWorld s t ∧
      SameArch g h ∧ SameRegs g.arch h.arch ∧ withIssueOf g { h with staged := g.staged } = g ∧
      h.staged = g.staged ++ es ∧ Stages ps tag sc es ∧ ∀ e ∈ es, e.seq = (headOf c s g).seq ∧ e.execAt = s.now

/-- The rank of a group's core rank, and a change of it alone. -/
def rankOfG (s : State) (g : Group) : Rank := s.rankOf g.key.team g.rank
def onRank (s : State) (g : Group) (f : Rank → Rank) : State := s.updRank g.key.team g.rank f

/-! ## Storage -/

/-- Every memory of the machine has its canonical form: device and host memory, each core rank's scratchpad and operand buffer, and each
VF's mailbox. -/
def MemoryOk (s : State) : Prop :=
  s.ram.mem.wf = true ∧ (∀ t ∈ s.teams, ∀ r ∈ t.ranks, r.scr.wf = true ∧ r.opbuf.wf = true) ∧ ∀ p ∈ s.parts, p.mail.wf = true

/-- The byte at an address of a target, as it stands. -/
def byteAt (s : State) (k : TeamKey) (t : Target) (a : Nat) : Byte :=
  match t with
  | .mem => s.ram.mem.get a
  | .scr r => (s.rankOf k r).scr.get a
  | .opbuf r => (s.rankOf k r).opbuf.get a

/-- What an atomic of `n` bytes leaves (R146): storage, each lane's old value, and whether it has written. -/
structure AtomRes where
  mem   : Target → Nat → Byte
  old   : Nat → Nat
  wrote : Nat → Bool

/-- The lanes of an atomic in order (R146, R283): each reads its location, writes what `new` gives, if anything, and the next lane finds
that there. -/
def atomSeq (n : Nat) (tgt : Nat → Target) (ad : Nat → Nat) (new : Nat → Nat → Option Nat) : List Nat → (Target → Nat → Byte) → AtomRes
  | [], m => ⟨m, fun _ => 0, fun _ => false⟩
  | L :: r, m =>
    let old := leNat ((List.range n).map fun i => m (tgt L) (ad L + i))
    let y := atomSeq n tgt ad new r fun t a =>
      match new L old with
      | some x => if t = tgt L ∧ ad L ≤ a ∧ a < ad L + n then (leBytes n x).getD (a - ad L) 0 else m t a
      | none => m t a
    ⟨y.mem, fun K => if K = L then old else y.old K, fun K => if K = L then (new L old).isSome else y.wrote K⟩

/-- A team but for what its scratchpads hold. -/
def bareScr (t : Team) : Team := { t with ranks := t.ranks.map fun r => { r with scr := ⟨[]⟩, scrPoison := [] } }

/-! ## Effects and engine commands -/

/-- The byte at an address once some pieces have been written, each over those before it, where `b` stood. -/
def pieceByte (ps : List Piece) (t : Target) (a : Nat) (b : Byte) : Byte :=
  ps.foldl (fun b p => if p.tgt = t ∧ p.addr ≤ a ∧ a < p.addr + p.data.length then p.data.getD (a - p.addr) 0 else b) b

/-- A piece writes some byte of the word of memory that holds an address. -/
def touches (p : Piece) (y : Nat) : Bool := p.tgt == .mem && (wordsOf p.addr p.data.length).contains (y / 8 * 8)

/-- The poisoned words of a target. -/
def poisonOf (s : State) (k : TeamKey) (t : Target) : List Nat :=
  match t with
  | .mem => s.ram.poison
  | .scr r => (s.rankOf k r).scrPoison
  | .opbuf r => (s.rankOf k r).opPoison

/-- A team but for what its scratchpads and operand buffers hold. -/
def bareStore (t : Team) : Team :=
  { t with ranks := t.ranks.map fun r => { r with scr := ⟨[]⟩, opbuf := ⟨[]⟩, scrPoison := [], opPoison := [] } }

/-- Some pieces have been written for a team (R157, R405): each byte of theirs holds what they say and no other byte has changed; a word of
memory that they touch has its tag clear, or, under `.set`, set where a piece begins, and of the others those of `gone` are clear too; of a
target's words those that they write whole are poisoned no more, and those of `bad` are. -/
structure PiecesWritten (s t : State) (k : TeamKey) (ps : List Piece) (tag : TagOp) (gone : Nat → Bool) (bad : List (Target × Nat)) : Prop where
  bytes : ∀ x a, byteAt t k x a = pieceByte ps x a (byteAt s k x a)
  tags  : ∀ y, t.ram.tag y =
    ps.foldl (fun b p => if touches p y then decide (tag = .set ∧ p.addr / 8 = y / 8) else b) (s.ram.tag y && !gone y)
  pois  : ∀ x w, w % 8 = 0 → (x = .mem ∨ ∃ p ∈ ps, p.tgt = x) →
    (w ∈ poisonOf t k x ↔ (w ∈ poisonOf s k x ∧ written ps x w = false) ∨ (x, w) ∈ bad)
  teams : t.teams.map bareStore = s.teams.map bareStore
  other : ∀ j r, j ≠ k → t.rankOf j r = s.rankOf j r

/-- The oldest effect of a group has been released: it has left the list, every other staged effect stays as it was but for what it is to
release, no register has changed, and every other group stands as it did. -/
structure Released (s t : State) (g h : Group) (r : List Effect) : Prop where
  others : ∀ k', k' ≠ g.key → t.group? k' = s.group? k'
  mine   : t.group? g.key = some h
  staged : h.staged.map (fun e => { e with rels := [] }) = r.map fun e => { e with rels := [] }
  regs   : SameRegs g.arch h.arch
  arch   : SameButMem g h
  pcs    : h.arch.pcs = g.arch.pcs

/-- The bytes from which a unit of a command comes (R133, R387): memory, or the command's target under its permutation; none where it is
filled. -/
def elemChunks (c : Cmd) (e : Elem) : List Chunk :=
  match e.addr with
  | none => []
  | some pa =>
    if c.kind.produces then [⟨.mem, pa, e.len, some ⟨pa, e.pte, 0, 0⟩, e.va⟩]
    else (permRuns c e).map fun k => ⟨c.tgt, k.2.1, k.2.2, none, k.2.1⟩

/-- What a unit of a command may read: its engine class sees none of the group's own staged stores (R48). -/
def ElemRead (s : State) (g : Group) (c : Cmd) (e : Elem) (l : List Byte) : Prop :=
  match e.addr with
  | none => l = if c.kind.produces then c.fill.take e.len else (c.fill.drop e.off).take e.len
  | some _ => Readings s g.bare (g.mustSee c.cls) ⟨0, 0, elemChunks c e⟩ l

/-- The effects of some writes of a command, given what each of their units has read (R64, R407). -/
def cmdEffects (c : Cmd) (now : Nat) (ws : List (List Elem)) (data : List (List (List Byte))) : List Effect :=
  (ws.zip data).filterMap fun x =>
    let ps := (x.1.zip x.2).flatMap fun y => writeElem c y.1 y.2
    if ps.isEmpty then none else some ⟨c.seq, c.cls, .write ps .clear none, now, none, x.1.any c.leaves, false, [], []⟩

/-- The effect by which a command gives up its slot with its last write (Table 10-3). -/
def slotEffect (r : Rank) (c : Cmd) (now : Nat) : List Effect :=
  c.slot.toList.map fun p =>
    let id := ((r.queue? p.1).map Queue.id).getD 0
    ⟨c.seq, c.cls, if c.kind.produces then .slotCommit id p.1 p.2 else .slotFree id p.1 p.2, now, none, false, false, [], []⟩

/-- A command has run (R133, R387, R407) as far as its writes find room (R64): each of those stages what its units have read, behind every
effect that is no younger; a command that has moved its last unit gives up its slot, and its entry has executed; else it is paused with
the units left. No byte of any storage has changed, and no register. -/
structure CmdRan (s t : State) (g h : Group) (c : Cmd) : Prop where
  world  : LoadWorld s t
  others : ∀ k', k' ≠ g.key → t.group? k' = s.group? k'
  mine   : t.group? g.key = some h
  regs   : SameRegs g.arch h.arch
  arch   : SameButMem g h
  pcs    : h.arch.pcs = g.arch.pcs
  moved  : ∃ data, List.Forall₂ (List.Forall₂ (ElemRead s g c)) (s.fits g c).1 data ∧
    let bare := fun (e : Effect) => { e with execAt := 0 }
    h.staged.map bare = (g.staged.filter (fun e => decide (e.seq ≤ c.seq)) ++ cmdEffects c s.now (s.fits g c).1 data ++
      (if (s.fits g c).2 = [] then slotEffect (rankOfG s g) c s.now else []) ++ g.staged.filter fun e => decide (c.seq < e.seq)).map bare
  cmds   : h.cmds = if (s.fits g c).2 = [] then g.cmds.filter fun x => x.seq != c.seq
    else g.cmds.map fun x => if x.seq = c.seq then { x with elems := (s.fits g c).2, paused := true } else x
  done   : (s.fits g c).2 = [] → ∀ e ∈ h.rob, e.seq = c.seq → e.executed = true

/-! ## Atomics at their gate -/

/-- An atomic at its gate (R145, R146, R283) whose lanes reach storage, of `ty`'s size and alignment, that takes the operation, is not locked
or poisoned, and, where it is memory, is no window page and stands in lines the core owns; where `acq`, its acquire meets no narrow release
that it would have to wait for. The lanes act in order, each destination takes what its lane found, and a write clears the tag of its word
(R157). Nothing else of the machine changes but home state, the order of stores and, in checker mode, EVICT. -/
def Atomic (i : Instr) (c : Ctl) (acq : Bool) (op : Option RedOp) (sc : Scope) (sp : Space) (ty : Ty) (d : Opd) (ad : Group → Nat → Nat)
    (new : Group → Nat → Nat → Option Nat) : Prop :=
  ∀ (acc : Nat → Acc) (tgt : Nat → Target) (pa : Nat → Nat), Commits i c
    (fun s g act => MemoryOk s ∧ Reaches s g act .atomic sp (memBytes ty) (memBytes ty) (ad g) acc ∧ s.lockedOut g (act.lanes.map acc) = false ∧
      (acq = true → acquireCheck s g sc (act.lanes.map fun L => (Mask.bit L, acc L)) = .go) ∧
      ∀ L, act.has L = true → (∃ p va, (acc L).chunks = [⟨tgt L, pa L, memBytes ty, p, va⟩]) ∧ atomOk op ty (acc L) = none ∧
        windowPage (acc L) = false ∧ (∀ x ∈ (acc L).lines, x.2.cacheable = true → s.coh.owns g.core x.1 = true) ∧
        (s.wordAt g.key.team (tgt L) (pa L / 8 * 8)).pois = false ∧ ∀ r, tgt L = .scr r → r < s.rankCount g)
    (fun s g act t h =>
      let y := atomSeq (memBytes ty) tgt pa (new g) act.lanes (byteAt s g.key.team)
      (∀ x a, byteAt t g.key.team x a = y.mem x a) ∧
        (∀ a, t.ram.tag a = (s.ram.tag a && !act.lanes.any fun L => y.wrote L && tgt L == .mem && decide (pa L / 8 = a / 8))) ∧
        t.teams.map bareScr = s.teams.map bareScr ∧ (s.checkMode g = false → t.parts = s.parts) ∧ t.dies = s.dies ∧ t.dev = s.dev ∧
        (∀ k r, k ≠ g.key.team → t.rankOf k r = s.rankOf k r) ∧
        SameAfterCommit g h ∧ SameButMem g h ∧ Written g.arch h.arch ty.wide d act fun L => extend ty (y.old L))

/-- A commit point at its gate meets a fault (R55, R67): nothing has changed but that the trap waits for delivery, with the entries older
than it, and that the commit point is gone. -/
def TrapsAtGate (i : Instr) (c : Ctl) (P : State → Group → Mask → Prop) (cause : Nat) (mask : Group → Mask → Mask)
    (addr : Group → Mask → Nat) : Prop :=
  ∀ s g run pc k, AtGate i c s g run pc k → P s g (active c g run) →
    ∃ t, exec i s = .next t ∧ { t with groups := s.groups, coh := s.coh } = s ∧ t.coh.lines = s.coh.lines ∧
      (∀ k', k' ≠ g.key → t.group? k' = s.group? k') ∧
      t.group? g.key = some { g with
        commit := none
        cut := if g.drained && g.behind.isEmpty then none else some (k.seq + 1)
        trap := some ⟨cause, pc, mask g (active c g run), BitVec.ofNat 64 (addr g (active c g run)), 0⟩ }

/-- The tile number of an operand exists on the group's core rank, nothing writes the tile, and its rows have free shadows (R117, R118). -/
def TileFree (s : State) (g : Group) (z : Opd) (rows : List Nat) (tl : Tile) : Prop :=
  (rankOfG s g).z[objNo z]? = some tl ∧ (rankOfG s g).tileBusy g.key (objNo z) = false ∧ tl.room rows = true

/-- No word of some rows of a tile is poisoned (R76). -/
def TileSound (tl : Tile) (rows : List Nat) : Prop := ∀ i ∈ rows, (tl.row i).pois = []

/-- New images of some rows stand in a shadow of a tile, their release is staged (R118), and no register has changed. -/
def TileWritten (s t : State) (g h : Group) (cls : Nat) (z : Opd) (rows : List (Nat × Row)) (cnt : Nat) : Prop :=
  World t (onRank s g fun r =>
    { r with
      z := r.z.modify (objNo z) fun x =>
        { x with shadows := x.shadows ++ [⟨(rankOfG s g).nextId, rows, cnt, [(g.key, g.seq)], none⟩] }
      nextId := (rankOfG s g).nextId + 1 }) ∧
  h.staged = g.staged ++ [⟨g.seq, cls, .tile g.rank (objNo z) (rankOfG s g).nextId, s.now, none, false, false, [], []⟩] ∧
  SameRegs g.arch h.arch

/-- A tile instruction that completes with flags of MXFLG in its entry (R116). -/
def ActsMx (i : Instr) (c : Ctl) (P : State → Group → Mask → Prop) (mx : State → Group → BitVec 4)
    (R : State → Group → Mask → State → Group → Prop) : Prop :=
  ∀ s g run pc, Able i c s g run pc → run &&& g.arch.parked = 0 → P s g (active c g run) →
    ∃ t h, exec i s = .next t ∧
      Entered c s t g h run { entryOf i (headOf c s g) pc run (active c g run) 0 with mx := mx s g } (fun _ => nextPc pc) ∧
      R s (headOf c s g) (active c g run) t h

/-- A group's fields other than `staged` and those an issue changes. -/
def SameButStaged (g h : Group) : Prop := withIssueOf g { h with staged := g.staged } = g

/-- The signature that a TMAC leaves (R107): its group, its quadrant, how many threads, its word and the B quarter it names, with the
words of it that are poisoned (R76). -/
def signOf (i : Instr) (vb : Opd) (c : Ctl) (g : Group) (pc : Dword) : Sign :=
  ⟨g.key, g.quad, g.here.lanes.length, i, pc, g.here, g.seq,
    (g.arch.v.drop (vecNo vb)).map fun r => VReg.active r (active c g g.here), g.arch.poisonFrom (vecNo vb) (active c g g.here), g.nv⟩

/-! ## Branches, registers and the front end -/

/-- A branch (R29, R268): with every active lane's target legal, active lanes go there, the other lanes of the run fall through, and what a call
writes is the next slot's PC; with every target illegal no lane moves and trap 0x03 waits for delivery. -/
def Branches (i : Instr) (c : Ctl) (link : Opd) (target : Group → Dword → Nat → Dword) : Prop :=
  ∀ s g run pc, Able i c s g run pc →
    let act := active c g run
    ((∀ L, act.has L = true → checkTarget s g (target g pc L) = .ok) →
      ∃ t h, exec i s = .next t ∧
        Entered c s t g h run (entryOf i (headOf c s g) pc run act 0) (fun L => if act.has L then target g pc L else nextPc pc) ∧
        World t s ∧ SameArch g h ∧ withIssueOf g h = g ∧ Written g.arch h.arch true link act (fun _ => nextPc pc)) ∧
    ((∀ L, act.has L = true → checkTarget s g (target g pc L) = .illegal) →
      ∃ t L, exec i s = .next t ∧ act.low? = some L ∧ Trapped c s t g ⟨0x03, pc, act, target g pc L, 0⟩)

/-- The state once a front-end instruction that no XFENCE holds up has released at device scope (R202), and what that release covers. -/
def released (s : State) (g : Group) (act : Mask) : State × View := (s.wideRelease g [g.release s .device 0], g.coveredOf .device act)

/-- A front-end instruction has answered in a predicate: nothing else of its group has changed. -/
def Answered (g h : Group) (p : Opd) (act : Mask) (x : Bool) : Prop :=
  SameAfterCommit g h ∧ SameArch g h ∧ WrittenPrd g.arch h.arch p act fun _ => x

/-- Eight scalars from `n` on take eight words, and lose their poison (R405); every other scalar stays. -/
def EightScalars (a b : Arch) (n : Nat) (w : List Dword) : Prop :=
  b.v = a.v ∧ b.p = a.p ∧ (∀ x, x ∈ b.pois ↔ x ∈ a.pois ∧ ¬(x.1 = .scl ∧ n ≤ x.2.1 ∧ x.2.1 < n + 8)) ∧ ∀ k, b.sreg k = if n ≤ k ∧ k < n + 8 ∧ k < a.s.length then w.getD (k - n) 0 else a.sreg k

/-! ## Events -/

/-- An event has changed one group and nothing else of the machine: group `k` is now `h`. -/
structure ChangedGroup (s t : State) (k : GroupKey) (h : Group) : Prop where
  world  : World t s
  others : ∀ k', k' ≠ k → t.group? k' = s.group? k'
  mine   : t.group? k = some h

/-- The trap registers and the threads of a group that has entered the handler (R223, Tables 19-1 to 19-5): its entries and effects are gone
with its commit point, and the checkpoint of its entry is verified at once (R67). -/
structure InHandler (g h : Group) (now cause : Nat) (pc : Dword) (mask : Mask) (addr : Dword) : Prop where
  regs  : SameRegs g.arch h.arch
  tcause : h.arch.tcause = BitVec.ofNat 64 cause ||| 0x100
  tpc   : h.arch.tpc = pc
  tmask : h.arch.tmask = mask
  taddr : h.arch.taddr = addr
  thand : h.arch.thand = g.arch.thand
  fpctl : h.arch.fpctl = g.arch.fpctl
  held  : h.arch.heldSet = g.live &&& ~~~mask ∧ h.arch.heldPc = g.arch.pcs
  pcs   : ∀ L, L < g.arch.pcs.length → h.arch.pc L = if mask.has L then g.arch.thand else g.arch.pc L
  rest  : h.trap = none ∧ h.commit = none ∧ h.coll = 0 ∧ h.rob = [] ∧ h.staged = []
  ckpts : h.ckpts = [⟨g.seq, some now, true, h.arch⟩]

/-- A request in the mailbox of a present die that its endpoint takes (R245, R246, R248): the device answers, no takeover holds it up, its LEN
is enough, its reserved bytes are zero, and no other request of its mailbox is before it. -/
structure Asked (i : Instr) (m : Mbox) (len : Nat) (zero : List (Nat × Nat)) (s : State) : Prop where
  die   : ∃ k, m.src = .die k ∧ s.hasDie k = true
  alive : s.dev.classC = false ∧ s.dev.provisioned = true ∧ s.dev.takeover = none
  code  : (m.ep, m.op) = codeOf i
  held  : (∀ h ∈ s.dev.held, h.1.src ≠ m.src) ∧ ∀ u ∈ s.dev.unanswered, u.1 ≠ m.src
  len   : len ≤ m.len ∧ m.len ≤ 4080
  zero  : ∀ z ∈ zero, fieldAt (mboxBytes m) z.1 z.2 = 0

/-- State `u`, with a request answered (R245): its status and reply body stand in its mailbox. -/
def Replied (m : Mbox) (u t : State) (status : Nat) (body : List Byte) : Prop :=
  t.dev.replies = ⟨m.src, m.seq, status, body⟩ :: u.dev.replies.filter (fun r => decide (r.src ≠ m.src)) ∧
    { t with dev := { t.dev with replies := u.dev.replies } } = u

/-- A request that, where `P` holds, changes the machine as `u` says and is answered with status 0 and `body`. -/
def Answers (i : Instr) (m : Mbox) (len : Nat) (zero : List (Nat × Nat)) (P : State → Prop) (u : State → State)
    (body : State → List Byte) : Prop :=
  ∀ s, Asked i m len zero s → P s → ∃ t, exec i s = .next t ∧ Replied m (u s) t 0 (body s)

/-- A request that only reads. -/
def Tells (i : Instr) (m : Mbox) (len : Nat) (zero : List (Nat × Nat)) (P : State → Prop) (body : State → List Byte) : Prop :=
  Answers i m len zero P id body

/-! ## The machine as a whole -/

/-- The instructions that wait or act whatever their active mask (R279): group-collective points (R33, R224, R291), commit points (R67), and
BFREE, which is a region head whatever its HD says (R104). -/
def actsAlone : Instr → Bool
  | .gsync .. | .lxch .. | .lvote .. | .lred .. | .lscn .. | .getl .. | .putl .. | .tmac .. | .barsync .. | .tret .. => true
  | .exit .. | .trap .. | .atom .. | .acas .. | .wqenq .. | .launch .. | .wqdeq .. | .narm .. | .llock .. | .lunlk .. | .pub .. => true
  | .coll .. | .nsend .. | .bfree .. => true
  | .fence _ k _ => k == .sc
  | .setsr _ r _ => [SReg.fpctl, .scopemd, .arena, .thand, .clkreq, .sensev, .rstrt].contains r
  | _ => false

/-- What the next step fetches for a group names a resident group, and the agenda holds events, no instructions. -/
def Scheduled (s : State) : Prop :=
  (∀ f, s.latch = some f → (s.group? f.issue.group).isSome = true) ∧ ∀ e ∈ s.agenda, e.2.ctl = none

end Sys2Proof.Claims
end

