-- ==== Sys2Proof/Certificates/Slice0/Obligations.lean ====
section
/-! DEFINITION. Certificates/Slice0/Obligations.lean: the statements for the provers, in the terms of Safety.lean. -/

open Sys2Proof Sys2Proof.Machine Sys2Proof.Claims

/-! ## Serving an instruction -/

/-- R286, R334 to R336, R359 to R362, R377, R390, R391, Tables 25-6 and 26-4: the integer arithmetic (exact, saturated where asked, modulo the
width, extended), logic, shifts (by bits 7:0; by the width or more leaves zero, or copies of the sign for SAR), bit fields, moves,
selection, comparison and predicate logic. Each completes, its destination takes the result, and nothing else changes. -/
def Obligations.IntegerInstructions : Prop :=
  (∀ (c : Ctl) (sat : Bool) (ty : Ty) (d a b e : Opd),
     Writes (.iadd c sat ty d a b) c ty.wide d (fun r L => extendInt ty (clamped sat ty (readInt r ty a L + readInt r ty b L))) ∧
     Writes (.isub c sat ty d a b) c ty.wide d (fun r L => extendInt ty (clamped sat ty (readInt r ty a L - readInt r ty b L))) ∧
     Writes (.imul c ty d a b) c ty.wide d (fun r L => extendInt ty (readInt r ty a L * readInt r ty b L)) ∧
     Writes (.imulh c ty d a b) c ty.wide d (fun r L => extendInt ty (readInt r ty a L * readInt r ty b L / 2 ^ ty.bits)) ∧
     Writes (.imad c ty d a b e) c ty.wide d
       (fun r L => extendInt ty (readInt r ty a L * readInt r ty b L + readInt r ty e L)) ∧
     Writes (.imin c ty d a b) c ty.wide d
       (fun r L => extendInt ty (if readInt r ty a L ≤ readInt r ty b L then readInt r ty a L else readInt r ty b L)) ∧
     Writes (.imax c ty d a b) c ty.wide d
       (fun r L => extendInt ty (if readInt r ty a L ≤ readInt r ty b L then readInt r ty b L else readInt r ty a L)) ∧
     Writes (.iabs c sat ty d a) c ty.wide d
       (fun r L => extendInt ty (clamped sat ty (if readInt r ty a L < 0 then -readInt r ty a L else readInt r ty a L))) ∧
     Writes (.ineg c sat ty d a) c ty.wide d (fun r L => extendInt ty (clamped sat ty (-readInt r ty a L)))) ∧
  (∀ (c : Ctl) (ty : Ty) (d a b : Opd),
     Writes (.and c ty d a b) c ty.wide d (fun r L => bits ty (readBits r ty a L &&& readBits r ty b L)) ∧
     Writes (.or c ty d a b) c ty.wide d (fun r L => bits ty (readBits r ty a L ||| readBits r ty b L)) ∧
     Writes (.xor c ty d a b) c ty.wide d (fun r L => bits ty (readBits r ty a L ^^^ readBits r ty b L)) ∧
     Writes (.not c ty d a) c ty.wide d (fun r L => bits ty (2 ^ ty.bits - 1 - readBits r ty a L)) ∧
     Writes (.shl c ty d a b) c ty.wide d
       (fun r L => if ty.bits ≤ read8 r b L then 0 else bits ty (readBits r ty a L <<< read8 r b L)) ∧
     Writes (.shr c ty d a b) c ty.wide d
       (fun r L => if ty.bits ≤ read8 r b L then 0 else bits ty (readBits r ty a L >>> read8 r b L)) ∧
     Writes (.sar c ty d a b) c ty.wide d
       (fun r L =>
         let x := readBits r ty a L
         let sgn := decide (2 ^ (ty.bits - 1) ≤ x)
         let fill := if sgn then 2 ^ ty.bits - 1 else 0
         if ty.bits ≤ read8 r b L then bits ty fill
         else bits ty (x / 2 ^ read8 r b L + (fill - fill / 2 ^ read8 r b L))) ∧
     Writes (.rot c ty d a b) c ty.wide d
       (fun r L => bits ty (readBits r ty a L * 2 ^ (read8 r b L % ty.bits) +
         readBits r ty a L / 2 ^ (ty.bits - read8 r b L % ty.bits)))) ∧
  (∀ (c : Ctl) (ty : Ty) (d a b e f : Opd),
     Writes (.bxt c ty d a b e) c ty.wide d (fun r L => bxtField ty (readBits r ty a L) (read8 r b L) (read8 r e L)) ∧
     Writes (.bins c ty d a b e f) c ty.wide d
       (fun r L => bits ty (binsValue ty.bits (readBits r ty a L) (readBits r ty b L) (read8 r e L) (read8 r f L))) ∧
     Writes (.bcnt c ty d a) c false d (fun r L => BitVec.ofNat 64 (popCount ty.bits (readBits r ty a L))) ∧
     Writes (.lzc c ty d a) c false d (fun r L => BitVec.ofNat 64 (leadZeros ty.bits (readBits r ty a L))) ∧
     Writes (.tzc c ty d a) c false d (fun r L => BitVec.ofNat 64 (trailZeros ty.bits (readBits r ty a L))) ∧
     Writes (.brvs c ty d a) c ty.wide d (fun r L => bits ty (reverseBits ty.bits (readBits r ty a L))) ∧
     Writes (.bperm c d a b e) c false d
       (fun r L =>
         let t := fun (n : Nat) => bpermByte (read32 r a L + read32 r b L * 2 ^ 32) (read32 r e L / 2 ^ (4 * n) % 16)
         BitVec.ofNat 64 (t 0 + t 1 * 2 ^ 8 + t 2 * 2 ^ 16 + t 3 * 2 ^ 24)) ∧
     Writes (.ixa c ty d a b e) c true d
       (fun r L =>
         let x : Int := if ty.isS ∧ 2 ^ 31 ≤ read32 r b L then (read32 r b L : Int) - 2 ^ 32 else read32 r b L
         readRaw r true a L + BitVec.ofInt 64 (x * 2 ^ (immVal e).toNat))) ∧
  (∀ (c : Ctl) (k : Cond) (op : PredOp) (ty : Ty) (d a b p : Opd) (imm : BitVec 32),
     WritesPrd (.icmp c k ty d a b) c d (fun r L => condInt k (readInt r ty a L) (readInt r ty b L)) ∧
     WritesPrd (.pand c op d a b) c d (fun r L => predOp op (predAt r a L) (predAt r b L)) ∧
     Writes (.sel c ty d p a b) c ty.wide d
       (fun r L => bits ty (if predAt r p L then readBits r ty a L else readBits r ty b L)) ∧
     Writes (.mov c ty d a) c ty.wide d (fun r L => bits ty (readBits r ty a L)) ∧
     Writes (.movi c ty d imm) c ty.wide d (fun _ _ => moviValue ty imm) ∧
     Writes (.movh c d imm) c true d (fun r L => imm ++ (readRaw r true d L).extractLsb' 0 32) ∧
     Writes (.scmovGet c d a) c false d (fun r L =>
       if L < 4 then BitVec.ofNat 64 (leNat (((sideOf r (vecNo a)).drop (4 * L)).take 4)) else 0))

/-- R286: what the bit counts and the reversal are, bit by bit, on every value of a width. -/
def Obligations.BitCountsMeanWhatTheySay : Prop :=
  ∀ (n x : Nat), x < 2 ^ n →
    (∀ i, i < n → (reverseBits n x).testBit i = x.testBit (n - 1 - i)) ∧ reverseBits n x < 2 ^ n ∧
    (x ≠ 0 → x.testBit (n - 1 - leadZeros n x) = true ∧ x.testBit (trailZeros n x) = true) ∧
    (∀ i, n - leadZeros n x ≤ i → x.testBit i = false) ∧ (∀ i, i < trailZeros n x → x.testBit i = false) ∧
    popCount n x + popCount n (2 ^ n - 1 - x) = n

/-! ## Floating point -/

/-- R317 to R320, Table 24-4: the float arithmetic, comparison, classes and special functions, each lane computed exactly and rounded once, with
its flags; R93 where a flag is enabled. FCLASS raises nothing. Where the model encloses a special function between two values that round
apart, it takes one of the two by a free choice (log 11). -/
def Obligations.FloatInstructions : Prop :=
  (∀ (c : Ctl) (rnd : Rnd) (x : Bool) (ty : Ty) (d a b e : Opd),
     WritesFp (.fadd c rnd ty d a b) c ty d (fun r L =>
       let z := (fpIn r ty a L).1.add (rndMode r.fpctl rnd) (fpIn r ty b L).1
       fpOut r rnd ty (z.1, (fpIn r ty a L).2 ||| (fpIn r ty b L).2 ||| z.2)) ∧
     WritesFp (.fsub c rnd ty d a b) c ty d (fun r L =>
       let z := (fpIn r ty a L).1.add (rndMode r.fpctl rnd) (fpIn r ty b L).1.neg
       fpOut r rnd ty (z.1, (fpIn r ty a L).2 ||| (fpIn r ty b L).2 ||| z.2)) ∧
     WritesFp (.fmul c rnd ty d a b) c ty d (fun r L =>
       let z := (fpIn r ty a L).1.mul (fpIn r ty b L).1
       fpOut r rnd ty (z.1, (fpIn r ty a L).2 ||| (fpIn r ty b L).2 ||| z.2)) ∧
     WritesFp (.ffma c rnd ty d a b e) c ty d (fun r L =>
       let z := Fv.fma (rndMode r.fpctl rnd) (fpIn r ty a L).1 (fpIn r ty b L).1 (fpIn r ty e L).1
       fpOut r rnd ty (z.1, (fpIn r ty a L).2 ||| (fpIn r ty b L).2 ||| (fpIn r ty e L).2 ||| z.2)) ∧
     WritesFp (.fmin c ty d a b) c ty d (fun r L => minMaxFp r ty false (readFp r ty a L) (readFp r ty b L)) ∧
     WritesFp (.fmax c ty d a b) c ty d (fun r L => minMaxFp r ty true (readFp r ty a L) (readFp r ty b L)) ∧
     WritesFp (.frnd c x rnd ty d a) c ty d (fun r L =>
       let z := fpIntegral (fmtOf ty) (rndMode r.fpctl rnd) x (fpIn r ty a L).1
       (z.1, (fpIn r ty a L).2 ||| z.2)) ∧
     WritesFp (.fscl c rnd ty d a b) c ty d (fun r L =>
       let z := (fpIn r ty a L).1.scale (BitVec.ofNat 32 (read32 r b L)).toInt
       fpOut r rnd ty (z.1, (fpIn r ty a L).2 ||| z.2))) ∧
  (∀ (c : Ctl) (k : Cond) (ty : Ty) (d a b : Opd),
     Flagged (.fcmp c k ty d a b) c .rne (fun _ _ => True)
       (fun g _ L => (fpIn g.arch ty a L).2 ||| (fpIn g.arch ty b L).2 |||
         condFlags k (fpIn g.arch ty a L).1 (fpIn g.arch ty b L).1)
       (fun g act r => WrittenPrd g.arch r d act fun L => condFp k (fpIn g.arch ty a L).1 (fpIn g.arch ty b L).1) ∧
     Writes (.fclass c ty d a) c false d (fun r L => BitVec.ofNat 64 (2 ^ fpClassOf ty (readFp r ty a L)))) ∧
  (∀ (c : Ctl) (rnd : Rnd) (ty : Ty) (d a : Opd),
     WritesFp (.frcp c rnd ty d a) c ty d (fun r L => fp1 r ty rnd a L frcpOf) ∧
     WritesFp (.frsq c rnd ty d a) c ty d (fun r L => fp1 r ty rnd a L frsqOf) ∧
     WritesFp (.fsqrt c rnd ty d a) c ty d (fun r L => fp1 r ty rnd a L fsqrtOf) ∧
     WritesFp (.fex2 c rnd ty d a) c ty d (fun r L => fp1e r ty rnd a L fex2Of) ∧
     WritesFp (.flg2 c rnd ty d a) c ty d (fun r L => fp1e r ty rnd a L flg2Of) ∧
     WritesFp (.fsin c rnd ty d a) c ty d (fun r L => fp1e r ty rnd a L fsinOf) ∧
     WritesFp (.fcos c rnd ty d a) c ty d (fun r L => fp1e r ty rnd a L fcosOf) ∧
     WritesFp (.ftnh c rnd ty d a) c ty d (fun r L => fp1e r ty rnd a L ftnhOf))

/-- R311, R96: CVT. With stochastic rounding it acts as the oldest of its group, steps the generator once, and each lane uses its draw. That an
immediate source of a float type stands for its integer exactly is the model's reading (log 18). -/
def Obligations.Conversion : Prop :=
  ∀ (c : Ctl) (rnd : Rnd) (sat : Bool) (form : Packing) (dty sty : Ty) (d a n : Opd),
    let k := if form = .plain then 0 else (immVal n).toNat
    let y := fun (g : Group) L => cvtOf g.arch rnd (drawn rnd g L k) sat form dty sty a n L
    Flagged (.cvt c rnd sat form dty sty d a n) c rnd (fun _ _ => True) (fun g _ L => (y g L).2)
      (fun g act r => Written g.arch r (form != .pk && dty.wide) d act fun L =>
        if form = .pk then BitVec.ofNat 64 (elemPut dty (read32 g.arch d L) k (y g L).1) else extend dty (y g L).1)

/-- Table 7-5, R97: rounding m × 2^e to a multiple n of 2^q. Below q the remainder is dropped by RZ, rounded away from or toward zero by RD and
RU as the sign says, and to the nearest by RNE and RNA, ties to even and away from zero, and up by SR when the remainder's top 16 bits and the draw carry; at or above q nothing is lost. -/
def Obligations.RoundingModes : Prop :=
  ∀ (mode : Rnd) (r : Nat) (neg : Bool) (m : Nat) (e q : Int),
    let n := (roundAt mode r neg m e q).1
    let inexact := (roundAt mode r neg m e q).2
    r < 2 ^ 16 →
    (q ≤ e → n = m * 2 ^ (e - q).toNat ∧ inexact = false) ∧
    (e < q →
      let u := 2 ^ (q - e).toNat
      (inexact = true ↔ m % u ≠ 0) ∧ (inexact = false → n * u = m) ∧
      (mode = .rz → n * u ≤ m ∧ m < (n + 1) * u) ∧
      (mode = .rd → (neg = false → n * u ≤ m ∧ m < (n + 1) * u) ∧ (neg = true → m ≤ n * u ∧ n * u < m + u)) ∧
      (mode = .ru → (neg = true → n * u ≤ m ∧ m < (n + 1) * u) ∧ (neg = false → m ≤ n * u ∧ n * u < m + u)) ∧
      (mode = .rne → 2 * (n * u) ≤ 2 * m + u ∧ 2 * m ≤ 2 * (n * u) + u ∧
        (2 * (n * u) = 2 * m + u ∨ 2 * m = 2 * (n * u) + u → n % 2 = 0)) ∧
      (mode = .rna → 2 * (n * u) ≤ 2 * m + u ∧ 2 * m < 2 * (n * u) + u) ∧
      (mode = .sr → n = m / u + if 2 ^ 16 ≤ m % u * 2 ^ 16 / u + r then 1 else 0))

/-- Unpacking is exact and injective (R81, Table 7-1): rounding the value of a finite nonzero pattern to its own format, in any mode and
without flushing, gives the pattern back and raises nothing. -/
def Obligations.FormatsRoundTrip : Prop :=
  ∀ (ty : Ty) (mode : Rnd) (r : Nat) (x : Nat) (neg : Bool) (m : Nat) (e : Int),
    ty ∈ [Ty.fp64, .fp32, .fp16, .bf16, .e5m2, .e4m3, .e3m2, .e2m3, .e2m1] → x < 2 ^ ty.bits →
    (fmtOf ty).unpack x = .fin neg m e → (fmtOf ty).ofFv ⟨mode, r, false, false⟩ (.fin neg m e) = (x, 0)

/-! ## Block-scaled forms and codebooks -/

/-- R365 to R368, R390, R300, R299: the block-scaled arithmetic; SCMOV.put, whose destination's sidecar takes the sixteen bytes of lanes 0 to 3 of the
source; CBXP, which expands codes through a codebook slot, a slot never loaded being trap 0x0C. -/
def Obligations.BlockScaledAndSidecars : Prop :=
  (∀ (c : Ctl) (rnd : Rnd) (ty : Ty) (d : Fin 256) (a b e : Opd),
     mxStates (.mxadd c rnd ty (.vec d) a b) c rnd ty (.vec d) (fun r L n =>
       let z := (mxElem r ty a L n).1.add (rndMode r.fpctl rnd) (mxElem r ty b L n).1
       (z.1, (mxElem r ty a L n).2 ||| (mxElem r ty b L n).2 ||| z.2)) ∧
     mxStates (.mxmul c rnd ty (.vec d) a b) c rnd ty (.vec d) (fun r L n =>
       let z := (mxElem r ty a L n).1.mul (mxElem r ty b L n).1
       (z.1, (mxElem r ty a L n).2 ||| (mxElem r ty b L n).2 ||| z.2)) ∧
     mxStates (.mxfma c rnd ty (.vec d) a b e) c rnd ty (.vec d) (fun r L n =>
       let z := Fv.fma (rndMode r.fpctl rnd) (mxElem r ty a L n).1 (mxElem r ty b L n).1 (mxElem r ty e L n).1
       (z.1, (mxElem r ty a L n).2 ||| (mxElem r ty b L n).2 ||| (mxElem r ty e L n).2 ||| z.2)) ∧
     mxStates (.mxnorm c rnd ty (.vec d) a) c rnd ty (.vec d) (fun r L n =>
       ((mxElem r ty a L n).1, (mxElem r ty a L n).2 ||| (mxElem r ty a L n).1.nvOf)) ∧
     mxStates (.mxpack c rnd ty (.vec d) a) c rnd ty (.vec d) (fun r L n =>
       let x := (fmtOf .fp32).operand (fpDaz r.fpctl 1) (r.vreg (vecNo a + n) L).toNat
       (x.1, x.2 ||| x.1.nvOf)) ∧
     (let f := fun (r : Arch) L =>
        let y := (fmtOf .fp32).ofFv (fpEnv r rnd .fp32) (mxElem r ty a L (immVal b).toNat).1
        (y.1, (mxElem r ty a L (immVal b).toNat).2 ||| y.2)
      Flagged (.mxunpk c rnd ty (.vec d) a b) c .rne (fun g act => ∀ q, q < mxBlocks ty g.w → (mxCover ty act q).isSome)
        (fun g _ L => (f g.arch L).2) fun g act r => Written g.arch r false (.vec d) act fun L => extend .fp32 (f g.arch L).1)) ∧
  (∀ (c : Ctl) (d : Fin 256) (a : Opd) (s : State) (g : Group) (run : Mask) (pc : Dword),
     Able (.scmovPut c (.vec d) a) c s g run pc →
     ∃ t h, exec (.scmovPut c (.vec d) a) s = .next t ∧ Issued (.scmovPut c (.vec d) a) c s t g h run (active c g run) pc 0 ∧
       (∀ n L, h.arch.vreg n L = g.arch.vreg n L) ∧ h.arch.s = g.arch.s ∧ h.arch.p = g.arch.p ∧ h.arch.pois = g.arch.pois ∧
       (∀ n, n ≠ d.val → sideOf h.arch n = sideOf g.arch n) ∧
       (d.val < g.arch.v.length → ∀ b, b < 16 →
         (sideOf h.arch d.val).getD b 0 = (g.arch.vreg (vecNo a) (b / 4)).extractLsb' (8 * (b % 4)) 8)) ∧
  (∀ (c : Ctl) (ty : Ty) (d a slot q : Opd) (s : State) (g : Group) (run : Mask) (pc : Dword),
     Able (.cbxp c ty d a slot q) c s g run pc →
     (∀ r img, s.rank? g.key.team g.rank = some r → assoc r.cb (readRaw g.arch false slot 0).toNat = some img →
       ∃ t h, exec (.cbxp c ty d a slot q) s = .next t ∧ Issued (.cbxp c ty d a slot q) c s t g h run (active c g run) pc 0 ∧
         Written g.arch h.arch false d (active c g run) fun L =>
           let entry := fun k => leNat ((img.drop (2 * elemOf .cb4 (read32 g.arch a L) k)).take 2)
           if ty = .bf16 then
             BitVec.ofNat 64 (entry (2 * (immVal q).toNat) + entry (2 * (immVal q).toNat + 1) * 65536)
           else BitVec.ofNat 64 (entry (immVal q).toNat * 65536)) ∧
     ((∀ r, s.rank? g.key.team g.rank = some r → assoc r.cb (readRaw g.arch false slot 0).toNat = none) →
       ∃ t, exec (.cbxp c ty d a slot q) s = .next t ∧ Trapped c s t g ⟨0x0C, pc, active c g run, 0, 0⟩))

/-- R27, R50, R88, R124, R278, R279: an instruction that is neither a collective point nor a commit point, with no lane active, retires as a no-op;
with a lane active and a register past the declared counts it takes trap 0x02 and writes nothing. An MX instruction that finds a block only
partly covered by its active lanes takes trap 0x02. A load or a store with one active lane, misaligned, takes trap 0x05 there, with TADDR
its address. None of them does anything else. -/
def Obligations.TrapsAndNoOps : Prop :=
  (∀ (i : Instr) (c : Ctl) (s : State) (g : Group) (run : Mask) (pc : Dword),
    i.ctl = some c → actsAlone i = false → Turn s g run pc → run ≠ 0 → (c.hd = true → g.unverified < 4) → g.holdsBack i = false →
    (active c g run = 0 → Untainted i g run 0 → ∃ t h, exec i s = .next t ∧ Issued i c s t g h run 0 pc 0 ∧ SameRegs g.arch h.arch) ∧
    (active c g run ≠ 0 → g.unready i run = false → i.regs.all g.declares = false →
      ∃ t, exec i s = .next t ∧ Trapped c s t g ⟨0x02, pc, active c g run, 0, 0⟩)) ∧
  (∀ (c : Ctl) (rnd : Rnd) (ty : Ty) (d a b e : Opd) (i : Instr) (s : State) (g : Group) (run : Mask) (pc : Dword) (q : Nat),
     i ∈ [Instr.mxadd c rnd ty d a b, .mxmul c rnd ty d a b, .mxfma c rnd ty d a b e, .mxnorm c rnd ty d a, .mxpack c rnd ty d a,
       .mxunpk c rnd ty d a b] →
     Able i c s g run pc → q < mxBlocks ty g.w → mxCover ty (active c g run) q = none →
     ∃ t, exec i s = .next t ∧ Trapped c s t g ⟨0x02, pc, active c g run, 0, 0⟩) ∧
  (∀ (c : Ctl) (sp : Space) (hint : BitVec 3) (ty : Ty) (d t1 t2 t3 : Opd) (L : Nat) (i : Instr),
     i ∈ [Instr.ld c sp hint ty d t1 t2 t3, .st c sp hint ty d t1 t2 t3] →
     TrapsWhere i c
       (fun _ g act => act = Mask.bit L ∧ L < 64 ∧ Unfenced g ∧
         addrSum g.arch (memBytes ty) t1 t2 t3 L % memAlign ty ≠ 0)
       0x05 (fun _ act => act) (fun g _ => addrSum g.arch (memBytes ty) t1 t2 t3 L))

/-! ## Lane instructions -/

/-- R353, R354, R356, R357, R326, R381, R33: the lane instructions, once every thread that counts has gathered and some lane is active. A
thread that reaches one before the others have is held there, whatever its guard; and when all have gathered with no lane active it is a
no-op. -/
def Obligations.LaneInstructions : Prop :=
  (∀ (c : Ctl) (m : XchMode) (op : RedOp) (ex : Bool) (ty : Ty) (d a b : Opd),
     Collects (.lxch c m ty d a b) c (fun _ act => act ≠ 0) (fun _ _ => 0) (fun g act r =>
       Written g.arch r ty.wide d act fun L =>
         let n := read32 g.arch b L
         let from_ := match m with
           | .idx => if n < g.w then n else L
           | .up => if n ≤ L ∧ L - n < g.w then L - n else L
           | .dn => if L + n < g.w then L + n else L
           | .xor => if L ^^^ n < g.w then L ^^^ n else L
         readRaw g.arch ty.wide a from_) ∧
     (∀ vm : VoteMode, vm ≠ .bal → Collects (.lvote c vm d a) c (fun _ act => act ≠ 0) (fun _ _ => 0) (fun g act r =>
       WrittenPrd g.arch r d act fun _ =>
         let yes := act.lanes.filter fun L => predAt g.arch a L
         match vm with
         | .any => !yes.isEmpty
         | .all => yes == act.lanes
         | _ => yes.isEmpty || yes == act.lanes)) ∧
     Collects (.lvote c .bal d a) c (fun _ act => act ≠ 0) (fun _ _ => 0) (fun g act r =>
       Written g.arch r true d act fun _ => Mask.ofLanes (act.lanes.filter fun L => predAt g.arch a L)) ∧
     Collects (.lred c op ty d a) c (fun _ act => act ≠ 0) (fun g act => (redScan g.arch op ty (readBits g.arch ty a) act.lanes none).2)
       (fun g act r => Written g.arch r ty.wide d act fun _ =>
         extend ty (((redScan g.arch op ty (readBits g.arch ty a) act.lanes none).1.getLast?.map fun e => e.2.2).getD 0)) ∧
     Collects (.lscn c ex op ty d a) c (fun _ act => act ≠ 0) (fun g act => (redScan g.arch op ty (readBits g.arch ty a) act.lanes none).2)
       (fun g act r => Written g.arch r ty.wide d act fun L =>
         match (redScan g.arch op ty (readBits g.arch ty a) act.lanes none).1.find? fun e => e.1 = L with
         | some (_, before, x) => extend ty (if ex then before.getD (redIdent op ty) else x)
         | none => extend ty 0) ∧
     Collects (.getl c ty d a b) c (fun g act => act ≠ 0 ∧ read32 g.arch b 0 < g.w) (fun _ _ => 0) (fun g act r =>
       Written g.arch r true d act fun _ => readRaw g.arch ty.wide a (read32 g.arch b 0)) ∧
     Collects (.putl c ty d a b) c (fun g act => act ≠ 0 ∧ read32 g.arch b 0 < g.w) (fun _ _ => 0) (fun g _ r =>
       Written g.arch r ty.wide d (Mask.bit (read32 g.arch b 0)) fun _ => readRaw g.arch ty.wide a 0)) ∧
  (∀ (c : Ctl) (m : XchMode) (vm : VoteMode) (op : RedOp) (ex : Bool) (ty : Ty) (d a b : Opd) (i : Instr)
     (s : State) (g : Group) (run : Mask) (pc : Dword),
     i ∈ [Instr.lxch c m ty d a b, .lvote c vm d a, .lred c op ty d a, .lscn c ex op ty d a, .getl c ty d a b, .putl c ty d a b] →
     Admitted i c s g run pc →
     (let held := Group.endTurn { g with coll := g.coll ||| run, blocked := g.blocked &&& ~~~run }
      g.gathered run pc = false → held.mismatch = none →
        ∃ t, exec i s = .next t ∧ OnlyGroup s t g.key ∧ t.group? g.key = some held) ∧
     (Gathered i c s g run pc → active c g g.here = 0 →
       ∃ t h, exec i s = .next t ∧ Issued i c s t { g with coll := 0 } h g.here 0 pc 0 ∧ SameRegs g.arch h.arch))

/-- R356 and R357: an integer reduction is the left fold of its operation over the active lanes in ascending order, and a scan's value after
a lane is the reduction of the lanes up to it. -/
def Obligations.ReductionIsAFold : Prop :=
  ∀ (r : Arch) (op : RedOp) (ty : Ty) (f : Nat → Nat) (K : Nat) (ls : List Nat),
    op ∈ [RedOp.add, .min, .max, .and, .or, .xor] →
    let scan := redScan r op ty f (K :: ls) none
    scan.2 = 0 ∧
    scan.1.map (fun e => e.1) = K :: ls ∧
    (scan.1.getLast?.map fun e => e.2.2) = some (ls.foldl (fun x L => (redStep r op ty x (f L)).1) (f K)) ∧
    ∀ n, n < ls.length + 1 → (scan.1[n]?.map fun e => e.2.2) =
      some ((ls.take n).foldl (fun x L => (redStep r op ty x (f L)).1) (f K))

/-! ## Memory -/

/-- R346, R349, R348, R174, R378: LD, LDREF and LDACQ read, in every lane, bytes of the group's own staged stores or of a state no older than the
reader has seen; LDREF's predicate takes a tag. Nothing in memory changes. PREF completes with no effect on a register or on memory. -/
def Obligations.LoadsReadMemory : Prop :=
  (∀ (c : Ctl) (sp : Space) (hint : BitVec 3) (sc : Scope) (ty : Ty) (d t1 t2 t3 pt : Opd),
     Loads (.ld c sp hint ty d t1 t2 t3) c sp (memBytes ty) (memAlign ty) (!d.isVec)
       (fun g => addrSum g.arch (memBytes ty) t1 t2 t3) (fun _ _ _ _ => True)
       (fun _ g act r _ f => Written g.arch r ty.wide d act fun L => loaded ty (leNat (f L))) ∧
     Loads (.ldacq c sp sc ty d t1 t2 t3) c sp (memBytes ty) (memAlign ty) (!d.isVec)
       (fun g => addrSum g.arch (memBytes ty) t1 t2 t3)
       (fun s g act acc => (sc = .system → g.posted = false) ∧
         acquireCheck s g sc (reachHome g (perLane (!d.isVec) act (act.lanes.map acc))) = .go)
       (fun _ g act r _ f => Written g.arch r ty.wide d act fun L => loaded ty (leNat (f L))) ∧
     Loads (.ldref c sp hint d t1 t2 t3 pt) c sp 8 8 (!d.isVec) (fun g => addrSum g.arch 8 t1 t2 t3)
       (fun _ _ _ _ => True)
       (fun s g act r acc f => ∃ (tag : Nat → Bool) (q : Arch), Written g.arch q true d act (fun L => BitVec.ofNat 64 (leNat (f L))) ∧
         WrittenPrd q r pt act tag ∧
         ∀ L K ch, act.has L = true → (if d.isVec then K = L else act.low? = some K) → (acc K).chunks = [ch] → ch.tgt = .mem → ch.n = 8 →
           ch.addr % 8 = 0 →
           match g.fwdTag ch.addr with
           | some b => tag L = b
           | none => ∃ o ∈ s.moments g (g.viewOf (if d.isVec then Mask.bit L else act)) false ch (ch.addr / 64 * 64),
               tag L = (s.wordSeen g .mem o ch.addr).tag ∧ f K = (List.range 8).map fun n => byteSeen s g .mem o (ch.addr + n))) ∧
  (∀ (c : Ctl) (sp : Space) (hint : BitVec 3) (ty : Ty) (t1 t2 t3 : Opd),
     Acts (.pref c sp hint ty t1 t2 t3) c (fun _ _ _ => True) (fun s g _ t h =>
       LoadWorld s t ∧ t.fresh = s.fresh ∧ SameArch g h ∧ SameRegs g.arch h.arch ∧ withIssueOf g h = g))

/-- R394, R63, R66: ST, STREL and STREF complete by staging effects that write each active lane's bytes at the address its operands give:
one for what the core applies itself, and one for what a holder elsewhere does. -/
def Obligations.StoresAreStaged : Prop :=
  ∀ (c : Ctl) (sp : Space) (hint : BitVec 3) (sc : Scope) (ty : Ty) (x t1 t2 t3 : Opd),
    Stores (.st c sp hint ty x t1 t2 t3) c sp (memBytes ty) (memAlign ty) hint.toNat (storesOnce x t1 t2 t3) .clear none
      (fun g => addrSum g.arch (memBytes ty) t1 t2 t3) (fun _ _ => True)
      (fun g L => leBytes (memBytes ty) (memVal g.arch ty x L)) ∧
    Stores (.strel c sp sc ty x t1 t2 t3) c sp (memBytes ty) (memAlign ty) 0 (storesOnce x t1 t2 t3) .clear (some sc)
      (fun g => addrSum g.arch (memBytes ty) t1 t2 t3) (fun _ _ => True)
      (fun g L => leBytes (memBytes ty) (memVal g.arch ty x L)) ∧
    Stores (.stref c sp hint x t1 t2 t3) c sp 8 8 hint.toNat (storesOnce x t1 t2 t3) .set none (fun g => addrSum g.arch 8 t1 t2 t3)
      (fun acc m => ∀ L, m.has L = true → deviceOnly (acc L) = none)
      (fun g L => leBytes 8 (memVal g.arch .b64 x L))

/-- R48: a byte that the group's own staged stores hold is read from the newest of them, and no other. -/
def Obligations.YoungestStoreForwards : Prop :=
  ∀ (g : Group) (e : Effect) (t : Target) (p : Piece) (tag : TagOp) (sc : Option Scope) (a : Nat) (b : Byte),
    e.kind = .write [p] tag sc →
    (p.tgt = t → p.addr ≤ a → p.data[a - p.addr]? = some b →
      ({ g with staged := g.staged ++ [e] } : Group).fwdByte t a = some b) ∧
    ((p.tgt ≠ t ∨ a < p.addr ∨ p.addr + p.data.length ≤ a) →
      ({ g with staged := g.staged ++ [e] } : Group).fwdByte t a = g.fwdByte t a)

/-- R124, R125, Table 10-1: where the accesses of lanes fault. A misaligned lane finds 0x05; a scratchpad access past the allotment 0x06; a
lane inside it reaches its own bytes. -/
def Obligations.ScratchpadLimits : Prop :=
  ∀ (s : State) (g : Group) (k : Access) (size align L a : Nat),
    (a % align ≠ 0 → ∀ sp, laneAcc s g k sp size align L a = .bad 0x05) ∧
    (a % align = 0 → s.allot g < a + size → laneAcc s g k .own size align L a = .bad 0x06) ∧
    (a % align = 0 → a + size ≤ s.allot g →
      laneAcc s g k .own size align L a = .ok ⟨L, a, [⟨.scr g.rank, a, size, none, a⟩]⟩) ∧
    (a % align = 0 → (2 ^ 28 ≤ a ∨ a / 2 ^ 18 % 64 ≠ 0 ∨ s.rankCount g ≤ a / 2 ^ 24 % 16 ∨ s.allot g < a % 2 ^ 18 + size) →
      laneAcc s g k .team size align L a = .bad 0x06) ∧
    (∀ r o, a = r * 2 ^ 24 + o → r < 16 → o < 2 ^ 18 → a % align = 0 → r < s.rankCount g → o + size ≤ s.allot g →
      laneAcc s g k .team size align L a = .ok ⟨L, a, [⟨.scr r, o, size, none, a⟩]⟩)

/-- R149, R350: LLOCK at its gate, for lines the core holds writable and nobody has locked, pins them in M for its group; LUNLK gives up
the lines its group holds. No byte of memory changes. -/
def Obligations.LineLocks : Prop :=
  ∀ (c : Ctl) (t1 t2 : Opd) (acc : Nat → Acc),
    let P := fun (s : State) (g : Group) (act : Mask) =>
      Reaches s g act .read .glob 1 1 (addrSum g.arch 4 t1 t2 .none) acc ∧ ∀ L, act.has L = true → windowPage (acc L) = false
    let lines := fun (act : Mask) => (lockLines (act.lanes.map acc)).map Prod.fst
    let fresh := fun (s : State) (g : Group) (act : Mask) => (lines act).filter fun l => !(s.coreLocks g.core).contains (l, g.key)
    Commits (.llock c .glob t1 t2) c
      (fun s g act => P s g act ∧ (lines act).length + (s.coreLocks g.core).length ≤ 16 ∧
        ∀ l ∈ lines act, s.lockOf l = none ∧ s.coh.owns g.core l = true)
      (fun s g act t h => SameAfterCommit g h ∧ SameArch g h ∧ SameRegs g.arch h.arch ∧ t.ram = s.ram ∧ t.parts = s.parts ∧
        (∀ l ∈ fresh s g act, (t.coh.line l).state = .m ∧ (t.coh.line l).owner = some g.core) ∧
        t.teams = (onRank s g fun r => { r with locks := r.locks ++ (fresh s g act).map fun l => (l, g.key) }).teams) ∧
    Commits (.lunlk c .glob t1 t2) c P
      (fun s g act t h => SameAfterCommit g h ∧ SameArch g h ∧ SameRegs g.arch h.arch ∧ t.ram.mem = s.ram.mem ∧
        t.ram.tags = s.ram.tags ∧ t.parts = s.parts ∧ t.coh.lines = s.coh.lines ∧
        t.teams = (onRank s g fun r => { r with locks := r.locks.filter fun x =>
          !(decide (x.2 = g.key) && (lines act).contains x.1) }).teams)

/-- R283, R145, R146, Tables 11-3, 11-4 and 23-3: ATOM and ACAS at their gate, in every space and width, lane by lane in ascending order, on
storage that takes the operation. Each lane's destination takes what its location held, the location takes the new value (for ACAS only
where it held what was compared), and no other byte of any space changes. A 64-bit atomic, FMIN or FMAX on a scratchpad is trap 0x09, and
a lane that is not aligned trap 0x05. What an atomic writes, operation by operation. -/
def Obligations.Atomics : Prop :=
  (∀ (c : Ctl) (op : RedOp) (ord : Sys2Proof.Ordering) (sc : Scope) (sp : Space) (ty : Ty) (d a b x : Opd),
     (ty.bits = 32 ∨ ty.bits = 64) →
     let ad := fun (g : Group) => addrSum g.arch (memBytes ty) a b .none
     let i : Instr := .atom c op ord sc sp ty d a b x
     let j : Instr := .acas c sc sp ty d a b x
     Atomic i c (ord == .acquire || ord == .acqRel) (some op) sc sp ty d ad
       (fun g L old => some (atomNew g.arch op ty old (memVal g.arch ty x L % 2 ^ ty.bits))) ∧
     Atomic j c true none sc sp ty d ad
       (fun g L old => if old = readBits g.arch ty x L then some (readBits g.arch ty ((acasNew ty x).getD .none) L) else none) ∧
     (∀ acc : Nat → Acc,
       let P := fun (s : State) (g : Group) (act : Mask) =>
         sp ≠ .glob ∧ Reaches s g act .atomic sp (memBytes ty) (memBytes ty) (ad g) acc
       let first := fun (g : Group) (act : Mask) => ad g (act.low?.getD 0)
       TrapsAtGate i c (fun s g act => P s g act ∧ (ty.wide = true ∨ op = .fmin ∨ op = .fmax)) 0x09 (fun _ act => act) first ∧
       TrapsAtGate j c (fun s g act => P s g act ∧ ty.wide = true) 0x09 (fun _ act => act) first) ∧
     ∀ L, L < 64 →
       let P := fun (_ : State) (g : Group) (act : Mask) => act = Mask.bit L ∧ Unfenced g ∧ ad g L % memBytes ty ≠ 0
       TrapsAtGate i c P 0x05 (fun _ act => act) (fun g _ => ad g L) ∧ TrapsAtGate j c P 0x05 (fun _ act => act) (fun g _ => ad g L)) ∧
  (∀ (a : Arch) (ty : Ty) (old x : Nat), ty ∈ [Ty.n32, .n64, .s32, .s64, .b32, .b64] → old < 2 ^ ty.bits → x < 2 ^ ty.bits →
     atomNew a .add ty old x = (old + x) % 2 ^ ty.bits ∧
     atomNew a .and ty old x = old &&& x ∧ atomNew a .or ty old x = old ||| x ∧ atomNew a .xor ty old x = old ^^^ x ∧
     atomNew a .exch ty old x = x ∧
     atomNew a .incw ty old x = (if x ≤ old then 0 else old + 1) ∧
     (ty.isS = false → atomNew a .min ty old x = min old x ∧ atomNew a .max ty old x = max old x))

/-- R176, R186: the fences complete and change no register and no byte; FENCE.acq, rel and ar at once, FENCE.sc at its gate, in the place it
takes in the total order. XFENCE makes later accesses of its second class wait for the earlier ones of its first. -/
def Obligations.Fences : Prop :=
  ∀ (c : Ctl) (sc : Scope) (k : FenceKind) (src dst : Fin 6),
    (k ≠ .sc → Acts (.fence c k sc) c (fun _ _ _ => True) fun s g act t h =>
      World t s ∧ SameButMem g h ∧ SameRegs g.arch h.arch ∧ withIssueOf g h = g ∧
      (∀ L, act.has L = true → L < g.arch.mem.threads.length → k ≠ .acq →
        ∃ r ∈ (h.thr L).rels, r.scope = sc ∧ r.lane = L ∧ r.agent = g.agent ∧ r.upto = g.seq) ∧
      (∀ L, act.has L = false → h.thr L = g.thr L)) ∧
    Commits (.fence c .sc sc) c (fun _ _ _ => True) (fun s g act t h =>
      { t with groups := s.groups, ram := { t.ram with sc := s.ram.sc } } = s ∧ SameRegs g.arch h.arch ∧ SameButMem g h ∧
      SameAfterCommit g h ∧ t.ram.sc.length = s.ram.sc.length + act.lanes.length ∧ t.ram.sc.drop act.lanes.length = s.ram.sc) ∧
    Acts (.xfence c src dst sc) c (fun _ _ _ => True) (fun s g _ t h =>
      World t s ∧ SameRegs g.arch h.arch ∧ SameButMem g h ∧ withIssueOf g h = g ∧
      h.arch.mem = { g.arch.mem with xfences := g.arch.mem.xfences ++ [⟨src.val, dst.val, g.seq, g.done src.val⟩] })

/-- R374: OBJINIT stages, for each lane whose object is translated, its header and the clearing of its tags; no register changes and no byte of
memory changes before the release. -/
def Obligations.ObjectInit : Prop :=
  ∀ (c : Ctl) (a len : Opd) (acc : Nat → Acc),
    Acts (.objinit c a len) c
      (fun s g act =>
        (∀ L, act.has L = true →
          objAcc s g L (baseTerm g.arch a L).toNat (readRaw g.arch false len L).toNat = .ok (acc L) ∧
          s.escape g (acc L) = false ∧ deviceOnly (acc L) = none) ∧
        Unfenced g ∧ s.entriesUsed g.core + act.lanes.length ≤ 512)
      (fun s g act t h =>
        LoadWorld s t ∧ SameArch g h ∧ SameRegs g.arch h.arch ∧ SameButStaged g h ∧
        ∃ es : List Effect, h.staged = g.staged ++ es ∧
          es.map Effect.kind = (if uniform a && uniform len then act.lanes.take 1 else act.lanes).map (fun L =>
            objEffect (if uniform a && uniform len then act else Mask.bit L) (acc L) (readRaw g.arch false len L).toNat) ∧ ∀ e ∈ es, e.seq = g.seq)

/-- R162, R379: PUB at its gate, first at its cluster's Drover, with one active lane whose walk comes to its end stores the reference there, sets the word's tag, and
changes no other byte and no register. -/
def Obligations.PublicationStores : Prop :=
  ∀ (c : Ctl) (sc : Scope) (x t1 t2 : Opd) (L pa : Nat) (p : Phys) (va : Nat),
    let acc : Acc := ⟨L, va, [⟨.mem, pa, 8, some p, va⟩]⟩
    let ref := fun (g : Group) => (readRaw g.arch true x L).toNat
    Commits (.pub c sc x t1 t2) c
      (fun s g act => act = Mask.bit L ∧ L < 64 ∧ Reaches s g act .write .glob 8 8 (addrSum g.arch 8 t1 t2 .none) (fun _ => acc) ∧
        s.ram.mem.wf = true ∧
        pa % 8 = 0 ∧ deviceOnly acc = none ∧ s.lockedOut g [acc] = false ∧ s.coh.owns g.core (pa / 64 * 64) = true ∧ g.walk = none ∧
        s.droverBusy g s.coh.nextId = false ∧
        let u := s.keepAcc false g [acc]
        ∃ t w, walkRun g walkFuel { u with coh := { u.coh with nextId := s.coh.nextId + 1 } } (Walk.start s.coh.nextId L (ref g)) = .done t w)
      (fun s g _ t h => SameAfterCommit g h ∧ SameRegs g.arch h.arch ∧ SameButMem g h ∧ t.teams = s.teams ∧ t.dies = s.dies ∧
        (∀ y, t.ram.mem.get y = if pa ≤ y ∧ y < pa + 8 then (leBytes 8 (ref g)).getD (y - pa) 0 else s.ram.mem.get y) ∧
        (∀ y, t.ram.tag y = if y / 8 = pa / 8 then true else s.ram.tag y))

/-- R331, R332: HOLDW. When the word of every active lane differs from what is compared it completes, and each lane's predicate says whether
what it then reads differs. While no lane's word does and its time is not over it waits, and nothing changes but that it is noted. -/
def Obligations.HoldWaits : Prop :=
  ∀ (c : Ctl) (sp : Space) (hint : BitVec 3) (ty : Ty) (d : Fin 16) (a b cmp e : Opd) (s : State) (g : Group) (run : Mask) (pc : Dword)
    (acc : Nat → Acc),
    let i : Instr := .holdw c sp hint ty (.prd d) a b cmp e
    let act := active c g run
    Able i c s g run pc → Reaches s g act .read sp (memBytes ty) (memAlign ty) (addrSum g.arch (memBytes ty) a b .none) acc →
    ((∀ L, act.has L = true → s.peek g (acc L) ≠ readBits g.arch ty cmp L) → Unheld s g act acc →
      (∀ L, act.has L = true → Sound s g (acc L)) →
      ∃ (t : State) (h : Group) (f : Nat → List Byte), exec i s = .next t ∧
        Entered c s t g h run (entryOf i (headOf c s g) pc run act 0) (fun _ => nextPc pc) ∧ LoadWorld s t ∧
        SameButMem g h ∧ withIssueOf g { h with loads := g.loads, holds := g.holds } = g ∧
        (∀ L, act.has L = true → Readings s g (g.viewOf (Mask.bit L)) (acc L) (f L)) ∧
        WrittenPrd g.arch h.arch (.prd d) act fun L => leNat (f L) != readBits g.arch ty cmp L) ∧
    ((∀ L, act.has L = true → s.peek g (acc L) = readBits g.arch ty cmp L) → g.holds = [] → 0 < holdTime g.arch e →
      ∃ t h, exec i s = .next t ∧ LoadWorld s t ∧ (∀ k, k ≠ g.key → t.group? k = s.group? k) ∧ t.group? g.key = some h ∧
        h = Group.endTurn
          { g with blocked := g.blocked ||| run, look := g.look &&& ~~~run, holds := [⟨pc, run, s.now + holdTime g.arch e, 0, false⟩] })

/-! ## Shape records, codebooks and engine commands -/

/-- R341, R298: KLD and CBLD read 128 and 32 bytes once and put them into the shape register and the codebook slot of the core rank; nothing
else but translations, requests and the loads on their way changes. -/
def Obligations.RecordLoads : Prop :=
  ∀ (c : Ctl) (k : Fin 64) (slot addr : Opd) (acc : Nat → Acc),
    let P := fun (n : Nat) (s : State) (g : Group) (act : Mask) =>
      Reaches s g act .read .glob n n (fun L => (baseTerm g.arch addr L).toNat) acc ∧ Unheld s g act acc ∧
        ∀ L, act.has L = true → Sound s g (acc L)
    let R := fun (put : List Byte → Rank → Rank) (s : State) (g : Group) (act : Mask) (t : State) (h : Group) =>
      { t with groups := s.groups, coh := s.coh, fresh := s.fresh, teams := s.teams } = s ∧ t.coh.lines = s.coh.lines ∧
        LoadGroup g h ∧ SameRegs g.arch h.arch ∧
        ∃ l L, act.low? = some L ∧ Readings s g (g.viewOf act) (acc L) l ∧ t.teams = (onRank s g (put l)).teams
    Acts (.kld c (.kreg k) addr) c
      (fun s g act => P 128 s g act ∧
        ∀ L l, act.low? = some L → Readings s g (g.viewOf act) (acc L) l → recOk l = true)
      (R fun l r => { r with k := assocPut r.k k.val l }) (fun s g => [.shape k.val (s.shape? g k.val)]) ∧
    (∀ n, n < 64 → Acts (.cbld c slot addr) c
      (fun s g act => P 32 s g act ∧ (readRaw g.arch true slot 0).toNat = n ∧ (rankOfG s g).readsSlot n = false ∧
        ((assoc (rankOfG s g).cb n).isSome = true ∨ s.cbUsed g.core < 64))
      (R fun l r => { r with cb := assocPut r.cb n l }) fun s g => [.book n (assoc (rankOfG s g).cb n)])

/-- R342, Table 25-2: KSET replaces one field of a valid record, where the value fits the field and the record stays legal; on a register with no
record it is trap 0x0C; with a value that does not fit, a selector above 23 or an illegal result it is trap 0x02. A field set in a record reads back, and the bytes of every other field stay. -/
def Obligations.RecordFieldSet : Prop :=
  (∀ (c : Ctl) (k : Fin 64) (sel x : Opd) (r l : List Byte),
     Acts (.kset c (.kreg k) sel x) c
       (fun s g _ => assoc (rankOfG s g).k k.val = some r ∧ recSet r (immVal sel).toNat (readRaw g.arch true x 0) = some l ∧ recOk l = true)
       (fun s g _ t h => World t (onRank s g fun y => { y with k := assocPut y.k k.val l }) ∧ SameArch g h ∧ SameRegs g.arch h.arch ∧
         withIssueOf g h = g) (fun _ _ => [.shape k.val (some r)]) ∧
     TrapsWhere (.kset c (.kreg k) sel x) c (fun s g _ => assoc (rankOfG s g).k k.val = none) 0x0C (fun _ act => act) (fun _ _ => 0) ∧
     TrapsWhere (.kset c (.kreg k) sel x) c
       (fun s g _ => assoc (rankOfG s g).k k.val = some r ∧ (23 < (immVal sel).toNat ∨ recSet r (immVal sel).toNat (readRaw g.arch true x 0) = none ∨
         (recSet r (immVal sel).toNat (readRaw g.arch true x 0) = some l ∧ recOk l = false)))
       0x02 (fun _ act => act) (fun _ _ => 0)) ∧
  (∀ (r l : List Byte) (n : Nat) (x : Dword), r.length = 128 → recSet r n x = some l →
     l.length = 128 ∧ ∃ a w g, selField n = some (a, w, g) ∧ recField l a w = x.toNat % 2 ^ (8 * w) ∧
       ∀ i, i < 128 → (i < a ∨ a + w ≤ i) → l[i]? = r[i]?)

/-- R343, R387, R324: TLD, TST, GATH and SCAT, with a valid record, legal operands and every element translated, are accepted: the command
waits in the group's list, its slot is taken, and no byte and no register changes until it runs. -/
def Obligations.BoxCommandsAccepted : Prop :=
  ∀ (c : Ctl) (hint : BitVec 3) (k : Fin 64) (tgt coord list : Opd) (kind : BoxKind) (i : Instr) (s : State) (g : Group) (run : Mask)
    (pc : Dword) (r : List Byte) (co : List Int) (x : BoxTarget),
    (i, kind) ∈ [(Instr.tld c hint (.kreg k) tgt coord, (⟨1, .tld, true, false⟩ : BoxKind)),
      (.tst c hint (.kreg k) tgt coord, ⟨1, .tst, false, false⟩),
      (.gath c hint (.kreg k) tgt coord list, ⟨3, .gath, true, true⟩), (.scat c hint (.kreg k) tgt coord list, ⟨3, .scat, false, true⟩)] →
    Able i c s g run pc → s.shape? g k.val = some r → boxCoords g r (sclNo coord) = some co →
    (kind.gath = true → 2 ≤ recRank r ∧ (readRaw g.arch true list 0).toNat % 4 = 0 ∧
      (readRaw g.arch true list 0).toNat + 4 * recBox r 1 ≤ s.allot g ∧
      listPoison s g (readRaw g.arch true list 0).toNat (recBox r 1) = none) →
    ((∃ q, tgt = .qreg q) ∨ ((∃ n, tgt = .scl n) ∧ (recPerm r = 0 ∨ (readRaw g.arch true tgt 0).toNat % 256 = 0) ∧
      (readRaw g.arch true tgt 0).toNat + boxBytes r ≤ s.allot g)) →
    permFits r (recPerm r) = true → (∀ y ∈ g.arch.mem.xfences, y.dst ≠ kind.cls) →
    boxTarget ⟨headOf c s g, run, active c g run, pc, i, c.hd⟩ s kind r tgt = .ok x →
    let us := boxUnits r co (if kind.gath then some (indexList s g (readRaw g.arch true list 0).toNat (recBox r 1)) else none)
    let b := boxProbe s g kind (codeUnit (recTy r)) (if codeGrain (recTy r) = 4 then 1 else codeUnit (recTy r)) us
    b.bad = none → b.miss = none → b.trans.length ≤ 32768 → s.spillUsed g.core + (b.trans.length - 512) ≤ 32768 →
    ∃ t h cmd, exec i s = .next t ∧ Entered c s t g h run (entryOf i (headOf c s g) pc run (active c g run) 0) (fun _ => nextPc pc) ∧
      { t with groups := s.groups, coh := s.coh, teams := s.teams } = s ∧ t.coh.lines = s.coh.lines ∧ t.teams = x.s.teams ∧
      SameButMem g h ∧ SameRegs g.arch h.arch ∧ withIssueOf g { h with cmds := g.cmds } = g ∧
      h.cmds = g.cmds ++ [cmd] ∧ cmd.seq = (headOf c s g).seq ∧ cmd.past = (hint == 3) ∧ cmd.cls = kind.cls ∧ cmd.kind = kind.kind ∧ cmd.tgt = x.tgt ∧ cmd.base = x.base ∧
      cmd.slot = x.slot ∧ cmd.pc = pc ∧ cmd.act = active c g run ∧ cmd.paused = false ∧
      cmd.elems = (if kind.prod && !recSkip r then b.elems else b.elems.filter fun e => e.addr.isSome)

/-! ## Circular buffers -/

/-- R382, R128, R129, Table 10-3: QCFG makes a buffer whose slots are all free; QACQ and QWAIT take the next free and filled slots and answer the first
of them; QCOMMIT and QFREE stage what gives them up. Memory stays. While nothing has been returned, taking `n` slots succeeds just when
`n` are free (filled, for a consumer), and moves `n` from free (filled) to held. -/
def Obligations.CircularBuffers : Prop :=
  (∀ (c : Ctl) (d n desc : Opd) (q : Fin 32) (x : Queue) (k : Nat),
     let size := fun (g : Group) => read32 g.arch n 0 = k ∧ 1 ≤ k ∧ k ≤ x.size
     Acts (.qcfg c (.qreg q) desc) c
       (fun s g _ => descOk (readRaw g.arch true desc 0).toNat = true ∧ ringFits s g (readRaw g.arch true desc 0).toNat = true ∧
         ((rankOfG s g).queue? q.val = none ∨ ∃ y, (rankOfG s g).queue? q.val = some y ∧ y.desc ≠ readRaw g.arch true desc 0 ∧
           (g.sees q.val y).h = 0 ∧ (g.sees q.val y).n = 0))
       (fun s g _ t h =>
         let w := readRaw g.arch true desc 0
         World t (onRank s g fun r =>
           { r.setQueue q.val (Queue.fresh r.nextId w (if descSpace w.toNat = 1 then r.binds w.toNat else none)) with
             nextId := r.nextId + 1 }) ∧
         SameArch g h ∧ SameRegs g.arch h.arch ∧ withIssueOf g h = g)
       (fun s g => [.queue q.val ((rankOfG s g).queue? q.val)]) ∧
     (∀ i x', Acts (.qacq c d (.qreg q) n) c
       (fun s g _ => (rankOfG s g).queue? q.val = some x ∧ descProd x.desc.toNat = 0 ∧ size g ∧ g.acquireOf q.val x k = some (i, x'))
       (fun s g act t h => World t (onRank s g fun r => r.setQueue q.val x') ∧ SameButMem g h ∧ SameButStaged g h ∧
         h.staged.map Effect.kind = g.staged.map Effect.kind ++ [.qacq x.id q.val i k] ∧
         Written g.arch h.arch true d act fun _ => BitVec.ofNat 64 (i % x.size))) ∧
     (∀ i x', Acts (.qwait c d (.qreg q) n) c
       (fun s g _ => (rankOfG s g).queue? q.val = some x ∧ descCons x.desc.toNat = 0 ∧ size g ∧ g.takeOf q.val x k = some (i, x'))
       (fun s g act t h => World t (onRank s g fun r => r.setQueue q.val x') ∧ SameButMem g h ∧ SameButStaged g h ∧
         h.staged.map Effect.kind = g.staged.map Effect.kind ++ [.qwait x.id q.val i k] ∧
         Written g.arch h.arch true d act fun _ => BitVec.ofNat 64 (i % x.size))) ∧
     Acts (.qcommit c (.qreg q) n) c
       (fun s g _ => (rankOfG s g).queue? q.val = some x ∧ descProd x.desc.toNat = 0 ∧ size g ∧
         Unfenced g ∧ k ≤ ((g.sees q.val x).heldAcq g.key).length)
       (fun s g _ t h => World t s ∧ SameArch g h ∧ SameRegs g.arch h.arch ∧ SameButStaged g h ∧
         h.staged.map Effect.kind = g.staged.map Effect.kind ++ [.qcommit x.id q.val k]) ∧
     Acts (.qfree c (.qreg q) n) c
       (fun s g _ => (rankOfG s g).queue? q.val = some x ∧ descCons x.desc.toNat = 0 ∧ size g ∧
         Unfenced g ∧ k ≤ ((g.sees q.val x).heldWait g.key).length)
       (fun s g _ t h => World t s ∧ SameArch g h ∧ SameRegs g.arch h.arch ∧ SameButStaged g h ∧
         h.staged.map Effect.kind = g.staged.map Effect.kind ++ [.qfree x.id q.val k])) ∧
  (∀ (q : Queue) (g : GroupKey) (n id : Nat) (d : Dword) (b : Option Nat),
     ((Queue.fresh id d b).f = (Queue.fresh id d b).size ∧ (Queue.fresh id d b).n = 0 ∧ (Queue.fresh id d b).h = 0) ∧
     (q.slots.length = q.size → q.free ≤ q.cons → q.cons ≤ q.fill → q.fill ≤ q.prod → q.prod ≤ q.free + q.size → 1 ≤ n →
       (q.backFree = [] →
         ((q.canAcquire n).isSome = true ↔ n ≤ q.f) ∧
         ∀ i x, q.canAcquire n = some i → x = q.holdAcq g i n → i = q.prod ∧ x.prod = q.prod + n ∧ x.f = q.f - n ∧ x.cons = q.cons ∧ x.fill = q.fill ∧
           x.free = q.free ∧ ∀ p, q.prod ≤ p → p < q.prod + n → x.at_ p = .acquired g) ∧
       (q.backFilled = [] →
         ((q.take g n).isSome = true ↔ n ≤ q.fill - q.cons) ∧
         ∀ i x, q.take g n = some (i, x) → i = q.cons ∧ x.cons = q.cons + n ∧ x.prod = q.prod ∧ x.fill = q.fill ∧ x.free = q.free ∧
           ∀ p, q.cons ≤ p → p < q.cons + n → x.at_ p = .waited g)))

/-! ## The matrix engine -/

/-- R103, R104, R106: BRSV reserves a run of the operand buffer that is legal and free; BFREE marks a reservation and stages its freeing; CVSET
declares the count of a convergence register that holds no signature. Each completes, and no register changes. -/
def Obligations.MatrixSetUp : Prop :=
  ∀ (c : Ctl) (b : Fin 16) (cr : Fin 16) (sa sb : Opd) (imm : BitVec 32),
    let off := fun (g : Group) => (readRaw g.arch true sa 0).toNat % 2 ^ 32
    let len := fun (g : Group) => (readRaw g.arch true sa 0).toNat / 2 ^ 32
    Acts (.brsv c (.breg b) sa sb) c
      (fun s g _ => assoc (rankOfG s g).b b.val = none ∧ fmtOk (readRaw g.arch true sb 0).toNat = true ∧ off g % 256 = 0 ∧ len g % 256 = 0 ∧
        256 ≤ len g ∧ (∃ tm, s.team? g.key.team = some tm ∧ off g + len g ≤ tm.blk.opbuf) ∧
        ∀ y ∈ (rankOfG s g).b, off g + len g ≤ y.2.off ∨ y.2.off + y.2.len ≤ off g)
      (fun s g _ t h => World t (onRank s g fun r =>
          { r with b := assocPut r.b b.val ⟨off g, len g, readRaw g.arch true sb 0, false, false⟩ }) ∧
        SameArch g h ∧ SameRegs g.arch h.arch ∧ withIssueOf g h = g) (fun _ _ => [.resv b.val none]) ∧
    (∀ y : Resv, ∀ s g run pc, Able (.bfree c (.breg b)) { c with hd := true } s g run pc → assoc (rankOfG s g).b b.val = some y →
      y.marked = false → (rankOfG s g).boundTo b.val = false →
      ∃ t h, exec (.bfree c (.breg b)) s = .next t ∧
        Entered { c with hd := true } s t g h run (entryOf (.bfree c (.breg b)) (headOf { c with hd := true } s g) pc run (active c g run) 0)
          (fun _ => nextPc pc) ∧
        World t (onRank s g fun r => { r with b := assocPut r.b b.val { y with marked := true } }) ∧
        SameArch g h ∧ SameRegs g.arch h.arch ∧ SameButStaged g h ∧
        h.staged.map Effect.kind = g.staged.map Effect.kind ++ [.bfree g.rank b.val]) ∧
    Acts (.cvset c (.creg cr) imm) c
      (fun s g _ => imm.toNat ≤ 256 ∧ imm ≠ 0 ∧ g.trap = none ∧ ∃ m, (rankOfG s g).conv cr.val = ⟨m, [], []⟩)
      (fun s g _ t h => World t (onRank s g fun r => r.setConv cr.val ⟨some imm.toNat, [], []⟩) ∧
        SameArch g h ∧ SameRegs g.arch h.arch ∧ withIssueOf g h = g) fun s g => [.count cr.val ((rankOfG s g).conv cr.val).count]

/-- R107, R108: a gathered TMAC signs its convergence register. Short of the declared count, or before one is declared, the signature stands in the
open generation; with it the count is reached, and one group of each quadrant having signed and nothing found wrong (R122), the
generation closes and its operation is queued. No register and no byte of memory changes. -/
def Obligations.MatrixSignature : Prop :=
  ∀ (c : Ctl) (n : Bool) (ty : Ty) (z bq vb p : Opd) (cr : Fin 16) (cnt : Option Nat) (cur : List Sign),
    let i : Instr := .tmac c n ty z bq vb (.creg cr) p
    ∀ s g run pc, Gathered i c s g run pc → vecNo vb < g.nv → (∀ x ∈ g.arch.mem.xfences, x.dst ≠ 2) →
      g.rank < s.rankCount g → s.someRetired g.key.team g.rank = false → (rankOfG s g).conv cr.val = ⟨cnt, [], cur⟩ →
      (∀ x ∈ cur, x.group ≠ g.key) →
      let l := cur ++ [signOf i vb c (headOf c s g) pc]
      genKind cnt l = none →
      let w := ((s.team? g.key.team).map fun tm => tm.blk.width).getD 64
      (cnt = some (genCount l) → genSquare l = true ∧ closeFault (rankOfG s g) w cr.val l = none ∧
        ∀ x ∈ l, x.poisoned (bQuarter (rankOfG s g) w (l.headD default)) = 0) →
      ∃ t h, exec i s = .next t ∧
        Entered c s t { g with coll := 0 } h g.here (entryOf i (headOf c s g) pc g.here (active c g g.here) 0) (fun _ => nextPc pc) ∧
        SameArch g h ∧ SameRegs g.arch h.arch ∧ { t with groups := s.groups, teams := s.teams } = s ∧
        (∀ q r, (q, r) ≠ (g.key.team, g.rank) → t.rankOf q r = s.rankOf q r) ∧
        (cnt ≠ some (genCount l) → (rankOfG t g).conv cr.val = ⟨cnt, [], l⟩ ∧
          { rankOfG t g with c := (rankOfG s g).c } = rankOfG s g) ∧
        (cnt = some (genCount l) → (rankOfG t g).conv cr.val = ⟨cnt, [], []⟩ ∧
          { rankOfG t g with c := (rankOfG s g).c, ops := (rankOfG s g).ops, nextId := (rankOfG s g).nextId } = rankOfG s g ∧
          (rankOfG t g).ops = queueOp (rankOfG s g).ops ⟨(rankOfG s g).nextId, cr.val, l, none, false, s.now⟩)

/-- R117, R118, R403, R404, Table 8-7: the tile instructions, on a free tile of the team: ZCLR, ZPROM, ZMOV and ZCPY into a tile stand a new image of
their rows in a shadow and stage its release; ZMOV out of a tile writes the lanes of a register; ZCPY out of one is accepted with the
bytes of its rows. -/
def Obligations.TileInstructions : Prop :=
  ∀ (c : Ctl) (ty : Ty) (d z pos addr rows : Opd) (tl : Tile) (row col first n off : Nat),
    let all := List.range 64
    ActsMx (.zclr c z) c (fun s g _ => TileFree s g z all tl) (fun _ _ => 0)
      (fun s g _ t h => SameArch g h ∧ SameButStaged g h ∧
        TileWritten s t g h noClass z (all.map fun i => (i, ⟨List.replicate 128 0, List.replicate 128 none, []⟩)) 0) ∧
    ActsMx (.zprom c z) c (fun s g _ => TileFree s g z all tl ∧ TileSound tl all)
      (fun _ _ => all.foldl (fun f i => f ||| ((tl.row i).promote).2) 0)
      (fun s g _ t h => SameArch g h ∧ SameButStaged g h ∧
        TileWritten s t g h noClass z (all.map fun i => (i, ((tl.row i).promote).1)) 0) ∧
    Acts (.zmovToVector c ty d z pos) c
      (fun s g _ => TileFree s g z [] tl ∧ TileSound tl [row] ∧ zPos (readRaw g.arch true pos 0).toNat g.w = some (row, col))
      (fun s g act t h => World t s ∧ SameArch g h ∧ withIssueOf g h = g ∧
        Written g.arch h.arch false d act fun L => ((tl.row row).acc.getD (col + L) 0).setWidth 64) ∧
    ActsMx (.zmovToTile c ty d z pos) c
      (fun s g _ => TileFree s g z [row] tl ∧ zPos (readRaw g.arch true pos 0).toNat g.w = some (row, col)) (fun _ _ => 0)
      (fun s g act t h => SameArch g h ∧ SameButStaged g h ∧
        ∃ acc pois, TileWritten s t g h noClass z [(row, { tl.row row with acc := acc, pois := pois })] tl.newCnt ∧
          (∀ p, p ∈ pois ↔ p ∈ (tl.row row).pois ∧
            ¬∀ j, j = 2 * p ∨ j = 2 * p + 1 → col ≤ j ∧ j < col + g.w ∧ act.has (j - col) = true) ∧
          ∀ j, j < (tl.row row).acc.length → acc[j]? =
            if col ≤ j ∧ j < col + g.w ∧ act.has (j - col) = true then some (g.arch.vreg (vecNo d) (j - col)) else (tl.row row).acc[j]?) ∧
    Acts (.zcpyToScratchpad c ty addr z rows) c
      (fun s g _ => TileFree s g z [] tl ∧ TileSound tl ((List.range n).map (first + ·)) ∧
        zRows (readRaw g.arch true rows 0).toNat = some (first, n) ∧
        (readRaw g.arch true addr 0).toNat = off ∧ off % 64 = 0 ∧ off + 512 * n ≤ s.allot g ∧ ∀ x ∈ g.arch.mem.xfences, x.dst ≠ 2)
      (fun s g act t h => World t s ∧ SameArch g h ∧ SameRegs g.arch h.arch ∧ withIssueOf g { h with cmds := g.cmds } = g ∧
        ∃ cmd : Cmd, h.cmds = g.cmds ++ [cmd] ∧ cmd.seq = g.seq ∧ cmd.kind = .zcpyOut ∧ cmd.tgt = .scr g.rank ∧ cmd.base = off ∧
          cmd.act = act ∧ cmd.fill = (List.range n).flatMap fun i => (tl.row (first + i)).acc.flatMap fun a => leBytes 4 a.toNat) ∧
    ActsMx (.zcpyToTile c ty addr z rows) c
      (fun s g _ => TileFree s g z ((List.range n).map (first + ·)) tl ∧ zRows (readRaw g.arch true rows 0).toNat = some (first, n) ∧
        (readRaw g.arch true addr 0).toNat = off ∧ off % 64 = 0 ∧ off + 512 * n ≤ s.allot g ∧ (∀ x ∈ g.arch.mem.xfences, x.dst ≠ 2) ∧
        Sound s g ⟨0, off, [⟨.scr g.rank, off, 512 * n, none, off⟩]⟩) (fun _ _ => 0)
      (fun s g _ t h => SameButMem g h ∧ SameRegs g.arch h.arch ∧ SameButStaged g h ∧ t.ram = s.ram ∧
        h.staged.map Effect.kind = g.staged.map Effect.kind ++ [.tile g.rank (objNo z) (rankOfG s g).nextId] ∧
        ∃ bytes : List Byte,
          Readings s { g with staged := [] } (g.mustSee 2) ⟨0, off, [⟨.scr g.rank, off, 512 * n, none, off⟩]⟩ bytes ∧
          t.teams = (onRank s g fun r =>
            { r with
              z := r.z.modify (objNo z) fun x =>
                { x with shadows := x.shadows ++ [⟨(rankOfG s g).nextId, (List.range n).map fun i =>
                  (first + i, { tl.row (first + i) with acc := wordsOfBytes 128 ((bytes.drop (512 * i)).take 512), pois := [] }), tl.newCnt,
                  [(g.key, g.seq)], none⟩] }
              nextId := (rankOfG s g).nextId + 1 }).teams)

/-! ## Synchronisation -/

/-- R288 to R291, R329: BARINIT, BARARV, BARWT, BARSYNC and GSYNC complete as the manual says. An arrival counts each thread once, and the phase
completes just when the expected count is reached, with the next phase's count taken from E. -/
def Obligations.Barriers : Prop :=
  (∀ (c : Ctl) (id n : Opd),
     let bar := fun (s : State) (g : Group) => s.bar g.key.team (barNo id)
     Acts (.barinit c id n) c
       (fun s g _ => (bar s g).init = false ∧ 1 ≤ (readRaw g.arch true n 0).toNat ∧ (readRaw g.arch true n 0).toNat ≤ 65536)
       (fun s g _ t h => World t (s.updBar g.key.team (barNo id) fun _ =>
           ⟨true, (readRaw g.arch true n 0).toNat, (readRaw g.arch true n 0).toNat, 0, 0, [], [], [], (bar s g).seen⟩) ∧
         SameArch g h ∧ SameRegs g.arch h.arch ∧ withIssueOf g h = g) (fun s g => [.bar (barNo id) (bar s g)]) ∧
     Acts (.bararv c id) c (fun s g act => Unfenced g ∧ (bar s g).init = true ∧ twice s g (barNo id) act = 0)
       (fun s g act t h => World t s ∧ SameArch g h ∧ SameRegs g.arch h.arch ∧ SameButStaged g h ∧
         h.staged.map Effect.kind = g.staged.map Effect.kind ++ [.arrive (barNo id) (act.lanes.map g.thread)]) ∧
     (∀ s g run pc, Able (.barwt c id) c s g run pc → (bar s g).init = true →
       (∀ L, (active c g run).has L = true →
         (bar s g).arrOf (g.thread L) ≠ some (bar s g).ph ∧ g.stagedArrival (barNo id) (fun u => u == g.thread L) = false) →
       ∃ t h, exec (.barwt c id) s = .next t ∧
         Entered c s t g h run (entryOf (.barwt c id) (headOf c s g) pc run (active c g run) 0) (fun _ => nextPc pc) ∧
         World t (s.updBar g.key.team (barNo id) fun b =>
           { b with waiting := b.waiting.filter fun t => !((active c g run).lanes.map g.thread).contains t }) ∧
         SameButMem g h ∧ SameRegs g.arch h.arch ∧ withIssueOf g h = g) ∧
     (∀ s g run pc k, Turn s g run pc → g.gathered run pc = true → g.here ≠ 0 → g.here &&& g.arch.parked = 0 →
       active c g g.here ≠ 0 → Untainted (.barsync c id) g g.here (active c g g.here) → Unfenced g → (bar s g).init = true →
       twice s g (barNo id) (active c g g.here) = 0 → g.commit = some k → k.pc = pc → k.run = g.here → k.begun = false →
       g.verifiedAt k.seq = true → g.drainedTo k.seq = true →
       (bar s g).a + (active c g g.here).lanes.length = (bar s g).ec →
       ∃ t h, exec (.barsync c id) s = .next t ∧ Committed s t g h k g.here (fun _ => nextPc pc) ∧ h.coll = 0 ∧
         SameRegs g.arch h.arch ∧ SameButMem g h ∧ t.ram = s.ram ∧ t.parts = s.parts ∧
         (∀ k m, (k, m) ≠ (g.key.team, barNo id) → t.bar k m = s.bar k m) ∧
         ((bar t g).ph = (bar s g).ph + 1 ∧ (bar t g).a = 0 ∧ (bar t g).ec = (bar s g).e)) ∧
     (∀ s g run pc, Gathered (.gsync c) c s g run pc → active c g g.here ≠ 0 →
       ∃ t h, exec (.gsync c) s = .next t ∧
         Entered c s t { g with coll := 0 } h g.here (entryOf (.gsync c) (headOf c s g) pc g.here (active c g g.here) 0)
           (fun _ => nextPc pc) ∧
         World t s ∧ SameButMem g h ∧ SameRegs g.arch h.arch ∧ withIssueOf { g with coll := 0 } h = { g with coll := 0 } ∧
         h.arch.mem.gsync = (headOf c s g).seq)) ∧
  (∀ (b : Barrier) (ts : List Nat) (v : View), b.ec ≠ 0 →
     let x := b.arrive ts v
     (b.a + ts.length = b.ec → x.ph = b.ph + 1 ∧ x.a = 0 ∧ x.ec = b.e ∧ x.acc = [] ∧ ∀ t ∈ ts, x.arrOf t = some b.ph) ∧
     (b.a + ts.length ≠ b.ec → x.ph = b.ph ∧ x.a = b.a + ts.length ∧ x.ec = b.ec ∧ x.seen = b.seen ∧ ∀ t ∈ ts, x.arrOf t = some b.ph) ∧
     x.e = b.e ∧ x.init = b.init ∧ ∀ t, t ∉ ts → x.arrOf t = b.arrOf t)

/-! ## Control flow -/

/-- R29, R38, R268, R270, R295, R296, R301, R313, R314, R339, R340, R371, R385: the branches, calls and returns; NOP. Outside a trap handler, EXIT at
its gate makes its active threads exit and the others of its run fall through; CEDE makes its active threads ineligible; DBRK halts the
group when a debugger is attached, and is trap 0x10 with its immediate else. -/
def Obligations.ControlFlow : Prop :=
  (∀ (c : Ctl) (tslot : BitVec 3) (off : BitVec 32) (d a : Opd),
     let near := fun (_ : Group) (pc : Dword) (_ : Nat) => (pc &&& ~~~(63 : Dword)) + off.signExtend 64 * 64 + tslot.setWidth 64
     let far := fun (g : Group) (_ : Dword) (L : Nat) => readRaw g.arch true a L
     Branches (.jmp c tslot off) c .none near ∧ Branches (.jmpx c a) c .none far ∧ Branches (.ret c a) c .none far ∧
     Branches (.call c d tslot off) c d near ∧ Branches (.callx c d a) c d far ∧
     ∀ s g run pc, Able (.nop c) c s g run pc →
       ∃ t h, exec (.nop c) s = .next t ∧ Issued (.nop c) c s t g h run (active c g run) pc 0 ∧ SameRegs g.arch h.arch) ∧
  (∀ (c : Ctl) (imm : BitVec 32) (s : State) (g : Group) (run : Mask) (pc : Dword),
     let act := active c g run
     (∀ k, AtGate (.exit c) c s g run pc k → g.arch.hmode = false →
       ∃ t h, exec (.exit c) s = .next t ∧
         Committed s t g h k run (fun L => if act.has L then g.arch.pc L else nextPc pc) ∧ SameAfterCommit g h ∧
         SameRegs g.arch h.arch ∧ h.arch.exited = g.arch.exited ||| act ∧
         withRegsOf g.arch { h.arch with exited := g.arch.exited } = g.arch ∧ t.ram = s.ram ∧ t.parts = s.parts) ∧
     (Able (.cede c) c s g run pc →
       ∃ t h, exec (.cede c) s = .next t ∧
         Entered c s t g h run (entryOf (.cede c) (headOf c s g) pc run act 0) (fun _ => nextPc pc) ∧ World t s ∧
         SameArch g h ∧ SameRegs g.arch h.arch ∧ h.ceded = act ∧ h.cededAt = s.now ∧ withIssueOf g { h with cededAt := g.cededAt } = g) ∧
     (Able (.dbrk c imm) c s g run pc → (s.ctxOf g).any Context.debug = true →
       ∃ t h, exec (.dbrk c imm) s = .next t ∧
         Entered c s t g h run (entryOf (.dbrk c imm) (headOf c s g) pc run act 0 [.halt]) (fun _ => nextPc pc) ∧ World t s ∧
         SameArch g h ∧ SameRegs g.arch h.arch ∧ h.halt = some ⟨pc, act, imm⟩ ∧ withIssueOf g { h with halt := g.halt } = g) ∧
     (Able (.dbrk c imm) c s g run pc → (s.ctxOf g).any Context.debug = false →
       ∃ t, exec (.dbrk c imm) s = .next t ∧ Trapped c s t g ⟨0x10, pc, act, imm.setWidth 64, 0⟩))

/-- R223, R224, R398, R399: TRAP at its gate, with a legal handler, enters it: TCAUSE, TPC, TMASK and TADDR say why, where, which lanes and what; those
lanes stand at THAND, and the other live threads are held; while younger entries of other runs stand, the trap waits until they are
discarded (R55). TRET, once every thread of TMASK that has not exited has gathered, sends them to TPC and the held ones to their held PCs,
clears HMODE and, after trap 0x11, CONSEC (R73); outside a handler it is trap 0x02. -/
def Obligations.TrapEntryAndReturn : Prop :=
  ∀ (c : Ctl) (imm : BitVec 32) (s : State) (g : Group) (run : Mask) (pc : Dword),
    (∀ k, AtGate (.trap c imm) c s g run pc k →
      let act := active c g run
      (g.drained = true → g.arch.hmode = false → g.arch.thand ≠ 0 → checkTarget s g g.arch.thand = .ok → (s.team? g.key.team).isSome = true →
        ∃ t h, exec (.trap c imm) s = .next t ∧ ChangedGroup s t g.key h ∧ InHandler g h s.now 0x0F pc act (imm.setWidth 64)) ∧
      (g.drained = false → ∃ t, exec (.trap c imm) s = .next t ∧ ChangedGroup s t g.key
        { g with trap := some ⟨0x0F, pc, act, imm.setWidth 64, 0⟩, commit := none, cut := some (k.seq + 1) })) ∧
    (Admitted (.tret c) c s g run pc → g.holdsBack (.tret c) = false → g.arch.hmode = true →
      let all := g.arch.tmask &&& g.here
      all ≠ 0 → all &&& ~~~(run ||| g.coll) = 0 → g.arch.atPc all pc = all → all &&& g.arch.parked = 0 → all &&& guardOf g.arch c ≠ 0 →
      checkTarget s g g.arch.tpc = .ok →
      ∃ t h, exec (.tret c) s = .next t ∧ ChangedGroup s t g.key h ∧
        SameRegs g.arch h.arch ∧ h.arch.hmode = false ∧ h.arch.tcause = g.arch.tcause &&& ~~~0x100 ∧ h.arch.heldSet = 0 ∧ h.arch.heldPc = [] ∧
        (∀ L, L < g.arch.pcs.length → h.arch.pc L =
          if g.arch.heldSet.has L then g.arch.heldPc.getD L 0 else if Mask.has g.arch.tmask L then g.arch.tpc else g.arch.pc L) ∧
        h.rob = g.rob ++ [entryOf (.tret c) { headOf c s g with coll := 0 } pc all (all &&& guardOf g.arch c) 0] ∧ h.coll = 0 ∧
        h.ckpts = (headOf c s g).ckpts ∧ h.staged = g.staged ∧
        h.rstrt = if g.arch.tcause.toNat % 256 = 0x11 then g.rstrt &&& ~~~(0xF00000000 : Dword) else g.rstrt) ∧
    TrapsWhere (.tret c) c (fun _ g _ => g.arch.hmode = false) 0x02 (fun _ act => act) (fun _ _ => 0)

/-! ## Special registers -/

/-- R327, R392, R400, R302 and Table 26-6: GETSR, SETSR, VDHOP and CLKQ. A SETSR of a register that may not be written is trap 0x02. -/
def Obligations.SpecialRegisters : Prop :=
  ∀ (c : Ctl) (ty : Ty) (d a b : Opd) (r : SReg),
    let x := fun (g : Group) => readRaw g.arch true a 0
    let only := fun (g h : Group) (q : Arch) => SameRegs g.arch h.arch ∧ withRegsOf g.arch q = g.arch
    Acts (.getsr c ty d r) c (fun _ g _ => sregReady g r = true) (fun s g act t h =>
      World t s ∧ SameArch g h ∧ withIssueOf g h = g ∧
      Written g.arch h.arch ty.wide d act fun L => readSreg s g r L) ∧
    Commits (.setsr c .fpctl a) c (fun _ _ _ => True) (fun s g _ t h =>
      World t s ∧ h.arch.fpctl = x g &&& fpctlMask ∧ only g h { h.arch with fpctl := g.arch.fpctl } ∧
      h.gen = (let seed := (x g &&& fpctlMask).extractLsb' 32 32; seed ++ (seed ^^^ 0x9E3779B9)) ∧ SameAfterCommit g { h with gen := g.gen }) ∧
    Commits (.setsr c .thand a) c (fun _ _ _ => True) (fun s g _ t h =>
      World t s ∧ h.arch.thand = x g &&& 0x01FFFFFFFFFFFFFF ∧ only g h { h.arch with thand := g.arch.thand } ∧ SameAfterCommit g h) ∧
    Commits (.setsr c .sensev a) c (fun _ _ _ => True) (fun s g _ t h =>
      World t s ∧ only g h h.arch ∧ h.sensev = (g.sensev.extractLsb' 32 32) ++ (x g).extractLsb' 0 32 ∧
      SameAfterCommit g { h with sensev := g.sensev }) ∧
    (∀ s g run pc k, AtGate (.setsr c .rstrt a) c s g run pc k → ∃ t h, exec (.setsr c .rstrt a) s = .next t ∧ World t s ∧
      Committed s t { g with rstrt := (g.rstrt.extractLsb' 32 32) ++ (x g).extractLsb' 0 32 } h k run (fun _ => nextPc pc) ∧ only g h h.arch ∧
      SameAfterCommit g { h with rstrt := g.rstrt }) ∧
    Commits (.setsr c .scopemd a) c (fun _ _ _ => True) (fun s g _ t h =>
      only g h h.arch ∧ SameAfterCommit g h ∧
      World t (s.updCtx g.key.team.part g.ctx fun k => { k with scopemd := (x g &&& 1) ||| (k.scopemd &&& x g &&& 2) })) ∧
    Commits (.setsr c .arena a) c (fun _ g _ => arenaOk (x g &&& arenaMask).toNat = true) (fun s g _ t h =>
      only g h h.arch ∧ SameAfterCommit g h ∧ World t (s.updTeam g.key.team fun m => { m with arena := x g &&& arenaMask })) ∧
    (∀ s g run pc k, AtGate (.setsr c .clkreq a) c s g run pc k →
      (x g).toNat < 2 ^ 32 → bitsOf (x g).toNat 31 25 = 0 → bitsOf (x g).toNat 15 12 = 0 → orderOk (x g).toNat = true →
      ∃ t h, exec (.setsr c .clkreq a) s = .next t ∧ t.group? g.key = some h ∧ only g h h.arch ∧ h.commit = none ∧
        h.rob.map bare = (g.rob.filter fun e => decide (k.seq < e.seq)).map bare ∧ t.ram = s.ram ∧ t.coh = s.coh ∧ t.parts = s.parts ∧ t.teams = (s.updTeam g.key.team fun m => { m with clkreq := x g }).teams) ∧
    Acts (.setsr c .tpc a) c (fun _ _ _ => True) (fun s g _ t h =>
      World t s ∧ h.arch.tpc = x g &&& 0x01FFFFFFFFFFFFFF ∧ only g h { h.arch with tpc := g.arch.tpc } ∧ withIssueOf g h = g) ∧
    (∀ s g run pc q m, (q, m) ∈ [(SReg.fpflg, (0x3F : Dword)), (.mxflg, 0xF)] → Able (.setsr c q a) c s g run pc →
      ∃ t h, exec (.setsr c q a) s = .next t ∧ World t s ∧ SameArch g h ∧ SameRegs g.arch h.arch ∧ withIssueOf g h = g ∧
        Entered c s t g h run { entryOf (.setsr c q a) (headOf c s g) pc run (active c g run) 0 with wr := some (q, x g &&& m) }
          (fun _ => nextPc pc)) ∧
    (r ∈ [SReg.tcause, .taddr, .tmask] → Acts (.setsr c r a) c (fun _ _ _ => True) fun s g _ t h =>
      World t s ∧ SameArch g h ∧ SameRegs g.arch h.arch ∧ withIssueOf g h = g) ∧
    (r ∈ [SReg.laneid, .grpid, .teamx, .teamy, .teamz, .thrx, .thry, .thrz, .grpw, .nteamx, .nteamy, .nteamz, .core, .clus, .vdie, .place,
        .clkgnt, .clkevt, .qwin, .timel, .timeh] →
      TrapsWhere (.setsr c r a) c (fun _ _ _ => True) 0x02 (fun _ act => act) (fun _ _ => 0)) ∧
    Acts (.vdhop c d a b) c (fun _ _ _ => True) (fun s g act t h =>
      World t s ∧ SameArch g h ∧ withIssueOf g h = g ∧
      let tab := ((s.ctxOf g).map Context.vdtab).getD 0
      Written g.arch h.arch true d act fun _ =>
        match vdEntry tab (x g).toNat, vdEntry tab (readRaw g.arch true b 0).toNat with
        | some i, some j => BitVec.ofNat 64 ((if i % 2 = j % 2 then 0 else 1) + if i / 2 = j / 2 then 0 else 1)
        | _, _ => 0xFFFFFFFFFFFFFFFF) ∧
    Acts (.clkq c d a) c (fun _ g _ => (x g).toNat ≤ 3 ∧ g.rob = [] ∧ g.commits = []) (fun s g act t h =>
      World t s ∧ SameArch g h ∧ withIssueOf g h = g ∧
      Written g.arch h.arch true d act fun _ => BitVec.ofNat 64 (clkqValue s g (x g).toNat))

/-! ## The front end -/

/-- R202, R207, R209, R344, R370, R389, R401: WQENQ, LAUNCH, WQDEQ and NARM at their gates, and SCHNXT: with room they put in, take out or arm, and
answer true; else they answer false and nothing else happens. An NARM that would fire at once on locked or moving lines waits (R149). -/
def Obligations.FrontEndInstructions : Prop :=
  ∀ (c : Ctl) (p bn first d : Opd) (e : BoothEntry) (rest : List BoothEntry),
    let n := (immVal bn).toNat
    let booth := fun (s : State) (g : Group) => s.booth g.key.team.part n
    let usable := fun (s : State) (g : Group) => (booth s g).valid = true ∧ (booth s g).ctx = g.ctx
    let x := fun (g : Group) => g.arch.sreg (sclNo first)
    let enq := fun (i : Instr) (ok : State → Group → Prop) (words : Group → List Dword) =>
      Commits i c (fun s g _ => Unfenced g ∧ usable s g ∧ (booth s g).devenq = true ∧ ok s g ∧ (booth s g).full = false) (fun s g act t h =>
        World t ((released s g act).1.enqueue g.key.team.part n ⟨words g, (released s g act).2⟩) ∧ Answered g h p act true) ∧
      Commits i c (fun s g _ => Unfenced g ∧ usable s g ∧ (booth s g).devenq = true ∧ ok s g ∧ (booth s g).full = true) (fun s g act t h =>
        World t (released s g act).1 ∧ Answered g h p act false)
    enq (.wqenq c p bn first) (fun _ _ => True) (fun g => (List.range 8).map fun i => g.arch.sreg (sclNo first + i)) ∧
    enq (.launch c p bn first) (fun s g => (booth s g).work = false ∧ (x g).toNat % 256 = 0 ∧ (x g).toNat < 2 ^ 57)
      (fun g => (x g + 0x1000000000000000) :: List.replicate 7 0) ∧
    Commits (.wqdeq c p bn first) c (fun s g _ => usable s g ∧ (booth s g).work = true ∧ (booth s g).entries = e :: rest) (fun s g act t h =>
      World t (s.updBooth g.key.team.part n fun b => { b with entries := b.entries.drop 1, waits := b.waits.drop 1 }) ∧
      SameAfterCommit g h ∧ SameButMem g h ∧
      ∃ q, EightScalars g.arch q (sclNo first) e.words ∧ WrittenPrd q h.arch p act fun _ => true) ∧
    Commits (.wqdeq c p bn first) c (fun s g _ => usable s g ∧ (booth s g).work = true ∧ (booth s g).entries = []) (fun s g act t h =>
      World t s ∧ SameAfterCommit g h ∧ SameArch g h ∧
      ∃ q, EightScalars g.arch q (sclNo first) [] ∧ WrittenPrd q h.arch p act fun _ => false) ∧
    (let tag := fun (g : Group) => (x g).toNat
     let blk := fun (g : Group) => (g.arch.sreg (sclNo d)).toNat
     let arm := fun (s : State) (g : Group) (act : Mask) => (⟨tag g % 2 ^ 32, (tag g).testBit 32, blk g, g.ctx, (released s g act).2⟩ : Arming)
     let legal := fun (s : State) (g : Group) (act : Mask) => Unfenced g ∧ tag g < 2 ^ 33 ∧ blk g % 256 = 0 ∧ blk g < 2 ^ 57 ∧
       ((∀ m ∈ (s.part g.key.team.part).unmatched, m.tag ≠ tag g % 2 ^ 32) ∨ s.fireBusy g.key.team.part (arm s g act) = false)
     Commits (.narm c p first d) c (fun s g act => legal s g act ∧ (s.part g.key.team.part).armings.length < 64) (fun s g act t h =>
      World t ((released s g act).1.fireHeld g.key.team.part (arm s g act)) ∧ Answered g h p act true) ∧
     Commits (.narm c p first d) c (fun s g act => legal s g act ∧ 64 ≤ (s.part g.key.team.part).armings.length) (fun s g act t h =>
      World t (released s g act).1 ∧ Answered g h p act false)) ∧
    (∀ k r, Acts (.schnxt c p d) c (fun s g _ => (rankOfG s g).nextEntry = some (k, r)) (fun s g act t h =>
      World t (onRank s g fun _ => r) ∧ SameArch g h ∧ SameButStaged g h ∧
      h.staged.map Effect.kind = g.staged.map Effect.kind ++ [.schnxt g.rank k] ∧
      WrittenPrd (g.arch.setS (sclNo d) (r.sched.getD k 0)) h.arch p act fun _ => true)) ∧
    Acts (.schnxt c p d) c (fun s g _ => (rankOfG s g).nextEntry = none) (fun s g act t h =>
      World t s ∧ SameArch g h ∧ withIssueOf g h = g ∧ WrittenPrd (g.arch.setS (sclNo d) 0) h.arch p act fun _ => false)

/-- R293, R303, R372, R373: COLL and NSEND, at their gate and with every address they name translated, begin: a collective or a message of their
partition is in progress, their threads are held, and their entry stands until it ends. An NSEND to a device out of reach completes with status 2.
That an NSEND that begins has sent nothing yet, and goes only at a WHARF_CREDIT, is the model's choice (log 35). -/
def Obligations.FabricInstructionsBegin : Prop :=
  ∀ (c : Ctl) (d a : Opd) (s : State) (g : Group) (run : Mask) (pc : Dword),
    let part := g.key.team.part
    let ok := fun (l : List Chunk) => s.escape g ⟨0, 0, l⟩ = false ∧ s.lockedOut g [⟨0, 0, l⟩] = false ∧ Sound s g ⟨0, 0, l⟩
    let begun := fun (i : Instr) (k : Commit) (t : State) (h : Group) =>
      t.group? g.key = some h ∧ (∀ k', k' ≠ g.key → t.group? k' = s.group? k') ∧ h.commit = some { k with begun := true, srcs := [] } ∧
      h.blocked = g.blocked ||| run ∧ SameRegs g.arch h.arch ∧ h.arch.pcs = g.arch.pcs ∧ h.ckpts = g.ckpts ∧ h.staged = g.staged ∧
      ∃ e, h.rob = e :: g.rob ∧ bare e = bare ⟨k.seq + 1, pc, run, active c g run, false, 0, 0, none, default, i.orders, [], false, []⟩
    let x := fun i => (g.arch.sreg (sclNo a + i)).toNat
    part < s.parts.length → Unfenced g → (∀ o ∈ (s.part part).colls, o.group ≠ g.key) →
    (∀ m ∈ (s.part part).sends, m.group ≠ g.key) →
    (∀ k de l src dst cm, AtGate (.coll c d a) c s g run pc k → collProbe s g (x 0) = .ok de l src dst →
      s.escape g ⟨0, 0, l ++ src ++ dst⟩ = false → ok (l ++ src) → assoc (s.part part).comms de.comm = some cm →
      (∀ o ∈ (s.part part).colls, o.comm ≠ de.comm ∨ o.seq ≠ de.seq) →
      ∃ t h o, exec (.coll c d a) s = .next t ∧ begun (.coll c d a) k t h ∧ (t.part part).colls = (s.part part).colls ++ [o] ∧ o.comm = de.comm ∧
        o.seq = de.seq ∧ o.op = de.op ∧ o.count = de.count ∧ o.root = de.root ∧ o.dst = dst.map (fun y => (y.addr, y.n)) ∧
        o.group = g.key ∧ o.pc = pc ∧ o.run = run ∧ o.dreg = sclNo d ∧ o.start = s.now ∧ o.fate = none) ∧
    (∀ k l de src dst, AtGate (.nsend c d a) c s g run pc k → x 0 < 2 ^ 20 → x 1 < 2 ^ 32 → x 3 ≤ 65536 →
      sendProbe s g (x 2) (x 3) = .ok de l src dst → ok l → s.reaches (x 0 % 65536) = true →
      ∃ t h m, exec (.nsend c d a) s = .next t ∧ begun (.nsend c d a) k t h ∧ (t.part part).sends = (s.part part).sends ++ [m] ∧ m.dev = x 0 % 65536 ∧
        m.part = x 0 / 65536 ∧ m.seq = (s.headerFor part m.dev m.part (x 1) (x 3)).seq ∧ m.header = s.headerFor part m.dev m.part (x 1) (x 3) ∧
        m.group = g.key ∧ m.pc = pc ∧ m.run = run ∧ m.dreg = sclNo d ∧ m.sentAt = none ∧ m.addr = x 2) ∧
    (∀ k l de src dst, AtGate (.nsend c d a) c s g run pc k → x 0 < 2 ^ 20 → x 1 < 2 ^ 32 → x 3 ≤ 65536 →
      sendProbe s g (x 2) (x 3) = .ok de l src dst → ok l → s.reaches (x 0 % 65536) = false →
      ∃ t h, exec (.nsend c d a) s = .next t ∧ Committed s t g h k run (fun _ => nextPc pc) ∧ h.arch.v = g.arch.v ∧ h.arch.p = g.arch.p ∧
        ∀ n, h.arch.sreg n = if n = sclNo d ∧ n < g.arch.s.length then 2 else g.arch.sreg n)

/-! ## Events of a group -/

/-- R28, R30, R31, R67, R136, R265: FETCH_DECISION of a group that may dispatch fetches the word of its chosen run; without a guard turn that run
is every eligible thread at the lowest PC. A commit point whose gate is open comes first, with the word it
has dispatched. A missing page parks the run at its PC, once no older branch of it is open; a line that may not be fetched makes a trap wait for delivery. GUARD_TURN of a group whose starvation counter has reached
1,024, with its head run issued last and others eligible, begins a turn for some of those others; one that has issued 64 instructions in
its turn ends it. Nothing else changes. -/
def Obligations.Fetching : Prop :=
  (∀ (k : GroupKey) (s : State) (g : Group), s.group? k = some g → s.mayServe g = true → s.latch = none →
     ∀ run pc, g.decide_ = some (run, pc) →
       let g' := { g with lastAt := s.now }
       let only := fun (t : State) (h : Group) => t.group? k = some h ∧ (∀ k', k' ≠ k → t.group? k' = s.group? k') ∧ t.ram = s.ram ∧
         t.teams = s.teams
       (g.commitTurn = none → g.turnStep.arch.turn = none → ∀ L, L < 64 →
         (run.has L = (g.eligible.has L && g.arch.pc L == pc)) ∧ (g.eligible.has L = true → pc ≤ g.arch.pc L)) ∧
       (∀ m, g.commit = some m → g.commitTurn.isSome = true →
         run = m.run ∧ pc = m.pc ∧
         ∃ t, exec (.fetchDecision k) s = .next t ∧ t.latch = some ⟨⟨k, run, pc⟩, m.word, true, true⟩ ∧ only t g' ∧ t.coh = s.coh ∧
           t.parts = s.parts) ∧
       (g.commitTurn = none → run &&& g.arch.entering = 0 →
         (∀ l p, fetchLine s g' pc = .line l p →
           ∃ t, exec (.fetchDecision k) s = .next t ∧ t.latch = some ⟨⟨k, run, pc⟩, slotWord l (pc &&& 7).toNat, lineParityOk l, lineReservedOk l⟩ ∧
             only t g' ∧ t.coh = s.coh ∧ t.parts = s.parts) ∧
         (∀ page, fetchLine s g' pc = .absent page → g.branching run = false →
           ∃ t h, exec (.fetchDecision k) s = .next t ∧ t.latch = none ∧ only t h ∧ h.arch.pcs = g.arch.pcs ∧
             (∀ L, L < 64 → h.arch.parked.has L = (g.arch.parked.has L || run.has L)) ∧ SameRegs g.arch h.arch) ∧
         (∀ c, fetchLine s g' pc = .fault c → (c ≠ 0x07 ∨ g.loading run = false) →
           ∃ t, exec (.fetchDecision k) s = .next t ∧ t.latch = none ∧ only t { g'.decided g' run with trap := some ⟨c, pc, run, pc, 0⟩ } ∧ t.coh = s.coh ∧
             t.parts = s.parts))) ∧
  (∀ (k : GroupKey) (s : State) (g : Group) (hd : Mask) (p : Dword), s.group? k = some g → g.arch.headRun g.eligible = some (hd, p) →
     ∃ t h, exec (.guardTurn k) s = .next t ∧ ChangedGroup s t k h ∧
       { h with arch := { h.arch with turn := g.arch.turn, starve := g.arch.starve, rot := g.arch.rot } } = g ∧
       (g.arch.turn = none → g.eligible &&& ~~~hd ≠ 0 → hd &&& g.arch.lastRun ≠ 0 → 1024 ≤ g.arch.starve →
         ∃ r, h.arch.turn = some (r, 0) ∧ r ≠ 0 ∧ r &&& (g.eligible &&& ~~~hd) = r) ∧
       (∀ m n, g.arch.turn = some (m, n) → 64 ≤ n → h.arch.turn = none ∧ h.arch.starve = 0) ∧
       (∀ m n, g.arch.turn = some (m, n) → n < 64 → g.eligible &&& m ≠ 0 → h = g))

/-- R50, R35: TRANSLATION_PROBE of the fetched word of a group parks just the active lanes whose page has no translation, takes them from the run,
and changes no register and no byte. -/
def Obligations.ProbeParksLanes : Prop :=
  ∀ (k : GroupKey) (s : State) (g : Group) (f : Fetched) (i : Instr) (p : ProbeForm), s.group? k = some g → s.latch = some f →
    f.issue.group = k → f.parity = true → f.lineOk = true → decode f.word = .ok i → Sys2Proof.Machine.Instr.probeForm i = some p → i.regs.all g.declares = true →
    g.unready i f.issue.run = false → g.holdsBack i = false →
    let act := f.issue.run &&& guardOf g.arch p.c
    let misses := fun L => act.has L && match laneAcc s g p.kind p.sp p.size p.align L (addrSum g.arch p.unit p.t1 p.t2 p.t3 L) with
      | .park _ => true
      | _ => false
    ∃ t h, exec (.translationProbe k) s = .next t ∧ t.group? k = some h ∧ (∀ k', k' ≠ k → t.group? k' = s.group? k') ∧ t.ram = s.ram ∧
      t.teams = s.teams ∧ { h with arch := { h.arch with parked := g.arch.parked }, parks := g.parks } = g ∧
      (∀ L, L < 64 → h.arch.parked.has L = (g.arch.parked.has L || misses L)) ∧
      (∀ x ∈ h.parks, x ∈ g.parks ∨ misses x.lane = true) ∧
      t.latch = (let run := f.issue.run &&& ~~~h.arch.parked
        if run = 0 then none else some { f with issue := { f.issue with run := run } })

/-- R47, R52, R61, R65, R67, R91, R116, R407: EXECUTE_COMPLETE marks an entry that waits for nothing executed, which is when the data of its
effects is complete, and completes the checkpoints it was the last to keep; RETIRE takes the oldest entry, once executed and with no commit
point before it, gives its flags to FPFLG and MXFLG, and fixes the release time of each of its effects but an engine's writes: not before now,
its execution plus 48 ns, or the time before it. -/
def Obligations.ExecuteAndRetire : Prop :=
  ∀ (k : GroupKey) (s : State) (g : Group) (seq : Nat), s.group? k = some g →
    (g.cmds.find? (fun c => c.seq = seq) = none → s.entryWaits g seq = false →
      ∃ t h, exec (.executeComplete k seq) s = .next t ∧ ChangedGroup s t k h ∧
        { h with rob := g.rob, ckpts := g.ckpts, staged := g.staged } = g ∧
        h.rob = g.rob.map (fun e => if e.seq = seq then { e with executed := true } else e) ∧
        h.staged = g.staged.map (fun e => if e.seq = seq ∧ e.engine = false then { e with execAt := s.now } else e) ∧
        ∀ (n : Nat) (c : Ckpt), g.ckpts[n]? = some c → h.ckpts[n]? = some
          (if c.complete = none ∧ (∀ e ∈ h.rob, c.seq ≤ e.seq ∨ e.executed = true) ∧ (∀ m, g.commit = some m → c.seq ≤ m.seq)
          then { c with complete := some s.now } else c)) ∧
    (∀ e r, g.rob = e :: r → e.executed = true → (∀ m, g.commit = some m → m.run = 0 ∨ e.seq < m.seq) →
      ∃ t h, exec (.retire k) s = .next t ∧ ChangedGroup s t k h ∧
        { h with arch := g.arch, rob := g.rob, ckpts := g.ckpts, staged := g.staged, lastRel := g.lastRel } = g ∧
        h.rob.map Entry.seq = r.map Entry.seq ∧
        h.arch.fpflg = (match e.wr with
          | some (.fpflg, x) => x
          | _ => g.arch.fpflg ||| e.flags.setWidth 64) ∧
        h.arch.mxflg = (match e.wr with
          | some (.mxflg, x) => x
          | _ => g.arch.mxflg ||| e.mx.setWidth 64) ∧
        { h.arch with fpflg := g.arch.fpflg, mxflg := g.arch.mxflg } = g.arch ∧ h.staged.length = g.staged.length ∧
        ∀ (n : Nat) (x : Effect), g.staged[n]? = some x → ∃ y, h.staged[n]? = some y ∧
          ((x.seq ≠ e.seq ∨ x.relAt.isSome = true ∨ x.engine = true) → y = x) ∧
          (x.seq = e.seq → x.relAt = none → x.engine = false → (∀ m z, m < n → g.staged[m]? = some z → z.seq ≤ e.seq) → { y with relAt := none } = x ∧
            ∃ z, y.relAt = some z ∧ s.now ≤ z ∧ x.execAt + 48 ≤ z ∧ g.lastRel ≤ z ∧ z ≤ h.lastRel))

/-- R54, R66, R69: BRANCH_RECOVERY of a branch discards the entries younger than it, with their effects, gives the registers and PCs back as they
stood after it, and puts back the k, c or codebook that the oldest of them had replaced first; SQUASH_MESSAGE
discards held effects from a sequence number on; HELD_EFFECT_ARRIVAL brings a retired effect for elsewhere to its holder. Memory stays. -/
def Obligations.RecoveryAndHeldEffects : Prop :=
  ∀ (k : GroupKey) (s : State) (g : Group) (seq : Nat), s.group? k = some g →
    (∀ b ∈ g.rob, b.seq = seq → b.branch = true → ∀ e, g.rob.find? (fun e => decide (seq < e.seq)) = some e →
      ∃ t h, exec (.branchRecovery k seq) s = .next t ∧ t.group? k = some h ∧ (∀ k', k' ≠ k → t.group? k' = s.group? k') ∧ t.ram = s.ram ∧
        t.coh = s.coh ∧ t.parts = s.parts ∧ h.arch = e.undo ∧
        h.rob = g.rob.filter (fun x => decide (x.seq ≤ seq) || g.inProgress x) ∧ h.staged = g.staged.filter (fun x => decide (x.seq ≤ seq)) ∧
        h.ckpts = g.ckpts.filter (fun x => decide (x.seq ≤ seq)) ∧ h.cmds = g.cmds.filter (fun x => decide (x.seq ≤ seq)) ∧ h.trap = none ∧
        ((s.rank? k.team g.rank).isSome = true →
          let last := ((g.rob.filter fun x => decide (seq < x.seq)).reverse.flatMap Entry.objs).getLast?
          let r := t.rankOf k.team g.rank
          ∀ n, (∀ x, last = some (.shape n x) → assoc r.k n = x) ∧ (∀ x, last = some (.book n x) → assoc r.cb n = x) ∧
            ∀ x, last = some (.count n x) → (r.conv n).count = x)) ∧
    (∃ t, exec (.squashMessage k seq) s = .next t ∧
      ChangedGroup s t k { g with staged := g.staged.filter fun x => !(x.held && decide (seq ≤ x.seq)) }) ∧
    (∀ (n : Nat) (x : Effect), g.staged[n]? = some x → x.seq = seq → x.away = true → (g.relTime x).isSome = true → s.farRoute g x = false →
      ∃ t h, exec (.heldEffectArrival k seq) s = .next t ∧ ChangedGroup s t k h ∧ h.staged[n]? = some { x with held := true } ∧
        { h with staged := g.staged } = g)

/-- R56, R57, R68, R69, R73, R79, Tables 5-5 and 5-6: SENSOR_RESTART returns every group of a strike sensor's core, or of the two cores whose
boundary it guards, to its youngest verified checkpoint, discards what is younger, and counts in SENSEV and RSTRT; an eighth restart in a row
without a verified checkpoint raises trap 0x11. Line fills in flight to those cores are dropped, and lines they hold stay. Other cores' groups and
memory stay. -/
def Obligations.SensorRestarts : Prop :=
  ∀ (cores : List CoreId) (s : State), (s.groups.map Group.key).Nodup →
    ((∃ a, cores = [a]) ∨ ∃ a b, cores = [a, b] ∧ a ≠ b ∧ a.die = b.die) →
    (∀ core ∈ cores, ∀ r ∈ s.dev.restarting, r.1 = core → r.2 + 4 < s.now) → (∀ g ∈ s.groups, s.falling g.key.team.part = false) →
    ∃ t, exec (.sensorRestart cores .strike) s = .next t ∧ t.ram = s.ram ∧ t.parts = s.parts ∧
      t.coh = { s.coh with reqs := s.coh.reqs.filter fun r => !cores.contains r.core } ∧
      (∀ k g, s.group? k = some g → g.core ∉ cores → t.group? k = some g) ∧
      ∀ k g c, s.group? k = some g → g.core ∈ cores → (g.ckpts.filter Ckpt.verified).getLast? = some c →
        ∃ h, t.group? k = some h ∧ h.arch = c.arch ∧ (∀ e ∈ h.rob, e.seq ≤ c.seq ∨ g.inProgress e = true) ∧
          h.staged = g.staged.filter (fun e => decide (e.seq ≤ c.seq)) ∧ h.ckpts = g.ckpts.filter (fun x => decide (x.seq ≤ c.seq)) ∧
          bitsOf h.sensev.toNat 31 0 = min 0xFFFFFFFF (bitsOf g.sensev.toNat 31 0 + 1) ∧ bitsOf h.sensev.toNat 39 32 = 1 ∧
          bitsOf h.rstrt.toNat 31 0 = min 0xFFFFFFFF (bitsOf g.rstrt.toNat 31 0 + 1) ∧
          bitsOf h.rstrt.toNat 35 32 = min 8 (bitsOf g.rstrt.toNat 35 32 + 1) ∧
          (7 ≤ bitsOf g.rstrt.toNat 35 32 → ∀ m p, c.arch.headRun (h.live &&& ~~~c.arch.parked &&& ~~~(if c.arch.hmode then c.arch.heldSet else 0)) = some (m, p) →
            h.trap = some ⟨0x11, p, m, 0, 0⟩)

/-- R55, R61, R67, R73, R223: TRAP_DELIVERY of a trap whose entry is the oldest takes a checkpoint first, and enters the handler once that is verified
and older effects have been released; behind a commit point that has met a fault it discards what is younger. CHECKPOINT_VERIFY verifies the oldest unverified checkpoint 48 ns after it became complete, drops older ones
and clears CONSEC. -/
def Obligations.TrapDelivery : Prop :=
  ∀ (k : GroupKey) (s : State) (g : Group), s.group? k = some g →
    (∀ tr, g.trap = some tr → g.halt = none → s.falling k.team.part = false →
      (g.cut = none → g.commit = none → g.rob = [] → g.unverified < 4 →
        ∃ t h, exec (.trapDelivery k) s = .next t ∧ ChangedGroup s t k h ∧ h.commit = some ⟨tr.pc, g.seq, false, 0, 0, [], [], false, 0, false⟩ ∧
          h.ckpts = g.ckpts ++ [⟨g.seq, some s.now, false, g.arch⟩] ∧ h.seq = g.seq + 1 ∧
          { h with commit := g.commit, ckpts := g.ckpts, seq := g.seq } = g) ∧
      (∀ n c, g.cut = some n → (g.ckpts.filter fun x => decide (x.seq < n)).getLast? = some c →
        ∃ t h, exec (.trapDelivery k) s = .next t ∧ t.group? k = some h ∧ (∀ k', k' ≠ k → t.group? k' = s.group? k') ∧ t.ram = s.ram ∧
          h.arch = c.arch ∧ h.rob = g.rob.filter (fun x => decide (x.seq < n) || g.inProgress x) ∧
          h.staged = g.staged.filter (fun x => decide (x.seq < n)) ∧ h.trap = some tr ∧ h.cut = none) ∧
      (∀ m, g.cut = none → g.commit = some m → m.run = 0 → g.verifiedAt m.seq = true → g.rob = [] → g.staged = [] → g.arch.hmode = false →
        g.arch.thand ≠ 0 → checkTarget s g g.arch.thand = .ok → (s.team? k.team).isSome = true → tr.cause < 256 → tr.flags = 0 → tr.mask &&& g.arch.parked = 0 →
        ∃ t h, exec (.trapDelivery k) s = .next t ∧ ChangedGroup s t k h ∧ InHandler g h s.now tr.cause tr.pc tr.mask tr.addr)) ∧
    (∀ l c r x, g.ckpts = l ++ c :: r → (∀ y ∈ l, y.verified = true) → c.verified = false → c.complete = some x → x + 48 ≤ s.now →
      ∃ t h, exec (.checkpointVerify k) s = .next t ∧ ChangedGroup s t k h ∧ h.ckpts = { c with verified := true } :: r ∧
        h.rstrt = g.rstrt &&& ~~~(0xF00000000 : Dword) ∧ { h with ckpts := g.ckpts, rstrt := g.rstrt } = g)

/-- R63, R65, R104, R118, R128, R129, R156, R158, R209, R375, R405: EFFECT_RELEASE of a due effect with its holder ready. A store writes each byte of its
pieces, in memory, a scratchpad or an operand buffer, clears (or, for STREF, sets) the tags of its words, frees the words written whole of
their poison, and changes no other byte; an OBJINIT also clears the tags of its object. QCOMMIT and QFREE, and a command's slot, give their
slots up in the buffer that they were staged for; QACQ, QWAIT and SCHNXT leave what they have taken; an arrival is counted; a BFREE's
reservation is freed; an image of a tile loses one writer, and with its last, no older image standing, its rows become live. -/
def Obligations.EffectsAreReleased : Prop :=
  ∀ (k : GroupKey) (s : State) (g : Group) (e : Effect) (r : List Effect), s.group? k = some g → g.staged = e :: r →
    s.releasable g = true →
    let there := fun (ps : List Piece) => MemoryOk s ∧ ∀ p ∈ ps, p.data ≠ [] ∧ ∀ n, p.tgt = .scr n ∨ p.tgt = .opbuf n → (s.rank? k.team n).isSome = true
    let plain := fun (u : State) => ∃ t, exec (.effectRelease k) s = .next t ∧ ChangedGroup u t k { g with staged := r }
    let slots := fun (id n : Nat) (f : Queue → Queue) =>
      (∀ x, (rankOfG s g).queue? n = some x → x.id = id → ∃ t h, exec (.effectRelease k) s = .next t ∧ Released s t g h r ∧
        World t (onRank s g fun y => y.setQueue n (f x))) ∧
      ((∀ x, (rankOfG s g).queue? n = some x → x.id ≠ id) → plain s)
    (∀ ps tag sc, e.kind = .write ps tag sc → there ps →
      ∃ t h, exec (.effectRelease k) s = .next t ∧ Released s t g h r ∧ PiecesWritten s t k.team ps tag (fun _ => false) e.pois) ∧
    (∀ p rs, e.kind = .objInit p rs → there [p] →
      ∃ t h, exec (.effectRelease k) s = .next t ∧ Released s t g h r ∧
        PiecesWritten s t k.team [p] .clear (fun y => rs.any fun x => decide (x.1 ≤ y / 8 * 8) && decide (y / 8 * 8 < x.1 + x.2)) e.pois) ∧
    (∀ id n m, (e.kind = .qcommit id n m → slots id n fun x => { x.commit k m with view := View.join x.view e.gives }) ∧
      (e.kind = .qfree id n m → slots id n fun x => { x.release k m with back := View.join x.back e.gives }) ∧
      (e.kind = .slotCommit id n m → slots id n fun x => { x.commitSlot m with view := View.join x.view (g.done e.cls) }) ∧
      (e.kind = .slotFree id n m → slots id n fun x => { x.freeSlot m with back := View.join x.back (g.done e.cls) })) ∧
    (∀ id n i m, e.kind = .qacq id n i m ∨ e.kind = .qwait id n i m ∨ e.kind = .schnxt n i → plain s) ∧
    (∀ id ts, e.kind = .arrive id ts → plain (s.updBar k.team id fun b => b.arrive ts e.gives)) ∧
    (∀ n b, e.kind = .bfree n b →
      plain (onRank s g fun y => { y with b := y.b.map fun z => if z.1 = b then (z.1, { z.2 with freed := true }) else z })) ∧
    ∀ n z id, e.kind = .tile n z id →
      plain (onRank s g fun y => y.releaseTile z id k e.seq) ∧
      ∀ (y : Rank) (tl : Tile) (x : Shadow), y.z[z]? = some tl → tl.shadows = [x] → x.id = id → x.waits = [(k, e.seq)] → x.op = none →
        (y.releaseTile z id k e.seq).z[z]? = some ⟨tl.rows.mapIdx fun i w => (assoc x.rows i).getD w, x.cnt, []⟩

/-- R38, R64, R79, R133, R232, R301, R331, R346, R387, R407: a command of TLD, TST, GATH, SCAT or ZCPY runs, at EXECUTE_COMPLETE or, from where it has
paused, at ENGINE_RESUME: its units are read and what they write is staged, as far as there is room; LOAD_RETURN
executes a load whose lines are held; HOLDW_WAKE ends a wait whose time is over, and has the others looked at again; CEDE_EXPIRY makes ceded threads eligible again.
GROUP_RETIRE of a group whose threads have exited and whose effects have been released takes it from its slot; with its last group the
team leaves the machine. Registers and memory stay. -/
def Obligations.WaitsEnd : Prop :=
  (∀ (k : GroupKey) (s : State) (g : Group) (seq : Nat), s.group? k = some g →
     (∀ c, s.engineWaits g c = false → (∀ w ∈ (s.fits g c).1, ∀ e ∈ w, Sound s g.bare ⟨0, 0, elemChunks c e⟩) →
       (g.cmds.find? (fun c => c.seq = seq ∧ c.paused) = some c →
         ∃ t h, exec (.engineResume k seq) s = .next t ∧ CmdRan s t g h c) ∧
       (g.cmds.find? (fun c => c.seq = seq) = some c → c.paused = false → g.depWaits seq = false →
         ∃ t h, exec (.executeComplete k seq) s = .next t ∧ CmdRan s t g h c)) ∧
     (∀ ls, g.loads.find? (fun l => l.1 = seq) = some (seq, ls) → (∀ x ∈ ls, s.lineHere g.core x = true) → g.depWaits seq = false →
       ∃ t h, exec (.loadReturn k seq) s = .next t ∧ t.group? k = some h ∧ (∀ k', k' ≠ k → t.group? k' = s.group? k') ∧ t.ram = s.ram ∧
         t.teams = s.teams ∧ t.parts = s.parts ∧ h.arch = g.arch ∧ h.loads = g.loads.filter (fun l => l.1 ≠ seq) ∧
         h.rob = g.rob.map (fun e => if e.seq = seq then { e with executed := true } else e) ∧
         h.staged = g.staged.map (fun e => if e.seq = seq ∧ e.engine = false then { e with execAt := s.now } else e)) ∧
     (∃ t h, exec (.holdwWake k) s = .next t ∧ ChangedGroup s t k h ∧ h.look = g.blocked ||| (g.look &&& g.coll) ∧ h.holds.length = g.holds.length ∧
       (∀ (n : Nat) (x : HoldWait), g.holds[n]? = some x → h.holds[n]? = some { x with woken := x.woken || decide (x.until_ ≤ s.now) }) ∧
       { h with look := g.look, holds := g.holds } = g) ∧
     (s.cedeEnd g ≤ s.now → ∃ t, exec (.cedeExpiry k) s = .next t ∧ ChangedGroup s t k { g with ceded := 0 })) ∧
  (∀ (k : GroupKey) (s : State) (g : Group), s.group? k = some g → g.live = 0 → g.rob = [] → g.staged = [] → g.cmds = [] → g.trap = none →
     (s.part k.team.part).resetAt = none →
     ∃ t, exec (.groupRetire k) s = .next t ∧ t.group? k = none ∧ t.ram.mem = s.ram.mem ∧
       ((∀ h ∈ s.groups, h.key.team = k.team → h.key = k) → t.team? k.team = none ∧ ∀ h ∈ t.groups, h.key.team ≠ k.team) ∧
       ((∃ h ∈ s.groups, h.key.team = k.team ∧ h.key ≠ k) → (t.team? k.team).isSome = (s.team? k.team).isSome))

/-! ## Endpoint requests -/

/-- R15 to R18, R197, R199, R210, R227, R228, R232, R233, R247, R251: the PARTITION requests and their answers.
The model's readings: PREEMPT_SPACE and PREEMPT_TIME answer when they are accepted (log 34), and read-only bits of descriptor and booth words
are masked off (log 38). -/
def Obligations.PartitionRequests : Prop :=
  ∀ (m : Mbox),
    let n := mboxPart m
    let b := fun (o w : Nat) => fieldAt (mboxBytes m) o w
    let in_ := fun (_ : State) => n < 16
    let word := fun (o : Nat) => BitVec.ofNat 64 (b o 8)
    (let p := fun (s : State) => { s.part n with desc := [word 8 &&& 0xFFFFFFFFF, word 16, word 24 &&& 0xFFFFFFFFFFFF, word 32 &&& 0xF1F] }
     Answers (.descWrite m) m 40 [(1, 7)]
      (fun s => n < 16 ∧ s.busyPart n = false ∧ descConflict s n (p s) = false ∧ ∀ l ∈ s.linksUsed (p s), l ∉ s.coh.linkDown)
      (fun s => s.setPart n (p s)) (fun _ => [])) ∧
    Tells (.descRead m) m 1 [] in_ (fun s => (s.part n).desc.flatMap fun x => leBytes 8 x.toNat) ∧
    (let c := fun (s : State) => { s.booth n (b 1 1) with w0 := word 8 &&& 0x7FFFFFFFFF01F, w1 := word 16 &&& 0xFF0F }
     Answers (.boothWrite m) m 24 [(2, 6)]
      (fun s => n < 16 ∧ b 1 1 < 64 ∧ (s.booth n (b 1 1)).entries = [] ∧ (s.booth n (b 1 1)).waits = [] ∧
        ((c s).ring = 0 ∨ (6 ≤ (c s).ring ∧ (c s).ring ≤ 20 ∧
          (s.part n).owns (bitsOf (c s).w0.toNat 50 12 * 4096) (64 * 2 ^ (c s).ring) = true)) ∧
        ((c s).valid = true → ((s.part n).ctx? (c s).ctx).isSome = true))
      (fun s => s.updBooth n (b 1 1) fun _ => c s) (fun _ => [])) ∧
    Answers (.gangMask m) m 4 [(1, 1)] in_ (fun s => s.updPart n fun p => { p with gangMask := BitVec.ofNat 16 (b 2 2) }) (fun _ => []) ∧
    (let image := fun (s : State) => s.ram.mem.getN (b 8 8) 256
     Answers (.ctxCreate m) m 16 [(2, 6)]
      (fun s => n < 16 ∧ b 8 8 % 256 = 0 ∧ b 8 8 < 2 ^ 39 ∧ s.ram.tainted (b 8 8) 256 = false ∧ ctxBad s (s.part n) (image s) = false ∧
        (s.part n).ctx? (b 1 1) = none)
      (fun s => s.updPart n fun p => { p with ctxs := p.ctxs ++ [parseCtx (b 1 1) (image s)] }) (fun _ => [])) ∧
    Answers (.ctxDestroy m) m 2 [] (fun s => n < 16 ∧ s.ctxUsed n (b 1 1) = false)
      (fun s => { s.updPart n (fun p => { p with ctxs := p.ctxs.filter fun x => x.num ≠ b 1 1 }) with
        coh := { s.coh with tlb := s.coh.tlb.filter fun e => !(e.part = n && e.ctx = b 1 1) } }) (fun _ => []) ∧
    Tells (.gridList m) m 1 [] in_ (fun s => ((s.part n).grids.take 255).flatMap fun g =>
      leBytes 4 g.num ++ leBytes 1 g.ctx ++ leBytes 1 g.level ++ leBytes 1 (s.gridState n g) ++ leBytes 1 0 ++ leBytes 8 g.blk.addr) ∧
    (let ts := fun (s : State) => s.teamsOn n (s.leastCores n (b 2 2))
     Answers (.preemptSpace m) m 4 [(1, 1)] (fun s => n < 16 ∧ s.canSave (ts s) = true) (fun s => s.beginSave (ts s))
      (fun s => leBytes 2 (s.leastCores n (b 2 2)).length)) ∧
    (let ts := fun (s : State) => s.teams.filter fun t => t.key.part = n && t.key.grid == b 4 4 && t.status == .resident
     Answers (.preemptTime m) m 8 [(1, 3)] (fun s => n < 16 ∧ s.canSave (ts s) = true) (fun s => s.beginSave (ts s)) (fun _ => [])) ∧
    Answers (.kill m) m 12 [(2, 2)] (fun s => n < 16 ∧ b 1 1 = 0 ∧ (s.grid? n (b 4 4)).isSome = true)
      (fun s => (s.killGrid n (b 4 4)).regrant) (fun _ => []) ∧
    (∀ s, Asked (.reset m) m 1 [] s → n < 16 → n < s.parts.length →
      ∃ t, exec (.reset m) s = .next t ∧ (t.part n).ready = false ∧ (t.part n).resetAt = some ((s.part n).resetAt.getD s.now) ∧
        (t.part n).resetMbox = (s.part n).resetMbox ++ [(m.src, m.seq)] ∧ t.ram = s.ram ∧ t.dev.replies = s.dev.replies ∧
        ∀ g ∈ t.groups, g.key.team.part = n → g.stop = true) ∧
    Answers (.dmaqWrite m) m 24 [(2, 6), (19, 5)]
      (fun s => n < 16 ∧ b 1 1 < 4 ∧ b 18 1 = 1 ∧ b 8 8 % 4096 = 0 ∧ (b 16 1 = 0 ∨ (6 ≤ b 16 1 ∧ b 16 1 ≤ 16)) ∧
        (s.queue n (b 1 1)).descs = [] ∧ ((s.part n).ctx? (b 17 1)).isSome = true)
      (fun s => s.updQueue n (b 1 1) fun q => { q with valid := true, ring := b 8 8, ringlog := b 16 1, ctx := b 17 1 }) (fun _ => []) ∧
    Tells (.dieMap m) m 1 [(0, 1)] (fun _ => True) (fun s =>
      [BitVec.ofNat 8 ((if s.hasDie 0 then 1 else 0) + (if s.hasDie 1 then 2 else 0) + (if s.hasDie 2 then 4 else 0) + if s.hasDie 3 then 8 else 0),
        if s.dev.cv360 then 1 else 0])

/-- R12, R19, R36, R137, R138, R139, R160, R188, R242, R304: the MEMORY requests. An INVALIDATE and a MIGRATE are answered when they end.
The model's choices: an unaligned INVALIDATE or PUBLISH_RESET address is rounded down, and a PUBLISH_RESET of another size than its leaf's acts
on the lesser (log 26); WINDOW_INFO answers 96 GiB (log 38) and opaque masks (log 43). -/
def Obligations.MemoryRequests : Prop :=
  ∀ (m : Mbox),
    let n := mboxPart m
    let b := fun (o w : Nat) => fieldAt (mboxBytes m) o w
    Tells (.windowInfo m) m 1 [] (fun s => s.hasDie (b 0 1) = true) (fun _ =>
      leBytes 8 (96 * 2 ^ 30) ++ leBytes 1 Config.ns ++ leBytes 1 Config.ni ++ leBytes 1 Config.np ++ leBytes 5 0 ++
        (List.range (Config.ns + Config.ni + Config.np)).flatMap fun i => leBytes 8 (Config.windowMask (b 0 1) i)) ∧
    (let l := fun (s : State) => ((s.part n).faults.filter FaultRec.queued).take 64
     let sent := fun (s : State) (f : FaultRec) => if (l s).any (fun x => decide (x.id = f.id)) then { f with queued := false, sent := true } else f
     Answers (.faultRead m) m 1 [] (fun _ => n < 16)
      (fun s => s.updPart n fun p => { p with faults := p.faults.map (sent s) })
      (fun s => (l s).flatMap FaultRec.bytes)) ∧
    Answers (.faultReply m) m 8 [(2, 2)]
      (fun s => n < 16 ∧ b 1 1 ≤ 1 ∧ (∃ f ∈ (s.part n).faults, f.id = b 4 4 ∧ f.sent = true))
      (fun s => (s.updPart n fun p => { p with faults := p.faults.filter fun f => f.id ≠ b 4 4 }).serviced n (b 4 4) (b 1 1 == 1)) (fun _ => []) ∧
    (∀ s z, Asked (.invalidate m) m 16 [(3, 5)] s → n < 16 → (b 2 1 = 7 ∧ z = 0 ∨ pageSize (b 2 1) = some z) →
      ∃ t, exec (.invalidate m) s = .next t ∧ t.dev.replies = s.dev.replies ∧ t.ram = s.ram ∧ t.groups = s.groups ∧
        (∀ e, e ∈ t.coh.tlb ↔ e ∈ s.coh.tlb ∧ ¬(e.part = n ∧ e.ctx = b 1 1 ∧
          (b 2 1 = 7 ∨ (e.va < b 8 8 / z * z + z ∧ b 8 8 / z * z < e.va + e.size)))) ∧
        ∃ y, t.coh.syncs = s.coh.syncs ++ [y] ∧ y.mbox = some (m.src, m.seq) ∧
          ∀ g ∈ s.groups, g.key.team.part = n → g.ctx = b 1 1 → (g.key, g.seq) ∈ y.waits) ∧
    (∀ s z, Asked (.migrate m) m 24 [(2, 6)] s → n < 16 → pageSize (b 1 1) = some z → b 8 8 % z = 0 → b 16 8 % z = 0 → b 8 8 < 2 ^ 39 →
      b 16 8 < 2 ^ 39 →
      ∃ t, exec (.migrate m) s = .next t ∧ t.dev.replies = s.dev.replies ∧ t.ram = s.ram ∧ t.groups = s.groups ∧
        t.coh.migs = s.coh.migs ++ [⟨s.coh.nextId, n, z, b 8 8, b 16 8, (m.src, m.seq)⟩]) ∧
    (∀ (c : Context) (e : Nat) (d sz z : Nat), Answers (.publishReset m) m 16 [(3, 5)]
      (fun s => n < 16 ∧ pageSize (b 2 1) = some z ∧ (s.part n).ctx? (b 1 1) = some c ∧ walk s.ram.mem c.ptroot (b 8 8) = .leaf e d sz ∧
        s.resetWaits m = false)
      (fun s => { s with coh := s.coh.unpublish (ptePpn e / sz * sz + b 8 8 % sz / z * z) (min z sz) fun x =>
        ((ownerOf s n c.num (b 8 8 / sz * sz) sz).bind s.team?).bind Team.place? == some (x.die, x.cluster) }) (fun _ => [])) ∧
    Answers (.streamWindow m) m 32 [(7, 1)]
      (fun s => b 0 1 < 2 ∧ b 1 1 < 8 ∧ b 2 1 < 16 ∧ b 6 1 < 2 ∧ (b 6 1 = 1 → b 8 8 % 65536 = 0 ∧ b 16 8 % 65536 = 0 ∧ b 16 8 ≠ 0 ∧
        b 24 8 % 4096 = 0 ∧ (s.part (b 2 1)).owns (b 8 8) (b 16 8) = true ∧ (s.part (b 2 1)).owns (b 24 8) 4096 = true))
      (fun s => s.setIod (b 0 1) { s.iod (b 0 1) with
        wins := (s.iod (b 0 1)).wins.set (b 1 1) ⟨b 6 1 == 1, b 2 1, b 3 1, b 4 2, b 8 8, b 16 8, b 24 8⟩ }) (fun _ => []) ∧
    (∀ c : Comm, Answers (.commWrite m) m 24 [(2, 6)]
      (fun s => n < 16 ∧ parseComm s.dev.devNum n (m.len - 8) ((mboxBytes m).drop 8) = some c)
      (fun s => s.updPart n fun p => { p with comms := assocPut p.comms (b 1 1) c }) (fun _ => [])) ∧
    Answers (.landingRing m) m 16 [(2, 6)]
      (fun s => n < 16 ∧ 2 ≤ b 1 1 ∧ b 1 1 ≤ 10 ∧ b 8 8 % 65536 = 0 ∧ (s.part n).owns (b 8 8) (65600 * 2 ^ b 1 1) = true ∧ (s.part n).ringUsed = [])
      (fun s => s.updPart n fun p => { p with ringN := some (b 1 1), ringPa := b 8 8, ringNext := 0 }) (fun _ => [])

/-- R214, R215, R218, R226, R235, R241, R250, R253, R313, R406: the POWER, SECURITY, DEBUG and TELEMETRY requests.
The model's readings: ALARM_READ removes nothing, HALT_READ gives parked lanes as 16-byte entries and DEBUG_UNLOCK is checked against the latest
nonce (log 38); signatures, credentials, bundles and digests are opaque checks of their bytes (log 12). -/
def Obligations.OtherRequests : Prop :=
  ∀ (m : Mbox),
    let n := mboxPart m
    let b := fun (o w : Nat) => fieldAt (mboxBytes m) o w
    let in_ := fun (_ : State) => n < 16
    let die := fun (s : State) => s.hasDie (b 0 1) = true
    let name : GroupKey := ⟨⟨n, b 4 4, b 8 4⟩, b 12 2⟩
    let wake := fun (p : Group → Bool) (s : State) =>
      let one := fun (g : Group) => if p g then { g with halt := none } else g
      { s with groups := s.groups.map one, teams := s.teams.map fun t => { t with saved := t.saved.map one } }
    let debug := fun (x : Bool) (s : State) => s.updCtx n (b 1 1) fun c => { c with debug := x }
    Answers (.budget m) m 8 [(1, 3)]
      (fun s => n < 16 ∧ estimate s (s.part n) noPoints ≤ 9000 * b 4 4 ∧ s.budgets n + b 4 4 + s.dev.reserve ≤ s.dev.cap)
      (fun s => (s.updPart n fun p => { p with budget := some (b 4 4) }).regrant) (fun _ => []) ∧
    Answers (.cap m) m 4 [] (fun s => 1200 ≤ b 0 4 ∧ b 0 4 ≤ 3600 ∧ s.budgets 16 + s.dev.reserve ≤ b 0 4)
      (fun s => { s with dev := { s.dev with cap := b 0 4 } }) (fun _ => []) ∧
    Tells (.powerTable m) m 1 [] die (fun s => leBytes 4 (s.die (b 0 1)).staticMw ++ (s.die (b 0 1)).costs.flatMap fun r => r.flatMap (leBytes 4)) ∧
    Tells (.grants m) m 1 [] die (fun s => (List.range 9).flatMap fun c => leBytes 8 (grantsValue s (b 0 1) c)) ∧
    Tells (.reserve m) m 0 [] (fun _ => True) (fun s => leBytes 4 s.dev.reserve) ∧
    Tells (.alarmRead m) m 0 [] (fun _ => True) (fun s => (s.dev.alarms.take 64).flatMap Alarm.bytes) ∧
    (let img := fun (s : State) => s.ram.mem.getN (b 8 8) (b 16 4)
     Answers (.imageLoad m) m 20 [(1, 7)]
      (fun s => Config.imageSignatureOk (img s) = true ∧ ∀ d ∈ s.dies, (assoc d.svn (b 0 1)).getD 0 ≤ Config.imageSvn (img s))
      (fun s => { s with dev := { s.dev with
        images := (b 0 1, img s) :: s.dev.images.filter fun i => i.1 ≠ b 0 1 } }) (fun _ => [])) ∧
    (∀ i : Nat × List Byte, Answers (.svnCommit m) m 56 [(1, 7)]
      (fun s => (s.dev.images.find? fun i => i.1 = b 0 1 && Config.digest i.2 == ((mboxBytes m).drop 8).take 48) = some i)
      (fun s => { s with dies := s.dies.map fun d => { d with svn := assocPut d.svn (b 0 1) (max (Config.imageSvn i.2) ((assoc d.svn (b 0 1)).getD 0)) } })
      (fun _ => [])) ∧
    Answers (.nonce m) m 0 [] (fun _ => True)
      (fun s => { s with fresh := s.fresh + 1, dev := { s.dev with nonces := Config.freshNonce s.fresh :: s.dev.nonces } })
      (fun s => padTo 32 ((Config.freshNonce s.fresh).take 32)) ∧
    (∀ x : List Byte, Answers (.debugUnlock m) m 8 [(1, 7)]
      (fun s => b 0 1 < 16 ∧ m.len ≤ 1032 ∧ s.dev.nonces.head? = some x ∧ Config.credentialOk ((mboxBytes m).drop 8) x (b 0 1) = true)
      (fun s => { s.updPart (b 0 1) (fun p => { p with unlocked := true }) with dev := { s.dev with nonces := s.dev.nonces.drop 1 } })
      (fun _ => [])) ∧
    Answers (.provision m) m 8 [(0, 8)] (fun _ => Config.provisionOk ((mboxBytes m).drop 8) = true)
      (fun s => { s with dev := { s.dev with nonces := s.dev.nonces.drop 1, provisioned := true, idKey := some (Config.provisionKey ((mboxBytes m).drop 8)) } }) (fun _ => []) ∧
    (∀ s d, m.src = .die d → s.hasDie d = true → (m.ep, m.op) = (3, 6) → (∀ h ∈ s.dev.held, h.1.src ≠ m.src) → 8 ≤ m.len → m.len ≤ 4080 →
      b 0 8 = 0 → Config.provisionOk ((mboxBytes m).drop 8) = true →
      ∃ t, exec (.provision m) s = .next t ∧ t.dev.provisioned = true ∧ t.dev.classC = false ∧
        t.dev.idKey = some (Config.provisionKey ((mboxBytes m).drop 8)) ∧ t.dev.replies.head? = some ⟨m.src, m.seq, 0, []⟩ ∧ t.ram = s.ram ∧
        t.groups = s.groups) ∧
    (∀ s, Asked (.keyAssign m) m 8 [(4, 4)] s → n < 16 → n < s.parts.length → b 1 1 + b 2 2 ≤ 256 → s.busyPart n = false →
      (∀ i, i < 16 → i ≠ n → b 2 2 = 0 ∨ (s.part i).keyCount = 0 ∨ b 1 1 + b 2 2 ≤ (s.part i).keyFirst ∨
        (s.part i).keyFirst + (s.part i).keyCount ≤ b 1 1) →
      ∃ t, exec (.keyAssign m) s = .next t ∧ t.dev.replies.head? = some ⟨m.src, m.seq, 0, []⟩ ∧ (t.part n).keyFirst = b 1 1 ∧
        (t.part n).keyCount = b 2 2 ∧
        ∀ k, b 1 1 ≤ k → k < b 1 1 + b 2 2 → (assoc (s.part n).keys k).isSome = true → assoc (t.part n).keys k = assoc (s.part n).keys k) ∧
    Answers (.attach m) m 2 [] (fun s => n < 16 ∧ (s.dev.unlockedAll || (s.part n).unlocked) = true) (debug true) (fun _ => []) ∧
    Answers (.detach m) m 2 [] in_ (fun s => wake (fun g => g.key.team.part == n && g.ctx == b 1 1) (debug false s)) (fun _ => []) ∧
    Tells (.haltList m) m 1 [] in_ (fun s => ((s.allGroups n).filter fun g => g.halt.isSome).flatMap fun g =>
      leBytes 4 g.key.team.grid ++ leBytes 4 g.key.team.idx ++ leBytes 2 g.key.grp ++ leBytes 6 0) ∧
    (∀ (g : Group) (h : Halt), Tells (.haltRead m) m 14 [(1, 3)]
      (fun s => n < 16 ∧ ((s.allGroups n).find? fun g => g.key = name && g.halt.isSome) = some g ∧ g.halt = some h)
      (fun _ => leBytes 8 h.pc.toNat ++ leBytes 8 h.act.toNat ++ leBytes 4 h.imm.toNat ++ leBytes 12 0 ++
        padTo 512 (g.arch.pcs.flatMap fun p => leBytes 8 p.toNat) ++ g.subGroups.flatMap fun x => leBytes 8 x.1.toNat ++ leBytes 8 x.2)) ∧
    Answers (.resume m) m 14 [(1, 3)] in_ (wake fun g => g.key == name) (fun _ => []) ∧
    Answers (.fabricMap m) m 8 [(2, 6)] (fun _ => m.len % 8 = 0 ∧ m.len ≤ 4008)
      (fun s => { s with dev := { s.dev with
        devNum := b 0 2
        fabric := (List.range ((m.len - 8) / 8)).map fun i => (b (8 + 8 * i) 2, b (10 + 8 * i) 6) } }) (fun _ => []) ∧
    (let l := fun (s : State) => (s.dev.log.filter fun r => r.part = n).take 62
     Answers (.logRead m) m 1 [] (fun _ => n < 16 ∨ n = 255)
      (fun s => { s with dev := { s.dev with log := (l s).foldl (fun x r => x.erase r) s.dev.log } }) (fun s => (l s).flatMap LogRec.bytes)) ∧
    Tells (.counters m) m 1 [] die (fun s =>
      let d := s.die (b 0 1)
      (d.events ++ [d.restarts, d.storms, d.ecc] ++ s.dev.retries).flatMap (leBytes 8))

/-! ## Coherence and translation -/

/-- R139, R143, R144, R152, R153, R180, R181, R189, R191: HOME_REQUEST begins one request for a line, whose bank wakes first, and asks every holder
it has to hear from that the directory names;
COHERENCE_PROBE makes a holder that has not locked the line give it up, or for a read keep no more than a shared copy; INVALIDATION_ACK
brings its answer; OWNERSHIP_GRANT gives the line to the requester alone, in M. STAMP_SWEEP marks old just the stamps of its slice that
lag by 2^14 or more; BANK_SLEEP records the generation; BANK_WAKE after 2^15 generations marks every line of the bank old; WIDEN_ANSWER
frees the record and advances its die's generation; NARROW_RELEASE_COMPLETE frees every record of its cluster at or before a generation.
That a bank is a whole home slice is the model's choice (log 26), and so is that WIDEN_ANSWER advances one die's generation only (log 19). -/
def Obligations.HomesAndScopes : Prop :=
  (∀ (core : CoreId) (line : Nat) (s : State) (r : HomeReq),
     let same := fun (t : State) => { t with coh := s.coh } = s ∧ ∀ l, l ≠ line → t.coh.line l = s.coh.line l
     (s.coh.req? core line = some r → r.stage = .sent → s.arriving line = false → s.leaving line = false →
       (∀ q ∈ s.coh.reqs, q.line = line → q.stage ≠ .probing) →
       ∃ t q, exec (.homeRequest core line) s = .next t ∧ { t with coh := s.coh } = s ∧ t.coh.sleeps line = false ∧
         t.coh.lines.map (fun l => { l with stamp := none }) = s.coh.lines.map (fun l => { l with stamp := none }) ∧
         (s.coh.sleeps line = false → t.coh.lines = s.coh.lines) ∧ t.coh.req? core line = some q ∧ q.stage = .probing ∧ q.own = r.own ∧
         ∀ c, c ∈ q.wait ↔ c ≠ core ∧ ((s.coh.line line).owner = some c ∨ (r.own = true ∧ c ∈ (s.coh.line line).holders)) ∧
           (r.priv = true ∨ Config.hostBase ≤ line ∨ s.coh.names line c = true)) ∧
     ((s.coh.reqs.find? fun r => r.line = line && r.stage == .probing && r.wait.contains core) = some r →
       (∀ l, s.lockOf line = some l → l.2 ≠ core) →
       ∃ t, exec (.coherenceProbe core line) s = .next t ∧ same t ∧ t.coh.owns core line = false ∧
         (r.own = true → core ∉ (t.coh.line line).holders ∧ (t.coh.line line).owner ≠ some core) ∧
         ∀ q ∈ t.coh.reqs, q.core = r.core → q.line = line → core ∉ q.wait) ∧
     (∃ t, exec (.invalidationAck core line) s = .next t ∧ same t ∧ t.coh.lines = s.coh.lines ∧ t.coh.reqs.length = s.coh.reqs.length ∧
       ∀ q ∈ t.coh.reqs, q.line = line → core ∉ q.acks) ∧
     (s.coh.req? core line = some r → s.grantable r = true → r.own = true →
       ∃ t, exec (.ownershipGrant core line) s = .next t ∧ { t with coh := s.coh } = s ∧ t.coh.sleeps line = false ∧
         (∀ l, l ≠ line → { t.coh.line l with stamp := none } = { s.coh.line l with stamp := none }) ∧
         (s.coh.sleeps line = false → same t) ∧ t.coh.owns core line = true ∧ (t.coh.line line).state = .m ∧
         (t.coh.line line).holders = [core] ∧ t.coh.req? core line = none)) ∧
  (∀ (die slice : Nat) (s : State),
     let only := fun (t : State) => { t with coh := s.coh } = s
     let dg := s.coh.dg.getD die 0
     let asleep := s.coh.asleep.any fun a => a.1 == die && a.2.1 == slice
     (asleep = false →
       ∃ t, exec (.stampSweep die slice) s = .next t ∧ only t ∧
         ∀ (n : Nat) (l : Line), s.coh.lines[n]? = some l → ∃ m, t.coh.lines[n]? = some m ∧ { m with stamp := l.stamp } = l ∧
           (l.stamp = none → m.stamp = none) ∧
           ∀ x, l.stamp = some x → m.stamp = if homeDie l.addr = die ∧ sliceOf l.addr = slice ∧ 2 ^ 14 ≤ (dg + 65536 - x) % 65536 then none else some x) ∧
     (asleep = false → ∃ t, exec (.bankSleep die slice) s = .next t ∧ only t ∧ { t.coh with asleep := s.coh.asleep } = s.coh ∧
       t.coh.asleep = (die, slice, dg) :: s.coh.asleep) ∧
     (∀ was, (s.coh.asleep.find? fun a => a.1 = die ∧ a.2.1 = slice) = some (die, slice, was) → was + 2 ^ 15 ≤ dg →
       ∃ t, exec (.bankWake die slice) s = .next t ∧ only t ∧ (∀ a ∈ t.coh.asleep, ¬(a.1 = die ∧ a.2.1 = slice)) ∧
         ∀ l ∈ t.coh.lines, homeDie l.addr = die → sliceOf l.addr = slice → l.stamp = none) ∧
     (∀ line cluster n, (s.coh.narrows.find? fun n => n.line = line && n.die = die && n.cluster = cluster && n.asked) = some n →
       die < s.coh.dg.length →
       ∃ t, exec (.widenAnswer line die cluster) s = .next t ∧ only t ∧ n ∉ t.coh.narrows ∧ (∀ x ∈ t.coh.narrows, x ∈ s.coh.narrows) ∧
         t.coh.dg.getD die 0 = dg + 1) ∧
     (∀ cluster gen, ∃ t, exec (.narrowReleaseComplete die cluster gen) s = .next t ∧ only t ∧ (∀ x ∈ t.coh.narrows, x ∈ s.coh.narrows) ∧
       t.coh.lines = s.coh.lines ∧
       ∀ x ∈ t.coh.narrows, x.die = die → x.cluster = cluster → 32768 ≤ (gen % 65536 + 65536 - x.gen) % 65536))

/-- R138, R139, R140, R166: TLB_SYNC_ANSWER answers once every access has performed; HOST_TLB_INVALIDATE on a CXL link removes the translations of the
contexts that share a PASID; MIGRATION_COMPLETE puts the source page's bytes in the destination's place, and
MIGRATION_ABORT moves nothing; of all other bytes they rewrite those of the page-table entries that map the destination with MIG set, which
lose MIG or are turned back to the source; the lines that a saved team had locked move with a page (R150); DROVER_WALK_RESUME lets an answered walk go on. -/
def Obligations.TranslationsAndMigrations : Prop :=
  ∀ (s : State) (id : Nat),
    (∀ y x, (s.coh.syncs.find? fun y => y.id = id) = some y → y.waits.all s.performed = true → y.mbox = some x →
      ∃ t, exec (.tlbSyncAnswer id) s = .next t ∧ t.dev.replies.head? = some ⟨x.1, x.2, 0, []⟩ ∧ (∀ z ∈ t.coh.syncs, z.id ≠ id) ∧
        { t with coh := s.coh, dev := s.dev } = s) ∧
    (∀ pasid va size, (∃ d ∈ s.iods, d.proto = some .cxl) →
      ∃ t, exec (.hostTlbInvalidate pasid va size) s = .next t ∧ { t with coh := s.coh } = s ∧ t.coh.lines = s.coh.lines ∧
        ∀ e ∈ t.coh.tlb, e ∈ s.coh.tlb ∧ ∀ n c, n < 16 → c ∈ (s.part n).ctxs → c.shared = true → c.pasid = pasid → e.part = n → e.ctx = c.num →
          va + size ≤ e.va ∨ e.va + e.size ≤ va) ∧
    (∀ m, (s.coh.migs.find? fun m => m.id = id) = some m →
      let moving := fun (u : State) => u.leaves.filter fun x => pteMig x.2.1 && pteMt x.2.1 == 0 && inPage (ptePpn x.2.1) m.dst m.size
      let clear := fun (u : State) a => ∀ x ∈ moving u, a < x.1 ∨ x.1 + 8 ≤ a
      let locksTo := fun (src dst : Nat) (r : Rank) =>
        { r with locks := r.locks.map fun l => (if src ≤ l.1 ∧ l.1 < src + m.size then dst + (l.1 - src) else l.1, l.2) }
      let relocked := fun (src dst : Nat) => s.teams.map fun tm => { tm with ranks := tm.ranks.map (locksTo src dst) }
      (s.pageLocked m.src m.size = false → s.ram.mem.wf = true → (m.src + m.size ≤ m.dst ∨ m.dst + m.size ≤ m.src) →
        ∃ t, exec (.migrationComplete id) s = .next t ∧ t.teams = relocked m.src m.dst ∧ t.parts = s.parts ∧
          t.dev.replies.head? = some ⟨m.mbox.1, m.mbox.2, 0, [0]⟩ ∧ (∀ x ∈ t.coh.migs, x.id ≠ id) ∧
          let u := { s with ram := s.ram.copyPage m.src m.dst m.size }
          (∀ x ∈ moving u, t.ram.mem.num x.1 8 = pteSettled x.2.1) ∧
          ∀ a, clear u a →
            t.ram.mem.get a = if m.dst ≤ a ∧ a < m.dst + m.size then s.ram.mem.get (m.src + (a - m.dst)) else s.ram.mem.get a) ∧
      ∃ t, exec (.migrationAbort id) s = .next t ∧ t.teams = relocked m.dst m.src ∧ t.parts = s.parts ∧
        (s.ram.mem.wf = true → ∀ a, clear s a → t.ram.mem.get a = s.ram.mem.get a) ∧
        t.dev.replies.head? = some ⟨m.mbox.1, m.mbox.2, 0, [1]⟩ ∧ ∀ x ∈ t.coh.migs, x.id ≠ id) ∧
    (∀ k g w, s.group? k = some g → g.walk = some w → w.ready = true →
      ∃ t, exec (.droverWalkResume k) s = .next t ∧ ChangedGroup s t k { g with walk := some { w with fault := none, ready := false } })

/-- R151, R226, R232 to R234, R238: LINK_DOWN, MACHINE_CHECK and VF_RESET stop their partitions' groups and ask for the fatal reset; a corrected error only counts, and
a double-bit error in memory poisons its word (R76); FATAL_RESET drops
every team of the partition and empties its booths, grids and armings; PARTITION_READY makes its VF ready again; LINK_RETRY only counts. -/
def Obligations.FatalResets : Prop :=
  ∀ (s : State) (p : Nat),
    let asked := fun (t : State) (n : Nat) => (t.part n).ready = false ∧ (t.part n).resetAt.isSome = true ∧
      ∀ g ∈ t.groups, g.key.team.part = n → g.stop = true
    (∀ link, link < 8 → link ∉ s.coh.linkDown →
      ∃ t, exec (.linkDown link) s = .next t ∧ link ∈ t.coh.linkDown ∧ t.ram.mem = s.ram.mem ∧ t.teams = s.teams ∧
        ∀ n, n < 16 → n < s.parts.length → link ∈ s.linksUsed (s.part n) → asked t n) ∧
    (∀ link, ∃ t, exec (.linkRetry link) s = .next t ∧ { t with dev := s.dev } = s ∧
      ∀ i : Nat, t.dev.retries[i]? = if i = link then s.dev.retries[i]?.map (· + 1) else s.dev.retries[i]?) ∧
    (∀ d, ∃ t, exec (.machineCheck (.corrected d)) s = .next t ∧ { t with dies := s.dies } = s ∧
      ∀ i : Nat, t.dies[i]? = if i = d then s.dies[i]?.map fun x => { x with ecc := x.ecc + 1 } else s.dies[i]?) ∧
    (∀ a, ∃ t, exec (.machineCheck (.memory a)) s = .next t ∧ { t with ram := { t.ram with poison := s.ram.poison } } = s ∧
      ∀ w, w ∈ t.ram.poison ↔ w ∈ s.ram.poison ∨ w = a / 8 * 8) ∧
    (∀ parts, ∃ t, exec (.machineCheck (.check parts)) s = .next t ∧ t.ram = s.ram ∧ t.coh = s.coh ∧ t.teams = s.teams ∧
      ∀ n ∈ parts, n < 16 → n < s.parts.length → asked t n) ∧
    (∀ port vf, s.bound port vf = some p → ∃ t, exec (.vfReset port vf) s = .next t ∧ t.ram = s.ram ∧ asked t p) ∧
    (p < s.parts.length → (s.part p).resetAt.isSome = true → (s.part p).dropped = false →
      ∃ t, exec (.fatalReset p) s = .next t ∧ (∀ x ∈ t.teams, x.key.part ≠ p) ∧ (∀ j, j.part = p → (s.team? j).isSome = true → ∀ g ∈ t.groups, g.key.team ≠ j) ∧
        (∀ k, k.part ≠ p → t.team? k = s.team? k) ∧ (t.part p).grids = [] ∧ (t.part p).armings = [] ∧ (t.part p).dropped = true ∧
        (∀ b ∈ (t.part p).booths, b.entries = [] ∧ b.waits = []) ∧ (t.part p).ctxs.map Context.num = (s.part p).ctxs.map Context.num ∧
        ∀ d ∈ t.iods, ∀ w ∈ d.wins, w.enable = true → w.part ≠ p) ∧
    (p < s.parts.length → (s.part p).dropped = true → s.dev.classC = false →
      ∃ t, exec (.partitionReady p) s = .next t ∧ (t.part p).ready = true ∧ (t.part p).resetAt = none ∧ (t.part p).dropped = false ∧
        (∀ x ∈ (s.part p).resetMbox, ∃ r ∈ t.dev.replies, r.src = x.1 ∧ r.status = 0) ∧ t.ram = s.ram ∧ t.groups = s.groups)

/-! ## The matrix engine's events -/

/-- R107, R112, R118, R104, R115: MATRIX_OPERATION_ISSUE starts the oldest ready operation of a core rank; MATRIX_OPERATION_COMPLETE ends it, stands its
image in the tile and executes each signer's entry that waits for nothing else, its tile write staged; RESERVATION_INVALIDATE frees a released reservation that
nothing reads. No byte of memory changes. An S8 step adds exactly and saturates to 32 bits, setting AOVF just when it does. -/
def Obligations.MatrixOperations : Prop :=
  ∀ (k : TeamKey) (rank : Nat) (s : State), (s.rank? k rank).isSome = true →
    let core := s.coreOf k rank
    (∀ o r slot, s.opReady k rank = some (o, r, slot) → s.mayStart core.die core.cluster = true →
      ∃ t, exec (.matrixOperationIssue k rank) s = .next t ∧ t.ram = s.ram ∧ t.groups = s.groups ∧ t.parts = s.parts ∧
        t.rankOf k rank = { r with ops := { o with started := true, slot := slot } :: r.ops.tail } ∧
        ∀ q n, (q, n) ≠ (k, rank) → t.rankOf q n = s.rankOf q n) ∧
    (∀ o y l, (s.rankOf k rank).ops.find? MatOp.started = some o → o.slot = none →
      (s.rankOf k rank).tileOf (o.signs.headD default).source = some (y, l) →
      TileSound ((s.rankOf k rank).z.getD (o.signs.headD default).tmac.z default) (List.range 64) → (∀ w ∈ wordsOf y.off l, w ∉ (s.rankOf k rank).opPoison) →
      ∃ t, exec (.matrixOperationComplete k rank) s = .next t ∧ t.ram = s.ram ∧ t.parts = s.parts ∧ t.coh = s.coh ∧
        (∀ p ∈ (t.rankOf k rank).ops, p.id ≠ o.id) ∧ (t.rankOf k rank).opbuf = (s.rankOf k rank).opbuf ∧
        (t.rankOf k rank).scr = (s.rankOf k rank).scr ∧
        ∀ x ∈ o.signs, ∀ g e, s.group? x.group = some g → e ∈ g.rob → e.seq = x.seq →
          (∀ f ∈ g.staged, f.seq = x.seq → f.isTile = false) →
          ∃ h, t.group? x.group = some h ∧ (g.depWaits x.seq = false → ∃ f ∈ h.rob, f.seq = x.seq ∧ f.executed = true) ∧
            (∃ f ∈ h.staged, f.seq = x.seq ∧ f.isTile = true) ∧
            ((∀ y ∈ o.signs, y.group = x.group → ∃ f ∈ g.rob, f.seq = y.seq) → h.arch = g.arch)) ∧
    (∀ b y, assoc (s.rankOf k rank).b b = some y → y.marked = true → y.freed = true → (s.rankOf k rank).reads b = false →
      ∃ t, exec (.reservationInvalidate k rank b) s = .next t ∧ assoc (t.rankOf k rank).b b = none ∧
        { t with teams := s.teams } = s ∧ { t.rankOf k rank with b := (s.rankOf k rank).b } = s.rankOf k rank) ∧
    ∀ (x : Chain) (t : Int),
      (chainS8 [t] x).acc.toInt = max (-(2 ^ 31)) (min (2 ^ 31 - 1) (x.acc.toInt + t)) ∧ (chainS8 [t] x).nar = x.nar ∧
      ((chainS8 [t] x).fl = x.fl ||| mxAovf ↔ (x.acc.toInt + t < -(2 ^ 31) ∨ 2 ^ 31 ≤ x.acc.toInt + t ∨ x.fl ||| mxAovf = x.fl)) ∧
      ∀ l r, chainS8 (l ++ r) x = chainS8 r (chainS8 l x)

/-! ## Scheduling -/

/-- R23, R27, R194, R198, R200, R203, R205, R268: LAUNCH_COPY makes a legal block wait at its booth; DEPENDENCE_EVALUATION makes a launch whose counters have
reached their targets eligible; PRIORITY_AGING raises one that has waited 10 ms; TEAM_PLACE places what R205 chooses and changes no byte;
COMPLETION_ACTION of a completed grid with no action to take removes it. -/
def Obligations.Launches : Prop :=
  ∀ (part n : Nat) (s : State), part < s.parts.length → n < (s.part part).booths.length →
    let b := s.booth part n
    (∀ e r l, b.entries = e :: r → b.valid = true → b.work = false → b.waits = [] → n < 64 → launchEntryOk e.words = true →
      ioRuns s part b.ctx .read ((e.words.getD 0 0).toNat % 2 ^ 57) 256 = some l → ioBusy s l = false → ioPoison s l = false →
      let blk := parseLaunch ((e.words.getD 0 0).toNat % 2 ^ 57) (ioBytes s l)
      judgeLaunch s part b.ctx false blk = none → (∀ i, i < 65 → i ≠ n → (s.booth part i).waits = []) →
      blk.used = [] →
      ∃ t, exec (.launchCopy part n) s = .next t ∧ t.ram = s.ram ∧ t.groups = s.groups ∧ t.teams = s.teams ∧
        (t.booth part n).waits = [⟨blk, b.ctx, some s.now, blk.prio, s.now, 0, 0, none, e.view⟩] ∧ (t.booth part n).entries = b.entries) ∧
    (∀ w r v, b.waits = w :: r → n < 65 → w.since = none → (∀ i, i < 65 → i ≠ n → (s.booth part i).waits = []) →
      depsOf s part w.ctx w.blk.used = .met v →
      ∃ t, exec (.dependenceEvaluation part) s = .next t ∧ t.ram = s.ram ∧ t.groups = s.groups ∧
        (t.booth part n).waits = { w with since := some s.now, raised := s.now, hb := View.join w.hb v } :: r) ∧
    (∀ w r x, b.waits = w :: r → w.since = some x → w.raised + 10000000 ≤ s.now → w.level < 3 →
      ∃ t, exec (.priorityAging part n) s = .next t ∧ t.ram = s.ram ∧ t.groups = s.groups ∧
        (t.booth part n).waits = { w with level := w.level + 1, raised := w.raised + 10000000 } :: r) ∧
    (∀ grid cores u, (s.part part).ready = true → s.placeNext part grid cores = some u →
      ∃ t, exec (.teamPlace part grid cores) s = .next t ∧ t.teams = u.teams ∧ t.parts = u.parts ∧ t.ram = u.ram ∧ t.coh = u.coh ∧
        t.groups.map Group.key = u.groups.map Group.key ∧ t.groups.map Group.arch = u.groups.map Group.arch) ∧
    (∀ grid g, s.grid? part grid = some g → s.gridOver part g = true → g.gang = none → g.ring = none → g.blk.complctl = 0 →
      (∀ i, i < 65 → (s.booth part i).waits = []) →
      ∃ t, exec (.completionAction part grid) s = .next t ∧ { t with parts := s.parts } = s ∧ t.grid? part grid = none ∧
        ∀ q, q ≠ part → t.part q = s.part q) ∧
    ∀ (k : TeamKey) (ctx : Nat) (blk : Launch) (cores : List CoreId), ∀ g ∈ teamGroups k ctx blk cores s.now,
      g.key.team = k ∧ g.key.grp < blk.groups ∧ g.w = blk.width ∧ g.nv = blk.nv ∧ g.ns = blk.ns ∧ g.quad = g.key.grp % 4 ∧
      (∀ L, L < blk.width → g.arch.pc L = blk.code) ∧ (∀ i, i < 16 → i < blk.ns → g.arch.sreg i = blk.args.getD i 0) ∧
      (∀ i, 16 ≤ i → g.arch.sreg i = 0) ∧ (∀ i L, g.arch.vreg i L = 0) ∧
      ∀ L, L < blk.width → blk.width ≤ 64 → (g.live.has L = true ↔ g.key.grp * blk.width + L < blk.threads)

/-- R210 to R212, R229: GANG_RESERVE and GANG_RETRY, for the gang that became eligible first, open a reservation that holds what is free for it, where it
cannot start everywhere yet; GANG_RESERVE_TIMEOUT releases it after
100 µs; LEASE_RENEW and LEASE_LAPSE keep or pass on the harbourmaster's role; PREEMPT_SAVE of a quiet team with a slot and a writable image
saves it. That
a reservation holds the lowest cores (log 33) and how the image is packed (log 27) are the model's choices. -/
def Obligations.GangsLeaseAndSaves : Prop :=
  ∀ (part n : Nat) (s : State),
    let opens := fun (i : Instr) (w : Waiting) =>
      s.gangTurn part n = some w → s.dev.takeover = none → s.noCarrier w.blk = false → s.dev.gangResv = none →
        (∀ x ∈ s.gangAsking, w.since.getD 0 < x.2.2 ∨ (w.since.getD 0 = x.2.2 ∧ part ≤ x.1)) →
        let r := s.holdGang w ⟨part, n, s.now, []⟩
        r.whole w = false → ∃ t, exec i s = .next t ∧ t = { s with dev := { s.dev with gangResv := some r } }
    (∀ w, w.tries = 0 → opens (.gangReserve part n) w) ∧
    (∀ w, 0 < w.tries → w.retryAt ≤ s.now → opens (.gangRetry part n) w) ∧
    (∀ r w q, s.dev.gangResv = some r → r.start + 100000 ≤ s.now → (s.booth r.part r.booth).waits = w :: q → w.tries < 15 →
      r.part < s.parts.length → r.booth < (s.part r.part).booths.length →
      ∃ t, exec .gangReserveTimeout s = .next t ∧ t.dev.gangResv = none ∧ t.ram = s.ram ∧ t.teams = s.teams ∧
        (t.booth r.part r.booth).waits = { w with tries := w.tries + 1, retryAt := s.now + 1000000 } :: q) ∧
    (∃ t, exec .leaseRenew s = .next t ∧ t.dev.lease = s.now + 40000000 ∧ t.dev.takeover = none ∧ t.dev.hm = s.dev.hm ∧
      { t with dev := s.dev } = s) ∧
    (∀ healthy d, s.dev.lease ≤ s.now → s.dev.takeover = none → d < 4 → s.hasDie d = true → d ∈ healthy →
      (∀ x, x < d → s.hasDie x = true → x ∉ healthy) →
      ∃ t, exec (.leaseLapse healthy) s = .next t ∧ t.dev.hm = d ∧ t.dev.takeover = some (s.now + 60000000) ∧ t.dev.gangResv = none ∧
        (∀ p ∈ t.parts, ∀ f ∈ p.faults, f.queued = true) ∧ t.ram = s.ram ∧ t.groups = s.groups ∧ t.teams = s.teams) ∧
    ∀ k tm i u, s.team? k = some tm → tm.status = .saving → s.falling k.part = false → (∀ g ∈ s.groups, g.key.team = k → s.quiet g = true) →
      (∀ r ∈ tm.ranks, r.ops = [] ∧ ∀ z ∈ r.z, z.shadows = []) → s.freeSlotOf k.part tm.ctx = some i →
      s.putParts k.part tm.ctx (imageParts tm (s.groups.filter fun g => g.key.team = k)
        ((s.saveArea k.part tm.ctx).1 + i * (s.saveArea k.part tm.ctx).2.1)) = some u →
      ∃ t x, exec (.preemptSave k) s = .next t ∧ t.team? k = some x ∧ x.status = .saved ∧ x.slot = some i ∧ x.cores = [] ∧
        x.saved = s.groups.filter (fun g => g.key.team = k) ∧ (∀ g ∈ t.groups, g.key.team ≠ k) ∧ t.ram.mem = u.ram.mem

/-! ## Clocks -/

/-- R213, R216, R217, R220: GRANT_TAKE_EFFECT moves a domain to its target point; LOADSTEP_ASSERT announces a step 2 µs ahead; LOADSTEP_LEAD_EXPIRY admits
it, at a limited rate unless LDACK is asserted; LDACK_ASSERT lifts the limit; DROOP_RECOVERY_INTERVAL with fewer than 16 restarts gives
each MATH and VEC grant whose computed grant stays back one point of what is held back. No register and no byte changes. That a lead of MATH
alone admits no threshold, and what a lowering holds back of a grant, are the model's readings (log 22). -/
def Obligations.ClockEvents : Prop :=
  ∀ (die cl : Nat) (s : State), die < s.dies.length →
    let d := s.die die
    let same := fun (t : State) => t.ram = s.ram ∧ t.coh = s.coh ∧ t.teams = s.teams ∧ t.parts = s.parts ∧
      t.groups.map Group.arch = s.groups.map Group.arch
    (∀ dom, (d.grant (domNum dom) cl).point ≠ (d.grant (domNum dom) cl).target →
      (dom = .math ∨ dom = .vec → cl < d.math.length ∧ cl < d.vec.length) →
      (dom = .math → (d.grant 0 cl).point < (d.grant 0 cl).target →
        d.mayRaise cl (d.grant 0 cl).target = true ∧ s.admits die (s.raiseAmps die cl (d.grant 0 cl)) = true) →
      ∃ t, exec (.grantTakeEffect die cl dom) s = .next t ∧ same t ∧
        ((t.die die).grant (domNum dom) cl).point = (d.grant (domNum dom) cl).target) ∧
    (d.lead = none → ∃ t, exec (.loadstepAssert die) s = .next t ∧ same t ∧ (t.die die).loadstep = true ∧
      (t.die die).lead = some ⟨s.now + 2000, s.crossing die, d.raising⟩) ∧
    (∀ l ack, d.lead = some l → (l.end_ + 99) / 100 * 100 ≤ s.now →
      ∃ t, exec (.loadstepLeadExpiry die ack) s = .next t ∧ same t ∧ (t.die die).lead = none ∧ (t.die die).limited = !ack ∧
        (t.die die).steps = (if l.step then min 3 (d.steps + 1) else d.steps) ∧
        (∀ r ∈ l.raises, ∀ x, x ≤ r.2 → (t.die die).mayRaise r.1 x = true)) ∧
    (∃ t, exec (.ldackAssert die) s = .next t ∧ same t ∧ (t.die die).limited = false ∧ (t.die die).admits = []) ∧
    (∀ x, d.storm = some (some x) → x + 10000000 ≤ s.now → d.restartsIv < 16 →
      ∃ t, exec (.droopRecoveryInterval die) s = .next t ∧ same t ∧ (t.die die).restartsIv = 0 ∧
        let kept := fun dom c => ((t.die die).grant dom c).base = (d.grant dom c).base
        (∀ dom c, dom < 2 → kept dom c → ((t.die die).grant dom c).low = min (d.grant dom c).low (d.grant dom c).base - 1) ∧
        ((∀ g ∈ d.math ++ d.vec, min g.low g.base ≤ 1) → (t.die die).storm = none) ∧
        ∀ dom c, dom < 2 → kept dom c → 1 < min (d.grant dom c).low (d.grant dom c).base → (t.die die).storm = some (some (x + 10000000)))

/-! ## Security and host ports -/

/-- R235, R236, R239, R253, R254, R328: the class C triggers zeroise every key and leave only SECURITY answering; an integrity failure on a partition's
stream is class B; IDE_KEY_PROGRAM keeps a stream's key; SPDM_REQUEST answers; LINK_TRAIN sets its port; PACKAGE_RESET gives the state
after reset, but for fuses and what lies outside (log 31). The model's choices: stream n + 1 is that of VF n (log 30), and memory that nothing
has written reads 0, with host memory above hostBase (log 2). -/
def Obligations.SecurityEvents : Prop :=
  ∀ (io : Nat) (s : State),
    (∀ i trig, (i, trig) ∈ [(Instr.tamperMeshBreach io, 0), (.supplyGlitch io, 1), (.clockGlitch io, 2)] →
      ∃ t, exec i s = .next t ∧ t.dev.classC = true ∧ t.dev.provisioned = false ∧ t.dev.idKey = none ∧
        t.dev.alarms = s.dev.alarms ++ [⟨s.now, 2, io, 255, trig⟩] ∧ (∀ p ∈ t.parts, ∀ k ∈ p.keys, k.2 = 0) ∧ (∀ d ∈ t.iods, d.streams = []) ∧
        ∀ n, n < 16 → n < s.parts.length → (s.part n).word 3 ≠ 0 → (t.part n).ready = false ∧ (t.part n).resetAt.isSome = true) ∧
    (∀ stream key n, assoc (s.iod io).streams (stream + 1) = some key → s.bound io stream = some n →
      ∃ t, exec (.ideIntegrityFailure io (stream + 1)) s = .next t ∧ t.dev.alarms = s.dev.alarms ++ [⟨s.now, 1, io, n, 0⟩] ∧
        (t.part n).ready = false ∧ (t.part n).resetAt.isSome = true ∧ ∀ g ∈ t.groups, g.key.team.part = n → g.stop = true) ∧
    (∀ stream key, stream < 17 → s.dev.classC = false → io < s.iods.length →
      ∃ t, exec (.ideKeyProgram io stream key) s = .next t ∧ assoc (t.iod io).streams stream = some key ∧ { t with iods := s.iods } = s) ∧
    (∀ fn nonce, ∃ t b, exec (.spdmRequest io fn nonce) s = .next t ∧ t.dev.out = .spdm io fn b :: s.dev.out ∧ { t with dev := s.dev } = s ∧
      (s.dev.classC = false → Config.spdmWellFormed nonce = true → b = Config.spdmSign (s.dev.idKey.getD []) nonce (s.measured io fn)) ∧
      (s.dev.classC = true ∨ Config.spdmWellFormed nonce = false → b = [])) ∧
    (∀ proto width gts, (width = 4 ∨ width = 8 ∨ width = 16) → 1 ≤ gts → gts ≤ (if proto = .cxl then 64 else 128) → io < s.iods.length →
      ∃ t, exec (.linkTrain io proto width gts) s = .next t ∧ { t with iods := s.iods } = s ∧ (t.iod io).proto = some proto ∧
        (t.iod io).width = width ∧ (t.iod io).gts = gts) ∧
    ∃ t, exec .packageReset s = .next t ∧ t.now = 0 ∧ t.groups = [] ∧ t.teams = [] ∧ t.parts = State.reset.parts ∧ t.coh = State.reset.coh ∧
      t.iods = State.reset.iods ∧ t.ram.tags = [] ∧ t.dies.map Die.svn = s.dies.map Die.svn ∧
      (s.ram.mem.wf = true → ∀ a, t.ram.mem.get a = if Config.hostBase ≤ a then s.ram.mem.get a else 0)

/-- R77, R161, R188, R201, R238, R240, R251, R252, Table 20-13: the windows of a VF, peer accesses and DMA. BOOTH_ENQ puts an entry in a booth with
room; DMA_DESCRIPTOR_SUBMIT a descriptor in a queue with room; COALESCING_CONTROL_WRITE sets a vector's count and timer;
MSIX_TIMER_EXPIRY sends a due vector's message; REGISTER_WRITE of STATUS clears what it names; PEER_ACCESS writes its bytes and no
others; STREAM_WRITE stages what a window takes, and DMA_CHUNK_RELEASE makes the oldest so staged visible 48 ns later (log 36); an AtomicOp is refused, and a host reads through CXL.mem the lines it holds. DMA_TRANSFER_START stages the first chunk of a legal descriptor; DMA_CHUNK_RELEASE writes the last chunk 48 ns after
it was staged; DMA_COMPLETE ends a transfer; IOD_SENSOR_EVENT stages the chunks in progress of its I/O die again. A read of the host may meet an error completion instead (R252;
log 36). -/
def Obligations.HostPorts : Prop :=
  (∀ (part n : Nat) (s : State), part < s.parts.length → (s.part part).ready = true → (s.part part).described = true →
     (∀ req data, n < 64 → data.length = 64 → (s.booth part n).hostenq = true → (s.booth part n).valid = true → (s.booth part n).full = false →
       ∃ t, exec (.boothEnq part n req true data) s = .next t ∧
         t = s.enqueue part n ⟨(List.range 8).map fun i => BitVec.ofNat 64 (fieldAt data (8 * i) 8), s.seenBy ((s.part part).port, req)⟩) ∧
     (∀ req data, n < 4 → n < (s.part part).queues.length → data.length = 64 → (s.queue part n).valid = true → (s.queue part n).full = false →
       ∃ t, exec (.dmaDescriptorSubmit part n req true data) s = .next t ∧ { t with parts := s.parts } = s ∧
         t.queue part n = { s.queue part n with descs := (s.queue part n).descs ++ [(data, s.seenBy ((s.part part).port, req))] }) ∧
     (∀ val : Dword, n < (s.part part).vectors.length → ((s.part part).vectors.getD n Msix.reset).pend = 0 →
       ∃ t, exec (.coalescingControlWrite part n val) s = .next t ∧ { t with parts := s.parts } = s ∧
         (t.part part).vectors.getD n Msix.reset = { (s.part part).vectors.getD n Msix.reset with
           count := if val.toNat % 256 = 0 then 1 else val.toNat % 256
           timer := if val.toNat / 256 % 256 = 0 then 1 else val.toNat / 256 % 256 }) ∧
     (∀ v, n < (s.part part).vectors.length → (s.part part).vectors.getD n Msix.reset = v → v.masked = false → 0 < v.pend →
       v.oldest + 1000 * v.timer ≤ s.now →
       ∃ t, exec (.msixTimerExpiry part n) s = .next t ∧ t.dev.out = .msix part n :: s.dev.out ∧
         (t.part part).vectors.getD n Msix.reset = { v with pend := 0 } ∧ t.ram = s.ram ∧ t.groups = s.groups) ∧
     (∀ (x : Byte) (a : VfAccess), n < 64 → n < (s.part part).booths.length → s.bound a.port a.vf = some part →
       ∃ t, exec (.registerWrite a (4096 * n + 0x48) [x]) s = .next t ∧ { t with parts := s.parts } = s ∧
         t.booth part n = { s.booth part n with
           size := (s.booth part n).size && !x.getLsbD 1
           ovf := (s.booth part n).ovf && !x.getLsbD 0 }) ∧
     (∀ w : PeerReq, s.holder w.addr = some part → s.ram.mem.wf = true →
       (w.kind = .write → w.data ≠ [] → s.peerRefused w.addr w.data.length = false → ioBusy s [⟨w.addr, w.data.length, 0⟩] = false →
         ∃ t, exec (.peerAccess w) s = .next t ∧ t.groups = s.groups ∧ t.teams = s.teams ∧ t.parts = s.parts ∧
           ∀ a, t.ram.mem.get a = if w.addr ≤ a ∧ a < w.addr + w.data.length then w.data.getD (a - w.addr) 0 else s.ram.mem.get a) ∧
       (w.kind = .atomic → ∃ t, exec (.peerAccess w) s = .next t ∧ t = s.emit (.peerReply w.req false [])) ∧
       (w.kind = .read ∨ w.kind = .cxlRead → 0 < w.len → s.peerRefused w.addr w.len = false → s.ram.tainted w.addr w.len = false →
         (w.kind = .read → ioBusy s [⟨w.addr, w.len, 0⟩] = false) →
         (w.kind = .cxlRead → (s.iod w.iod).proto = some .cxl ∧ ∀ l ∈ linesOf w.addr w.len, s.coh.holds (hostCore w.iod) l = true) →
         ∃ t, exec (.peerAccess w) s = .next t ∧ t.ram = s.ram ∧
           t.dev.out = .peerReply w.req true ((List.range w.len).map fun i => s.ram.mem.get (w.addr + i)) :: s.dev.out)) ∧
     (∀ (w : PeerReq) i x, s.window? w = some (i, x) → x.part = part → w.write = true → w.data ≠ [] →
       (∀ l ∈ linesOf w.addr w.data.length, s.privLine l = false) →
       ∃ t ps, exec (.streamWrite w) s = .next t ∧ { t with parts := s.parts } = s ∧ (t.part part).posted = (s.part part).posted ++ ps ∧
         ps.flatMap Posted.data = w.data ∧ (∀ y ∈ ps, y.at_ = s.now ∧ y.who = (w.iod, w.req) ∧ y.data ≠ []) ∧
         (∀ y ∈ ps, y.addr = w.addr ∨ (y.addr = x.flag ∧ y.flag = true)) ∧
         ∀ y ∈ ps, y.flag = true → x.flag ≤ y.addr ∧ y.addr < x.flag + 4096) ∧
     (∀ y r, (s.part part).posted = y :: r → y.at_ + 48 ≤ s.now → ioBusy s [⟨y.addr, y.data.length, 0⟩] = false → s.ram.mem.wf = true →
       ∃ t, exec (.dmaChunkRelease part 4) s = .next t ∧ t.groups = s.groups ∧ t.teams = s.teams ∧ (t.part part).posted = r ∧
         ∀ a, t.ram.mem.get a = if y.addr ≤ a ∧ a < y.addr + y.data.length then y.data.getD (a - y.addr) 0 else s.ram.mem.get a)) ∧
  (∀ (part n : Nat) (s : State), part < s.parts.length → n < (s.part part).queues.length →
     let q := s.queue part n
     let erring := fun (x : Xfer) (o : Option Xfer) => (parseDma x.desc).dir = 0 ∧ o = some { x with chunk := [], ended := true, status := 1 }
     (∀ d v r a b, q.cur = none → q.descs = (d, v) :: r → (parseDma d).bad = false →
       let x : Xfer := ⟨d, q.ctx, 0, [], 0, s.now, false, false, v⟩
       chunkRuns s part x = some (a, b) → ioBusy s a = false →
       ∃ t, exec (.dmaTransferStart part n) s = .next t ∧ { t with parts := s.parts, fresh := s.fresh } = s ∧ (t.queue part n).descs = r ∧
         ((t.queue part n).cur = some { x with chunk := ioBytes s a, pois := ioPoison s a, view := View.join v (ioSeen s a) } ∨
           erring x (t.queue part n).cur)) ∧
     (∀ x a y, n < 4 → q.cur = some x → x.ended = false → x.at_ + 48 ≤ s.now → chunkRuns s part x = some (a, [y]) → ioBusy s a = false →
       ioBusy s [y] = false → x.pois = false → (parseDma x.desc).len ≤ x.moved + x.chunk.length → x.chunk.length = y.n → s.ram.mem.wf = true →
       ∃ t z, exec (.dmaChunkRelease part n) s = .next t ∧ t.groups = s.groups ∧ t.teams = s.teams ∧
         (∀ p, t.ram.mem.get p = if y.addr ≤ p ∧ p < y.addr + y.n then x.chunk.getD (p - y.addr) 0 else s.ram.mem.get p) ∧
         (t.queue part n).cur = some z ∧ z.ended = true ∧ z.moved = x.moved + x.chunk.length ∧ z.status = x.status) ∧
     (∀ x, q.cur = some x → x.ended = true → (parseDma x.desc).doSt = false → (parseDma x.desc).doCnt = false → (parseDma x.desc).doIrq = false →
       ∃ t, exec (.dmaComplete part n) s = .next t ∧ { t with parts := s.parts } = s ∧ t.queue part n = { q with cur := none }) ∧
     (∀ x a b, part < 16 → n < 4 → q.cur = some x → x.ended = false → x.moved < (parseDma x.desc).len → chunkRuns s part x = some (a, b) →
       ioBusy s a = false →
       ∃ t, exec (.iodSensorEvent (s.part part).port) s = .next t ∧ t.ram = s.ram ∧ t.groups = s.groups ∧
         ((t.queue part n).cur = some { x with chunk := ioBytes s a, pois := ioPoison s a, at_ := s.now, view := View.join x.view (ioSeen s a) } ∨
           erring x (t.queue part n).cur)))

/-! ## The Wharf -/

/-- R207, R234, R242 to R244, R303, R306, R307, R373: the ports and landing rings. WHARF_MESSAGE_RECEIVE lands the next message of its source in a free slot,
and one of a collective passes through it;
WHARF_CREDIT sends the oldest waiting message; WHARF_ACK, MESSAGE_ACK_TIMEOUT, COLL_COMPLETE and COLL_TIMEOUT end an NSEND or a COLL with its status
in its register, and its threads go on; WHARF_ABORT_RECEIVE notes the lowest rank that has aborted. The model's
choices (log 35): a message of a collective takes its slot and leaves it at once, messages go only at a credit and by the port that wharfPort
names, and the rank of a MISMATCH is the lowest that differs. -/
def Obligations.WharfEvents : Prop :=
  ∀ (part : Nat) (s : State), part < s.parts.length →
    let ended := fun (t : State) (k : GroupKey) (pc : Dword) (run : Mask) (dreg : Nat) (code : Dword) =>
      ∀ g e, s.group? k = some g → g.rob.find? (fun e => e.pc = pc ∧ !e.executed) = some e → dreg < g.arch.s.length →
        ∃ h, t.group? k = some h ∧ h.rob.map Entry.seq = (g.rob.filter fun x => x.seq != e.seq).map Entry.seq ∧ h.commit = g.behind.head? ∧
          h.behind = g.behind.tail ∧ h.blocked = g.blocked &&& ~~~run ∧ h.arch.v = g.arch.v ∧ h.arch.p = g.arch.p ∧ h.rstrt = g.rstrt &&& ~~~(0xF00000000 : Dword) ∧
          (∃ c r, h.ckpts = c :: r ∧ c.seq = e.seq ∧ c.verified = true ∧ ∀ x ∈ r, e.seq < x.seq) ∧
          (∀ r, h.arch.sreg r = if r = dreg then code else g.arch.sreg r) ∧
          ∀ L, L < g.arch.pcs.length → h.arch.pc L = if run.has L then nextPc pc else g.arch.pc L
    (∀ (h : WharfHeader) payload i, h.dstDev = s.dev.devNum → h.dstPart = part → part < 16 → h.kind = 1 → badHeader h payload = false →
      (s.part part).freeSlot? = some i → (s.part part).ready = true → (s.part part).expects (h.srcDev, h.srcPart) = h.seq →
      runsBusy s [((s.part part).payloadAt i - 64, 65600)] = false → (∀ a ∈ (s.part part).armings, a.tag ≠ h.tag) →
      (s.part part).unmatched.length < 64 → s.ram.mem.wf = true →
      ∃ t v, exec (.wharfMessageReceive h payload) s = .next t ∧ t.groups = s.groups ∧ t.teams = s.teams ∧
        (t.part part).unmatched = (s.part part).unmatched ++ [⟨h.tag, i, v⟩] ∧ i ∈ (t.part part).ringUsed ∧
        (t.part part).expects (h.srcDev, h.srcPart) = (h.seq + 1) % 2 ^ 32 ∧
        ∀ j, j < payload.length → t.ram.mem.get ((s.part part).payloadAt i + j) = payload.getD j 0) ∧
    (∀ (h : WharfHeader) payload i, h.dstDev = s.dev.devNum → h.dstPart = part → part < 16 → h.kind = 2 → badHeader h payload = false →
      (s.part part).freeSlot? = some i → (s.part part).ready = true → (s.part part).expects (h.srcDev, h.srcPart) = h.seq →
      runsBusy s [((s.part part).payloadAt i - 64, 65600)] = false → s.ram.mem.wf = true →
      ∃ t, exec (.wharfMessageReceive h payload) s = .next t ∧ t.groups = s.groups ∧ t.teams = s.teams ∧
        t.dev.out = .credit part i :: s.dev.out ∧ i ∉ (t.part part).ringUsed ∧
        (t.part part).expects (h.srcDev, h.srcPart) = (h.seq + 1) % 2 ^ 32 ∧
        ∀ j, j < payload.length → t.ram.mem.get ((s.part part).payloadAt i + j) = payload.getD j 0) ∧
    (∀ (h : WharfHeader) comm seq c r, h.dstDev = s.dev.devNum → h.dstPart = part → part < 16 → h.kind = 3 →
      assoc (s.part part).comms comm = some c → c.ranks.findIdx (fun x => x == (h.srcDev, h.srcPart)) = r → r < c.nr →
      ∃ t, exec (.wharfAbortReceive h comm seq) s = .next t ∧ { t with parts := s.parts } = s ∧
        (t.part part).colls = (s.part part).colls.map fun o =>
          if o.comm = comm ∧ o.seq = seq then { o with fate := some (min r (o.fate.getD r)) } else o) ∧
    (∀ m dst, (s.sendsTo part dst).find? (fun m => m.sentAt.isNone) = some m → ¬(m.dev = s.dev.devNum ∧ m.part = part) →
      ∃ t, exec (.wharfCredit part dst) s = .next t ∧ t.dev.out = .wharf (s.part part).port (wharfPort m.dev m.part) m.header m.payload :: s.dev.out ∧ t.ram = s.ram ∧ t.groups = s.groups ∧
        { m with sentAt := some s.now } ∈ (t.part part).sends) ∧
    (∀ m dst seq, (s.sendsTo part dst).find? (fun m => m.seq = seq && m.sentAt.isSome) = some m →
      ∃ t, exec (.wharfAck part dst seq) s = .next t ∧ t.ram = s.ram ∧ m ∉ (t.part part).sends ∧ ended t m.group m.pc m.run m.dreg 0) ∧
    (∀ m dst seq x, (s.sendsTo part dst).find? (fun m => m.seq = seq && m.sentAt.any fun t => decide (t + 1000000 ≤ s.now)) = some m →
      m.sentAt = some x →
      ∃ t, exec (.messageAckTimeout part dst seq) s = .next t ∧ t.ram = s.ram ∧ m ∉ (t.part part).sends ∧
        t.dev.log.length = s.dev.log.length + (if m.dev = s.dev.devNum then 2 else 1) ∧ ended t m.group m.pc m.run m.dreg 1) ∧
    (∀ comm seq o c, s.coll? part comm seq = some o → assoc (s.part part).comms comm = some c → runsBusy s o.dst = false →
      (∀ blocks, o.fate = none → blocks.length = c.nr → c.my < c.nr →
        let all := (s.collParts c comm seq blocks).set c.my o.own
        let out := collResult o c.my (all.map CollPart.data)
        ((∀ y ∈ all, y.op = o.op ∧ y.ty = o.ty ∧ y.root = o.root ∧ y.count = o.count ∧ y.seq = o.seq ∧ y.data.length = o.data.length) → s.ram.mem.wf = true →
          ∃ t, exec (.collComplete part comm seq blocks) s = .next t ∧ ended t o.group o.pc o.run o.dreg 0 ∧
            (∀ a n, o.dst = [(a, n)] → out.length = n →
              ∀ y, t.ram.mem.get y = if a ≤ y ∧ y < a + n then out.getD (y - a) 0 else s.ram.mem.get y)) ∧
        (∀ r, mismatchAt o.own all = some r →
          ∃ t, exec (.collComplete part comm seq blocks) s = .next t ∧ t.ram = s.ram ∧
            ended t o.group o.pc o.run o.dreg (BitVec.ofNat 64 (3 + r % 256 * 256)))) ∧
      (∀ blocks r, o.fate = some r →
        ∃ t, exec (.collComplete part comm seq blocks) s = .next t ∧ ended t o.group o.pc o.run o.dreg (BitVec.ofNat 64 (1 + r % 256 * 256))) ∧
      (∀ lowest, o.start + 1000000 * c.tmo ≤ s.now →
        ∃ t, exec (.collTimeout part comm seq lowest) s = .next t ∧
          ended t o.group o.pc o.run o.dreg (BitVec.ofNat 64 (2 + min lowest (c.nr - 1) % 256 * 256))))

/-! ## The machine as a whole -/

/-- R269 to R278, Tables 22-2 to 22-9: words that the manual gives or that its fields give decode to the instructions they stand for, and a
word with a reserved bit, an unassigned opcode, or a field it does not use is refused by name. -/
def Obligations.DecodesSpecWords : Prop :=
  let c : Ctl := ⟨⟨false, 15⟩, ⟨false, 15⟩, false, false⟩
  decode 0xC00C00C0_0C00C000_007BC001 = .ok (.nop c) ∧ decode 0xC00C00C0_0C00C000_007BC007 = .ok (.exit c) ∧
    decode 0x00000000_4C00C000_00788002 = .ok (.jmp { c with ga := ⟨false, 2⟩ } 4 0) ∧
    decode 0xC00C00A0_40014020_307BC228 = .ok (.icmp c .lt .s32 (.prd 2) (.vec 1) (.imm 4)) ∧
    decode 0xC00C00A6_40010060_307BC010 = .ok (.iadd c false .s32 (.vec 6) (.vec 1) (.imm 100)) ∧
    decode 0x41000000_0C000050_B07BC02B = .ok (.movi c .fp32 (.vec 5) 0x41000000) ∧
    decode 0xA0100AC0_020600C0_427BC065 = .ok (.atom c .add .relaxed .core .own .s64 (.vec 12) (.scl 6) .none (.vec 10)) ∧
    decode 0xC00C00C0_0C00C000_007BDC69 = .ok (.fence c .sc .device) ∧
    decode 0x00000100_0C008400_007BC08A = .ok (.cvset c (.creg 0) 256) ∧
    decode 0xA0184002_08809000_F07BC08B = .ok (.tmac c false .e4m3 (.zreg 0) (.qreg 0) (.vec 32) (.creg 0) (.imm 1)) ∧
    decode 0xC00C0021_52142160_007BC0A2 = .ok (.vdhop c (.scl 22) (.scl 20) (.scl 21)) ∧
    decode 0xC00C00C0_0C00C004_007BC001 = .error .reservedBits ∧ decode 0xC00C00C0_0C00C004_007BC042 = .error .unassignedOpcode ∧
    decode 0xC00C00C0_0000C000_007BC001 = .error .unusedField

/-- R269 to R275, R280: decoding and encoding agree. The word of every well-formed instruction decodes to it, with every operand at every
value its encoding admits, and a word that decodes to an instruction is that instruction's word and no other's. -/
def Obligations.DecodeEncode : Prop :=
  (∀ (i : Instr) (c : Ctl), i.ctl = some c → i.wf = true → decode (encode i) = .ok i) ∧
  ∀ (w : BitVec 96) (i : Instr), decode w = .ok i → i.wf = true ∧ i.ctl.isSome = true ∧ encode i = w

/-- R28, R67, R265 to R267, R278: a step at a fetched word runs it. A word that decodes, from a line whose checks pass, is executed as its instruction;
one from a line with a parity fault is trap 0x04 whatever its guard; one that does not decode traps in its active lanes, with 0x01 for an
unassigned opcode and 0x02 else, which is also the cause of a line with a reserved bit set. With nothing fetched and no event due, the step
fetches for the next group and runs what it fetched, or runs the word of a commit point whose gate is open: which group is next, and
that an instruction takes 1 ns, is the model's default schedule, its own choice (log 3). -/
def Obligations.StepRunsFetched : Prop :=
  ∀ (s : State),
    (∀ f, s.latch = some f → probesFirst s f = false →
      let u := { s with latch := none, issue := some f.issue }
      (∀ i, f.parity = true → f.lineOk = true → decode f.word = .ok i → step s = exec i u) ∧
      (∀ g, s.group? f.issue.group = some g → g.key = f.issue.group → f.issue.run &&& g.arch.parked = 0 →
        ((ctlOf f.word).hd = true → g.unverified < 4) →
        (f.parity = false →
          ∃ t, step s = .next t ∧ Trapped (ctlOf f.word) u t g ⟨0x04, f.issue.pc, f.issue.run, BitVec.ofNat 64 (f.issue.pc.toNat / 64 * 64), 0⟩) ∧
        (f.parity = true → active (ctlOf f.word) g f.issue.run ≠ 0 → g.holdsBack (.nop (ctlOf f.word)) = false →
          let tr := fun (cause : Nat) => (⟨cause, f.issue.pc, active (ctlOf f.word) g f.issue.run, 0, 0⟩ : Trap)
          (∀ r, decode f.word = .error r →
            ∃ t, step s = .next t ∧ Trapped (ctlOf f.word) u t g (tr (if assigned (f.word.extractLsb' 0 8) then 0x02 else 0x01))) ∧
          (∀ i, f.lineOk = false → decode f.word = .ok i → ∃ t, step s = .next t ∧ Trapped (ctlOf f.word) u t g (tr 0x02))))) ∧
    (s.latch = none → s.agenda = [] → s.dueEvent = none → s.looked = s →
      ∀ g i, s.nextGroup = some g →
        let g' := { g with lastAt := s.now + 1 }
        let at_ := fun (run : Mask) (pc : Dword) => { ({ s with cur := none, now := s.now + 1 }.resumed g.core).setGroup g' with
          latch := none, issue := some ⟨g.key, run, pc⟩ }
        (∀ run pc l p, g.commitTurn = none → g.decide_ = some (run, pc) → run &&& g.arch.entering = 0 → fetchLine s g' pc = .line l p →
          lineParityOk l = true → lineReservedOk l = true → decode (slotWord l (pc &&& 7).toNat) = .ok i → step s = exec i (at_ run pc)) ∧
        (∀ k, g.commit = some k → g.commitTurn.isSome = true → decode k.word = .ok i → step s = exec i (at_ k.run k.pc)))

/-- What reset leaves: timer 0, no descriptor, no context, every booth empty and out of service, no grid, team or group, every line in I, every link
up, LOADSTEP deasserted and nothing counted, no port trained, no stream window and no key, no landing ring. Every memory has its canonical
form. -/
def Obligations.ResetLeaves : Prop :=
  State.reset.now = 0 ∧ State.reset.groups = [] ∧ State.reset.teams = [] ∧ MemoryOk State.reset ∧ Scheduled State.reset ∧
    State.reset.parts.length = 16 ∧
    (∀ n, n < 16 → ∀ k, k < 4 → (State.reset.part n).word k = 0) ∧
    (∀ n, n < 16 → (State.reset.part n).ctxs = [] ∧ (State.reset.part n).grids = [] ∧ (State.reset.part n).ringN = none ∧
      (State.reset.part n).budget = none ∧ ∀ k, k < 65 → (State.reset.booth n k).valid = false ∧ (State.reset.booth n k).entries = []) ∧
    (∀ a, (State.reset.coh.line a).state = .i) ∧ State.reset.coh.linkDown = [] ∧
    (∀ d, d < 4 → (State.reset.die d).loadstep = false ∧ (State.reset.die d).restarts = 0 ∧ (State.reset.die d).storms = 0) ∧
    ∀ d, d < 2 → (State.reset.iod d).proto = none ∧ (State.reset.iod d).streams = [] ∧ ∀ w ∈ (State.reset.iod d).wins, w.enable = false

/-- Every step keeps the canonical form of every memory, so that equal memories stay equal data. -/
def Obligations.MemoryFormKept : Prop := Kept MemoryOk

/-- Nothing of the CV480 stops the machine (R22, R28): an event always comes about, an instruction fails only where no resident group issues it,
and a step from a state whose fetched word belongs to a resident group always answers a next state. -/
def Obligations.NeverStops : Prop :=
  (∀ (i : Instr) (s : State), i.ctl = none → ∃ t, exec i s = .next t) ∧
  (∀ (i : Instr) (s : State), (∃ t, exec i s = .next t) ∨ exec i s = .fault .noGroup) ∧
  (∀ (i : Instr) (s : State) (q : Issue), s.issue = some q → (s.group? q.group).isSome = true → ∃ t, exec i s = .next t) ∧
  ∀ s, Scheduled s → ∃ t, step s = .next t
end

