-- ==== Sys2Proof/Laws/Serve.lean ====
section
/-! SUPPORT. Laws/Serve.lean: what serving an instruction and writing a destination do, said once for every instruction. -/

namespace Sys2Proof.Laws

open Sys2Proof.Machine Sys2Proof.Claims

/-! ## Masks -/

theorem mask_has_zero (L : Nat) : Mask.has 0 L = false := by simp [Mask.has]

theorem mask_has_and (m n : Mask) (L : Nat) : Mask.has (m &&& n) L = (m.has L && n.has L) := by simp [Mask.has]

theorem mask_has_bit (K L : Nat) : (Mask.bit K).has L = decide (K = L ∧ L < 64) := by
  simp [Mask.has, Mask.bit, BitVec.getLsbD_twoPow]
  by_cases h : K = L <;> by_cases h' : L < 64 <;> simp [h, h']

theorem has_foldl_or (ls : List Nat) (m : Mask) (L : Nat) :
    Mask.has (ls.foldl (fun m L => m ||| Mask.bit L) m) L = (m.has L || (decide (L < 64) && ls.contains L)) := by
  induction ls generalizing m with
  | nil => simp
  | cons K t ih =>
    rw [List.foldl_cons, ih]
    have : (m ||| Mask.bit K).has L = (m.has L || (Mask.bit K).has L) := by simp [Mask.has]
    rw [this, mask_has_bit]
    by_cases h' : L < 64
    · by_cases h : K = L
      · simp [h, h']
      · simp [h, h', Ne.symm h]
    · simp [h']

theorem mask_has_ofLanes (ls : List Nat) (L : Nat) : (Mask.ofLanes ls).has L = (decide (L < 64) && ls.contains L) := by
  rw [Mask.ofLanes, has_foldl_or]
  simp [Mask.has]

theorem mask_has_lt {m : Mask} {L : Nat} (h : m.has L = true) : L < 64 := BitVec.lt_of_getLsbD h

theorem mem_lanes {m : Mask} {L : Nat} : L ∈ m.lanes ↔ m.has L = true := by
  simp only [Mask.lanes, List.mem_filter, List.mem_range, Mask.has]
  exact ⟨fun h => h.2, fun h => ⟨BitVec.lt_of_getLsbD h, h⟩⟩

theorem mask_has_filter (m : Mask) (f : Nat → Bool) (L : Nat) : (Mask.ofLanes (m.lanes.filter f)).has L = (m.has L && f L) := by
  rw [mask_has_ofLanes]
  by_cases h : m.has L = true
  · have := mask_has_lt h
    simp [h, this, mem_lanes]
  · simp [h, mem_lanes]

/-! ## Registers -/

theorem vreg_setV (a : Arch) (n k L : Nat) (m : Mask) (f : Nat → Word) :
    (a.setV n m f).vreg k L = if k = n ∧ m.has L = true ∧ HasLane a n L then f L else a.vreg k L := by
  unfold Arch.vreg Arch.setV HasLane
  simp only [List.getD_eq_getElem?_getD, List.getElem?_modify]
  by_cases h : n = k
  · subst h
    rcases hv : a.v[n]? with _ | r
    · simp
    · simp only [Option.getD_some, if_true, true_and]
      by_cases hl : L < r.lanes.length
      · simp [hl]
      · simp [hl]
  · have : k ≠ n := fun e => h e.symm
    simp [h, this]

theorem side_setV (a : Arch) (n k : Nat) (m : Mask) (f : Nat → Word) :
    sideOf (a.setV n m f) k = if k = n then plainSide else sideOf a k := by
  unfold sideOf Arch.setV
  simp only [List.getD_eq_getElem?_getD, List.getElem?_modify]
  by_cases h : n = k
  · subst h
    rcases a.v[n]? with _ | r <;> simp
  · simp [h, Ne.symm h]

theorem lane_setV (a : Arch) (n k L : Nat) (m : Mask) (f : Nat → Word) : HasLane (a.setV n m f) k L ↔ HasLane a k L := by
  unfold HasLane Arch.setV
  simp only [List.getD_eq_getElem?_getD, List.getElem?_modify]
  by_cases h : n = k
  · subst h
    rcases a.v[n]? with _ | r <;> simp
  · simp [h]

theorem setV_written (a : Arch) (n : Nat) (m : Mask) (f : Nat → Dword) :
    VecWritten a (a.setV n m fun L => (f L).setWidth 32) false n m f where
  low L h h' := by rw [vreg_setV, if_pos ⟨rfl, h, h'⟩]
  high h := by simp at h
  keep k L h := by
    rw [vreg_setV, if_neg]
    rintro ⟨rfl, h1, -⟩
    simp [h1] at h
  side k h := by
    rw [side_setV, if_pos]
    simpa using h
  sides k h _ := by rw [side_setV, if_neg h]
  pois x := by
    simp only [Arch.setV, wordCovered, List.mem_filter, Bool.not_eq_true', Bool.and_eq_false_imp, Bool.and_eq_true, beq_iff_eq, and_assoc]
    constructor
    · rintro ⟨h1, h2⟩
      refine ⟨h1, ?_⟩
      rintro ⟨e, rfl | ⟨e', -⟩, m1, m2⟩ <;> simp_all
    · rintro ⟨h1, h2⟩
      refine ⟨h1, fun h => ?_⟩
      simp_all

theorem setV2_written (a : Arch) (n : Nat) (m : Mask) (f : Nat → Dword) :
    VecWritten a ((a.setV n m fun L => (f L).setWidth 32).setV (n + 1) m fun L => (f L).extractLsb' 32 32) true n m f where
  low L h h' := by
    rw [vreg_setV, if_neg (by omega), vreg_setV, if_pos ⟨rfl, h, h'⟩]
  high _ L h h' := by
    rw [vreg_setV, if_pos ⟨rfl, h, (lane_setV ..).2 h'⟩]
  keep k L h := by
    rw [vreg_setV, if_neg, vreg_setV, if_neg]
    · rintro ⟨rfl, h1, -⟩
      simp [h1] at h
    · rintro ⟨rfl, h1, -⟩
      simp [h1] at h
  side k h := by
    rw [side_setV, side_setV]
    rcases h with rfl | ⟨-, rfl⟩ <;> simp
  sides k h h' := by
    rw [side_setV, side_setV, if_neg (by simpa using h'), if_neg h]
  pois x := by
    simp only [Arch.setV, wordCovered, List.mem_filter, Bool.not_eq_true', Bool.and_eq_false_imp, Bool.and_eq_true, beq_iff_eq, and_assoc]
    constructor
    · rintro ⟨h1, h2, h3⟩
      refine ⟨h1, ?_⟩
      rintro ⟨e, rfl | ⟨-, e'⟩, m1, m2⟩
      · simp_all
      · simp_all
    · rintro ⟨h1, h2⟩
      refine ⟨h1, fun h => ?_, fun h => ?_⟩ <;> simp_all

theorem setS_written (a : Arch) (n L : Nat) (m : Mask) (f : Nat → Dword) (h : m.low? = some L) :
    SclWritten a (a.setS n (f L)) n m f where
  value K h' hn := by
    rw [h] at h'
    cases h'
    simp [Arch.sreg, Arch.setS, hn]
  none_ h' := by simp [h] at h'
  keep k hk := by simp [Arch.sreg, Arch.setS, Ne.symm hk]
  pois _ x := by cases hx : x.1 <;> simp [Arch.setS, hx]

/-- Writing a destination does what the manual says of every operand form (R45, R84, R85, R272). -/
theorem writeDst_written (a : Arch) (wide : Bool) (d : Opd) (m : Mask) (f : Nat → Dword) :
    Written a (writeDst a wide d m f) wide d m f := by
  cases d with
  | vec n =>
    cases wide with
    | false => exact ⟨setV_written .., rfl, rfl⟩
    | true => exact ⟨setV2_written .., rfl, rfl⟩
  | scl n =>
    simp only [Written, writeDst]
    rcases h : m.low? with _ | L
    · exact ⟨⟨fun _ h' => by simp [h] at h', fun _ => ⟨rfl, rfl⟩, fun _ _ => rfl, fun h' => absurd h h'⟩, rfl, rfl⟩
    · exact ⟨setS_written _ _ _ _ _ h, rfl, rfl⟩
  | _ => exact ⟨rfl, rfl, rfl, rfl⟩

/-- A destination write changes nothing but general registers. -/
theorem writeDst_regs (a : Arch) (wide : Bool) (d : Opd) (m : Mask) (f : Nat → Dword) :
    withRegsOf a (writeDst a wide d m f) = a ∧ (writeDst a wide d m f).pcs = a.pcs := by
  cases d with
  | vec n => cases wide <;> exact ⟨rfl, rfl⟩
  | scl n =>
    simp only [writeDst]
    rcases m.low? with _ | L <;> exact ⟨rfl, rfl⟩
  | _ => exact ⟨rfl, rfl⟩

/-- Every lane below a count is in a mask. -/
theorem below_covered (n : Nat) (m : Mask) : (Mask.below n &&& ~~~m == 0) = true ↔ ∀ L, L < min 64 n → m.has L = true := by
  have hb : ∀ L, L < 64 → (Mask.below n).getLsbD L = decide (L < n) := fun L hL => by
    rw [Mask.below, BitVec.getLsbD_ofNat, Nat.testBit_two_pow_sub_one]
    simp [hL]
  rw [beq_iff_eq]
  constructor
  · intro h L hL
    have h64 : L < 64 := by omega
    have := congrArg (fun z : Mask => z.getLsbD L) h
    simp only [BitVec.getLsbD_and, BitVec.getLsbD_not, hb L h64, h64, decide_true, Bool.true_and, show L < n by omega] at this
    simpa [Mask.has] using this
  · intro h
    apply BitVec.eq_of_getLsbD_eq
    intro L hL
    simp only [BitVec.getLsbD_and, BitVec.getLsbD_not, hb L hL, hL, decide_true, Bool.true_and]
    by_cases hn : L < n
    · have := h L (by omega)
      simp only [Mask.has] at this
      simp [this]
    · simp [hn]

theorem setP_written (a : Arch) (n : Fin 16) (m : Mask) (f : Nat → Bool) : PrdWritten a (a.setP n.val m f) n.val m f where
  value L hL hn hl := by
    have h1 : (a.setP n.val m f).preg n.val = ((a.p[n.val] &&& ~~~m) ||| Mask.ofLanes (m.lanes.filter f)) := by
      simp [Arch.preg, hn, Arch.setP, List.getD_eq_getElem?_getD, hl]
    have h2 : a.preg n.val = a.p[n.val] := by simp [Arch.preg, hn, List.getD_eq_getElem?_getD, hl]
    have h3 : ∀ x y : Mask, (x ||| y).has L = (x.has L || y.has L) := fun x y => by simp [Mask.has]
    have h4 : (~~~m).has L = !m.has L := by simp [Mask.has, hL]
    rw [h1, h2, h3, mask_has_filter, mask_has_and, h4]
    cases m.has L <;> simp
  keep k hk := by
    by_cases hc : k = 15
    · simp [Arch.preg, hc]
    · have : ¬(n.val = k) := by omega
      simp [Arch.preg, hc, Arch.setP, this]
  pois x := by
    have h := below_covered a.pcs.length m
    simp only [Arch.setP, List.mem_filter, Bool.not_eq_true', ← h]
    cases hx : (x.1 == .prd && x.2.1 == n.val && Mask.below a.pcs.length &&& ~~~m == 0) <;> simp_all

/-- Writing a predicate destination does what the manual says (R45, R269, R335). -/
theorem writePrd_written (a : Arch) (d : Opd) (m : Mask) (f : Nat → Bool) : WrittenPrd a (writePrd a d m f) d m f := by
  cases d with
  | prd n => exact ⟨rfl, rfl, setP_written ..⟩
  | _ => exact ⟨rfl, rfl, rfl, rfl⟩

theorem writePrd_regs (a : Arch) (d : Opd) (m : Mask) (f : Nat → Bool) :
    withRegsOf a (writePrd a d m f) = a ∧ (writePrd a d m f).pcs = a.pcs := by
  cases d <;> exact ⟨rfl, rfl⟩

/-! ## Groups -/

theorem find_map_self (l : List Group) (g : Group) (f : Group → Group) (hf : ∀ h, h.key = g.key → (f h).key = g.key) (x : Group)
    (h : l.find? (fun h => decide (h.key = g.key)) = some x) :
    (l.map fun h => if h.key = g.key then f h else h).find? (fun h => decide (h.key = g.key)) = some (f x) := by
  induction l with
  | nil => simp at h
  | cons y t ih =>
    by_cases hy : y.key = g.key
    · simp only [List.find?_cons, hy, decide_true, Option.some.injEq] at h
      rw [List.map_cons, if_pos hy, List.find?_cons, hf y hy, h]
      simp
    · simp only [List.find?_cons, hy, decide_false] at h
      simp [hy]
      simpa using ih h

theorem find_map_other (l : List Group) (k k' : GroupKey) (hk : k' ≠ k) (f : Group → Group) (hf : ∀ h, h.key = k → (f h).key = k) :
    (l.map fun h => if h.key = k then f h else h).find? (fun h => decide (h.key = k')) = l.find? (fun h => decide (h.key = k')) := by
  induction l with
  | nil => rfl
  | cons y t ih =>
    by_cases hy : y.key = k
    · have h1 : ¬(y.key = k') := fun e => hk (e.symm.trans hy)
      have h2 : ¬((f y).key = k') := fun e => hk (e.symm.trans (hf y hy))
      simp only [List.map_cons, if_pos hy, List.find?_cons, h1, h2, decide_false]
      exact ih
    · simp only [List.map_cons, if_neg hy, List.find?_cons]
      split <;> first | rfl | exact ih

/-- Replacing a group leaves everything else. -/
theorem setGroup_only (s : State) (g : Group) : OnlyGroup s (s.setGroup g) g.key where
  world := rfl
  others k' h := find_map_other s.groups g.key k' h (fun _ => g) fun _ _ => rfl

theorem setGroup_mine (s : State) (g h : Group) (hk : h.key = g.key) (hg : s.group? g.key = some g) :
    (s.setGroup h).group? g.key = some h := by
  have := find_map_self s.groups g (fun _ => h) (fun _ _ => hk) g hg
  simpa [State.group?, State.setGroup, hk] using this

theorem setGroup_get (s : State) (h : Group) (x : Group) (hg : s.group? h.key = some x) : (s.setGroup h).group? h.key = some h := by
  have hx : x.key = h.key := by
    have := List.find?_some hg
    simpa using this
  have := setGroup_mine s x h hx.symm (by rw [hx]; exact hg)
  rwa [hx] at this

/-! ## Serving -/

theorem served_of {s : State} {g : Group} {run : Mask} {pc : Dword} (T : Turn s g run pc) (i : Instr) (c : Ctl) :
    served i s c = some ⟨g, run, run &&& guardOf g.arch c, pc, i, false⟩ := by
  simp [served, T.issue, T.here]

theorem notFull {i : Instr} {c : Ctl} {s : State} {g : Group} {run : Mask} {pc : Dword} (A : Admitted i c s g run pc) :
    (c.hd && decide (Config.maxUnverified ≤ g.unverified)) = false := by
  rcases h : c.hd with _ | _
  · simp
  · have := A.head h
    exact decide_eq_false (show ¬(4 ≤ g.unverified) by omega)

/-! What a checkpoint at a region head leaves as it was. -/

@[simp] theorem headOf_arch (c : Ctl) (s : State) (g : Group) : (headOf c s g).arch = g.arch := by unfold headOf; split <;> rfl
@[simp] theorem headOf_key (c : Ctl) (s : State) (g : Group) : (headOf c s g).key = g.key := by unfold headOf; split <;> rfl
@[simp] theorem headOf_rob (c : Ctl) (s : State) (g : Group) : (headOf c s g).rob = g.rob := by unfold headOf; split <;> rfl
@[simp] theorem headOf_commit (c : Ctl) (s : State) (g : Group) : (headOf c s g).commit = g.commit := by unfold headOf; split <;> rfl
@[simp] theorem headOf_objs (c : Ctl) (s : State) (g : Group) : (headOf c s g).objs = g.objs := by unfold headOf; split <;> rfl
@[simp] theorem headOf_staged (c : Ctl) (s : State) (g : Group) : (headOf c s g).staged = g.staged := by unfold headOf; split <;> rfl

theorem headOf_declares (c : Ctl) (s : State) (g : Group) : (headOf c s g).declares = g.declares := by unfold headOf; split <;> rfl

/-- A word that finds room for its checkpoint is admitted. -/
theorem headed_admitted {i : Instr} {c : Ctl} {s : State} {g : Group} {run : Mask} {pc : Dword} (A : Admitted i c s g run pc) (r act : Mask)
    (q : Dword) (j : Instr) (go : Served → State) :
    headed c s ⟨g, r, act, q, j, false⟩ go = go ⟨headOf c s g, r, act, q, j, c.hd⟩ := by
  have h := notFull A
  simp only [headed, h, Bool.false_eq_true, if_false]
  unfold headOf
  cases c.hd <;> rfl

/-- Poison depends on the registers, the run, the active lanes and the word alone. -/
theorem tainted_of {i : Instr} {g : Group} {run act : Mask} (U : Untainted i g run act) (v : Served) (ha : v.g.arch = g.arch) (hi : v.i = i)
    (hr : v.run = run) (hm : v.act = act) : v.tainted = 0 := by
  have e : v.tainted = (⟨g, run, act, 0, i, false⟩ : Served).tainted := by
    subst hi hr hm
    simp only [Served.tainted, ha]
  exact e.trans U

theorem clean_of {v : Served} (h : v.tainted = 0) (s : State) (body : Served → Res) : clean v s body = body v := if_pos h

/-- An able instruction runs its body. -/
theorem serve_able {i : Instr} {c : Ctl} {s : State} {g : Group} {run : Mask} {pc : Dword} (A : Able i c s g run pc)
    (body : Served → Res) :
    serve i c s body = .next (conclude ⟨headOf c s g, run, active c g run, pc, i, c.hd⟩
      (body ⟨headOf c s g, run, active c g run, pc, i, c.hd⟩)) := by
  have h2 : active c g run ≠ 0 := A.lanes
  have h3 : i.regs.all (headOf c s g).declares = true := by rw [headOf_declares]; exact A.regs
  have h4 := A.order
  have h5 := A.ready
  have hs : served i s c = some ⟨g, run, active c g run, pc, i, false⟩ := served_of A.toTurn i c
  simp only [serve, hs, headed_admitted A.toAdmitted, h3, h4, h5, if_false, Bool.not_true, Bool.false_eq_true, Bool.and_false, h2,
    decide_false, Bool.false_and]
  rw [clean_of (tainted_of A.sound _ (headOf_arch ..) rfl rfl rfl)]

theorem and_compl_of_disjoint {x y : Mask} (h : x &&& y = 0) : x &&& ~~~y = x := by
  apply BitVec.eq_of_getLsbD_eq
  intro i hi
  have := congrArg (fun z : Mask => z.getLsbD i) h
  simp only [BitVec.getLsbD_and] at this
  simp only [BitVec.getLsbD_and, BitVec.getLsbD_not, hi, decide_true, Bool.true_and]
  rw [show (0 : Mask).getLsbD i = false by simp] at this
  revert this
  cases x.getLsbD i <;> cases y.getLsbD i <;> simp

/-- Counting an instruction issued changes of the registers only what R31 counts. -/
theorem noteIssue_arch (g o : Group) (run : Mask) :
    ∃ n t r, (g.noteIssue o run).arch = { g.arch with starve := n, turn := t, rot := r, lastRun := run } := by
  have e : ∀ h : Group, ∃ n t, h.endTurn.arch = { h.arch with starve := n, turn := t } := fun h => by
    unfold Group.endTurn
    split
    · split <;> exact ⟨_, _, rfl⟩
    · exact ⟨_, _, rfl⟩
  simp only [Group.noteIssue, Group.decided]
  obtain ⟨n, t, h⟩ := e _
  rw [h]
  refine ⟨n, t, o.turnStep.arch.rot, ?_⟩
  rcases o.turnStep.arch.turn with _ | ⟨m, k⟩
  · split_ifs <;> rfl
  · rfl

/-- The end of a guard turn changes nothing but what R31 counts. -/
theorem endTurn_rest (g : Group) : g.endTurn = { g with arch := g.endTurn.arch } := by
  unfold Group.endTurn
  split
  · split <;> rfl
  · rfl

/-- Counting an instruction issued changes of the group only the fetch bookkeeping. -/
theorem noteIssue_rest (x o : Group) (m : Mask) :
    (x.noteIssue o m).rob = x.rob ∧ (x.noteIssue o m).seq = x.seq ∧ (x.noteIssue o m).ckpts = x.ckpts ∧ (x.noteIssue o m).objs = x.objs ∧
      (x.noteIssue o m).key = x.key ∧ withIssueOf x (x.noteIssue o m) = x := by
  unfold Group.noteIssue
  rw [endTurn_rest]
  exact ⟨rfl, rfl, rfl, rfl, rfl, rfl⟩

/-- What a body that has written registers alone leaves behind. -/
theorem issued_of_done {i : Instr} {c : Ctl} {s : State} {g k : Group} {run act : Mask} {pc : Dword} {b : Arch} {fl : Flg}
    (hg : s.group? g.key = some g) (hfree : run &&& g.arch.parked = 0) (hrun : run ≠ 0) (hb : withRegsOf g.arch b = g.arch)
    (hp : b.pcs = g.arch.pcs) (hk : k.key = g.key) (ha : k.arch = g.arch) (hact : act &&& run = act)
    (v : Served) (hv : v.g.arch = g.arch) (hr : v.run = run) (hva : v.act = act) (hpc : v.pc = pc) (hi : v.i = i) :
    ∃ h, Issued i c s (conclude v (.done s { headOf c s k with arch := b } fl)) k h run act pc fl ∧ SameRegs b h.arch := by
  subst hr hva hpc hi
  have hpk : b.parked = g.arch.parked := by rw [← hb]; rfl
  have hr2 : v.run &&& ~~~b.parked = v.run := by rw [hpk]; exact and_compl_of_disjoint hfree
  set b' : Arch := b.setPcs v.run fun _ => nextPc v.pc with hb'
  set k' : Group := { headOf c s k with arch := b' } with hk'
  set d : Group := k'.dispatch v.i v.pc v.run v.act fl v.g.arch with hd
  set h : Group := d.noteIssue v.g v.run with hh
  have e : conclude v (.done s { headOf c s k with arch := b } fl) = s.setGroup h := by
    simp only [conclude, Group.issued, hr2]
    rw [show (b.setPcs v.run fun _ => nextPc v.pc).parked = b.parked from rfl, hr2, if_neg hrun, hact]
  have hkey : h.key = g.key := (noteIssue_rest d v.g v.run).2.2.2.2.1.trans ((headOf_key ..).trans hk)
  obtain ⟨n, t, r, hn⟩ := noteIssue_arch d v.g v.run
  have hn' : h.arch = { b' with starve := n, turn := t, rot := r, lastRun := v.run } := hn
  have hf : ∀ (x o : Group) (m : Mask), (x.noteIssue o m).rob = x.rob ∧ (x.noteIssue o m).seq = x.seq ∧ (x.noteIssue o m).ckpts = x.ckpts ∧
      (x.noteIssue o m).objs = x.objs ∧ (x.noteIssue o m).key = x.key ∧ withIssueOf x (x.noteIssue o m) = x := noteIssue_rest
  obtain ⟨f1, f2, f3, f4, f5, f6⟩ := hf d v.g v.run
  refine ⟨h, ⟨⟨?_, ?_, ?_, ?_, ?_, ?_, ?_⟩, ?_, ?_, ?_⟩, ?_⟩
  · rw [e, hk, ← hkey]; exact (setGroup_only s h).others
  · rw [e, hk]; exact setGroup_mine s g h hkey hg
  · rw [f1]
    show (headOf c s k).rob ++ _ = _
    rw [headOf_rob]
    simp only [entryOf, headOf_arch, ha, hv, List.nil_append]
    rfl
  · exact f2
  · exact f3
  · exact f4
  · intro L hL
    rw [ha] at hL ⊢
    have : h.arch.pcs = b'.pcs := by rw [hn']
    simp only [Arch.pc, this, hb', Arch.setPcs, List.getD_eq_getElem?_getD, List.getElem?_mapIdx, hp, List.getElem?_eq_getElem hL]
    rfl
  · rw [e]; rfl
  · show withRegsOf k.arch h.arch = k.arch
    rw [ha, hn']
    exact hb
  · have hw : ∀ x y z : Group, withIssueOf x y = x → withIssueOf z x = z → withIssueOf z y = z := by
      intro x y z h1 h2
      rw [← h2, ← h1]
      rfl
    refine hw d h k f6 ?_
    show withIssueOf k (({ headOf c s k with arch := b' } : Group).dispatch v.i v.pc v.run v.act fl v.g.arch) = k
    unfold headOf
    cases c.hd <;> (cases k; rfl)
  · rw [hn']; exact ⟨rfl, rfl, rfl, rfl⟩

theorem act_and_run (c : Ctl) (g : Group) (run : Mask) : active c g run &&& run = active c g run := by
  unfold active
  rw [BitVec.and_assoc, BitVec.and_comm (guardOf g.arch c), ← BitVec.and_assoc, BitVec.and_self]

theorem run_ne_zero {i : Instr} {c : Ctl} {s : State} {g : Group} {run : Mask} {pc : Dword} (A : Able i c s g run pc) : run ≠ 0 := by
  rintro rfl
  exact A.lanes (by simp)

/-- An instruction that writes registers alone and raises no flag completes. -/
theorem serve_writes {i : Instr} {c : Ctl} {s : State} {g : Group} {run : Mask} {pc : Dword} (A : Able i c s g run pc)
    {body : Served → Res} {b : Arch} (hb : withRegsOf g.arch b = g.arch) (hp : b.pcs = g.arch.pcs) {fl : Flg}
    (he : body ⟨headOf c s g, run, active c g run, pc, i, c.hd⟩ = .done s { headOf c s g with arch := b } fl) :
    ∃ t h, serve i c s body = .next t ∧ Issued i c s t g h run (active c g run) pc fl ∧ SameRegs b h.arch := by
  obtain ⟨h, hI, hv⟩ := issued_of_done (i := i) (c := c) (s := s) (g := g) (k := g) (b := b) (fl := fl) (act := active c g run) (pc := pc)
    A.here A.free (run_ne_zero A) hb hp rfl rfl (act_and_run c g run) ⟨headOf c s g, run, active c g run, pc, i, c.hd⟩ (headOf_arch ..) rfl rfl
    rfl rfl
  exact ⟨_, h, by rw [serve_able A, he], hI, hv⟩

/-- `Written` speaks of the general registers alone. -/
theorem written_of_regs {a b b' : Arch} {wide : Bool} {d : Opd} {m : Mask} {f : Nat → Dword} (W : Written a b wide d m f)
    (h : SameRegs b b') : Written a b' wide d m f := by
  obtain ⟨hv, hs, hp, ho⟩ := h
  cases d with
  | vec n =>
    obtain ⟨⟨l, h, k, s1, s2, po⟩, h2, h3⟩ := W
    refine ⟨⟨?_, ?_, ?_, ?_, ?_, by rw [ho]; exact po⟩, by rw [hs, h2], by rw [hp, h3]⟩
    · intro L h1 h1'; rw [← l L h1 h1']; simp [Arch.vreg, hv]
    · intro hw L h1 h1'; rw [← h hw L h1 h1']; simp [Arch.vreg, hv]
    · intro q L h1; rw [← k q L h1]; simp [Arch.vreg, hv]
    · intro q h1; rw [← s1 q h1]; simp [sideOf, hv]
    · intro q h1 h1'; rw [← s2 q h1 h1']; simp [sideOf, hv]
  | scl n =>
    obtain ⟨⟨l, h, k, po⟩, h2, h3⟩ := W
    refine ⟨⟨?_, ?_, ?_, by rw [ho]; exact po⟩, by rw [hv, h2], by rw [hp, h3]⟩
    · intro L h1 h1'; rw [← l L h1 h1']; simp [Arch.sreg, hs]
    · intro h1; rw [hs, ho]; exact h h1
    · intro q h1; rw [← k q h1]; simp [Arch.sreg, hs]
  | _ => exact ⟨hv.trans W.1, hs.trans W.2.1, hp.trans W.2.2.1, ho.trans W.2.2.2⟩

/-- The shared operation of the integer, bit and move instructions writes its destination and nothing else. -/
theorem alu_writes {i : Instr} {c : Ctl} {wide : Bool} {d : Opd} {f : Arch → Nat → Dword}
    (h : ∀ s, exec i s = alu i c s wide d f) : Writes i c wide d f := by
  intro s g run pc A
  have hw := writeDst_regs g.arch wide d (active c g run) (f g.arch)
  obtain ⟨t, k, h1, h2, hr⟩ := serve_writes A (b := writeDst g.arch wide d (active c g run) (f g.arch)) (fl := 0)
    (body := fun v => .done s { v.g with arch := writeDst v.g.arch wide d v.act (f v.g.arch) } 0) hw.1 hw.2 (by simp only [headOf_arch])
  exact ⟨t, k, (h s).trans h1, h2, written_of_regs (writeDst_written ..) hr⟩

theorem writtenPrd_of_regs {a b b' : Arch} {d : Opd} {m : Mask} {f : Nat → Bool} (W : WrittenPrd a b d m f)
    (h : SameRegs b b') : WrittenPrd a b' d m f := by
  obtain ⟨hv, hs, hp, ho⟩ := h
  refine ⟨hv.trans W.1, hs.trans W.2.1, ?_⟩
  have e : ∀ k, b'.preg k = b.preg k := fun k => by simp [Arch.preg, hp]
  cases d with
  | prd n =>
    obtain ⟨l, k, po⟩ := W.2.2
    exact ⟨fun L h1 h2 h3 => by rw [e, l L h1 h2 h3], fun q hq => by rw [e, k q hq], by rw [ho]; exact po⟩
  | _ => exact ⟨hp.trans W.2.2.1, ho.trans W.2.2.2⟩

/-- The same for a predicate destination. -/
theorem aluPrd_writes {i : Instr} {c : Ctl} {d : Opd} {f : Arch → Nat → Bool} (h : ∀ s, exec i s = aluPrd i c s d f) :
    WritesPrd i c d f := by
  intro s g run pc A
  have hw := writePrd_regs g.arch d (active c g run) (f g.arch)
  obtain ⟨t, k, h1, h2, hr⟩ := serve_writes A (b := writePrd g.arch d (active c g run) (f g.arch)) (fl := 0)
    (body := fun v => .done s { v.g with arch := writePrd v.g.arch d v.act (f v.g.arch) } 0) hw.1 hw.2 (by simp only [headOf_arch])
  exact ⟨t, k, (h s).trans h1, h2, writtenPrd_of_regs (writePrd_written ..) hr⟩

/-- A trap that a body answers waits for delivery. -/
theorem trapped_of {c : Ctl} {s : State} {g k : Group} {tr : Trap} (hg : s.group? g.key = some g) (hk : k.key = g.key) (v : Served) :
    Trapped c s (conclude v (.trap s (headOf c s k) tr)) k tr := by
  set h : Group := { headOf c s k with trap := some tr } with hh
  have e : conclude v (.trap s (headOf c s k) tr) = s.setGroup h := rfl
  have hkey : h.key = g.key := (headOf_key ..).trans hk
  refine ⟨?_, ?_⟩
  · rw [e, hk, ← hkey]; exact setGroup_only s h
  · have := setGroup_mine s g h hkey hg
    rw [e, hk]; exact this

/-- The shared operation of the float instructions: results and flags, or trap 0x13 (R93). -/
theorem fpu_writes {i : Instr} {c : Ctl} {ty : Ty} {d : Opd} {f : Arch → Nat → Nat × Flg}
    (h : ∀ s, exec i s = fpu i c s ty d f) : WritesFp i c ty d f := by
  intro s g run pc A _ _
  simp only [headOf_arch, show stepped .rne g = g from rfl]
  constructor
  · intro hf
    have hw := writeDst_regs g.arch ty.wide d (active c g run) fun L => extend ty (f g.arch L).1
    obtain ⟨t, k, h1, h2, hr⟩ := serve_writes A
      (b := writeDst g.arch ty.wide d (active c g run) fun L => extend ty (f g.arch L).1)
      (fl := orFlags (active c g run) fun L => (f g.arch L).2)
      (body := fpuBody ty d f s) hw.1 hw.2
      (by simp only [fpuBody, raiseFlags, headOf_arch]; exact if_pos hf)
    exact ⟨t, k, (h s).trans h1, h2, written_of_regs (writeDst_written ..) hr⟩
  · intro hf
    refine ⟨_, (h s).trans (serve_able A _), ?_⟩
    have : raiseFlags ⟨headOf c s g, run, active c g run, pc, i, c.hd⟩ s (fun L => (f (headOf c s g).arch L).2)
        { headOf c s g with arch := writeDst (headOf c s g).arch ty.wide d (active c g run) fun L => extend ty (f (headOf c s g).arch L).1 }
      = .trap s (headOf c s g) ⟨0x13, pc, Mask.ofLanes ((active c g run).lanes.filter fun L => (f g.arch L).2 &&& fpTe g.arch.fpctl ≠ 0),
          (orFlags (active c g run) fun L => (f g.arch L).2).setWidth 64, orFlags (active c g run) fun L => (f g.arch L).2⟩ := by
      simp only [raiseFlags, headOf_arch]
      exact if_neg hf
    rw [fpuBody, this]
    exact trapped_of A.here rfl _

end Sys2Proof.Laws
end

