-- ==== Sys2Proof/Laws/Gate.lean ====
section
/-! SUPPORT. Laws/Gate.lean: what serving a commit point at its gate (R67) and a complete group-collective point (R33) does, said once
for every instruction of the two kinds. -/

namespace Sys2Proof.Laws

open Sys2Proof.Machine Sys2Proof.Claims

/-- Changing the group of a key changes nothing but groups. -/
theorem updGroup_get (s : State) (k : GroupKey) (f : Group → Group) (hf : ∀ h, h.key = k → (f h).key = k) (x : Group)
    (hg : s.group? k = some x) : (s.updGroup k f).group? k = some (f x) := by
  have hx : x.key = k := by simpa using List.find?_some hg
  subst hx
  exact find_map_self s.groups x f hf x hg

theorem updGroup_other (s : State) {k k' : GroupKey} (hk : k' ≠ k) (f : Group → Group) (hf : ∀ h, h.key = k → (f h).key = k) :
    (s.updGroup k f).group? k' = s.group? k' := find_map_other s.groups k k' hk f hf

/-- A complete group-collective point runs its body once for every thread that counts. -/
theorem serve_gathered {i : Instr} {c : Ctl} {s : State} {g : Group} {run : Mask} {pc : Dword} (A : Gathered i c s g run pc)
    (body : Served → Res) :
    let v : Served := ⟨{ headOf c s g with coll := 0 }, g.here, active c g g.here, pc, i, c.hd⟩
    serveColl i c s body = .next (conclude v (body v)) := by
  have h2 : i.regs.all g.declares = true := A.regs
  have h3 := A.all
  have h4 := A.order
  simp only [serveColl, served_of A.toTurn i c, h2, h3, h4, headed_admitted A.toAdmitted, if_false, Bool.not_true, Bool.false_eq_true]
  rw [clean_of (tainted_of A.sound _ (headOf_arch ..) rfl rfl rfl)]
  rfl

/-- A commit point at its gate runs its body. -/
theorem serve_atGate {i : Instr} {c : Ctl} {s : State} {g : Group} {run : Mask} {pc : Dword} {k : Commit} (A : AtGate i c s g run pc k)
    (body : Served → Res) {s' : State} {g' : Group} {fl : Flg}
    (h : body ⟨g, run, active c g run, pc, i, false⟩ = .done s' g' fl) :
    serveCommit i c s body = .next ((conclude ⟨g, run, active c g run, pc, i, false⟩ (.done s' { g' with commit := none } fl)).updGroup g.key
      fun x => x.completes s.now k g) := by
  have h2 : i.regs.all g.declares = true := A.regs
  have h3 : active c g run ≠ 0 := A.lanes
  obtain ⟨hc, hp, hr⟩ := A.mine
  have h4 : (!k.begun && !(g.verifiedAt k.seq && g.drainedTo k.seq)) = false := by
    rcases A.gate with hb | ⟨h1, h2⟩
    · simp [hb]
    · simp [h1, h2]
  have hs : served i s c = some ⟨g, run, active c g run, pc, i, false⟩ := served_of A.toTurn i c
  have hf : g.commit.filter (fun k => k.pc == pc && k.run == run) = some k := by simp [hc, hp, hr]
  have hcl := clean_of (tainted_of A.sound ⟨g, run, active c g run, pc, i, false⟩ rfl rfl rfl rfl) s body
  simp only [serveCommit, hs, h2, gate, hf, h4, h3, hcl, h, decide_false, Bool.false_and, if_false, Bool.not_true, Bool.false_eq_true]

/-- Only the checkpoints change when some of them become complete, and none changes its number. -/
theorem completeCkpts_seqs (g : Group) (now : Nat) : (g.completeCkpts now).ckpts.map Ckpt.seq = g.ckpts.map Ckpt.seq := by
  simp only [Group.completeCkpts, List.map_map]
  congr 1
  funext c
  simp only [Function.comp]
  split <;> rfl

/-- What a completed commit point leaves of its group (R61, R67, R73). -/
theorem completes_ckpts (x old : Group) (now : Nat) (k : Commit) :
    ∃ a r, (x.completes now k old).ckpts = ⟨k.seq + 1, some now, true, a⟩ :: r ∧
      r.map Ckpt.seq = (old.ckpts.filter fun c => decide (k.seq + 1 < c.seq)).map Ckpt.seq ∧
      ((∀ e ∈ old.rob, e.seq ≤ k.seq) → old.behind = [] → a = (x.completes now k old).arch) := by
  refine ⟨_, _, rfl, ?_, ?_⟩
  · simp only [List.map_map]
    congr 1
    funext c
    exact (apply_ite Ckpt.seq ..).trans (ite_self _)
  · intro h hb
    have : (old.rob.filter fun e => decide (k.seq < e.seq)) = [] := by
      simp only [List.filter_eq_nil_iff, decide_eq_true_eq]
      intro e he
      have := h e he
      omega
    simp only [this, hb, List.isEmpty_nil, Bool.and_self, if_true]
    rfl

/-- A commit point whose body acts on the machine and leaves its own group's bookkeeping alone has committed. -/
theorem committed_of_done {i : Instr} {c : Ctl} {s : State} {g : Group} {run : Mask} {pc : Dword} {k : Commit} (A : AtGate i c s g run pc k)
    {body : Served → Res} {s' : State} {g' x : Group} {fl : Flg} (h : body ⟨g, run, active c g run, pc, i, false⟩ = .done s' g' fl)
    (hx : s'.group? g.key = some x) (ho : ∀ q, q ≠ g.key → s'.group? q = s.group? q) (hk : g'.key = g.key) (hq : g'.seq = g.seq)
    (hr : g'.rstrt = g.rstrt) (hp : g'.arch.pcs = g.arch.pcs) (hf : g'.arch.parked = g.arch.parked) :
    ∃ t y, serveCommit i c s body = .next t ∧ Committed s t g y k run (fun _ => nextPc pc) ∧
      SameRegs g'.arch y.arch ∧ withRegsOf g'.arch y.arch = g'.arch ∧
      SameAfterCommit { g' with commit := g.commit, rstrt := g.rstrt } y ∧ { t with groups := s'.groups } = s' := by
  have hrun : run ≠ 0 := by rintro rfl; exact A.lanes (by simp)
  have hr2 : run &&& ~~~g'.arch.parked = run := by rw [hf]; exact and_compl_of_disjoint A.free
  set v : Served := ⟨g, run, active c g run, pc, i, false⟩ with hv
  set a : Arch := g'.arch.setPcs run fun _ => nextPc pc with ha
  set d : Group := ({ g' with commit := none, arch := a } : Group).dispatch i pc run (active c g run) fl g.arch with hd
  set n : Group := d.noteIssue g run with hnn
  set y : Group := n.completes s.now k g with hy
  obtain ⟨-, f2, -, -, f5, f6⟩ := noteIssue_rest d g run
  have e : conclude v (.done s' { g' with commit := none } fl) = s'.setGroup n := by
    simp only [conclude, Group.issued, hv]
    rw [hr2, show (g'.arch.setPcs run fun _ => nextPc pc).parked = g'.arch.parked from rfl, hr2, if_neg hrun, act_and_run]
  have hkey : n.key = g.key := f5.trans hk
  have hcd : ∀ z : Group, (z.completes s.now k g).key = z.key := fun _ => rfl
  have hmine : (s'.setGroup n).group? g.key = some n := by
    have := setGroup_get s' n x (by rw [hkey]; exact hx)
    rwa [hkey] at this
  obtain ⟨_, _, _, hn⟩ := noteIssue_arch d g run
  have hy' : y.arch = { a with starve := g.arch.starve, rot := g.arch.rot, lastRun := g.arch.lastRun, turn := g.arch.turn } := by
    have : y.arch = { n.arch with starve := g.arch.starve, rot := g.arch.rot, lastRun := g.arch.lastRun, turn := g.arch.turn } := rfl
    rw [this, hnn, hn]
    rfl
  refine ⟨_, y, serve_atGate A body h, ⟨?_, ?_, ?_, ?_, completes_ckpts .., rfl, rfl, ?_, ?_⟩, ?_, ?_, ⟨?_, ?_⟩, ?_⟩
  · intro q hq'
    rw [updGroup_other _ hq' _ fun z hz => (hcd z).trans hz, e, ← ho q hq']
    exact (setGroup_only s' n).others q (by rw [hkey]; exact hq')
  · rw [e]
    exact updGroup_get _ g.key _ (fun z hz => (hcd z).trans hz) _ hmine
  · show ((g.rob.filter fun e => decide (k.seq < e.seq)).map _).map bare = _
    rw [List.map_map]
    congr 1
  · show n.seq = g.seq + 1
    rw [f2, ← hq]
    rfl
  · have : n.rstrt = g'.rstrt := (congrArg Group.rstrt f6 : (withIssueOf d n).rstrt = d.rstrt)
    show n.rstrt &&& ~~~(0xF00000000 : Dword) ||| BitVec.ofNat 64 (0 * 2 ^ 32) = _
    rw [this, hr]
    simp
  · intro L hL
    simp only [Arch.pc, hy', ha, Arch.setPcs, List.getD_eq_getElem?_getD, List.getElem?_mapIdx, hp, List.getElem?_eq_getElem hL]
    rfl
  · rw [hy']
    exact ⟨rfl, rfl, rfl, rfl⟩
  · rw [hy']
    rfl
  · show ({ withIssueOf { g' with commit := g.commit, rstrt := g.rstrt } (withIssueOf d n) with
      commit := g.commit, behind := g'.behind, rstrt := g.rstrt, trap := g'.trap } : Group) = _
    rw [f6]
    rfl
  · have : n.trap = g'.trap := (congrArg Group.trap f6 : (withIssueOf d n).trap = d.trap)
    show ((g'.trap.any fun t => t.cause == 0x11) = false → (if n.trap.any fun t => t.cause == 0x11 then _ else n.trap) = g'.trap)
    intro h0
    rw [this, if_neg (by rw [h0]; exact Bool.false_ne_true)]
  · rw [e]
    rfl

end Sys2Proof.Laws
end

