-- ==== Sys2Proof/Laws/Mem.lean ====
section
/-! SUPPORT. Laws/Mem.lean: what reads and writes of bytes do to one another, and that every write keeps the canonical form. -/

namespace Sys2Proof.Laws

open Sys2Proof.Machine

/-! ## Cells -/

theorem cellAt_below {l : List Host.Cell} {lo x : Nat} (h : cellsWf lo l = true) (hx : x < lo) : cellAt l x = 0 := by
  induction l generalizing lo with
  | nil => rfl
  | cons c r ih =>
    obtain ⟨a, b⟩ := c
    simp only [cellsWf, Bool.and_eq_true, decide_eq_true_eq] at h
    rw [cellAt, if_neg (by omega)]
    exact ih h.2 (by omega)

theorem cellsWf_weaken {l : List Host.Cell} {lo m : Nat} (h : cellsWf lo l = true) (hm : m ≤ lo) : cellsWf m l = true := by
  cases l with
  | nil => rfl
  | cons c r =>
    simp only [cellsWf, Bool.and_eq_true, decide_eq_true_eq] at h ⊢
    exact ⟨⟨by omega, h.1.2⟩, h.2⟩

/-- A write keeps the form. -/
theorem cellsWf_put {l : List Host.Cell} {lo : Nat} (h : cellsWf lo l = true) {x : Nat} (hx : lo ≤ x) (v : Byte) :
    cellsWf lo (cellPut l x v) = true := by
  induction l generalizing lo with
  | nil =>
    rw [cellPut]
    split
    · rfl
    · next hv => simp only [cellsWf, Bool.and_eq_true, decide_eq_true_eq]; exact ⟨⟨hx, hv⟩, trivial⟩
  | cons c r ih =>
    obtain ⟨a, b⟩ := c
    simp only [cellsWf, Bool.and_eq_true, decide_eq_true_eq] at h
    rw [cellPut]
    split
    · split
      · simp only [cellsWf, Bool.and_eq_true, decide_eq_true_eq]; exact h
      · next hxa hv =>
        simp only [cellsWf, Bool.and_eq_true, decide_eq_true_eq]
        exact ⟨⟨hx, hv⟩, ⟨hxa, h.1.2⟩, h.2⟩
    · split
      · next hxa =>
        subst hxa
        split
        · exact cellsWf_weaken h.2 (by omega)
        · next hv => simp only [cellsWf, Bool.and_eq_true, decide_eq_true_eq]; exact ⟨⟨hx, hv⟩, h.2⟩
      · simp only [cellsWf, Bool.and_eq_true, decide_eq_true_eq]
        exact ⟨h.1, ih h.2 (by omega)⟩

/-- A byte just written reads back. -/
theorem cellAt_put_same {l : List Host.Cell} {lo : Nat} (h : cellsWf lo l = true) (x : Nat) (v : Byte) : cellAt (cellPut l x v) x = v := by
  induction l generalizing lo with
  | nil =>
    rw [cellPut]
    split
    · next hv => exact hv.symm
    · rw [cellAt, if_pos rfl]
  | cons c r ih =>
    obtain ⟨a, b⟩ := c
    simp only [cellsWf, Bool.and_eq_true, decide_eq_true_eq] at h
    rw [cellPut]
    split
    · next hxa =>
      split
      · next hv =>
        subst hv
        rw [cellAt, if_neg (by omega)]
        exact cellAt_below h.2 (by omega)
      · simp [cellAt]
    · split
      · next hxa =>
        subst hxa
        split
        · next hv => subst hv; exact cellAt_below h.2 (by omega)
        · simp [cellAt]
      · rw [cellAt, if_neg (by omega)]
        exact ih h.2

/-- A write leaves every other byte. -/
theorem cellAt_put_other (l : List Host.Cell) {x y : Nat} (hy : y ≠ x) (v : Byte) : cellAt (cellPut l x v) y = cellAt l y := by
  induction l with
  | nil =>
    rw [cellPut]
    split
    · rfl
    · simp [cellAt, Ne.symm hy]
  | cons c r ih =>
    obtain ⟨a, b⟩ := c
    rw [cellPut]
    split
    · split <;> simp [cellAt, Ne.symm hy]
    · split
      · next hxa =>
        subst hxa
        split <;> simp [cellAt, Ne.symm hy]
      · simp only [cellAt, ih]

/-- Two memories in canonical form that read alike are equal data. -/
theorem cells_ext {l m : List Host.Cell} {lo : Nat} (hl : cellsWf lo l = true) (hm : cellsWf lo m = true)
    (h : ∀ x, cellAt l x = cellAt m x) : l = m := by
  induction l generalizing lo m with
  | nil =>
    cases m with
    | nil => rfl
    | cons c r =>
      obtain ⟨a, b⟩ := c
      simp only [cellsWf, Bool.and_eq_true, decide_eq_true_eq] at hm
      have := h a
      simp [cellAt] at this
      exact absurd this.symm hm.1.2
  | cons c r ih =>
    obtain ⟨a, b⟩ := c
    cases m with
    | nil =>
      simp only [cellsWf, Bool.and_eq_true, decide_eq_true_eq] at hl
      have := h a
      simp [cellAt] at this
      exact absurd this hl.1.2
    | cons d q =>
      obtain ⟨a', b'⟩ := d
      simp only [cellsWf, Bool.and_eq_true, decide_eq_true_eq] at hl hm
      have haa : a = a' := by
        rcases Nat.lt_trichotomy a a' with g | g | g
        · have := h a
          rw [cellAt, if_pos rfl, cellAt, if_neg (by omega), cellAt_below hm.2 (by omega)] at this
          exact absurd this hl.1.2
        · exact g
        · have := h a'
          rw [cellAt, if_neg (by omega), cellAt_below hl.2 (by omega), cellAt, if_pos rfl] at this
          exact absurd this.symm hm.1.2
      subst haa
      have hb : b = b' := by simpa [cellAt] using h a
      subst hb
      refine congrArg _ (ih hl.2 hm.2 fun x => ?_)
      by_cases hx : x = a
      · subst hx
        rw [cellAt_below hl.2 (by omega), cellAt_below hm.2 (by omega)]
      · simpa [cellAt, Ne.symm hx] using h x

/-! ## Memories -/

theorem get_put_same {m : Memory} (h : m.wf = true) (a : Nat) (b : Byte) : (m.put a b).get a = b := cellAt_put_same h a b

theorem get_put_other (m : Memory) {a x : Nat} (hx : x ≠ a) (b : Byte) : (m.put a b).get x = m.get x := cellAt_put_other m.cells hx b

theorem wf_empty : Memory.empty.wf = true := rfl

theorem wf_put {m : Memory} (h : m.wf = true) (a : Nat) (b : Byte) : (m.put a b).wf = true := cellsWf_put h (Nat.zero_le a) b

theorem memory_ext {m n : Memory} (hm : m.wf = true) (hn : n.wf = true) (h : ∀ a, m.get a = n.get a) : m = n := by
  obtain ⟨l⟩ := m
  obtain ⟨k⟩ := n
  exact congrArg Memory.mk (cells_ext hm hn h)

theorem wf_putN {m : Memory} (h : m.wf = true) (a : Nat) (d : List Byte) : (m.putN a d).wf = true := by
  induction d generalizing m a with
  | nil => exact h
  | cons b r ih => exact ih (wf_put h a b) (a + 1)

theorem wf_putNum {m : Memory} (h : m.wf = true) (a n x : Nat) : (m.putNum a n x).wf = true := wf_putN h a _

/-- What a run of bytes leaves at an address: its own byte inside the run, the old one outside. -/
theorem get_putN {m : Memory} (h : m.wf = true) (a x : Nat) (d : List Byte) :
    (m.putN a d).get x = if a ≤ x ∧ x < a + d.length then d.getD (x - a) 0 else m.get x := by
  induction d generalizing m a with
  | nil => simp [Memory.putN, show ¬(a ≤ x ∧ x < a) by omega]
  | cons b r ih =>
    rw [Memory.putN, ih (wf_put h a b)]
    by_cases hx : x = a
    · subst hx
      simp [get_put_same h]
    · rw [get_put_other m hx]
      by_cases hr : a + 1 ≤ x ∧ x < a + 1 + r.length
      · rw [if_pos hr, if_pos (by simp only [List.length_cons]; omega)]
        obtain ⟨k, rfl⟩ : ∃ k, x = a + 1 + k := ⟨x - (a + 1), by omega⟩
        rw [show a + 1 + k - (a + 1) = k by omega, show a + 1 + k - a = k + 1 by omega, List.getD_cons_succ]
      · rw [if_neg hr, if_neg (by simp only [List.length_cons]; omega)]

theorem get_putN_outside {m : Memory} (h : m.wf = true) {a x : Nat} {d : List Byte} (hx : x < a ∨ a + d.length ≤ x) :
    (m.putN a d).get x = m.get x := by
  rw [get_putN h, if_neg (by omega)]

/-! ## Numbers in bytes -/

theorem leBytes_length (n x : Nat) : (leBytes n x).length = n := by
  induction n generalizing x with
  | zero => rfl
  | succ n ih => simp [leBytes, ih]

theorem leNat_leBytes (n x : Nat) : leNat (leBytes n x) = x % 2 ^ (8 * n) := by
  induction n generalizing x with
  | zero => simp [leBytes, leNat, Nat.mod_one]
  | succ n ih =>
    rw [leBytes, leNat, ih, show 8 * (n + 1) = 8 + 8 * n by omega, Nat.pow_add, Nat.mod_mul]
    simp

theorem leNat_lt (l : List Byte) : leNat l < 2 ^ (8 * l.length) := by
  induction l with
  | nil => simp [leNat]
  | cons b r ih =>
    have := b.isLt
    rw [leNat, List.length_cons, show 8 * (r.length + 1) = 8 + 8 * r.length by omega, Nat.pow_add]
    omega

theorem leBytes_leNat (l : List Byte) : leBytes l.length (leNat l) = l := by
  induction l with
  | nil => rfl
  | cons b r ih =>
    have := b.isLt
    rw [List.length_cons, leNat, leBytes, show (b.toNat + 256 * leNat r) / 256 = leNat r by omega, ih]
    congr 1
    apply BitVec.eq_of_toNat_eq
    simp only [BitVec.toNat_ofNat]
    omega

/-! ## Writes of device memory -/

theorem push_mem (r : Ram) (key mask : Nat) (old val : WordState) (rels : List Release) (atom : Bool) (hid : Option CoreId)
    (eng : Bool) : (r.push key mask old val rels atom hid eng).mem = r.mem := rfl

theorem counted_mem (r : Ram) : r.counted.mem = r.mem := rfl

theorem untag_mem (r : Ram) (a n : Nat) : (r.untag a n).mem = r.mem := rfl

theorem retag_mem (r : Ram) (a : Nat) : (r.retag a).mem = r.mem := rfl

theorem taint_mem (r : Ram) (a n : Nat) : (r.taint a n).mem = r.mem := rfl

theorem unhide_mem (r : Ram) (line : Nat) (c : CoreId) : (r.unhide line c).mem = r.mem := rfl

/-- A write changes just the bytes it gives. -/
theorem write_mem (r : Ram) (a : Nat) (d : List Byte) (k : StoreKind) : (r.write a d k).mem = r.mem.putN a d := by
  rw [Ram.write, counted_mem]
  generalize hl : wordsOf a d.length = l
  have key : ∀ (l : List Nat) (x : Ram) (m : Nat → Nat) (f g : Nat → WordState),
      (l.foldl (fun x w => x.push w (m w) (f w) (g w) k.rels k.atom k.hid k.eng) x).mem = x.mem := by
    intro l
    induction l with
    | nil => intros; rfl
    | cons w t ih => intro x m f g; rw [List.foldl_cons, ih, push_mem]
  rw [key l]
  cases k.tag <;> rfl

theorem wf_write {r : Ram} (h : r.mem.wf = true) (a : Nat) (d : List Byte) (k : StoreKind) : (r.write a d k).mem.wf = true := by
  rw [write_mem]
  exact wf_putN h a d

end Sys2Proof.Laws
end

