-- ==== Sys2Proof/Laws/State.lean ====
section
/-! SUPPORT. Laws/State.lean: each update of the state, field by field, and what reading back what it has set gives. -/

namespace Sys2Proof.Laws

open Sys2Proof.Machine

/-! ## setGroup -/

@[simp] theorem setGroup_now (s : State) (g : Group) : (s.setGroup g).now = s.now := rfl
@[simp] theorem setGroup_fresh (s : State) (g : Group) : (s.setGroup g).fresh = s.fresh := rfl
@[simp] theorem setGroup_agenda (s : State) (g : Group) : (s.setGroup g).agenda = s.agenda := rfl
@[simp] theorem setGroup_issue (s : State) (g : Group) : (s.setGroup g).issue = s.issue := rfl
@[simp] theorem setGroup_latch (s : State) (g : Group) : (s.setGroup g).latch = s.latch := rfl
@[simp] theorem setGroup_cur (s : State) (g : Group) : (s.setGroup g).cur = s.cur := rfl
@[simp] theorem setGroup_ram (s : State) (g : Group) : (s.setGroup g).ram = s.ram := rfl
@[simp] theorem setGroup_coh (s : State) (g : Group) : (s.setGroup g).coh = s.coh := rfl
@[simp] theorem setGroup_teams (s : State) (g : Group) : (s.setGroup g).teams = s.teams := rfl
@[simp] theorem setGroup_parts (s : State) (g : Group) : (s.setGroup g).parts = s.parts := rfl
@[simp] theorem setGroup_dies (s : State) (g : Group) : (s.setGroup g).dies = s.dies := rfl
@[simp] theorem setGroup_iods (s : State) (g : Group) : (s.setGroup g).iods = s.iods := rfl
@[simp] theorem setGroup_dev (s : State) (g : Group) : (s.setGroup g).dev = s.dev := rfl

/-! ## updGroup -/

@[simp] theorem updGroup_now (s : State) (k : GroupKey) (f : Group → Group) : (s.updGroup k f).now = s.now := rfl
@[simp] theorem updGroup_fresh (s : State) (k : GroupKey) (f : Group → Group) : (s.updGroup k f).fresh = s.fresh := rfl
@[simp] theorem updGroup_agenda (s : State) (k : GroupKey) (f : Group → Group) : (s.updGroup k f).agenda = s.agenda := rfl
@[simp] theorem updGroup_issue (s : State) (k : GroupKey) (f : Group → Group) : (s.updGroup k f).issue = s.issue := rfl
@[simp] theorem updGroup_latch (s : State) (k : GroupKey) (f : Group → Group) : (s.updGroup k f).latch = s.latch := rfl
@[simp] theorem updGroup_cur (s : State) (k : GroupKey) (f : Group → Group) : (s.updGroup k f).cur = s.cur := rfl
@[simp] theorem updGroup_ram (s : State) (k : GroupKey) (f : Group → Group) : (s.updGroup k f).ram = s.ram := rfl
@[simp] theorem updGroup_coh (s : State) (k : GroupKey) (f : Group → Group) : (s.updGroup k f).coh = s.coh := rfl
@[simp] theorem updGroup_teams (s : State) (k : GroupKey) (f : Group → Group) : (s.updGroup k f).teams = s.teams := rfl
@[simp] theorem updGroup_parts (s : State) (k : GroupKey) (f : Group → Group) : (s.updGroup k f).parts = s.parts := rfl
@[simp] theorem updGroup_dies (s : State) (k : GroupKey) (f : Group → Group) : (s.updGroup k f).dies = s.dies := rfl
@[simp] theorem updGroup_iods (s : State) (k : GroupKey) (f : Group → Group) : (s.updGroup k f).iods = s.iods := rfl
@[simp] theorem updGroup_dev (s : State) (k : GroupKey) (f : Group → Group) : (s.updGroup k f).dev = s.dev := rfl

/-! ## blockRun -/

@[simp] theorem blockRun_now (s : State) (k : GroupKey) (m : Mask) : (s.blockRun k m).now = s.now := rfl
@[simp] theorem blockRun_fresh (s : State) (k : GroupKey) (m : Mask) : (s.blockRun k m).fresh = s.fresh := rfl
@[simp] theorem blockRun_agenda (s : State) (k : GroupKey) (m : Mask) : (s.blockRun k m).agenda = s.agenda := rfl
@[simp] theorem blockRun_issue (s : State) (k : GroupKey) (m : Mask) : (s.blockRun k m).issue = s.issue := rfl
@[simp] theorem blockRun_latch (s : State) (k : GroupKey) (m : Mask) : (s.blockRun k m).latch = s.latch := rfl
@[simp] theorem blockRun_cur (s : State) (k : GroupKey) (m : Mask) : (s.blockRun k m).cur = s.cur := rfl
@[simp] theorem blockRun_ram (s : State) (k : GroupKey) (m : Mask) : (s.blockRun k m).ram = s.ram := rfl
@[simp] theorem blockRun_coh (s : State) (k : GroupKey) (m : Mask) : (s.blockRun k m).coh = s.coh := rfl
@[simp] theorem blockRun_teams (s : State) (k : GroupKey) (m : Mask) : (s.blockRun k m).teams = s.teams := rfl
@[simp] theorem blockRun_parts (s : State) (k : GroupKey) (m : Mask) : (s.blockRun k m).parts = s.parts := rfl
@[simp] theorem blockRun_dies (s : State) (k : GroupKey) (m : Mask) : (s.blockRun k m).dies = s.dies := rfl
@[simp] theorem blockRun_iods (s : State) (k : GroupKey) (m : Mask) : (s.blockRun k m).iods = s.iods := rfl
@[simp] theorem blockRun_dev (s : State) (k : GroupKey) (m : Mask) : (s.blockRun k m).dev = s.dev := rfl

/-! ## stalled -/

@[simp] theorem stalled_now (s : State) (k : GroupKey) : (s.stalled k).now = s.now := rfl
@[simp] theorem stalled_fresh (s : State) (k : GroupKey) : (s.stalled k).fresh = s.fresh := rfl
@[simp] theorem stalled_agenda (s : State) (k : GroupKey) : (s.stalled k).agenda = s.agenda := rfl
@[simp] theorem stalled_issue (s : State) (k : GroupKey) : (s.stalled k).issue = s.issue := rfl
@[simp] theorem stalled_latch (s : State) (k : GroupKey) : (s.stalled k).latch = s.latch := rfl
@[simp] theorem stalled_cur (s : State) (k : GroupKey) : (s.stalled k).cur = s.cur := rfl
@[simp] theorem stalled_ram (s : State) (k : GroupKey) : (s.stalled k).ram = s.ram := rfl
@[simp] theorem stalled_coh (s : State) (k : GroupKey) : (s.stalled k).coh = s.coh := rfl
@[simp] theorem stalled_teams (s : State) (k : GroupKey) : (s.stalled k).teams = s.teams := rfl
@[simp] theorem stalled_parts (s : State) (k : GroupKey) : (s.stalled k).parts = s.parts := rfl
@[simp] theorem stalled_dies (s : State) (k : GroupKey) : (s.stalled k).dies = s.dies := rfl
@[simp] theorem stalled_iods (s : State) (k : GroupKey) : (s.stalled k).iods = s.iods := rfl
@[simp] theorem stalled_dev (s : State) (k : GroupKey) : (s.stalled k).dev = s.dev := rfl

/-! ## setTeam -/

@[simp] theorem setTeam_now (s : State) (x : Team) : (s.setTeam x).now = s.now := rfl
@[simp] theorem setTeam_fresh (s : State) (x : Team) : (s.setTeam x).fresh = s.fresh := rfl
@[simp] theorem setTeam_agenda (s : State) (x : Team) : (s.setTeam x).agenda = s.agenda := rfl
@[simp] theorem setTeam_issue (s : State) (x : Team) : (s.setTeam x).issue = s.issue := rfl
@[simp] theorem setTeam_latch (s : State) (x : Team) : (s.setTeam x).latch = s.latch := rfl
@[simp] theorem setTeam_cur (s : State) (x : Team) : (s.setTeam x).cur = s.cur := rfl
@[simp] theorem setTeam_ram (s : State) (x : Team) : (s.setTeam x).ram = s.ram := rfl
@[simp] theorem setTeam_coh (s : State) (x : Team) : (s.setTeam x).coh = s.coh := rfl
@[simp] theorem setTeam_groups (s : State) (x : Team) : (s.setTeam x).groups = s.groups := rfl
@[simp] theorem setTeam_parts (s : State) (x : Team) : (s.setTeam x).parts = s.parts := rfl
@[simp] theorem setTeam_dies (s : State) (x : Team) : (s.setTeam x).dies = s.dies := rfl
@[simp] theorem setTeam_iods (s : State) (x : Team) : (s.setTeam x).iods = s.iods := rfl
@[simp] theorem setTeam_dev (s : State) (x : Team) : (s.setTeam x).dev = s.dev := rfl

/-! ## updTeam -/

@[simp] theorem updTeam_now (s : State) (k : TeamKey) (f : Team → Team) : (s.updTeam k f).now = s.now := rfl
@[simp] theorem updTeam_fresh (s : State) (k : TeamKey) (f : Team → Team) : (s.updTeam k f).fresh = s.fresh := rfl
@[simp] theorem updTeam_agenda (s : State) (k : TeamKey) (f : Team → Team) : (s.updTeam k f).agenda = s.agenda := rfl
@[simp] theorem updTeam_issue (s : State) (k : TeamKey) (f : Team → Team) : (s.updTeam k f).issue = s.issue := rfl
@[simp] theorem updTeam_latch (s : State) (k : TeamKey) (f : Team → Team) : (s.updTeam k f).latch = s.latch := rfl
@[simp] theorem updTeam_cur (s : State) (k : TeamKey) (f : Team → Team) : (s.updTeam k f).cur = s.cur := rfl
@[simp] theorem updTeam_ram (s : State) (k : TeamKey) (f : Team → Team) : (s.updTeam k f).ram = s.ram := rfl
@[simp] theorem updTeam_coh (s : State) (k : TeamKey) (f : Team → Team) : (s.updTeam k f).coh = s.coh := rfl
@[simp] theorem updTeam_groups (s : State) (k : TeamKey) (f : Team → Team) : (s.updTeam k f).groups = s.groups := rfl
@[simp] theorem updTeam_parts (s : State) (k : TeamKey) (f : Team → Team) : (s.updTeam k f).parts = s.parts := rfl
@[simp] theorem updTeam_dies (s : State) (k : TeamKey) (f : Team → Team) : (s.updTeam k f).dies = s.dies := rfl
@[simp] theorem updTeam_iods (s : State) (k : TeamKey) (f : Team → Team) : (s.updTeam k f).iods = s.iods := rfl
@[simp] theorem updTeam_dev (s : State) (k : TeamKey) (f : Team → Team) : (s.updTeam k f).dev = s.dev := rfl

/-! ## updRank -/

@[simp] theorem updRank_now (s : State) (k : TeamKey) (r : Nat) (f : Rank → Rank) : (s.updRank k r f).now = s.now := rfl
@[simp] theorem updRank_fresh (s : State) (k : TeamKey) (r : Nat) (f : Rank → Rank) : (s.updRank k r f).fresh = s.fresh := rfl
@[simp] theorem updRank_agenda (s : State) (k : TeamKey) (r : Nat) (f : Rank → Rank) : (s.updRank k r f).agenda = s.agenda := rfl
@[simp] theorem updRank_issue (s : State) (k : TeamKey) (r : Nat) (f : Rank → Rank) : (s.updRank k r f).issue = s.issue := rfl
@[simp] theorem updRank_latch (s : State) (k : TeamKey) (r : Nat) (f : Rank → Rank) : (s.updRank k r f).latch = s.latch := rfl
@[simp] theorem updRank_cur (s : State) (k : TeamKey) (r : Nat) (f : Rank → Rank) : (s.updRank k r f).cur = s.cur := rfl
@[simp] theorem updRank_ram (s : State) (k : TeamKey) (r : Nat) (f : Rank → Rank) : (s.updRank k r f).ram = s.ram := rfl
@[simp] theorem updRank_coh (s : State) (k : TeamKey) (r : Nat) (f : Rank → Rank) : (s.updRank k r f).coh = s.coh := rfl
@[simp] theorem updRank_groups (s : State) (k : TeamKey) (r : Nat) (f : Rank → Rank) : (s.updRank k r f).groups = s.groups := rfl
@[simp] theorem updRank_parts (s : State) (k : TeamKey) (r : Nat) (f : Rank → Rank) : (s.updRank k r f).parts = s.parts := rfl
@[simp] theorem updRank_dies (s : State) (k : TeamKey) (r : Nat) (f : Rank → Rank) : (s.updRank k r f).dies = s.dies := rfl
@[simp] theorem updRank_iods (s : State) (k : TeamKey) (r : Nat) (f : Rank → Rank) : (s.updRank k r f).iods = s.iods := rfl
@[simp] theorem updRank_dev (s : State) (k : TeamKey) (r : Nat) (f : Rank → Rank) : (s.updRank k r f).dev = s.dev := rfl

/-! ## updBar -/

@[simp] theorem updBar_now (s : State) (k : TeamKey) (n : Nat) (f : Barrier → Barrier) : (s.updBar k n f).now = s.now := rfl
@[simp] theorem updBar_fresh (s : State) (k : TeamKey) (n : Nat) (f : Barrier → Barrier) : (s.updBar k n f).fresh = s.fresh := rfl
@[simp] theorem updBar_agenda (s : State) (k : TeamKey) (n : Nat) (f : Barrier → Barrier) : (s.updBar k n f).agenda = s.agenda := rfl
@[simp] theorem updBar_issue (s : State) (k : TeamKey) (n : Nat) (f : Barrier → Barrier) : (s.updBar k n f).issue = s.issue := rfl
@[simp] theorem updBar_latch (s : State) (k : TeamKey) (n : Nat) (f : Barrier → Barrier) : (s.updBar k n f).latch = s.latch := rfl
@[simp] theorem updBar_cur (s : State) (k : TeamKey) (n : Nat) (f : Barrier → Barrier) : (s.updBar k n f).cur = s.cur := rfl
@[simp] theorem updBar_ram (s : State) (k : TeamKey) (n : Nat) (f : Barrier → Barrier) : (s.updBar k n f).ram = s.ram := rfl
@[simp] theorem updBar_coh (s : State) (k : TeamKey) (n : Nat) (f : Barrier → Barrier) : (s.updBar k n f).coh = s.coh := rfl
@[simp] theorem updBar_groups (s : State) (k : TeamKey) (n : Nat) (f : Barrier → Barrier) : (s.updBar k n f).groups = s.groups := rfl
@[simp] theorem updBar_parts (s : State) (k : TeamKey) (n : Nat) (f : Barrier → Barrier) : (s.updBar k n f).parts = s.parts := rfl
@[simp] theorem updBar_dies (s : State) (k : TeamKey) (n : Nat) (f : Barrier → Barrier) : (s.updBar k n f).dies = s.dies := rfl
@[simp] theorem updBar_iods (s : State) (k : TeamKey) (n : Nat) (f : Barrier → Barrier) : (s.updBar k n f).iods = s.iods := rfl
@[simp] theorem updBar_dev (s : State) (k : TeamKey) (n : Nat) (f : Barrier → Barrier) : (s.updBar k n f).dev = s.dev := rfl

/-! ## setPart -/

@[simp] theorem setPart_now (s : State) (p : Nat) (x : Part) : (s.setPart p x).now = s.now := rfl
@[simp] theorem setPart_fresh (s : State) (p : Nat) (x : Part) : (s.setPart p x).fresh = s.fresh := rfl
@[simp] theorem setPart_agenda (s : State) (p : Nat) (x : Part) : (s.setPart p x).agenda = s.agenda := rfl
@[simp] theorem setPart_issue (s : State) (p : Nat) (x : Part) : (s.setPart p x).issue = s.issue := rfl
@[simp] theorem setPart_latch (s : State) (p : Nat) (x : Part) : (s.setPart p x).latch = s.latch := rfl
@[simp] theorem setPart_cur (s : State) (p : Nat) (x : Part) : (s.setPart p x).cur = s.cur := rfl
@[simp] theorem setPart_ram (s : State) (p : Nat) (x : Part) : (s.setPart p x).ram = s.ram := rfl
@[simp] theorem setPart_coh (s : State) (p : Nat) (x : Part) : (s.setPart p x).coh = s.coh := rfl
@[simp] theorem setPart_groups (s : State) (p : Nat) (x : Part) : (s.setPart p x).groups = s.groups := rfl
@[simp] theorem setPart_teams (s : State) (p : Nat) (x : Part) : (s.setPart p x).teams = s.teams := rfl
@[simp] theorem setPart_dies (s : State) (p : Nat) (x : Part) : (s.setPart p x).dies = s.dies := rfl
@[simp] theorem setPart_iods (s : State) (p : Nat) (x : Part) : (s.setPart p x).iods = s.iods := rfl
@[simp] theorem setPart_dev (s : State) (p : Nat) (x : Part) : (s.setPart p x).dev = s.dev := rfl

/-! ## updPart -/

@[simp] theorem updPart_now (s : State) (p : Nat) (f : Part → Part) : (s.updPart p f).now = s.now := rfl
@[simp] theorem updPart_fresh (s : State) (p : Nat) (f : Part → Part) : (s.updPart p f).fresh = s.fresh := rfl
@[simp] theorem updPart_agenda (s : State) (p : Nat) (f : Part → Part) : (s.updPart p f).agenda = s.agenda := rfl
@[simp] theorem updPart_issue (s : State) (p : Nat) (f : Part → Part) : (s.updPart p f).issue = s.issue := rfl
@[simp] theorem updPart_latch (s : State) (p : Nat) (f : Part → Part) : (s.updPart p f).latch = s.latch := rfl
@[simp] theorem updPart_cur (s : State) (p : Nat) (f : Part → Part) : (s.updPart p f).cur = s.cur := rfl
@[simp] theorem updPart_ram (s : State) (p : Nat) (f : Part → Part) : (s.updPart p f).ram = s.ram := rfl
@[simp] theorem updPart_coh (s : State) (p : Nat) (f : Part → Part) : (s.updPart p f).coh = s.coh := rfl
@[simp] theorem updPart_groups (s : State) (p : Nat) (f : Part → Part) : (s.updPart p f).groups = s.groups := rfl
@[simp] theorem updPart_teams (s : State) (p : Nat) (f : Part → Part) : (s.updPart p f).teams = s.teams := rfl
@[simp] theorem updPart_dies (s : State) (p : Nat) (f : Part → Part) : (s.updPart p f).dies = s.dies := rfl
@[simp] theorem updPart_iods (s : State) (p : Nat) (f : Part → Part) : (s.updPart p f).iods = s.iods := rfl
@[simp] theorem updPart_dev (s : State) (p : Nat) (f : Part → Part) : (s.updPart p f).dev = s.dev := rfl

/-! ## updBooth -/

@[simp] theorem updBooth_now (s : State) (p n : Nat) (f : Booth → Booth) : (s.updBooth p n f).now = s.now := rfl
@[simp] theorem updBooth_fresh (s : State) (p n : Nat) (f : Booth → Booth) : (s.updBooth p n f).fresh = s.fresh := rfl
@[simp] theorem updBooth_agenda (s : State) (p n : Nat) (f : Booth → Booth) : (s.updBooth p n f).agenda = s.agenda := rfl
@[simp] theorem updBooth_issue (s : State) (p n : Nat) (f : Booth → Booth) : (s.updBooth p n f).issue = s.issue := rfl
@[simp] theorem updBooth_latch (s : State) (p n : Nat) (f : Booth → Booth) : (s.updBooth p n f).latch = s.latch := rfl
@[simp] theorem updBooth_cur (s : State) (p n : Nat) (f : Booth → Booth) : (s.updBooth p n f).cur = s.cur := rfl
@[simp] theorem updBooth_ram (s : State) (p n : Nat) (f : Booth → Booth) : (s.updBooth p n f).ram = s.ram := rfl
@[simp] theorem updBooth_coh (s : State) (p n : Nat) (f : Booth → Booth) : (s.updBooth p n f).coh = s.coh := rfl
@[simp] theorem updBooth_groups (s : State) (p n : Nat) (f : Booth → Booth) : (s.updBooth p n f).groups = s.groups := rfl
@[simp] theorem updBooth_teams (s : State) (p n : Nat) (f : Booth → Booth) : (s.updBooth p n f).teams = s.teams := rfl
@[simp] theorem updBooth_dies (s : State) (p n : Nat) (f : Booth → Booth) : (s.updBooth p n f).dies = s.dies := rfl
@[simp] theorem updBooth_iods (s : State) (p n : Nat) (f : Booth → Booth) : (s.updBooth p n f).iods = s.iods := rfl
@[simp] theorem updBooth_dev (s : State) (p n : Nat) (f : Booth → Booth) : (s.updBooth p n f).dev = s.dev := rfl

/-! ## setDie -/

@[simp] theorem setDie_now (s : State) (d : Nat) (x : Die) : (s.setDie d x).now = s.now := rfl
@[simp] theorem setDie_fresh (s : State) (d : Nat) (x : Die) : (s.setDie d x).fresh = s.fresh := rfl
@[simp] theorem setDie_agenda (s : State) (d : Nat) (x : Die) : (s.setDie d x).agenda = s.agenda := rfl
@[simp] theorem setDie_issue (s : State) (d : Nat) (x : Die) : (s.setDie d x).issue = s.issue := rfl
@[simp] theorem setDie_latch (s : State) (d : Nat) (x : Die) : (s.setDie d x).latch = s.latch := rfl
@[simp] theorem setDie_cur (s : State) (d : Nat) (x : Die) : (s.setDie d x).cur = s.cur := rfl
@[simp] theorem setDie_ram (s : State) (d : Nat) (x : Die) : (s.setDie d x).ram = s.ram := rfl
@[simp] theorem setDie_coh (s : State) (d : Nat) (x : Die) : (s.setDie d x).coh = s.coh := rfl
@[simp] theorem setDie_groups (s : State) (d : Nat) (x : Die) : (s.setDie d x).groups = s.groups := rfl
@[simp] theorem setDie_teams (s : State) (d : Nat) (x : Die) : (s.setDie d x).teams = s.teams := rfl
@[simp] theorem setDie_parts (s : State) (d : Nat) (x : Die) : (s.setDie d x).parts = s.parts := rfl
@[simp] theorem setDie_iods (s : State) (d : Nat) (x : Die) : (s.setDie d x).iods = s.iods := rfl
@[simp] theorem setDie_dev (s : State) (d : Nat) (x : Die) : (s.setDie d x).dev = s.dev := rfl

/-! ## setIod -/

@[simp] theorem setIod_now (s : State) (d : Nat) (x : Iod) : (s.setIod d x).now = s.now := rfl
@[simp] theorem setIod_fresh (s : State) (d : Nat) (x : Iod) : (s.setIod d x).fresh = s.fresh := rfl
@[simp] theorem setIod_agenda (s : State) (d : Nat) (x : Iod) : (s.setIod d x).agenda = s.agenda := rfl
@[simp] theorem setIod_issue (s : State) (d : Nat) (x : Iod) : (s.setIod d x).issue = s.issue := rfl
@[simp] theorem setIod_latch (s : State) (d : Nat) (x : Iod) : (s.setIod d x).latch = s.latch := rfl
@[simp] theorem setIod_cur (s : State) (d : Nat) (x : Iod) : (s.setIod d x).cur = s.cur := rfl
@[simp] theorem setIod_ram (s : State) (d : Nat) (x : Iod) : (s.setIod d x).ram = s.ram := rfl
@[simp] theorem setIod_coh (s : State) (d : Nat) (x : Iod) : (s.setIod d x).coh = s.coh := rfl
@[simp] theorem setIod_groups (s : State) (d : Nat) (x : Iod) : (s.setIod d x).groups = s.groups := rfl
@[simp] theorem setIod_teams (s : State) (d : Nat) (x : Iod) : (s.setIod d x).teams = s.teams := rfl
@[simp] theorem setIod_parts (s : State) (d : Nat) (x : Iod) : (s.setIod d x).parts = s.parts := rfl
@[simp] theorem setIod_dies (s : State) (d : Nat) (x : Iod) : (s.setIod d x).dies = s.dies := rfl
@[simp] theorem setIod_dev (s : State) (d : Nat) (x : Iod) : (s.setIod d x).dev = s.dev := rfl

/-! ## emit -/

@[simp] theorem emit_now (s : State) (o : Out) : (s.emit o).now = s.now := rfl
@[simp] theorem emit_fresh (s : State) (o : Out) : (s.emit o).fresh = s.fresh := rfl
@[simp] theorem emit_agenda (s : State) (o : Out) : (s.emit o).agenda = s.agenda := rfl
@[simp] theorem emit_issue (s : State) (o : Out) : (s.emit o).issue = s.issue := rfl
@[simp] theorem emit_latch (s : State) (o : Out) : (s.emit o).latch = s.latch := rfl
@[simp] theorem emit_cur (s : State) (o : Out) : (s.emit o).cur = s.cur := rfl
@[simp] theorem emit_ram (s : State) (o : Out) : (s.emit o).ram = s.ram := rfl
@[simp] theorem emit_coh (s : State) (o : Out) : (s.emit o).coh = s.coh := rfl
@[simp] theorem emit_groups (s : State) (o : Out) : (s.emit o).groups = s.groups := rfl
@[simp] theorem emit_teams (s : State) (o : Out) : (s.emit o).teams = s.teams := rfl
@[simp] theorem emit_parts (s : State) (o : Out) : (s.emit o).parts = s.parts := rfl
@[simp] theorem emit_dies (s : State) (o : Out) : (s.emit o).dies = s.dies := rfl
@[simp] theorem emit_iods (s : State) (o : Out) : (s.emit o).iods = s.iods := rfl

/-! ## logRec -/

@[simp] theorem logRec_now (s : State) (a b : Nat) (l : List Byte) : (s.logRec a b l).now = s.now := rfl
@[simp] theorem logRec_fresh (s : State) (a b : Nat) (l : List Byte) : (s.logRec a b l).fresh = s.fresh := rfl
@[simp] theorem logRec_agenda (s : State) (a b : Nat) (l : List Byte) : (s.logRec a b l).agenda = s.agenda := rfl
@[simp] theorem logRec_issue (s : State) (a b : Nat) (l : List Byte) : (s.logRec a b l).issue = s.issue := rfl
@[simp] theorem logRec_latch (s : State) (a b : Nat) (l : List Byte) : (s.logRec a b l).latch = s.latch := rfl
@[simp] theorem logRec_cur (s : State) (a b : Nat) (l : List Byte) : (s.logRec a b l).cur = s.cur := rfl
@[simp] theorem logRec_ram (s : State) (a b : Nat) (l : List Byte) : (s.logRec a b l).ram = s.ram := rfl
@[simp] theorem logRec_coh (s : State) (a b : Nat) (l : List Byte) : (s.logRec a b l).coh = s.coh := rfl
@[simp] theorem logRec_groups (s : State) (a b : Nat) (l : List Byte) : (s.logRec a b l).groups = s.groups := rfl
@[simp] theorem logRec_teams (s : State) (a b : Nat) (l : List Byte) : (s.logRec a b l).teams = s.teams := rfl
@[simp] theorem logRec_parts (s : State) (a b : Nat) (l : List Byte) : (s.logRec a b l).parts = s.parts := rfl
@[simp] theorem logRec_dies (s : State) (a b : Nat) (l : List Byte) : (s.logRec a b l).dies = s.dies := rfl
@[simp] theorem logRec_iods (s : State) (a b : Nat) (l : List Byte) : (s.logRec a b l).iods = s.iods := rfl

/-! ## Reading back -/

@[simp] theorem setGroup_groups (s : State) (g : Group) :
    (s.setGroup g).groups = s.groups.map fun h => if h.key = g.key then g else h := rfl

theorem part_setPart (s : State) (p q : Nat) (x : Part) :
    (s.setPart p x).part q = if q = p ∧ p < s.parts.length then x else s.part q := by
  simp only [State.part, State.setPart, List.getD_eq_getElem?_getD, List.getElem?_set]
  by_cases h : q = p
  · subst h
    by_cases hl : q < s.parts.length
    · simp [hl]
    · simp [hl]
  · simp [h, Ne.symm h]

theorem part_updPart (s : State) (p : Nat) (f : Part → Part) (h : p < s.parts.length) : (s.updPart p f).part p = f (s.part p) := by
  rw [State.updPart, part_setPart, if_pos ⟨rfl, h⟩]

theorem part_updPart_other (s : State) {p q : Nat} (h : q ≠ p) (f : Part → Part) : (s.updPart p f).part q = s.part q := by
  rw [State.updPart, part_setPart, if_neg fun x => h x.1]

theorem die_setDie (s : State) (d e : Nat) (x : Die) :
    (s.setDie d x).die e = if e = d ∧ d < s.dies.length then x else s.die e := by
  simp only [State.die, State.setDie, List.getD_eq_getElem?_getD, List.getElem?_set]
  by_cases h : e = d
  · subst h
    by_cases hl : e < s.dies.length
    · simp [hl]
    · simp [hl]
  · simp [h, Ne.symm h]

theorem iod_setIod (s : State) (d e : Nat) (x : Iod) :
    (s.setIod d x).iod e = if e = d ∧ d < s.iods.length then x else s.iod e := by
  simp only [State.iod, State.setIod, List.getD_eq_getElem?_getD, List.getElem?_set]
  by_cases h : e = d
  · subst h
    by_cases hl : e < s.iods.length
    · simp [hl]
    · simp [hl]
  · simp [h, Ne.symm h]

/-- A team change keeps the keys of the teams: the changed team is found under its key, every other as it was. -/
theorem team_updTeam (s : State) (k q : TeamKey) (f : Team → Team) (hf : ∀ t : Team, (f t).key = t.key) :
    (s.updTeam k f).team? q = if q = k then (s.team? q).map f else s.team? q := by
  simp only [State.team?, State.updTeam]
  induction s.teams with
  | nil => simp
  | cons t r ih =>
    rw [List.map_cons, List.find?_cons, List.find?_cons]
    by_cases hk : t.key = k
    · by_cases hq : t.key = q
      · have : q = k := hq ▸ hk
        simp [hk, hf, this]
      · have hqk : ¬q = k := fun e => hq (hk.trans e.symm)
        simp only [hk, if_true, hf, hqk, if_false]
        simp only [show (k = q) = False from eq_false (Ne.symm hqk), decide_false]
        rw [ih, if_neg hqk]
    · by_cases hq : t.key = q
      · have hqk : ¬q = k := fun e => hk (hq.trans e)
        simp [hq, hqk]
      · simp only [hk, if_false, hq, decide_false]
        exact ih

/-- A change of one core rank leaves the key of its team. -/
@[simp] theorem updRank_key (t : Team) (r : Nat) (f : Rank → Rank) : (t.updRank r f).key = t.key := by
  rw [Team.updRank]
  split <;> rfl

/-- What a change of one core rank leaves at a core rank of any team. -/
theorem rank_updRank (s : State) (k : TeamKey) (r : Nat) (f : Rank → Rank) (q : TeamKey) (n : Nat) :
    (s.updRank k r f).rank? q n = if q = k ∧ n = r then (s.rank? q n).map f else s.rank? q n := by
  rw [State.rank?, State.updRank, team_updTeam s k q _ fun t => updRank_key t r f]
  by_cases hq : q = k
  · subst hq
    rw [if_pos rfl, State.rank?]
    cases s.team? q with
    | none => simp
    | some t =>
      simp only [Option.map_some, Option.bind_some, Team.updRank]
      split
      · next x hx =>
        by_cases hn : n = r
        · subst hn
          have hl : n < t.ranks.length := (List.getElem?_eq_some_iff.mp hx).1
          simp [List.getElem?_set_self hl, hx]
        · rw [List.getElem?_set_ne (Ne.symm hn), if_neg fun x => hn x.2]
      · next hx =>
        by_cases hn : n = r
        · subst hn; simp [hx]
        · rw [if_neg fun x => hn x.2]
  · rw [if_neg hq, if_neg fun x => hq x.1, State.rank?]

/-! ## Numbered lists -/

theorem assoc_put_same {α : Type} (l : List (Nat × α)) (n : Nat) (x : α) : assoc (assocPut l n x) n = some x := by
  simp [assoc, assocPut]

theorem assoc_put_other {α : Type} (l : List (Nat × α)) {n m : Nat} (h : m ≠ n) (x : α) : assoc (assocPut l n x) m = assoc l m := by
  simp only [assoc, assocPut, List.find?_cons, Ne.symm h, decide_false]
  congr 1
  induction l with
  | nil => rfl
  | cons e r ih =>
    by_cases he : e.1 = n
    · simp [he, Ne.symm h]
      simpa using ih
    · simp only [List.filter_cons, ne_eq, he, not_false_eq_true, decide_true, if_true, List.find?_cons]
      split
      · rfl
      · exact ih

theorem assoc_del_same {α : Type} (l : List (Nat × α)) (n : Nat) : assoc (assocDel l n) n = none := by
  simp [assoc, assocDel]

end Sys2Proof.Laws
end

