-- ==== Sys2Proof/Tests/Slice0.lean ====
section
/-! SUPPORT. Tests/Slice0.lean: the model's own tests: well-formedness, words of the manual, one step on small states, and for every
statement with hypotheses a state and operands that meet them. -/

namespace Sys2Proof.Tests

set_option Elab.async false

open Sys2Proof.Machine Sys2Proof.Claims Sys2Proof.Laws

/-! ## A small machine: one team of sixteen threads, its code and data at virtual 0x1000 -/

/-- No guard, and a guard that no lane passes. -/
def c0 : Ctl := ⟨⟨false, 15⟩, ⟨false, 15⟩, false, false⟩
def cOff : Ctl := ⟨⟨true, 15⟩, ⟨true, 15⟩, false, false⟩

def lau : Launch := { loaderLaunch with args := [0x1100, 0, 3, 0x100, 0x1000], shape := 0x00100000 }

def team0 : Team := Team.fresh loaderTeam 0 lau [loaderCore] 0 [] 0 0

def grp0 : Group := (teamGroups loaderTeam 0 lau [loaderCore] 0).headD default

def rank0 : Rank := team0.ranks.headD default

def pc0 : Dword := 0x1000

def run0 : Mask := 0xFFFF

/-- The machine with the loader's partition, and the group `g` served at `pc0`. -/
def world : State := State.reset.loaderGroup

def stOf (g : Group) (r : Rank) : State :=
  { world with groups := [g], teams := [{ team0 with ranks := [r] }], issue := some ⟨g.key, run0, pc0⟩ }

def st0 : State := stOf grp0 rank0

theorem turn_of (g : Group) (r : Rank) (hp : run0 &&& g.arch.parked = 0) : Turn (stOf g r) g run0 pc0 :=
  ⟨by simp [State.group?, stOf], rfl, hp⟩

theorem admitted_of {i : Instr} (g : Group) (r : Rank) (hp : run0 &&& g.arch.parked = 0) (hr : i.regs.all g.declares = true) :
    Admitted i c0 (stOf g r) g run0 pc0 := ⟨turn_of g r hp, fun h => (by cases h), hr⟩

theorem sound_of {g : Group} (hs : g.arch.pois = []) (i : Instr) (run m : Mask) : Untainted i g run m := by
  simp [Untainted, Served.tainted, hs]

theorem order_of {g : Group} (hc : g.commits = []) (i : Instr) : g.holdsBack i = false := by
  simp [Group.holdsBack, hc]

theorem ready_of {g : Group} (hr : g.rob = []) (i : Instr) (run : Mask) : g.unready i run = false := by
  simp [Group.unready, Group.branching, hr]

theorem able_of {i : Instr} (g : Group) (r : Rank) (hp : run0 &&& g.arch.parked = 0) (hr : i.regs.all g.declares = true)
    (hl : run0 &&& guardOf g.arch c0 ≠ 0) (hs : g.arch.pois = [] := by decide +kernel) (hc : g.commits = [] := by decide +kernel)
    (hb : g.rob = [] := by decide +kernel) : Able i c0 (stOf g r) g run0 pc0 :=
  ⟨admitted_of g r hp hr, hl, sound_of hs i _ _, order_of hc i, ready_of hb i _⟩

theorem able0 (l : List Instr) (h : (l.all fun i => i.regs.all grp0.declares) = true) : ∀ i ∈ l, Able i c0 st0 grp0 run0 pc0 := by
  intro i hi
  exact able_of grp0 rank0 (by decide +kernel) (List.all_eq_true.mp h i hi) (by decide +kernel)

theorem able1 (i : Instr) (h : i.regs.all grp0.declares = true) : Able i c0 st0 grp0 run0 pc0 := able0 [i] (by simp [h]) i (by simp)

theorem gathered0 (l : List Instr) (h : (l.all fun i => i.regs.all grp0.declares) = true) :
    ∀ i ∈ l, Gathered i c0 st0 grp0 run0 pc0 := by
  intro i hi
  exact ⟨admitted_of grp0 rank0 (by decide +kernel) (List.all_eq_true.mp h i hi), by decide +kernel, by decide +kernel,
    by decide +kernel, sound_of (by decide +kernel) i _ _, order_of (by decide +kernel) i⟩

/-- A commit point that has dispatched for the whole run, with a checkpoint of its own. -/
def commit0 : Commit := ⟨pc0, 0, false, run0, 0, [], [], false, 0, false⟩

/-- The same group with a commit point that has dispatched and whose checkpoint is verified. -/
def gGate : Group := { grp0 with commit := some commit0 }

def stGate : State := stOf gGate rank0

theorem gate_of {i : Instr} (g : Group) (r : Rank) (hp : run0 &&& g.arch.parked = 0) (hr : i.regs.all g.declares = true)
    (hl : run0 &&& guardOf g.arch c0 ≠ 0) (hc : g.commit = some commit0) (hv : (g.verifiedAt 0 && g.drainedTo 0) = true)
    (hs : g.arch.pois = [] := by decide +kernel) : AtGate i c0 (stOf g r) g run0 pc0 commit0 :=
  ⟨turn_of g r hp, hr, hl, sound_of hs i _ _, ⟨hc, rfl, rfl⟩, .inr (by simpa [commit0] using hv)⟩

theorem gate0 (l : List Instr) (h : (l.all fun i => i.regs.all gGate.declares) = true) : ∀ i ∈ l, AtGate i c0 stGate gGate run0 pc0 commit0 := by
  intro i hi
  exact gate_of gGate rank0 (by decide +kernel) (List.all_eq_true.mp h i hi) (by decide +kernel) rfl (by decide +kernel)

theorem gate1 (i : Instr) (h : i.regs.all gGate.declares = true) : AtGate i c0 stGate gGate run0 pc0 commit0 :=
  gate0 [i] (by simp [h]) i (by simp)

theorem lanes_of {m : Mask} {P : Nat → Prop} (h : ∀ L ∈ List.range 64, m.has L = true → P L) : ∀ L, m.has L = true → P L :=
  fun L hl => h L (List.mem_range.mpr (mask_has_lt hl)) hl

def okAcc : LaneRes → Acc
  | .ok a => a
  | _ => ⟨0, 0, []⟩

def isOk : LaneRes → Bool
  | .ok _ => true
  | _ => false

theorem ok_of {x : LaneRes} (h : isOk x = true) : x = .ok (okAcc x) := by
  cases x <;> simp [isOk, okAcc] at *

/-- What the probe of each lane finds. -/
def accOf (s : State) (g : Group) (k : Access) (sp : Space) (size align : Nat) (ad : Nat → Nat) (L : Nat) : Acc :=
  okAcc (laneAcc s g k sp size align L (ad L))

theorem reaches_of {s : State} {g : Group} {m : Mask} {k : Access} {sp : Space} {size align : Nat} {ad : Nat → Nat}
    (h1 : ∀ L ∈ List.range 64, m.has L = true → isOk (laneAcc s g k sp size align L (ad L)) = true)
    (h2 : Unfenced g)
    (h3 : ∀ L ∈ List.range 64, m.has L = true → s.escape g (accOf s g k sp size align ad L) = false) :
    Reaches s g m k sp size align ad (accOf s g k sp size align ad) :=
  ⟨fun L hl => ok_of (lanes_of h1 L hl), h2, lanes_of h3⟩

/-! ## Statements about instructions -/

abbrev v0 : Opd := .vec 0
abbrev v2 : Opd := .vec 2
abbrev v4 : Opd := .vec 4
abbrev s0 : Opd := .scl 0
abbrev s1 : Opd := .scl 1
abbrev s2 : Opd := .scl 2
abbrev s3 : Opd := .scl 3
abbrev s4 : Opd := .scl 4
abbrev s5 : Opd := .scl 5
abbrev s6 : Opd := .scl 6
abbrev s7 : Opd := .scl 7
abbrev s8 : Opd := .scl 8
abbrev p1 : Opd := .prd 1

theorem meets_IntegerInstructions :
    ∀ i ∈ [Instr.iadd c0 true .s8 v0 v2 v4, .isub c0 false .n64 v0 v2 v4, .imul c0 .s32 v0 v2 v4, .imulh c0 .n32 v0 v2 v4,
      .imad c0 .s16 v0 v2 v4 v4, .imin c0 .s32 v0 v2 v4, .imax c0 .n8 v0 v2 v4, .iabs c0 true .s32 v0 v2, .ineg c0 false .s64 v0 v2,
      .and c0 .b32 v0 v2 v4, .or c0 .b64 v0 v2 v4, .xor c0 .b32 v0 v2 v4, .not c0 .b32 v0 v2, .shl c0 .b32 v0 v2 s2, .shr c0 .n64 v0 v2 s2,
      .sar c0 .s32 v0 v2 s2, .rot c0 .b32 v0 v2 s2, .bxt c0 .s32 v0 v2 s1 s2, .bins c0 .b32 v0 v2 v4 s1 s2, .bcnt c0 .b32 v0 v2,
      .lzc c0 .b64 v0 v2, .tzc c0 .b32 v0 v2, .brvs c0 .b32 v0 v2, .bperm c0 v0 v2 v4 s0, .ixa c0 .s64 v0 s0 v2 (.imm 2),
      .icmp c0 .lt .s32 p1 v2 v4, .pand c0 .xor p1 p1 (.prd 15), .sel c0 .b32 v0 p1 v2 v4, .mov c0 .b64 v0 s0, .movi c0 .fp64 v0 1,
      .movh c0 s0 0x2000, .scmovGet c0 v0 v2], Able i c0 st0 grp0 run0 pc0 := able0 _ (by decide +kernel)

theorem meets_BitCountsMeanWhatTheySay : (5 : Nat) < 2 ^ 3 ∧ (5 : Nat) ≠ 0 := by decide

/-- With a trap enabled for division by zero, and a zero to divide by. -/
def gTe : Group := { grp0 with arch := { grp0.arch with fpctl := 0x1F00 } }

theorem meets_FloatInstructions :
    (∀ i ∈ [Instr.fadd c0 .rne .fp32 v0 v2 v4, .fsub c0 .rz .fp16 v0 v2 v4, .fmul c0 .rne .fp64 v0 v2 v4, .ffma c0 .ru .bf16 v0 v2 v4 v4,
      .fmin c0 .fp32 v0 v2 v4, .fmax c0 .fp32 v0 v2 v4, .frnd c0 true .rz .fp32 v0 v2, .fscl c0 .rne .fp32 v0 v2 s2,
      .fcmp c0 .lt .fp32 p1 v2 v4, .fclass c0 .fp32 v0 v2, .frcp c0 .rne .fp32 v0 v2, .frsq c0 .rne .fp32 v0 v2, .fsqrt c0 .rne .fp32 v0 v2,
      .fex2 c0 .rne .fp32 v0 v2, .flg2 c0 .rne .fp32 v0 v2, .fsin c0 .rne .fp32 v0 v2, .fcos c0 .rne .fp32 v0 v2,
      .ftnh c0 .rne .fp32 v0 v2], Able i c0 st0 grp0 run0 pc0) ∧
    orFlags run0 (fun L => (fp1 grp0.arch .fp32 .rne v2 L frcpOf).2) &&& fpTe grp0.arch.fpctl = 0 ∧
    Able (.frcp c0 .rne .fp32 v0 v2) c0 (stOf gTe rank0) gTe run0 pc0 ∧
    orFlags run0 (fun L => (fp1 gTe.arch .fp32 .rne v2 L frcpOf).2) &&& fpTe gTe.arch.fpctl ≠ 0 :=
  ⟨able0 _ (by decide +kernel), by decide +kernel, able_of gTe rank0 (by decide +kernel) (by decide +kernel) (by decide +kernel),
    by decide +kernel⟩

theorem meets_Conversion :
    ∀ i ∈ [Instr.cvt c0 .sr false .plain .fp32 .bf16 v0 v2 .none, .cvt c0 .rne true .pk .e2m1 .fp32 v0 v2 (.imm 7)],
      Able i c0 st0 grp0 run0 pc0 ∧ grp0.rob = [] := fun i h => ⟨able0 _ (by decide +kernel) i h, rfl⟩

theorem meets_RoundingModes : (0xFFFF : Nat) < 2 ^ 16 ∧ ((0 : Int) ≤ 0 ∧ (-1 : Int) < 0) := by decide

theorem meets_FormatsRoundTrip :
    Ty.fp32 ∈ [Ty.fp64, .fp32, .fp16, .bf16, .e5m2, .e4m3, .e3m2, .e2m3, .e2m1] ∧ (1 : Nat) < 2 ^ Ty.fp32.bits ∧
      (fmtOf .fp32).unpack 1 = .fin false 1 (-149) := by decide +kernel

/-- A core rank with an element table in codebook slot 0. -/
def rankCb : Rank := { rank0 with cb := [(0, List.replicate 32 0x3F)] }

theorem meets_BlockScaledAndSidecars :
    (∀ i ∈ [Instr.mxadd c0 .rne .mxe4m3 v0 v2 v4, .mxmul c0 .rne .mxe4m3 v0 v2 v4, .mxfma c0 .rne .mxe4m3 v0 v2 v4 v4,
      .mxnorm c0 .rne .mxe4m3 v0 v2, .mxpack c0 .rne .mxe4m3 v0 v2, .mxunpk c0 .rne .mxe4m3 v0 v2 (.imm 3), .scmovPut c0 v0 v2],
        Able i c0 st0 grp0 run0 pc0) ∧
    (∀ q < mxBlocks .mxe4m3 grp0.w, (mxCover .mxe4m3 run0 q).isSome = true) ∧
    Able (.cbxp c0 .bf16 v0 v2 s1 (.imm 3)) c0 (stOf grp0 rankCb) grp0 run0 pc0 ∧
    (∃ r img, (stOf grp0 rankCb).rank? grp0.key.team grp0.rank = some r ∧ assoc r.cb (readRaw grp0.arch false s1 0).toNat = some img) ∧
    ∀ r, st0.rank? grp0.key.team grp0.rank = some r → assoc r.cb (readRaw grp0.arch false s1 0).toNat = none :=
  ⟨able0 _ (by decide +kernel), by decide +kernel, able_of grp0 rankCb (by decide +kernel) (by decide +kernel) (by decide +kernel),
    ⟨rankCb, List.replicate 32 0x3F, rfl, rfl⟩, fun r h => by injection (show some rank0 = some r from h) with h; subst h; rfl⟩

/-- A guard that passes in lane 0 alone. -/
def cOne : Ctl := ⟨⟨false, 1⟩, ⟨false, 15⟩, false, false⟩

def gOne : Group := { grp0 with arch := grp0.arch.setP 1 1 fun _ => true }

def gOneGate : Group := { gOne with commit := some commit0 }

theorem able_one (i : Instr) (r : Rank) (h : i.regs.all gOne.declares = true) : Able i cOne (stOf gOne r) gOne run0 pc0 :=
  ⟨⟨turn_of gOne r (by decide +kernel), fun h => (by cases h), h⟩, by decide +kernel, sound_of (by decide +kernel) i _ _,
    order_of (by decide +kernel) i, ready_of (by decide +kernel) i _⟩

theorem one_lane : active cOne gOne run0 = Mask.bit 0 := by decide +kernel

theorem meets_TrapsAndNoOps :
    ((Instr.iadd cOff false .s32 v0 v2 v4).ctl = some cOff ∧ actsAlone (.iadd cOff false .s32 v0 v2 v4) = false ∧
      Turn st0 grp0 run0 pc0 ∧ run0 ≠ 0 ∧ active cOff grp0 run0 = 0) ∧
    (active c0 grp0 run0 ≠ 0 ∧ (Instr.iadd c0 false .s32 (.vec 200) v2 v4).regs.all grp0.declares = false) ∧
    (Able (.mxadd cOne .rne .mxe4m3 v0 v2 v4) cOne (stOf gOne rank0) gOne run0 pc0 ∧ 1 < mxBlocks .mxe4m3 gOne.w ∧
      mxCover .mxe4m3 (active cOne gOne run0) 0 = none) ∧
    Able (.ld cOne .glob 0 .b32 v0 s2 .none .none) cOne (stOf gOne rank0) gOne run0 pc0 ∧ active cOne gOne run0 = Mask.bit 0 ∧
      (∀ x ∈ gOne.arch.mem.xfences, x.dst ≠ 0) ∧ addrSum gOne.arch (memBytes .b32) s2 .none .none 0 % memAlign .b32 ≠ 0 :=
  ⟨⟨rfl, rfl, turn_of grp0 rank0 (by decide +kernel), by decide +kernel⟩, by decide +kernel,
    ⟨able_one _ rank0 (by decide +kernel), by decide +kernel⟩, able_one _ rank0 (by decide +kernel), one_lane,
    by decide +kernel⟩

theorem meets_LaneInstructions :
    (∀ i ∈ [Instr.lxch c0 .xor .b32 v0 v2 s2, .lvote c0 .any p1 p1, .lvote c0 .bal s0 p1, .lred c0 .add .s32 v0 v2, .lscn c0 true .max .s32 v0 v2,
      .getl c0 .b32 s0 v2 s1, .putl c0 .b32 v0 s0 s1], Gathered i c0 st0 grp0 run0 pc0) ∧
    active c0 grp0 grp0.here ≠ 0 ∧ read32 grp0.arch s1 0 < grp0.w ∧
    (let t := { st0 with issue := some ⟨grp0.key, 0xF, pc0⟩ }
     Admitted (.lvote c0 .any p1 p1) c0 t grp0 0xF pc0 ∧ grp0.gathered 0xF pc0 = false ∧
       ({ grp0 with coll := grp0.coll ||| 0xF, blocked := grp0.blocked &&& ~~~0xF } : Group).mismatch = none) ∧
    Gathered (.lvote cOff .any p1 p1) cOff st0 grp0 run0 pc0 ∧ active cOff grp0 grp0.here = 0 :=
  ⟨gathered0 _ (by decide +kernel), by decide +kernel, by decide +kernel,
    ⟨⟨⟨by simp [State.group?, st0, stOf], rfl, by decide +kernel⟩, fun h => (by cases h), by decide +kernel⟩, by decide +kernel⟩,
    ⟨⟨turn_of grp0 rank0 (by decide +kernel), fun h => (by cases h), by decide +kernel⟩, by decide +kernel, by decide +kernel, by decide +kernel,
      sound_of (by decide +kernel) _ _ _, order_of (by decide +kernel) _⟩, by decide +kernel⟩

theorem meets_ReductionIsAFold : RedOp.xor ∈ [RedOp.add, .min, .max, .and, .or, .xor] := by decide

/-! ## Statements about memory -/

/-- The lanes' accesses through address term `s0`, the data at virtual 0x1100. -/
abbrev ad0 (g : Group) (size : Nat) : Nat → Nat := addrSum g.arch size s0 .none .none

theorem reach_ld : Reaches st0 grp0 (active c0 grp0 run0) .read .glob 4 4 (ad0 grp0 4) (accOf st0 grp0 .read .glob 4 4 (ad0 grp0 4)) :=
  reaches_of (by decide +kernel) (by decide +kernel) (by decide +kernel)

/-- Where no store has been made, a word is seen as it stands, from whatever moment. -/
theorem seen_flat {s : State} (h : s.ram.hist = []) (g : Group) (t : Target) (o : Option Nat) (w : Nat) :
    s.wordSeen g t o w = s.wordAt g.key.team t w := by
  cases o <;> simp [State.wordSeen, Ram.seenAt, Ram.shown, h]

/-- No word of an access is poisoned, where no store has been made. -/
def clearAcc (s : State) (g : Group) (a : Acc) : Bool :=
  a.chunks.all fun c => (wordsOf c.addr c.n).all fun w => !(s.wordAt g.key.team c.tgt w).pois

theorem clear_sound {s : State} {g : Group} {a : Acc} (hh : s.ram.hist = []) (hs : g.staged = []) (h : clearAcc s g a = true) : Sound s g a := by
  intro c hc
  refine ⟨fun w hw o => ?_, fun i _ => by simp [Group.fwdPois, hs]⟩
  rw [seen_flat hh]
  simpa using List.all_eq_true.mp (List.all_eq_true.mp h c hc) w hw

theorem sound_ld : ∀ L, (active c0 grp0 run0).has L = true → Sound st0 grp0 (accOf st0 grp0 .read .glob 4 4 (ad0 grp0 4) L) :=
  fun L hL => clear_sound rfl rfl (lanes_of (P := fun L => clearAcc st0 grp0 (accOf st0 grp0 .read .glob 4 4 (ad0 grp0 4) L) = true)
    (by decide +kernel) L hL)

theorem meets_LoadsReadMemory :
    (∀ i ∈ [Instr.ld c0 .glob 0 .b32 v0 s0 .none .none, .ldacq c0 .glob .device .b32 v0 s0 .none .none, .pref c0 .glob 2 .b32 s0 .none .none,
      .ldref c0 .glob 0 v0 s0 .none .none p1], Able i c0 st0 grp0 run0 pc0) ∧
    Reaches st0 grp0 (active c0 grp0 run0) .read .glob 4 4 (ad0 grp0 4) (accOf st0 grp0 .read .glob 4 4 (ad0 grp0 4)) ∧
    Unheld st0 grp0 (active c0 grp0 run0) (accOf st0 grp0 .read .glob 4 4 (ad0 grp0 4)) ∧
    (∀ L, (active c0 grp0 run0).has L = true → Sound st0 grp0 (accOf st0 grp0 .read .glob 4 4 (ad0 grp0 4) L)) ∧
    acquireCheck st0 grp0 .device (reachHome grp0 (perLane false (active c0 grp0 run0)
      ((active c0 grp0 run0).lanes.map (accOf st0 grp0 .read .glob 4 4 (ad0 grp0 4))))) = .go ∧ grp0.posted = false ∧
    Reaches st0 grp0 (active c0 grp0 run0) .read .glob 8 8 (ad0 grp0 8) (accOf st0 grp0 .read .glob 8 8 (ad0 grp0 8)) :=
  ⟨able0 _ (by decide +kernel), reach_ld, by unfold Unheld; decide +kernel, sound_ld, rfl, by decide +kernel,
    reaches_of (by decide +kernel) (by decide +kernel) (by decide +kernel)⟩

/-- How many staging entries an effect of its kind alone takes. -/
def kindEntries (x : Bool × EffectKind) : Nat := Effect.entries ⟨0, 0, x.2, 0, none, x.1, false, [], []⟩

theorem entries_of {e : Effect} (h1 : e.cls = 0) (h2 : e.held = false) : e.entries = kindEntries (e.away, e.kind) := by
  simp [kindEntries, Effect.entries, h1, h2]

theorem room_st {ps : List (Bool × Piece)} {tag : TagOp} {sc : Option Scope}
    (h : ((([false, true].filter fun away => !((ps.filter fun p => p.1 == away).map Prod.snd).isEmpty).map fun away =>
      (away, EffectKind.write ((ps.filter fun p => p.1 == away).map Prod.snd) tag sc)).map kindEntries).sum ≤ 512) :
    ∀ es, Stages ps tag sc es → st0.entriesUsed grp0.core + (es.map Effect.entries).sum ≤ 512 := by
  intro es hs
  rw [← hs.1, List.map_map] at h
  have e : es.map Effect.entries = es.map (kindEntries ∘ fun e => (e.away, e.kind)) :=
    List.map_congr_left fun e he => entries_of (hs.2 e he).1 (hs.2 e he).2.1
  have : st0.entriesUsed grp0.core = 0 := by decide +kernel
  rw [e]
  omega

theorem meets_StoresAreStaged :
    (∀ i ∈ [Instr.st c0 .glob 0 .b32 v0 s0 .none .none, .strel c0 .glob .device .b32 v0 s0 .none .none, .stref c0 .glob 0 v0 s0 .none .none],
      Able i c0 st0 grp0 run0 pc0) ∧
    Reaches st0 grp0 (active c0 grp0 run0) .write .glob 8 8 (ad0 grp0 8) (accOf st0 grp0 .write .glob 8 8 (ad0 grp0 8)) ∧
    (∀ L, (active c0 grp0 run0).has L = true → deviceOnly (accOf st0 grp0 .write .glob 8 8 (ad0 grp0 8) L) = none) ∧
    ∀ es, Stages (storePieces grp0.rank 0 (active c0 grp0 run0) false (accOf st0 grp0 .write .glob 8 8 (ad0 grp0 8))
      fun L => leBytes 8 (memVal grp0.arch .b64 v0 L)) .set none es → st0.entriesUsed grp0.core + (es.map Effect.entries).sum ≤ 512 :=
  ⟨able0 _ (by decide +kernel), reaches_of (by decide +kernel) (by decide +kernel) (by decide +kernel), lanes_of (by decide +kernel),
    room_st (by decide +kernel)⟩

def piece0 : Piece := ⟨.mem, 8, [1, 2], 0, false⟩

def eff0 : Effect := ⟨0, 0, .write [piece0] .clear none, 0, none, false, false, [], []⟩

theorem meets_YoungestStoreForwards :
    eff0.kind = .write [piece0] .clear none ∧ (piece0.tgt = .mem ∧ piece0.addr ≤ 9 ∧ piece0.data[9 - piece0.addr]? = some 2) ∧
      (piece0.addr + piece0.data.length ≤ 10 ∧ 7 < piece0.addr) := by decide +kernel

theorem meets_ScratchpadLimits :
    (4094 % 4 ≠ 0) ∧ (4096 % 4 = 0 ∧ st0.allot grp0 < 4096 + 4) ∧ (4092 % 4 = 0 ∧ 4092 + 4 ≤ st0.allot grp0) ∧
      (4096 % 4 = 0 ∧ st0.allot grp0 < 4096 % 2 ^ 18 + 4) ∧
      (4092 = 0 * 2 ^ 24 + 4092 ∧ 0 < 16 ∧ 4092 < 2 ^ 18 ∧ 4092 % 4 = 0 ∧ 0 < st0.rankCount grp0 ∧ 4092 + 4 ≤ st0.allot grp0) := by decide +kernel

/-- The machine with the data line held in M by the group's core. -/
def owned (s : State) : State := { s with coh := { s.coh with lines := [⟨0x20100, .m, some loaderCore, [loaderCore], false, none⟩] } }

theorem owned_gate {i : Instr} {c : Ctl} {s : State} {g : Group} {run : Mask} {pc : Dword} {k : Commit} (h : AtGate i c s g run pc k) :
    AtGate i c (owned s) g run pc k := ⟨⟨h.here, h.issue, h.free⟩, h.regs, h.lanes, h.sound, h.mine, h.gate⟩

theorem meets_LineLocks :
    let s := owned stGate
    let acc := accOf s gGate .read .glob 1 1 (ad0 gGate 4)
    let lines := (lockLines ((active c0 gGate run0).lanes.map acc)).map Prod.fst
    (∀ i ∈ [Instr.llock c0 .glob s0 .none, .lunlk c0 .glob s0 .none], AtGate i c0 s gGate run0 pc0 commit0) ∧
    Reaches s gGate (active c0 gGate run0) .read .glob 1 1 (ad0 gGate 4) acc ∧
    (∀ L, (active c0 gGate run0).has L = true → windowPage (acc L) = false) ∧ lines.length + (s.coreLocks gGate.core).length ≤ 16 ∧
    lines ≠ [] ∧ ∀ l ∈ lines, s.lockOf l = none ∧ s.coh.owns gGate.core l = true :=
  ⟨fun i h => owned_gate (gate0 _ (by decide +kernel) i h), reaches_of (by decide +kernel) (by decide +kernel) (by decide +kernel),
    lanes_of (by decide +kernel), by decide +kernel⟩

theorem gate_one (i : Instr) (r : Rank) (h : i.regs.all gOneGate.declares = true) : AtGate i cOne (stOf gOneGate r) gOneGate run0 pc0 commit0 :=
  ⟨turn_of gOneGate r (by decide +kernel), h, by decide +kernel, sound_of (by decide +kernel) i _ _, ⟨rfl, rfl, rfl⟩, .inr (by decide +kernel)⟩

/-- The one chunk of an access. -/
def headChunk (a : Acc) : Chunk := a.chunks.headD ⟨.mem, 0, 0, none, 0⟩

/-- An atomic finds its lane's access ready. -/
def atomReady (s : State) (g : Group) (op : Option RedOp) (ty : Ty) (a : Acc) : Bool :=
  decide (a.chunks.map Chunk.n = [memBytes ty]) && (atomOk op ty a).isNone && !windowPage a &&
    (a.lines.all fun x => !x.2.cacheable || s.coh.owns g.core x.1) &&
    !(s.wordAt g.key.team (headChunk a).tgt ((headChunk a).addr / 8 * 8)).pois &&
    match (headChunk a).tgt with
    | .scr r => decide (r < s.rankCount g)
    | _ => true

theorem atom_ready {s : State} {g : Group} {m : Mask} {op : Option RedOp} {ty : Ty} {acc : Nat → Acc}
    (h : ∀ L ∈ List.range 64, m.has L = true → atomReady s g op ty (acc L) = true) :
    ∀ L, m.has L = true → (∃ p va, (acc L).chunks = [⟨(headChunk (acc L)).tgt, (headChunk (acc L)).addr, memBytes ty, p, va⟩]) ∧
      atomOk op ty (acc L) = none ∧ windowPage (acc L) = false ∧
      (∀ x ∈ (acc L).lines, x.2.cacheable = true → s.coh.owns g.core x.1 = true) ∧
      (s.wordAt g.key.team (headChunk (acc L)).tgt ((headChunk (acc L)).addr / 8 * 8)).pois = false ∧
      ∀ r, (headChunk (acc L)).tgt = .scr r → r < s.rankCount g := by
  intro L hL
  have h := lanes_of h L hL
  simp only [atomReady, Bool.and_eq_true, decide_eq_true_eq, Option.isNone_iff_eq_none, Bool.not_eq_true', List.all_eq_true,
    Bool.or_eq_true] at h
  obtain ⟨⟨⟨⟨⟨h1, h2⟩, h3⟩, h4⟩, h5⟩, h6⟩ := h
  refine ⟨?_, h2, h3, fun x hx hc => (h4 x hx).resolve_left (by simp [hc]), h5, fun r hr => by simpa [hr] using h6⟩
  unfold headChunk
  cases hc : (acc L).chunks with
  | nil => simp [hc] at h1
  | cons x l =>
    have ⟨hn, hl⟩ : x.n = memBytes ty ∧ l = [] := by simpa [hc] using h1
    exact ⟨x.phys, x.va, by cases x; simp_all⟩

/-- The lanes' atomics in a space. -/
abbrev atAcc (s : State) (sp : Space) (n : Nat) : Nat → Acc := accOf s gGate .atomic sp n n (addrSum gGate.arch n (if sp = .glob then s0 else s1) .none .none)

theorem meets_Atomics :
    (∀ i ∈ [Instr.atom c0 .add .acqRel .device .own .n32 v0 s1 .none v2, .acas c0 .device .own .b32 v0 s1 .none v2],
      AtGate i c0 stGate gGate run0 pc0 commit0) ∧ MemoryOk stGate ∧
    Reaches stGate gGate (active c0 gGate run0) .atomic .own 4 4 (addrSum gGate.arch 4 s1 .none .none) (atAcc stGate .own 4) ∧
    stGate.lockedOut gGate ((active c0 gGate run0).lanes.map (atAcc stGate .own 4)) = false ∧
    acquireCheck stGate gGate .device ((active c0 gGate run0).lanes.map fun L => (Mask.bit L, atAcc stGate .own 4 L)) = .go ∧
    (∀ L ∈ List.range 64, (active c0 gGate run0).has L = true → atomReady stGate gGate (some .add) .n32 (atAcc stGate .own 4 L) = true) ∧
    let s := owned stGate
    (∀ i ∈ [Instr.atom c0 .fmin .release .device .glob .fp32 v0 s0 .none v2, .acas c0 .device .glob .b64 v0 s0 .none v2],
      AtGate i c0 s gGate run0 pc0 commit0) ∧ MemoryOk s ∧
    Reaches s gGate (active c0 gGate run0) .atomic .glob 8 8 (addrSum gGate.arch 8 s0 .none .none) (atAcc s .glob 8) ∧
    s.lockedOut gGate ((active c0 gGate run0).lanes.map (atAcc s .glob 8)) = false ∧
    acquireCheck s gGate .device ((active c0 gGate run0).lanes.map fun L => (Mask.bit L, atAcc s .glob 8 L)) = .go ∧
    ∀ L ∈ List.range 64, (active c0 gGate run0).has L = true → atomReady s gGate none .b64 (atAcc s .glob 8 L) = true :=
  ⟨gate0 _ (by decide +kernel), by unfold MemoryOk; decide +kernel, reaches_of (by decide +kernel) (by decide +kernel) (by decide +kernel),
    by decide +kernel, rfl, by decide +kernel,
    fun i h => owned_gate (gate0 _ (by decide +kernel) i h), by unfold MemoryOk; decide +kernel,
    reaches_of (by decide +kernel) (by decide +kernel) (by decide +kernel), by decide +kernel, rfl, by decide +kernel⟩

/-- A 64-bit atomic on a scratchpad, and one that is not aligned. -/
theorem meets_Atomics_traps :
    (∀ i ∈ [Instr.atom c0 .add .relaxed .core .own .n64 v0 s1 .none v2, .acas c0 .core .own .b64 v0 s1 .none v2],
      AtGate i c0 stGate gGate run0 pc0 commit0) ∧ Ty.n64.wide = true ∧ Space.own ≠ .glob ∧
    Reaches stGate gGate (active c0 gGate run0) .atomic .own 8 8 (addrSum gGate.arch 8 s1 .none .none) (atAcc stGate .own 8) ∧
    AtGate (.atom cOne .add .relaxed .core .own .n32 v0 s2 .none v2) cOne (stOf gOneGate rank0) gOneGate run0 pc0 commit0 ∧
    active cOne gOneGate run0 = Mask.bit 0 ∧ Unfenced gOneGate ∧ addrSum gOneGate.arch (memBytes .n32) s2 .none .none 0 % memBytes .n32 ≠ 0 :=
  ⟨gate0 _ (by decide +kernel), by decide, by decide, reaches_of (by decide +kernel) (by decide +kernel) (by decide +kernel),
    gate_one _ _ (by decide +kernel), by decide +kernel⟩

theorem meets_Fences :
    (∀ i ∈ [Instr.fence c0 .acq .device, .fence c0 .rel .cluster, .fence c0 .ar .system, .xfence c0 0 1 .group], Able i c0 st0 grp0 run0 pc0) ∧
    AtGate (.fence c0 .sc .device) c0 stGate gGate run0 pc0 commit0 ∧ (0 : Nat) < grp0.arch.mem.threads.length :=
  ⟨able0 _ (by decide +kernel), gate1 _ (by decide +kernel), by decide +kernel⟩

theorem meets_ObjectInit :
    let acc := fun L => okAcc (objAcc st0 grp0 L (baseTerm grp0.arch s0 L).toNat (readRaw grp0.arch false s3 L).toNat)
    Able (.objinit c0 s0 s3) c0 st0 grp0 run0 pc0 ∧
    (∀ L, (active c0 grp0 run0).has L = true →
      objAcc st0 grp0 L (baseTerm grp0.arch s0 L).toNat (readRaw grp0.arch false s3 L).toNat = .ok (acc L) ∧
      st0.escape grp0 (acc L) = false ∧ deviceOnly (acc L) = none) ∧
    (∀ x ∈ grp0.arch.mem.xfences, x.dst ≠ 0) ∧ st0.entriesUsed grp0.core + (active c0 grp0 run0).lanes.length ≤ 512 :=
  ⟨able1 _ (by decide +kernel),
    lanes_of fun L hL hm => ⟨ok_of (by revert L; decide +kernel), by revert L; decide +kernel, by revert L; decide +kernel⟩,
    by decide +kernel⟩

theorem one_only : ∀ L, (active cOne gOneGate run0).has L = true → L = 0 := lanes_of (by decide +kernel)

theorem meets_PublicationStores :
    let s := owned (stOf gOneGate rank0)
    let acc := accOf s gOneGate .write .glob 8 8 (ad0 gOneGate 8) 0
    ∃ pa p va, acc = ⟨0, va, [⟨.mem, pa, 8, some p, va⟩]⟩ ∧
      AtGate (.pub cOne .device s1 s0 .none) cOne s gOneGate run0 pc0 commit0 ∧ active cOne gOneGate run0 = Mask.bit 0 ∧
      Reaches s gOneGate (active cOne gOneGate run0) .write .glob 8 8 (ad0 gOneGate 8) (fun _ => acc) ∧ s.ram.mem.wf = true ∧
      pa % 8 = 0 ∧ deviceOnly acc = none ∧ s.lockedOut gOneGate [acc] = false ∧ s.coh.owns gOneGate.core (pa / 64 * 64) = true ∧
      gOneGate.walk = none ∧ s.droverBusy gOneGate s.coh.nextId = false ∧
      let v := s.keepAcc false gOneGate [acc]
      ∃ u w, walkRun gOneGate walkFuel { v with coh := { v.coh with nextId := s.coh.nextId + 1 } }
        (Walk.start s.coh.nextId 0 (readRaw gOneGate.arch true s1 0).toNat) = .done u w := by
  refine ⟨0x20100, ⟨0x20100, 0x2020F, 0x1000, 4096⟩, 0x1100, rfl, owned_gate (gate_one _ _ (by decide +kernel)), by decide +kernel,
    ⟨fun L hL => ?_, by decide +kernel, fun _ _ => by decide +kernel⟩, by decide +kernel, rfl, by decide +kernel, by decide +kernel,
    by decide +kernel, rfl, by decide +kernel, _, _, rfl⟩
  rw [one_only L hL]
  exact ok_of (by decide +kernel)

theorem meets_HoldWaits :
    let acc := accOf st0 grp0 .read .glob 4 4 (ad0 grp0 4)
    let i := fun cmp => Instr.holdw c0 .glob 0 .b32 p1 s0 .none cmp (.imm 100)
    (∀ j ∈ [i (.imm 4), i (.imm 0)], Able j c0 st0 grp0 run0 pc0) ∧
    Reaches st0 grp0 (active c0 grp0 run0) .read .glob (memBytes .b32) (memAlign .b32) (addrSum grp0.arch (memBytes .b32) s0 .none .none) acc ∧
    (∀ L, (active c0 grp0 run0).has L = true → st0.peek grp0 (acc L) ≠ readBits grp0.arch .b32 (.imm 4) L) ∧
    Unheld st0 grp0 (active c0 grp0 run0) acc ∧ (∀ L, (active c0 grp0 run0).has L = true → Sound st0 grp0 (acc L)) ∧
    (∀ L, (active c0 grp0 run0).has L = true → st0.peek grp0 (acc L) = readBits grp0.arch .b32 (.imm 0) L) ∧ grp0.holds = [] ∧
    0 < holdTime grp0.arch (.imm 100) :=
  ⟨able0 _ (by decide +kernel), reach_ld, lanes_of (by decide +kernel), by unfold Unheld; decide +kernel, sound_ld, lanes_of (by decide +kernel),
    rfl, by decide +kernel⟩

/-! ## Statements about shape records and engine commands -/

theorem able_any {i : Instr} {c : Ctl} {s : State} {g : Group} {run : Mask} {pc : Dword} (h1 : s.group? g.key = some g)
    (h2 : s.issue = some ⟨g.key, run, pc⟩) (h3 : run &&& g.arch.parked = 0) (h4 : c.hd = false) (h5 : i.regs.all g.declares = true)
    (h6 : run &&& guardOf g.arch c ≠ 0) (hs : g.arch.pois = [] := by decide +kernel) (hc : g.commits = [] := by decide +kernel)
    (hb : g.rob = [] := by decide +kernel) : Able i c s g run pc :=
  ⟨⟨⟨h1, h2, h3⟩, fun h => (by simp [h4] at h), h5⟩, h6, sound_of hs i _ _, order_of hc i, ready_of hb i _⟩

/-- The bytes of an access, as they stand. -/
def bytesNow (s : State) (g : Group) (a : Acc) : List Byte :=
  a.chunks.flatMap fun c => (List.range c.n).map fun i =>
    (s.wordAt g.key.team c.tgt ((c.addr + i) / 8 * 8)).val.extractLsb' (8 * ((c.addr + i) % 8)) 8

/-- Where no store has been made and none is staged, a load reads one value. -/
theorem readings_now {s : State} {g : Group} {floor : View} {a : Acc} {l : List Byte} (hh : s.ram.hist = []) (hs : g.staged = [])
    (hr : Readings s g floor a l) : l = bytesNow s g a := by
  obtain ⟨ls, hl, rfl⟩ := hr
  unfold bytesNow
  generalize a.chunks = cs at hl
  induction hl with
  | nil => rfl
  | cons h _ ih =>
    obtain ⟨mo, -, rfl⟩ := h
    simp [byteSeen, Group.fwdByte, seen_flat hh, hs, ih]

/-- A record of sixteen 32-bit elements at virtual 0x1100 (Table 10-4), and the machine with it in memory. -/
def rec0 : List Byte :=
  leBytes 8 0x1100 ++ leBytes 4 0x103 ++ leBytes 4 0 ++ leBytes 4 16 ++ ((List.replicate 6 (leBytes 4 1)).flatten) ++ leBytes 6 1 ++
    List.replicate 36 0 ++ leBytes 2 16 ++ (List.replicate 6 (leBytes 2 1)).flatten ++ List.replicate 28 0

def stRec : State := { st0 with ram := { st0.ram with mem := st0.ram.mem.putNum 0x20100 128 (leNat rec0) } }

abbrev adRec : Nat → Nat := fun L => (baseTerm grp0.arch s0 L).toNat

theorem low0 : (active c0 grp0 run0).low? = some 0 := by decide +kernel

theorem meets_RecordLoads :
    let acc := accOf stRec grp0 .read .glob 128 128 adRec
    let acc32 := accOf stRec grp0 .read .glob 32 32 adRec
    (Able (.kld c0 (.kreg 5) s0) c0 stRec grp0 run0 pc0 ∧ Reaches stRec grp0 (active c0 grp0 run0) .read .glob 128 128 adRec acc ∧
      Unheld stRec grp0 (active c0 grp0 run0) acc ∧ (∀ L, (active c0 grp0 run0).has L = true → Sound stRec grp0 (acc L)) ∧
      ∀ L l, (active c0 grp0 run0).low? = some L → Readings stRec grp0 (grp0.viewOf (active c0 grp0 run0)) (acc L) l → recOk l = true) ∧
    Able (.cbld c0 s1 s0) c0 stRec grp0 run0 pc0 ∧ Reaches stRec grp0 (active c0 grp0 run0) .read .glob 32 32 adRec acc32 ∧
      Unheld stRec grp0 (active c0 grp0 run0) acc32 ∧ (∀ L, (active c0 grp0 run0).has L = true → Sound stRec grp0 (acc32 L)) ∧
      (readRaw grp0.arch true s1 0).toNat = 0 ∧ (rankOfG stRec grp0).readsSlot 0 = false ∧ stRec.cbUsed grp0.core < 64 ∧
      (assoc (rankOfG (stOf grp0 rankCb) grp0).cb 0).isSome = true := by
  refine ⟨⟨able_any rfl rfl (by decide +kernel) rfl (by decide +kernel) (by decide +kernel),
    reaches_of (by decide +kernel) (by decide +kernel) (by decide +kernel), by unfold Unheld; decide +kernel,
    fun L hL => clear_sound rfl rfl (lanes_of (P := fun L => clearAcc stRec grp0 (accOf stRec grp0 .read .glob 128 128 adRec L) = true)
      (by decide +kernel) L hL), ?_⟩,
    able_any rfl rfl (by decide +kernel) rfl (by decide +kernel) (by decide +kernel),
    reaches_of (by decide +kernel) (by decide +kernel) (by decide +kernel), by unfold Unheld; decide +kernel,
    fun L hL => clear_sound rfl rfl (lanes_of (P := fun L => clearAcc stRec grp0 (accOf stRec grp0 .read .glob 32 32 adRec L) = true)
      (by decide +kernel) L hL), by decide +kernel⟩
  intro L l hL hr
  rw [low0] at hL
  cases hL
  rw [readings_now rfl rfl hr]
  decide +kernel

/-- A rank with that record in shape register 5. -/
def rankK : Rank := { rank0 with k := [(5, rec0)] }

theorem ableK (i : Instr) (r : Rank) (h : i.regs.all grp0.declares = true) : Able i c0 (stOf grp0 r) grp0 run0 pc0 :=
  able_of grp0 r (by decide +kernel) h (by decide +kernel)

theorem meets_RecordFieldSet :
    let k := fun n x => Instr.kset c0 (.kreg 5) (.imm n) x
    let new := fun n x => ((recSet rec0 n (readRaw grp0.arch true x 0)).getD [])
    (Able (k 2 s2) c0 (stOf grp0 rankK) grp0 run0 pc0 ∧ assoc (rankOfG (stOf grp0 rankK) grp0).k 5 = some rec0 ∧
      recSet rec0 2 (readRaw grp0.arch true s2 0) = some (new 2 s2) ∧ recOk (new 2 s2) = true) ∧
    (Able (k 2 s2) c0 st0 grp0 run0 pc0 ∧ assoc (rankOfG st0 grp0).k 5 = none) ∧
    (Able (k 24 s2) c0 (stOf grp0 rankK) grp0 run0 pc0 ∧ 23 < (immVal (.imm 24)).toNat) ∧
    (Able (k 3 s1) c0 (stOf grp0 rankK) grp0 run0 pc0 ∧ recSet rec0 3 (readRaw grp0.arch true s1 0) = some (new 3 s1) ∧
      recOk (new 3 s1) = false) ∧
    recSet rec0 17 0x10000 = none ∧ rec0.length = 128 ∧ (recSet rec0 16 (BitVec.ofInt 64 (-1))).isSome = true := by
  refine ⟨⟨ableK _ _ (by decide +kernel), by decide +kernel⟩,
    ⟨able1 _ (by decide +kernel), by decide +kernel⟩, ⟨ableK _ _ (by decide +kernel), by decide⟩,
    ⟨ableK _ _ (by decide +kernel), by decide +kernel⟩, by decide +kernel⟩

/-- The scalars of a box command: s5 = 0x100, an own-scratchpad offset, and s6 = 0, a coordinate. -/
def gBox : Group := { grp0 with arch := grp0.arch.setS 5 0x100 }

def unitsBox : List Unit_ := boxUnits rec0 (List.replicate 7 0) none

def kTld : BoxKind := ⟨1, .tld, true, false⟩

def okTarget (x : Except Res BoxTarget) : BoxTarget := match x with
  | .ok x => x
  | .error _ => ⟨st0, .mem, 0, none, []⟩

/-- A two-dimensional record, for GATH and SCAT: rows of one 32-bit element. -/
def rec2 : List Byte :=
  leBytes 8 0x1100 ++ leBytes 4 0x203 ++ leBytes 4 0 ++ leBytes 4 1 ++ leBytes 4 16 ++ ((List.replicate 5 (leBytes 4 1)).flatten) ++ leBytes 6 1 ++
    leBytes 6 1 ++ List.replicate 30 0 ++ leBytes 2 1 ++ leBytes 2 2 ++ (List.replicate 5 (leBytes 2 1)).flatten ++ List.replicate 28 0

def rankK2 : Rank := { rank0 with k := [(5, rec2)] }

theorem meets_BoxCommandsAccepted :
    (let s := stOf gBox rankK
     let v : Served := ⟨headOf c0 s gBox, run0, active c0 gBox run0, pc0, .tld c0 0 (.kreg 5) s5 s6, c0.hd⟩
     let b := boxProbe s gBox kTld (codeUnit (recTy rec0)) (if codeGrain (recTy rec0) = 4 then 1 else codeUnit (recTy rec0)) unitsBox
     (∀ i ∈ [Instr.tld c0 0 (.kreg 5) s5 s6, .tst c0 0 (.kreg 5) s5 s6], Able i c0 s gBox run0 pc0) ∧ s.shape? gBox 5 = some rec0 ∧
       boxCoords gBox rec0 6 = some (List.replicate 7 0) ∧ recPerm rec0 = 0 ∧ (readRaw gBox.arch true s5 0).toNat + boxBytes rec0 ≤ s.allot gBox ∧
       permFits rec0 (recPerm rec0) = true ∧ (∀ y ∈ gBox.arch.mem.xfences, y.dst ≠ 1) ∧
       boxTarget v s kTld rec0 s5 = .ok ⟨s, .scr 0, 0x100, none, []⟩ ∧ b.bad = none ∧ b.miss = none ∧ b.trans.length ≤ 32768 ∧
       s.spillUsed gBox.core + (b.trans.length - 512) ≤ 32768) ∧
    (let s := stOf gBox rankK2
     let k : BoxKind := ⟨3, .gath, true, true⟩
     let b := boxProbe s gBox k (codeUnit (recTy rec2)) (if codeGrain (recTy rec2) = 4 then 1 else codeUnit (recTy rec2))
       (boxUnits rec2 (List.replicate 7 0) (some (indexList s gBox 0 (recBox rec2 1))))
     (∀ i ∈ [Instr.gath c0 0 (.kreg 5) s5 s6 s8, .scat c0 0 (.kreg 5) s5 s6 s8], Able i c0 s gBox run0 pc0) ∧ s.shape? gBox 5 = some rec2 ∧
       boxCoords gBox rec2 6 = some (List.replicate 7 0) ∧ 2 ≤ recRank rec2 ∧ (readRaw gBox.arch true s8 0).toNat = 0 ∧
       4 * recBox rec2 1 ≤ s.allot gBox ∧ listPoison s gBox 0 (recBox rec2 1) = none ∧ b.bad = none ∧ b.miss = none) := by
  refine ⟨⟨?_, rfl, by decide +kernel, by decide +kernel, by decide +kernel, by decide +kernel, by decide +kernel, rfl, by decide +kernel⟩, ?_, rfl, by decide +kernel⟩
  all_goals
    intro i hi
    fin_cases hi <;> exact able_of gBox _ (by decide +kernel) (by decide +kernel) (by decide +kernel)

/-! ## Statements about circular buffers, matrices, tiles and barriers -/

theorem gathered1 (i : Instr) (h : i.regs.all grp0.declares = true) : Gathered i c0 st0 grp0 run0 pc0 := gathered0 [i] (by simp [h]) i (by simp)

/-- A group with some scalars replaced, and the same at a gate. -/
def withS (l : List (Nat × Dword)) : Group := { grp0 with arch := l.foldl (fun a x => a.setS x.1 x.2) grp0.arch }

def withSGate (l : List (Nat × Dword)) : Group := { withS l with commit := some commit0 }

/-- A descriptor of two slots of 64 bytes from scratchpad offset 0 on, filled and drained by instructions (Table 26-3). -/
def desc0 : Dword := 0x0001000100000000

def gQ : Group := withS [(5, desc0), (6, 1)]

def fresh0 : Queue := Queue.fresh 0 desc0 none

def rankQ (q : Queue) : Rank := { rank0 with q := [(3, q)] }

def filled0 : Queue := { fresh0 with slots := [.filled, .free], prod := 1, fill := 1 }

def acquired0 : Queue := { fresh0 with slots := [.acquired gQ.key, .free], prod := 1 }

def waited0 : Queue := { fresh0 with slots := [.waited gQ.key, .free], prod := 1, fill := 1, cons := 1 }

theorem ableG (g : Group) (r : Rank) (i : Instr) (hp : run0 &&& g.arch.parked = 0) (hr : i.regs.all g.declares = true)
    (hl : run0 &&& guardOf g.arch c0 ≠ 0) (hs : g.arch.pois = [] := by decide +kernel) (hc : g.commits = [] := by decide +kernel)
    (hb : g.rob = [] := by decide +kernel) : Able i c0 (stOf g r) g run0 pc0 := able_of g r hp hr hl hs hc hb

theorem meets_CircularBuffers :
    (Able (.qcfg c0 (.qreg 3) s5) c0 (stOf gQ rank0) gQ run0 pc0 ∧ descOk (readRaw gQ.arch true s5 0).toNat = true ∧
      ringFits (stOf gQ rank0) gQ (readRaw gQ.arch true s5 0).toNat = true ∧ (rankOfG (stOf gQ rank0) gQ).queue? 3 = none) ∧
    (Able (.qacq c0 s7 (.qreg 3) s6) c0 (stOf gQ (rankQ fresh0)) gQ run0 pc0 ∧
      (rankOfG (stOf gQ (rankQ fresh0)) gQ).queue? 3 = some fresh0 ∧ descProd fresh0.desc.toNat = 0 ∧ read32 gQ.arch s6 0 = 1 ∧
      1 ≤ fresh0.size ∧ (gQ.acquireOf 3 fresh0 1).isSome = true) ∧
    (Able (.qwait c0 s7 (.qreg 3) s6) c0 (stOf gQ (rankQ filled0)) gQ run0 pc0 ∧
      (rankOfG (stOf gQ (rankQ filled0)) gQ).queue? 3 = some filled0 ∧ descCons filled0.desc.toNat = 0 ∧ (gQ.takeOf 3 filled0 1).isSome = true) ∧
    (Able (.qcommit c0 (.qreg 3) s6) c0 (stOf gQ (rankQ acquired0)) gQ run0 pc0 ∧
      (rankOfG (stOf gQ (rankQ acquired0)) gQ).queue? 3 = some acquired0 ∧ Unfenced gQ ∧
      1 ≤ ((gQ.sees 3 acquired0).heldAcq gQ.key).length) ∧
    (Able (.qfree c0 (.qreg 3) s6) c0 (stOf gQ (rankQ waited0)) gQ run0 pc0 ∧
      (rankOfG (stOf gQ (rankQ waited0)) gQ).queue? 3 = some waited0 ∧ Unfenced gQ ∧
      1 ≤ ((gQ.sees 3 waited0).heldWait gQ.key).length) ∧
    (filled0.slots.length = filled0.size ∧ filled0.free ≤ filled0.cons ∧ filled0.cons ≤ filled0.fill ∧ filled0.fill ≤ filled0.prod ∧
      filled0.prod ≤ filled0.free + filled0.size ∧ filled0.backFree = [] ∧ filled0.backFilled = []) ∧
    (desc0 + 1 ≠ desc0 ∧ (gQ.sees 3 fresh0).h = 0 ∧ (gQ.sees 3 fresh0).n = 0) ∧ (filled0.canAcquire 1).isSome = true ∧
      (filled0.take gQ.key 1).isSome = true := by
  refine ⟨⟨ableG _ _ _ (by decide +kernel) (by decide +kernel) (by decide +kernel), by decide +kernel⟩,
    ⟨ableG _ _ _ (by decide +kernel) (by decide +kernel) (by decide +kernel), rfl, by decide +kernel⟩,
    ⟨ableG _ _ _ (by decide +kernel) (by decide +kernel) (by decide +kernel), rfl, by decide +kernel⟩,
    ⟨ableG _ _ _ (by decide +kernel) (by decide +kernel) (by decide +kernel), rfl, by decide +kernel⟩,
    ⟨ableG _ _ _ (by decide +kernel) (by decide +kernel) (by decide +kernel), rfl, by decide +kernel⟩, by decide +kernel⟩

/-- 256 bytes of operand buffer at 0, read as BF16 (Table 8-1), for BRSV. -/
def gB : Group := withS [(5, 0x10000000000), (6, 13)]

def rankB : Rank := { rank0 with b := [(0, ⟨0, 2048, 13, false, false⟩)] }

def cHead : Ctl := { c0 with hd := true }

theorem meets_MatrixSetUp :
    (Able (.brsv c0 (.breg 0) s5 s6) c0 (stOf gB rank0) gB run0 pc0 ∧ assoc (rankOfG (stOf gB rank0) gB).b 0 = none ∧
      fmtOk (readRaw gB.arch true s6 0).toNat = true ∧ (readRaw gB.arch true s5 0).toNat % 2 ^ 32 = 0 ∧
      (readRaw gB.arch true s5 0).toNat / 2 ^ 32 = 256 ∧ (∃ tm, (stOf gB rank0).team? gB.key.team = some tm ∧ 256 ≤ tm.blk.opbuf) ∧
      (rankOfG (stOf gB rank0) gB).b = []) ∧
    (Able (.bfree c0 (.breg 0)) { c0 with hd := true } (stOf grp0 rankB) grp0 run0 pc0 ∧
      (∃ y, assoc (rankOfG (stOf grp0 rankB) grp0).b 0 = some y ∧ y.marked = false) ∧ (rankOfG (stOf grp0 rankB) grp0).boundTo 0 = false) ∧
    Able (.cvset c0 (.creg 0) 64) c0 st0 grp0 run0 pc0 ∧ (64 : BitVec 32).toNat ≤ 256 ∧ (64 : BitVec 32) ≠ 0 ∧ grp0.trap = none ∧
      (rankOfG st0 grp0).conv 0 = ⟨none, [], []⟩ :=
  ⟨⟨ableG _ _ _ (by decide +kernel) (by decide +kernel) (by decide +kernel), by decide +kernel, by decide +kernel, by decide +kernel,
      by decide +kernel, ⟨_, rfl, by decide +kernel⟩, rfl⟩,
    ⟨⟨⟨turn_of grp0 rankB (by decide +kernel), fun _ => by decide +kernel, by decide +kernel⟩, by decide +kernel,
      sound_of (by decide +kernel) _ _ _, order_of (by decide +kernel) _, ready_of (by decide +kernel) _ _⟩, ⟨_, rfl, rfl⟩, by decide +kernel⟩,
    able1 _ (by decide +kernel), by decide, by decide, rfl, by decide +kernel⟩

/-- Three signatures of the other quadrants' groups, for the generation that the group's own completes. -/
def signs0 : List Sign := [1, 2, 3].map fun n =>
  { signOf (.tmac c0 false .bf16 (.zreg 0) (.breg 0) v0 (.creg 0) (.imm 1)) v0 c0 grp0 pc0 with group := ⟨loaderTeam, n⟩, quad := n }

def rankC : Rank := { rankB with c := [(0, ⟨some 64, [], signs0⟩)] }

theorem meets_MatrixSignature :
    let i : Instr := .tmac c0 false .bf16 (.zreg 0) (.breg 0) v0 (.creg 0) (.imm 1)
    let l := signs0 ++ [signOf i v0 c0 grp0 pc0]
    Gathered i c0 st0 grp0 run0 pc0 ∧ vecNo v0 < grp0.nv ∧ (∀ x ∈ grp0.arch.mem.xfences, x.dst ≠ 2) ∧ grp0.rank < st0.rankCount grp0 ∧
    st0.someRetired grp0.key.team grp0.rank = false ∧ (rankOfG st0 grp0).conv 0 = ⟨none, [], []⟩ ∧
    genKind none [signOf i v0 c0 grp0 pc0] = none ∧
    (Gathered i c0 (stOf grp0 rankC) grp0 run0 pc0 ∧ (stOf grp0 rankC).someRetired grp0.key.team grp0.rank = false ∧
      (rankOfG (stOf grp0 rankC) grp0).conv 0 = ⟨some 64, [], signs0⟩ ∧ (∀ x ∈ signs0, x.group ≠ grp0.key) ∧ genKind (some 64) l = none ∧
      genCount l = 64 ∧ genSquare l = true ∧ closeFault (rankOfG (stOf grp0 rankC) grp0) 16 0 l = none ∧
      ∀ x ∈ l, x.poisoned (bQuarter (rankOfG (stOf grp0 rankC) grp0) 16 (l.headD default)) = 0) := by
  refine ⟨gathered1 _ (by decide +kernel), by decide +kernel, by decide +kernel, by decide +kernel, by decide +kernel,
    by decide +kernel, by decide +kernel, ⟨⟨turn_of grp0 rankC (by decide +kernel), fun h => (by cases h), by decide +kernel⟩, by decide +kernel,
      by decide +kernel, by decide +kernel, sound_of (by decide +kernel) _ _ _, order_of (by decide +kernel) _⟩, by decide +kernel⟩

/-- Operands of the tile instructions: position row 2, column 16; offset 0x100; rows 1 to 4. -/
def gZ : Group := withS [(5, 0x100002), (6, 0x100), (7, 0x401)]

def tile0 : Tile := rank0.z.headD default

theorem meets_TileInstructions :
    let s := stOf gZ rank0
    (∀ i ∈ [Instr.zclr c0 (.zreg 0), .zprom c0 (.zreg 0), .zmovToVector c0 .fp32 v0 (.zreg 0) s5, .zmovToTile c0 .fp32 v0 (.zreg 0) s5,
      .zcpyToScratchpad c0 .fp32 s6 (.zreg 0) s7, .zcpyToTile c0 .fp32 s6 (.zreg 0) s7], Able i c0 s gZ run0 pc0) ∧
    run0 &&& gZ.arch.parked = 0 ∧ TileFree s gZ (.zreg 0) (List.range 64) tile0 ∧ TileFree s gZ (.zreg 0) [2] tile0 ∧ TileFree s gZ (.zreg 0) [] tile0 ∧
    TileSound tile0 (List.range 64) ∧ TileSound tile0 [2] ∧ TileSound tile0 ((List.range 4).map (1 + ·)) ∧ zPos (readRaw gZ.arch true s5 0).toNat gZ.w = some (2, 16) ∧ zRows (readRaw gZ.arch true s7 0).toNat = some (1, 4) ∧
    TileFree s gZ (.zreg 0) ((List.range 4).map (1 + ·)) tile0 ∧ (readRaw gZ.arch true s6 0).toNat = 0x100 ∧ 0x100 % 64 = 0 ∧ 0x100 + 512 * 4 ≤ s.allot gZ ∧
    (∀ x ∈ gZ.arch.mem.xfences, x.dst ≠ 2) ∧ Sound s gZ ⟨0, 0x100, [⟨.scr gZ.rank, 0x100, 512 * 4, none, 0x100⟩]⟩ := by
  refine ⟨?_, by decide +kernel, ?_, ?_, ?_, by unfold TileSound; decide +kernel, by unfold TileSound; decide +kernel,
    by unfold TileSound; decide +kernel, by decide +kernel, by decide +kernel, ?_, by decide +kernel, by decide +kernel, by decide +kernel,
    by decide +kernel, ?_⟩
  · intro i hi
    fin_cases hi <;> exact ableG gZ _ _ (by decide +kernel) (by decide +kernel) (by decide +kernel)
  all_goals first
    | exact ⟨rfl, by decide +kernel⟩
    | exact clear_sound rfl rfl (by decide +kernel)

/-- The machine with barrier object 2 initialised for sixteen threads. -/
def barred (s : State) : State := s.updBar loaderTeam 2 fun b => { b with init := true, e := 16, ec := 16 }

theorem meets_Barriers :
    let id : Opd := .imm 2
    let s := barred st0
    let t := barred stGate
    (Able (.barinit c0 id s2) c0 st0 grp0 run0 pc0 ∧ (st0.bar grp0.key.team 2).init = false ∧ (readRaw grp0.arch true s2 0).toNat = 3) ∧
    (∀ i ∈ [Instr.bararv c0 id, .barwt c0 id], Able i c0 s grp0 run0 pc0) ∧ (s.bar grp0.key.team 2).init = true ∧
    twice s grp0 2 (active c0 grp0 run0) = 0 ∧
    (∀ L, (active c0 grp0 run0).has L = true →
      (s.bar grp0.key.team 2).arrOf (grp0.thread L) ≠ some (s.bar grp0.key.team 2).ph ∧
        grp0.stagedArrival 2 (fun u => u == grp0.thread L) = false) ∧
    (Turn t gGate run0 pc0 ∧ gGate.gathered run0 pc0 = true ∧ gGate.here ≠ 0 ∧ gGate.here &&& gGate.arch.parked = 0 ∧
      active c0 gGate gGate.here ≠ 0 ∧ Untainted (.barsync c0 id) gGate gGate.here (active c0 gGate gGate.here) ∧
      Unfenced gGate ∧ (t.bar gGate.key.team 2).init = true ∧ twice t gGate 2 (active c0 gGate gGate.here) = 0 ∧
      gGate.commit = some commit0 ∧ commit0.pc = pc0 ∧ commit0.run = gGate.here ∧ commit0.begun = false ∧
      gGate.verifiedAt 0 = true ∧ gGate.drainedTo 0 = true ∧
      (t.bar gGate.key.team 2).a + (active c0 gGate gGate.here).lanes.length = (t.bar gGate.key.team 2).ec) ∧
    Gathered (.gsync c0) c0 st0 grp0 run0 pc0 ∧ active c0 grp0 grp0.here ≠ 0 ∧ Unfenced grp0 ∧ (s.bar grp0.key.team 2).ec ≠ 0 := by
  refine ⟨⟨able1 _ (by decide +kernel), by decide +kernel⟩, ?_, by decide +kernel, by decide +kernel,
    lanes_of (by decide +kernel), ⟨⟨rfl, rfl, by decide +kernel⟩, by decide +kernel, by decide +kernel, by decide +kernel, by decide +kernel,
      sound_of (by decide +kernel) _ _ _, by decide +kernel⟩,
    gathered1 _ (by decide +kernel), by decide +kernel⟩
  intro i hi
  fin_cases hi <;> exact able_any rfl rfl (by decide +kernel) rfl (by decide +kernel) (by decide +kernel)

/-! ## Statements about control, special registers and the front end -/

theorem gate_any {i : Instr} {s : State} {g : Group} (h1 : s.group? g.key = some g) (h2 : s.issue = some ⟨g.key, run0, pc0⟩)
    (h3 : run0 &&& g.arch.parked = 0) (h5 : i.regs.all g.declares = true) (h6 : run0 &&& guardOf g.arch c0 ≠ 0)
    (hc : g.commit = some commit0) (hv : (g.verifiedAt 0 && g.drainedTo 0) = true) (hs : g.arch.pois = [] := by decide +kernel) :
    AtGate i c0 s g run0 pc0 commit0 :=
  ⟨⟨h1, h2, h3⟩, h5, h6, sound_of hs i _ _, ⟨hc, rfl, rfl⟩, .inr (by simpa [commit0] using hv)⟩

theorem gateAt (s : State) (i : Instr) (h1 : s.group? gGate.key = some gGate) (h2 : s.issue = some ⟨gGate.key, run0, pc0⟩)
    (h5 : i.regs.all gGate.declares = true) : AtGate i c0 s gGate run0 pc0 commit0 :=
  gate_any h1 h2 (by decide +kernel) h5 (by decide +kernel) rfl (by decide +kernel)

/-- A line of code at 0x1000 whose five slots are branch targets, with a word in slot 0 (R265). -/
def code (s : State) (w : BitVec 96) : State :=
  State.putWord { s with ram := { s.ram with mem := s.ram.mem.putNum 0x2003C 4 0x1F } } 0x20000 0 w

def nopWord : BitVec 96 := 0xC00C00C0_0C00C000_007BC001

def debugged (s : State) : State := s.updCtx 0 0 fun c => { c with debug := true }

theorem meets_ControlFlow :
    let s := code st0 nopWord
    (∀ i ∈ [Instr.jmp c0 4 0, .jmpx c0 s4, .ret c0 s4, .call c0 s8 4 0, .callx c0 s8 s4, .nop c0], Able i c0 s grp0 run0 pc0) ∧
    (∀ L, (active c0 grp0 run0).has L = true →
      checkTarget s grp0 ((pc0 &&& ~~~(63 : Dword)) + (0 : BitVec 32).signExtend 64 * 64 + (4 : BitVec 3).setWidth 64) = .ok ∧
      checkTarget s grp0 (readRaw grp0.arch true s4 L) = .ok ∧ checkTarget s grp0 (readRaw grp0.arch true s3 L + 7) = .illegal ∧
      checkTarget st0 grp0 (readRaw grp0.arch true s4 L) = .illegal) ∧
    AtGate (.exit c0) c0 stGate gGate run0 pc0 commit0 ∧ gGate.arch.hmode = false ∧
    (∀ i ∈ [Instr.cede c0, .dbrk c0 42], Able i c0 st0 grp0 run0 pc0) ∧ (st0.ctxOf grp0).any Context.debug = false ∧
    Able (.dbrk c0 42) c0 (debugged st0) grp0 run0 pc0 ∧ ((debugged st0).ctxOf grp0).any Context.debug = true := by
  refine ⟨?_, lanes_of (by decide +kernel), gate1 _ (by decide +kernel), rfl, able0 _ (by decide +kernel), by decide +kernel,
    able_any rfl rfl (by decide +kernel) rfl (by decide +kernel) (by decide +kernel), by decide +kernel⟩
  intro i hi
  fin_cases hi <;> exact able_any rfl rfl (by decide +kernel) rfl (by decide +kernel) (by decide +kernel)

/-- The group with a handler at 0x1000, at a gate; and in that handler, with every thread to go back to 0x1000. -/
def gHand : Group := { gGate with arch := { gGate.arch with thand := 0x1000 } }

/-- An entry of another run, younger than the commit point at its gate; and the group with it. -/
def young0 : Entry := ⟨4, 0x1040, 0, 0, false, 0, 0, none, grp0.arch, [], [], false, []⟩

def gYoung : Group := { gHand with rob := [young0] }

def gIn : Group := { grp0 with arch := { grp0.arch with thand := 0x1000, tmask := run0, tpc := 0x1000, tcause := 0x10F } }

theorem meets_TrapEntryAndReturn :
    (AtGate (.trap c0 7) c0 (code (stOf gHand rank0) nopWord) gHand run0 pc0 commit0 ∧ gHand.drained = true ∧ gHand.arch.hmode = false ∧ gHand.arch.thand ≠ 0 ∧
      checkTarget (code (stOf gHand rank0) nopWord) gHand gHand.arch.thand = .ok ∧
      ((code (stOf gHand rank0) nopWord).team? gHand.key.team).isSome = true) ∧
    (let s := code (stOf gIn rank0) nopWord
     let all := gIn.arch.tmask &&& gIn.here
     Admitted (.tret c0) c0 s gIn run0 pc0 ∧ gIn.arch.hmode = true ∧ all ≠ 0 ∧ all &&& ~~~(run0 ||| gIn.coll) = 0 ∧
       gIn.holdsBack (.tret c0) = false ∧ gIn.arch.atPc all pc0 = all ∧ all &&& gIn.arch.parked = 0 ∧ all &&& guardOf gIn.arch c0 ≠ 0 ∧ checkTarget s gIn gIn.arch.tpc = .ok) ∧
    (Able (.tret c0) c0 st0 grp0 run0 pc0 ∧ grp0.arch.hmode = false) ∧
    AtGate (.trap c0 7) c0 (stOf gYoung rank0) gYoung run0 pc0 commit0 ∧ gYoung.drained = false :=
  ⟨⟨gate_any rfl rfl (by decide +kernel) (by decide +kernel) (by decide +kernel) rfl (by decide +kernel), by decide +kernel⟩,
    ⟨⟨⟨rfl, rfl, by decide +kernel⟩, fun h => (by cases h), by decide +kernel⟩, rfl, by decide +kernel⟩,
    ⟨able1 _ (by decide +kernel), rfl⟩,
    gate_any rfl rfl (by decide +kernel) (by decide +kernel) (by decide +kernel) rfl (by decide +kernel), by decide +kernel⟩

theorem meets_SpecialRegisters :
    (∀ i ∈ [Instr.getsr c0 .b64 v0 .timel, .setsr c0 .tpc s2, .setsr c0 .timel s2, .setsr c0 .clkgnt s2, .setsr c0 .fpflg s2, .setsr c0 .mxflg s2, .setsr c0 .taddr s2,
      .vdhop c0 s5 s1 s2, .clkq c0 v0 s2], Able i c0 st0 grp0 run0 pc0) ∧
    (∀ i ∈ [SReg.fpctl, .thand, .sensev, .rstrt, .scopemd, .clkreq].map (fun r => Instr.setsr c0 r s2) ++ [.setsr c0 .arena s1],
      AtGate i c0 stGate gGate run0 pc0 commit0) ∧
    sregReady grp0 .timel = true ∧ sregReady grp0 .fpflg = true ∧ arenaOk (readRaw gGate.arch true s1 0 &&& arenaMask).toNat = true ∧
    (let x := (readRaw gGate.arch true s2 0).toNat
     x < 2 ^ 32 ∧ bitsOf x 31 25 = 0 ∧ bitsOf x 15 12 = 0 ∧ orderOk x = true ∧ x ≤ 3) ∧ grp0.rob = [] ∧ grp0.commits = [] :=
  ⟨able0 _ (by decide +kernel), gate0 _ (by decide +kernel), by decide +kernel, by decide +kernel, by decide +kernel, by decide +kernel, rfl, rfl⟩

/-- The machine at the gate with a booth 0 of the group's partition. -/
def stBooth (w1 : Dword) (l : List BoothEntry) : State := stGate.updBooth 0 0 fun b => { b with w1 := w1, entries := l }

def entry0 : BoothEntry := ⟨[1, 2, 3, 4, 5, 6, 7, 8], []⟩

def stArmed (n : Nat) : State := stGate.updPart 0 fun p => { p with armings := List.replicate n ⟨3, false, 0x100, 0, []⟩ }

def rankSched : Rank := { rank0 with sched := [7] }

theorem meets_FrontEndInstructions :
    Unfenced gGate ∧ (∀ l ∈ [[], List.replicate 32 entry0],
      (∀ i ∈ [Instr.wqenq c0 p1 (.imm 0) s0, .launch c0 p1 (.imm 0) s3], AtGate i c0 (stBooth 0xC l) gGate run0 pc0 commit0) ∧
      ((stBooth 0xC l).booth 0 0).valid = true ∧ ((stBooth 0xC l).booth 0 0).ctx = gGate.ctx ∧ ((stBooth 0xC l).booth 0 0).devenq = true ∧
      ((stBooth 0xC l).booth 0 0).work = false ∧ ((stBooth 0xC l).booth 0 0).full = !l.isEmpty) ∧
    (gGate.arch.sreg 3).toNat % 256 = 0 ∧ (gGate.arch.sreg 3).toNat < 2 ^ 57 ∧
    (∀ l ∈ [[], [entry0]], AtGate (.wqdeq c0 p1 (.imm 0) s8) c0 (stBooth 0x9 l) gGate run0 pc0 commit0 ∧ ((stBooth 0x9 l).booth 0 0).valid = true ∧
      ((stBooth 0x9 l).booth 0 0).ctx = gGate.ctx ∧ ((stBooth 0x9 l).booth 0 0).work = true ∧ ((stBooth 0x9 l).booth 0 0).entries = l) ∧
    (∀ n ∈ [0, 64], AtGate (.narm c0 p1 s2 s3) c0 (stArmed n) gGate run0 pc0 commit0 ∧ ((stArmed n).part gGate.key.team.part).armings.length = n) ∧
    ((gGate.arch.sreg 2).toNat < 2 ^ 33 ∧ ((stArmed 0).part gGate.key.team.part).unmatched = []) ∧
    (Able (.schnxt c0 p1 s5) c0 (stOf grp0 rankSched) grp0 run0 pc0 ∧ ((rankOfG (stOf grp0 rankSched) grp0).nextEntry).isSome = true) ∧
    Able (.schnxt c0 p1 s5) c0 st0 grp0 run0 pc0 ∧ (rankOfG st0 grp0).nextEntry = none := by
  refine ⟨by decide +kernel, ?_, by decide +kernel, by decide +kernel, ?_, ?_, by decide +kernel,
    ⟨able_of grp0 rankSched (by decide +kernel) (by decide +kernel) (by decide +kernel), by decide +kernel⟩, able1 _ (by decide +kernel),
    by decide +kernel⟩
  · intro l hl
    refine ⟨fun i hi => ?_, ?_⟩
    · fin_cases hi <;> exact gateAt _ _ rfl rfl (by decide +kernel)
    · revert l
      decide +kernel
  · intro l hl
    exact ⟨gateAt _ _ rfl rfl (by decide +kernel), by revert l; decide +kernel⟩
  · intro n hn
    exact ⟨gateAt _ _ rfl rfl (by decide +kernel), by revert n; decide +kernel⟩

def collIs (x : CollRes) : Bool := match x with
  | .ok .. => true
  | .no .. => false

def collDe (x : CollRes) : CollDesc := match x with
  | .ok d .. => d
  | .no .. => default

def collCh (x : CollRes) : List Chunk × List Chunk × List Chunk := match x with
  | .ok _ l src dst => (l, src, dst)
  | .no .. => ([], [], [])

theorem coll_of {x : CollRes} (h : collIs x = true) : x = .ok (collDe x) (collCh x).1 (collCh x).2.1 (collCh x).2.2 := by
  cases x <;> simp [collIs, collDe, collCh] at *

/-- A descriptor (Table 23-9) at virtual 0x1100: one 32-bit integer from 0x1140 to 0x1180 in communicator 1, of which this device is
all there is. -/
def stColl : State :=
  let d := leBytes 8 0x1140 ++ leBytes 8 0x1180 ++ leBytes 5 1 ++ leBytes 3 0 ++ leBytes 4 0x01000300 ++ leBytes 4 9 ++ List.replicate 32 0
  { stGate.updPart 0 (fun p => { p with comms := [(1, ⟨1, 0, 1, [(0, 0)]⟩)] }) with
    ram := { stGate.ram with mem := stGate.ram.mem.putNum 0x20100 64 (leNat d) } }

/-- Operands of NSEND: the destination, a tag, 64 bytes at 0x1100. -/
def gSend (dst : Dword) : Group := withSGate [(4, dst), (5, 7), (6, 0x1100), (7, 64)]

theorem meets_FabricInstructionsBegin :
    let ok := fun (s : State) (g : Group) (l : List Chunk) =>
      s.escape g ⟨0, 0, l⟩ = false ∧ s.lockedOut g [⟨0, 0, l⟩] = false ∧ Sound s g ⟨0, 0, l⟩
    (0 < stColl.parts.length ∧ (stColl.part 0).sends = [] ∧ (∀ y ∈ gGate.arch.mem.xfences, y.dst ≠ 0) ∧
      ∃ de l src dst cm, AtGate (.coll c0 s8 s0) c0 stColl gGate run0 pc0 commit0 ∧ collProbe stColl gGate (gGate.arch.sreg 0).toNat = .ok de l src dst ∧
        stColl.escape gGate ⟨0, 0, l ++ src ++ dst⟩ = false ∧ ok stColl gGate (l ++ src) ∧ assoc (stColl.part 0).comms de.comm = some cm ∧
        (stColl.part 0).colls = []) ∧
    ∀ dst ∈ [(0 : Dword), 9], (∃ l de src d, AtGate (.nsend c0 s8 s4) c0 (stOf (gSend dst) rank0) (gSend dst) run0 pc0 commit0 ∧
      ((gSend dst).arch.sreg 4).toNat < 2 ^ 20 ∧ ((gSend dst).arch.sreg 5).toNat < 2 ^ 32 ∧ ((gSend dst).arch.sreg 7).toNat ≤ 65536 ∧
      sendProbe (stOf (gSend dst) rank0) (gSend dst) ((gSend dst).arch.sreg 6).toNat ((gSend dst).arch.sreg 7).toNat = .ok de l src d ∧
      ok (stOf (gSend dst) rank0) (gSend dst) l) ∧
      (stOf (gSend dst) rank0).reaches (((gSend dst).arch.sreg 4).toNat % 65536) = (dst == 0) := by
  refine ⟨⟨by decide +kernel, rfl, by decide +kernel, ?_⟩, ?_⟩
  · refine ⟨_, _, _, _, _, gateAt _ _ rfl rfl (by decide +kernel), coll_of (by decide +kernel), by decide +kernel, ⟨by decide +kernel, by decide +kernel, clear_sound rfl rfl (by decide +kernel)⟩,
      show _ = some (⟨1, 0, 1, [(0, 0)]⟩ : Comm) by decide +kernel, by decide +kernel⟩
  · intro dst hd
    fin_cases hd
    all_goals
      refine ⟨⟨_, _, _, _, gate_any rfl rfl (by decide +kernel) (by decide +kernel) (by decide +kernel) rfl (by decide +kernel),
        by decide +kernel, by decide +kernel, by decide +kernel, coll_of (by decide +kernel), by decide +kernel, by decide +kernel,
        clear_sound rfl rfl (by decide +kernel)⟩, by decide +kernel⟩

/-! ## Statements about the events of a group -/

/-- A group whose upper eight threads stand at the next line, with a starvation count of 1,024. -/
def gSplit : Group :=
  { grp0 with arch := { grp0.arch with lastRun := 0xFF, starve := 1024, pcs := (List.range 16).map fun L => if L < 8 then 0x1000 else 0x1040 } }

/-- The same in a guard turn of its upper threads that has issued `n`. -/
def gTurn (n : Nat) : Group := { gSplit with arch := { gSplit.arch with turn := some (0xFF00, n) } }

/-- A group all of whose threads stand at an unmapped page. -/
def gLost : Group := { grp0 with arch := { grp0.arch with pcs := List.replicate 16 0x5000 } }

def lineOf (x : FetchRes) : Option (BitVec 512 × Phys) := match x with
  | .line l p => some (l, p)
  | _ => none

def absentOf (x : FetchRes) : Option Nat := match x with
  | .absent p => some p
  | _ => none

def faultOf (x : FetchRes) : Option Nat := match x with
  | .fault c => some c
  | _ => none

theorem fault_of {x : FetchRes} {c : Nat} (h : faultOf x = some c) : x = .fault c := by
  cases x <;> simp [faultOf] at *
  exact h

/-- A group all of whose threads stand beyond the virtual range. -/
def gOut : Group := { grp0 with arch := { grp0.arch with pcs := List.replicate 16 0x0200000000000000 } }

theorem line_of {x : FetchRes} (h : (lineOf x).isSome = true) : ∃ l p, x = .line l p := by
  cases x <;> simp [lineOf] at *

theorem absent_of {x : FetchRes} {p : Nat} (h : absentOf x = some p) : x = .absent p := by
  cases x <;> simp [absentOf] at *
  exact h

theorem meets_Fetching :
    (let s := code st0 nopWord
     s.group? grp0.key = some grp0 ∧ s.mayServe grp0 = true ∧ s.latch = none ∧ grp0.commitTurn = none ∧ grp0.turnStep.arch.turn = none ∧
       run0 &&& grp0.arch.entering = 0 ∧ grp0.decide_ = some (run0, pc0) ∧
       ∃ l p, fetchLine s { grp0 with lastAt := s.now } pc0 = .line l p) ∧
    (let s := stOf gLost rank0
     s.group? gLost.key = some gLost ∧ s.mayServe gLost = true ∧ s.latch = none ∧ gLost.commitTurn = none ∧ run0 &&& gLost.arch.entering = 0 ∧
       gLost.decide_ = some (run0, 0x5000) ∧ fetchLine s { gLost with lastAt := s.now } 0x5000 = .absent 0x5000 ∧ gLost.branching run0 = false) ∧
    (let s := stOf gOut rank0
     s.group? gOut.key = some gOut ∧ s.mayServe gOut = true ∧ s.latch = none ∧ gOut.commitTurn = none ∧ run0 &&& gOut.arch.entering = 0 ∧
       gOut.decide_ = some (run0, 0x0200000000000000) ∧
       fetchLine s { gOut with lastAt := s.now } 0x0200000000000000 = .fault 0x06) ∧
    (stGate.group? gGate.key = some gGate ∧ stGate.mayServe gGate = true ∧ stGate.latch = none ∧ gGate.decide_ = some (run0, pc0) ∧
      gGate.commit = some commit0 ∧ gGate.commitTurn.isSome = true) ∧
    (∀ g ∈ [gSplit, gTurn 3, gTurn 64], (stOf g rank0).group? g.key = some g ∧ g.arch.headRun g.eligible = some (0xFF, 0x1000)) ∧
    (gSplit.arch.turn = none ∧ gSplit.eligible &&& ~~~(0xFF : Mask) ≠ 0 ∧ (0xFF : Mask) &&& gSplit.arch.lastRun ≠ 0 ∧ 1024 ≤ gSplit.arch.starve) ∧
    (gTurn 64).arch.turn = some (0xFF00, 64) ∧ (0x06 : Nat) ≠ 0x07 ∧ (gTurn 3).arch.turn = some (0xFF00, 3) ∧ (gTurn 3).eligible &&& 0xFF00 ≠ 0 :=
  ⟨⟨rfl, by decide +kernel, rfl, by decide +kernel, by decide +kernel, by decide +kernel, by decide +kernel, line_of (by decide +kernel)⟩,
    ⟨rfl, by decide +kernel, rfl, by decide +kernel, by decide +kernel, by decide +kernel, absent_of (by decide +kernel), by decide +kernel⟩,
    ⟨rfl, by decide +kernel, rfl, by decide +kernel, by decide +kernel, by decide +kernel, fault_of (by decide +kernel)⟩,
    ⟨rfl, by decide +kernel, rfl, by decide +kernel⟩, by decide +kernel, by decide +kernel, rfl, by decide, rfl, by decide +kernel⟩

/-- A load of a lane's own address, virtual 0x9000 in every lane: an unmapped page. -/
def gMiss : Group := withS [(5, 0x9000)]

def fetchedLoad : Fetched := ⟨⟨gMiss.key, run0, pc0⟩, encode (.ld c0 .glob 0 .b32 v0 s5 .none .none), true, true⟩

theorem meets_ProbeParksLanes :
    let s := { stOf gMiss rank0 with latch := some fetchedLoad }
    let i := Instr.ld c0 .glob 0 .b32 v0 s5 .none .none
    s.group? gMiss.key = some gMiss ∧ s.latch = some fetchedLoad ∧ fetchedLoad.issue.group = gMiss.key ∧ fetchedLoad.parity = true ∧
    fetchedLoad.lineOk = true ∧ decode fetchedLoad.word = .ok i ∧ (Sys2Proof.Machine.Instr.probeForm i).isSome = true ∧
    i.regs.all gMiss.declares = true ∧ gMiss.unready i run0 = false ∧ gMiss.holdsBack i = false ∧ run0 &&& guardOf gMiss.arch c0 = run0 :=
  ⟨rfl, rfl, rfl, rfl, rfl, by decide +kernel, rfl, by decide +kernel⟩

/-- Two entries, the older executed or not, with a retired effect for another holder. -/
def entry1 (n : Nat) (x : Bool) : Entry := { entryOf (.nop c0) { grp0 with seq := n } pc0 run0 run0 0 with executed := x }

def effOf (k : EffectKind) : Effect := ⟨0, 0, k, 0, none, false, false, [], []⟩

def awayEff : Effect := { effOf (.write [⟨.mem, 0x20100, [1], 0, false⟩] .clear none) with relAt := some 60, away := true }

def gRob (x : Bool) : Group := { grp0 with rob := [entry1 0 x, entry1 1 false], staged := [awayEff], seq := 2 }

/-- A branch, and after it an entry that has replaced some objects. -/
def gBack (l : List ObjImage) : Group :=
  { grp0 with rob := [{ entry1 0 true with branch := true }, { entry1 1 false with objs := l }], staged := [awayEff], seq := 2 }

theorem meets_ExecuteAndRetire :
    ((stOf (gRob false) rank0).group? grp0.key = some (gRob false) ∧ (gRob false).cmds.find? (fun c => c.seq = 0) = none ∧
      (stOf (gRob false) rank0).entryWaits (gRob false) 0 = false) ∧
    (stOf (gRob true) rank0).group? grp0.key = some (gRob true) ∧ (gRob true).rob = entry1 0 true :: [entry1 1 false] ∧
      (entry1 0 true).executed = true :=
  ⟨⟨rfl, rfl, by decide +kernel⟩, rfl, rfl, rfl⟩

theorem meets_RecoveryAndHeldEffects :
    (stOf (gRob true) rank0).group? grp0.key = some (gRob true) ∧
    (∀ x ∈ [ObjImage.shape 3 none, .book 4 none, .count 5 (some 64)],
      (stOf (gBack [x]) rank0).group? grp0.key = some (gBack [x]) ∧
      (∃ b ∈ (gBack [x]).rob, b.seq = 0 ∧ b.branch = true) ∧
      (gBack [x]).rob.find? (fun e => decide (0 < e.seq)) = some { entry1 1 false with objs := [x] } ∧
      ((stOf (gBack [x]) rank0).rank? grp0.key.team (gBack [x]).rank).isSome = true ∧
      (((gBack [x]).rob.filter fun y => decide (0 < y.seq)).reverse.flatMap Entry.objs).getLast? = some x) ∧
    (gRob true).staged[0]? = some awayEff ∧ awayEff.seq = 0 ∧ awayEff.away = true ∧ awayEff.relAt.isSome = true ∧
    (stOf (gRob true) rank0).farRoute (gRob true) awayEff = false :=
  ⟨rfl, by decide +kernel, rfl, rfl, rfl, rfl, by decide +kernel⟩

/-- A group that has restarted seven times in a row. -/
def gConsec : Group := { grp0 with rstrt := 0x700000000 }

theorem meets_SensorRestarts :
    let s := stOf gConsec rank0
    (s.groups.map Group.key).Nodup ∧
    (∀ cores ∈ [[loaderCore], [loaderCore, { loaderCore with core := 1 }]], ((∃ a, cores = [a]) ∨ ∃ a b, cores = [a, b] ∧ a ≠ b ∧ a.die = b.die) ∧
      (∀ core ∈ cores, ∀ r ∈ s.dev.restarting, r.1 = core → r.2 + 4 < s.now) ∧ gConsec.core ∈ cores) ∧
    (∀ g ∈ s.groups, s.falling g.key.team.part = false) ∧ s.group? gConsec.key = some gConsec ∧ gConsec.core = loaderCore ∧
    (∃ c, (gConsec.ckpts.filter Ckpt.verified).getLast? = some c ∧
      c.arch.headRun (gConsec.live &&& ~~~c.arch.parked &&& ~~~(if c.arch.hmode then c.arch.heldSet else 0)) = some (run0, pc0)) ∧
    7 ≤ bitsOf gConsec.rstrt.toNat 35 32 :=
  ⟨by decide +kernel, by
      intro cores h
      fin_cases h
      · exact ⟨.inl ⟨_, rfl⟩, by decide +kernel⟩
      · exact ⟨.inr ⟨_, _, rfl, by decide, rfl⟩, by decide +kernel⟩,
    by decide +kernel, rfl, rfl, ⟨_, rfl, by decide +kernel⟩, by decide +kernel⟩

def trap0 : Trap := ⟨0x13, pc0, run0, 0, 0⟩

def gTrap : Group := { grp0 with trap := some trap0 }

def gTrapGate : Group := { gHand with trap := some trap0, commit := some { commit0 with run := 0 } }

/-- A commit point that has met a fault, with a younger entry. -/
def gCut : Group := { gYoung with trap := some trap0, commit := none, cut := some 1 }

/-- An unverified checkpoint, complete at 2 ns, after a verified one. -/
def gUnver : Group := { grp0 with ckpts := grp0.ckpts ++ [⟨0, some 2, false, grp0.arch⟩] }

theorem meets_TrapDelivery :
    ((stOf gTrap rank0).group? grp0.key = some gTrap ∧ gTrap.trap = some trap0 ∧ gTrap.halt = none ∧ gTrap.cut = none ∧ gTrap.commit = none ∧
      gTrap.rob = [] ∧ gTrap.unverified < 4 ∧ (stOf gTrap rank0).falling grp0.key.team.part = false) ∧
    (let s := code (stOf gTrapGate rank0) nopWord
     s.group? grp0.key = some gTrapGate ∧ gTrapGate.cut = none ∧ gTrapGate.commit = some { commit0 with run := 0 } ∧ gTrapGate.verifiedAt 0 = true ∧ gTrapGate.rob = [] ∧
       gTrapGate.staged = [] ∧ gTrapGate.arch.hmode = false ∧ gTrapGate.arch.thand ≠ 0 ∧ checkTarget s gTrapGate gTrapGate.arch.thand = .ok ∧
       (s.team? grp0.key.team).isSome = true ∧ trap0.cause < 256 ∧ trap0.flags = 0 ∧ trap0.mask &&& gTrapGate.arch.parked = 0) ∧
    ((stOf gCut rank0).group? grp0.key = some gCut ∧ gCut.trap = some trap0 ∧ gCut.halt = none ∧ gCut.cut = some 1 ∧
      (gCut.ckpts.filter fun x => decide (x.seq < 1)).getLast?.isSome = true) ∧
    let s := { stOf gUnver rank0 with now := 50 }
    s.group? grp0.key = some gUnver ∧ gUnver.ckpts = grp0.ckpts ++ ⟨0, some 2, false, grp0.arch⟩ :: [] ∧
      (∀ y ∈ grp0.ckpts, y.verified = true) ∧ 2 + 48 ≤ s.now :=
  ⟨⟨rfl, rfl, rfl, rfl, rfl, rfl, by decide +kernel⟩,
    ⟨rfl, rfl, rfl, by decide +kernel, rfl, rfl, rfl, by decide +kernel, by decide +kernel, by decide +kernel, by decide, rfl, by decide +kernel⟩,
    ⟨rfl, rfl, rfl, rfl, by decide +kernel⟩, rfl, rfl, by decide +kernel, by decide⟩

/-- A group with an effect of some kind that is due. -/
def due0 (k : EffectKind) : Effect := { effOf k with relAt := some 0 }

def gDue (k : EffectKind) : Group := { grp0 with staged := [due0 k] }

def pieceDue : Piece := ⟨.mem, 0x20100, [1, 2, 3], 0, false⟩

/-- A rank with a buffer, a marked reservation and an image of a tile that waits for its one writer. -/
def shadow0 : Shadow := ⟨9, [(0, default)], 0, [(grp0.key, 0)], none⟩

def rankDue : Rank :=
  { rankQ acquired0 with b := [(0, ⟨0, 2048, 13, true, false⟩)], z := rank0.z.modify 0 fun x => { x with shadows := [shadow0] } }

theorem meets_EffectsAreReleased :
    (∀ k ∈ [EffectKind.write [pieceDue, ⟨.scr 0, 0x40, [9], 0, false⟩, ⟨.opbuf 0, 0, [9], 0, false⟩] .clear none, .write [pieceDue] .set none,
      .objInit pieceDue [(0x20108, 8)], .qcommit 0 3 1, .qfree 7 3 1, .slotCommit 0 3 0, .slotFree 7 3 0, .qacq 0 3 0 1, .arrive 2 [0, 1],
      .bfree 0 0, .tile 0 0 9],
      let s := owned (stOf (gDue k) rankDue)
      s.group? grp0.key = some (gDue k) ∧ (gDue k).staged = due0 k :: [] ∧ s.releasable (gDue k) = true) ∧
    (∀ k, MemoryOk (owned (stOf (gDue k) rankDue)) ∧ ((owned (stOf (gDue k) rankDue)).rank? grp0.key.team 0).isSome = true ∧
      (∃ x, (rankOfG (owned (stOf (gDue k) rankDue)) (gDue k)).queue? 3 = some x ∧ x.id = 0 ∧ x.id ≠ 7) ∧
      ∃ tl, rankDue.z[0]? = some tl ∧ tl.shadows = [shadow0]) ∧
    pieceDue.data ≠ [] ∧ shadow0.id = 9 ∧ shadow0.waits = [(grp0.key, 0)] ∧ shadow0.op = none := by
  refine ⟨?_, fun k => ⟨?_, rfl, ⟨_, rfl, rfl, by decide⟩, _, rfl, rfl⟩, by decide, rfl, rfl, rfl⟩
  · intro k hk
    fin_cases hk <;> exact ⟨rfl, rfl, by decide +kernel⟩
  · have h : MemoryOk (owned (stOf grp0 rankDue)) := by unfold MemoryOk; decide +kernel
    exact h

/-- A TST that has paused with two units left, a TLD of a filled unit and one of memory, a load whose line is held, a HOLDW and a CEDE. -/
def cmd0 : Cmd :=
  ⟨0, 1, .tst, 128, [], [⟨0, 64, some 0x20100, 0, 0x1100⟩, ⟨64, 64, some 0x20140, 0, 0x1140⟩], .scr 0, 0x40, 0, 64, none, pc0, run0, true, false, 0⟩

def cmd1 : Cmd :=
  ⟨1, 1, .tld, 128, List.replicate 64 7, [⟨0, 64, none, 0, 0x1100⟩, ⟨64, 64, some 0x20140, 0, 0x1140⟩], .scr 0, 0x40, 0, 64, none, pc0, run0,
    false, false, 0⟩

def gWaits : Group :=
  { grp0 with cmds := [cmd0, cmd1], loads := [(0, [0x20100])], holds := [⟨pc0, run0, 10, 0, false⟩], blocked := run0, ceded := run0, rob := [entry1 0 false] }

def gOver : Group := { grp0 with arch := { grp0.arch with exited := run0 } }

theorem all_clear :
    let s := { owned (stOf gWaits rank0) with now := 1000 }
    ∀ c ∈ [cmd0, cmd1], ∀ w ∈ (s.fits gWaits c).1, ∀ e ∈ w, clearAcc s gWaits.bare ⟨0, 0, elemChunks c e⟩ = true := by decide +kernel

theorem meets_WaitsEnd :
    (let s := { owned (stOf gWaits rank0) with now := 1000 }
     s.group? grp0.key = some gWaits ∧ gWaits.cmds.find? (fun c => c.seq = 0 ∧ c.paused) = some cmd0 ∧
       gWaits.cmds.find? (fun c => c.seq = 1) = some cmd1 ∧ cmd1.paused = false ∧ gWaits.depWaits 1 = false ∧
       (∀ c ∈ [cmd0, cmd1], s.engineWaits gWaits c = false ∧ (s.fits gWaits c).1 ≠ [] ∧
         ∀ w ∈ (s.fits gWaits c).1, ∀ e ∈ w, Sound s gWaits.bare ⟨0, 0, elemChunks c e⟩) ∧
       gWaits.depWaits 0 = false ∧ gWaits.loads.find? (fun l => l.1 = 0) = some (0, [0x20100]) ∧
       (∀ x ∈ [0x20100], s.lineHere gWaits.core x = true) ∧ s.cedeEnd gWaits ≤ s.now) ∧
    let s := stOf gOver rank0
    s.group? grp0.key = some gOver ∧ gOver.live = 0 ∧ gOver.rob = [] ∧ gOver.staged = [] ∧ gOver.cmds = [] ∧ gOver.trap = none ∧
      (s.part grp0.key.team.part).resetAt = none ∧ (∀ h ∈ s.groups, h.key.team = grp0.key.team → h.key = grp0.key) ∧
      let two := { s with groups := [gOver, { grp0 with key := ⟨loaderTeam, 1⟩ }] }
      two.group? grp0.key = some gOver ∧ ∃ h ∈ two.groups, h.key.team = grp0.key.team ∧ h.key ≠ grp0.key :=
  ⟨⟨rfl, by decide +kernel, by decide +kernel, rfl, by decide +kernel, fun c hc => ⟨by revert c; decide +kernel, by revert c; decide +kernel,
      fun w hw e he => clear_sound rfl rfl (all_clear c hc w hw e he)⟩, by decide +kernel⟩,
    rfl, by decide +kernel, rfl, rfl, rfl, rfl, by decide +kernel, by decide +kernel, rfl, by decide +kernel⟩

/-! ## Statements about mailbox requests -/

/-- A request in die 0's mailbox with some body bytes. -/
def mb (i : Mbox → Instr) (l : List Byte) : Mbox := ⟨.die 0, (codeOf (i default)).1, (codeOf (i default)).2, l.length, 5, l⟩

def askOk (i : Instr) (m : Mbox) (len : Nat) (zero : List (Nat × Nat)) (s : State) : Bool :=
  (m.ep, m.op) == codeOf i && s.hasDie 0 && !s.dev.classC && s.dev.provisioned && s.dev.takeover.isNone && s.dev.held.isEmpty && s.dev.unanswered.isEmpty && decide (len ≤ m.len) &&
    decide (m.len ≤ 4080) && zero.all fun z => fieldAt (mboxBytes m) z.1 z.2 == 0

theorem asked {i : Instr} {m : Mbox} {len : Nat} {zero : List (Nat × Nat)} {s : State} (hm : m.src = .die 0) (h : askOk i m len zero s = true) :
    Asked i m len zero s := by
  simp only [askOk, Bool.and_eq_true, decide_eq_true_eq, Bool.not_eq_true', List.isEmpty_iff, Option.isNone_iff_eq_none, List.all_eq_true,
    beq_iff_eq, and_assoc] at h
  obtain ⟨code, die, up, bundle, lease, none_, later, len, room, zeros⟩ := h
  exact ⟨⟨0, hm, die⟩, ⟨up, bundle, lease⟩, code, ⟨by rw [none_]; simp, by rw [later]; simp⟩, ⟨len, room⟩, zeros⟩

/-- A context image (R247) at 0x30000: tables at 0x10000, a save area, slots of 64 KiB. -/
def ctxBytes : List Byte := leBytes 8 0x10000 ++ List.replicate 48 0 ++ leBytes 8 65536 ++ List.replicate 192 0

def stCtx : State := { st0 with ram := { st0.ram with mem := st0.ram.mem.putNum 0x30000 256 (leNat ctxBytes) } }

/-- The loader's context with a save area of four slots of 1 MiB. -/
def stSave : State := st0.updCtx 0 0 fun c => { c with saveBase := 0x100000, saveLen := 0x400000, slotSz := 0x100000 }

/-- The body of DESC_WRITE, BOOTH_WRITE, CTX_CREATE and DMAQ_WRITE. -/
def mDesc : Mbox := mb .descWrite ([1] ++ List.replicate 7 0 ++ leBytes 8 1 ++ List.replicate 8 0xFF ++ leBytes 8 0x1000000 ++ leBytes 8 1)
def mBooth : Mbox := mb .boothWrite ([0, 3] ++ List.replicate 6 0 ++ leBytes 8 0 ++ leBytes 8 0xC)
def mCtx : Mbox := mb .ctxCreate ([0, 7] ++ List.replicate 6 0 ++ leBytes 8 0x30000)
def mDmaq : Mbox := mb .dmaqWrite ([0, 2] ++ List.replicate 6 0 ++ leBytes 8 0x40000 ++ [6, 0, 1, 0, 0, 0, 0, 0])

theorem meets_PartitionRequests :
    (Asked (.descWrite mDesc) mDesc 40 [(1, 7)] State.reset ∧ mboxPart mDesc = 1 ∧ State.reset.busyPart 1 = false ∧
      let p := { State.reset.part 1 with desc := [1, BitVec.allOnes 64, 0x1000000, 1] }
      descConflict State.reset 1 p = false ∧
        ∀ l ∈ State.reset.linksUsed p, l ∉ State.reset.coh.linkDown) ∧
    (∀ i ∈ [Instr.descRead, .gridList, .reset], Asked (i (mb i [0])) (mb i [0]) 1 [] st0 ∧ mboxPart (mb i [0]) = 0) ∧
    (Asked (.boothWrite mBooth) mBooth 24 [(2, 6)] st0 ∧ fieldAt (mboxBytes mBooth) 1 1 = 3 ∧ (st0.booth 0 3).entries = [] ∧
      (st0.booth 0 3).waits = [] ∧ ((st0.part 0).ctx? 0).isSome = true) ∧
    Asked (.gangMask (mb .gangMask [0, 0, 6, 0])) (mb .gangMask [0, 0, 6, 0]) 4 [(1, 1)] st0 ∧
    (Asked (.ctxCreate mCtx) mCtx 16 [(2, 6)] stCtx ∧ fieldAt (mboxBytes mCtx) 8 8 = 0x30000 ∧ stCtx.ram.tainted 0x30000 256 = false ∧
      ctxBad stCtx (stCtx.part 0) (stCtx.ram.mem.getN 0x30000 256) = false ∧ (stCtx.part 0).ctx? 7 = none) ∧
    (Asked (.ctxDestroy (mb .ctxDestroy [0, 5])) (mb .ctxDestroy [0, 5]) 2 [] st0 ∧ st0.ctxUsed 0 5 = false) ∧
    (Asked (.preemptSpace (mb .preemptSpace [0, 0, 1, 0])) (mb .preemptSpace [0, 0, 1, 0]) 4 [(1, 1)] stSave ∧ stSave.canSave (stSave.teamsOn 0 (stSave.leastCores 0 1)) = true) ∧
    (Asked (.preemptTime (mb .preemptTime [0, 0, 0, 0, 1, 0, 0, 0])) (mb .preemptTime [0, 0, 0, 0, 1, 0, 0, 0]) 8 [(1, 3)] stSave ∧
      stSave.canSave stSave.teams = true ∧ stSave.teams.length = 1) ∧
    (let m := mb .kill [0, 0, 0, 0, 1, 0, 0, 0, 0, 0, 0, 0]
     Asked (.kill m) m 12 [(2, 2)] st0 ∧ (st0.grid? 0 1).isSome = true) ∧
    (Asked (.dmaqWrite mDmaq) mDmaq 24 [(2, 6), (19, 5)] st0 ∧ fieldAt (mboxBytes mDmaq) 18 1 = 1 ∧ fieldAt (mboxBytes mDmaq) 8 8 = 0x40000 ∧
      fieldAt (mboxBytes mDmaq) 16 1 = 6 ∧ (st0.queue 0 2).descs = []) ∧
    Asked (.dieMap (mb .dieMap [0])) (mb .dieMap [0]) 1 [(0, 1)] st0 := by
  refine ⟨⟨asked rfl (by decide +kernel), by decide +kernel⟩, ?_,
    ⟨asked rfl (by decide +kernel), by decide +kernel⟩,
    asked rfl (by decide +kernel),
    ⟨asked rfl (by decide +kernel), by decide +kernel⟩,
    ⟨asked rfl (by decide +kernel), by decide +kernel⟩, ⟨asked rfl (by decide +kernel), by decide +kernel⟩,
    ⟨asked rfl (by decide +kernel), by decide +kernel⟩, ⟨asked rfl (by decide +kernel), by decide +kernel⟩,
    ⟨asked rfl (by decide +kernel), by decide +kernel⟩, asked rfl (by decide +kernel)⟩
  intro i hi
  simp only [List.mem_cons, List.not_mem_nil, or_false] at hi
  rcases hi with rfl | rfl | rfl <;> exact ⟨asked rfl (by decide +kernel), by decide +kernel⟩

/-- Bodies of memory requests. -/
def mInv : Mbox := mb .invalidate ([0, 0, 0] ++ List.replicate 5 0 ++ leBytes 8 0x1234)
def mMig : Mbox := mb .migrate ([0, 0] ++ List.replicate 6 0 ++ leBytes 8 0x20000 ++ leBytes 8 0x40000)
def mPub : Mbox := mb .publishReset ([0, 0, 0] ++ List.replicate 5 0 ++ leBytes 8 0x1100)
def mWin : Mbox := mb .streamWindow ([1, 2, 0, 0, 5, 0, 1, 0] ++ leBytes 8 0x50000 ++ leBytes 8 0x10000 ++ leBytes 8 0x60000)
def mComm : Mbox := mb .commWrite ([0, 1] ++ List.replicate 6 0 ++ leBytes 2 2 ++ leBytes 2 0 ++ leBytes 2 3 ++ List.replicate 10 0 ++ leBytes 4 0 ++ leBytes 4 5)
def mRing : Mbox := mb .landingRing ([0, 2] ++ List.replicate 6 0 ++ leBytes 8 0x100000)

def fault0 : FaultRec := ⟨9, 0, .read, loaderCore, 0x9000, [loaderTeam], false, true⟩

theorem meets_MemoryRequests :
    (Asked (.windowInfo (mb .windowInfo [0])) (mb .windowInfo [0]) 1 [] st0 ∧ st0.hasDie 0 = true) ∧ Asked (.faultRead (mb .faultRead [0])) (mb .faultRead [0]) 1 [] st0 ∧
    (let m := mb .faultReply [0, 1, 0, 0, 9, 0, 0, 0]
     let s := st0.updPart 0 fun p => { p with faults := [fault0] }
     Asked (.faultReply m) m 8 [(2, 2)] s ∧ fieldAt (mboxBytes m) 1 1 = 1 ∧ fieldAt (mboxBytes m) 4 4 = 9 ∧ (s.part 0).faults = [fault0]) ∧
    (Asked (.invalidate mInv) mInv 16 [(3, 5)] st0 ∧ pageSize (fieldAt (mboxBytes mInv) 2 1) = some 4096) ∧
    (Asked (.migrate mMig) mMig 24 [(2, 6)] st0 ∧ pageSize (fieldAt (mboxBytes mMig) 1 1) = some 4096 ∧
      fieldAt (mboxBytes mMig) 8 8 = 0x20000 ∧ fieldAt (mboxBytes mMig) 16 8 = 0x40000) ∧
    (Asked (.publishReset mPub) mPub 16 [(3, 5)] st0 ∧ pageSize (fieldAt (mboxBytes mPub) 2 1) = some 4096 ∧ (st0.part 0).ctx? 0 = some loaderCtx ∧
      walk st0.ram.mem loaderCtx.ptroot 0x1100 = .leaf 0x2020F 0x1000 4096 ∧ st0.resetWaits mPub = false) ∧
    (let b := fun (o w : Nat) => fieldAt (mboxBytes mWin) o w
     Asked (.streamWindow mWin) mWin 32 [(7, 1)] st0 ∧ b 0 1 = 1 ∧ b 1 1 = 2 ∧ b 2 1 = 0 ∧ b 6 1 = 1 ∧ b 8 8 % 65536 = 0 ∧ b 16 8 % 65536 = 0 ∧
       b 16 8 ≠ 0 ∧ b 24 8 % 4096 = 0 ∧ (st0.part 0).owns (b 8 8) (b 16 8) = true ∧ (st0.part 0).owns (b 24 8) 4096 = true) ∧
    (Asked (.commWrite mComm) mComm 24 [(2, 6)] st0 ∧ fieldAt ((mboxBytes mComm).drop 8) 0 2 ≠ 0 ∧
      (parseComm st0.dev.devNum 0 (mComm.len - 8) ((mboxBytes mComm).drop 8)).isSome = true) ∧
    (Asked (.landingRing mRing) mRing 16 [(2, 6)] st0 ∧ fieldAt (mboxBytes mRing) 1 1 = 2 ∧ fieldAt (mboxBytes mRing) 8 8 = 0x100000 ∧
      (st0.part 0).owns 0x100000 (65600 * 2 ^ 2) = true ∧ (st0.part 0).ringUsed = []) := by
  refine ⟨⟨asked rfl (by decide +kernel), by decide +kernel⟩, asked rfl (by decide +kernel),
    ⟨asked rfl (by decide +kernel), by decide +kernel⟩, ⟨asked rfl (by decide +kernel), by decide +kernel⟩,
    ⟨asked rfl (by decide +kernel), by decide +kernel⟩,
    ⟨asked rfl (by decide +kernel), by decide +kernel⟩, ⟨asked rfl (by decide +kernel), by decide +kernel⟩,
    ⟨asked rfl (by decide +kernel), by decide +kernel⟩,
    ⟨asked rfl (by decide +kernel), by decide +kernel⟩⟩

/-- The loader's group halted (Table 20-11), in a machine with a nonce. -/
def gHalt : Group := { grp0 with halt := some ⟨pc0, run0, 42⟩ }

def stHalt : State := { stOf gHalt rank0 with dev := { st0.dev with nonces := [[1, 2]], unlockedAll := true, images := [(1, List.replicate 48 0)] } }

/-- Where a check is a function the manual leaves open (log 12), the other conditions of its request hold. -/
theorem meets_OtherRequests :
    (let m := mb .budget ([0, 0, 0, 0] ++ leBytes 4 100)
     Asked (.budget m) m 8 [(1, 3)] st0 ∧ estimate st0 (st0.part 0) noPoints ≤ 9000 * 100 ∧ st0.budgets 0 + 100 + st0.dev.reserve ≤ st0.dev.cap) ∧
    (let m := mb .cap (leBytes 4 2400)
     Asked (.cap m) m 4 [] st0 ∧ st0.budgets 16 + st0.dev.reserve ≤ 2400) ∧
    (∀ i ∈ [Instr.powerTable, .grants, .counters, .haltList, .logRead], Asked (i (mb i [0])) (mb i [0]) 1 [] st0) ∧
    (∀ i ∈ [Instr.reserve, .alarmRead, .nonce], Asked (i (mb i [])) (mb i []) 0 [] st0) ∧
    (let m := mb .imageLoad ([1] ++ List.replicate 7 0 ++ leBytes 8 0x20000 ++ leBytes 4 64)
     Asked (.imageLoad m) m 20 [(1, 7)] st0 ∧ ∀ d ∈ st0.dies, (assoc d.svn 1).getD 0 = 0) ∧
    (let m := mb .svnCommit ([1] ++ List.replicate 7 0 ++ List.replicate 48 0)
     Asked (.svnCommit m) m 56 [(1, 7)] stHalt ∧ stHalt.dev.images.map Prod.fst = [1]) ∧
    (let m := mb .debugUnlock ([0] ++ List.replicate 7 0 ++ [1])
     Asked (.debugUnlock m) m 8 [(1, 7)] stHalt ∧ stHalt.dev.nonces.head? = some [1, 2]) ∧
    (let m := mb .provision (List.replicate 8 0 ++ [7])
     Asked (.provision m) m 8 [(0, 8)] stHalt ∧
       let s := { stHalt with dev := { stHalt.dev with classC := true, provisioned := false } }
       m.src = .die 0 ∧ s.hasDie 0 = true ∧ (m.ep, m.op) = (3, 6) ∧ s.dev.held = [] ∧ 8 ≤ m.len ∧ m.len ≤ 4080 ∧ fieldAt (mboxBytes m) 0 8 = 0) ∧
    (let m := mb .keyAssign [1, 2, 4, 0, 0, 0, 0, 0]
     Asked (.keyAssign m) m 8 [(4, 4)] st0 ∧ mboxPart m = 1 ∧ 1 < st0.parts.length ∧ st0.busyPart 1 = false ∧ 2 + 4 ≤ (256 : Nat) ∧
       ∀ i, i < 16 → i ≠ 1 → (st0.part i).keyCount = 0 ∨ (st0.part i).keyFirst + (st0.part i).keyCount ≤ 2) ∧
    (Asked (.attach (mb .attach [0, 0])) (mb .attach [0, 0]) 2 [] stHalt ∧ stHalt.dev.unlockedAll = true) ∧ Asked (.detach (mb .detach [0, 0])) (mb .detach [0, 0]) 2 [] stHalt ∧
    (let m := mb .haltRead ([0, 0, 0, 0] ++ leBytes 4 1 ++ leBytes 4 0 ++ leBytes 2 0)
     let m' := { m with op := 5 }
     Asked (.haltRead m) m 14 [(1, 3)] stHalt ∧ Asked (.resume m') m' 14 [(1, 3)] stHalt ∧
       ((stHalt.allGroups 0).find? fun g => g.key = ⟨loaderTeam, 0⟩ && g.halt.isSome) = some gHalt ∧ gHalt.halt = some ⟨pc0, run0, 42⟩) ∧
    (let m := mb .fabricMap ([3, 0] ++ List.replicate 6 0 ++ leBytes 2 5 ++ leBytes 6 77)
     Asked (.fabricMap m) m 8 [(2, 6)] st0 ∧ m.len % 8 = 0 ∧ m.len ≤ 4008) := by
  refine ⟨⟨asked rfl (by decide +kernel), by decide +kernel⟩, ⟨asked rfl (by decide +kernel), by decide +kernel⟩,
    fun i hi => ?_, fun i hi => ?_,
    ⟨asked rfl (by decide +kernel), by decide +kernel⟩, ⟨asked rfl (by decide +kernel), by decide +kernel⟩,
    ⟨asked rfl (by decide +kernel), by decide +kernel⟩, ⟨asked rfl (by decide +kernel), rfl, by decide +kernel⟩,
    ⟨asked rfl (by decide +kernel), by decide +kernel, by decide +kernel, by decide, by decide, by decide +kernel⟩,
    ⟨asked rfl (by decide +kernel), rfl⟩, asked rfl (by decide +kernel),
    ⟨asked rfl (by decide +kernel), asked rfl (by decide +kernel), by decide +kernel, rfl⟩,
    ⟨asked rfl (by decide +kernel), by decide +kernel⟩⟩
  all_goals
    simp only [List.mem_cons, List.not_mem_nil, or_false] at hi
  · rcases hi with rfl | rfl | rfl | rfl | rfl <;> exact asked rfl (by decide +kernel)
  · rcases hi with rfl | rfl | rfl <;> exact asked rfl (by decide +kernel)

/-! ## Statements about coherence, translation and resets -/

def core1 : CoreId := ⟨0, 0, 1⟩

/-- Die 0 at generation 40,000, a line that core 0 holds and core 1 asks for in some stage, and a bank that sleeps or not. -/
def stHome (stage : ReqStage) (wait : List CoreId) (asleep : List (Nat × Nat × Nat)) : State :=
  let line : Line := ⟨0x20100, .s, none, [loaderCore], false, some 100⟩
  { st0 with coh := { st0.coh with lines := [line], reqs := [⟨core1, 0x20100, true, false, stage, wait, []⟩], dg := [40000, 0, 0, 0],
                                   asleep := asleep, narrows := [⟨0x20100, 0, 0, .die, 7, true⟩] } }

theorem meets_HomesAndScopes :
    (let s := stHome .sent [] []
     (s.coh.req? core1 0x20100).isSome = true ∧ (s.coh.req? core1 0x20100).all (fun r => r.stage == .sent && r.own) = true ∧
       s.arriving 0x20100 = false ∧ s.leaving 0x20100 = false ∧ ∀ q ∈ s.coh.reqs, q.line = 0x20100 → q.stage ≠ .probing) ∧
    (let s := stHome .probing [loaderCore] []
     (s.coh.reqs.find? fun r => r.line = 0x20100 && r.stage == .probing && r.wait.contains loaderCore).isSome = true ∧ s.lockOf 0x20100 = none) ∧
    (let s := stHome .probing [] []
     (s.coh.req? core1 0x20100).all (fun r => s.grantable r && r.own) = true ∧ (s.coh.req? core1 0x20100).isSome = true ∧ s.coh.sleeps 0x20100 = false) ∧
    (∀ slice, let s := stHome .sent [] []
      (s.coh.asleep.any fun a => a.1 == 0 && a.2.1 == slice) = false ∧ s.coh.dg.getD 0 0 = 40000 ∧ 2 ^ 14 ≤ (40000 + 65536 - 100) % 65536) ∧
    (∀ slice, let s := stHome .sent [] [(0, slice, 1000)]
      (s.coh.asleep.find? fun a => a.1 = 0 ∧ a.2.1 = slice) = some (0, slice, 1000) ∧ 1000 + 2 ^ 15 ≤ s.coh.dg.getD 0 0) ∧
    let s := stHome .sent [] []
    (s.coh.narrows.find? fun n => n.line = 0x20100 && n.die = 0 && n.cluster = 0 && n.asked).isSome = true ∧ 0 < s.coh.dg.length := by
  refine ⟨by decide +kernel, by decide +kernel, by decide +kernel, fun slice => ⟨rfl, rfl, by decide⟩, fun slice => ⟨?_, show 1000 + 2 ^ 15 ≤ 40000 by decide⟩,
    by decide +kernel⟩
  simp [stHome]

def sync0 : TlbSync := ⟨4, [(grp0.key, 0)], some (.die 0, 9)⟩

def mig0 : Migration := ⟨5, 0, 4096, 0x20000, 0x40000, (.die 0, 9)⟩

def stTrans : State :=
  { stOf { grp0 with walk := some { Walk.start 0 0 0 with ready := true } } rank0 with
    coh := { st0.coh with syncs := [sync0], migs := [mig0] }
    iods := [{ Iod.reset with proto := some .cxl }, Iod.reset] }

theorem meets_TranslationsAndMigrations :
    (stTrans.coh.syncs.find? fun y => y.id = 4) = some sync0 ∧ sync0.mbox = some (.die 0, 9) ∧ sync0.waits.all stTrans.performed = true ∧
    (∃ d ∈ stTrans.iods, d.proto = some .cxl) ∧ (stTrans.coh.migs.find? fun m => m.id = 5) = some mig0 ∧
    stTrans.pageLocked mig0.src mig0.size = false ∧ stTrans.ram.mem.wf = true ∧ mig0.src + mig0.size ≤ mig0.dst ∧
    (∃ g w, stTrans.group? grp0.key = some g ∧ g.walk = some w ∧ w.ready = true) :=
  ⟨rfl, rfl, by decide +kernel, by decide +kernel, rfl, by decide +kernel, by decide +kernel, by decide, ⟨_, _, rfl, rfl, rfl⟩⟩

def stReset (x : Bool) : State := st0.updPart 0 fun p => { p with ready := false, resetAt := some 3, dropped := x, resetMbox := [(.die 0, 9)] }

theorem meets_FatalResets :
    (4 < 8 ∧ 4 ∉ st0.coh.linkDown ∧ 0 < st0.parts.length ∧ 4 ∈ st0.linksUsed (st0.part 0)) ∧ st0.bound 0 0 = some 0 ∧
    (((stReset false).part 0).resetAt.isSome = true ∧ ((stReset false).part 0).dropped = false ∧ 0 < (stReset false).parts.length) ∧
    ((stReset true).part 0).dropped = true ∧ (stReset true).dev.classC = false := by decide +kernel

/-! ## Statements about matrix operations, scheduling and clocks -/

def op0 (x : Bool) : MatOp :=
  ⟨3, 0, signs0 ++ [signOf (.tmac c0 false .bf16 (.zreg 0) (.breg 0) v0 (.creg 0) (.imm 1)) v0 c0 grp0 pc0], none, x, 0⟩

def rankOp (x : Bool) : Rank := { rankB with ops := [op0 x] }

def rankFree : Rank := { rank0 with b := [(0, ⟨0, 2048, 13, true, true⟩)] }

theorem meets_MatrixOperations :
    (((stOf grp0 (rankOp false)).rank? loaderTeam 0).isSome = true ∧ ((stOf grp0 (rankOp false)).opReady loaderTeam 0).isSome = true ∧
      (stOf grp0 (rankOp false)).mayStart 0 0 = true) ∧
    (let s := stOf { grp0 with rob := [entry1 grp0.seq false] } (rankOp true)
     (s.rankOf loaderTeam 0).ops.find? MatOp.started = some (op0 true) ∧ (op0 true).slot = none ∧
       (∃ y l, (s.rankOf loaderTeam 0).tileOf ((op0 true).signs.headD default).source = some (y, l)) ∧ (s.rankOf loaderTeam 0).opPoison = [] ∧
       TileSound ((s.rankOf loaderTeam 0).z.getD ((op0 true).signs.headD default).tmac.z default) (List.range 64) ∧
       grp0.staged = [] ∧ ({ grp0 with rob := [entry1 grp0.seq false] }).depWaits grp0.seq = false ∧
       ∃ x ∈ (op0 true).signs, x.group = grp0.key ∧ x.seq = (entry1 grp0.seq false).seq) ∧
    (let s := stOf grp0 rankFree
     ∃ y, assoc (s.rankOf loaderTeam 0).b 0 = some y ∧ y.marked = true ∧ y.freed = true ∧ (s.rankOf loaderTeam 0).reads 0 = false) :=
  ⟨by decide +kernel, ⟨rfl, rfl, ⟨_, _, rfl⟩, rfl, by unfold TileSound; decide +kernel, rfl, by decide +kernel⟩, _, rfl, rfl, rfl, by decide +kernel⟩

/-- A launch block (Table 17-1) of one team of sixteen threads, and the entry that names it at virtual 0x1100. -/
def launchBytes : List Byte :=
  leBytes 8 0x1000 ++ List.replicate 128 0 ++ leBytes 4 1 ++ leBytes 2 1 ++ leBytes 2 1 ++ leBytes 4 16 ++ leBytes 4 1 ++ leBytes 4 1 ++
    List.replicate 100 0

def launchEntry : BoothEntry := ⟨0x1000000000001100 :: List.replicate 7 0, []⟩

def stLaunch : State :=
  let s := st0.updBooth 0 0 fun b => { b with w1 := 0x8, entries := [launchEntry] }
  { s with ram := { s.ram with mem := s.ram.mem.putNum 0x20100 256 (leNat launchBytes) } }

def waiting0 (since : Option Nat) : Waiting := ⟨parseLaunch 0x1100 launchBytes, 0, since, 0, 0, 0, 0, none, []⟩

def stWait (w : Waiting) : State := { (st0.updBooth 0 0 fun b => { b with w1 := 0x8, waits := [w] }) with now := 10000000 }

/-- The loader's grid with its team gone. -/
def stOver : State := { st0 with groups := [], teams := [] }

theorem meets_Launches :
    0 < st0.parts.length ∧ 0 < (st0.part 0).booths.length ∧
    (let b := stLaunch.booth 0 0
     b.entries = launchEntry :: [] ∧ b.valid = true ∧ b.work = false ∧ b.waits = [] ∧ launchEntryOk launchEntry.words = true ∧
       ∃ l, ioRuns stLaunch 0 b.ctx .read 0x1100 256 = some l ∧ ioBusy stLaunch l = false ∧ ioPoison stLaunch l = false ∧
         judgeLaunch stLaunch 0 b.ctx false (parseLaunch 0x1100 (ioBytes stLaunch l)) = none ∧
         (parseLaunch 0x1100 (ioBytes stLaunch l)).used = []) ∧
    (let s := stWait (waiting0 none)
     (s.booth 0 0).waits = waiting0 none :: [] ∧ (waiting0 none).blk.used = [] ∧ (∀ i, i < 65 → i ≠ 0 → (s.booth 0 i).waits = [])) ∧
    (let s := stWait (waiting0 (some 0))
     (s.booth 0 0).waits = waiting0 (some 0) :: [] ∧ (waiting0 (some 0)).raised + 10000000 ≤ s.now ∧ (waiting0 (some 0)).level < 3 ∧
       (s.part 0).ready = true ∧ (s.placeNext 0 2 []).isSome = true) ∧
    (∃ g, stOver.grid? 0 1 = some g ∧ stOver.gridOver 0 g = true ∧ g.gang = none ∧ g.ring = none ∧ g.blk.complctl = 0 ∧
      ∀ i, i < 65 → (stOver.booth 0 i).waits = []) :=
  ⟨by decide +kernel, by decide +kernel,
    ⟨by decide +kernel, by decide +kernel, by decide +kernel, by decide +kernel, by decide +kernel, ⟨[⟨0x20100, 256, 0x2020F⟩], by decide +kernel⟩⟩,
    by decide +kernel, by decide +kernel, _, rfl, by decide +kernel, rfl, rfl, rfl,
    by decide +kernel⟩

/-- A gang launch of partitions 0 and 1, the second of which is not ready. -/
def gangWait (tries : Nat) : Waiting :=
  let w := waiting0 (some 0)
  { w with blk := { w.blk with gang := 3 }, tries := tries }

def stGang (tries : Nat) : State :=
  (stWait (gangWait tries)).updPart 1 fun p => { p with ready := false, booths := p.booths.modify 0 fun b => { b with w1 := 0x8 } }

def stResv : State := { stGang 2 with dev := { st0.dev with gangResv := some ⟨0, 0, 5, []⟩, lease := 100 } }

theorem meets_GangsLeaseAndSaves :
    (∀ n ∈ [0, 2], (stGang n).gangTurn 0 0 = some (gangWait n) ∧ (stGang n).dev.takeover = none ∧ (stGang n).noCarrier (gangWait n).blk = false ∧
      (stGang n).dev.gangResv = none ∧ ((stGang n).holdGang (gangWait n) ⟨0, 0, (stGang n).now, []⟩).whole (gangWait n) = false ∧
      (∀ x ∈ (stGang n).gangAsking, (gangWait n).since.getD 0 < x.2.2 ∨ ((gangWait n).since.getD 0 = x.2.2 ∧ 0 ≤ x.1)) ∧ (gangWait n).tries = n ∧
      (gangWait n).retryAt ≤ (stGang n).now) ∧
    (stResv.dev.gangResv = some ⟨0, 0, 5, []⟩ ∧ 0 < stResv.parts.length ∧ 0 < (stResv.part 0).booths.length ∧ 5 + 100000 ≤ stResv.now ∧ (stResv.booth 0 0).waits = gangWait 2 :: [] ∧
      (gangWait 2).tries < 15) ∧
    (stResv.dev.lease ≤ stResv.now ∧ stResv.dev.takeover = none ∧ stResv.hasDie 1 = true ∧ 1 ∈ [1, 2] ∧
      ∀ x, x < 1 → stResv.hasDie x = true → x ∉ [1, 2]) := by
  refine ⟨?_, by decide +kernel⟩
  intro n hn
  fin_cases hn <;> decide +kernel

def stDie (d : Die) (now : Nat) : State := { st0 with dies := st0.dies.set 0 d, now := now }

theorem meets_ClockEvents :
    (∀ x ∈ [(⟨5, 4, [], 5, 1⟩ : Grant), ⟨5, 6, [], 6, 0⟩], let s := stDie { Die.reset with math := x :: Die.reset.math.drop 1, raises := [(0, 6)] } 0
      0 < s.dies.length ∧ ((s.die 0).grant 0 0).point ≠ ((s.die 0).grant 0 0).target ∧ 0 < (s.die 0).math.length ∧ 0 < (s.die 0).vec.length ∧
        (s.die 0).mayRaise 0 6 = true ∧ s.admits 0 (s.raiseAmps 0 0 x) = true) ∧
    (st0.die 0).lead = none ∧
    (let s := stDie { Die.reset with lead := some ⟨1950, true, [(0, 6)]⟩ } 2000
     (s.die 0).lead = some ⟨1950, true, [(0, 6)]⟩ ∧ (1950 + 99) / 100 * 100 ≤ s.now) ∧
    (let s := stDie { Die.reset with storm := some (some 0), restartsIv := 3 } 10000000
     (s.die 0).storm = some (some 0) ∧ 0 + 10000000 ≤ s.now ∧ (s.die 0).restartsIv < 16) := by decide +kernel

theorem meets_SecurityEvents :
    (let s := { st0 with iods := st0.iods.set 0 { Iod.reset with streams := [(1, [7])] } }
     assoc (s.iod 0).streams (0 + 1) = some [7] ∧ s.bound 0 0 = some 0) ∧
    (0 < 16 ∧ 0 < st0.parts.length ∧ (st0.part 0).word 3 ≠ 0) ∧ st0.dev.classC = false ∧ 0 < st0.iods.length ∧
    (1 ≤ 64 ∧ 64 ≤ (if LinkProto.cxl = .cxl then 64 else 128)) ∧ st0.ram.mem.wf = true := by decide +kernel

/-! ## Statements about host ports, the Wharf and the machine as a whole -/

def peerWrite : PeerReq := ⟨0, 5, 0, .write, 0x50000, 0, [1, 2, 3, 4]⟩

def peerRead (k : PeerKind) : PeerReq := { peerWrite with kind := k, len := 4, data := [] }

/-- A DMA descriptor (Table 20-13): 64 bytes from the host to virtual 0x1100, with no completion action; and a transfer of it. -/
def dmaDesc : List Byte := leBytes 8 0x100000 ++ leBytes 8 0x1100 ++ leBytes 4 64 ++ List.replicate 44 0

def xfer0 (ended : Bool) : Xfer := ⟨dmaDesc, 0, 0, List.replicate 64 7, 0, 0, ended, false, []⟩

def stDma (descs : List (List Byte × View)) (cur : Option Xfer) : State :=
  { st0 with now := 48, parts := st0.parts.modify 0 fun p =>
      { p with queues := p.queues.modify 0 fun q => { q with valid := true, descs := descs, cur := cur } } }

def stHost : State :=
  let s := stDma [] none
  { (s.updBooth 0 0 fun b => { b with w1 := 0xA }) with
    iods := s.iods.set 0 { Iod.reset with wins := Iod.reset.wins.set 2 ⟨true, 0, 0, 5, 0x50000, 0x10000, 0x60000⟩ } }

/-- The same with a CXL port whose host holds the line. -/
def stCxl : State :=
  { stHost with
    iods := stHost.iods.set 0 { Iod.reset with proto := some .cxl }
    coh := { stHost.coh with lines := [⟨0x50000, .s, none, [hostCore 0], false, none⟩] } }

def dueVec : Msix := { Msix.reset with pend := 1, masked := false }

def stDue : State := { (st0.updPart 0 fun p => { p with vectors := p.vectors.set 3 dueVec }) with now := 1000 }

/-- A part of a stream write that waits to be released. -/
def posted0 : Posted := ⟨0, (0, 5), (0, 0), 0x50000, [1, 2], false⟩

theorem meets_HostPorts :
    (0 < stHost.parts.length ∧ (stHost.part 0).ready = true ∧ (stHost.part 0).described = true ∧ stHost.bound 0 0 = some 0 ∧ (stHost.booth 0 0).hostenq = true ∧ (stHost.booth 0 0).valid = true ∧
      (stHost.booth 0 0).full = false ∧ 0 < (stHost.part 0).queues.length ∧ (stHost.queue 0 0).valid = true ∧ (stHost.queue 0 0).full = false ∧
      3 < (stHost.part 0).vectors.length ∧ ((stHost.part 0).vectors.getD 3 Msix.reset).pend = 0 ∧ 0 < (stHost.part 0).booths.length) ∧
    ((stDue.part 0).described = true ∧ (stDue.part 0).vectors.getD 3 Msix.reset = dueVec ∧ dueVec.masked = false ∧ 0 < dueVec.pend ∧ dueVec.oldest + 1000 * dueVec.timer ≤ stDue.now) ∧
    (stHost.holder peerWrite.addr = some 0 ∧ stHost.ram.mem.wf = true ∧ peerWrite.kind = .write ∧ peerWrite.data ≠ [] ∧
      stHost.peerRefused peerWrite.addr 4 = false ∧ ioBusy stHost [⟨peerWrite.addr, 4, 0⟩] = false ∧
      stHost.holder (peerRead .read).addr = some 0 ∧ (peerRead .read).kind = .read ∧ (peerRead .atomic).kind = .atomic ∧
      0 < (peerRead .read).len ∧ stHost.ram.tainted (peerRead .read).addr 4 = false) ∧
    (stCxl.part 0).ready = true ∧ (stCxl.part 0).described = true ∧ stCxl.holder (peerRead .cxlRead).addr = some 0 ∧ stCxl.ram.mem.wf = true ∧
    (peerRead .cxlRead).kind = .cxlRead ∧ stCxl.peerRefused (peerRead .cxlRead).addr 4 = false ∧
    stCxl.ram.tainted (peerRead .cxlRead).addr 4 = false ∧ (stCxl.iod 0).proto = some .cxl ∧
    (∀ l ∈ linesOf (peerRead .cxlRead).addr 4, stCxl.coh.holds (hostCore 0) l = true) ∧
    (let s := { st0.updPart 0 (fun p => { p with posted := [posted0] }) with now := 48 }
     (s.part 0).posted = posted0 :: [] ∧ posted0.at_ + 48 ≤ s.now ∧ ioBusy s [⟨posted0.addr, posted0.data.length, 0⟩] = false) ∧
    (∃ i x, stHost.window? peerWrite = some (i, x) ∧ x.part = 0 ∧ ∀ l ∈ linesOf peerWrite.addr 4, stHost.privLine l = false) ∧
    ((stDma [(dmaDesc, [])] none).queue 0 0).descs = (dmaDesc, []) :: [] ∧ ((stDma [(dmaDesc, [])] none).queue 0 0).cur = none ∧ (parseDma dmaDesc).bad = false ∧
    (∃ a b, chunkRuns (stDma [(dmaDesc, [])] none) 0 ⟨dmaDesc, 0, 0, [], 0, 48, false, false, []⟩ = some (a, b)) ∧
    (let s := stDma [] (some (xfer0 false))
     ∃ a y, (s.queue 0 0).cur = some (xfer0 false) ∧ (xfer0 false).at_ + 48 ≤ s.now ∧ chunkRuns s 0 (xfer0 false) = some (a, [y]) ∧
       ioBusy s a = false ∧ ioBusy s [y] = false ∧ (xfer0 false).pois = false ∧ (parseDma dmaDesc).len ≤ 0 + 64 ∧ 64 = y.n ∧
       0 < (parseDma dmaDesc).len) ∧
    (let s := stDma [] (some (xfer0 true))
     (s.queue 0 0).cur = some (xfer0 true) ∧ (parseDma dmaDesc).doSt = false ∧ (parseDma dmaDesc).doCnt = false ∧
       (parseDma dmaDesc).doIrq = false) :=
by
  and_intros
  all_goals first
    | decide +kernel
    | exact ⟨2, ⟨true, 0, 0, 5, 0x50000, 0x10000, 0x60000⟩, by decide +kernel, rfl, by decide +kernel⟩
    | exact ⟨[⟨0x100000 + Config.hostBase, 64, 0⟩], [⟨0x20100, 64, 0x2020F⟩], by decide +kernel⟩
    | exact ⟨[⟨0x100000 + Config.hostBase, 64, 0⟩], ⟨0x20100, 64, 0x2020F⟩, by decide +kernel⟩

def header0 : WharfHeader := ⟨4, 0, 7, 1, 9, 0, 2, 0, 0⟩

def send0 (at_ : Option Nat) : Send := ⟨9, 2, 0, grp0.key, pc0, run0, 8, { header0 with srcDev := 0, dstDev := 9, srcPart := 0, dstPart := 2 }, [1, 2, 3, 4], at_, [], 0x1100⟩

def coll0 : CollOp := ⟨1, 9, 0, 3, 0, 1, leBytes 4 5, [(0x20180, 4)], grp0.key, pc0, run0, 8, 0, [], none, []⟩

/-- A landing ring of four slots, a communicator of two ranks, a send and a collective, whose group waits for them. -/
def stWharf (at_ : Option Nat) : State :=
  { (stOf { gGate with rob := [entry1 0 false], blocked := run0 } rank0).updPart 0 (fun p => { p with
      ringN := some 2, ringPa := 0x100000, comms := [(1, ⟨2, 0, 1, [(0, 0), (9, 2)]⟩)], sends := [send0 at_], colls := [coll0] }) with now := 1000000 }

theorem meets_WharfEvents :
    (let s := stWharf none
     0 < s.parts.length ∧ header0.dstDev = s.dev.devNum ∧ badHeader header0 [1, 2, 3, 4] = false ∧ (s.part 0).freeSlot? = some 0 ∧
       (s.part 0).ready = true ∧ (s.part 0).expects (9, 2) = 0 ∧ runsBusy s [((s.part 0).payloadAt 0 - 64, 65600)] = false ∧
       (s.part 0).armings = [] ∧ (s.part 0).unmatched.length < 64 ∧ s.ram.mem.wf = true ∧
       badHeader { header0 with kind := 2 } [1, 2, 3, 4] = false) ∧
    (let s := stWharf none
     ∃ c, assoc (s.part 0).comms 1 = some c ∧ c.ranks.findIdx (fun x => x == (9, 2)) = 1 ∧ 1 < c.nr) ∧
    ((stWharf none).sendsTo 0 (destNo 9 2)).find? (fun m => m.sentAt.isNone) = some (send0 none) ∧ 9 ≠ (stWharf none).dev.devNum ∧
    ((stWharf (some 0)).sendsTo 0 (destNo 9 2)).find? (fun m => m.seq = 0 && m.sentAt.any fun t => decide (t + 1000000 ≤ (stWharf (some 0)).now)) =
      some (send0 (some 0)) ∧
    (let s := stWharf none
     let c : Comm := ⟨2, 0, 1, [(0, 0), (9, 2)]⟩
     let all := fun (op : Nat) => (s.collParts c 1 9 [default, ⟨op, 3, 0, 1, leBytes 4 6, 9⟩]).set 0 coll0.own
     s.coll? 0 1 9 = some coll0 ∧ assoc (s.part 0).comms 1 = some c ∧ runsBusy s coll0.dst = false ∧ coll0.fate = none ∧
       coll0.start + 1000000 * c.tmo ≤ s.now ∧ s.ram.mem.wf = true ∧
       (∀ y ∈ all 0, y.op = coll0.op ∧ y.ty = coll0.ty ∧ y.root = coll0.root ∧ y.count = coll0.count ∧ y.seq = coll0.seq ∧ y.data.length = coll0.data.length) ∧
       (collResult coll0 0 ((all 0).map CollPart.data)).length = 4 ∧ mismatchAt coll0.own (all 1) = some 1) ∧
    (let s := (stWharf none).updPart 0 fun p => { p with colls := [{ coll0 with fate := some 1 }] }
     s.coll? 0 1 9 = some { coll0 with fate := some 1 } ∧ runsBusy s coll0.dst = false) ∧
    (∃ g e, (stWharf none).group? grp0.key = some g ∧ g.rob = [e] ∧ e.pc = pc0 ∧ e.executed = false ∧ 8 < g.arch.s.length) :=
  ⟨by decide +kernel, ⟨_, rfl, by decide +kernel⟩, by decide +kernel, by decide +kernel, by decide +kernel, by decide +kernel, by decide +kernel,
    _, _, rfl, rfl, rfl, rfl, by decide +kernel⟩

/-- A fetched word of the loader's group, good or with a fault. -/
def fetched0 (w : BitVec 96) (par : Bool) : Fetched := ⟨⟨grp0.key, run0, pc0⟩, w, par, true⟩

def stFetched (w : BitVec 96) (par : Bool) : State := { st0 with latch := some (fetched0 w par) }

def badWord : BitVec 96 := 0xC00C00C0_0C00C004_007BC042

def idle0 : State := { code st0 nopWord with issue := none }

theorem meets_StepRunsFetched :
    (let P := fun (w : BitVec 96) (par : Bool) =>
      (stFetched w par).latch = some (fetched0 w par) ∧ probesFirst (stFetched w par) (fetched0 w par) = false ∧
        (stFetched w par).group? grp0.key = some grp0 ∧ run0 &&& grp0.arch.parked = 0 ∧ (ctlOf w).hd = false
     P nopWord true ∧ P nopWord false ∧ P badWord true) ∧
    (decode nopWord).isOk = true ∧ decode badWord = .error .unassignedOpcode ∧ active (ctlOf badWord) grp0 run0 ≠ 0 ∧
    grp0.holdsBack (.nop (ctlOf badWord)) = false ∧
    (let s := { idle0 with groups := [{ gGate with commit := some { commit0 with word := nopWord } }] }
     let g := { gGate with commit := some { commit0 with word := nopWord } }
     s.latch = none ∧ s.agenda = [] ∧ s.dueEvent = none ∧ s.looked = s ∧ s.nextGroup = some g ∧ g.commitTurn.isSome = true ∧
       decode commit0.word ≠ .ok (.nop c0) ∧ decode nopWord = .ok (.nop c0)) ∧
    (idle0.latch = none ∧ idle0.agenda = [] ∧ idle0.dueEvent = none ∧ idle0.looked = idle0 ∧ idle0.nextGroup = some grp0 ∧ grp0.commitTurn = none ∧
      run0 &&& grp0.arch.entering = 0 ∧ grp0.decide_ = some (run0, pc0) ∧
      ∃ l p, fetchLine idle0 { grp0 with lastAt := idle0.now + 1 } pc0 = .line l p ∧ lineParityOk l = true ∧ lineReservedOk l = true ∧
        decode (slotWord l (pc0 &&& 7).toNat) = .ok (.nop c0)) := by
  refine ⟨by decide +kernel, rfl, rfl, by decide +kernel, by decide +kernel, by decide +kernel, rfl, rfl, by decide +kernel, by decide +kernel,
    by decide +kernel, by decide +kernel, by decide +kernel, by decide +kernel, ?_⟩
  have h : ((lineOf (fetchLine idle0 { grp0 with lastAt := idle0.now + 1 } pc0)).any fun x => lineParityOk x.1 && lineReservedOk x.1 &&
    decide (decode (slotWord x.1 (pc0 &&& 7).toNat) = .ok (.nop c0))) = true := by decide +kernel
  generalize fetchLine idle0 { grp0 with lastAt := idle0.now + 1 } pc0 = r at h
  cases r with
  | line l p =>
    simp only [lineOf, Option.any_some, Bool.and_eq_true, decide_eq_true_eq] at h
    exact ⟨l, p, rfl, h.1.1, h.1.2, h.2⟩
  | absent p => cases h
  | fault c => cases h

def isNext (x : Out_) : Bool := match x with
  | .next _ => true
  | _ => false

theorem next_of {x : Out_} (h : isNext x = true) : ∃ t, x = .next t := by
  cases x <;> simp [isNext] at *

theorem meets_MemoryFormKept : MemoryOk st0 ∧ (∃ t, step idle0 = .next t) ∧ MemoryOk idle0 :=
  ⟨by unfold MemoryOk; decide +kernel, next_of (by decide +kernel), by unfold MemoryOk; decide +kernel⟩

theorem meets_NeverStops :
    Instr.packageReset.ctl = none ∧ st0.issue = some ⟨grp0.key, run0, pc0⟩ ∧ (st0.group? grp0.key).isSome = true ∧
    Scheduled (stFetched nopWord true) :=
  ⟨rfl, rfl, by decide +kernel, fun f hf => (by cases hf; decide +kernel), by decide +kernel⟩

theorem meets_DecodeEncode :
    (∀ i ∈ [Instr.iadd c0 true .s8 v0 v2 v4, .tmac c0 false .bf16 (.zreg 0) (.breg 0) v0 (.creg 0) (.imm 1), .nop c0], i.wf = true ∧ i.ctl = some c0) ∧
    (decode nopWord).isOk = true := by decide +kernel

/-! ## A team that can be saved -/

/-- A small team being saved, and a machine whose I/O dies hold the 2 MiB page of the save area at virtual 0x200000 translated. -/
def saveTeam0 : Team :=
  { team0 with status := .saving, blk := { lau with scratch := 0, opbuf := 0, shape := 0 }, ranks := [Rank.fresh 0 []] }

def stSaving : State :=
  let s := st0.updCtx 0 0 fun c => { c with saveBase := 0x200000, saveLen := 0x200000, slotSz := 0x100000 }
  { s with teams := [saveTeam0], groups := [{ grp0 with stop := true }]
           coh := { s.coh with tlb := [⟨0, 0, iodCore, 0x200000, 0x200000, 0x400207, false⟩] } }

theorem save_probe {s : State} (hp : s.parts = stSaving.parts) (ht : s.coh.tlb = stSaving.coh.tlb) {va : Nat} (h1 : 0x200000 ≤ va)
    (h2 : va < 0x400000) : ioProbe s 0 0 .write va = .ok ⟨leafAddr 0x400207 0x200000 va, 0x400207, 0x200000, 0x200000⟩ := by
  have hc : ∃ c, (stSaving.part 0).ctx? 0 = some c ∧ c.num = 0 := ⟨_, rfl, rfl⟩
  obtain ⟨c, hc, hn⟩ := hc
  have hpart : s.part 0 = stSaving.part 0 := by simp only [State.part, hp]
  have hl : lookup s 0 c iodCore va = .leaf 0x400207 0x200000 0x200000 := by
    have : tlbHit s 0 0 iodCore va = some ⟨0, 0, iodCore, 0x200000, 0x200000, 0x400207, false⟩ := by
      have h1 : s.coh.level1 iodCore = [⟨0, 0, iodCore, 0x200000, 0x200000, 0x400207, false⟩] := by
        simp only [Coh.level1, ht]
        rfl
      simp only [tlbHit, h1]
      rw [List.find?_cons_of_pos]
      · rfl
      · simp; omega
    simp only [lookup, hn, this]
  have ha : (!allows .write 0x400207) = false := by decide +kernel
  have ho : (pteMt 0x400207 == 0 && !ownsPage (stSaving.parts.getD 0 Part.reset) 0x400207 0x200000) = false := by decide +kernel
  have hk : (!keyOk (stSaving.parts.getD 0 Part.reset) 0x400207) = false := by decide +kernel
  have hm : (pteMt 0x400207 == 1) = false := by decide +kernel
  simp only [ioProbe, hpart, hc, probe, judged, hl, hp, ha, ho, hk, hm, Bool.false_and, Bool.or_false]
  rw [if_neg (by omega)]
  rfl

theorem save_runs {s : State} (hp : s.parts = stSaving.parts) (ht : s.coh.tlb = stSaving.coh.tlb) {a n : Nat} (h1 : 0x200000 ≤ a)
    (h2 : a + n ≤ 0x400000) : ∃ l, ioRuns s 0 0 .write a n = some l := by
  have key : ∀ ps : List (Nat × Nat), (∀ x ∈ ps, 0x200000 ≤ x.1 ∧ x.1 < 0x400000) → ∃ l, ps.foldr (fun x o => o.bind fun l =>
      match ioProbe s 0 0 .write x.1 with
      | .ok p =>
        if (linesOf p.pa x.2).any fun y => escapes s 0 0 none { p with pa := y } then none else some ((⟨p.pa, x.2, p.pte⟩ : IoRun) :: l)
      | _ => none) (some []) = some l := by
    intro ps
    induction ps with
    | nil => exact fun _ => ⟨[], rfl⟩
    | cons x t ih =>
      intro h
      obtain ⟨l, hl⟩ := ih fun y hy => h y (by simp [hy])
      have hx := h x (by simp)
      have he : (ptePriv 0x400207) = false := by decide +kernel
      rw [List.foldr_cons, hl]
      simp [save_probe hp ht hx.1 hx.2, escapes, he]
  unfold ioRuns
  rw [if_neg (by omega)]
  refine key _ fun x hx => ?_
  unfold pageRuns at hx
  split at hx
  · simp at hx
  · simp only [List.mem_map, List.mem_range] at hx
    obtain ⟨i, hi, rfl⟩ := hx
    simp only
    omega

theorem trim_tlb (c : Coh) (line : Nat) : (c.trim line).tlb = c.tlb := by
  unfold Coh.trim
  split
  · rfl
  · have key : ∀ (ds : List Nat) (f : Coh → Nat → BitVec 9) (x : Coh), (ds.foldl (fun x d => x.setGuest d line (f x d)) x).tlb = x.tlb := by
      intro ds f
      induction ds with
      | nil => exact fun _ => rfl
      | cons d r ih => exact fun x => (ih (x.setGuest d line (f x d))).trans rfl
    exact key _ _ _

theorem woken_tlb (c : Coh) (line : Nat) : (c.woken line).tlb = c.tlb := by
  unfold Coh.woken Coh.wake
  split
  · split <;> rfl
  · rfl

theorem key_tlb (s : State) (x : IoRun) : (s.ioKey x).parts = s.parts ∧ (s.ioKey x).coh.tlb = s.coh.tlb := by
  have key : ∀ (l : List (Nat × Nat)) (n : Nat) (c : Coh),
      (l.foldl (fun c y => c.useKey (y.1 / 4096 * 4096) 4096 n) c).tlb = c.tlb := by
    intro l n
    induction l with
    | nil => exact fun _ => rfl
    | cons y r ih =>
      intro c
      rw [List.foldl_cons, ih]
      unfold Coh.useKey
      split <;> rfl
  unfold State.ioKey
  split
  · exact ⟨rfl, key _ _ _⟩
  · exact ⟨rfl, rfl⟩

theorem save_put (s : State) (a : Nat) (d : List Byte) (k : StoreKind) : (s.ioPut a d k).parts = s.parts ∧ (s.ioPut a d k).coh.tlb = s.coh.tlb := by
  have key : ∀ (l : List Nat) (t : State), (l.foldl State.bypass t).parts = t.parts ∧ (l.foldl State.bypass t).coh.tlb = t.coh.tlb := by
    intro l
    induction l with
    | nil => exact fun _ => ⟨rfl, rfl⟩
    | cons x r ih =>
      intro t
      obtain ⟨h1, h2⟩ := ih (t.bypass x)
      rw [List.foldl_cons, h1, h2]
      unfold State.bypass
      split
      · exact ⟨rfl, rfl⟩
      · exact ⟨rfl, (trim_tlb _ _).trans (woken_tlb _ _)⟩
  exact key _ _

theorem save_putRuns (l : List IoRun) : ∀ (s : State) (d : List Byte) (k : StoreKind),
    (s.ioPutRuns l d k).parts = s.parts ∧ (s.ioPutRuns l d k).coh.tlb = s.coh.tlb := by
  induction l with
  | nil => exact fun _ _ _ => ⟨rfl, rfl⟩
  | cons x r ih =>
    intro s d k
    obtain ⟨h1, h2⟩ := ih ((s.ioKey x).ioPut x.addr (d.take x.n) k) (d.drop x.n) k
    obtain ⟨h3, h4⟩ := save_put (s.ioKey x) x.addr (d.take x.n) k
    obtain ⟨h5, h6⟩ := key_tlb s x
    exact ⟨h1.trans (h3.trans h5), h2.trans (h4.trans h6)⟩

theorem save_parts (ps : List (Nat × List Byte)) : ∀ s : State, s.parts = stSaving.parts → s.coh.tlb = stSaving.coh.tlb →
    (∀ x ∈ ps, 0x200000 ≤ x.1 ∧ x.1 + x.2.length ≤ 0x400000) → ∃ u, s.putParts 0 0 ps = some u := by
  induction ps with
  | nil => exact fun s _ _ _ => ⟨s, rfl⟩
  | cons x r ih =>
    intro s hp ht h
    obtain ⟨a, d⟩ := x
    obtain ⟨l, hl⟩ := save_runs hp ht (h (a, d) (by simp)).1 (h (a, d) (by simp)).2
    obtain ⟨h1, h2⟩ := save_putRuns l s d plainStore
    obtain ⟨u, hu⟩ := ih _ (h1.trans hp) (h2.trans ht) fun y hy => h y (by simp [hy])
    exact ⟨u, by rw [State.putParts, hl]; exact hu⟩

theorem padTo_length (n : Nat) (d : List Byte) : (padTo n d).length = max n d.length := by
  simp only [padTo, List.length_append, List.length_replicate]
  omega

theorem fitTo_length (n : Nat) (d : List Byte) : (fitTo n d).length = n := by
  simp only [fitTo, padTo_length, List.length_take]
  omega

theorem records_length {α : Type} (n z : Nat) (l : List (Nat × α)) (f : α → List Byte) : (records n z l f).length = n * z := by
  simp [records, List.length_flatMap, fitTo_length]

theorem save_rank : (rankImage saveTeam0.blk (Rank.fresh 0 [])).length = 65536 := by
  have h2 : ((Rank.fresh 0 []).scr.getN 0 saveTeam0.blk.scratch).length = 0 := rfl
  have h3 : ((Rank.fresh 0 []).opbuf.getN 0 saveTeam0.blk.opbuf).length = 0 := rfl
  have h4 : ((Rank.fresh 0 []).z.flatMap tileImage).length = 0 := rfl
  simp only [rankImage, List.length_append, padTo_length, records_length, fitTo_length, leBytes_length, h2, h3, h4]
  rfl

theorem save_team : (teamImage saveTeam0).length = 4128 := by
  have h : ∀ f : Barrier → List Byte, (∀ b ∈ saveTeam0.bars, (f b).length = 2) → (saveTeam0.bars.flatMap f).length = 32 := by
    intro f hf
    rw [List.length_flatMap, List.map_congr_left hf]
    rfl
  have hb : (saveTeam0.bars.flatMap Barrier.image).length = 256 := by
    simp only [List.length_flatMap, Barrier.image, List.length_append, leBytes_length]
    rfl
  simp only [teamImage, List.length_append, padTo_length, hb]
  rw [h]
  · rfl
  · intro b _
    rw [leBytes_length]
    rfl

theorem save_group : (groupImage saveTeam0 { grp0 with stop := true }).length = 13056 := by
  unfold groupImage
  simp only [List.length_append, List.length_flatMap, List.length_replicate, padTo]
  decide +kernel

theorem meets_PreemptSave :
    stSaving.team? loaderTeam = some saveTeam0 ∧ saveTeam0.status = .saving ∧ stSaving.falling 0 = false ∧
    (∀ g ∈ stSaving.groups, g.key.team = loaderTeam → stSaving.quiet g = true) ∧
    (∀ r ∈ saveTeam0.ranks, r.ops = [] ∧ ∀ z ∈ r.z, z.shadows = []) ∧ stSaving.freeSlotOf 0 saveTeam0.ctx = some 0 ∧
    ∃ u, stSaving.putParts 0 saveTeam0.ctx (imageParts saveTeam0 (stSaving.groups.filter fun g => g.key.team = loaderTeam)
      ((stSaving.saveArea 0 saveTeam0.ctx).1 + 0 * (stSaving.saveArea 0 saveTeam0.ctx).2.1)) = some u := by
  refine ⟨rfl, rfl, by decide +kernel, by decide +kernel, by decide +kernel, by decide +kernel, save_parts _ _ rfl rfl ?_⟩
  have hg : stSaving.groups.filter (fun g => g.key.team = loaderTeam) = [{ grp0 with stop := true }] := by decide +kernel
  have h1 : (stSaving.saveArea 0 saveTeam0.ctx).1 + 0 * (stSaving.saveArea 0 saveTeam0.ctx).2.1 = 0x200000 := by decide +kernel
  rw [hg, h1]
  have hh : (padTo 4096 (headerImage saveTeam0)).length = 4096 := by decide +kernel
  have hb : saveTeam0.blk.groups = 1 ∧ saveTeam0.blk.ranks = 1 ∧ saveTeam0.blk.groupBlock = 16384 ∧ saveTeam0.blk.rankBlock = 65536 := by
    decide +kernel
  have key : ∀ (a : Nat) (d : List Byte) (n : Nat), d.length = n → 0x200000 ≤ a → a + n ≤ 0x400000 →
      0x200000 ≤ (a, d).1 ∧ (a, d).1 + (a, d).2.length ≤ 0x400000 := by
    rintro a d n rfl h1 h2
    exact ⟨h1, h2⟩
  intro x hx
  simp only [imageParts, hb.1, hb.2.1, hb.2.2.1, hb.2.2.2, List.map_cons, List.map_nil, List.mem_append, List.mem_cons, List.not_mem_nil, or_false] at hx
  rcases hx with ((rfl | rfl) | hx) | rfl
  · exact key _ _ _ hh (by decide) (by decide)
  · exact key _ _ _ save_group (by decide +kernel) (by decide +kernel)
  · have : saveTeam0.ranks.zipIdx = [(Rank.fresh 0 [], 0)] := rfl
    simp only [this, List.map_cons, List.map_nil, List.mem_cons, List.not_mem_nil, or_false] at hx
    subst hx
    exact key _ _ _ save_rank (by decide) (by decide)
  · exact key _ _ _ save_team (by decide) (by decide)

/-! ## Words written out from the encoding of the manual, one per constructor that `Obligations.DecodesSpecWords` does not name -/

/-- The word decodes to the instruction. -/
def reads (w : BitVec 96) (i : Instr) : Bool := decide (decode w = .ok i)

/-- Words of control flow (R28, R295, R296, R301, R313, R329, R330, R339, R340, R385, R398, R399). -/
theorem test_words_control :
    reads 0xC00C00C0_0004C000_907BC003 (.jmpx c0 (.vec 4)) = true ∧
    reads 0xFFFFFFFF_2C000080_007BC004 (.call c0 (.vec 8) 2 (-1)) = true ∧
    reads 0xC00C00C0_00040080_007BC005 (.callx c0 (.vec 8) (.vec 4)) = true ∧
    reads 0xC00C00C0_0008C000_007BC006 (.ret c0 (.vec 8)) = true ∧
    reads 0xC00C00C0_0C00C000_007BC008 (.cede c0) = true ∧
    reads 0x0000002A_0C00C000_007BC009 (.dbrk c0 0x2A) = true ∧
    reads 0x00000007_0C00C000_007BC00A (.trap c0 7) = true ∧
    reads 0xC00C00C0_0C00C000_007BC00B (.tret c0) = true ∧
    reads 0xAC8006A0_52044030_747BC10C (.holdw c0 .own 2 .n32 (.prd 3) (.scl 4) (.imm 5) (.vec 6) (.imm 200)) = true ∧
    reads 0xC00C00C0_0C00C000_007BC090 (.gsync c0) = true := by decide +kernel

/-- Words of integer, selection and conversion (Tables 23-12, 24-8; R360 to R362, R377, R391). -/
theorem test_words_integer :
    reads 0xC00C00BF_D0020010_107BC111 (.isub c0 true .s8 (.vec 1) (.vec 2) (.imm (-3))) = true ∧
    reads 0xC00C0020_30020010_607BC012 (.imul c0 .n16 (.vec 1) (.vec 2) (.scl 3)) = true ∧
    reads 0xC00C0000_60040020_807BC013 (.imulh c0 .n64 (.vec 2) (.vec 4) (.vec 6)) = true ∧
    reads 0xC0000400_30020010_207BC014 (.imad c0 .s16 (.vec 1) (.vec 2) (.vec 3) (.vec 4)) = true ∧
    reads 0xC00C0020_32022010_407BC015 (.imin c0 .s64 (.scl 1) (.scl 2) (.scl 3)) = true ∧
    reads 0xC00C0000_30020010_507BC016 (.imax c0 .n8 (.vec 1) (.vec 2) (.vec 3)) = true ∧
    reads 0xC00C00C0_00020010_307BC117 (.iabs c0 true .s32 (.vec 1) (.vec 2)) = true ∧
    reads 0xC00C00C0_00020010_707BC018 (.ineg c0 false .n32 (.vec 1) (.vec 2)) = true ∧
    reads 0xC00A0200_22000060_407BC027 (.ixa c0 .s64 (.vec 6) (.scl 0) (.vec 2) (.imm 2)) = true ∧
    reads 0xC0000400_34020010_007BC029 (.sel c0 .b32 (.vec 1) (.prd 2) (.vec 3) (.vec 4)) = true ∧
    reads 0xC00C00C0_020600A0_907BC02A (.mov c0 .b64 (.vec 10) (.scl 6)) = true ∧
    reads 0x00002000_0C002040_907BC02C (.movh c0 (.scl 4) 0x2000) = true ∧
    reads 0xC00C0040_34024010_007BC52E (.pand c0 .xnor (.prd 1) (.prd 2) (.prd 3)) = true ∧
    reads 0xC00A02A0_B0060080_F07BD12F (.cvt c0 .rne false .pk .e4m3 .fp32 (.vec 8) (.vec 6) (.imm 2)) = true := by decide +kernel

/-- Words of bit and logic (Tables 23-5, 25-6, 26-4). -/
theorem test_words_bit :
    reads 0xC00C0000_30020010_007BC019 (.and c0 .b32 (.vec 1) (.vec 2) (.vec 3)) = true ∧
    reads 0xC00C0020_32022010_907BC01A (.or c0 .b64 (.scl 1) (.scl 2) (.scl 3)) = true ∧
    reads 0xC00C0000_30020010_007BC01B (.xor c0 .b32 (.vec 1) (.vec 2) (.vec 3)) = true ∧
    reads 0xC00C00C0_00020010_007BC01C (.not c0 .b32 (.vec 1) (.vec 2)) = true ∧
    reads 0xC00C00A0_30020010_007BC01D (.shl c0 .b32 (.vec 1) (.vec 2) (.imm 3)) = true ∧
    reads 0xC00C00A0_30020010_007BC01E (.shr c0 .b32 (.vec 1) (.vec 2) (.imm 3)) = true ∧
    reads 0xC00C00A0_30020010_007BC01F (.sar c0 .b32 (.vec 1) (.vec 2) (.imm 3)) = true ∧
    reads 0xC00C0000_30040020_907BC020 (.rot c0 .b64 (.vec 2) (.vec 4) (.vec 3)) = true ∧
    reads 0xC00A0500_30040020_807BC021 (.bxt c0 .n64 (.vec 2) (.vec 4) (.vec 3) (.imm 5)) = true ∧
    reads 0xA05A0400_30020010_007BC022 (.bins c0 .b32 (.vec 1) (.vec 2) (.vec 3) (.imm 4) (.imm 5)) = true ∧
    reads 0xC00C00C0_00020010_007BC023 (.bcnt c0 .b32 (.vec 1) (.vec 2)) = true ∧
    reads 0xC00C00C0_00020010_007BC024 (.lzc c0 .b32 (.vec 1) (.vec 2)) = true ∧
    reads 0xC00C00C0_00020010_007BC025 (.tzc c0 .b32 (.vec 1) (.vec 2)) = true ∧
    reads 0xC00C00C0_00020010_007BC026 (.brvs c0 .b32 (.vec 1) (.vec 2)) = true ∧
    reads 0xC0000400_30020010_007BC02D (.bperm c0 (.vec 1) (.vec 2) (.vec 3) (.vec 4)) = true := by decide +kernel

/-- Words of floating point (Table 24-2). -/
theorem test_words_float :
    reads 0xC00C0000_30020010_B07BC130 (.fadd c0 .rne .fp32 (.vec 1) (.vec 2) (.vec 3)) = true ∧
    reads 0xC00C0000_60040020_A07BC231 (.fsub c0 .rz .fp64 (.vec 2) (.vec 4) (.vec 6)) = true ∧
    reads 0xC00C00A0_20020010_C07BC032 (.fmul c0 .dyn .fp16 (.vec 1) (.vec 2) (.imm 2)) = true ∧
    reads 0xC0000400_30020090_B07BC333 (.ffma c0 .rd .fp32 (.vec 9) (.vec 2) (.vec 3) (.vec 4)) = true ∧
    reads 0xC00C0000_30020010_D07BC034 (.fmin c0 .bf16 (.vec 1) (.vec 2) (.vec 3)) = true ∧
    reads 0xC00C0000_30020010_B07BC035 (.fmax c0 .fp32 (.vec 1) (.vec 2) (.vec 3)) = true ∧
    reads 0xC00C0000_30024010_B07BC736 (.fcmp c0 .unord .fp32 (.prd 1) (.vec 2) (.vec 3)) = true ∧
    reads 0xC00C00C0_00020010_B07BC037 (.fclass c0 .fp32 (.vec 1) (.vec 2)) = true ∧
    reads 0xC00C00C0_00020010_B07BCC38 (.frnd c0 true .ru .fp32 (.vec 1) (.vec 2)) = true ∧
    reads 0xC00C00BF_C0020010_B07BC139 (.fscl c0 .rne .fp32 (.vec 1) (.vec 2) (.imm (-4))) = true ∧
    reads 0xC00C00C0_00020010_B07BC13A (.frcp c0 .rne .fp32 (.vec 1) (.vec 2)) = true ∧
    reads 0xC00C00C0_00020010_B07BC13B (.frsq c0 .rne .fp32 (.vec 1) (.vec 2)) = true ∧
    reads 0xC00C00C0_00040020_A07BC13C (.fsqrt c0 .rne .fp64 (.vec 2) (.vec 4)) = true ∧
    reads 0xC00C00C0_00020010_B07BC13D (.fex2 c0 .rne .fp32 (.vec 1) (.vec 2)) = true ∧
    reads 0xC00C00C0_00020010_B07BC13E (.flg2 c0 .rne .fp32 (.vec 1) (.vec 2)) = true ∧
    reads 0xC00C00C0_00020010_B07BC13F (.fsin c0 .rne .fp32 (.vec 1) (.vec 2)) = true ∧
    reads 0xC00C00C0_00020010_B07BC140 (.fcos c0 .rne .fp32 (.vec 1) (.vec 2)) = true ∧
    reads 0xC00C00C0_00020010_D07BC141 (.ftnh c0 .rne .bf16 (.vec 1) (.vec 2)) = true := by decide +kernel

/-- Words of block-scaled and codebook (Table 25-7, R298, R300, R390). -/
theorem test_words_block :
    reads 0xC00C0001_20100141_407BC148 (.mxadd c0 .rne .mxe4m3 (.vec 20) (.vec 16) (.vec 18)) = true ∧
    reads 0xC00C0001_20100141_907BC249 (.mxmul c0 .rz .mxs8 (.vec 20) (.vec 16) (.vec 18)) = true ∧
    reads 0xC0001301_20100141_807BC14A (.mxfma c0 .rne .mxe2m1 (.vec 20) (.vec 16) (.vec 18) (.vec 19)) = true ∧
    reads 0xC00C00C0_00100141_507BC64B (.mxnorm c0 .sr .mxe5m2 (.vec 20) (.vec 16)) = true ∧
    reads 0xC00C00C0_00100141_607BC54C (.mxpack c0 .rna .mxe3m2 (.vec 20) (.vec 16)) = true ∧
    reads 0xC00C00A0_30100141_707BC14D (.mxunpk c0 .rne .mxe2m3 (.vec 20) (.vec 16) (.imm 3)) = true ∧
    reads 0xC00C00C0_00100140_007BC04E (.scmovGet c0 (.vec 20) (.vec 16)) = true ∧
    reads 0xC00C00C0_00100140_007BC14E (.scmovPut c0 (.vec 20) (.vec 16)) = true ∧
    reads 0xC00C0020_4A3FC000_007BC04F (.cbld c0 (.imm 63) (.scl 4)) = true ∧
    reads 0xC00A0720_30100140_B07BC050 (.cbxp c0 .fp32 (.vec 20) (.vec 16) (.scl 3) (.imm 7)) = true := by decide +kernel

/-- Words of lane (R326, R353 to R357, R381). -/
theorem test_words_lane :
    reads 0xC00C00A0_10010030_007BC358 (.lxch c0 .xor .b32 (.vec 3) (.vec 1) (.imm 1)) = true ∧
    reads 0xC00C00C0_04022040_007BC359 (.lvote c0 .bal (.scl 4) (.prd 2)) = true ∧
    reads 0xC00C00C0_00012040_B07BCA5A (.lred c0 .fmax .fp32 (.scl 4) (.vec 1)) = true ∧
    reads 0xC00C00C0_00010030_307BD05B (.lscn c0 true .add .s32 (.vec 3) (.vec 1)) = true ∧
    reads 0xC00C00A0_90022040_907BC05C (.getl c0 .b64 (.scl 4) (.vec 2) (.imm 9)) = true ∧
    reads 0xC00C0020_9A070030_007BC05D (.putl c0 .b32 (.vec 3) (.imm 7) (.scl 9)) = true := by decide +kernel

/-- Words of memory (R345 to R350, R154, R282, R374, R379, R393, R402). -/
theorem test_words_memory :
    reads 0xC00BFF00_52040031_027BC260 (.ld c0 .team 1 .e3m2 (.vec 3) (.scl 4) (.vec 5) (.imm (-1))) = true ∧
    reads 0xC00C00C0_00040020_A67BC061 (.st c0 .glob 3 .fp64 (.vec 2) (.vec 4) .none .none) = true ∧
    reads 0xC00C00A0_2204C000_987BC162 (.pref c0 .own 4 .b64 (.scl 4) (.imm 2) .none) = true ∧
    reads 0xC00C0000_5204C000_007BC163 (.llock c0 .own (.scl 4) (.vec 5)) = true ∧
    reads 0xC00C00C0_0204C000_007BC064 (.lunlk c0 .glob (.scl 4) .none) = true ∧
    reads 0xA02006C0_02040020_867BC066 (.acas c0 .die .team .n64 (.vec 2) (.scl 4) .none (.vec 6)) = true ∧
    reads 0xC00C00C0_02040030_3A7BC067 (.ldacq c0 .glob .system .s32 (.vec 3) (.scl 4) .none .none) = true ∧
    reads 0xC00C00C0_0204A010_947BC068 (.strel c0 .glob .cluster .b64 (.imm 1) (.scl 4) .none .none) = true ∧
    reads 0xC00C00C0_0C00C000_087BC16A (.xfence c0 1 0 .device) = true ∧
    reads 0xC00C00C0_02040021_B47BC170 (.stref c0 .own 2 (.vec 2) (.scl 4) .none .none) = true ∧
    reads 0x405C00A0_12042021_B07BC071 (.ldref c0 .glob 0 (.scl 2) (.scl 4) (.imm 1) .none (.prd 5)) = true ∧
    reads 0xC00C00C0_020800A1_B8790072 (.pub { c0 with ga := ⟨false, 4⟩ } .device (.vec 10) (.scl 8) .none) = true ∧
    reads 0xC00C00A4_0002C000_007BC073 (.objinit c0 (.vec 2) (.imm 64)) = true := by decide +kernel

/-- Words of shape records, engine commands and circular buffers (R303, R323, R341, R342, R382, R383, R387). -/
theorem test_words_engine :
    reads 0xC00C00C0_02048050_007BC078 (.kld c0 (.kreg 5) (.scl 4)) = true ∧
    reads 0xC00C0021_EA118000_007BC079 (.kset c0 (.kreg 0) (.imm 17) (.scl 30)) = true ∧
    reads 0xC00C0020_38828010_027BC07A (.tld c0 1 (.kreg 1) (.qreg 2) (.scl 3)) = true ∧
    reads 0xC00C0020_32028010_007BC07B (.tst c0 0 (.kreg 1) (.scl 2) (.scl 3)) = true ∧
    reads 0xC0020920_389F83F0_0A7BC07C (.gath c0 5 (.kreg 63) (.qreg 31) (.scl 3) (.scl 9)) = true ∧
    reads 0xC0020920_32028010_007BC07D (.scat c0 0 (.kreg 1) (.scl 2) (.scl 3) (.scl 9)) = true ∧
    reads 0xC00C00C0_02032020_007BC07E (.coll c0 (.scl 2) (.scl 3)) = true ∧
    reads 0xC00C00C0_02038820_007BC080 (.qcfg c0 (.qreg 2) (.scl 3)) = true ∧
    reads 0xC00C00A0_18832020_007BC081 (.qacq c0 (.scl 2) (.qreg 3) (.imm 1)) = true ∧
    reads 0xC00C0020_4883C000_007BC082 (.qcommit c0 (.qreg 3) (.scl 4)) = true ∧
    reads 0xC00C00A0_18832020_007BC083 (.qwait c0 (.scl 2) (.qreg 3) (.imm 1)) = true ∧
    reads 0xC00C00A0_2883C000_007BC084 (.qfree c0 (.qreg 3) (.imm 2)) = true := by decide +kernel

/-- Words of matrix engine (Tables 23-7 and 26-9). -/
theorem test_words_matrix :
    reads 0xC00C0020_32028CF0_007BC088 (.brsv c0 (.breg 15) (.scl 2) (.scl 3)) = true ∧
    reads 0xC00C00C0_0C008C12_007BC089 (.bfree { c0 with hd := true } (.breg 1)) = true ∧
    reads 0xC00C00C0_0C009070_007BC08C (.zclr c0 (.zreg 7)) = true ∧
    reads 0xC00C0021_E9000280_B07BC08D (.zmovToVector c0 .fp32 (.vec 40) (.zreg 0) (.scl 30)) = true ∧
    reads 0xC00C0021_E9010280_307BC18D (.zmovToTile c0 .s32 (.vec 40) (.zreg 1) (.scl 30)) = true ∧
    reads 0xC0020490_3202C000_007BC08E (.zcpyToScratchpad c0 .b32 (.scl 2) (.zreg 3) (.scl 4)) = true ∧
    reads 0xC0020490_3202C000_B07BC18E (.zcpyToTile c0 .fp32 (.scl 2) (.zreg 3) (.scl 4)) = true ∧
    reads 0xC00C00C0_0C009020_007BC08F (.zprom c0 (.zreg 2)) = true := by decide +kernel

/-- Words of barriers, the front end and special registers (R287, R289 to R291, R302, R327, R344, R370, R372, R389, R392, R401). -/
theorem test_words_system :
    reads 0xC00C00A2_0A0FC000_007BC091 (.barinit c0 (.imm 15) (.imm 32)) = true ∧
    reads 0xC00C00C0_0A01C000_007BC092 (.bararv c0 (.imm 1)) = true ∧
    reads 0xC00C00C0_0A02C000_007BC093 (.barwt c0 (.imm 2)) = true ∧
    reads 0xC00C00C0_0A03C000_007BC094 (.barsync c0 (.imm 3)) = true ∧
    reads 0xC00C0020_8A3F4010_007BC098 (.wqenq c0 (.prd 1) (.imm 63) (.scl 8)) = true ∧
    reads 0xC00C0020_8A054010_007BC099 (.wqdeq c0 (.prd 1) (.imm 5) (.scl 8)) = true ∧
    reads 0xC00C00C0_02084010_007BC09A (.schnxt c0 (.prd 1) (.scl 8)) = true ∧
    reads 0xC00C0020_8A054010_007BC09B (.launch c0 (.prd 1) (.imm 5) (.scl 8)) = true ∧
    reads 0xC00C0020_82074010_007BC09C (.narm c0 (.prd 1) (.scl 7) (.scl 8)) = true ∧
    reads 0xC00C00C0_02082070_007BC09D (.nsend c0 (.scl 7) (.scl 8)) = true ∧
    reads 0xC00C00C0_06342030_907BC0A0 (.getsr c0 .b64 (.scl 3) .thand) = true ∧
    reads 0xC00C00C0_02036700_007BC0A1 (.setsr c0 .scopemd (.scl 3)) = true ∧
    reads 0xC00C00C0_0A0021E0_007BC0A3 (.clkq c0 (.scl 30) (.imm 0)) = true := by decide +kernel

/-! ## Ill-formed terms, one for each kind of check of `Instr.wf` -/

theorem test_wf_slot : (Instr.jmp c0 5 0).wf = false := by decide
theorem test_wf_odd_pair : (Instr.iadd c0 false .s64 (.vec 3) (.vec 2) (.vec 4)).wf = false := by decide
theorem test_wf_type : (Instr.iadd c0 false .b32 (.vec 3) (.vec 2) (.vec 4)).wf = false := by decide
theorem test_wf_immediate_destination : (Instr.mov c0 .b32 (.imm 3) (.vec 2)).wf = false := by decide
theorem test_wf_scalar_from_vector : (Instr.mov c0 .b32 (.scl 3) (.vec 2)).wf = false := by decide
theorem test_wf_saturate : (Instr.ineg c0 true .n32 (.vec 1) (.vec 2)).wf = false := by decide
theorem test_wf_condition : (Instr.icmp c0 .lt .b32 (.prd 1) (.vec 1) (.vec 2)).wf = false := by decide
theorem test_wf_shift : (Instr.ixa c0 .s64 (.vec 6) (.scl 0) (.vec 2) (.imm 8)).wf = false := by decide
theorem test_wf_movi_extension : (Instr.movi c0 .s8 (.vec 1) 0x80).wf = false := by decide
theorem test_wf_rounding : (Instr.fadd c0 .sr .fp32 (.vec 1) (.vec 2) (.vec 3)).wf = false := by decide
theorem test_wf_cvt_rounding : (Instr.cvt c0 .sr false .plain .fp32 .fp64 (.vec 1) (.vec 2) .none).wf = false := by decide
theorem test_wf_cvt_saturate : (Instr.cvt c0 .rne true .plain .s32 .fp32 (.vec 1) (.vec 2) .none).wf = false := by decide
theorem test_wf_cvt_element : (Instr.cvt c0 .rne false .pk .e4m3 .fp32 (.vec 1) (.vec 2) (.imm 4)).wf = false := by decide
theorem test_wf_special_type : (Instr.fex2 c0 .rne .fp64 (.vec 2) (.vec 4)).wf = false := by decide
theorem test_wf_mx_scalar : (Instr.mxadd c0 .rne .mxs8 (.vec 1) (.scl 2) (.vec 3)).wf = false := by decide
theorem test_wf_code_slot : (Instr.cbld c0 (.imm 64) (.scl 1)).wf = false := by decide
theorem test_wf_vote_destination : (Instr.lvote c0 .bal (.prd 1) (.prd 2)).wf = false := by decide
theorem test_wf_lane_operation : (Instr.lred c0 .exch .s32 (.vec 1) (.vec 2)).wf = false := by decide
theorem test_wf_base : (Instr.ld c0 .glob 0 .s32 (.vec 1) (.imm 0) .none .none).wf = false := by decide
theorem test_wf_atomic_type : (Instr.atom c0 .add .relaxed .core .glob .fp32 (.vec 1) (.scl 2) .none (.vec 3)).wf = false := by decide
theorem test_wf_release_type : (Instr.strel c0 .glob .die .s8 (.vec 1) (.scl 2) .none .none).wf = false := by decide
theorem test_wf_kind : (Instr.kld c0 (.qreg 1) (.scl 2)).wf = false := by decide
theorem test_wf_field : (Instr.kset c0 (.kreg 1) (.imm 24) (.scl 2)).wf = false := by decide
theorem test_wf_count : (Instr.cvset c0 (.creg 1) 257).wf = false := by decide
theorem test_wf_p : (Instr.tmac c0 false .e4m3 (.zreg 0) (.qreg 0) (.vec 1) (.creg 0) (.imm 0)).wf = false := by decide
theorem test_wf_tmac_type : (Instr.tmac c0 false .fp32 (.zreg 0) (.qreg 0) (.vec 1) (.creg 0) (.imm 1)).wf = false := by decide
theorem test_wf_barrier : (Instr.barsync c0 (.imm 16)).wf = false := by decide
theorem test_wf_booth : (Instr.launch c0 (.prd 1) (.imm 64) (.scl 2)).wf = false := by decide
theorem test_wf_read_only : (Instr.setsr c0 .timel (.scl 1)).wf = false := by decide
theorem test_wf_timeout : (Instr.holdw c0 .glob 0 .s32 (.prd 1) (.scl 1) .none (.vec 2) (.imm (-1))).wf = false := by decide

/-- A word whose fields break `Instr.wf` is refused by decode: IADD.S64 with an odd pair, words written from Table 24-8. -/
theorem test_odd_pair_refused : decode 0xC00C0000_40020030_407BC010 = .error .operandForm := by decide +kernel

/-! ## One instruction on a small state: the manual's worked results -/

/-- A lane of a vector register. -/
def lane (a : Arch) (n L : Nat) : BitVec 32 := (a.v.getD n default).lanes.getD L 0

/-- The group with scalars s1, s2, s3 and lane 0 of v2, v3, v4, v5 set. -/
def loaded (s v : List Dword) : Arch :=
  let a := s.zipIdx.foldl (fun a x => a.setS (x.2 + 1) x.1) grp0.arch
  v.zipIdx.foldl (fun a x => a.setV (x.2 + 2) 1 fun _ => x.1.setWidth 32) a

/-- What `exec` of the instruction leaves in the group's registers. -/
def ran (i : Instr) (s v : List Dword) : Option Arch :=
  match exec i (stOf { grp0 with arch := loaded s v } rank0) with
  | .next t => t.groups.head?.map (·.arch)
  | _ => none

/-- s0 after a step on s1, s2, s3. -/
def outS (i : Instr) (s : List Dword) : Option Dword := (ran i s []).map fun a => a.s.getD 0 0

/-- Lane 0 of v6 after a step on v2 to v5, and the flags of the newest entry. -/
def outV (i : Instr) (v : List Dword) : Option (BitVec 32) := (ran i [] v).map fun a => lane a 6 0

def outF (i : Instr) (v : List Dword) : Option (BitVec 6) :=
  match exec i (stOf { grp0 with arch := loaded [] v } rank0) with
  | .next t => t.groups.head?.bind fun g => g.rob.getLast?.map (·.flags)
  | _ => none

/-- R334's table. -/
theorem test_imulh_n32 : outS (.imulh c0 .n32 s0 s1 s2) [0xFFFFFFFF, 0xFFFFFFFF] = some 0xFFFFFFFE := by decide +kernel
theorem test_imulh_s32 : outS (.imulh c0 .s32 s0 s1 s2) [0xFFFFFFFF, 0xFFFFFFFF] = some 0 := by decide +kernel
theorem test_iadd_s8 : outV (.iadd c0 false .s8 (.vec 6) v2 (.vec 3)) [100, 100] = some 0xFFFFFFC8 := by decide +kernel
theorem test_iadd_sat_s8 : outV (.iadd c0 true .s8 (.vec 6) v2 (.vec 3)) [100, 100] = some 0x7F := by decide +kernel
theorem test_iabs : outV (.iabs c0 false .s32 (.vec 6) v2) [0x80000000] = some 0x80000000 := by decide +kernel
theorem test_iabs_sat : outV (.iabs c0 true .s32 (.vec 6) v2) [0x80000000] = some 0x7FFFFFFF := by decide +kernel

/-- R336: IXA.S64 with −1 in a vector index. -/
theorem test_ixa : (ran (.ixa c0 .s64 (.vec 6) s1 v2 (.imm 2)) [0x40000000] [0xFFFFFFFF]).map (fun a => (lane a 6 0, lane a 7 0))
    = some (0x3FFFFFFC, 0) := by decide +kernel

/-- R286: BPERM. -/
theorem test_bperm : outS (.bperm c0 s0 s1 s2 s3) [0x44332211, 0x88776655, 0xC740] = some 0x00885511 := by decide +kernel

/-- R386: SAR and ROT. -/
theorem test_sar : outS (.sar c0 .b32 s0 s1 (.imm 4)) [0x80000010] = some 0xF8000001 := by decide +kernel
theorem test_rot : outS (.rot c0 .b32 s0 s1 (.imm 36)) [0x80000010] = some 0x00000108 := by decide +kernel

/-- R311: integer conversions, and packing one E4M3 element. -/
theorem test_cvt_wraps : outS (.cvt c0 .dyn false .plain .s8 .s32 s0 s1 .none) [300] = some 44 := by decide +kernel
theorem test_cvt_clamps : outV (.cvt c0 .dyn true .plain .s8 .s32 (.vec 6) v2 .none) [BitVec.ofInt 64 (-300)] = some 0xFFFFFF80 := by
  decide +kernel
theorem test_cvt_pack : outV (.cvt c0 .rne false .pk .e4m3 .fp32 (.vec 6) v2 (.imm 2)) [0x43FA0000] = some 0x007E0000 := by decide +kernel
theorem test_cvt_pack_flags : outF (.cvt c0 .rne false .pk .e4m3 .fp32 (.vec 6) v2 (.imm 2)) [0x43FA0000] = some 0b000101 := by
  decide +kernel
theorem test_cvt_tiny : outF (.cvt c0 .rne false .plain .e4m3 .fp32 (.vec 6) v2 .none) [0x3A83126F] = some 0b000011 := by decide +kernel

/-- R317: fused and unfused. -/
theorem test_ffma : outV (.ffma c0 .rne .fp32 (.vec 6) v2 (.vec 3) v4) [0x3F800800, 0x3F800800, 0xBF801000] = some 0x33800000 := by
  decide +kernel
theorem test_fmul : outV (.fmul c0 .rne .fp32 (.vec 6) v2 (.vec 3)) [0x3F800800, 0x3F800800] = some 0x3F801000 := by decide +kernel

/-- R320: special functions that are exact. -/
theorem test_fsin : outV (.fsin c0 .rne .fp32 (.vec 6) v2) [0xC0000000] = some 0x80000000 := by decide +kernel
theorem test_fcos : outV (.fcos c0 .rne .fp32 (.vec 6) v2) [0x3F800000] = some 0xBF800000 := by decide +kernel
theorem test_flg2 : outV (.flg2 c0 .rne .fp32 (.vec 6) v2) [0x41000000] = some 0x40400000 := by decide +kernel

/-- R362: MOVH keeps bits 31:0, here 0x1100. -/
theorem test_movh : outS (.movh c0 s0 0x2000) [] = some 0x0000200000001100 := by decide +kernel

/-- R353: LXCH.xor takes the neighbour's value. -/
theorem test_lxch : (ran (.lxch c0 .xor .b32 (.vec 6) v2 (.imm 1)) [] [7]).map (fun a => (lane a 6 0, lane a 6 1)) = some (0, 7) := by
  decide +kernel

end Sys2Proof.Tests
end

section
/-! PROOF. The canonical form of every memory: what keeps it. One lemma per operation of the machine that has a state, an answer or a part of
the state as its result, in the order of the model's files: from a state whose memories have their canonical form the operation gives one
whose memories have it too. -/

namespace Sys2Proof.Claims

open Sys2Proof.Machine Sys2Proof.Laws

variable {s t : State}

/-! ## The parts of the state that hold memories -/

/-- A core rank's scratchpad and operand buffer have their canonical form. -/
def RankOk (r : Rank) : Prop := r.scr.wf = true ∧ r.opbuf.wf = true

/-- So do those of every core rank of a team. -/
def TeamOk (t : Team) : Prop := ∀ r ∈ t.ranks, RankOk r

/-- The mailbox of a partition's VF has its canonical form. -/
def PartOk (p : Part) : Prop := p.mail.wf = true


theorem MemoryOk.ram (h : MemoryOk s) : s.ram.mem.wf = true := h.1
theorem MemoryOk.teams (h : MemoryOk s) : ∀ t ∈ s.teams, TeamOk t := h.2.1
theorem MemoryOk.parts (h : MemoryOk s) : ∀ p ∈ s.parts, PartOk p := h.2.2

theorem MemoryOk.withRam (h : MemoryOk s) {r : Ram} (hr : r.mem.wf = true) : MemoryOk { s with ram := r } := ⟨hr, h.teams, h.parts⟩
theorem MemoryOk.withTeams (h : MemoryOk s) {l : List Team} (hl : ∀ t ∈ l, TeamOk t) : MemoryOk { s with teams := l } := ⟨h.ram, hl, h.parts⟩
theorem MemoryOk.withParts (h : MemoryOk s) {l : List Part} (hl : ∀ p ∈ l, PartOk p) : MemoryOk { s with parts := l } := ⟨h.ram, h.teams, hl⟩

theorem MemoryOk.withCoh (h : MemoryOk s) (x : Coh) : MemoryOk { s with coh := x } := h
theorem MemoryOk.withDev (h : MemoryOk s) (x : Device) : MemoryOk { s with dev := x } := h
theorem MemoryOk.withGroups (h : MemoryOk s) (l : List Group) : MemoryOk { s with groups := l } := h

theorem PartOk.withDesc {p : Part} (h : PartOk p) (l : List Dword) : PartOk { p with desc := l } := h
theorem PartOk.withVectors {p : Part} (h : PartOk p) (l : List Msix) : PartOk { p with vectors := l } := h

theorem RankOk.withOps {r : Rank} (h : RankOk r) (l : List MatOp) : RankOk { r with ops := l } := h
theorem RankOk.withZ {r : Rank} (h : RankOk r) (l : List Tile) : RankOk { r with z := l } := h

theorem rankOk_default : RankOk default := ⟨rfl, rfl⟩
theorem partOk_reset : PartOk Part.reset := rfl

theorem memoryOk_reset : MemoryOk State.reset :=
  ⟨rfl, fun _ ht => (List.not_mem_nil ht).elim, fun _ hp => List.eq_of_mem_replicate (n := 16) hp ▸ partOk_reset⟩

theorem MemoryOk.team? (h : MemoryOk s) {k : TeamKey} {t : Team} (ht : s.team? k = some t) : TeamOk t :=
  h.teams t (List.mem_of_find?_eq_some ht)

theorem MemoryOk.rankOf (h : MemoryOk s) (k : TeamKey) (r : Nat) : RankOk (s.rankOf k r) := by
  rw [State.rankOf, State.rank?]
  cases ht : s.team? k with
  | none => exact rankOk_default
  | some t =>
    cases hr : t.ranks[r]? with
    | none => simpa [hr] using rankOk_default
    | some x => simpa [hr] using h.team? ht x (List.mem_of_getElem? hr)

theorem MemoryOk.part (h : MemoryOk s) (n : Nat) : PartOk (s.part n) := by
  rw [State.part, List.getD_eq_getElem?_getD]
  cases hp : s.parts[n]? with
  | none => exact partOk_reset
  | some p => exact h.parts p (List.mem_of_getElem? hp)

/-! ## What a meaning answers -/

/-- The next state that is answered, if one is, has its memories in canonical form. -/
def NextOk : Out_ → Prop
  | .next t => MemoryOk t
  | _ => True

/-- So has the state in what the meaning of an instruction answers. -/
def ResOk : Res → Prop
  | .done s _ _ | .moved s _ _ _ | .wrote s _ _ _ | .flagged s _ _ | .partly s _ _ | .trap s _ _ | .took s | .wait s _ | .stall s => MemoryOk s

/-- So has the state that may have come about. -/
def OptOk : Option State → Prop
  | some t => MemoryOk t
  | none => True

theorem memoryOk_ite {c : Prop} [Decidable c] (h : MemoryOk s) (h' : MemoryOk t) : MemoryOk (if c then s else t) := by split <;> assumption

theorem fst_memoryOk_ite {α : Type} {c : Prop} [Decidable c] {a b : State × α} (ha : MemoryOk a.1) (hb : MemoryOk b.1) :
    MemoryOk (if c then a else b).1 := by split <;> assumption

theorem resOk_ite {c : Prop} [Decidable c] {a b : Res} (ha : ResOk a) (hb : ResOk b) : ResOk (if c then a else b) := by split <;> assumption

theorem nextOk_ite {c : Prop} [Decidable c] {a b : Out_} (ha : NextOk a) (hb : NextOk b) : NextOk (if c then a else b) := by split <;> assumption

theorem OptOk.getD {o : Option State} (ho : OptOk o) (h : MemoryOk s) : MemoryOk (o.getD s) := by
  cases o with
  | none => exact h
  | some t => exact ho

theorem OptOk.of_eq {o : Option State} (ho : OptOk o) (h : o = some t) : MemoryOk t := by
  rw [h] at ho
  exact ho

theorem optOk_none : OptOk none := trivial

theorem optOk_some (h : MemoryOk s) : OptOk (some s) := h

theorem optOk_ite {p : Prop} [Decidable p] {a b : Option State} (ha : OptOk a) (hb : OptOk b) : OptOk (if p then a else b) := by
  split <;> assumption

theorem OptOk.bind {o : Option State} {f : State → Option State} (ho : OptOk o) (hf : ∀ t, MemoryOk t → OptOk (f t)) : OptOk (o.bind f) := by
  cases o with
  | none => exact optOk_none
  | some t => exact hf t ho

theorem MemoryOk.foldl {α : Type} {f : State → α → State} (h : MemoryOk s) (hf : ∀ s x, MemoryOk s → MemoryOk (f s x)) (l : List α) :
    MemoryOk (l.foldl f s) :=
  List.foldlRecOn l f (motive := MemoryOk) h fun s h x _ => hf s x h

/-- A fold over device memory that leaves its bytes. -/
theorem mem_foldl {α : Type} {f : Ram → α → Ram} (hf : ∀ r x, (f r x).mem = r.mem) (l : List α) (r : Ram) : (l.foldl f r).mem = r.mem :=
  List.foldlRecOn l f (motive := fun x => x.mem = r.mem) rfl fun r h x _ => (hf r x).trans h

/-! ## Machine/Ops.lean: finding and replacing the parts of the machine -/

theorem MemoryOk.setGroup (h : MemoryOk s) (g : Group) : MemoryOk (s.setGroup g) := h
theorem MemoryOk.updGroup (h : MemoryOk s) (k : GroupKey) (f : Group → Group) : MemoryOk (s.updGroup k f) := h
theorem MemoryOk.setDie (h : MemoryOk s) (d : Nat) (x : Die) : MemoryOk (s.setDie d x) := h
theorem MemoryOk.setIod (h : MemoryOk s) (d : Nat) (x : Iod) : MemoryOk (s.setIod d x) := h
theorem MemoryOk.emit (h : MemoryOk s) (o : Out) : MemoryOk (s.emit o) := h
theorem MemoryOk.logRec (h : MemoryOk s) (a b : Nat) (l : List Byte) : MemoryOk (s.logRec a b l) := h
theorem MemoryOk.wake (h : MemoryOk s) : MemoryOk s.wake := h
theorem MemoryOk.blockRun (h : MemoryOk s) (k : GroupKey) (m : Mask) : MemoryOk (s.blockRun k m) := h
theorem MemoryOk.stalled (h : MemoryOk s) (k : GroupKey) : MemoryOk (s.stalled k) := h

theorem MemoryOk.mapTeams (h : MemoryOk s) {f : Team → Team} (hf : ∀ t, TeamOk t → TeamOk (f t)) : MemoryOk { s with teams := s.teams.map f } :=
  h.withTeams fun t ht => by
    obtain ⟨u, hu, rfl⟩ := List.mem_map.mp ht
    exact hf u (h.teams u hu)

theorem MemoryOk.mapParts (h : MemoryOk s) {f : Part → Part} (hf : ∀ p, PartOk p → PartOk (f p)) : MemoryOk { s with parts := s.parts.map f } :=
  h.withParts fun p hp => by
    obtain ⟨q, hq, rfl⟩ := List.mem_map.mp hp
    exact hf q (h.parts q hq)

theorem MemoryOk.setTeam (h : MemoryOk s) {t : Team} (ht : TeamOk t) : MemoryOk (s.setTeam t) :=
  h.mapTeams fun u hu => by split <;> assumption

theorem MemoryOk.updTeam (h : MemoryOk s) (k : TeamKey) {f : Team → Team} (hf : ∀ t, TeamOk t → TeamOk (f t)) : MemoryOk (s.updTeam k f) :=
  h.mapTeams fun u hu => by
    split
    · exact hf u hu
    · exact hu

theorem MemoryOk.setPart (h : MemoryOk s) (n : Nat) {p : Part} (hp : PartOk p) : MemoryOk (s.setPart n p) :=
  h.withParts fun q hq => (List.mem_or_eq_of_mem_set hq).elim (h.parts q) fun e => e ▸ hp

/-- A change of a partition. One that does not touch the mailbox keeps its form. Where only the goal tells `f`, a caller gives `hf` by a `by`,
which Lean elaborates last. -/
theorem MemoryOk.updPart (h : MemoryOk s) (n : Nat) {f : Part → Part} (hf : ∀ p, PartOk p → PartOk (f p)) :
    MemoryOk (s.updPart n f) := h.setPart n (hf _ (h.part n))

theorem TeamOk.updRank {t : Team} (h : TeamOk t) (r : Nat) {f : Rank → Rank} (hf : ∀ r, RankOk r → RankOk (f r)) : TeamOk (t.updRank r f) := by
  rw [Team.updRank]
  split
  · next x hx =>
    intro y hy
    exact (List.mem_or_eq_of_mem_set hy).elim (h y) fun e => e ▸ hf x (h x (List.mem_of_getElem? hx))
  · exact h

/-- A change of what a core rank owns. One that touches neither scratchpad nor operand buffer keeps their form. -/
theorem MemoryOk.updRank (h : MemoryOk s) (k : TeamKey) (r : Nat) {f : Rank → Rank}
    (hf : ∀ r, RankOk r → RankOk (f r)) : MemoryOk (s.updRank k r f) :=
  h.updTeam k fun _ ht => ht.updRank r hf

theorem MemoryOk.showLocked (h : MemoryOk s) (k : TeamKey) : MemoryOk (s.showLocked k) :=
  h.withRam ((mem_foldl (fun r (l : Nat × CoreId) => unhide_mem r l.1 l.2) _ s.ram).symm ▸ h.ram)

theorem MemoryOk.sendFrame (h : MemoryOk s) (part dev dpart kind comm seq : Nat) : MemoryOk (s.sendFrame part dev dpart kind comm seq) := h

theorem MemoryOk.abortColl (h : MemoryOk s) (part : Nat) (o : CollOp) : MemoryOk (s.abortColl part o) := by
  unfold State.abortColl
  split
  · exact h
  · refine h.foldl (fun s r h => ?_) _
    dsimp only
    split
    · exact h
    · split
      · exact h.updPart _ fun _ h => h
      · exact h.sendFrame ..

theorem MemoryOk.dropTeam (h : MemoryOk s) (k : TeamKey) : MemoryOk (s.dropTeam k) := by
  have hu := (h.foldl (fun s o h => h.abortColl k.part o) ((s.part k.part).colls.filter fun o => o.group.team = k)).showLocked k
  refine ⟨hu.ram, fun t ht => hu.teams t (List.mem_of_mem_filter ht), fun p hp => ?_⟩
  obtain ⟨i, hi, rfl⟩ := List.mem_mapIdx.mp hp
  have := hu.parts _ (List.getElem_mem hi)
  split <;> exact this

theorem MemoryOk.loseTeam (h : MemoryOk s) (k : TeamKey) (t : Trap) : MemoryOk (s.loseTeam k t) := by
  refine MemoryOk.dropTeam (MemoryOk.logRec (h.updPart _ ?_) ..) k
  exact fun _ h => h

theorem deliver_memoryOk (h : MemoryOk s) (g : Group) (t : Trap) : MemoryOk (deliver s g t) := by
  unfold deliver
  split
  · exact h.loseTeam ..
  · split
    · exact h.loseTeam ..
    · exact h.loseTeam ..
    · exact h
    · exact h

/-! ## Serving an instruction -/

theorem conclude_memoryOk (v : Served) {r : Res} (h : ResOk r) : MemoryOk (conclude v r) := by
  cases r <;> exact h

theorem headed_memoryOk (h : MemoryOk s) (c : Ctl) (v : Served) {go : Served → State} (hgo : ∀ v, MemoryOk (go v)) :
    MemoryOk (headed c s v go) := by
  unfold headed
  split
  · exact h.stalled _
  · exact hgo _

theorem clean_resOk (h : MemoryOk s) (v : Served) {body : Served → Res} (hb : ResOk (body v)) : ResOk (clean v s body) := by
  unfold clean
  split
  · exact hb
  · exact h

theorem undeclared_memoryOk (h : MemoryOk s) (v : Served) : MemoryOk (undeclared s v) :=
  conclude_memoryOk v (by split <;> exact h)

theorem holdRun_memoryOk (h : MemoryOk s) (v : Served) : MemoryOk (holdRun v s) := h

section
variable {i : Instr} {c : Ctl} {body : Served → Res}

theorem serve_nextOk (h : MemoryOk s) (hb : ∀ v, ResOk (body v)) : NextOk (serve i c s body) := by
  unfold serve
  split
  · trivial
  · refine show MemoryOk _ from ?_
    split
    · exact h.stalled _
    · split
      · exact h.blockRun ..
      · refine headed_memoryOk h c _ fun v => ?_
        split
        · exact conclude_memoryOk v h
        · split
          · exact conclude_memoryOk v h
          · exact conclude_memoryOk v (clean_resOk h v (hb v))

theorem serveAll_nextOk (h : MemoryOk s) (hb : ∀ v, ResOk (body v)) : NextOk (serveAll i c s body) := by
  unfold serveAll
  split
  · trivial
  · refine show MemoryOk _ from ?_
    split
    · exact h.stalled _
    · refine headed_memoryOk h c _ fun v => ?_
      split
      · exact undeclared_memoryOk h v
      · exact conclude_memoryOk v (clean_resOk h v (hb v))

/-- A word that names a register past the declared counts, served whatever its active mask. -/
theorem undeclaredTurn_memoryOk (h : MemoryOk s) (c : Ctl) (v : Served) :
    MemoryOk (if v.g.holdsBack i then s.stalled v.g.key else headed c s v (undeclared s)) := by
  split
  · exact h.stalled _
  · exact headed_memoryOk h c v (undeclared_memoryOk h)

theorem serveColl_nextOk (h : MemoryOk s) (hb : ∀ v, ResOk (body v)) : NextOk (serveColl i c s body) := by
  unfold serveColl
  split
  · trivial
  · refine show MemoryOk _ from ?_
    split
    · exact undeclaredTurn_memoryOk h c _
    · split
      · exact holdRun_memoryOk h _
      · split
        · exact h.stalled _
        · exact headed_memoryOk h c _ fun v => conclude_memoryOk _ (clean_resOk h _ (hb _))

theorem gate_memoryOk (h : MemoryOk s) (v : Served) (hb : ∀ v, ResOk (body v)) : MemoryOk (gate v s body) := by
  unfold gate
  dsimp only
  split
  · split
    · exact h.stalled _
    · exact h.setGroup _
  · split
    · exact h
    · have hr : ∀ g, ResOk (if v.act = 0 && v.tainted = 0 then Res.done s g 0 else clean v s body) := fun g => by
        split
        · exact h
        · exact clean_resOk h v (hb v)
      generalize hx : (if v.act = 0 && v.tainted = 0 then Res.done s _ 0 else clean v s body) = x
      have hx : ResOk x := hx ▸ hr _
      cases x <;> exact hx

theorem serveCommit_nextOk (h : MemoryOk s) (hb : ∀ v, ResOk (body v)) : NextOk (serveCommit i c s body) := by
  unfold serveCommit
  split
  · trivial
  · refine show MemoryOk _ from ?_
    split
    · exact undeclaredTurn_memoryOk h c _
    · exact gate_memoryOk h _ hb

end

end Sys2Proof.Claims
end

section
/-! PROOF. The canonical form of every memory, kept: the parallel instructions, barriers, faults, loads and stores, atomics, queues and box commands. -/

namespace Sys2Proof.Claims

open Sys2Proof.Machine Sys2Proof.Laws

variable {s t : State}

/-! ## Machine/Flags.lean to Machine/Barrier.lean: computations on registers, and barriers -/

section
variable {i : Instr} {c : Ctl}

theorem raiseFlags_resOk (h : MemoryOk s) (v : Served) (f : Nat → Flg) (g : Group) : ResOk (raiseFlags v s f g) := by
  unfold raiseFlags
  dsimp only
  split <;> exact h

theorem redFlags_resOk (h : MemoryOk s) (v : Served) (fl : Flg) (g : Group) : ResOk (redFlags v s fl g) := by
  unfold redFlags
  split <;> exact h

theorem alu_nextOk (h : MemoryOk s) {wide : Bool} {d : Opd} {f : Arch → Nat → Dword} : NextOk (alu i c s wide d f) :=
  serve_nextOk h fun _ => h

theorem aluPrd_nextOk (h : MemoryOk s) {d : Opd} {f : Arch → Nat → Bool} : NextOk (aluPrd i c s d f) :=
  serve_nextOk h fun _ => h

theorem fpu_nextOk (h : MemoryOk s) {ty : Ty} {d : Opd} {f : Arch → Nat → Nat × Flg} : NextOk (fpu i c s ty d f) :=
  serve_nextOk h fun v => raiseFlags_resOk h v _ _

theorem ifActive_resOk (h : MemoryOk s) {body : Served → Res} (hb : ∀ v, ResOk (body v)) (v : Served) : ResOk (ifActive s body v) := by
  unfold ifActive
  split
  · exact h
  · exact hb v

/-- A lane instruction acts, once gathered, for its active lanes. -/
theorem laneOp_nextOk (h : MemoryOk s) {body : Served → Res} (hb : ∀ v, ResOk (body v)) : NextOk (serveColl i c s (ifActive s body)) :=
  serveColl_nextOk h (ifActive_resOk h hb)

theorem execFcmp_nextOk (h : MemoryOk s) (cond : Cond) (ty : Ty) (d a b : Opd) : NextOk (execFcmp c cond ty d a b s) :=
  serve_nextOk h fun v => raiseFlags_resOk h v _ _

theorem execLred_nextOk (h : MemoryOk s) (op : RedOp) (ty : Ty) (d a : Opd) : NextOk (execLred c op ty d a s) :=
  laneOp_nextOk h fun v => redFlags_resOk h v _ _

theorem execLscn_nextOk (h : MemoryOk s) (ex : Bool) (op : RedOp) (ty : Ty) (d a : Opd) : NextOk (execLscn c ex op ty d a s) :=
  laneOp_nextOk h fun v => redFlags_resOk h v _ _

theorem execGetl_nextOk (h : MemoryOk s) (ty : Ty) (d a n : Opd) : NextOk (execGetl c ty d a n s) :=
  laneOp_nextOk h fun v => by dsimp only; split <;> exact h

theorem execPutl_nextOk (h : MemoryOk s) (ty : Ty) (d a n : Opd) : NextOk (execPutl c ty d a n s) :=
  laneOp_nextOk h fun v => by dsimp only; split <;> exact h

theorem MemoryOk.updBar (h : MemoryOk s) (k : TeamKey) (n : Nat) (f : Barrier → Barrier) : MemoryOk (s.updBar k n f) :=
  h.updTeam k fun _ ht => ht

theorem MemoryOk.depart (h : MemoryOk s) (g : Group) (m : Mask) : MemoryOk (s.depart g m) := h.updTeam _ fun _ ht => ht

theorem execBarinit_nextOk (h : MemoryOk s) (id n : Opd) : NextOk (execBarinit c id n s) :=
  serve_nextOk h fun v => by
    dsimp only
    split
    · exact h
    · split
      · split
        · exact h
        · exact h.updBar ..
      · split
        · split <;> exact h
        · exact h.updBar ..

theorem execBararv_nextOk (h : MemoryOk s) (id : Opd) : NextOk (execBararv c id s) :=
  serve_nextOk h fun v => by
    dsimp only
    split
    · exact h
    · split
      · exact h
      · split <;> exact h

theorem execBarwt_nextOk (h : MemoryOk s) (id : Opd) : NextOk (execBarwt c id s) :=
  serve_nextOk h fun v => by
    dsimp only
    split
    · split
      · exact h
      · exact h.updBar ..
    · exact h.updBar ..

theorem syncPass_resOk (h : MemoryOk s) (v : Served) (i : Nat) : ResOk (syncPass v s i) := h

theorem syncBody_resOk (h : MemoryOk s) (i : Nat) (v : Served) : ResOk (syncBody i s v) := by
  unfold syncBody
  split
  · split <;> exact h
  · dsimp only
    split
    · exact h
    · split
      · exact h
      · split
        · exact h
        · next g _ =>
          have ht := (h.setGroup g).updBar g.key.team i fun b => b.arrive (v.act.lanes.map g.thread) (g.coveredOf .cluster v.act)
          split
          · exact syncPass_resOk ht _ _
          · exact ht

theorem execBarsync_nextOk (h : MemoryOk s) (id : Opd) : NextOk (execBarsync c id s) := by
  unfold execBarsync
  split
  · trivial
  · split
    · exact holdRun_memoryOk h _
    · exact gate_memoryOk h _ (syncBody_resOk h _)

end

/-! ## Machine/Pages.lean and Machine/Access.lean: faults, translations, loads and stores -/

theorem PartOk.addFault {p : Part} (h : PartOk p) (t : TeamKey) (ctx : Nat) (k : Access) (core : CoreId) (page : Nat) :
    PartOk (p.addFault t ctx k core page).1 := by
  unfold Part.addFault
  split <;> exact h

theorem MemoryOk.queueFault (h : MemoryOk s) (g : Group) (k : Access) (page : Nat) : MemoryOk (s.queueFault g k page).1 :=
  h.setPart _ ((h.part _).addFault ..)

theorem MemoryOk.parkAll (h : MemoryOk s) (g : Group) (k : Access) (l : List (Nat × Nat × Nat)) : MemoryOk (s.parkAll g k l).1 := by
  induction l generalizing s g with
  | nil => exact h
  | cons x r ih => exact ih (h.queueFault g k x.2.2) _

theorem MemoryOk.useKey (h : MemoryOk s) (p : Phys) : MemoryOk (s.useKey p) := by
  unfold State.useKey
  split <;> exact h

theorem MemoryOk.keepIn (h : MemoryOk s) (ahead : Bool) (part ctx : Nat) (core : CoreId) (p : Phys) :
    MemoryOk (s.keepIn ahead part ctx core p) := by
  unfold State.keepIn
  split <;> exact h

theorem mem_push_foldl (l : List Nat) (k : Nat → Nat) (m : Nat → Nat) (f g : Nat → WordState) (rels : List Release) (atom : Bool)
    (hid : Option CoreId) (eng : Bool) (r : Ram) : (l.foldl (fun r w => r.push (k w) (m w) (f w) (g w) rels atom hid eng) r).mem = r.mem :=
  mem_foldl (f := fun r w => r.push (k w) (m w) (f w) (g w) rels atom hid eng) (fun _ _ => rfl) l r

theorem MemoryOk.store (h : MemoryOk s) (k : TeamKey) (t : Target) (a : Nat) (d : List Byte) (sk : StoreKind) :
    MemoryOk (s.store k t a d sk) := by
  cases t with
  | mem => exact h.withRam (wf_write h.ram a d sk)
  | scr r =>
    have hu := h.updRank k r (f := fun x => { x with scr := x.scr.putN a d, scrPoison := unpoison x.scrPoison a d.length })
      fun x hx => ⟨wf_putN hx.1 a d, hx.2⟩
    refine hu.withRam ?_
    rw [counted_mem, mem_push_foldl]
    exact hu.ram
  | opbuf r => exact h.updRank k r fun x hx => ⟨hx.1, wf_putN hx.2 a d⟩

theorem MemoryOk.request (h : MemoryOk s) (core : CoreId) (line : Nat) (own priv : Bool) : MemoryOk (s.request core line own priv) := by
  unfold State.request
  exact memoryOk_ite h (memoryOk_ite h h)

theorem MemoryOk.keepAcc (h : MemoryOk s) (bulk : Bool) (g : Group) (l : List Acc) : MemoryOk (s.keepAcc bulk g l) :=
  (h.foldl (fun _ p h => h.useKey p) _).foldl (fun _ _ h => h.keepIn ..) _

theorem MemoryOk.keepParks (h : MemoryOk s) (g : Group) : MemoryOk (s.keepParks g) := h

theorem probeBody_resOk (h : MemoryOk s) (v : Served) (k : Access) (bulk : Bool) (ad : Nat → Nat) (res : Nat → LaneRes)
    (extra : Acc → Option Nat) {body : State → Served → List Acc → Res} (hb : ∀ t v l, MemoryOk t → ResOk (body t v l)) :
    ResOk (probeBody v s k bulk ad res extra body) := by
  unfold probeBody
  split
  · exact h
  · next g _ =>
    dsimp only
    split
    · exact h
    · have hp : ∀ l out, MemoryOk ((s.keepAcc bulk g l).parkAll g k out).1 := fun l out => (h.keepAcc bulk g l).parkAll g k out
      generalize List.filter _ _ = bad
      cases bad with
      | cons b r => exact hp _ _
      | nil => exact resOk_ite (hp _ _) (hb _ _ _ ((hp _ _).keepParks _))

theorem memBody_resOk (h : MemoryOk s) (v : Served) (k : Access) (sp : Space) (size align : Nat) (ad : Nat → Nat)
    (extra : Acc → Option Nat) {body : State → Served → List Acc → Res} (hb : ∀ t v l, MemoryOk t → ResOk (body t v l)) :
    ResOk (memBody v s k sp size align ad extra body) := probeBody_resOk h v k false ad _ extra hb

theorem MemoryOk.pick {α : Type} (h : MemoryOk s) (l : List α) (d : α) : MemoryOk (s.pick l d).2 := by
  unfold State.pick
  split <;> exact h

theorem MemoryOk.loadLine (h : MemoryOk s) (g : Group) (floor : View) (latest : Bool) (c : Chunk) (line : Nat) :
    MemoryOk (s.loadLine g floor latest c line).1 := h.pick _ _

theorem MemoryOk.loadChunk (h : MemoryOk s) (g : Group) (floor : View) (latest : Bool) (c : Chunk) :
    MemoryOk (s.loadChunk g floor latest c).1 :=
  List.foldlRecOn _ _ (motive := fun x : State × Got => MemoryOk x.1) h fun _ h l _ => h.loadLine g floor latest c l

theorem MemoryOk.loadAcc (h : MemoryOk s) (g : Group) (floor : View) (latest : Bool) (a : Acc) : MemoryOk (s.loadAcc g floor latest a).1 :=
  List.foldlRecOn _ _ (motive := fun x : State × Got => MemoryOk x.1) h fun _ h c _ => h.loadChunk g floor latest c

theorem MemoryOk.loadAll (h : MemoryOk s) (g : Group) (l : List (Mask × Acc)) : MemoryOk (s.loadAll g l).1 := by
  induction l generalizing s g with
  | nil => exact h
  | cons x r ih => exact ih (h.loadAcc g _ false x.2) _

theorem MemoryOk.askReset (h : MemoryOk s) (part : Nat) : MemoryOk (s.askReset part) :=
  h.updPart part (f := fun p => { p with ready := false, resetAt := some (p.resetAt.getD s.now) }) fun _ h => h

theorem poisoned_resOk (h : MemoryOk s) (v : Served) (g : Group) (l : List (Mask × Acc × Got)) {k : State → Res}
    (hk : ∀ t, MemoryOk t → ResOk (k t)) : ResOk (poisoned v s g l k) := by
  unfold poisoned
  dsimp only
  split
  · exact h
  · split
    · exact (h.setGroup g).askReset _
    · exact hk _ (h.foldl (fun _ x h => h.logRec ..) _)

theorem MemoryOk.fetchLines (h : MemoryOk s) (g : Group) (l : List Acc) : MemoryOk (s.fetchLines g l).1 := by
  unfold State.fetchLines
  dsimp only
  split
  · exact h
  · exact h.foldl (fun _ x h => h.request ..) _

theorem MemoryOk.retranslate (h : MemoryOk s) (g : Group) (l : List Acc) : MemoryOk (s.retranslate g l) := h

theorem loadBody_resOk (h : MemoryOk s) (v : Served) (once : Bool) (l : List Acc) {k : State → Group → List (Mask × Acc × Got) → Res}
    (hk : ∀ t g x, MemoryOk t → ResOk (k t g x)) : ResOk (loadBody v s once l k) := by
  unfold loadBody
  split
  · exact h.retranslate ..
  · exact poisoned_resOk (h.loadAll ..) v _ _ fun t ht => hk _ _ _ (ht.fetchLines ..)

theorem storeBody_resOk (h : MemoryOk s) (v : Served) (once : Bool) (hint : Nat) (tag : TagOp) (sc : Option Scope) (l : List Acc)
    (data : Nat → List Byte) : ResOk (storeBody v s once hint tag sc l data) := by
  unfold storeBody
  exact resOk_ite h (MemoryOk.foldl h (fun _ x h => h.request ..) _)

/-! ## Machine/Scopes.lean: narrow releases and the scope checker -/

theorem MemoryOk.askWiden (h : MemoryOk s) (l : List Narrow) : MemoryOk (s.askWiden l) := h
theorem MemoryOk.consult (h : MemoryOk s) (g : Group) (l : List Acc) : MemoryOk (s.consult g l) := h
theorem MemoryOk.depends (h : MemoryOk s) (g : Group) (sc : Scope) (l : List Acc) : MemoryOk (s.depends g sc l) := h

theorem acquireCheck_wait (h : MemoryOk s) {g : Group} {sc : Scope} {l : List (Mask × Acc)} (ht : acquireCheck s g sc l = .wait t) :
    MemoryOk t := by
  unfold acquireCheck at ht
  split at ht
  · split at ht <;> cases ht
  · split at ht
    · cases ht
    · cases ht
      exact h.askWiden _

theorem MemoryOk.evict (h : MemoryOk s) (part ctx : Nat) : MemoryOk (s.evict part ctx) := h.updPart part fun _ h => h

theorem MemoryOk.checkAt (h : MemoryOk s) (e : Checker) : MemoryOk (s.checkAt e) := by
  unfold State.checkAt
  dsimp only
  split
  · exact MemoryOk.evict h _ _
  · exact h

theorem MemoryOk.releaseAt (h : MemoryOk s) (g : Group) (line : Nat) (fences : List Release) (own : Option Scope) :
    MemoryOk (s.releaseAt g line fences own) := by
  unfold State.releaseAt
  split
  · split
    · exact h
    · exact h.checkAt _
    · exact h.checkAt _
    · exact h.checkAt _
  · split <;> exact h

theorem MemoryOk.wideRelease (h : MemoryOk s) (g : Group) (rels : List Release) : MemoryOk (s.wideRelease g rels) := by
  unfold State.wideRelease
  split <;> exact h

theorem MemoryOk.releaseTo (h : MemoryOk s) (g : Group) (lines : List Nat) (r : Releasing) : MemoryOk (s.releaseTo g lines r).1 :=
  (h.wideRelease _ _).foldl (fun _ _ h => h.releaseAt ..) _

/-! ## Machine/LoadStore.lean: the loads, the stores and the locks -/

section
variable {c : Ctl}

theorem execLd_nextOk (h : MemoryOk s) (sp : Space) (hint : BitVec 3) (ty : Ty) (d t1 t2 t3 : Opd) :
    NextOk (execLd c sp hint ty d t1 t2 t3 s) :=
  serve_nextOk h fun _ => memBody_resOk h _ _ _ _ _ _ _ fun _ _ _ h => loadBody_resOk h _ _ _ fun _ _ _ h => h

theorem execSt_nextOk (h : MemoryOk s) (sp : Space) (hint : BitVec 3) (ty : Ty) (val t1 t2 t3 : Opd) :
    NextOk (execSt c sp hint ty val t1 t2 t3 s) :=
  serve_nextOk h fun _ => memBody_resOk h _ _ _ _ _ _ _ fun _ _ _ h => storeBody_resOk h ..

theorem execStrel_nextOk (h : MemoryOk s) (sp : Space) (sc : Scope) (ty : Ty) (val t1 t2 t3 : Opd) :
    NextOk (execStrel c sp sc ty val t1 t2 t3 s) :=
  serve_nextOk h fun _ => memBody_resOk h _ _ _ _ _ _ _ fun _ _ _ h => storeBody_resOk h ..

theorem execStref_nextOk (h : MemoryOk s) (sp : Space) (hint : BitVec 3) (val t1 t2 t3 : Opd) :
    NextOk (execStref c sp hint val t1 t2 t3 s) :=
  serve_nextOk h fun _ => memBody_resOk h _ _ _ _ _ _ _ fun _ _ _ h => storeBody_resOk h ..

theorem execLdacq_nextOk (h : MemoryOk s) (sp : Space) (sc : Scope) (ty : Ty) (d t1 t2 t3 : Opd) :
    NextOk (execLdacq c sp sc ty d t1 t2 t3 s) :=
  serve_nextOk h fun _ => memBody_resOk h _ _ _ _ _ _ _ fun s v l h => by
    dsimp only
    split
    · exact h
    · split
      · next t ht => exact acquireCheck_wait h ht
      · exact h
      · exact loadBody_resOk (h.consult ..) _ _ _ fun _ _ _ h => h.depends ..

theorem execLdref_nextOk (h : MemoryOk s) (sp : Space) (hint : BitVec 3) (d t1 t2 t3 pt : Opd) :
    NextOk (execLdref c sp hint d t1 t2 t3 pt s) :=
  serve_nextOk h fun _ => memBody_resOk h _ _ _ _ _ _ _ fun _ _ _ h => loadBody_resOk h _ _ _ fun _ _ _ h => h

theorem execPref_nextOk (h : MemoryOk s) (sp : Space) (hint : BitVec 3) (ty : Ty) (t1 t2 t3 : Opd) :
    NextOk (execPref c sp hint ty t1 t2 t3 s) :=
  serve_nextOk h fun _ => h.keepAcc ..

theorem lockBody_resOk (h : MemoryOk s) (v : Served) (sp : Space) (t1 t2 : Opd) {body : State → Served → List (Nat × Nat) → Res}
    (hb : ∀ t v l, MemoryOk t → ResOk (body t v l)) : ResOk (lockBody v s sp t1 t2 body) := by
  unfold lockBody
  dsimp only
  split
  · exact h
  · exact memBody_resOk h _ _ _ _ _ _ _ fun _ _ _ h => hb _ _ _ h

theorem MemoryOk.pin (h : MemoryOk s) (g : Group) (ls : List Nat) : MemoryOk (s.pin g ls) := MemoryOk.updRank h _ _ fun _ h => h

theorem MemoryOk.unlock (h : MemoryOk s) (g : Group) (ls : List Nat) : MemoryOk (s.unlock g ls) :=
  MemoryOk.updRank (h.withRam ((mem_foldl (fun r l => unhide_mem r l g.core) _ s.ram).symm ▸ h.ram)) _ _ fun _ h => h

theorem execLlock_nextOk (h : MemoryOk s) (sp : Space) (t1 t2 : Opd) : NextOk (execLlock c sp t1 t2 s) :=
  serveCommit_nextOk h fun _ => lockBody_resOk h _ _ _ _ fun s v ls h => by
    dsimp only
    split
    · exact h
    · split
      · exact h
      · split
        · exact h.pin ..
        · exact MemoryOk.foldl h (fun _ l h => h.request ..) _

theorem execLunlk_nextOk (h : MemoryOk s) (sp : Space) (t1 t2 : Opd) : NextOk (execLunlk c sp t1 t2 s) :=
  serveCommit_nextOk h fun _ => lockBody_resOk h _ _ _ _ fun _ _ _ h => h.unlock ..

theorem execHoldw_nextOk (h : MemoryOk s) (sp : Space) (hint : BitVec 3) (ty : Ty) (d a b cmp e : Opd) :
    NextOk (execHoldw c sp hint ty d a b cmp e s) :=
  serve_nextOk h fun _ => memBody_resOk h _ _ _ _ _ _ _ fun s v l h => by
    dsimp only
    split
    · exact h
    · exact loadBody_resOk h _ _ _ fun _ _ _ h => h

/-! ## Machine/Atomic.lean -/

theorem atomStore_memoryOk (k : AtomKind) (rel : Bool) {r : AtomRun} (h : MemoryOk r.s) (L : Nat) (c : Chunk) (d : List Byte) :
    MemoryOk (atomStore k rel r L c d).s := (h.releaseTo ..).store ..

theorem atomLane_memoryOk (k : AtomKind) (new : Nat → Nat → Option Nat) {r : AtomRun} (h : MemoryOk r.s) (a : Acc) :
    MemoryOk (atomLane k new r a).s := by
  have hp : MemoryOk (if windowPage a then r.s.proxy (atomNative k.op) else (none, r.s)).2 := by
    split
    · exact h.pick _ _
    · exact h
  unfold atomLane
  dsimp only
  split
  · exact hp
  · have hx := hp.loadAcc r.g [] true a
    split
    · refine atomStore_memoryOk k k.rel ?_ _ _ _
      dsimp only
      split
      · exact hx.depends ..
      · exact hx
    · dsimp only
      split
      · exact hx.depends ..
      · exact hx

theorem atomBody_resOk (h : MemoryOk s) (v : Served) (k : AtomKind) (d : Opd) (new : Nat → Nat → Option Nat) (l : List Acc) :
    ResOk (atomBody v s k d new l) := by
  unfold atomBody
  dsimp only
  split
  · exact h.retranslate ..
  · split
    · next t ht =>
      split at ht
      · exact acquireCheck_wait h ht
      · cases ht
    · exact h
    · split
      · exact MemoryOk.foldl h (fun _ l h => h.request ..) _
      · have hr : MemoryOk (l.foldl (atomLane k new) ⟨if k.acq then s.consult v.g l else s, v.g, [], [], []⟩).s :=
          List.foldlRecOn l _ (motive := fun x : AtomRun => MemoryOk x.s) (memoryOk_ite (h.consult ..) h) fun _ h a _ =>
            atomLane_memoryOk k new h a
        refine poisoned_resOk ?_ _ _ _ fun t _ => ?_
        · exact h
        · split <;> exact hr

theorem execAtom_nextOk (h : MemoryOk s) (op : RedOp) (ord : Ordering) (scope : Scope) (sp : Space) (ty : Ty) (d a b opnd : Opd) :
    NextOk (execAtom c op ord scope sp ty d a b opnd s) :=
  serveCommit_nextOk h fun _ => memBody_resOk h _ _ _ _ _ _ _ fun _ _ _ h => atomBody_resOk h ..

theorem execAcas_nextOk (h : MemoryOk s) (scope : Scope) (sp : Space) (ty : Ty) (d a b cmp : Opd) :
    NextOk (execAcas c scope sp ty d a b cmp s) :=
  serveCommit_nextOk h fun _ => memBody_resOk h _ _ _ _ _ _ _ fun _ _ _ h => atomBody_resOk h ..

/-! ## Machine/Queue.lean and Machine/Box.lean -/

theorem execQcfg_nextOk (h : MemoryOk s) (q desc : Opd) : NextOk (execQcfg c q desc s) :=
  serve_nextOk h fun v => by
    dsimp only
    split
    · exact h
    · split
      · exact h
      · split
        · split
          · split
            · exact h.updRank _ _ fun _ h => h
            · exact h
          · split
            · exact h
            · exact h.updRank _ _ fun _ h => h
        · exact h.updRank _ _ fun _ h => h

theorem queueBody_resOk (h : MemoryOk s) (v : Served) (q n : Opd) (producer : Bool) {body : Queue → Nat → Res}
    (hb : ∀ x k, ResOk (body x k)) : ResOk (queueBody v s q n producer body) := by
  unfold queueBody
  dsimp only
  split
  · exact h
  · exact resOk_ite h (hb _ _)

theorem execQacq_nextOk (h : MemoryOk s) (d q n : Opd) : NextOk (execQacq c d q n s) :=
  serve_nextOk h fun v => queueBody_resOk h _ _ _ _ fun x k => by
    split
    · exact h
    · exact h.updRank _ _ fun _ h => h

theorem execQwait_nextOk (h : MemoryOk s) (d q n : Opd) : NextOk (execQwait c d q n s) :=
  serve_nextOk h fun v => queueBody_resOk h _ _ _ _ fun x k => by
    split
    · exact h
    · exact h.updRank _ _ fun _ h => h

theorem execQcommit_nextOk (h : MemoryOk s) (q n : Opd) : NextOk (execQcommit c q n s) :=
  serve_nextOk h fun v => queueBody_resOk h _ _ _ _ fun x k => by
    split
    · exact h
    · split <;> exact h

theorem execQfree_nextOk (h : MemoryOk s) (q n : Opd) : NextOk (execQfree c q n s) :=
  serve_nextOk h fun v => queueBody_resOk h _ _ _ _ fun x k => by
    split
    · exact h
    · split <;> exact h

theorem MemoryOk.setShape (h : MemoryOk s) (g : Group) (k : Nat) (x : List Byte) : MemoryOk (s.setShape g k x) := h.updRank _ _ fun _ h => h

theorem execKld_nextOk (h : MemoryOk s) (k addr : Opd) : NextOk (execKld c k addr s) :=
  serve_nextOk h fun _ => memBody_resOk h _ _ _ _ _ _ _ fun _ _ _ h => loadBody_resOk h _ _ _ fun s g r h => by
    dsimp only
    split
    · exact h.setShape ..
    · exact h

theorem execKset_nextOk (h : MemoryOk s) (k sel val : Opd) : NextOk (execKset c k sel val s) :=
  serve_nextOk h fun v => by
    split
    · exact h
    · split
      · split
        · exact h.setShape ..
        · exact h
      · exact h

theorem execCbld_nextOk (h : MemoryOk s) (slot addr : Opd) : NextOk (execCbld c slot addr s) :=
  serve_nextOk h fun v => by
    dsimp only
    split
    · exact h
    · refine memBody_resOk h _ _ _ _ _ _ _ fun s v l h => ?_
      split
      · exact h
      · split
        · exact h
        · exact loadBody_resOk h _ _ _ fun s g r h => h.updRank _ _ fun _ h => h

/-- Taking a box command's target gives an answer, or the target in a state, with every memory in canonical form. -/
def TargetOk : Except Res BoxTarget → Prop
  | .error e => ResOk e
  | .ok x => MemoryOk x.s

theorem targetOk_ite {c : Prop} [Decidable c] {a b : Except Res BoxTarget} (ha : TargetOk a) (hb : TargetOk b) :
    TargetOk (if c then a else b) := by split <;> assumption

theorem boxTarget_targetOk (h : MemoryOk s) (v : Served) (k : BoxKind) (r : List Byte) (t : Opd) : TargetOk (boxTarget v s k r t) := by
  unfold boxTarget
  dsimp only
  split
  · split
    · exact h
    · refine targetOk_ite h ?_
      generalize (if k.prod then _ else _ : Option (Nat × Queue)) = o
      cases o with
      | none => exact h
      | some x => exact targetOk_ite h (h.updRank _ _ fun _ h => h)
  · exact h

theorem boxAccept_resOk (h : MemoryOk s) (v : Served) (k : BoxKind) (hint : BitVec 3) (r : List Byte) (t : Opd) (perm : Nat) (b : BoxProbe) :
    ResOk (boxAccept v s k hint r t perm b) := by
  unfold boxAccept
  have ht := boxTarget_targetOk h v k r t
  generalize boxTarget v s k r t = o at ht
  cases o with
  | error e => exact ht
  | ok x =>
    dsimp only
    generalize b.trans.length - 512 = spill
    refine resOk_ite h ?_
    exact MemoryOk.foldl (MemoryOk.foldl (s := x.s) ht (fun _ p h => h.useKey p) _) (fun _ p h => h.keepIn ..) _

theorem boxBody_resOk (h : MemoryOk s) (v : Served) (k : BoxKind) (hint : BitVec 3) (kr : Nat) (t : Opd) (co : Nat) (lo : Opd) :
    ResOk (boxBody v s k hint kr t co lo) := by
  unfold boxBody
  split
  · exact h
  · dsimp only
    split
    · exact h
    · refine resOk_ite h (resOk_ite h (resOk_ite h (resOk_ite h (resOk_ite h ?_))))
      generalize (if k.gath = true then _ else _ : Option Nat) = poison
      cases xgate s v.g k.cls v.seq with
      | none => exact h
      | some g =>
        cases poison with
        | some a => exact h
        | none =>
          dsimp only
          generalize boxProbe .. = b
          split
          · exact h.parkAll ..
          · refine resOk_ite h ?_
            split
            · exact resOk_ite h h
            · exact h
            · exact boxAccept_resOk h ..

end

end Sys2Proof.Claims
end

section
/-! PROOF. The canonical form of every memory, kept: clocks, branches, discards, coherence, the matrix unit and the engines. -/

namespace Sys2Proof.Claims

open Sys2Proof.Machine Sys2Proof.Laws

variable {s t : State} {c : Ctl}

/-! ## Machine/Clocks.lean -/

theorem MemoryOk.countChanges (h : MemoryOk s) : MemoryOk s.countChanges := h
theorem MemoryOk.noteStop (h : MemoryOk s) (die : Nat) : MemoryOk (s.noteStop die) := h
theorem MemoryOk.noteStops (h : MemoryOk s) : MemoryOk s.noteStops := h.foldl (fun _ _ h => h.noteStop _) _
theorem MemoryOk.noteStart (h : MemoryOk s) (die cluster : Nat) : MemoryOk (s.noteStart die cluster) := h

theorem MemoryOk.regrant (h : MemoryOk s) : MemoryOk s.regrant := by
  unfold State.regrant
  exact MemoryOk.noteStops h

theorem MemoryOk.regrantIf (h : MemoryOk s) (k : TeamKey) : MemoryOk (s.regrantIf k) := by
  unfold State.regrantIf
  exact memoryOk_ite h.regrant h

theorem execGrantTakeEffect_nextOk (h : MemoryOk s) (die cluster : Nat) (dom : Domain) : NextOk (execGrantTakeEffect die cluster dom s) := by
  unfold execGrantTakeEffect
  exact nextOk_ite h h

theorem MemoryOk.countDroop (h : MemoryOk s) (die : Nat) : MemoryOk (s.countDroop die) := by
  unfold State.countDroop
  exact memoryOk_ite h (MemoryOk.regrant h)

theorem execDroopRecoveryInterval_nextOk (h : MemoryOk s) (die : Nat) : NextOk (execDroopRecoveryInterval die s) := by
  unfold execDroopRecoveryInterval
  dsimp only
  split
  · split
    · exact h
    · exact MemoryOk.regrant h
  · exact h

theorem execLoadstepAssert_nextOk (h : MemoryOk s) (die : Nat) : NextOk (execLoadstepAssert die s) := by
  unfold execLoadstepAssert
  exact memoryOk_ite h h

theorem execLoadstepLeadExpiry_nextOk (h : MemoryOk s) (die : Nat) (ldack : Bool) : NextOk (execLoadstepLeadExpiry die ldack s) := by
  unfold execLoadstepLeadExpiry
  dsimp only
  split
  · exact h
  · split <;> exact h

/-! ## Machine/Branch.lean -/

theorem branch_resOk (h : MemoryOk s) (v : Served) (target : Nat → Dword) (link : Arch → Mask → Arch) : ResOk (branch v s target link) := by
  unfold branch
  dsimp only
  refine resOk_ite h ?_
  generalize List.filterMap _ _ = bad
  cases bad with
  | cons b r => exact h.parkAll ..
  | nil => exact h.parkAll ..

theorem execExit_nextOk (h : MemoryOk s) : NextOk (execExit c s) := serveCommit_nextOk h fun _ => h.depart ..

theorem execDbrk_nextOk (h : MemoryOk s) (imm : BitVec 32) : NextOk (execDbrk c imm s) := serve_nextOk h fun _ => resOk_ite h h

theorem execTrap_nextOk (h : MemoryOk s) (imm : BitVec 32) : NextOk (execTrap c imm s) :=
  serveCommit_nextOk h fun _ => resOk_ite ((deliver_memoryOk h _ _).regrantIf _) h

theorem tretBody_resOk (h : MemoryOk s) (v : Served) : ResOk (tretBody v s) := by
  unfold tretBody
  refine resOk_ite h ?_
  split
  · exact h
  · exact h
  · exact resOk_ite h (h.parkAll ..)
  · exact h

theorem execTret_nextOk (h : MemoryOk s) : NextOk (execTret c s) := by
  unfold execTret
  split
  · trivial
  · refine nextOk_ite (serve_nextOk h fun _ => h) (nextOk_ite (h.stalled _) (nextOk_ite (holdRun_memoryOk h _) ?_))
    exact headed_memoryOk h c _ fun v => conclude_memoryOk _ (tretBody_resOk h _)

/-! ## Machine/Convert.lean and Machine/Mx.lean -/

theorem withDraw_resOk (h : MemoryOk s) (v : Served) (rnd : Rnd) {f : Served → (Nat → Nat → Nat) → Res} (hf : ∀ v d, ResOk (f v d)) :
    ResOk (withDraw v s rnd f) := by
  unfold withDraw
  exact resOk_ite (resOk_ite (hf _ _) h) (hf _ _)

theorem execCvt_nextOk (h : MemoryOk s) (rnd : Rnd) (sat : Bool) (form : Packing) (dty sty : Ty) (d a n : Opd) :
    NextOk (execCvt c rnd sat form dty sty d a n s) :=
  serve_nextOk h fun v => withDraw_resOk h v rnd fun v _ => raiseFlags_resOk h v _ _

theorem execCbxp_nextOk (h : MemoryOk s) (ty : Ty) (d a slot q : Opd) : NextOk (execCbxp c ty d a slot q s) :=
  serve_nextOk h fun v => by
    dsimp only
    split <;> exact h

theorem mxWhole_resOk (h : MemoryOk s) (ty : Ty) (v : Served) {body : Unit → Res} (hb : ResOk (body ())) : ResOk (mxWhole ty v s body) := by
  unfold mxWhole
  exact resOk_ite hb h

theorem mxWrite_nextOk (h : MemoryOk s) {i : Instr} {rnd : Rnd} {ty : Ty} {d : Opd} {f : Arch → Nat → Nat → Fv × Flg} :
    NextOk (mxWrite i c s rnd ty d f) :=
  serve_nextOk h fun v => mxWhole_resOk h ty v (withDraw_resOk h v rnd fun v _ => raiseFlags_resOk h v _ _)

theorem execMxunpk_nextOk (h : MemoryOk s) (rnd : Rnd) (ty : Ty) (d a n : Opd) : NextOk (execMxunpk c rnd ty d a n s) :=
  serve_nextOk h fun v => mxWhole_resOk h ty v (raiseFlags_resOk h v _ _)

/-! ## Machine/Create.lean and Machine/Discard.lean: what a core rank holds -/

theorem rankOk_fresh (tiles : Nat) (sched : List Dword) : RankOk (Rank.fresh tiles sched) := ⟨rfl, rfl⟩

theorem teamOk_fresh (k : TeamKey) (ctx : Nat) (b : Launch) (cores : List CoreId) (arena : Dword) (lists : List (List Dword))
    (level started : Nat) : TeamOk (Team.fresh k ctx b cores arena lists level started) := fun r hr => by
  obtain ⟨i, -, rfl⟩ := List.mem_map.mp hr
  exact rankOk_fresh ..

section
variable {r : Rank}

theorem RankOk.foldl {α : Type} {f : Rank → α → Rank} (h : RankOk r) (hf : ∀ r x, RankOk r → RankOk (f r x)) (l : List α) :
    RankOk (l.foldl f r) :=
  List.foldlRecOn l f (motive := RankOk) h fun r h x _ => hf r x h

theorem RankOk.updQueue (h : RankOk r) (q : Nat) (f : Queue → Queue) : RankOk (r.updQueue q f) := by
  unfold Rank.updQueue
  split <;> exact h

theorem RankOk.reopen (h : RankOk r) (k : GroupKey) (n : Nat) (o : MatOp) : RankOk (r.reopen k n o) := by
  unfold Rank.reopen
  split
  · exact h.updQueue ..
  · exact h

theorem RankOk.settleTile (h : RankOk r) (z : Nat) : RankOk (r.settleTile z) := by
  unfold Rank.settleTile
  split
  · exact h
  · refine RankOk.foldl ?_ (fun _ _ h => h.updQueue ..) _
    exact h

theorem RankOk.withdraw (h : RankOk r) (k : GroupKey) (n : Nat) : RankOk (r.withdraw k n) := by
  refine RankOk.foldl ?_ (fun _ _ h => h.settleTile _) _
  exact List.foldrRecOn _ _ (motive := RankOk) h fun _ h _ _ => h.reopen ..

theorem RankOk.undo (h : RankOk r) (e : EffectKind) : RankOk (r.undo e) := by
  cases e with
  | qacq id q i n => exact h.updQueue ..
  | qwait id q i n => exact h.updQueue ..
  | slotCommit id q i => exact h.updQueue ..
  | slotFree id q i => exact h.updQueue ..
  | _ => exact h

theorem RankOk.abort (h : RankOk r) (c : Cmd) : RankOk (r.abort c) := by
  unfold Rank.abort
  split
  · exact h.updQueue ..
  · exact h

theorem RankOk.releaseTile (h : RankOk r) (z id : Nat) (k : GroupKey) (seq : Nat) : RankOk (r.releaseTile z id k seq) :=
  (h.withZ _).settleTile z

end

/-! ## Machine/Discard.lean: taking entries back -/

theorem MemoryOk.discard (h : MemoryOk s) (k : GroupKey) (n : Nat) (a : Arch) : MemoryOk (s.discard k n a) := by
  unfold State.discard
  split
  · exact h
  · next g _ =>
    have hu := MemoryOk.updRank h k.team g.rank fun r hr =>
      ((RankOk.foldl hr (fun _ (e : Effect) h => h.undo e.kind) (g.staged.filter fun e => decide (n ≤ e.seq))).foldl
        (fun _ c h => h.abort c) (g.cmds.filter fun c => decide (n ≤ c.seq))).withdraw k n
    exact memoryOk_ite (MemoryOk.noteStops (hu.updGroup ..)) (hu.updGroup ..)

theorem MemoryOk.putBack (h : MemoryOk s) (g : Group) (o : ObjImage) : MemoryOk (State.putBack g s o) := by
  cases o with
  | shape k x => exact h.updRank _ _ fun _ h => h
  | resv b x => exact h.updRank _ _ fun _ h => h
  | count c x => exact h.updRank _ _ fun _ h => h
  | queue q x => exact h.updRank _ _ fun _ h => h
  | book n x => exact h.updRank _ _ fun _ h => h
  | bar i x => exact h.updTeam _ fun _ ht => ht
  | halt => exact h.updGroup ..

theorem MemoryOk.recover (h : MemoryOk s) (k : GroupKey) (n : Nat) (a : Arch) : MemoryOk (s.recover k n a) := by
  unfold State.recover
  split
  · exact h
  · exact (h.foldl (fun _ o h => h.putBack _ o) _).discard k n a

theorem MemoryOk.faultEntry (h : MemoryOk s) (k : GroupKey) (seq cause : Nat) (mask : Mask) (addr : Nat) :
    MemoryOk (s.faultEntry k seq cause mask addr) := by
  unfold State.faultEntry
  split
  · exact h
  · exact (h.recover ..).updGroup ..

theorem MemoryOk.cutBehind (h : MemoryOk s) (g : Group) (n : Nat) : MemoryOk (s.cutBehind g n) := by
  unfold State.cutBehind
  split
  · exact h
  · exact (h.recover ..).updGroup ..

/-! ## Machine/Home.lean -/

theorem when_nextOk (c : Bool) (h : MemoryOk s) (ht : MemoryOk t) : NextOk (when_ c s t) := memoryOk_ite ht h

theorem MemoryOk.updReq (h : MemoryOk s) (core : CoreId) (line : Nat) (f : HomeReq → HomeReq) : MemoryOk (s.updReq core line f) := h


theorem MemoryOk.askAgain (h : MemoryOk s) (core : CoreId) (own : Bool) (ls : List Nat) : MemoryOk (s.askAgain core own ls) :=
  h.foldl (fun _ _ h => h.request ..) _

theorem execHomeRequest_nextOk (h : MemoryOk s) (core : CoreId) (line : Nat) : NextOk (execHomeRequest core line s) := by
  unfold execHomeRequest
  split
  · exact h
  · exact nextOk_ite h (nextOk_ite h h)

theorem execCoherenceProbe_nextOk (h : MemoryOk s) (core : CoreId) (line : Nat) : NextOk (execCoherenceProbe core line s) := by
  unfold execCoherenceProbe
  split
  · exact h
  · have hc := fun coh core line f => (h.withCoh coh).updReq core line f
    exact nextOk_ite h (memoryOk_ite ((hc ..).request ..) (hc ..))

theorem execOwnershipGrant_nextOk (h : MemoryOk s) (core : CoreId) (line : Nat) : NextOk (execOwnershipGrant core line s) := by
  unfold execOwnershipGrant
  split
  · exact h
  · exact when_nextOk _ h h

theorem execLoadReturn_nextOk (h : MemoryOk s) (k : GroupKey) (seq : Nat) : NextOk (execLoadReturn k seq s) := by
  unfold execLoadReturn
  split
  · exact h
  · split
    · exact h
    · exact nextOk_ite (h.askAgain ..) h

theorem execWidenAnswer_nextOk (h : MemoryOk s) (line die cluster : Nat) : NextOk (execWidenAnswer line die cluster s) := by
  unfold execWidenAnswer
  split <;> exact h

theorem taintLines_mem (r : Ram) (ls : List Nat) : (r.taintLines ls).mem = r.mem := mem_foldl (fun r l => taint_mem r l 64) ls r

theorem execLinkDown_nextOk (h : MemoryOk s) (link : Nat) : NextOk (execLinkDown link s) := by
  unfold execLinkDown
  refine nextOk_ite h (MemoryOk.foldl ?_ (fun _ _ h => memoryOk_ite (h.askReset _) h) _)
  exact h.withRam ((taintLines_mem ..).symm ▸ h.ram)

theorem execMachineCheck_nextOk (h : MemoryOk s) (u : Upset) : NextOk (execMachineCheck u s) := by
  cases u with
  | check parts => exact h.foldl (fun _ _ h => memoryOk_ite (h.askReset _) h) _
  | corrected die => exact h
  | memory a => exact h.withRam ((taint_mem s.ram a 1).symm ▸ h.ram)
  | scratchpad t r a => exact h.updRank t r fun _ h => h
  | operandBuffer t r a => exact h.updRank t r fun _ h => h
  | vector g n p => exact h
  | scalar g n => exact h
  | predicate g n => exact memoryOk_ite h h
  | accumulator t r z i p => exact h.updRank t r fun _ h => h
  | quarantine g n w => exact h

/-! ## Machine/Matrix.lean -/

theorem execBrsv_nextOk (h : MemoryOk s) (b sa sb : Opd) : NextOk (execBrsv c b sa sb s) :=
  serve_nextOk h fun v => by
    dsimp only
    split
    · exact resOk_ite h (resOk_ite h h)
    · exact resOk_ite h (h.updRank _ _ fun _ h => h)

theorem execBfree_nextOk (h : MemoryOk s) (b : Opd) : NextOk (execBfree c b s) :=
  serve_nextOk h fun v => by
    dsimp only
    split
    · exact h
    · exact resOk_ite h (resOk_ite h (h.updRank _ _ fun _ h => h))

theorem MemoryOk.faultRetired (h : MemoryOk s) (x : Sign) (cause addr : Nat) : MemoryOk (s.faultRetired x cause addr) := by
  unfold State.faultRetired
  split
  · exact h
  · exact (h.recover ..).updGroup ..

theorem MemoryOk.voidSigns (h : MemoryOk s) (l : List Sign) (cause addr : Nat) : MemoryOk (s.voidSigns l cause addr) :=
  h.foldl (fun _ _ h => memoryOk_ite (h.faultEntry ..) (h.faultRetired ..)) _

theorem MemoryOk.setConv (h : MemoryOk s) (k : TeamKey) (r c : Nat) (x : Conv) : MemoryOk (s.setConv k r c x) := h.updRank k r fun _ h => h

theorem MemoryOk.voidGens (h : MemoryOk s) (k : TeamKey) (r c : Nat) (kind : List Sign → Option Nat) : MemoryOk (s.voidGens k r c kind) :=
  (h.setConv ..).foldl (fun _ _ h => h.voidSigns ..) _

theorem MemoryOk.closeGen (h : MemoryOk s) (k : TeamKey) (r c : Nat) (id : Option Nat) (l : List Sign) : MemoryOk (s.closeGen k r c id l) := by
  unfold State.closeGen
  dsimp only
  split
  · exact h.voidSigns ..
  · refine MemoryOk.foldl (h.updRank k r ?_) (fun _ _ h => memoryOk_ite h (h.faultEntry ..)) _
    exact fun _ h => h

theorem closeAll_memoryOk (h : MemoryOk s) (n : Nat) (k : TeamKey) (r c : Nat) : MemoryOk (State.closeAll n s k r c) := by
  induction n generalizing s with
  | zero => exact h
  | succ n ih =>
    unfold State.closeAll
    dsimp only
    split
    · exact h
    · exact memoryOk_ite (ih ((h.setConv ..).closeGen ..)) h
    · exact memoryOk_ite (ih ((h.setConv ..).closeGen ..)) h

theorem MemoryOk.judge (h : MemoryOk s) (k : TeamKey) (r c : Nat) : MemoryOk (s.judge k r c) := closeAll_memoryOk (h.voidGens ..) ..

theorem MemoryOk.judge4 (h : MemoryOk s) (k : TeamKey) (r c : Nat) : MemoryOk (s.judge4 k r c) := h.voidGens ..

theorem MemoryOk.signed (h : MemoryOk s) (k : TeamKey) (rank c : Nat) : MemoryOk (s.signed k rank c) := by
  unfold State.signed
  exact memoryOk_ite ((h.judge ..).judge4 ..) (h.judge ..)

theorem cvsetVoid_resOk (h : MemoryOk s) (v : Served) (c : Nat) (bad : List Sign → Bool) : ResOk (cvsetVoid s v c bad) := by
  have hv := fun x kind => (h.setConv v.g.key.team v.g.rank c x).voidGens v.g.key.team v.g.rank c kind
  unfold cvsetVoid
  dsimp only
  split <;> exact hv _ _

theorem execCvset_nextOk (h : MemoryOk s) (cr : Opd) (imm : BitVec 32) : NextOk (execCvset c cr imm s) :=
  serve_nextOk h fun v => by
    dsimp only
    refine resOk_ite h ?_
    split
    · refine resOk_ite h (resOk_ite (cvsetVoid_resOk h _ _ _) ?_)
      split <;> exact (h.setConv ..).signed ..
    · exact resOk_ite (h.setConv ..) (resOk_ite h (cvsetVoid_resOk h _ _ _))

theorem tmacBody_resOk (h : MemoryOk s) (i : Instr) (vb cr : Nat) (v : Served) : ResOk (tmacBody i vb cr s v) := by
  unfold tmacBody
  split
  · exact h
  · exact h.updRank _ _ fun _ h => h

theorem execTmac_nextOk (h : MemoryOk s) (n : Bool) (ty : Ty) (z bq vb cr p : Opd) : NextOk (execTmac c n ty z bq vb cr p s) := by
  have hs := serveColl_nextOk (i := .tmac c n ty z bq vb cr p) (c := c) h (tmacBody_resOk h (.tmac c n ty z bq vb cr p) (vecNo vb) (objNo cr))
  unfold execTmac
  dsimp only
  split
  · next he _ =>
    rw [he] at hs
    exact MemoryOk.signed hs ..
  · exact hs

theorem tileBody_resOk (h : MemoryOk s) (v : Served) (z : Nat) (rows : List Nat) {body : Rank → Tile → Res} (hb : ∀ r t, ResOk (body r t)) :
    ResOk (tileBody v s z rows body) := by
  unfold tileBody
  dsimp only
  split
  · exact h
  · exact resOk_ite h (hb _ _)

theorem tileClean_resOk (h : MemoryOk s) (v : Served) (t : Tile) (rows : List Nat) {body : Unit → Res} (hb : ResOk (body ())) :
    ResOk (tileClean v s t rows body) := by
  unfold tileClean
  exact resOk_ite h hb

theorem tileWrite_resOk (h : MemoryOk s) (v : Served) (cls z : Nat) (rows : List (Nat × Row)) (cnt : Nat) (mx : BitVec 4) :
    ResOk (tileWrite v s cls z rows cnt mx) := h.updRank _ _ fun _ h => h

theorem execZclr_nextOk (h : MemoryOk s) (z : Opd) : NextOk (execZclr c z s) :=
  serve_nextOk h fun v => tileBody_resOk h v _ _ fun _ _ => tileWrite_resOk h ..

theorem execZprom_nextOk (h : MemoryOk s) (z : Opd) : NextOk (execZprom c z s) :=
  serve_nextOk h fun v => tileBody_resOk h v _ _ fun _ _ => tileClean_resOk h _ _ _ (tileWrite_resOk h ..)

theorem execZmovToVector_nextOk (h : MemoryOk s) (ty : Ty) (d z pos : Opd) : NextOk (execZmovToVector c ty d z pos s) :=
  serve_nextOk h fun v => by
    split
    · exact h
    · exact tileBody_resOk h v _ _ fun _ _ => resOk_ite h h

theorem execZmovToTile_nextOk (h : MemoryOk s) (ty : Ty) (x z pos : Opd) : NextOk (execZmovToTile c ty x z pos s) :=
  serve_nextOk h fun v => by
    split
    · exact h
    · exact tileBody_resOk h v _ _ fun _ _ => tileWrite_resOk h ..

theorem zcpyBody_resOk (h : MemoryOk s) (v : Served) (addr z rows : Opd) (write : Bool) {body : Served → Tile → Nat → Nat → Nat → Res}
    (hb : ∀ v t off first n, ResOk (body v t off first n)) : ResOk (zcpyBody v s addr z rows write body) := by
  unfold zcpyBody
  dsimp only
  split
  · exact h
  · refine resOk_ite h (resOk_ite h (tileBody_resOk h v _ _ fun _ _ => ?_))
    split
    · exact h
    · exact hb ..

theorem execZcpyToScratchpad_nextOk (h : MemoryOk s) (ty : Ty) (addr z rows : Opd) : NextOk (execZcpyToScratchpad c ty addr z rows s) :=
  serve_nextOk h fun _ => zcpyBody_resOk h _ _ _ _ _ fun _ _ _ _ _ => tileClean_resOk h _ _ _ h

theorem execZcpyToTile_nextOk (h : MemoryOk s) (ty : Ty) (addr z rows : Opd) : NextOk (execZcpyToTile c ty addr z rows s) :=
  serve_nextOk h fun _ => zcpyBody_resOk h _ _ _ _ _ fun _ _ _ _ _ => resOk_ite h (tileWrite_resOk (h.loadChunk ..) ..)

theorem opReady_rankOk (h : MemoryOk s) {t : TeamKey} {rank : Nat} {o : MatOp} {r : Rank} {slot : Option (Nat × Nat)}
    (ho : s.opReady t rank = some (o, r, slot)) : RankOk r := by
  have hr := h.rankOf t rank
  unfold State.opReady at ho
  dsimp only at ho
  split at ho
  · cases ho
  · split at ho
    · cases ho
    · split at ho
      · obtain ⟨y, -, hy⟩ := Option.map_eq_some_iff.mp ho
        cases hy
        exact hr
      · cases ho
        exact hr

theorem execMatrixOperationIssue_nextOk (h : MemoryOk s) (t : TeamKey) (rank : Nat) : NextOk (execMatrixOperationIssue t rank s) := by
  unfold execMatrixOperationIssue
  dsimp only
  split
  · exact h
  · next ho => exact nextOk_ite h (MemoryOk.noteStart (h.updRank t rank fun _ _ => (opReady_rankOk h ho).withOps _) ..)

theorem execMatrixOperationComplete_nextOk (h : MemoryOk s) (t : TeamKey) (rank : Nat) : NextOk (execMatrixOperationComplete t rank s) := by
  have hr := h.rankOf t rank
  unfold execMatrixOperationComplete
  dsimp only
  split
  · exact h
  · next o _ =>
    split
    · refine MemoryOk.noteStop (MemoryOk.voidSigns (h.updRank t rank fun _ _ => ?_) ..) _
      split
      · exact (hr.withOps _).updQueue ..
      · exact hr
    · refine MemoryOk.noteStop (MemoryOk.foldl (MemoryOk.foldl (h.updRank t rank fun _ _ => ?_) (fun _ _ h => h.updGroup ..) _)
        (fun _ _ h => h.updGroup ..) _) _
      refine RankOk.settleTile ?_ _
      exact hr

theorem execReservationInvalidate_nextOk (h : MemoryOk s) (t : TeamKey) (rank b : Nat) : NextOk (execReservationInvalidate t rank b s) :=
  when_nextOk _ h (h.updRank t rank fun _ h => h)

/-! ## Machine/Engine.lean -/

theorem readElem_memoryOk (g : Group) (c : Cmd) {m : Moved} (h : MemoryOk m.s) (e : Elem) : MemoryOk (readElem g c m e).1.s := by
  unfold readElem
  dsimp only
  split
  · split
    · exact h.loadChunk ..
    · exact h
  · split
    · exact h
    · exact List.foldlRecOn _ _ (motive := fun x : Moved × List Byte => MemoryOk x.1.s) h fun _ h _ _ => h.loadChunk ..

theorem moveElem_memoryOk (g : Group) (c : Cmd) {m : Moved} (h : MemoryOk m.s) (e : Elem) : MemoryOk (moveElem g c m e).s :=
  readElem_memoryOk g c h e

theorem moveWrite_memoryOk (g : Group) (c : Cmd) (now : Nat) {m : Moved × List Effect} (h : MemoryOk m.1.s) (w : List Elem) :
    MemoryOk (moveWrite g c now m w).1.s := by
  have hx : MemoryOk (w.foldl (moveElem g c) { m.1 with pieces := [] }).s :=
    List.foldlRecOn w _ (motive := fun x : Moved => MemoryOk x.s) h fun _ h e _ => moveElem_memoryOk g c h e
  unfold moveWrite
  dsimp only
  split <;> exact hx

theorem MemoryOk.askLines (h : MemoryOk s) (g : Group) (c : Cmd) (l : List Elem) : MemoryOk (s.askLines g c l) :=
  h.foldl (fun s e h => by
    split
    · exact memoryOk_ite h (h.foldl (fun _ _ h => h.request ..) _)
    · exact h) _

theorem MemoryOk.runCmd (h : MemoryOk s) (g : Group) (c : Cmd) : MemoryOk (s.runCmd g c) := by
  have hm : ∀ l : List (List Elem), MemoryOk (l.foldl (moveWrite g c s.now) (⟨s, [], [], []⟩, [])).1.s := fun l =>
    List.foldlRecOn l _ (motive := fun x : Moved × List Effect => MemoryOk x.1.s) h fun _ h w _ => moveWrite_memoryOk g c _ h w
  unfold State.runCmd
  dsimp only
  split
  · exact h.askReset _
  · exact h.faultEntry ..
  · have ht := fun l => ((hm (s.fits g c).1).foldl (fun s (p : Nat × Nat) h => h.logRec 3 g.key.team.part (leBytes 8 p.2)) l).askLines g c
      (s.fits g c).1.flatten
    split <;> exact ht _

theorem execEngineResume_nextOk (h : MemoryOk s) (k : GroupKey) (seq : Nat) : NextOk (execEngineResume k seq s) := by
  unfold execEngineResume
  split
  · exact h
  · split
    · exact h
    · exact memoryOk_ite h (h.runCmd ..)

end Sys2Proof.Claims
end

section
/-! PROOF. The canonical form of every memory, kept: fences, fetching, publication, special registers and the pipeline. -/

namespace Sys2Proof.Claims

open Sys2Proof.Machine Sys2Proof.Laws

variable {s t : State} {c : Ctl}

/-! ## Machine/Fence.lean and Machine/Fetch.lean -/

theorem fenceSc_memoryOk {x : State × Group} (h : MemoryOk x.1) (sc : Scope) (L : Nat) : MemoryOk (fenceSc x sc L).1 := h

theorem execFence_nextOk (h : MemoryOk s) (kind : FenceKind) (scope : Scope) : NextOk (execFence c kind scope s) := by
  cases kind with
  | acq => exact serve_nextOk h fun _ => h
  | rel => exact serve_nextOk h fun _ => h
  | ar => exact serve_nextOk h fun _ => h
  | sc =>
    refine serveCommit_nextOk h fun v => ?_
    split
    · exact h
    · exact List.foldlRecOn _ _ (motive := fun x : State × Group => MemoryOk x.1) h fun _ h L _ => fenceSc_memoryOk h scope L

theorem execXfence_nextOk (h : MemoryOk s) (src dst : Fin 6) (scope : Scope) : NextOk (execXfence c src dst scope s) :=
  serve_nextOk h fun _ => h

theorem runParity_nextOk (h : MemoryOk s) (c : Ctl) : NextOk (runParity s c) := serveAll_nextOk h fun _ => h

theorem runIllegal_nextOk (h : MemoryOk s) (c : Ctl) (cause : Nat) : NextOk (runIllegal s c cause) := serve_nextOk h fun _ => h

theorem MemoryOk.resumed (h : MemoryOk s) (core : CoreId) : MemoryOk (s.resumed core) := h

theorem fetchRun_memoryOk (h : MemoryOk s) (g : Group) (run : Mask) (pc : Dword) : MemoryOk (fetchRun s g run pc) := by
  unfold fetchRun
  split
  · exact h
  · exact memoryOk_ite h ((h.parkAll ..).setGroup _)
  · exact memoryOk_ite h h

theorem fetchDecide_memoryOk (h : MemoryOk s) (g : Group) : MemoryOk (fetchDecide s g) := by
  unfold fetchDecide
  dsimp only
  split
  · exact h
  · split
    · exact h
    · refine memoryOk_ite (fetchRun_memoryOk (h.resumed _) ..) ?_
      split
      · exact h
      · exact h
      · exact fetchRun_memoryOk (h.resumed _) ..
      · exact fetchRun_memoryOk (h.resumed _) ..

theorem execFetchDecision_nextOk (h : MemoryOk s) (k : GroupKey) : NextOk (execFetchDecision k s) := by
  unfold execFetchDecision
  split
  · exact h
  · exact memoryOk_ite (fetchDecide_memoryOk h _) h

/-! ## Machine/Reach.lean -/

theorem execObjinit_nextOk (h : MemoryOk s) (a len : Opd) : NextOk (execObjinit c a len s) :=
  serve_nextOk h fun v => probeBody_resOk h v _ _ _ _ _ fun _ _ _ h => resOk_ite h (MemoryOk.foldl h (fun _ _ h => h.request ..) _)

theorem MemoryOk.publish (h : MemoryOk s) (g : Group) (line : Nat) : MemoryOk (s.publish g line) := h.withCoh _

/-- The state at a walk's end or stop has its memories in canonical form. -/
def WalkOk : WalkStep → Prop
  | .more s _ | .done s _ | .page s _ _ _ | .trap s _ _ | .check s | .locked s _ => MemoryOk s

theorem walkOk_ite {p : Prop} [Decidable p] {a b : WalkStep} (ha : WalkOk a) (hb : WalkOk b) : WalkOk (if p then a else b) := by
  split <;> assumption

theorem walkHead_walkOk (h : MemoryOk s) (g : Group) (w : Walk) : WalkOk (walkHead s g w) := by
  unfold walkHead
  split
  · exact h
  · refine walkOk_ite h (walkOk_ite h (walkOk_ite h ?_))
    split
    · exact h
    · exact h
    · refine walkOk_ite h (walkOk_ite h (walkOk_ite h (walkOk_ite h (walkOk_ite h ?_))))
      exact walkOk_ite (memoryOk_ite (h.logRec ..) h) (memoryOk_ite (h.logRec ..) h)

theorem walkLine_walkOk (h : MemoryOk s) (g : Group) (w : Walk) (hd len x : Nat) : WalkOk (walkLine s g w hd len x) := by
  unfold walkLine
  refine walkOk_ite h (walkOk_ite h ?_)
  split
  · exact h
  · exact h
  · refine walkOk_ite h (walkOk_ite h (walkOk_ite h ?_))
    dsimp only
    generalize ptePol _ = pol
    cases List.find? _ _ with
    | none => exact memoryOk_ite (h.publish ..) h
    | some y =>
      dsimp only
      split
      · exact h
      · exact h
      · exact h
      · exact memoryOk_ite ((h.logRec ..).publish ..) (h.logRec ..)

theorem walkStep_walkOk (h : MemoryOk s) (g : Group) (w : Walk) : WalkOk (walkStep s g w) := by
  unfold walkStep
  split
  · exact walkLine_walkOk h ..
  · exact walkHead_walkOk h ..

theorem walkRun_walkOk (h : MemoryOk s) (g : Group) (n : Nat) (w : Walk) : WalkOk (walkRun g n s w) := by
  induction n generalizing s w with
  | zero => exact h
  | succ n ih =>
    have hs := walkStep_walkOk h g w
    unfold walkRun
    split
    · next he =>
      rw [he] at hs
      exact ih hs _
    · exact hs

theorem pubStore_memoryOk (h : MemoryOk s) (g : Group) (sc : Scope) (m : Mask) (w : Walk) (a : Acc) (ref : Nat) :
    MemoryOk (pubStore s g sc m w a ref).1 := by
  unfold pubStore
  extract_lets s₁ own pa x s₂ s₃ v
  have h₁ : MemoryOk s₁ := h.withCoh _
  have hx : MemoryOk x.1 := h₁.releaseTo ..
  have h₂ : MemoryOk s₂ := hx.store ..
  exact show MemoryOk s₃ from h₂.withCoh _

theorem pubStop_resOk (h : MemoryOk s) (v : Served) (g : Group) (L cause addr : Nat) : ResOk (pubStop v s g L cause addr) := by
  unfold pubStop
  exact resOk_ite h h

theorem pubLanes_resOk (h : MemoryOk s) (v : Served) (sc : Scope) (once : Bool) (ref : Nat → Nat) (l : List Acc) (g : Group) (w : Walk) :
    ResOk (pubLanes v sc once ref l s g w) := by
  induction l generalizing s g w with
  | nil => exact h
  | cons a r ih =>
    unfold pubLanes
    refine resOk_ite (ih h ..) ?_
    have hw := walkRun_walkOk h g walkFuel (if w.lane = a.lane then w else Walk.start w.ticket a.lane (ref a.lane))
    generalize walkRun .. = x at hw
    cases x with
    | done t w => exact ih (pubStore_memoryOk hw ..) ..
    | more t w => exact hw
    | locked t w => exact hw
    | page t w va p => exact MemoryOk.setGroup (MemoryOk.queueFault hw ..) _
    | trap t c ad => exact pubStop_resOk hw ..
    | check t => exact MemoryOk.askReset (MemoryOk.setGroup hw g) _

theorem pubBody_resOk (h : MemoryOk s) (v : Served) (sc : Scope) (once : Bool) (ref : Nat → Nat) (l : List Acc) :
    ResOk (pubBody v s sc once ref l) := by
  unfold pubBody
  refine resOk_ite (h.retranslate ..) (resOk_ite (MemoryOk.foldl h (fun _ _ h => h.request ..) _) ?_)
  split
  · exact resOk_ite h (pubLanes_resOk (h.withCoh _) ..)
  · split
    · exact resOk_ite (pubStop_resOk h ..) h
    · exact resOk_ite h (pubLanes_resOk h ..)

theorem execPub_nextOk (h : MemoryOk s) (scope : Scope) (val t1 t2 : Opd) : NextOk (execPub c scope val t1 t2 s) :=
  serveCommit_nextOk h fun _ => memBody_resOk h _ _ _ _ _ _ _ fun _ _ _ h => pubBody_resOk h ..

/-! ## Machine/SysReg.lean -/

theorem execGetsr_nextOk (h : MemoryOk s) (ty : Ty) (d : Opd) (r : SReg) : NextOk (execGetsr c ty d r s) :=
  serve_nextOk h fun _ => resOk_ite h h

theorem MemoryOk.updCtx (h : MemoryOk s) (part ctx : Nat) (f : Context → Context) : MemoryOk (s.updCtx part ctx f) := h.updPart part fun _ h => h

theorem setCommit_resOk (h : MemoryOk s) (v : Served) (r : SReg) (x : Dword) : ResOk (setCommit v s r x) := by
  cases r with
  | scopemd => exact h.updCtx ..
  | arena => exact resOk_ite (h.updTeam _ fun _ ht => ht) h
  | clkreq => exact resOk_ite h (MemoryOk.regrant (h.updTeam _ fun _ ht => ht))
  | _ => exact h

theorem execSetsr_nextOk (h : MemoryOk s) (r : SReg) (a : Opd) : NextOk (execSetsr c r a s) := by
  cases r with
  | fpctl | scopemd | arena | thand | clkreq | sensev | rstrt => exact serveCommit_nextOk h fun _ => setCommit_resOk h ..
  | _ => exact serve_nextOk h fun _ => h

theorem execClkq_nextOk (h : MemoryOk s) (d dom : Opd) : NextOk (execClkq c d dom s) :=
  serve_nextOk h fun _ => resOk_ite h (resOk_ite h h)

/-! ## Machine/Pipeline.lean -/

theorem execTranslationProbe_nextOk (h : MemoryOk s) (k : GroupKey) : NextOk (execTranslationProbe k s) := by
  unfold execTranslationProbe
  split
  · split
    · exact nextOk_ite h ((h.keepAcc ..).parkAll ..)
    · exact h
  · exact h

theorem execExecuteComplete_nextOk (h : MemoryOk s) (k : GroupKey) (seq : Nat) : NextOk (execExecuteComplete k seq s) := by
  unfold execExecuteComplete
  split
  · exact h
  · split
    · exact memoryOk_ite h (h.runCmd ..)
    · exact memoryOk_ite h h

theorem execRetire_nextOk (h : MemoryOk s) (k : GroupKey) : NextOk (execRetire k s) := by
  unfold execRetire
  split
  · exact h
  · split
    · exact h
    · exact nextOk_ite h h

theorem execBranchRecovery_nextOk (h : MemoryOk s) (k : GroupKey) (seq : Nat) : NextOk (execBranchRecovery k seq s) := by
  unfold execBranchRecovery
  split
  · exact h
  · refine nextOk_ite ?_ h
    split
    · exact h
    · exact h.recover ..

theorem execTrapDelivery_nextOk (h : MemoryOk s) (k : GroupKey) : NextOk (execTrapDelivery k s) := by
  unfold execTrapDelivery
  split
  · exact h
  · split
    · exact h
    · refine nextOk_ite h ?_
      split
      · exact h.cutBehind ..
      · exact nextOk_ite h h
      · exact memoryOk_ite ((deliver_memoryOk h ..).regrantIf _) h

theorem execCheckpointVerify_nextOk (h : MemoryOk s) (k : GroupKey) : NextOk (execCheckpointVerify k s) := by
  unfold execCheckpointVerify
  split
  · exact h
  · split
    · exact h
    · exact nextOk_ite h h

theorem MemoryOk.bypass (h : MemoryOk s) (l : Nat) : MemoryOk (s.bypass l) := by
  unfold State.bypass
  exact memoryOk_ite h h

theorem relPiece_memoryOk (e : Effect) (tag : TagOp) (own : Option Scope) {x : State × Group} (h : MemoryOk x.1) (p : Piece) :
    MemoryOk (relPiece e tag own x p).1 := by
  have hr := h.releaseTo x.2
  exact MemoryOk.store (memoryOk_ite (MemoryOk.foldl (hr ..) (fun _ _ h => h.bypass _) _) ((hr ..).withCoh _)) ..

theorem clearTags_mem (r : Ram) (ws : List Nat) (rels : List Release) : (r.clearTags ws rels).mem = r.mem := by
  rw [Ram.clearTags, counted_mem]
  refine mem_foldl (fun r w => ?_) ws r
  exact push_mem { r with tags := r.tags.filter (· ≠ w) } ..

theorem relClears_memoryOk (h : MemoryOk s) (e : Effect) (p : Piece) (rs : List (Nat × Nat)) (g : Group) :
    MemoryOk (relClears e p rs s g).1 := by
  have hr := (h.releaseTo g ((((s.ram.tagged rs).map fun w => w / 64 * 64).eraseDups).filter fun l => decide (l < Config.hostBase))
    (e.releasing none p.lanes))
  exact hr.withRam ((clearTags_mem ..).symm ▸ hr.ram)

theorem MemoryOk.settlePoison (h : MemoryOk s) (k : TeamKey) (ps : List Piece) (bad : List (Target × Nat)) :
    MemoryOk (s.settlePoison k ps bad) := by
  unfold State.settlePoison
  refine MemoryOk.foldl ?_ (fun _ _ h => h.updRank _ _ (by exact fun _ h => h)) _
  exact h

theorem MemoryOk.onQueue (h : MemoryOk s) (g : Group) (id n : Nat) (f : Queue → Queue) : MemoryOk (s.onQueue g id n f).1 := by
  unfold State.onQueue
  split
  · exact h
  · exact h.updRank _ _ fun _ h => h

theorem MemoryOk.applyEffect (h : MemoryOk s) (g : Group) (e : Effect) : MemoryOk (s.applyEffect g e).1 := by
  unfold State.applyEffect
  dsimp only
  cases e.kind with
  | write ps tag own =>
    refine MemoryOk.settlePoison ?_ ..
    exact List.foldlRecOn _ _ (motive := fun x : State × Group => MemoryOk x.1) h fun _ h p _ => relPiece_memoryOk e tag own h p
  | objInit p rs => exact (relPiece_memoryOk (x := (_, _)) e .clear none (relClears_memoryOk h e p rs g) p).settlePoison ..
  | qcommit id n c => exact h.onQueue ..
  | qfree id n c => exact h.onQueue ..
  | slotCommit id n i => exact h.onQueue ..
  | slotFree id n i => exact h.onQueue ..
  | arrive i ts => exact h.updBar ..
  | bfree r b => exact h.updRank _ _ fun _ h => h
  | tile r z id => exact h.updRank _ _ fun _ hr => hr.releaseTile ..
  | qacq => exact h
  | qwait => exact h
  | schnxt => exact h

theorem execEffectRelease_nextOk (h : MemoryOk s) (k : GroupKey) : NextOk (execEffectRelease k s) := by
  unfold execEffectRelease
  split
  · exact h
  · split
    · exact h
    · exact nextOk_ite (memoryOk_ite (h.askAgain ..) h) ((h.applyEffect ..).setGroup _)

theorem MemoryOk.restartGroup (h : MemoryOk s) (k : GroupKey) (ty : SensorType) : MemoryOk (s.restartGroup k ty) := by
  unfold State.restartGroup
  split
  · exact h
  · split
    · exact h
    · exact (h.discard ..).updGroup ..

theorem MemoryOk.strikeCore (h : MemoryOk s) (core : CoreId) (ty : SensorType) : MemoryOk (s.strikeCore core ty) := by
  have ht : ∀ (m : Bool) (ks : List GroupKey),
      MemoryOk (if m then ks.foldl (fun s k => s.updGroup k fun g => g.sensed ty) s else ks.foldl (fun s k => s.restartGroup k ty) s) :=
    fun _ _ => memoryOk_ite (h.foldl (fun _ _ h => h.updGroup ..) _) (h.foldl (fun _ _ h => h.restartGroup ..) _)
  unfold State.strikeCore
  extract_lets ks merges t₁ d t₂ coh t₃ t₄ begun dev t₅
  have h₁ : MemoryOk t₁ := ht merges ks
  have h₃ : MemoryOk t₃ := (h₁.setDie ..).withCoh _
  have h₄ : MemoryOk t₄ := h₃
  have h₅ : MemoryOk t₅ := memoryOk_ite h₄ (h₄.withDev _)
  exact memoryOk_ite (h₅.countDroop _) h₅

theorem execSensorRestart_nextOk (h : MemoryOk s) (cores : List CoreId) (ty : SensorType) : NextOk (execSensorRestart cores ty s) :=
  memoryOk_ite (MemoryOk.foldl (h.setDie ..) (fun _ _ h => h.strikeCore ..) _) h

theorem execGroupRetire_nextOk (h : MemoryOk s) (k : GroupKey) : NextOk (execGroupRetire k s) := by
  unfold execGroupRetire
  split
  · exact h
  · refine nextOk_ite h (nextOk_ite (MemoryOk.foldl ?_ (fun _ _ h => h.judge4 ..) _) (MemoryOk.regrant (MemoryOk.dropTeam ?_ _)))
    · exact MemoryOk.updPart (h.withGroups _) _ fun _ h => h
    · exact MemoryOk.updPart (h.withGroups _) _ fun _ h => h

end Sys2Proof.Claims
end

section
/-! PROOF. The canonical form of every memory, kept: the I/O dies, the front end and the scheduler. -/

namespace Sys2Proof.Claims

open Sys2Proof.Machine Sys2Proof.Laws

variable {s t : State} {c : Ctl}

/-! ## Machine/IoAccess.lean -/

theorem MemoryOk.ioPut (h : MemoryOk s) (a : Nat) (d : List Byte) (k : StoreKind) : MemoryOk (s.ioPut a d k) :=
  (h.withRam (wf_write h.ram a d k)).foldl (fun _ _ h => h.bypass _) _

theorem MemoryOk.ioKey (h : MemoryOk s) (x : IoRun) : MemoryOk (s.ioKey x) := by
  unfold State.ioKey
  exact memoryOk_ite (h.withCoh _) h

theorem MemoryOk.ioPutRuns (h : MemoryOk s) (l : List IoRun) (d : List Byte) (k : StoreKind) : MemoryOk (s.ioPutRuns l d k) := by
  induction l generalizing s d with
  | nil => exact h
  | cons x r ih => exact ih ((h.ioKey x).ioPut ..) _

theorem MemoryOk.ioChecked (h : MemoryOk s) (who : Releaser) (part ctx a : Nat) : MemoryOk (s.ioChecked who part ctx a) := by
  unfold State.ioChecked
  exact memoryOk_ite (h.checkAt _) h

theorem MemoryOk.logAt (h : MemoryOk s) (source part a : Nat) : MemoryOk (s.logAt source part a) := h.logRec ..

theorem MemoryOk.putStatus (h : MemoryOk s) (part ctx va x : Nat) : MemoryOk (s.putStatus part ctx va x) := by
  unfold State.putStatus
  split
  · exact h.ioPut ..
  · exact h.logAt ..

theorem MemoryOk.addCounter (h : MemoryOk s) (part ctx va : Nat) (v : View) : MemoryOk (s.addCounter part ctx va v) := by
  unfold State.addCounter
  split
  · next r _ =>
    have hx : MemoryOk (if 2 ≤ pteMt r.pte then s.pick [true, false] true else (true, s)).2 := by
      split
      · exact h.pick ..
      · exact h
    exact memoryOk_ite (hx.logAt ..) ((hx.ioPut ..).ioChecked ..)
  · exact h.logAt ..

theorem MemoryOk.completed (h : MemoryOk s) (part ctx : Nat) (st : Option (Nat × Nat)) (cnt : Option Nat) (did : View) :
    MemoryOk (s.completed part ctx st cnt did) := by
  have ht : MemoryOk ((st.map fun x => s.putStatus part ctx x.1 x.2).getD s) := by
    cases st with
    | none => exact h
    | some x => exact h.putStatus ..
  unfold State.completed
  cases cnt with
  | none => exact ht
  | some a => exact ht.addCounter ..

theorem MemoryOk.deliverVec (h : MemoryOk s) (part vec : Nat) : MemoryOk (s.deliverVec part vec) :=
  MemoryOk.emit (h.updPart part (by exact fun _ h => h)) _

theorem MemoryOk.tryVec (h : MemoryOk s) (part vec : Nat) : MemoryOk (s.tryVec part vec) := by
  unfold State.tryVec
  exact memoryOk_ite (h.deliverVec ..) h

theorem MemoryOk.raiseVec (h : MemoryOk s) (part vec : Nat) : MemoryOk (s.raiseVec part vec) :=
  MemoryOk.tryVec (h.updPart part (by exact fun _ h => h)) ..

theorem execCoalescingControlWrite_nextOk (h : MemoryOk s) (part vec : Nat) (val : Dword) :
    NextOk (execCoalescingControlWrite part vec val s) := by
  unfold execCoalescingControlWrite
  exact nextOk_ite h (nextOk_ite (h.logAt ..) (MemoryOk.tryVec (h.updPart part (by exact fun _ h => h)) ..))

/-! ## Machine/FrontEnd.lean -/

theorem MemoryOk.finish (h : MemoryOk s) (part ctx : Nat) (b : Launch) (status lost : Nat) (did : View) :
    MemoryOk (s.finish part ctx b status lost did) := by
  unfold State.finish
  exact memoryOk_ite ((h.completed ..).raiseVec ..) (h.completed ..)

theorem MemoryOk.updBooth (h : MemoryOk s) (part n : Nat) (f : Booth → Booth) : MemoryOk (s.updBooth part n f) := h.updPart part fun _ h => h

theorem MemoryOk.freeSlot (h : MemoryOk s) (part : Nat) (slot : Option Nat) : MemoryOk (s.freeSlot part slot) := by
  cases slot with
  | none => exact h
  | some i => exact MemoryOk.emit (h.updPart part (by exact fun _ h => h)) _

theorem MemoryOk.popHead (h : MemoryOk s) (part n : Nat) : MemoryOk (s.popHead part n) := h.updBooth ..

theorem MemoryOk.refuse (h : MemoryOk s) (part n : Nat) (w : Waiting) (status : Nat) : MemoryOk (s.refuse part n w status) :=
  ((h.popHead ..).finish ..).freeSlot ..

theorem evalBooth_memoryOk (part : Nat) {x : State × Bool} (h : MemoryOk x.1) (n : Nat) : MemoryOk (evalBooth part x n).1 := by
  unfold evalBooth
  dsimp only
  split
  · exact h
  · split
    · exact h
    · split
      · split
        · exact h
        · exact h.refuse ..
      · exact h
      · exact h.updBooth ..

theorem evalDeps_memoryOk (h : MemoryOk s) (part n : Nat) : MemoryOk (evalDeps part n s) := by
  induction n generalizing s with
  | zero => exact h
  | succ n ih =>
    have hx : MemoryOk ((List.range 65).foldl (evalBooth part) (s, false)).1 :=
      List.foldlRecOn _ _ (motive := fun x : State × Bool => MemoryOk x.1) h fun _ h n _ => evalBooth_memoryOk part h n
    unfold evalDeps
    exact memoryOk_ite (ih hx) hx

theorem MemoryOk.deps (h : MemoryOk s) (part : Nat) : MemoryOk (s.deps part) := evalDeps_memoryOk h ..

theorem execPriorityAging_nextOk (h : MemoryOk s) (part booth : Nat) : NextOk (execPriorityAging part booth s) := by
  unfold execPriorityAging
  split
  · exact h
  · exact memoryOk_ite (h.updBooth ..) h

theorem execLaunchCopy_nextOk (h : MemoryOk s) (part booth : Nat) : NextOk (execLaunchCopy part booth s) := by
  unfold execLaunchCopy
  dsimp only
  split
  · exact h
  · refine nextOk_ite h (nextOk_ite ((h.popHead ..).logAt ..) ?_)
    split
    · exact (h.popHead ..).logAt ..
    · refine nextOk_ite h (nextOk_ite ((h.popHead ..).logAt ..) ?_)
      split
      · exact memoryOk_ite h ((h.refuse ..).deps _)
      · exact (h.updBooth ..).deps _

theorem MemoryOk.enqueue (h : MemoryOk s) (part n : Nat) (e : BoothEntry) : MemoryOk (s.enqueue part n e) := (h.updBooth ..).deps _

/-- What a front-end instruction releases leaves the memories. -/
theorem frontRelease_memoryOk (h : MemoryOk s) {v : Served} {g : Group} {x : View} (hf : frontRelease v s = some (g, t, x)) : MemoryOk t := by
  obtain ⟨y, -, hy⟩ := Option.map_eq_some_iff.mp hf
  cases hy
  exact h.wideRelease ..

theorem enqueueBody_resOk (h : MemoryOk s) (v : Served) (p : Opd) (n : Nat) (words : List Dword) : ResOk (enqueueBody v s p n words) := by
  unfold enqueueBody
  dsimp only
  split
  · exact h
  · next hf =>
    have ht := frontRelease_memoryOk h hf
    exact resOk_ite ht (ht.enqueue ..)

theorem execWqenq_nextOk (h : MemoryOk s) (p booth first : Opd) : NextOk (execWqenq c p booth first s) :=
  serveCommit_nextOk h fun _ => resOk_ite h (enqueueBody_resOk h ..)

theorem execLaunch_nextOk (h : MemoryOk s) (p booth blk : Opd) : NextOk (execLaunch c p booth blk s) :=
  serveCommit_nextOk h fun _ => resOk_ite h (resOk_ite h (resOk_ite h (enqueueBody_resOk h ..)))

theorem execWqdeq_nextOk (h : MemoryOk s) (p booth first : Opd) : NextOk (execWqdeq c p booth first s) :=
  serveCommit_nextOk h fun _ => by
    refine resOk_ite h ?_
    split
    · exact h
    · exact h.popHead ..

theorem MemoryOk.fire (h : MemoryOk s) (part : Nat) (a : Arming) (slot : Nat) (v : View) : MemoryOk (s.fire part a slot v) := by
  unfold State.fire
  split
  · exact (h.logAt ..).freeSlot ..
  · dsimp only
    split
    · exact ((h.finish ..).freeSlot ..).deps _
    · exact (h.updBooth ..).deps _

theorem MemoryOk.fireHeld (h : MemoryOk s) (part : Nat) (a : Arming) : MemoryOk (s.fireHeld part a) :=
  MemoryOk.foldl (h.updPart part (by exact fun _ h => h)) (fun _ _ h => h.fire ..) _

theorem execNarm_nextOk (h : MemoryOk s) (p tag blk : Opd) : NextOk (execNarm c p tag blk s) :=
  serveCommit_nextOk h fun _ => by
    dsimp only
    refine resOk_ite h (resOk_ite h (resOk_ite h ?_))
    split
    · exact h
    · next hf =>
      have ht := frontRelease_memoryOk h hf
      exact resOk_ite h (resOk_ite ht (ht.fireHeld ..))

theorem nextEntry_rankOk {r r' : Rank} (h : RankOk r) {e : Nat} (he : r.nextEntry = some (e, r')) : RankOk r' := by
  unfold Rank.nextEntry at he
  split at he
  · cases he
    exact h
  · split at he
    · cases he
      exact h
    · cases he

theorem execSchnxt_nextOk (h : MemoryOk s) (p d : Opd) : NextOk (execSchnxt c p d s) :=
  serve_nextOk h fun v => by
    dsimp only
    split
    · exact h
    · next he => exact h.updRank _ _ fun _ _ => nextEntry_rankOk (h.rankOf ..) he

/-! ## Machine/Schedule.lean -/

theorem insertInto_perm {α : Type} (le : α → α → Bool) (x : α) (l : List α) : (insertInto le x l).Perm (x :: l) := by
  induction l with
  | nil => exact List.Perm.refl _
  | cons y t ih =>
    unfold insertInto
    split
    · exact List.Perm.refl _
    · exact (ih.cons y).trans (List.Perm.swap x y t)

theorem sortBy_perm {α : Type} (le : α → α → Bool) (l : List α) : (sortBy le l).Perm l := by
  induction l with
  | nil => exact List.Perm.refl _
  | cons x t ih => exact (insertInto_perm le x _).trans (ih.cons x)

theorem MemoryOk.updGrid (h : MemoryOk s) (part num : Nat) (f : Grid → Grid) : MemoryOk (s.updGrid part num f) := h.updPart part fun _ h => h

theorem MemoryOk.arenaOf (h : MemoryOk s) (part ctx t : Nat) : MemoryOk (s.arenaOf part ctx t).1 := by
  unfold State.arenaOf
  split
  · exact h
  · split
    · exact h
    · split
      · exact h.logAt ..
      · exact h

theorem MemoryOk.enterCode (h : MemoryOk s) (k : TeamKey) : MemoryOk (s.enterCode k) := by
  unfold State.enterCode
  split
  · exact h
  · dsimp only
    split
    · exact h.loseTeam ..
    · exact h.loseTeam ..
    · exact h
    · exact h

theorem MemoryOk.addTeam (h : MemoryOk s) {t : Team} (ht : TeamOk t) (l : List Group) :
    MemoryOk { s with teams := s.teams ++ [t], groups := l } :=
  ⟨h.ram, List.forall_mem_append.mpr ⟨h.teams, List.forall_mem_singleton.mpr ht⟩, h.parts⟩

theorem MemoryOk.newTeam (h : MemoryOk s) (part : Nat) (g : Grid) (cs : List CoreId) : MemoryOk (s.newTeam part g cs) :=
  (((h.arenaOf ..).updGrid ..).addTeam (teamOk_fresh _ _ _ _ _ _ _ _) _).enterCode _

theorem MemoryOk.newTeams (h : MemoryOk s) (part num n : Nat) (cs : List CoreId) : OptOk (s.newTeams part num n cs) := by
  induction n generalizing s cs with
  | zero => exact optOk_some h
  | succ n ih =>
    unfold State.newTeams
    split
    · exact optOk_some h
    · next g _ =>
      split
      · exact optOk_some h
      · cases s.pickCores part g.blk [] cs with
        | none => exact optOk_none
        | some x => exact ih (h.newTeam ..) _

theorem MemoryOk.restoreTeam (h : MemoryOk s) {t : Team} (ht : TeamOk t) (cs : List CoreId) : OptOk (s.restoreTeam t cs) := by
  unfold State.restoreTeam
  dsimp only
  split
  · exact optOk_none
  · refine optOk_some ?_
    exact MemoryOk.setTeam (t := { t with status := _, place := _, cores := _, slot := _, saved := _ }) h ht

theorem MemoryOk.restoreTeams (h : MemoryOk s) (part : Nat) {l : List Team} (hl : ∀ t ∈ l, TeamOk t) (cs : List CoreId) :
    OptOk (s.restoreTeams part l cs) := by
  induction l generalizing s cs with
  | nil => exact optOk_some h
  | cons t r ih =>
    unfold State.restoreTeams
    cases s.pickCores part t.blk (t.ranks.map fun x => x.cb.length) cs with
    | none => exact optOk_none
    | some x =>
      exact (h.restoreTeam (hl t List.mem_cons_self) _).bind fun u hu => ih hu (fun t ht => hl t (List.mem_cons_of_mem _ ht)) _

theorem MemoryOk.savedOf (h : MemoryOk s) (part num : Nat) : ∀ t ∈ s.savedOf part num, TeamOk t := fun t ht =>
  h.teams t (List.mem_of_mem_filter ((sortBy_perm _ _).mem_iff.mp ht))


theorem MemoryOk.placeGrid (h : MemoryOk s) (part : Nat) (g : Grid) (cs : List CoreId) : OptOk (s.placeGrid part g cs) := by
  have hs := h.savedOf part g.num
  unfold State.placeGrid
  dsimp only
  refine optOk_ite optOk_none (optOk_ite (h.restoreTeams _ ?_ _) (optOk_ite optOk_none (h.newTeams ..)))
  split
  · exact hs
  · exact fun t ht => hs t (List.mem_of_mem_take ht)

theorem MemoryOk.startGrid (h : MemoryOk s) (part ctx : Nat) (b : Launch) (level : Nat) (gang ring : Option Nat) (hb : View) :
    MemoryOk (s.startGrid part ctx b level gang ring hb).1 := h.updPart part fun _ h => h

theorem MemoryOk.placeLaunch (h : MemoryOk s) (part booth : Nat) (w : Waiting) (cs : List CoreId) : OptOk (s.placeLaunch part booth w cs) := by
  unfold State.placeLaunch
  refine optOk_ite optOk_none (MemoryOk.newTeams (MemoryOk.updPart ((h.popHead ..).startGrid ..) _ (by exact fun _ h => h)) ..)

theorem MemoryOk.placeNext (h : MemoryOk s) (part grid : Nat) (cs : List CoreId) : OptOk (s.placeNext part grid cs) := by
  have hl := fun x : Nat × Waiting => optOk_ite (p := grid = (s.part part).gridNo) (h.placeLaunch part x.1 x.2 cs) optOk_none
  unfold State.placeNext
  dsimp only
  split
  · exact optOk_none
  · exact hl _
  · refine optOk_ite (h.placeGrid ..) (optOk_ite optOk_none ?_)
    split
    · exact optOk_ite (hl _) optOk_none
    · exact optOk_none

theorem execTeamPlace_nextOk (h : MemoryOk s) (part grid : Nat) (cores : List CoreId) : NextOk (execTeamPlace part grid cores s) := by
  unfold execTeamPlace
  refine nextOk_ite h ?_
  split
  · exact h
  · next ht => exact ((h.placeNext part grid cores).of_eq ht).regrant

theorem MemoryOk.endGang (h : MemoryOk s) (a : Gang) : MemoryOk (s.endGang a) := by
  unfold State.endGang
  exact memoryOk_ite h (((h.withDev _).finish ..).deps _)

theorem MemoryOk.copyDone (h : MemoryOk s) (part id status lost : Nat) (did : View) : MemoryOk (s.copyDone part id status lost did) := by
  unfold State.copyDone
  split
  · exact h
  · exact memoryOk_ite ((h.withDev _).endGang _) (h.withDev _)

theorem MemoryOk.endGrid (h : MemoryOk s) (part : Nat) (g : Grid) : MemoryOk (s.endGrid part g) :=
  MemoryOk.freeSlot (h.updPart part (by exact fun _ h => h)) ..

theorem execCompletionAction_nextOk (h : MemoryOk s) (part grid : Nat) : NextOk (execCompletionAction part grid s) := by
  unfold execCompletionAction
  split
  · cases s.dev.gangs.find? _ with
    | none => exact h
    | some a => exact h.endGang a
  · refine nextOk_ite h ?_
    split
    · exact nextOk_ite h (((h.endGrid ..).finish ..).deps _)
    · exact nextOk_ite h ((h.endGrid ..).copyDone ..)

theorem MemoryOk.startCopies (h : MemoryOk s) (w : Waiting) (id : Nat) (held : List (Nat × List (List CoreId))) (l : List Nat) :
    OptOk (s.startCopies w id held l) := by
  induction l generalizing s with
  | nil => exact optOk_some h
  | cons n r ih => exact OptOk.bind ((h.startGrid ..).newTeams ..) fun t ht => ih ht

theorem MemoryOk.gangFail (h : MemoryOk s) (part booth : Nat) (w : Waiting) : MemoryOk (s.gangFail part booth w) := by
  unfold State.gangFail
  exact memoryOk_ite h (((h.refuse ..).logAt ..).deps _)

theorem MemoryOk.gangTry (h : MemoryOk s) (part booth : Nat) (w : Waiting) (r : GangResv) : MemoryOk (s.gangTry part booth w r) := by
  unfold State.gangTry
  dsimp only
  refine memoryOk_ite (h.withDev _) ?_
  split
  · next hu => exact ((MemoryOk.startCopies (MemoryOk.updPart ((h.popHead ..).withDev _) _ (by exact fun _ h => h)) ..).of_eq hu).regrant
  · exact h.withDev _

theorem MemoryOk.gangStep (h : MemoryOk s) (part booth : Nat) (w : Waiting) : MemoryOk (s.gangStep part booth w) := by
  unfold State.gangStep
  refine memoryOk_ite h (memoryOk_ite (h.gangFail ..) ?_)
  split
  · exact memoryOk_ite h (h.gangTry ..)
  · exact memoryOk_ite (h.gangTry ..) h

theorem execGangReserve_nextOk (h : MemoryOk s) (part booth : Nat) : NextOk (execGangReserve part booth s) := by
  unfold execGangReserve
  generalize (if s.gangOpen part booth = true then _ else _ : Option Waiting) = o
  cases o with
  | none => exact h
  | some w => exact memoryOk_ite (h.gangStep ..) h

theorem execGangRetry_nextOk (h : MemoryOk s) (part booth : Nat) : NextOk (execGangRetry part booth s) := by
  unfold execGangRetry
  split
  · exact h
  · exact memoryOk_ite (h.gangStep ..) h

theorem execGangReserveTimeout_nextOk (h : MemoryOk s) : NextOk (execGangReserveTimeout s) := by
  unfold execGangReserveTimeout
  split
  · exact h
  · refine nextOk_ite h ?_
    dsimp only
    split
    · exact h.withDev _
    · exact nextOk_ite (memoryOk_ite h ((h.withDev _).gangFail ..)) ((h.withDev _).updBooth ..)

theorem execLeaseLapse_nextOk (h : MemoryOk s) (healthy : List Nat) : NextOk (execLeaseLapse healthy s) := by
  unfold execLeaseLapse
  refine nextOk_ite h ?_
  split
  · exact h
  · refine MemoryOk.logAt ?_ ..
    exact h.mapParts (f := fun p => { p with faults := p.faults.map fun f => { f with queued := true } }) fun _ hp => hp

end Sys2Proof.Claims
end

section
/-! PROOF. The canonical form of every memory, kept: the Wharf, host access, saves, resets and alarms. -/

namespace Sys2Proof.Claims

open Sys2Proof.Machine Sys2Proof.Laws

variable {s t : State} {c : Ctl}

/-! ## Machine/Wharf.lean -/

theorem MemoryOk.callPeer (h : MemoryOk s) (part : Nat) (o : CollOp) (dev dpart rank : Nat) : MemoryOk (s.callPeer part o dev dpart rank) :=
  (h.sendFrame ..).updPart part fun _ h => h

theorem collStart_resOk (h : MemoryOk s) (v : Served) (dreg : Nat) (d : CollDesc) (dst : List Chunk) (data : List Byte) :
    ResOk (collStart v s dreg d dst data) := by
  unfold collStart
  dsimp only
  split
  · exact h
  · exact resOk_ite h (MemoryOk.setGroup (MemoryOk.foldl (h.updPart _ (by exact fun _ h => h)) (fun _ _ h => h.callPeer ..) _) _)

theorem execColl_nextOk (h : MemoryOk s) (d desc : Opd) : NextOk (execColl c d desc s) :=
  serveCommit_nextOk h fun v => by
    dsimp only
    refine resOk_ite h ?_
    split
    · exact probeBody_resOk h _ _ _ _ _ _ fun _ _ _ h => h
    · exact probeBody_resOk h _ _ _ _ _ _ fun _ _ _ h =>
        resOk_ite h (poisoned_resOk (h.loadAcc ..) _ _ _ fun _ h => collStart_resOk h ..)

theorem MemoryOk.putRuns (h : MemoryOk s) (l : List (Nat × Nat)) (d : List Byte) : MemoryOk (s.putRuns l d) := by
  induction l generalizing s d with
  | nil => exact h
  | cons x r ih => exact ih (h.ioPut ..) _

theorem MemoryOk.undefRuns (h : MemoryOk s) (l : List (Nat × Nat)) : MemoryOk (s.undefRuns l) := by
  unfold State.undefRuns
  refine MemoryOk.putRuns ?_ ..
  exact h

theorem MemoryOk.endColl (h : MemoryOk s) (part : Nat) (o : CollOp) (code rank : Nat) : MemoryOk (s.endColl part o code rank) :=
  MemoryOk.updGroup (h.updPart part (by exact fun _ h => h)) ..

theorem execCollComplete_nextOk (h : MemoryOk s) (part comm seq : Nat) (blocks : List CollPart) :
    NextOk (execCollComplete part comm seq blocks s) := by
  unfold execCollComplete
  split
  · refine nextOk_ite h ?_
    split
    · exact (h.undefRuns _).endColl ..
    · refine nextOk_ite h ?_
      split
      · exact h.endColl ..
      · exact (h.putRuns ..).endColl ..
  · exact h

theorem execCollTimeout_nextOk (h : MemoryOk s) (part comm seq lowest : Nat) : NextOk (execCollTimeout part comm seq lowest s) := by
  unfold execCollTimeout
  split
  · exact nextOk_ite h ((h.undefRuns _).endColl ..)
  · exact h

theorem MemoryOk.land (h : MemoryOk s) (part slot : Nat) (hd : WharfHeader) (payload : List Byte) (before : View) :
    MemoryOk (s.land part slot hd payload before) := by
  unfold State.land
  extract_lets p a t v u
  have ht : MemoryOk t := (h.ioPut ..).ioPut ..
  have hu : MemoryOk u := ht.updPart part (by exact fun _ h => h)
  split
  · exact MemoryOk.fire (hu.updPart part (by exact fun _ h => h)) ..
  · split
    · exact MemoryOk.freeSlot (MemoryOk.logAt (hu.updPart part (by exact fun _ h => h)) ..) ..
    · exact hu.updPart part (by exact fun _ h => h)

theorem MemoryOk.arrive (h : MemoryOk s) (hd : WharfHeader) (payload : List Byte) (before : View) : OptOk (s.arrive hd payload before) := by
  unfold State.arrive
  dsimp only
  split
  · exact optOk_none
  · exact optOk_ite optOk_none (optOk_some (MemoryOk.land (h.updPart _ (by exact fun _ h => h)) ..))

theorem MemoryOk.arriveColl (h : MemoryOk s) (hd : WharfHeader) (payload : List Byte) : OptOk (s.arriveColl hd payload) := by
  unfold State.arriveColl
  dsimp only
  split
  · exact optOk_none
  · exact optOk_ite optOk_none (optOk_some (MemoryOk.freeSlot (MemoryOk.updPart ((h.ioPut ..).ioPut ..) _ (by exact fun _ h => h)) ..))

theorem execWharfMessageReceive_nextOk (h : MemoryOk s) (hd : WharfHeader) (payload : List Byte) :
    NextOk (execWharfMessageReceive hd payload s) := by
  unfold execWharfMessageReceive
  exact nextOk_ite h (nextOk_ite (h.logAt ..) (nextOk_ite h (nextOk_ite ((h.arriveColl ..).getD h) ((h.arrive ..).getD h))))

theorem execWharfAbortReceive_nextOk (h : MemoryOk s) (hd : WharfHeader) (comm seq : Nat) : NextOk (execWharfAbortReceive hd comm seq s) := by
  unfold execWharfAbortReceive
  refine nextOk_ite h ?_
  split
  · exact h
  · exact memoryOk_ite (h.updPart _ fun _ h => h) h

theorem MemoryOk.updSends (h : MemoryOk s) (part : Nat) (f : List Send → List Send) : MemoryOk (s.updSends part f) := h.updPart part fun _ h => h

theorem sendStart_resOk (h : MemoryOk s) (v : Served) (dreg dst tag addr len : Nat) (payload : List Byte) :
    ResOk (sendStart v s dreg dst tag addr len payload) := by
  unfold sendStart
  exact resOk_ite h (MemoryOk.setGroup (h.updPart _ (by exact fun _ h => h)) _)

theorem execNsend_nextOk (h : MemoryOk s) (d first : Opd) : NextOk (execNsend c d first s) :=
  serveCommit_nextOk h fun v => by
    dsimp only
    refine resOk_ite h (resOk_ite h ?_)
    split
    · exact probeBody_resOk h _ _ _ _ _ _ fun _ _ _ h => h
    · exact probeBody_resOk h _ _ _ _ _ _ fun _ _ _ h =>
        resOk_ite h (poisoned_resOk (h.loadAcc ..) _ _ _ fun _ h => sendStart_resOk h ..)

theorem MemoryOk.endSend (h : MemoryOk s) (part : Nat) (m : Send) (code : Nat) : MemoryOk (s.endSend part m code) :=
  (h.updSends ..).updGroup ..

theorem execWharfCredit_nextOk (h : MemoryOk s) (part dst : Nat) : NextOk (execWharfCredit part dst s) := by
  unfold execWharfCredit
  split
  · exact h
  · refine nextOk_ite ?_ ((h.updSends ..).emit _)
    split
    · next ht => exact show MemoryOk _ from ((h.arrive ..).of_eq ht).endSend ..
    · exact h

theorem execWharfAck_nextOk (h : MemoryOk s) (part dst seq : Nat) : NextOk (execWharfAck part dst seq s) := by
  unfold execWharfAck
  split
  · exact h.updPart part fun _ h => h
  · exact h.endSend ..

theorem execMessageAckTimeout_nextOk (h : MemoryOk s) (part dst seq : Nat) : NextOk (execMessageAckTimeout part dst seq s) := by
  unfold execMessageAckTimeout
  split
  · exact memoryOk_ite (((h.endSend ..).logAt ..).logAt ..) ((h.endSend ..).logAt ..)
  · split
    · exact memoryOk_ite h (h.logAt ..)
    · exact memoryOk_ite h (MemoryOk.logAt (h.updPart part (by exact fun _ h => h)) ..)

/-! ## Machine/HostIo.lean -/

theorem MemoryOk.noteSeen (h : MemoryOk s) (k : Nat × Nat) (v : View) : MemoryOk (s.noteSeen k v) := h

theorem MemoryOk.enqWrite (h : MemoryOk s) (part n : Nat) (view : View) (aligned : Bool) (data : List Byte) :
    MemoryOk (s.enqWrite part n view aligned data) := by
  unfold State.enqWrite
  exact memoryOk_ite h (memoryOk_ite (h.logAt ..) (memoryOk_ite (h.updBooth ..) (memoryOk_ite (h.updBooth ..) (h.enqueue ..))))

theorem execBoothEnq_nextOk (h : MemoryOk s) (part booth req : Nat) (aligned : Bool) (data : List Byte) :
    NextOk (execBoothEnq part booth req aligned data s) := memoryOk_ite h (h.enqWrite ..)

theorem MemoryOk.updQueue (h : MemoryOk s) (part n : Nat) (f : DmaQueue → DmaQueue) : MemoryOk (s.updQueue part n f) := h.updPart part fun _ h => h

theorem MemoryOk.descWrite (h : MemoryOk s) (part n : Nat) (view : View) (aligned : Bool) (data : List Byte) :
    MemoryOk (s.descWrite part n view aligned data) := by
  unfold State.descWrite
  exact memoryOk_ite h (memoryOk_ite (h.logAt ..) (memoryOk_ite (h.updQueue ..) (memoryOk_ite (h.updQueue ..) (h.updQueue ..))))

theorem execDmaDescriptorSubmit_nextOk (h : MemoryOk s) (part queue req : Nat) (aligned : Bool) (data : List Byte) :
    NextOk (execDmaDescriptorSubmit part queue req aligned data s) := memoryOk_ite h (h.descWrite ..)

theorem vfWrite_nextOk (h : MemoryOk s) (part req offset : Nat) (data : List Byte) : NextOk (s.vfWrite part req offset data) := by
  unfold State.vfWrite
  exact nextOk_ite (h.logAt ..) (nextOk_ite (nextOk_ite (h.enqWrite ..) (h.updBooth ..))
    (nextOk_ite (execCoalescingControlWrite_nextOk h ..) (nextOk_ite (MemoryOk.tryVec (h.updPart part fun _ hp => hp.withVectors _) ..)
      (nextOk_ite (h.updPart part fun _ hp => wf_putN hp ..) (nextOk_ite (nextOk_ite (h.descWrite ..) (h.updQueue ..)) h)))))

theorem execRegisterWrite_nextOk (h : MemoryOk s) (to_ : VfAccess) (offset : Nat) (data : List Byte) :
    NextOk (execRegisterWrite to_ offset data s) := by
  unfold execRegisterWrite
  split
  · exact h
  · exact vfWrite_nextOk h ..

theorem hostAccess_nextOk (h : MemoryOk s) (w : PeerReq) (n : Nat) : NextOk (hostAccess w n s) := by
  unfold hostAccess
  refine nextOk_ite (MemoryOk.foldl h (fun _ _ h => h.request ..) _) (nextOk_ite ?_ (nextOk_ite (h.emit _) (h.emit _)))
  extract_lets k t
  have ht : MemoryOk t := ⟨wf_write h.ram w.addr w.data k, h.teams, h.parts⟩
  exact ht.noteSeen ..

theorem execPeerAccess_nextOk (h : MemoryOk s) (w : PeerReq) : NextOk (execPeerAccess w s) := by
  have hno : ∀ t, MemoryOk t → MemoryOk (if w.moves then t else t.emit (.peerReply w.req false [])) := fun t ht => memoryOk_ite ht (ht.emit _)
  unfold execPeerAccess
  refine nextOk_ite (h.emit _) (nextOk_ite h (nextOk_ite (hno _ (h.logAt ..)) (nextOk_ite (memoryOk_ite (h.logAt ..) (hno _ h))
    (nextOk_ite (hostAccess_nextOk h ..) (nextOk_ite h (nextOk_ite ((h.ioPut ..).noteSeen ..) (nextOk_ite (hno _ h) (h.emit _))))))))

theorem MemoryOk.streamPut (h : MemoryOk s) (part : Nat) (x : Posted) : MemoryOk (s.streamPut part x) := by
  unfold State.streamPut
  exact ((memoryOk_ite ((h.ioPut ..).ioChecked ..) (h.ioPut ..)).noteSeen ..).noteSeen ..

theorem execStreamWrite_nextOk (h : MemoryOk s) (w : PeerReq) : NextOk (execStreamWrite w s) := by
  unfold execStreamWrite
  split
  · exact h
  · exact nextOk_ite h (nextOk_ite (h.logAt ..) (nextOk_ite (h.logAt ..) (h.updPart _ fun _ h => h)))

theorem MemoryOk.stageChunk (h : MemoryOk s) (part : Nat) (x : Xfer) : MemoryOk (s.stageChunk part x).1 := by
  unfold State.stageChunk
  refine fst_memoryOk_ite h (fst_memoryOk_ite h (fst_memoryOk_ite h ?_))
  extract_lets u n bad
  have hu : MemoryOk u := memoryOk_ite h h
  clear_value bad
  split
  · cases bad with
    | none => exact hu
    | some a => exact hu.logAt ..
  · exact hu

theorem MemoryOk.setXfer (h : MemoryOk s) (part n : Nat) (x : Option Xfer) : MemoryOk (s.setXfer part n x) := h.updQueue ..

theorem execDmaTransferStart_nextOk (h : MemoryOk s) (part queue : Nat) : NextOk (execDmaTransferStart part queue s) := by
  unfold execDmaTransferStart
  dsimp only
  split
  · exact nextOk_ite ((h.updQueue ..).setXfer ..) (((h.updQueue ..).stageChunk ..).setXfer ..)
  · exact h

theorem MemoryOk.putChunk (h : MemoryOk s) (x : Xfer) (dst : List IoRun) : MemoryOk (s.putChunk x dst).1 := by
  have ht := h.ioPutRuns dst x.chunk engineStore
  exact memoryOk_ite (ht.withRam ((mem_foldl (fun r (y : IoRun) => taint_mem r y.addr y.n) dst _).symm ▸ ht.ram)) ht

theorem MemoryOk.streamRelease (h : MemoryOk s) (part : Nat) : MemoryOk (s.streamRelease part) := by
  unfold State.streamRelease
  split
  · exact h
  · exact memoryOk_ite h (MemoryOk.streamPut (h.updPart part (by exact fun _ h => h)) ..)

theorem execDmaChunkRelease_nextOk (h : MemoryOk s) (part queue : Nat) : NextOk (execDmaChunkRelease part queue s) := by
  unfold execDmaChunkRelease
  refine nextOk_ite (h.streamRelease _) ?_
  split
  · exact h
  · refine nextOk_ite h (nextOk_ite ((h.stageChunk ..).setXfer ..) ?_)
    split
    · exact (h.stageChunk ..).setXfer ..
    · exact nextOk_ite h (nextOk_ite ((h.putChunk ..).setXfer ..) (((h.putChunk ..).stageChunk ..).setXfer ..))

theorem execDmaComplete_nextOk (h : MemoryOk s) (part queue : Nat) : NextOk (execDmaComplete part queue s) := by
  unfold execDmaComplete
  split
  · exact h
  · have ht := fun d w c v => (h.setXfer part queue none).completed part d w c v
    exact nextOk_ite h (memoryOk_ite ((ht ..).raiseVec ..) (ht ..))

theorem MemoryOk.restage (h : MemoryOk s) (part n : Nat) : MemoryOk (s.restage part n) := by
  unfold State.restage
  split
  · exact h
  · exact memoryOk_ite h ((h.stageChunk ..).setXfer ..)

theorem execIodSensorEvent_nextOk (h : MemoryOk s) (iod : Nat) : NextOk (execIodSensorEvent iod s) :=
  MemoryOk.foldl (h.mapParts (f := fun p => p.restreamed iod s.now) fun _ hp => hp)
    (fun _ _ h => memoryOk_ite (h.foldl (fun _ _ h => h.restage ..) _) h) _

/-! ## Machine/Save.lean -/

theorem MemoryOk.putParts (h : MemoryOk s) (part ctx : Nat) (l : List (Nat × List Byte)) : OptOk (s.putParts part ctx l) := by
  induction l generalizing s with
  | nil => exact optOk_some h
  | cons x r ih =>
    unfold State.putParts
    cases ioRuns s part ctx .write x.1 x.2.length with
    | none => exact optOk_none
    | some l => exact ih (h.ioPutRuns ..)

theorem MemoryOk.killTeam (h : MemoryOk s) (k : TeamKey) : MemoryOk (s.killTeam k) := (h.updGrid ..).dropTeam k

theorem MemoryOk.killGrid (h : MemoryOk s) (part num : Nat) : MemoryOk (s.killGrid part num) := by
  unfold State.killGrid
  exact memoryOk_ite h (MemoryOk.updGrid (MemoryOk.foldl h (fun _ _ h => h.killTeam _) _) ..)

theorem MemoryOk.beginSave (h : MemoryOk s) (ts : List Team) : MemoryOk (s.beginSave ts) :=
  (h.mapTeams fun t ht => by split <;> exact ht).withGroups _

theorem MemoryOk.saveTeam (h : MemoryOk s) {t : Team} (ht : TeamOk t) : MemoryOk (s.saveTeam t) := by
  unfold State.saveTeam
  dsimp only
  split
  · exact h.loseTeam ..
  · split
    · exact h.loseTeam ..
    · next hu => exact MemoryOk.setTeam (t := { t with status := _, slot := _, saved := _, cores := _ }) (((h.putParts ..).of_eq hu).showLocked _) ht

theorem execPreemptSave_nextOk (h : MemoryOk s) (t : TeamKey) : NextOk (execPreemptSave t s) := by
  unfold execPreemptSave
  split
  · exact h
  · next ht => exact nextOk_ite h (MemoryOk.regrant (h.saveTeam (h.team? ht)))

/-! ## Machine/Lifecycle.lean -/

theorem wf_foldl_putN {α : Type} {m : Memory} (h : m.wf = true) (a : α → Nat) (d : α → List Byte) (l : List α) :
    (l.foldl (fun m x => m.putN (a x) (d x)) m).wf = true :=
  List.foldlRecOn l _ (motive := fun m : Memory => m.wf = true) h fun _ h x _ => wf_putN h (a x) (d x)

theorem MemoryOk.scramble (h : MemoryOk s) (part : Option Nat) (keep : Nat → Bool) : MemoryOk (s.scramble part keep) :=
  h.withRam (r := { s.ram with mem := _, hist := _ }) (wf_foldl_putN h.ram (fun w => w) _ _)

theorem MemoryOk.drawKeys (h : MemoryOk s) (ids : List Nat) : MemoryOk (s.drawKeys ids).1 := h

theorem MemoryOk.rekey (h : MemoryOk s) (part : Nat) : MemoryOk (s.rekey part) :=
  MemoryOk.scramble (MemoryOk.updPart (h.drawKeys _) part (by exact fun _ h => h)) ..

theorem MemoryOk.dropLines (h : MemoryOk s) (part : Nat) : MemoryOk (s.dropLines part) :=
  MemoryOk.withCoh (h.withRam ((taintLines_mem ..).symm ▸ h.ram)) _

theorem MemoryOk.dropGangs (h : MemoryOk s) (part : Nat) (gs : List Grid) : MemoryOk (s.dropGangs part gs) :=
  (h.withDev _).foldl (fun s g h => by
    cases g.gang with
    | none => exact h
    | some id => exact h.copyDone ..) _

theorem execFatalReset_nextOk (h : MemoryOk s) (part : Nat) : NextOk (execFatalReset part s) := by
  unfold execFatalReset
  refine nextOk_ite h ?_
  have ht := fun ks gs => MemoryOk.updPart (f := Part.emptied)
    (((MemoryOk.foldl (f := State.dropTeam) h (fun _ _ h => h.dropTeam _) ks).dropGangs part gs).dropLines part) part fun _ h => h
  exact MemoryOk.regrant (ht _ _)

theorem MemoryOk.answer (h : MemoryOk s) (src : MboxSource) (seq : Dword) (status : Nat) (body : List Byte) :
    MemoryOk (s.answer src seq status body) := h

theorem execPartitionReady_nextOk (h : MemoryOk s) (part : Nat) : NextOk (execPartitionReady part s) := by
  unfold execPartitionReady
  exact nextOk_ite h (MemoryOk.foldl (h.updPart part (by exact fun _ h => h)) (fun _ _ h => h.answer ..) _)

theorem execVfReset_nextOk (h : MemoryOk s) (port vf : Nat) : NextOk (execVfReset port vf s) := by
  unfold execVfReset
  split
  · exact h.askReset _
  · exact h

theorem MemoryOk.alarm (h : MemoryOk s) (cls iod part trigger : Nat) : MemoryOk (s.alarm cls iod part trigger) := h

theorem MemoryOk.alarmB (h : MemoryOk s) (iod part trigger : Nat) : MemoryOk (s.alarmB iod part trigger) :=
  ((h.alarm ..).askReset _).rekey _

theorem MemoryOk.alarmC (h : MemoryOk s) (iod trigger : Nat) : MemoryOk (s.alarmC iod trigger) := by
  unfold State.alarmC
  extract_lets t
  have ht : MemoryOk t := (h.alarm ..).foldl (fun _ _ h => memoryOk_ite h (h.askReset _)) _
  have hs := ht.scramble none fun _ => false
  clear_value t
  exact ⟨hs.ram, hs.teams, (ht.mapParts (f := fun p => { p with keys := p.keys.map fun k => (k.1, 0) }) fun _ hp => hp).parts⟩

theorem execIdeIntegrityFailure_nextOk (h : MemoryOk s) (port stream : Nat) : NextOk (execIdeIntegrityFailure port stream s) := by
  unfold execIdeIntegrityFailure
  refine nextOk_ite h ?_
  generalize (if stream = 0 then _ else _ : Option Nat) = o
  cases o with
  | none => exact h
  | some n => exact h.alarmB ..

theorem execIdeKeyProgram_nextOk (h : MemoryOk s) (port stream : Nat) (key : List Byte) : NextOk (execIdeKeyProgram port stream key s) :=
  memoryOk_ite h (h.setIod ..)

theorem execSpdmRequest_nextOk (h : MemoryOk s) (port fn : Nat) (nonce : List Byte) : NextOk (execSpdmRequest port fn nonce s) := by
  unfold execSpdmRequest
  exact nextOk_ite (h.emit _) (nextOk_ite ((h.alarm ..).emit _) (h.emit _))

theorem execLinkTrain_nextOk (h : MemoryOk s) (port : Nat) (proto : LinkProto) (width gts : Nat) :
    NextOk (execLinkTrain port proto width gts s) := memoryOk_ite (h.setIod ..) h

theorem MemoryOk.bootChain (h : MemoryOk s) (l : List (Nat × List Byte)) : MemoryOk (s.bootChain l) := by
  induction l generalizing s with
  | nil => exact h
  | cons i r ih =>
    unfold State.bootChain
    exact memoryOk_ite (h.alarm ..) (ih (h.withDev _))

theorem cellsWf_filter {l : List Host.Cell} {lo : Nat} (h : cellsWf lo l = true) (p : Host.Cell → Bool) : cellsWf lo (l.filter p) = true := by
  induction l generalizing lo with
  | nil => rfl
  | cons x r ih =>
    obtain ⟨a, b⟩ := x
    simp only [cellsWf, Bool.and_eq_true, decide_eq_true_eq] at h
    obtain ⟨⟨ha, hb⟩, hr⟩ := h
    rw [List.filter_cons]
    split
    · simp only [cellsWf, Bool.and_eq_true, decide_eq_true_eq]
      exact ⟨⟨ha, hb⟩, ih hr⟩
    · exact cellsWf_weaken (ih hr) (by omega)

theorem execPackageReset_nextOk (h : MemoryOk s) : NextOk (execPackageReset s) := by
  unfold execPackageReset
  refine MemoryOk.bootChain ?_ _
  exact ⟨cellsWf_filter h.ram _, memoryOk_reset.teams, memoryOk_reset.parts⟩

end Sys2Proof.Claims
end

section
/-! PROOF. The canonical form of every memory, kept: the mailbox requests. -/

namespace Sys2Proof.Claims

open Sys2Proof.Machine Sys2Proof.Laws

variable {s t : State} {i : Instr} {m : Mbox} {e : Endpoint} {x : Shape}

/-! ## Machine/Mailbox.lean: serving a request -/

/-- The state in what becomes of a request has its memories in canonical form. -/
def AnsOk : Ans → Prop
  | .ok s _ | .status s _ | .later s | .wait s => MemoryOk s

theorem ansOk_ite {p : Prop} [Decidable p] {a b : Ans} (ha : AnsOk a) (hb : AnsOk b) : AnsOk (if p then a else b) := by split <;> assumption

theorem MemoryOk.hold (h : MemoryOk s) (m : Mbox) (i : Instr) : MemoryOk (s.hold m i) := by
  unfold State.hold
  exact memoryOk_ite h (h.withDev _)

theorem MemoryOk.respond (h : MemoryOk s) (m : Mbox) (status : Nat) (body : List Byte) : MemoryOk (s.respond m status body) := by
  have hv : ∀ p d, MemoryOk (s.updPart p fun q => { q with mail := q.mail.putN 0 d }) := fun p d => h.updPart p fun _ hq => wf_putN hq 0 d
  unfold State.respond
  refine MemoryOk.answer ?_ ..
  split
  · exact h
  · exact hv ..

theorem reply_memoryOk (i : Instr) (m : Mbox) {a : Ans} (h : AnsOk a) : MemoryOk (reply i m a) := by
  cases a with
  | ok t b => exact MemoryOk.respond h ..
  | status t c => exact MemoryOk.respond h ..
  | later t => exact MemoryOk.withDev h _
  | wait t => exact MemoryOk.hold h ..

theorem MemoryOk.missMbox (h : MemoryOk s) (m : Mbox) : MemoryOk (s.missMbox m) := by
  unfold State.missMbox
  split
  · exact h
  · exact memoryOk_ite (h.logAt ..) h

theorem serveMbox_nextOk (h : MemoryOk s) {body : List Byte → Ans} (hb : ∀ d, AnsOk (body d)) : NextOk (serveMbox i m e x s body) := by
  have hno : ∀ c, NextOk (.next (reply i m (.status s c))) := fun c => reply_memoryOk i m (a := .status s c) h
  unfold serveMbox
  exact nextOk_ite (h.missMbox m) (nextOk_ite h (nextOk_ite (hno _) (nextOk_ite (hno _) (nextOk_ite (hno _) (reply_memoryOk i m (hb _))))))

theorem mboxTurn_nextOk (h : MemoryOk s) (hm : Bool) {k : State → Out_} (hk : ∀ s, MemoryOk s → NextOk (k s)) :
    NextOk (mboxTurn hm i m s k) := by
  unfold mboxTurn
  exact nextOk_ite (h.hold ..) (hk _ (h.withDev _))

section
variable {body : State → List Byte → Ans}

theorem mbox_nextOk (h : MemoryOk s) (hb : ∀ s d, MemoryOk s → AnsOk (body s d)) : NextOk (mbox i m e x s body) :=
  mboxTurn_nextOk h _ fun s h => serveMbox_nextOk h fun d => hb s d h

theorem mboxHm_nextOk (h : MemoryOk s) (hb : ∀ s d, MemoryOk s → AnsOk (body s d)) : NextOk (mboxHm i m e x s body) :=
  mboxTurn_nextOk h _ fun s h => serveMbox_nextOk h fun d => hb s d h

end

theorem forPart_ansOk (h : MemoryOk s) {k : Nat → Ans} (hk : ∀ n, AnsOk (k n)) : AnsOk (forPart m s k) := by
  unfold forPart
  exact ansOk_ite h (hk _)

theorem forDie_ansOk (h : MemoryOk s) {d : List Byte} {k : Nat → Ans} (hk : ∀ n, AnsOk (k n)) : AnsOk (forDie s d k) := by
  unfold forDie
  exact ansOk_ite (hk _) h

/-! ## Machine/Mailbox.lean: the PARTITION requests -/

theorem execDescWrite_nextOk (h : MemoryOk s) (m : Mbox) : NextOk (execDescWrite m s) :=
  mboxHm_nextOk h fun _ _ h => forPart_ansOk h fun n =>
    ansOk_ite h (ansOk_ite h (ansOk_ite h (h.setPart n ((h.part n).withDesc _))))

theorem execDescRead_nextOk (h : MemoryOk s) (m : Mbox) : NextOk (execDescRead m s) := mbox_nextOk h fun _ _ h => forPart_ansOk h fun _ => h

theorem execBoothWrite_nextOk (h : MemoryOk s) (m : Mbox) : NextOk (execBoothWrite m s) :=
  mboxHm_nextOk h fun _ _ h => forPart_ansOk h fun _ => ansOk_ite h (ansOk_ite h (ansOk_ite h (h.updBooth ..)))

theorem execGangMask_nextOk (h : MemoryOk s) (m : Mbox) : NextOk (execGangMask m s) :=
  mboxHm_nextOk h fun _ _ h => forPart_ansOk h fun n => h.updPart n fun _ h => h

theorem execCtxCreate_nextOk (h : MemoryOk s) (m : Mbox) : NextOk (execCtxCreate m s) :=
  mboxHm_nextOk h fun _ _ h => forPart_ansOk h fun n => ansOk_ite h (ansOk_ite h (h.updPart n fun _ h => h))

theorem execCtxDestroy_nextOk (h : MemoryOk s) (m : Mbox) : NextOk (execCtxDestroy m s) :=
  mboxHm_nextOk h fun _ _ h => forPart_ansOk h fun n => ansOk_ite h (MemoryOk.withCoh (h.updPart n (by exact fun _ h => h)) _)

theorem execGridList_nextOk (h : MemoryOk s) (m : Mbox) : NextOk (execGridList m s) := mbox_nextOk h fun _ _ h => forPart_ansOk h fun _ => h

theorem execPreemptSpace_nextOk (h : MemoryOk s) (m : Mbox) : NextOk (execPreemptSpace m s) :=
  mboxHm_nextOk h fun _ _ h => forPart_ansOk h fun _ => ansOk_ite h (h.beginSave _)

theorem execPreemptTime_nextOk (h : MemoryOk s) (m : Mbox) : NextOk (execPreemptTime m s) :=
  mboxHm_nextOk h fun _ _ h => forPart_ansOk h fun _ => ansOk_ite h (h.beginSave _)

theorem MemoryOk.killOne (h : MemoryOk s) (n : Nat) (g : Grid) (i : Nat) : MemoryOk (s.killOne n g i) := by
  unfold State.killOne
  exact memoryOk_ite h (memoryOk_ite (MemoryOk.regrant (h.killTeam _)) (memoryOk_ite (h.updGrid ..) h))

theorem execKill_nextOk (h : MemoryOk s) (m : Mbox) : NextOk (execKill m s) :=
  mboxHm_nextOk h fun _ _ h => forPart_ansOk h fun _ => ansOk_ite h (by
    split
    · exact h
    · exact ansOk_ite (MemoryOk.regrant (h.killGrid ..)) (ansOk_ite h (h.killOne ..)))

theorem execReset_nextOk (h : MemoryOk s) (m : Mbox) : NextOk (execReset m s) :=
  mboxHm_nextOk h fun _ _ h => forPart_ansOk h fun n => (h.askReset n).updPart n fun _ h => h

theorem execDmaqWrite_nextOk (h : MemoryOk s) (m : Mbox) : NextOk (execDmaqWrite m s) :=
  mboxHm_nextOk h fun _ _ h => forPart_ansOk h fun _ => ansOk_ite h (ansOk_ite h (ansOk_ite h (h.updQueue ..)))

theorem execDieMap_nextOk (h : MemoryOk s) (m : Mbox) : NextOk (execDieMap m s) := mbox_nextOk h fun _ _ h => h

/-! ## Machine/MailMemory.lean -/

theorem execWindowInfo_nextOk (h : MemoryOk s) (m : Mbox) : NextOk (execWindowInfo m s) := mbox_nextOk h fun _ _ h => forDie_ansOk h fun _ => h

theorem execFaultRead_nextOk (h : MemoryOk s) (m : Mbox) : NextOk (execFaultRead m s) :=
  mboxHm_nextOk h fun _ _ h => forPart_ansOk h fun n => h.updPart n fun _ h => h

theorem MemoryOk.serviced (h : MemoryOk s) (n id : Nat) (bad : Bool) : MemoryOk (s.serviced n id bad) :=
  (h.withGroups _).mapTeams fun _ ht => ht

theorem execFaultReply_nextOk (h : MemoryOk s) (m : Mbox) : NextOk (execFaultReply m s) :=
  mboxHm_nextOk h fun _ _ h => forPart_ansOk h fun n => ansOk_ite h (ansOk_ite h (MemoryOk.serviced (h.updPart n (by exact fun _ h => h)) ..))

theorem MemoryOk.untranslate (h : MemoryOk s) (n c : Nat) (range : Option (Nat × Nat)) (m : Option (MboxSource × Dword)) :
    MemoryOk (s.untranslate n c range m) := h.withCoh _

theorem execInvalidate_nextOk (h : MemoryOk s) (m : Mbox) : NextOk (execInvalidate m s) :=
  mbox_nextOk h fun _ _ h => forPart_ansOk h fun _ => by
    dsimp only
    split
    · exact h.untranslate ..
    · exact h.untranslate ..
    · exact h

theorem execHostTlbInvalidate_nextOk (h : MemoryOk s) (pasid va size : Nat) : NextOk (execHostTlbInvalidate pasid va size s) := by
  unfold execHostTlbInvalidate
  exact nextOk_ite h (h.withCoh _)

theorem execTlbSyncAnswer_nextOk (h : MemoryOk s) (id : Nat) : NextOk (execTlbSyncAnswer id s) := by
  unfold execTlbSyncAnswer
  split
  · exact h
  · refine nextOk_ite h ?_
    split
    · exact (h.withCoh _).answer ..
    · exact (h.withCoh _).emit _

theorem execMigrate_nextOk (h : MemoryOk s) (m : Mbox) : NextOk (execMigrate m s) :=
  mbox_nextOk h fun _ _ h => forPart_ansOk h fun _ => by
    dsimp only
    split
    · exact h
    · exact ansOk_ite h (h.withCoh _)

theorem wf_foldl_put {α : Type} {m : Memory} (h : m.wf = true) (a : α → Nat) (b : α → Byte) (l : List α) :
    (l.foldl (fun m x => m.put (a x) (b x)) m).wf = true :=
  List.foldlRecOn l _ (motive := fun m : Memory => m.wf = true) h fun _ h x _ => wf_put h (a x) (b x)

theorem wf_copyPage {r : Ram} (h : r.mem.wf = true) (src dst size : Nat) : (r.copyPage src dst size).mem.wf = true := by
  unfold Ram.copyPage
  extract_lets bytes mem tags bad keys t u
  have hm : mem.wf = true := wf_foldl_put (cellsWf_filter h _) (fun c : Host.Cell => dst + (c.1 - src)) Prod.snd bytes
  have hu : u.mem = t.mem := mem_foldl (f := fun t l => t.taint (dst + (l - src)) 64) (fun _ _ => taint_mem ..) bad t
  rw [counted_mem, mem_foldl (fun _ _ => push_mem ..), hu]
  exact hm

theorem MemoryOk.redirect (h : MemoryOk s) (src dst size : Nat) : MemoryOk (s.redirect src dst size) :=
  MemoryOk.withCoh ((h.withGroups _).mapTeams fun t ht r hr => by
    obtain ⟨q, hq, rfl⟩ := List.mem_map.mp hr
    exact ht q hq) _

theorem MemoryOk.rewritePtes (h : MemoryOk s) (m : Migration) (f : Nat → Nat) : MemoryOk (s.rewritePtes m f) :=
  h.foldl (fun _ _ h => h.ioPut ..) _

theorem execMigrationComplete_nextOk (h : MemoryOk s) (id : Nat) : NextOk (execMigrationComplete id s) := by
  unfold execMigrationComplete
  split
  · exact h
  · exact nextOk_ite h ((((MemoryOk.withCoh (h.withRam (wf_copyPage h.ram ..)) _).redirect ..).rewritePtes ..).answer ..)

theorem execMigrationAbort_nextOk (h : MemoryOk s) (id : Nat) : NextOk (execMigrationAbort id s) := by
  unfold execMigrationAbort
  split
  · exact h
  · exact (((h.withCoh _).redirect ..).rewritePtes ..).answer ..

theorem execPublishReset_nextOk (h : MemoryOk s) (m : Mbox) : NextOk (execPublishReset m s) :=
  mbox_nextOk h fun _ _ h => forPart_ansOk h fun _ => ansOk_ite h (by
    split
    · exact h
    · exact ansOk_ite h (h.withCoh _))

theorem execStreamWindow_nextOk (h : MemoryOk s) (m : Mbox) : NextOk (execStreamWindow m s) :=
  mboxHm_nextOk h fun _ _ h => ansOk_ite h (h.setIod ..)

theorem execCommWrite_nextOk (h : MemoryOk s) (m : Mbox) : NextOk (execCommWrite m s) :=
  mbox_nextOk h fun _ _ h => forPart_ansOk h fun n => by
    dsimp only
    split
    · exact h
    · exact h.updPart n fun _ h => h

theorem execLandingRing_nextOk (h : MemoryOk s) (m : Mbox) : NextOk (execLandingRing m s) :=
  mbox_nextOk h fun _ _ h => forPart_ansOk h fun n => ansOk_ite h (ansOk_ite h (h.updPart n fun _ h => h))

theorem execBudget_nextOk (h : MemoryOk s) (m : Mbox) : NextOk (execBudget m s) :=
  mboxHm_nextOk h fun _ _ h => forPart_ansOk h fun n => ansOk_ite h (MemoryOk.regrant (h.updPart n fun _ h => h))

theorem execCap_nextOk (h : MemoryOk s) (m : Mbox) : NextOk (execCap m s) :=
  mboxHm_nextOk h fun _ _ h => ansOk_ite h (ansOk_ite h (h.withDev _))

theorem execPowerTable_nextOk (h : MemoryOk s) (m : Mbox) : NextOk (execPowerTable m s) := mbox_nextOk h fun _ _ h => forDie_ansOk h fun _ => h

theorem execGrants_nextOk (h : MemoryOk s) (m : Mbox) : NextOk (execGrants m s) := mbox_nextOk h fun _ _ h => forDie_ansOk h fun _ => h

theorem execReserve_nextOk (h : MemoryOk s) (m : Mbox) : NextOk (execReserve m s) := mbox_nextOk h fun _ _ h => h

/-! ## Machine/MailSecurity.lean -/

theorem execAlarmRead_nextOk (h : MemoryOk s) (m : Mbox) : NextOk (execAlarmRead m s) := mbox_nextOk h fun _ _ h => h

theorem execImageLoad_nextOk (h : MemoryOk s) (m : Mbox) : NextOk (execImageLoad m s) :=
  mbox_nextOk h fun _ _ h => ansOk_ite (h.alarm ..) (h.withDev _)

theorem execSvnCommit_nextOk (h : MemoryOk s) (m : Mbox) : NextOk (execSvnCommit m s) :=
  mbox_nextOk h fun _ _ h => by
    dsimp only
    split <;> exact h

theorem execNonce_nextOk (h : MemoryOk s) (m : Mbox) : NextOk (execNonce m s) := mbox_nextOk h fun _ _ h => h

theorem MemoryOk.useNonce (h : MemoryOk s) : MemoryOk s.useNonce := h

theorem MemoryOk.unlockFailed (h : MemoryOk s) (n : Nat) : MemoryOk (s.unlockFailed n) := by
  unfold State.unlockFailed
  exact memoryOk_ite (MemoryOk.alarmB (MemoryOk.withDev ((h.withDev _).alarm ..) _) ..) ((h.withDev _).alarm ..)

theorem execDebugUnlock_nextOk (h : MemoryOk s) (m : Mbox) : NextOk (execDebugUnlock m s) :=
  mbox_nextOk h fun _ _ h =>
    ansOk_ite h (ansOk_ite (ansOk_ite h.useNonce (h.useNonce.updPart _ fun _ h => h)) (h.useNonce.unlockFailed _))

theorem execProvision_nextOk (h : MemoryOk s) (m : Mbox) : NextOk (execProvision m s) :=
  mbox_nextOk h fun _ _ h =>
    ansOk_ite h (MemoryOk.useNonce (memoryOk_ite (MemoryOk.foldl h (fun _ _ h => (h.drawKeys _).updPart _ (by exact fun _ h => h)) _) h))

theorem execKeyAssign_nextOk (h : MemoryOk s) (m : Mbox) : NextOk (execKeyAssign m s) :=
  mbox_nextOk h fun _ _ h => forPart_ansOk h fun n => ansOk_ite h (ansOk_ite h (ansOk_ite h
    (MemoryOk.withDev (memoryOk_ite (MemoryOk.scramble ((h.drawKeys _).updPart n (by exact fun _ h => h)) ..)
      ((h.drawKeys _).updPart n (by exact fun _ h => h))) _)))

theorem MemoryOk.setDebug (h : MemoryOk s) (n c : Nat) (b : Bool) : MemoryOk (s.setDebug n c b) := h.updCtx ..

theorem execAttach_nextOk (h : MemoryOk s) (m : Mbox) : NextOk (execAttach m s) :=
  mbox_nextOk h fun _ _ h => forPart_ansOk h fun _ => ansOk_ite h (h.setDebug ..)

theorem MemoryOk.resumeIf (h : MemoryOk s) (p : Group → Bool) : MemoryOk (s.resumeIf p) := (h.withGroups _).mapTeams fun _ ht => ht

theorem execDetach_nextOk (h : MemoryOk s) (m : Mbox) : NextOk (execDetach m s) :=
  mbox_nextOk h fun _ _ h => forPart_ansOk h fun _ => (h.setDebug ..).resumeIf _

theorem execHaltList_nextOk (h : MemoryOk s) (m : Mbox) : NextOk (execHaltList m s) := mbox_nextOk h fun _ _ h => forPart_ansOk h fun _ => h

theorem execHaltRead_nextOk (h : MemoryOk s) (m : Mbox) : NextOk (execHaltRead m s) :=
  mbox_nextOk h fun _ _ h => forPart_ansOk h fun _ => by
    dsimp only
    split <;> exact h

theorem execResume_nextOk (h : MemoryOk s) (m : Mbox) : NextOk (execResume m s) :=
  mbox_nextOk h fun _ _ h => forPart_ansOk h fun _ => h.resumeIf _

theorem execFabricMap_nextOk (h : MemoryOk s) (m : Mbox) : NextOk (execFabricMap m s) := mbox_nextOk h fun _ _ h => ansOk_ite h (h.withDev _)

theorem execLogRead_nextOk (h : MemoryOk s) (m : Mbox) : NextOk (execLogRead m s) := mbox_nextOk h fun _ _ h => ansOk_ite h (h.withDev _)

theorem execCounters_nextOk (h : MemoryOk s) (m : Mbox) : NextOk (execCounters m s) := mbox_nextOk h fun _ _ h => forDie_ansOk h fun _ => h

end Sys2Proof.Claims
end

section
/-! PROOF. The canonical form of every memory, kept: every instruction, event and step. -/

namespace Sys2Proof.Claims

open Sys2Proof.Machine Sys2Proof.Laws

variable {s t : State}

/-! ## Machine/Dispatch.lean and Machine/Run.lean: instructions, events and steps -/

/-- Whatever an instruction or an event does, it keeps the form of the memories. -/
theorem exec_nextOk (h : MemoryOk s) (i : Instr) : NextOk (exec i s) := by
  unfold exec
  cases i with
  | iadd | isub | imul | imulh | imad | imin | imax | iabs | ineg | and | or | xor | not | shl | shr | sar | rot | bxt
  | bins | bcnt | lzc | tzc | brvs | ixa | sel | mov | movi | movh | bperm | scmovGet => exact alu_nextOk h
  | icmp | pand => exact aluPrd_nextOk h
  | fadd | fsub | fmul | ffma | fmin | fmax | frnd | fscl | frcp | frsq | fsqrt | fex2 | flg2 | fsin | fcos | ftnh => exact fpu_nextOk h
  | mxadd | mxmul | mxfma | mxnorm | mxpack => exact mxWrite_nextOk h
  | nop | cede | fclass | scmovPut | vdhop => exact serve_nextOk h fun _ => h
  | jmp | jmpx | call | callx | ret => exact serve_nextOk h fun _ => branch_resOk h ..
  | tld | tst | gath | scat => exact serve_nextOk h fun _ => boxBody_resOk h ..
  | lxch | lvote => exact laneOp_nextOk h fun _ => h
  | gsync => exact serveColl_nextOk h fun _ => h
  | guardTurn | heldEffectArrival | squashMessage | holdwWake | cedeExpiry | droverWalkResume => exact h.updGroup ..
  | invalidationAck | bankWake | narrowReleaseComplete => exact h.withCoh _
  | leaseRenew | linkRetry => exact h.withDev _
  | stampSweep | bankSleep => exact when_nextOk _ h (h.withCoh _)
  | dependenceEvaluation => exact h.deps _
  | ldackAssert => exact h.setDie ..
  | msixTimerExpiry => exact h.tryVec ..
  | tamperMeshBreach | supplyGlitch | clockGlitch => exact h.alarmC ..
  | exit => exact execExit_nextOk h
  | dbrk => exact execDbrk_nextOk h ..
  | trap => exact execTrap_nextOk h ..
  | tret => exact execTret_nextOk h
  | holdw => exact execHoldw_nextOk h ..
  | cvt => exact execCvt_nextOk h ..
  | fcmp => exact execFcmp_nextOk h ..
  | mxunpk => exact execMxunpk_nextOk h ..
  | cbld => exact execCbld_nextOk h ..
  | cbxp => exact execCbxp_nextOk h ..
  | lred => exact execLred_nextOk h ..
  | lscn => exact execLscn_nextOk h ..
  | getl => exact execGetl_nextOk h ..
  | putl => exact execPutl_nextOk h ..
  | ld => exact execLd_nextOk h ..
  | st => exact execSt_nextOk h ..
  | pref => exact execPref_nextOk h ..
  | llock => exact execLlock_nextOk h ..
  | lunlk => exact execLunlk_nextOk h ..
  | atom => exact execAtom_nextOk h ..
  | acas => exact execAcas_nextOk h ..
  | ldacq => exact execLdacq_nextOk h ..
  | strel => exact execStrel_nextOk h ..
  | fence => exact execFence_nextOk h ..
  | xfence => exact execXfence_nextOk h ..
  | stref => exact execStref_nextOk h ..
  | ldref => exact execLdref_nextOk h ..
  | pub => exact execPub_nextOk h ..
  | objinit => exact execObjinit_nextOk h ..
  | kld => exact execKld_nextOk h ..
  | kset => exact execKset_nextOk h ..
  | coll => exact execColl_nextOk h ..
  | qcfg => exact execQcfg_nextOk h ..
  | qacq => exact execQacq_nextOk h ..
  | qcommit => exact execQcommit_nextOk h ..
  | qwait => exact execQwait_nextOk h ..
  | qfree => exact execQfree_nextOk h ..
  | brsv => exact execBrsv_nextOk h ..
  | bfree => exact execBfree_nextOk h ..
  | cvset => exact execCvset_nextOk h ..
  | tmac => exact execTmac_nextOk h ..
  | zclr => exact execZclr_nextOk h ..
  | zmovToVector => exact execZmovToVector_nextOk h ..
  | zmovToTile => exact execZmovToTile_nextOk h ..
  | zcpyToScratchpad => exact execZcpyToScratchpad_nextOk h ..
  | zcpyToTile => exact execZcpyToTile_nextOk h ..
  | zprom => exact execZprom_nextOk h ..
  | barinit => exact execBarinit_nextOk h ..
  | bararv => exact execBararv_nextOk h ..
  | barwt => exact execBarwt_nextOk h ..
  | barsync => exact execBarsync_nextOk h ..
  | wqenq => exact execWqenq_nextOk h ..
  | wqdeq => exact execWqdeq_nextOk h ..
  | schnxt => exact execSchnxt_nextOk h ..
  | launch => exact execLaunch_nextOk h ..
  | narm => exact execNarm_nextOk h ..
  | nsend => exact execNsend_nextOk h ..
  | getsr => exact execGetsr_nextOk h ..
  | setsr => exact execSetsr_nextOk h ..
  | clkq => exact execClkq_nextOk h ..
  | fetchDecision => exact execFetchDecision_nextOk h ..
  | translationProbe => exact execTranslationProbe_nextOk h ..
  | executeComplete => exact execExecuteComplete_nextOk h ..
  | retire => exact execRetire_nextOk h ..
  | branchRecovery => exact execBranchRecovery_nextOk h ..
  | trapDelivery => exact execTrapDelivery_nextOk h ..
  | checkpointVerify => exact execCheckpointVerify_nextOk h ..
  | effectRelease => exact execEffectRelease_nextOk h ..
  | engineResume => exact execEngineResume_nextOk h ..
  | sensorRestart => exact execSensorRestart_nextOk h ..
  | droopRecoveryInterval => exact execDroopRecoveryInterval_nextOk h ..
  | groupRetire => exact execGroupRetire_nextOk h ..
  | matrixOperationIssue => exact execMatrixOperationIssue_nextOk h ..
  | matrixOperationComplete => exact execMatrixOperationComplete_nextOk h ..
  | reservationInvalidate => exact execReservationInvalidate_nextOk h ..
  | ownershipGrant => exact execOwnershipGrant_nextOk h ..
  | homeRequest => exact execHomeRequest_nextOk h ..
  | coherenceProbe => exact execCoherenceProbe_nextOk h ..
  | loadReturn => exact execLoadReturn_nextOk h ..
  | linkDown => exact execLinkDown_nextOk h ..
  | machineCheck => exact execMachineCheck_nextOk h ..
  | widenAnswer => exact execWidenAnswer_nextOk h ..
  | migrationComplete => exact execMigrationComplete_nextOk h ..
  | migrationAbort => exact execMigrationAbort_nextOk h ..
  | hostTlbInvalidate => exact execHostTlbInvalidate_nextOk h ..
  | tlbSyncAnswer => exact execTlbSyncAnswer_nextOk h ..
  | launchCopy => exact execLaunchCopy_nextOk h ..
  | priorityAging => exact execPriorityAging_nextOk h ..
  | teamPlace => exact execTeamPlace_nextOk h ..
  | completionAction => exact execCompletionAction_nextOk h ..
  | gangReserve => exact execGangReserve_nextOk h ..
  | gangReserveTimeout => exact execGangReserveTimeout_nextOk h
  | gangRetry => exact execGangRetry_nextOk h ..
  | leaseLapse => exact execLeaseLapse_nextOk h ..
  | grantTakeEffect => exact execGrantTakeEffect_nextOk h ..
  | loadstepAssert => exact execLoadstepAssert_nextOk h ..
  | loadstepLeadExpiry => exact execLoadstepLeadExpiry_nextOk h ..
  | preemptSave => exact execPreemptSave_nextOk h ..
  | fatalReset => exact execFatalReset_nextOk h ..
  | partitionReady => exact execPartitionReady_nextOk h ..
  | dmaTransferStart => exact execDmaTransferStart_nextOk h ..
  | dmaChunkRelease => exact execDmaChunkRelease_nextOk h ..
  | dmaComplete => exact execDmaComplete_nextOk h ..
  | coalescingControlWrite => exact execCoalescingControlWrite_nextOk h ..
  | wharfAbortReceive => exact execWharfAbortReceive_nextOk h ..
  | wharfAck => exact execWharfAck_nextOk h ..
  | messageAckTimeout => exact execMessageAckTimeout_nextOk h ..
  | collComplete => exact execCollComplete_nextOk h ..
  | collTimeout => exact execCollTimeout_nextOk h ..
  | wharfCredit => exact execWharfCredit_nextOk h ..
  | descWrite => exact execDescWrite_nextOk h ..
  | descRead => exact execDescRead_nextOk h ..
  | boothWrite => exact execBoothWrite_nextOk h ..
  | gangMask => exact execGangMask_nextOk h ..
  | ctxCreate => exact execCtxCreate_nextOk h ..
  | ctxDestroy => exact execCtxDestroy_nextOk h ..
  | gridList => exact execGridList_nextOk h ..
  | preemptSpace => exact execPreemptSpace_nextOk h ..
  | preemptTime => exact execPreemptTime_nextOk h ..
  | kill => exact execKill_nextOk h ..
  | reset => exact execReset_nextOk h ..
  | dmaqWrite => exact execDmaqWrite_nextOk h ..
  | dieMap => exact execDieMap_nextOk h ..
  | windowInfo => exact execWindowInfo_nextOk h ..
  | faultRead => exact execFaultRead_nextOk h ..
  | faultReply => exact execFaultReply_nextOk h ..
  | invalidate => exact execInvalidate_nextOk h ..
  | migrate => exact execMigrate_nextOk h ..
  | publishReset => exact execPublishReset_nextOk h ..
  | streamWindow => exact execStreamWindow_nextOk h ..
  | commWrite => exact execCommWrite_nextOk h ..
  | landingRing => exact execLandingRing_nextOk h ..
  | budget => exact execBudget_nextOk h ..
  | cap => exact execCap_nextOk h ..
  | powerTable => exact execPowerTable_nextOk h ..
  | grants => exact execGrants_nextOk h ..
  | reserve => exact execReserve_nextOk h ..
  | alarmRead => exact execAlarmRead_nextOk h ..
  | imageLoad => exact execImageLoad_nextOk h ..
  | svnCommit => exact execSvnCommit_nextOk h ..
  | nonce => exact execNonce_nextOk h ..
  | debugUnlock => exact execDebugUnlock_nextOk h ..
  | provision => exact execProvision_nextOk h ..
  | keyAssign => exact execKeyAssign_nextOk h ..
  | attach => exact execAttach_nextOk h ..
  | detach => exact execDetach_nextOk h ..
  | haltList => exact execHaltList_nextOk h ..
  | haltRead => exact execHaltRead_nextOk h ..
  | resume => exact execResume_nextOk h ..
  | fabricMap => exact execFabricMap_nextOk h ..
  | logRead => exact execLogRead_nextOk h ..
  | counters => exact execCounters_nextOk h ..
  | vfReset => exact execVfReset_nextOk h ..
  | ideIntegrityFailure => exact execIdeIntegrityFailure_nextOk h ..
  | ideKeyProgram => exact execIdeKeyProgram_nextOk h ..
  | spdmRequest => exact execSpdmRequest_nextOk h ..
  | linkTrain => exact execLinkTrain_nextOk h ..
  | packageReset => exact execPackageReset_nextOk h
  | boothEnq => exact execBoothEnq_nextOk h ..
  | dmaDescriptorSubmit => exact execDmaDescriptorSubmit_nextOk h ..
  | iodSensorEvent => exact execIodSensorEvent_nextOk h ..
  | streamWrite => exact execStreamWrite_nextOk h ..
  | wharfMessageReceive => exact execWharfMessageReceive_nextOk h ..
  | registerWrite => exact execRegisterWrite_nextOk h ..
  | peerAccess => exact execPeerAccess_nextOk h ..

theorem runFetched_nextOk (h : MemoryOk s) (f : Fetched) : NextOk (runFetched s f) := by
  have hs : MemoryOk { s with latch := none, issue := some f.issue } := h
  unfold runFetched
  refine nextOk_ite (runParity_nextOk hs _) ?_
  split
  · exact runIllegal_nextOk hs ..
  · exact nextOk_ite (exec_nextOk hs _) (runIllegal_nextOk hs ..)

theorem MemoryOk.tryRun (h : MemoryOk s) (g : Group) (run : Mask) (pc : Dword) :
    MemoryOk (s.tryRun g run pc).1 ∧ OptOk (s.tryRun g run pc).2 := by
  refine ⟨h.setGroup _, ?_⟩
  unfold State.tryRun
  extract_lets g t u
  have hu : MemoryOk u := fetchRun_memoryOk (h.setGroup g) ..
  dsimp only
  split
  · exact hu
  · next f _ =>
    have hf := runFetched_nextOk hu f
    split
    · next hx =>
      rw [hx] at hf
      exact hf
    · exact optOk_none

theorem MemoryOk.lookAt (h : MemoryOk s) (k : GroupKey) (run : Mask) (pc : Dword) : MemoryOk (s.lookAt k run pc) := by
  unfold State.lookAt
  split
  · exact h
  · next g _ =>
    obtain ⟨h₁, h₂⟩ := h.tryRun g run pc
    dsimp only
    split
    · exact h₁
    · next x m hx =>
      obtain ⟨y, hy, hm⟩ := Option.bind_eq_some_iff.mp hx
      obtain ⟨z, -, hz⟩ := Option.map_eq_some_iff.mp hm
      cases hz
      have hx := h₂.of_eq hy
      exact memoryOk_ite hx (h₁.updGroup ..)

theorem MemoryOk.looked (h : MemoryOk s) : MemoryOk s.looked :=
  h.foldl (fun _ _ h => memoryOk_ite (h.foldl (fun _ _ h => h.lookAt ..) _) h) _

theorem runGroup_nextOk (h : MemoryOk s) (g : Group) : NextOk (runGroup s g) := by
  have hs : MemoryOk { s with cur := none, now := s.now + 1 } := h
  have ht := fetchDecide_memoryOk hs g
  unfold runGroup
  dsimp only
  split
  · exact runFetched_nextOk ht _
  · exact ht

theorem runEvent_nextOk (h : MemoryOk s) (now : Nat) (ev : Instr) : NextOk (runEvent s now ev) := by
  have hs : MemoryOk { s.wake with now := max s.now now, issue := none } := h.wake
  unfold runEvent
  exact exec_nextOk (memoryOk_ite hs.looked hs) ev

theorem stepFree_nextOk (h : MemoryOk s) : NextOk (stepFree s) := by
  have hl := h.looked
  unfold stepFree
  dsimp only
  split
  · split
    · exact runEvent_nextOk hl ..
    · exact runGroup_nextOk hl _
  · split
    · exact runEvent_nextOk (s := { s.looked with cur := none }) hl ..
    · exact hl

theorem stepAgenda_nextOk (h : MemoryOk s) : NextOk (stepAgenda s) := by
  unfold stepAgenda
  split
  · next e r _ => exact runEvent_nextOk (s := { s with agenda := r }) h ..
  · exact stepFree_nextOk h

theorem step_nextOk (h : MemoryOk s) : NextOk (step s) := by
  unfold step stepOf
  split
  · exact nextOk_ite (stepAgenda_nextOk h) (runFetched_nextOk h _)
  · exact stepAgenda_nextOk h

/-- Settles O59: each operation of the machine keeps the canonical form of every memory (one lemma each above), and so does the instruction or
event that a step runs. -/
theorem memoryFormKept : Obligations.MemoryFormKept := by
  unfold Obligations.MemoryFormKept Kept
  intro s t h ht
  have hs := step_nextOk h
  rw [ht] at hs
  exact hs

end Sys2Proof.Claims
end

section
/-! PROOF. Endpoint requests: a request that is asked in its turn is served at once, and what its body answers stands in its mailbox. -/

namespace Sys2Proof.Claims

open Sys2Proof.Machine Sys2Proof.Laws

variable {i : Instr} {m : Mbox} {len : Nat} {zero : List (Nat × Nat)} {s u : State}

/-- An endpoint defines the OPCODE of a code (R245, R248). -/
def codeKnown (c : Nat × Nat) : Bool := decide (1 ≤ c.2) && decide (c.2 ≤ [13, 9, 5, 7, 6, 2].getD c.1 0)

theorem mboxKnown_eq (m : Mbox) : mboxKnown m = codeKnown (m.ep, m.op) := rfl

theorem Asked.hasMbox (h : Asked i m len zero s) : s.hasMbox m = true := by
  obtain ⟨k, hk, hd⟩ := h.die
  rw [State.hasMbox, hk]
  exact hd

theorem Asked.known (h : Asked i m len zero s) (hi : codeKnown (codeOf i) = true) : mboxKnown m = true := by
  rw [mboxKnown_eq, h.code]
  exact hi

theorem Asked.not_bad (h : Asked i m len zero s) : mboxBad m ⟨len, zero⟩ = false := by
  have hz : (zero.any fun z => fieldAt (mboxBytes m) z.1 z.2 != 0) = false := List.any_eq_false.mpr fun z hz => by simp [h.zero z hz]
  have h₁ := h.len.1
  have h₂ := h.len.2
  simp only [mboxBad, hz, Bool.or_false, Bool.or_eq_false_iff, decide_eq_false_iff_not]
  omega

theorem Asked.not_behind (h : Asked i m len zero s) : s.behind m = false := by
  obtain ⟨hh, hu⟩ := h.held
  rw [State.behind, Bool.or_eq_false_iff]
  exact ⟨List.any_eq_false.mpr fun x hx => by simp [hh x hx], List.any_eq_false.mpr fun x hx => by simp [hu x hx]⟩

theorem Asked.erase_held (h : Asked i m len zero s) : s.dev.held.erase (m, i) = s.dev.held :=
  List.erase_of_not_mem fun hm => h.held.1 _ hm rfl

/-- It is its turn, whoever serves it. -/
theorem Asked.mboxTurn_eq (h : Asked i m len zero s) (hm : Bool) (k : State → Out_) : mboxTurn hm i m s k = k s := by
  have hw : (hm && s.dev.takeover.isSome || s.behind m) = false := by simp [h.not_behind, h.alive.2.2]
  rw [mboxTurn, hw, h.erase_held]
  rfl

theorem Asked.serveMbox_eq (h : Asked i m len zero s) (hi : codeKnown (codeOf i) = true) (vf : Bool) (body : List Byte → Ans) :
    serveMbox i m (.other vf) ⟨len, zero⟩ s body = .next (reply i m (body (mboxBytes m))) := by
  obtain ⟨k, hk, -⟩ := h.die
  simp [serveMbox, h.hasMbox, h.known hi, h.not_bad, h.code, h.alive.1, hk]

theorem Asked.mbox_eq (h : Asked i m len zero s) (hi : codeKnown (codeOf i) = true) (vf : Bool) (body : State → List Byte → Ans) :
    mbox i m (.other vf) ⟨len, zero⟩ s body = .next (reply i m (body s (mboxBytes m))) := by
  rw [mbox, h.mboxTurn_eq, h.serveMbox_eq hi]

theorem Asked.mboxHm_eq (h : Asked i m len zero s) (hi : codeKnown (codeOf i) = true) (vf : Bool) (body : State → List Byte → Ans) :
    mboxHm i m (.other vf) ⟨len, zero⟩ s body = .next (reply i m (body s (mboxBytes m))) := by
  rw [mboxHm, h.mboxTurn_eq, h.serveMbox_eq hi]

/-- An answer that a die's firmware gives stands in its mailbox; nothing else changes, where no other request of the mailbox has begun. -/
theorem respond_replied {k : Nat} (hk : m.src = .die k) (hu : ∀ x ∈ u.dev.unanswered, x.1 ≠ m.src) (status : Nat) (body : List Byte) :
    Replied m u (u.respond m status body) status body := by
  have hf : u.dev.unanswered.filter (fun x => decide (x ≠ (m.src, m.seq))) = u.dev.unanswered :=
    List.filter_eq_self.mpr fun x hx => decide_eq_true fun he => hu x hx (congrArg Prod.fst he)
  have hr : u.respond m status body = u.answer m.src m.seq status body := by rw [State.respond, hk]
  rw [hr]
  refine ⟨rfl, ?_⟩
  simp only [State.answer, hf]

/-- A request whose body answers with status 0. -/
theorem Asked.replied (h : Asked i m len zero s) (hu : u.dev.unanswered = s.dev.unanswered) (body : List Byte) :
    Replied m u (reply i m (.ok u body)) 0 body := by
  obtain ⟨k, hk, -⟩ := h.die
  exact respond_replied hk (hu ▸ h.held.2) 0 body

section
variable {vf : Bool} {body : State → List Byte → Ans} {b : List Byte}

theorem Asked.answered (h : Asked i m len zero s) (hi : codeKnown (codeOf i) = true) (hb : body s (mboxBytes m) = .ok u b)
    (hu : u.dev.unanswered = s.dev.unanswered) : ∃ t, mbox i m (.other vf) ⟨len, zero⟩ s body = .next t ∧ Replied m u t 0 b :=
  ⟨_, by rw [h.mbox_eq hi, hb], h.replied hu b⟩

theorem Asked.answeredHm (h : Asked i m len zero s) (hi : codeKnown (codeOf i) = true) (hb : body s (mboxBytes m) = .ok u b)
    (hu : u.dev.unanswered = s.dev.unanswered) : ∃ t, mboxHm i m (.other vf) ⟨len, zero⟩ s body = .next t ∧ Replied m u t 0 b :=
  ⟨_, by rw [h.mboxHm_eq hi, hb], h.replied hu b⟩

end

theorem forPart_of_lt (h : mboxPart m < 16) (k : Nat → Ans) : forPart m s k = k (mboxPart m) := if_neg (Nat.not_le.mpr h)

theorem forDie_of_hasDie {d : List Byte} (h : s.hasDie (fieldAt d 0 1) = true) (k : Nat → Ans) : forDie s d k = k (fieldAt d 0 1) := if_pos h

end Sys2Proof.Claims
end

section
/-! PROOF. The PARTITION requests (R15 to R18, R197, R199, R210, R227, R228, R232, R233, R247, R251). -/

namespace Sys2Proof.Claims

open Sys2Proof.Machine Sys2Proof.Laws

variable {m : Mbox} {s : State}

/-! ## What a kill leaves of the open answers -/

theorem abortColl_unanswered (s : State) (part : Nat) (o : CollOp) : (s.abortColl part o).dev.unanswered = s.dev.unanswered := by
  unfold State.abortColl
  split
  · rfl
  · refine List.foldlRecOn _ _ (motive := fun t : State => t.dev.unanswered = s.dev.unanswered) rfl fun t ht r _ => ?_
    dsimp only
    split
    · exact ht
    · split <;> exact ht

theorem dropTeam_unanswered (s : State) (k : TeamKey) : (s.dropTeam k).dev.unanswered = s.dev.unanswered :=
  List.foldlRecOn _ _ (motive := fun t : State => t.dev.unanswered = s.dev.unanswered) rfl fun t ht o _ =>
    (abortColl_unanswered t k.part o).trans ht

theorem killGrid_unanswered (s : State) (n num : Nat) : (s.killGrid n num).dev.unanswered = s.dev.unanswered := by
  unfold State.killGrid
  dsimp only
  split
  · rfl
  · exact List.foldlRecOn _ State.killTeam (motive := fun t : State => t.dev.unanswered = s.dev.unanswered) rfl fun t ht k _ =>
      (dropTeam_unanswered _ k).trans ht

theorem regrant_unanswered (s : State) : s.regrant.dev.unanswered = s.dev.unanswered := rfl

/-! ## What a DMA queue's rewriting leaves -/

/-- A change of a queue that is the same for the queue that stands there is the same change. -/
theorem updQueue_congr {n i : Nat} {f g : DmaQueue → DmaQueue} (h : f (s.queue n i) = g (s.queue n i)) :
    s.updQueue n i f = s.updQueue n i g := by
  have hq : (s.part n).queues.modify i f = (s.part n).queues.modify i g := by
    refine List.ext_getElem? fun j => ?_
    rw [List.getElem?_modify, List.getElem?_modify]
    split
    · next hj =>
      subst hj
      cases hx : (s.part n).queues[i]? with
      | none => rfl
      | some q =>
        have : s.queue n i = q := by rw [State.queue, List.getD_eq_getElem?_getD, hx]; rfl
        rw [this] at h
        simp [h]
    · rfl
  simp only [State.updQueue, State.updPart, hq]

/-! ## What a RESET begins -/

/-- A partition whose reset a request has asked for. -/
def resetAsked (s : State) (m : Mbox) (n : Nat) : State :=
  (s.askReset n).updPart n fun p => { p with resetMbox := p.resetMbox ++ [(m.src, m.seq)] }

theorem resetAsked_part {n : Nat} (h : n < s.parts.length) : (resetAsked s m n).part n =
    { s.part n with
      ready := false, resetAt := some ((s.part n).resetAt.getD s.now), resetMbox := (s.part n).resetMbox ++ [(m.src, m.seq)] } := by
  have ha : (s.askReset n).part n = { s.part n with ready := false, resetAt := some ((s.part n).resetAt.getD s.now) } :=
    part_updPart s n (fun p => { p with ready := false, resetAt := some (p.resetAt.getD s.now) }) h
  have hl : n < (s.askReset n).parts.length := by simpa [State.askReset, State.updPart, State.setPart] using h
  rw [resetAsked, part_updPart _ _ _ hl, ha]

theorem askReset_stop {n : Nat} {g : Group} (hg : g ∈ (s.askReset n).groups) (hk : g.key.team.part = n) : g.stop = true := by
  obtain ⟨x, -, rfl⟩ := List.mem_map.mp hg
  by_cases hx : x.key.team.part = n
  · rw [if_pos hx]
  · rw [if_neg hx] at hk
    exact (hx hk).elim

/-! ## The requests -/

/-- Settles O42: each request, asked in its turn, is served by its body, whose guards the premises pass. -/
theorem partitionRequests : Obligations.PartitionRequests := by
  unfold Obligations.PartitionRequests
  intro m n b in_ word
  refine ⟨?descWrite, ?descRead, ?boothWrite, ?gangMask, ?ctxCreate, ?ctxDestroy, ?gridList, ?preemptSpace, ?preemptTime, ?kill, ?reset,
    ?dmaqWrite, ?dieMap⟩
  case descWrite =>
    rintro p s h ⟨hn, hbusy, hconf, hlink⟩
    have hl : (s.linksUsed (p s)).any s.coh.linkDown.contains = false := List.any_eq_false.mpr fun l hl => by simpa using hlink l hl
    show ∃ t, execDescWrite m s = _ ∧ _
    refine h.answeredHm rfl ((forPart_of_lt hn _).trans ?_) rfl
    exact (if_neg (ne_true_of_eq_false hbusy)).trans ((if_neg (ne_true_of_eq_false hconf)).trans (if_neg (ne_true_of_eq_false hl)))
  case descRead =>
    intro s h hn
    show ∃ t, execDescRead m s = _ ∧ _
    exact h.answered rfl (forPart_of_lt hn _) rfl
  case boothWrite =>
    rintro c s h ⟨hn, hi, he, hw, hr, hv⟩
    have hring : ((c s).ring != 0 && (decide ((c s).ring < 6) || decide (20 < (c s).ring) ||
        !(s.part n).owns (bitsOf (c s).w0.toNat 50 12 * 4096) (64 * 2 ^ (c s).ring))) = false := by
      obtain h0 | ⟨hlo, hhi, ho⟩ := hr
      · simp [h0]
      · simp [ho, hlo, hhi]
    have hctx : ((c s).valid && ((s.part n).ctx? (c s).ctx).isNone) = false := by
      cases hx : (c s).valid with
      | false => rfl
      | true => simpa using hv hx
    show ∃ t, execBoothWrite m s = _ ∧ _
    refine h.answeredHm rfl ((forPart_of_lt hn _).trans ?_) rfl
    have hidle : (!(s.booth n (b 1 1)).entries.isEmpty || !(s.booth n (b 1 1)).waits.isEmpty) = false := by rw [he, hw]; rfl
    exact (if_neg (Nat.not_le.mpr hi)).trans ((if_neg (ne_true_of_eq_false hidle)).trans
      (if_neg (ne_true_of_eq_false (Bool.or_eq_false_iff.mpr ⟨hring, hctx⟩))))
  case gangMask =>
    intro s h hn
    show ∃ t, execGangMask m s = _ ∧ _
    exact h.answeredHm rfl (forPart_of_lt hn _) rfl
  case ctxCreate =>
    rintro image s h ⟨hn, ha, hlt, ht, hbad, hc⟩
    show ∃ t, execCtxCreate m s = _ ∧ _
    refine h.answeredHm rfl ((forPart_of_lt hn _).trans ?_) rfl
    have hrec : (b 8 8 % 256 != 0 || decide (2 ^ 39 ≤ b 8 8) || s.ram.tainted (b 8 8) 256 || ctxBad s (s.part n) (image s)) = false := by
      rw [ht, hbad, decide_eq_false (Nat.not_le.mpr hlt), ha]
      rfl
    exact (if_neg (ne_true_of_eq_false hrec)).trans (if_neg (by rw [show (s.part (mboxPart m)).ctx? (fieldAt _ 1 1) = none from hc]; decide))
  case ctxDestroy =>
    rintro s h ⟨hn, hu⟩
    show ∃ t, execCtxDestroy m s = _ ∧ _
    refine h.answeredHm rfl ((forPart_of_lt hn _).trans ?_) rfl
    exact if_neg (ne_true_of_eq_false hu)
  case gridList =>
    intro s h hn
    show ∃ t, execGridList m s = _ ∧ _
    exact h.answered rfl (forPart_of_lt hn _) rfl
  case preemptSpace =>
    rintro ts s h ⟨hn, hs⟩
    show ∃ t, execPreemptSpace m s = _ ∧ _
    exact h.answeredHm rfl ((forPart_of_lt hn _).trans (if_neg (by simpa using hs))) rfl
  case preemptTime =>
    rintro ts s h ⟨hn, hs⟩
    show ∃ t, execPreemptTime m s = _ ∧ _
    exact h.answeredHm rfl ((forPart_of_lt hn _).trans (if_neg (by simpa using hs))) rfl
  case kill =>
    rintro s h ⟨hn, h0, hg⟩
    obtain ⟨g, hg⟩ := Option.isSome_iff_exists.mp hg
    have hnum : g.num = b 4 4 := by simpa using List.find?_some hg
    show ∃ t, execKill m s = _ ∧ _
    refine h.answeredHm rfl ((forPart_of_lt hn _).trans ?_) ((regrant_unanswered _).trans (killGrid_unanswered ..))
    refine (if_neg (by simp [show fieldAt (mboxBytes m) 1 1 = 0 from h0])).trans ?_
    rw [show s.grid? (mboxPart m) (fieldAt (mboxBytes m) 4 4) = some g from hg]
    exact (if_pos h0).trans (by rw [hnum])
  case reset =>
    intro s h hn hlen
    have he : execReset m s = .next (reply (.reset m) m (.later (resetAsked s m n))) := by
      refine (h.mboxHm_eq rfl false _).trans ?_
      rw [forPart_of_lt hn]
      rfl
    refine ⟨_, he, ?_⟩
    have hp : (resetAsked s m n).part n = _ := resetAsked_part hlen
    refine ⟨congrArg Part.ready hp, congrArg Part.resetAt hp, congrArg Part.resetMbox hp, rfl, rfl, fun g hg hk => askReset_stop (s := s) hg hk⟩
  case dmaqWrite =>
    rintro s h ⟨hn, hi, hv, ha, hlog, hd, hc⟩
    show ∃ t, execDmaqWrite m s = _ ∧ _
    refine h.answeredHm rfl ((forPart_of_lt hn _).trans ?_) rfl
    have hv' : (fieldAt (mboxBytes m) 18 1).testBit 0 = true := by rw [show fieldAt (mboxBytes m) 18 1 = 1 from hv]; rfl
    refine (if_neg ?_).trans ((if_neg ?_).trans ((if_neg ?_).trans ?_))
    · show ¬(4 ≤ b 1 1 ∨ 2 ≤ b 18 1 ∨ b 8 8 % 4096 ≠ 0 ∨ (b 16 1 ≠ 0 ∧ (b 16 1 < 6 ∨ 16 < b 16 1)))
      omega
    · exact ne_true_of_eq_false (congrArg (fun l => !l.isEmpty) hd)
    · exact ne_true_of_eq_false (Bool.and_eq_false_iff.mpr (.inr (Option.isNone_eq_false_iff.mpr hc)))
    · refine congrArg (Ans.ok · []) (updQueue_congr ?_)
      simp only [hv', if_true]
      rfl
  case dieMap =>
    intro s h _
    show ∃ t, execDieMap m s = _ ∧ _
    refine h.answered rfl ?_ rfl
    simp [sumOf, List.range, List.range.loop]

end Sys2Proof.Claims
end

section
/-! PROOF. The MEMORY requests (R12, R19, R36, R137 to R139, R160, R188, R242, R304). -/

namespace Sys2Proof.Claims

open Sys2Proof.Machine Sys2Proof.Laws

variable {m : Mbox} {s : State}

/-! ## What the requests that answer later begin -/

/-- A size code that names a page size is not the one for a whole context (Table 20-8). -/
theorem ne_seven_of_pageSize {k z : Nat} (h : pageSize k = some z) : k ≠ 7 := by
  rintro rfl
  cases h

/-- The translations that an INVALIDATE leaves (R138). -/
theorem mem_untranslate_tlb {n c : Nat} {r : Option (Nat × Nat)} {x : Option (MboxSource × Dword)} {e : TlbEntry} :
    e ∈ (s.untranslate n c r x).coh.tlb ↔
      e ∈ s.coh.tlb ∧ ¬(e.part = n ∧ e.ctx = c ∧ ∀ p ∈ r, e.va < p.1 + p.2 ∧ p.1 < e.va + e.size) := by
  cases r with
  | none => simp [State.untranslate, imp_iff_not_or]
  | some p => simp [State.untranslate, imp_iff_not_or, or_assoc, -Prod.forall, -Prod.exists]

/-- The accesses under way are those of every group of the context. -/
theorem mem_underWay {n c : Nat} {g : Group} (hg : g ∈ s.groups) (hn : g.key.team.part = n) (hc : g.ctx = c) : (g.key, g.seq) ∈ s.underWay n c :=
  List.mem_map_of_mem (List.mem_filter.mpr ⟨hg, by simp [hn, hc]⟩)

/-- Writing lines of the directory leaves the migrations and their numbers. -/
theorem foldl_setLine_migs (c : Coh) (f : Line → Line) (ls : List Line) :
    (ls.foldl (fun c l => c.setLine (f l)) c).migs = c.migs ∧ (ls.foldl (fun c l => c.setLine (f l)) c).nextId = c.nextId :=
  List.foldlRecOn ls _ (motive := fun d : Coh => d.migs = c.migs ∧ d.nextId = c.nextId) ⟨rfl, rfl⟩ fun _ hd _ _ => hd

/-! ## What a PUBLISH_RESET acts on -/

theorem resetPage_eq {n z e d sz : Nat} {b : List Byte} {c : Context} (hz : pageSize (fieldAt b 2 1) = some z)
    (hc : (s.part n).ctx? (fieldAt b 1 1) = some c) (hw : walk s.ram.mem c.ptroot (fieldAt b 8 8) = .leaf e d sz) :
    resetPage s n b = some (ptePpn e / sz * sz + fieldAt b 8 8 % sz / z * z, min z sz, fun x =>
      ((ownerOf s n c.num (fieldAt b 8 8 / sz * sz) sz).bind s.team?).bind Team.place? == some (x.die, x.cluster)) := by
  simp only [resetPage, hz, hc, hw]

/-! ## The requests -/

/-- Settles O43: each request, asked in its turn, is served by its body, whose guards the premises pass. -/
theorem memoryRequests : Obligations.MemoryRequests := by
  unfold Obligations.MemoryRequests
  intro m n b
  refine ⟨?windowInfo, ?faultRead, ?faultReply, ?invalidate, ?migrate, ?publishReset, ?streamWindow, ?commWrite, ?landingRing⟩
  case windowInfo =>
    intro s h hd
    show ∃ t, execWindowInfo m s = _ ∧ _
    exact h.answered rfl (forDie_of_hasDie hd _) rfl
  case faultRead =>
    intro l sent s h hn
    show ∃ t, execFaultRead m s = _ ∧ _
    exact h.answeredHm rfl (forPart_of_lt hn _) rfl
  case faultReply =>
    rintro s h ⟨hn, hb, f, hf, hid, hs⟩
    have hany : ((s.part n).faults.any fun f => f.id = b 4 4 && f.sent) = true := List.any_eq_true.mpr ⟨f, hf, by simp [hid, hs]⟩
    show ∃ t, execFaultReply m s = _ ∧ _
    refine h.answeredHm rfl ((forPart_of_lt hn _).trans ?_) rfl
    exact (if_neg (Nat.not_lt.mpr hb)).trans (if_neg (ne_true_of_eq_false (congrArg not hany)))
  case invalidate =>
    intro s z h hn hz
    have he := (h.mbox_eq rfl false _ : execInvalidate m s = _)
    rw [forPart_of_lt hn] at he
    obtain ⟨r, hr, he⟩ : ∃ r : Option (Nat × Nat), (∀ e : TlbEntry, (∀ p ∈ r, e.va < p.1 + p.2 ∧ p.1 < e.va + e.size) ↔
          b 2 1 = 7 ∨ (e.va < b 8 8 / z * z + z ∧ b 8 8 / z * z < e.va + e.size)) ∧
        execInvalidate m s = .next (reply (.invalidate m) m (.later (s.untranslate n (b 1 1) r (some (m.src, m.seq))))) := by
      obtain ⟨h7, -⟩ | hz := hz
      · refine ⟨none, fun e => by simp [h7], he.trans ?_⟩
        simp only [show fieldAt (mboxBytes m) 2 1 = 7 from h7]
        rfl
      · have h7 : b 2 1 ≠ 7 := ne_seven_of_pageSize hz
        refine ⟨some (b 8 8 / z * z, z), fun e => by simp [h7], he.trans ?_⟩
        split
        · next h' => exact (h7 h').elim
        · next he' _ => cases hz.symm.trans he'; rfl
        · next he' _ => cases hz.symm.trans he'
    exact ⟨_, he, rfl, rfl, rfl, fun e => mem_untranslate_tlb.trans (by rw [hr]), _, rfl, rfl, fun g hg => mem_underWay hg⟩
  case migrate =>
    intro s z h hn hz hsrc hdst hsl hdl
    have he := (h.mbox_eq rfl false _ : execMigrate m s = _)
    rw [forPart_of_lt hn] at he
    have hg : ¬(b 8 8 % z ≠ 0 ∨ b 16 8 % z ≠ 0 ∨ 2 ^ 39 ≤ b 8 8 ∨ 2 ^ 39 ≤ b 16 8) := by omega
    simp only [show pageSize (fieldAt (mboxBytes m) 1 1) = some z from hz] at he
    rw [if_neg hg] at he
    refine ⟨_, he, rfl, rfl, rfl, ?_⟩
    obtain ⟨hm, hi⟩ := foldl_setLine_migs s.coh (fun l => { l with state := .i, owner := none, holders := [] })
      (s.coh.lines.filter fun l => inPage l.addr (b 8 8) z && (s.lockOf l.addr).isNone)
    rw [← hm, ← hi]
    rfl
  case publishReset =>
    rintro c e d sz z s h ⟨hn, hz, hc, hw, hwait⟩
    show ∃ t, execPublishReset m s = _ ∧ _
    refine h.answered rfl ((forPart_of_lt hn _).trans ?_) rfl
    refine (if_neg (by rw [show pageSize (fieldAt (mboxBytes m) 2 1) = some z from hz]; exact Bool.false_ne_true)).trans ?_
    rw [resetPage_eq hz hc hw]
    exact if_neg (ne_true_of_eq_false hwait)
  case streamWindow =>
    rintro s h ⟨hi, hw, hn, he, hr⟩
    have hbit : (b 6 1).testBit 0 = (b 6 1 == 1) := by
      obtain h0 | h1 : b 6 1 = 0 ∨ b 6 1 = 1 := by omega
      · rw [h0]; rfl
      · rw [h1]; rfl
    show ∃ t, execStreamWindow m s = _ ∧ _
    refine h.answeredHm rfl ?_ rfl
    have hx : ¬(2 ≤ b 0 1 ∨ 8 ≤ b 1 1 ∨ 16 ≤ b 2 1 ∨ 2 ≤ b 6 1 ∨ ((b 6 1).testBit 0 = true ∧
        ¬(b 8 8 % 65536 = 0 ∧ b 16 8 % 65536 = 0 ∧ b 16 8 ≠ 0 ∧ b 24 8 % 4096 = 0 ∧ (s.part (b 2 1)).owns (b 8 8) (b 16 8) = true ∧
          (s.part (b 2 1)).owns (b 24 8) 4096 = true))) := by
      rintro (h' | h' | h' | h' | ⟨hb, h'⟩)
      · exact Nat.not_le.mpr hi h'
      · exact Nat.not_le.mpr hw h'
      · exact Nat.not_le.mpr hn h'
      · exact Nat.not_le.mpr he h'
      · exact h' (hr (beq_iff_eq.mp (hbit ▸ hb)))
    refine (if_neg hx).trans ?_
    rw [← hbit]
  case commWrite =>
    rintro c s h ⟨hn, hc⟩
    show ∃ t, execCommWrite m s = _ ∧ _
    refine h.answered rfl ((forPart_of_lt hn _).trans ?_) rfl
    rw [show parseComm s.dev.devNum (mboxPart m) (m.len - 8) ((mboxBytes m).drop 8) = some c from hc]
  case landingRing =>
    rintro s h ⟨hn, hlo, hhi, ha, ho, hu⟩
    show ∃ t, execLandingRing m s = _ ∧ _
    refine h.answered rfl ((forPart_of_lt hn _).trans ?_) rfl
    refine (if_neg ?_).trans (if_neg (ne_true_of_eq_false (congrArg (fun l => !l.isEmpty) hu)))
    show ¬(b 1 1 < 2 ∨ 10 < b 1 1 ∨ b 8 8 % 65536 ≠ 0 ∨ (!(s.part n).owns (b 8 8) (65600 * 2 ^ b 1 1)) = true)
    simp only [ho, Bool.not_true, Bool.false_eq_true, or_false]
    omega

end Sys2Proof.Claims
end

section
/-! PROOF. Two statements about every step fail, each in a state that its premises leave open: what the model answers there. -/

namespace Sys2Proof.Claims

open Sys2Proof.Machine Sys2Proof.Laws

/-! ## A word from a line with a parity fault, behind a serialising commit point (R53, R267) -/

theorem step_latched {s : State} {f : Fetched} (hl : s.latch = some f) (hp : probesFirst s f = false) : step s = runFetched s f := by
  unfold step stepOf
  simp only [hl, hp]
  rfl

theorem runFetched_parity {s : State} {f : Fetched} (hp : f.parity = false) :
    runFetched s f = runParity { s with latch := none, issue := some f.issue } (ctlOf f.word) := by
  unfold runFetched
  simp only [hp]
  rfl

/-- Trap 0x04 of a word waits, as any instruction does, behind a commit point that holds the word back. -/
theorem runParity_held {c : Ctl} {s : State} {v : Served} (hv : served (.nop c) s c = some v) (hb : v.g.holdsBack (.nop c) = true) :
    runParity s c = .next (s.stalled v.g.key) := by
  simp only [runParity, serveAll, hv, hb, if_true]

/-- The loader's group (log 1), with a serialising commit point that has dispatched: a SETSR of FPCTL for its thread 0. -/
def serialGroup : Group :=
  { (teamGroups loaderTeam 0 loaderLaunch [loaderCore] 0).headD default with
    commit := some ⟨0x1000, 0, false, Mask.bit 0, 0, [.sreg .fpctl], [], false, 0, false⟩ }

/-- A word that its thread 1 has fetched from a line with a parity fault. -/
def parityWord : Fetched := ⟨⟨serialGroup.key, Mask.bit 1, 0x1000⟩, 0, false, true⟩

def serialState : State := { State.reset with groups := [serialGroup], latch := some parityWord }

/-- The word waits behind the commit point, and no trap has been taken. -/
theorem step_serialState :
    step serialState = .next ({ serialState with latch := none, issue := some parityWord.issue }.stalled serialGroup.key) := by
  have hb : serialGroup.holdsBack (.nop (ctlOf parityWord.word)) = true := by decide +kernel
  rw [step_latched (f := parityWord) rfl rfl, runFetched_parity rfl]
  exact runParity_held (v := ⟨serialGroup, parityWord.issue.run, parityWord.issue.run &&& guardOf serialGroup.arch (ctlOf parityWord.word),
    parityWord.issue.pc, .nop (ctlOf parityWord.word), false⟩) rfl hb

/-- Refutes O57: it says of a word from a line with a parity fault that the trap waits at once, where a serialising commit point of another run
makes the word wait instead. -/
theorem not_stepRunsFetched : ¬ Obligations.StepRunsFetched := by
  unfold Obligations.StepRunsFetched
  intro h
  obtain ⟨hf, -⟩ := h serialState
  obtain ⟨-, hg⟩ := hf parityWord rfl rfl
  obtain ⟨hp, -⟩ := hg serialGroup rfl rfl (by decide +kernel) (by decide +kernel)
  obtain ⟨t, ht, hT⟩ := hp rfl
  cases step_serialState.symm.trans ht
  have hn : (State.group? (State.stalled { serialState with latch := none, issue := some parityWord.issue } serialGroup.key)
      serialGroup.key).bind Group.trap = none := by decide +kernel
  rw [hT.mine] at hn
  cases hn

/-! ## An instruction among the requests that wait in a mailbox (R245) -/

/-- The machine after reset, but for an instruction row in the list of requests that wait to be served. -/
def heldState : State :=
  { State.reset with dev := { State.reset.dev with held := [(⟨.die 0, 0, 0, 0, 0, []⟩, .nop (ctlOf 0))] } }

/-- The request that waits is the next event, and no group issues it. -/
theorem step_heldState : step heldState = .fault .noGroup := by
  have he : heldState.nextEvent = some (0, .nop (ctlOf 0)) := by decide +kernel
  show (match heldState.nextEvent with
    | some e => runEvent { heldState with cur := none } e.1 e.2
    | none => .next { heldState with cur := none }) = _
  rw [he]
  rfl

/-- Refutes O60: no premise says that the requests that wait in a mailbox are events, and a step may run one that is an instruction, which
no group issues. -/
theorem not_neverStops : ¬ Obligations.NeverStops := by
  unfold Obligations.NeverStops
  rintro ⟨-, -, -, h⟩
  obtain ⟨t, ht⟩ := h heldState ⟨fun f hf => (by cases hf), fun e he => (List.not_mem_nil he).elim⟩
  cases step_heldState.symm.trans ht

end Sys2Proof.Claims
end

section
/-! PROOF. Words that do nothing, and words that trap before they act (R27, R50, R88, R124, R278, R279). -/

namespace Sys2Proof.Claims

open Sys2Proof.Machine Sys2Proof.Laws

/-! ## Serving a word that does not act -/

section
variable {i : Instr} {c : Ctl} {s : State} {g : Group} {run : Mask} {pc : Dword}

/-- An instruction that is neither a collective point nor a commit point is served by `serve`, with a body of its own. -/
theorem exec_eq_serve (hc : i.ctl = some c) (ha : actsAlone i = false) : ∃ body : State → Served → Res, ∀ s, exec i s = serve i c s (body s) := by
  cases i with
  | fence c' k sc =>
    cases hc
    cases k with
    | sc => cases ha
    | acq | rel | ar => exact ⟨_, fun _ => rfl⟩
  | setsr c' r a =>
    cases hc
    cases r with
    | fpctl | scopemd | arena | thand | clkreq | sensev | rstrt => cases ha
    | _ => exact ⟨_, fun _ => rfl⟩
  | gsync | lxch | lvote | lred | lscn | getl | putl | tmac | barsync | tret | exit | trap | atom | acas | wqenq | launch | wqdeq | narm
  | llock | lunlk | pub | coll | nsend | bfree => cases ha
  | _ => cases hc <;> exact ⟨_, fun _ => rfl⟩

/-- A word for which a region head would find room (R62), whatever registers it names: a word without operands is admitted there. -/
theorem Turn.admitted_nop (T : Turn s g run pc) (hh : c.hd = true → g.unverified < 4) : Admitted (.nop c) c s g run pc := ⟨T, hh, rfl⟩

/-- With no lane active an instruction retires as a no-op (R278, R279). -/
theorem serve_idle (T : Turn s g run pc) (hrun : run ≠ 0) (hh : c.hd = true → g.unverified < 4) (hb : g.holdsBack i = false)
    (ha : active c g run = 0) (U : Untainted i g run 0) (body : Served → Res) :
    ∃ t h, serve i c s body = .next t ∧ Issued i c s t g h run 0 pc 0 ∧ SameRegs g.arch h.arch := by
  have ht : Served.tainted ⟨headOf c s g, run, 0, pc, i, c.hd⟩ = 0 := tainted_of U _ (headOf_arch ..) rfl rfl rfl
  obtain ⟨h, hI, hr⟩ := issued_of_done (i := i) (c := c) (fl := 0) (act := 0) (b := g.arch) T.here T.free hrun rfl rfl rfl rfl (by simp)
    ⟨headOf c s g, run, 0, pc, i, c.hd⟩ (headOf_arch ..) rfl rfl rfl rfl
  refine ⟨_, h, ?_, hI, hr⟩
  have hv : served i s c = some ⟨g, run, 0, pc, i, false⟩ := (served_of T i c).trans (by rw [show run &&& guardOf g.arch c = 0 from ha])
  have hk : ({ headOf c s g with arch := g.arch } : Group) = headOf c s g := by rw [← headOf_arch c s g]
  simp only [serve, hv, hb, headed_admitted (T.admitted_nop hh), ht, hk, ne_eq, not_true_eq_false, decide_true, decide_false, Bool.false_and,
    Bool.and_self, Bool.false_eq_true, if_false, if_true]

/-- With a lane active and a register past the declared counts it takes trap 0x02 (R27). -/
theorem serve_undeclared (T : Turn s g run pc) (hh : c.hd = true → g.unverified < 4) (hb : g.holdsBack i = false)
    (ha : active c g run ≠ 0) (hu : g.unready i run = false) (hd : i.regs.all g.declares = false) (body : Served → Res) :
    ∃ t, serve i c s body = .next t ∧ Trapped c s t g ⟨0x02, pc, active c g run, 0, 0⟩ := by
  refine ⟨_, ?_, trapped_of T.here rfl ⟨headOf c s g, run, active c g run, pc, i, c.hd⟩⟩
  have hv : served i s c = some ⟨g, run, active c g run, pc, i, false⟩ := served_of T i c
  simp only [serve, hv, hb, hu, headed_admitted (T.admitted_nop hh), headOf_declares, hd, ha, ne_eq, not_false_eq_true, decide_true, decide_false,
    Bool.false_and, Bool.and_false, Bool.not_false, Bool.and_self, Bool.false_eq_true, if_false, if_true]
  rfl

/-! ## Blocks that are covered in part (R88) -/

@[simp] theorem headOf_w (c : Ctl) (s : State) (g : Group) : (headOf c s g).w = g.w := by unfold headOf; split <;> rfl

/-- An MX instruction that finds a block only partly covered by its active lanes takes trap 0x02. -/
theorem mxWhole_partly {ty : Ty} {v : Served} {q : Nat} (hq : q < mxBlocks ty v.g.w) (hn : mxCover ty v.act q = none) (body : Unit → Res) :
    mxWhole ty v s body = v.trap s 0x02 v.act 0 := by
  refine if_neg fun h => ?_
  have := List.all_eq_true.mp h q (List.mem_range.mpr hq)
  rw [hn] at this
  cases this

/-- An able instruction whose body takes a trap, before anything else, has taken it. -/
theorem serve_trapped (A : Able i c s g run pc) {body : Served → Res} {tr : Trap}
    (hb : body ⟨headOf c s g, run, active c g run, pc, i, c.hd⟩ = .trap s (headOf c s g) tr) :
    ∃ t, serve i c s body = .next t ∧ Trapped c s t g tr :=
  ⟨_, by rw [serve_able A, hb], trapped_of A.here rfl _⟩

/-- So does every instruction whose body asks first that its blocks be covered. -/
theorem mxWhole_traps (A : Able i c s g run pc) {ty : Ty} {q : Nat} (hq : q < mxBlocks ty g.w) (hn : mxCover ty (active c g run) q = none)
    (body : Served → Unit → Res) :
    ∃ t, serve i c s (fun v => mxWhole ty v s (body v)) = .next t ∧ Trapped c s t g ⟨0x02, pc, active c g run, 0, 0⟩ :=
  serve_trapped A (mxWhole_partly (by rwa [headOf_w]) hn _)

/-! ## Misaligned accesses (R124) -/

/-- An access that no XFENCE of its group comes before is ordered by nothing more (R186). -/
theorem xgate_unfenced (hu : Unfenced g) (seq : Nat) : xgate s g 0 seq = some g := by
  have hm : (g.arch.mem.xfences.filter fun x => decide (x.dst = 0 ∧ x.seq < seq)) = [] :=
    List.filter_eq_nil_iff.mpr fun x hx h => hu x hx (of_decide_eq_true h).1
  have hk : (g.arch.mem.xfences.filter fun x => decide (x.dst ≠ 0 ∨ seq ≤ x.seq)) = g.arch.mem.xfences :=
    List.filter_eq_self.mpr fun x hx => decide_eq_true (.inl (hu x hx))
  simp only [xgate, hm, List.any_nil, List.foldl_nil, hk, Bool.false_eq_true, if_false]

theorem lanes_bit {L : Nat} (hL : L < 64) : (Mask.bit L).lanes = [L] := by
  have hf : (Mask.bit L).has = fun K => K == L := funext fun K => by
    rw [mask_has_bit]
    by_cases h : L = K
    · subst h; simp [hL]
    · simp [h, Ne.symm h]
  show (List.range 64).filter (Mask.bit L).has = [L]
  rw [hf, List.filter_beq, List.count_eq_one_of_mem List.nodup_range (List.mem_range.mpr hL)]
  rfl

theorem ofLanes_singleton (L : Nat) : Mask.ofLanes [L] = Mask.bit L := BitVec.zero_or

/-- The access of one lane that is misaligned takes trap 0x05, with the lane's address. -/
theorem memBody_misaligned {v : Served} {L : Nat} (ha : v.act = Mask.bit L) (hL : L < 64) (hu : Unfenced v.g) {align : Nat} {ad : Nat → Nat}
    (hm : ad L % align ≠ 0) (k : Access) (sp : Space) (size : Nat) (extra : Acc → Option Nat) (body : State → Served → List Acc → Res) :
    memBody v s k sp size align ad extra body = .trap s v.g ⟨0x05, v.pc, Mask.bit L, BitVec.ofNat 64 (ad L), 0⟩ := by
  have hl : laneAcc s v.g k sp size align L (ad L) = .bad 0x05 := if_pos hm
  rw [← ofLanes_singleton]
  simp only [memBody, probeBody, xgate_unfenced hu, ha, lanes_bit hL, List.map_cons, List.map_nil, hl]
  rfl

/-- So an able load or store of one lane traps. -/
theorem misaligned_traps (A : Able i c s g run pc) {L : Nat} (ha : active c g run = Mask.bit L) (hL : L < 64) (hu : Unfenced g) {align : Nat}
    {ad : Arch → Nat → Nat} (hm : ad g.arch L % align ≠ 0) (k : Access) (sp : Space) (size : Nat) (extra : Acc → Option Nat)
    (body : Served → State → Served → List Acc → Res) :
    ∃ t, serve i c s (fun v => memBody v s k sp size align (ad v.g.arch) extra (body v)) = .next t ∧
      Trapped c s t g ⟨0x05, pc, active c g run, BitVec.ofNat 64 (ad g.arch L), 0⟩ := by
  have hu' : Unfenced (headOf c s g) := by rw [Unfenced, headOf_arch]; exact hu
  refine serve_trapped A ((memBody_misaligned (L := L) ha hL hu' (by rwa [headOf_arch]) ..).trans ?_)
  rw [headOf_arch, ha]

end

/-- Settles O8: an instruction that acts for its group alone is served by `serve`, which does nothing for no active lane and traps an
undeclared register; the bodies of MX forms and of accesses trap before they act. -/
theorem trapsAndNoOps : Obligations.TrapsAndNoOps := by
  unfold Obligations.TrapsAndNoOps
  refine ⟨?_, ?_, ?_⟩
  · intro i c s g run pc hc ha T hrun hh hb
    obtain ⟨body, he⟩ := exec_eq_serve hc ha
    rw [he]
    exact ⟨fun h0 U => serve_idle T hrun hh hb h0 U _, fun h0 hu hd => serve_undeclared T hh hb h0 hu hd _⟩
  · intro c rnd ty d a b e i s g run pc q hi A hq hn
    simp only [List.mem_cons, List.not_mem_nil, or_false] at hi
    obtain rfl | rfl | rfl | rfl | rfl | rfl := hi <;> exact mxWhole_traps A hq hn _
  · intro c sp hint ty d t1 t2 t3 L i hi s g run pc A ⟨hact, hL, hu, hm⟩
    simp only [List.mem_cons, List.not_mem_nil, or_false] at hi
    obtain rfl | rfl := hi <;>
      exact misaligned_traps (ad := fun r => addrSum r (memBytes ty) t1 t2 t3) A hact hL hu hm ..

end Sys2Proof.Claims
end

section
/-! PROOF. Branches, calls, NOP, EXIT, CEDE and DBRK (R268, R270, R295, R296, R301, R313, R314, R339, R340, R371, R385). -/

namespace Sys2Proof.Claims

open Sys2Proof.Machine Sys2Proof.Laws

/-! ## What issuing leaves of a group -/

section
variable {i : Instr} {c : Ctl} {s : State} {g k : Group} {run act : Mask} {pc : Dword} {fl : Flg}

theorem pc_setPcs (a : Arch) (m : Mask) (f : Nat → Dword) {L : Nat} (hL : L < a.pcs.length) :
    (a.setPcs m f).pc L = if m.has L then f L else a.pc L := by
  simp only [Arch.pc, Arch.setPcs, List.getD_eq_getElem?_getD, List.getElem?_mapIdx, List.getElem?_eq_getElem hL]
  rfl

theorem length_setPcs (a : Arch) (m : Mask) (f : Nat → Dword) : (a.setPcs m f).pcs.length = a.pcs.length := List.length_mapIdx

theorem mask_has_diff (m n : Mask) (L : Nat) : (m &&& ~~~n).has L = (m.has L && !n.has L) := by
  by_cases hL : L < 64
  · simp [Mask.has, hL]
  · simp [Mask.has, hL, BitVec.getLsbD_of_ge m L (Nat.le_of_not_lt hL)]

/-- A group once it has dispatched an instruction for a run and counted it, where `old` is the group as it was served. -/
def issuedFor (i : Instr) (pc : Dword) (run act : Mask) (fl : Flg) (old k : Group) : Group :=
  (k.dispatch i pc run act fl old.arch).noteIssue old run

theorem issued_eq {v : Served} (hf : run &&& k.arch.parked = 0) (hr : run ≠ 0) (ha : v.act &&& run = v.act) :
    k.issued v run fl = issuedFor v.i v.pc run v.act fl v.g k := by
  simp only [Group.issued, and_compl_of_disjoint hf, if_neg hr, ha]
  rfl

theorem issuedFor_seq (old : Group) : (issuedFor i pc run act fl old k).seq = k.seq + 1 := (noteIssue_rest _ _ _).2.1

theorem issuedFor_key (old : Group) : (issuedFor i pc run act fl old k).key = k.key := (noteIssue_rest _ _ _).2.2.2.2.1

/-- Nothing but what every issue changes is other than before. -/
theorem withIssueOf_issuedFor (x old : Group) : withIssueOf x (issuedFor i pc run act fl old k) = withIssueOf x k :=
  calc withIssueOf x (issuedFor i pc run act fl old k)
      = withIssueOf x (withIssueOf (k.dispatch i pc run act fl old.arch) (issuedFor i pc run act fl old k)) := rfl
    _ = withIssueOf x (k.dispatch i pc run act fl old.arch) := congrArg _ (noteIssue_rest _ old run).2.2.2.2.2
    _ = withIssueOf x k := rfl

theorem withIssueOf_headOf (c : Ctl) (s : State) (g : Group) (a : Arch) : withIssueOf g { headOf c s g with arch := a } = g := by
  unfold headOf
  cases c.hd <;> rfl

/-- Of the registers only the guard-turn state (R31) is. -/
theorem issuedFor_arch (old : Group) :
    SameRegs k.arch (issuedFor i pc run act fl old k).arch ∧ (issuedFor i pc run act fl old k).arch.pcs = k.arch.pcs ∧
      ∀ a, withRegsOf a (issuedFor i pc run act fl old k).arch = withRegsOf a k.arch := by
  obtain ⟨n, t, r, h⟩ := noteIssue_arch (k.dispatch i pc run act fl old.arch) old run
  rw [issuedFor, h]
  exact ⟨⟨rfl, rfl, rfl, rfl⟩, rfl, fun _ => rfl⟩

/-- What CEDE holds back stands while the run holds any of it (R301). -/
theorem issuedFor_ceded (old : Group) : (issuedFor i pc run act fl old k).ceded = if run &&& k.ceded = 0 then 0 else k.ceded := by
  unfold issuedFor Group.noteIssue
  rw [endTurn_rest]
  rfl

/-- The group that an instruction has dispatched for has its entry and its threads where the instruction has put them. -/
theorem entered_of_issued {obj : List ObjImage} {to_ : Nat → Dword} (hg : s.group? g.key = some g) (hk : k.key = g.key) (hr : k.rob = g.rob)
    (hs : k.seq = (headOf c s g).seq) (hc : k.ckpts = (headOf c s g).ckpts) (ho : k.objs = obj ++ g.objs)
    (hp : ∀ L, L < g.arch.pcs.length → k.arch.pc L = if run.has L then to_ L else g.arch.pc L) :
    Entered c s (s.setGroup (issuedFor i pc run act fl (headOf c s g) k)) g (issuedFor i pc run act fl (headOf c s g) k) run
      (entryOf i (headOf c s g) pc run act fl obj) to_ := by
  obtain ⟨f1, f2, f3, f4, f5, -⟩ := noteIssue_rest (k.dispatch i pc run act fl (headOf c s g).arch) (headOf c s g) run
  have hkey : (issuedFor i pc run act fl (headOf c s g) k).key = g.key := f5.trans hk
  have hd : k.depsOf i = (headOf c s g).depsOf i := by rw [Group.depsOf, Group.depsOf, hr, headOf_rob]
  refine ⟨?_, setGroup_mine s g _ hkey hg, f1.trans ?_, f2.trans ?_, f3.trans hc, f4, ?_⟩
  · rw [← hkey]; exact (setGroup_only s _).others
  · simp only [Group.dispatch, hr, hs, ho, hd, entryOf, headOf_arch, headOf_objs]
  · simp only [Group.dispatch, hs]
  · intro L hL
    rw [← hp L hL, Arch.pc, (issuedFor_arch _).2.1]
    rfl

/-- An able instruction that has placed its run itself has dispatched. -/
theorem serve_moved (A : Able i c s g run pc) {body : Served → Res} {obj : List ObjImage} {to_ : Nat → Dword}
    (hb : body ⟨headOf c s g, run, active c g run, pc, i, c.hd⟩ = .moved s k run fl) (hk : k.key = g.key) (hr : k.rob = g.rob)
    (hs : k.seq = (headOf c s g).seq) (hc : k.ckpts = (headOf c s g).ckpts) (ho : k.objs = obj ++ g.objs)
    (hf : k.arch.parked = g.arch.parked) (hp : ∀ L, L < g.arch.pcs.length → k.arch.pc L = if run.has L then to_ L else g.arch.pc L) :
    ∃ t, serve i c s body = .next t ∧ Entered c s t g (issuedFor i pc run (active c g run) fl (headOf c s g) k) run
      (entryOf i (headOf c s g) pc run (active c g run) fl obj) to_ ∧ World t s := by
  refine ⟨_, ?_, entered_of_issued A.here hk hr hs hc ho hp, rfl⟩
  rw [serve_able A, hb]
  exact congrArg (fun h => Host.Outcome.next (s.setGroup h)) (issued_eq (by rw [hf]; exact A.free) (run_ne_zero A) (act_and_run ..))

/-- One that has not placed it goes on to the next slot. -/
theorem serve_done (A : Able i c s g run pc) {body : Served → Res} {obj : List ObjImage}
    (hb : body ⟨headOf c s g, run, active c g run, pc, i, c.hd⟩ = .done s k fl) (hk : k.key = g.key) (hr : k.rob = g.rob)
    (hs : k.seq = (headOf c s g).seq) (hc : k.ckpts = (headOf c s g).ckpts) (ho : k.objs = obj ++ g.objs) (ha : k.arch = g.arch) :
    ∃ t, serve i c s body = .next t ∧
      Entered c s t g (issuedFor i pc run (active c g run) fl (headOf c s g) { k with arch := g.arch.setPcs run fun _ => nextPc pc }) run
        (entryOf i (headOf c s g) pc run (active c g run) fl obj) (fun _ => nextPc pc) ∧ World t s := by
  have hm : conclude ⟨headOf c s g, run, active c g run, pc, i, c.hd⟩ (.done s k fl) =
      conclude ⟨headOf c s g, run, active c g run, pc, i, c.hd⟩ (.moved s { k with arch := g.arch.setPcs run fun _ => nextPc pc } run fl) := by
    simp only [conclude, ha, and_compl_of_disjoint A.free]
  obtain ⟨t, h1, h2⟩ := serve_moved A (body := fun _ => .moved s { k with arch := g.arch.setPcs run fun _ => nextPc pc } run fl)
    (to_ := fun _ => nextPc pc) rfl hk hr hs hc ho rfl fun L hL => pc_setPcs _ _ _ hL
  refine ⟨t, ?_, h2⟩
  rw [← h1, serve_able A, serve_able A, hb, hm]

end

/-! ## Branches (R29, R268) -/

section
variable {i : Instr} {c : Ctl} {s : State} {g : Group} {run : Mask} {pc : Dword} {L : Nat}

theorem branchTarget_eq (pc : Dword) (tslot : BitVec 3) (off : BitVec 32) :
    branchTarget pc tslot off = (pc &&& ~~~(63 : Dword)) + off.signExtend 64 * 64 + tslot.setWidth 64 := by
  rw [branchTarget, BitVec.shiftLeft_eq_mul_twoPow]
  rfl

theorem checkTarget_headOf (c : Ctl) (s : State) (g : Group) (p : Dword) : checkTarget s (headOf c s g) p = checkTarget s g p := by
  unfold headOf
  cases c.hd <;> rfl

/-- The registers once the active lanes of a branch stand at their targets and the others at the next slot. -/
def landed (v : Served) (target : Nat → Dword) (a : Arch) : Arch :=
  (a.setPcs (v.run &&& ~~~v.act) fun _ => nextPc v.pc).setPcs v.act target

/-- Two masks with the same lanes are the same. -/
theorem mask_ext {m n : Mask} (h : ∀ L, L < 64 → m.has L = n.has L) : m = n := BitVec.eq_of_getLsbD_eq h

theorem ofLanes_lanes (m : Mask) : Mask.ofLanes m.lanes = m := mask_ext fun L hL => by
  rw [mask_has_ofLanes, decide_eq_true hL, Bool.true_and, Bool.eq_iff_iff, List.contains_iff_mem, mem_lanes]

theorem lanes_of_low? {m : Mask} {L : Nat} (h : m.low? = some L) : ∃ t, m.lanes = L :: t := by
  have hd : m.lanes.head? = some L := (List.head?_filter ..).trans h
  cases hl : m.lanes with
  | nil => rw [hl] at hd; cases hd
  | cons K t => rw [hl] at hd; cases hd; exact ⟨t, rfl⟩

theorem low?_ne_none {m : Mask} (h : m ≠ 0) : ∃ L, m.low? = some L := by
  refine Option.ne_none_iff_exists'.mp fun hn => h (mask_ext fun L hL => ?_)
  rw [mask_has_zero]
  exact Bool.eq_false_iff.mpr (List.find?_eq_none.mp hn L (List.mem_range.mpr hL))

theorem and_compl_none (m : Mask) : m &&& ~~~(Mask.ofLanes []) = m := by
  rw [show ~~~(Mask.ofLanes []) = BitVec.allOnes 64 from rfl, BitVec.and_allOnes]

section
variable {v : Served} {target : Nat → Dword} (link : Arch → Mask → Arch)

/-- Where no target wants a translation, no lane parks, and the first lane whose target fails its check, if there is one, decides. -/
theorem branch_present {r : TargetRes} (hr : ∀ p, r ≠ .absent p) (h : ∀ L ∈ v.act.lanes, checkTarget s v.g (target L) = r) :
    branch v s target link =
      match v.act.lanes.filterMap fun L => r.cause?.map fun k => (L, k) with
      | (L, k) :: t =>
        .trap s v.g ⟨k, v.pc, Mask.ofLanes ((((L, k) :: t).filter fun e => e.2 = k).map Prod.fst), target L, 0⟩
      | [] => .moved s { v.g with arch := landed v target (link v.g.arch v.act) } v.run 0 := by
  have hc : ∀ L ∈ v.act.lanes, ((checkTarget s v.g (target L)).cause?.map fun k => (L, k)) = r.cause?.map fun k => (L, k) :=
    fun L hL => by rw [h L hL]
  simp only [branch]
  rw [List.filterMap_eq_nil_iff.mpr fun L hL => ?_]
  · simp only [List.map_nil, and_compl_none]
    rw [List.filterMap_congr hc]
    cases v.act.lanes.filterMap fun L => r.cause?.map fun k => (L, k) <;> rfl
  · rw [h L hL]
    cases r with
    | absent p => exact (hr p rfl).elim
    | _ => rfl

/-- With every target legal the active lanes go there, and what a call writes is written. -/
theorem branch_ok (h : ∀ L ∈ v.act.lanes, checkTarget s v.g (target L) = .ok) :
    branch v s target link = .moved s { v.g with arch := landed v target (link v.g.arch v.act) } v.run 0 := by
  rw [branch_present link (fun _ => TargetRes.noConfusion) h, show (fun L => TargetRes.ok.cause?.map fun k => (L, k)) = fun _ => none from rfl,
    List.filterMap_none]

/-- With every target illegal no lane moves, and the lowest lane's target is the trap's address. -/
theorem branch_illegal {L : Nat} (hL : v.act.low? = some L) (h : ∀ L ∈ v.act.lanes, checkTarget s v.g (target L) = .illegal) :
    branch v s target link = .trap s v.g ⟨0x03, v.pc, v.act, target L, 0⟩ := by
  obtain ⟨t, ht⟩ := lanes_of_low? hL
  have hk : (v.act.lanes.filterMap fun L => TargetRes.illegal.cause?.map fun k => (L, k)) = (L, 0x03) :: t.map fun K => (K, 0x03) := by
    rw [ht]
    exact congrFun (List.filterMap_eq_map (f := fun K => (K, 0x03))) (L :: t)
  have hm : Mask.ofLanes ((((L, 0x03) :: t.map fun K => (K, 0x03)).filter fun e => e.2 = 0x03).map Prod.fst) = v.act := by
    rw [List.filter_eq_self.mpr (by simp), List.map_cons, List.map_map]
    exact (congrArg (fun l => Mask.ofLanes (L :: l)) (List.map_id t)).trans (ht ▸ ofLanes_lanes v.act)
  rw [branch_present link (fun _ => TargetRes.noConfusion) h, hk]
  exact congrArg (fun m => Res.trap s v.g ⟨0x03, v.pc, m, target L, 0⟩) hm

end

theorem active_sub_run (h : (active c g run).has L = true) : run.has L = true := by
  rw [active, mask_has_and, Bool.and_eq_true] at h
  exact h.1

/-- Every branch, call and return: `target` is where a lane goes, and a call writes the next slot's PC to `link`. -/
theorem branches_of {link : Opd} {target : Group → Dword → Nat → Dword}
    (ht : ∀ (s : State) (g : Group) pc L, target (headOf c s g) pc L = target g pc L)
    (he : ∀ s, exec i s = serve i c s fun v => branch v s (target v.g v.pc) fun a m => writeDst a true link m fun _ => nextPc v.pc) :
    Branches i c link target := by
  intro s g run pc A
  have htg : target (headOf c s g) pc = target g pc := funext fun L => ht s g pc L
  have hw := writeDst_regs g.arch true link (active c g run) fun _ => nextPc pc
  set b := writeDst g.arch true link (active c g run) fun _ => nextPc pc
  have hpk : b.parked = g.arch.parked :=
    (congrArg Arch.parked hw.1 : (withRegsOf g.arch b).parked = g.arch.parked)
  refine ⟨fun hok => ?_, fun hbad => ?_⟩
  · set v : Served := ⟨headOf c s g, run, active c g run, pc, i, c.hd⟩
    have hp : ∀ L, L < g.arch.pcs.length → (landed v (target g pc) b).pc L =
        if run.has L then (if (active c g run).has L then target g pc L else nextPc pc) else g.arch.pc L := fun L hL => by
      have hl : L < b.pcs.length := hw.2 ▸ hL
      have hb : b.pc L = g.arch.pc L := by rw [Arch.pc, hw.2]; rfl
      rw [landed, pc_setPcs _ _ _ (by rwa [length_setPcs]), pc_setPcs _ _ _ hl, mask_has_diff, hb]
      cases h1 : (active c g run).has L with
      | true => rw [active_sub_run h1]; rfl
      | false => cases run.has L <;> rfl
    obtain ⟨t, h1, h2, h3⟩ := serve_moved A (k := { headOf c s g with arch := landed v (target g pc) b }) (obj := [])
      (body := fun v => branch v s (target v.g v.pc) fun a m => writeDst a true link m fun _ => nextPc v.pc)
      ((branch_ok _ fun L hL => by rw [htg, checkTarget_headOf]; exact hok L (mem_lanes.mp hL)).trans (by rw [htg, headOf_arch]))
      (headOf_key ..) (headOf_rob ..) rfl rfl (headOf_objs ..) hpk hp
    obtain ⟨hr, -, ha⟩ := issuedFor_arch (i := i) (pc := pc) (run := run) (act := active c g run) (fl := 0)
      (k := { headOf c s g with arch := landed v (target g pc) b }) (headOf c s g)
    refine ⟨t, _, (he s).trans h1, h2, h3, (ha _).trans hw.1, ?_, written_of_regs (writeDst_written ..) hr⟩
    rw [withIssueOf_issuedFor, withIssueOf_headOf]
  · obtain ⟨L, hL⟩ := low?_ne_none A.lanes
    obtain ⟨t, h1, h2⟩ := serve_trapped A (body := fun v => branch v s (target v.g v.pc) fun a m => writeDst a true link m fun _ => nextPc v.pc)
      (branch_illegal _ hL fun L hL => by
        rw [htg, checkTarget_headOf]
        exact hbad L (mem_lanes.mp hL))
    rw [htg] at h2
    exact ⟨t, L, (he s).trans h1, hL, h2⟩

end
/-! ## EXIT at its gate (R38, R67, R314) -/

section
variable {i : Instr} {c : Ctl} {s s' : State} {g : Group} {run : Mask} {pc : Dword} {k : Commit} {fl : Flg} {body : Served → Res} {b : Arch}

/-- A commit point at its gate whose body places its run itself, and of its group changes registers alone. -/
theorem serve_atGate_moved (A : AtGate i c s g run pc k)
    (h : body ⟨g, run, active c g run, pc, i, false⟩ = .moved s' { g with arch := b } run fl) (hf : b.parked = g.arch.parked) :
    serveCommit i c s body = .next ((s'.setGroup (issuedFor i pc run (active c g run) fl g { g with arch := b, commit := none })).updGroup g.key
      fun x => x.completes s.now k g) := by
  have hrun : run ≠ 0 := by rintro rfl; exact A.lanes (by simp)
  obtain ⟨hc, hp, hr⟩ := A.mine
  have hopen : (!k.begun && !(g.verifiedAt k.seq && g.drainedTo k.seq)) = false := by
    rcases A.gate with hb | ⟨h1, h2⟩
    · simp [hb]
    · simp [h1, h2]
  have hact : active c g run ≠ 0 := A.lanes
  have hs : served i s c = some ⟨g, run, active c g run, pc, i, false⟩ := served_of A.toTurn i c
  have hk : g.commit.filter (fun k => k.pc == pc && k.run == run) = some k := by simp [hc, hp, hr]
  have hcl := clean_of (tainted_of A.sound ⟨g, run, active c g run, pc, i, false⟩ rfl rfl rfl rfl) s body
  have hi : ({ g with arch := b, commit := none } : Group).issued ⟨g, run, active c g run, pc, i, false⟩ run fl = _ :=
    issued_eq (by rw [hf]; exact A.free) hrun (act_and_run ..)
  simp only [serveCommit, hs, A.regs, gate, hk, hopen, hact, hcl, h, conclude, hi, decide_false, Bool.false_and, if_false, Bool.not_true,
    Bool.false_eq_true]

/-- A group that has issued at its gate, and of which else only its commit point is gone, has committed. -/
theorem committed_of_completes {to_ : Nat → Dword} (A : AtGate i c s g run pc k) {n : Group} (hs : s'.groups = s.groups) (hkey : n.key = g.key)
    (hseq : n.seq = g.seq + 1) (hw : withIssueOf g n = { g with commit := none })
    (hp : ∀ L, L < g.arch.pcs.length → n.arch.pc L = if run.has L then to_ L else g.arch.pc L) :
    Committed s ((s'.setGroup n).updGroup g.key fun x => x.completes s.now k g) g (n.completes s.now k g) k run to_ ∧
      SameAfterCommit g (n.completes s.now k g) := by
  have hkeep : ∀ z : Group, (z.completes s.now k g).key = z.key := fun _ => rfl
  have hg : s'.group? g.key = some g := (congrArg (List.find? fun h : Group => decide (h.key = g.key)) hs).trans A.here
  have hmine : (s'.setGroup n).group? g.key = some n := setGroup_mine s' g n hkey hg
  have hr : n.rstrt = g.rstrt := (congrArg Group.rstrt hw :)
  have ht : n.trap = g.trap := (congrArg Group.trap hw :)
  refine ⟨⟨fun q hq => ?_, ?_, ?_, hseq, completes_ckpts .., rfl, rfl, ?_, hp⟩, ?_, fun h0 => ?_⟩
  · rw [updGroup_other _ hq _ fun z hz => (hkeep z).trans hz, (setGroup_only s' n).others q (hkey ▸ hq)]
    exact congrArg (List.find? fun h : Group => decide (h.key = q)) hs
  · exact updGroup_get _ g.key _ (fun z hz => (hkeep z).trans hz) _ hmine
  · show ((g.rob.filter fun e => decide (k.seq < e.seq)).map _).map bare = _
    rw [List.map_map]
    rfl
  · show n.rstrt &&& ~~~(0xF00000000 : Dword) ||| BitVec.ofNat 64 (0 * 2 ^ 32) = _
    rw [hr]
    simp
  · show ({ withIssueOf g n with commit := g.commit, behind := g.behind, rstrt := g.rstrt, trap := g.trap } : Group) = g
    rw [hw]
  · show (if n.trap.any fun t => t.cause == 0x11 then _ else n.trap) = g.trap
    rw [ht, if_neg (by rw [h0]; exact Bool.false_ne_true)]

/-- A commit point at its gate whose body places its run itself, and of its group changes registers alone, commits. -/
theorem committed_of_moved {to_ : Nat → Dword} (A : AtGate i c s g run pc k)
    (h : body ⟨g, run, active c g run, pc, i, false⟩ = .moved s' { g with arch := b } run fl) (hs : s'.groups = s.groups)
    (hf : b.parked = g.arch.parked) (hp : ∀ L, L < g.arch.pcs.length → b.pc L = if run.has L then to_ L else g.arch.pc L) :
    ∃ t y, serveCommit i c s body = .next t ∧ Committed s t g y k run to_ ∧ SameRegs b y.arch ∧
      (∀ a, withRegsOf a y.arch = withRegsOf a b) ∧ SameAfterCommit g y ∧ { t with groups := s'.groups } = s' := by
  obtain ⟨hr, hpc, ha⟩ := issuedFor_arch (i := i) (pc := pc) (run := run) (act := active c g run) (fl := fl)
    (k := { g with arch := b, commit := none }) g
  obtain ⟨h1, h2⟩ := committed_of_completes (to_ := to_) A hs (issuedFor_key (k := { g with arch := b, commit := none }) g) (issuedFor_seq g)
    (withIssueOf_issuedFor ..) fun L hL => by rw [← hp L hL, Arch.pc, hpc]; rfl
  exact ⟨_, _, serve_atGate_moved A h hf, h1, hr, ha, h2, rfl⟩

/-- Outside a trap handler the active threads of an EXIT exit, and the others of its run fall through. -/
theorem exec_exit (A : AtGate (.exit c) c s g run pc k) (hm : g.arch.hmode = false) :
    ∃ t h, exec (.exit c) s = .next t ∧
      Committed s t g h k run (fun L => if (active c g run).has L then g.arch.pc L else nextPc pc) ∧ SameAfterCommit g h ∧
      SameRegs g.arch h.arch ∧ h.arch.exited = g.arch.exited ||| active c g run ∧
      withRegsOf g.arch { h.arch with exited := g.arch.exited } = g.arch ∧ t.ram = s.ram ∧ t.parts = s.parts := by
  set act := active c g run
  have hd : ∀ a : Arch, a.hmode = false → a.handlerDone = a := fun a ha => if_neg fun h => absurd (ha.symm.trans h.1) Bool.false_ne_true
  set b : Arch := { g.arch.setPcs (run &&& ~~~act) fun _ => nextPc pc with exited := g.arch.exited ||| act }
  have hp : ∀ L, L < g.arch.pcs.length → b.pc L = if run.has L then (if act.has L then g.arch.pc L else nextPc pc) else g.arch.pc L :=
    fun L hL => by
      refine (pc_setPcs _ _ _ hL).trans ?_
      rw [mask_has_diff]
      cases run.has L <;> cases act.has L <;> rfl
  obtain ⟨t, h, h1, h2, h3, h4, h5, h6⟩ := committed_of_moved A (s' := s.depart g act) (fl := 0) (b := b)
    (body := fun v => .moved (s.depart v.g v.act) { v.g with arch :=
      { v.g.arch.setPcs (v.run &&& ~~~v.act) fun _ => nextPc v.pc with exited := v.g.arch.exited ||| v.act }.handlerDone } v.run 0)
    (congrArg (fun a => Res.moved (s.depart g act) { g with arch := a } run 0) (hd b hm)) rfl rfl hp
  refine ⟨t, h, h1, h2, h5, h3, ?_, ?_, ?_, ?_⟩
  · exact congrArg Arch.exited (h4 g.arch)
  · exact congrArg (fun a : Arch => { a with exited := g.arch.exited }) (h4 g.arch)
  · exact (congrArg State.ram h6 :)
  · exact (congrArg State.parts h6 :)

end

/-! ## NOP, CEDE and DBRK (R301, R313, R371) -/

section
variable {c : Ctl} {s : State} {g : Group} {run : Mask} {pc : Dword} {imm : BitVec 32}

theorem exec_nop (A : Able (.nop c) c s g run pc) :
    ∃ t h, exec (.nop c) s = .next t ∧ Issued (.nop c) c s t g h run (active c g run) pc 0 ∧ SameRegs g.arch h.arch :=
  serve_writes (b := g.arch) (body := fun v => .done s v.g 0) A rfl rfl (by rw [← headOf_arch c s g])

/-- CEDE holds its active threads back from now on. -/
theorem exec_cede (A : Able (.cede c) c s g run pc) :
    ∃ t h, exec (.cede c) s = .next t ∧
      Entered c s t g h run (entryOf (.cede c) (headOf c s g) pc run (active c g run) 0) (fun _ => nextPc pc) ∧ World t s ∧
      SameArch g h ∧ SameRegs g.arch h.arch ∧ h.ceded = active c g run ∧ h.cededAt = s.now ∧
      withIssueOf g { h with cededAt := g.cededAt } = g := by
  have hact : run &&& active c g run ≠ 0 := by
    rw [BitVec.and_comm, act_and_run]
    exact A.lanes
  set k : Group := { headOf c s g with ceded := active c g run, cededAt := s.now, arch := g.arch.setPcs run fun _ => nextPc pc } with hk
  obtain ⟨t, h1, h2, h3⟩ := serve_done A (k := { headOf c s g with ceded := active c g run, cededAt := s.now }) (obj := []) (fl := 0)
    (body := fun v => .done s { v.g with ceded := v.act, cededAt := s.now } 0) rfl (headOf_key ..) (headOf_rob ..) rfl rfl (headOf_objs ..)
    (headOf_arch ..)
  obtain ⟨hr, -, ha⟩ := issuedFor_arch (i := .cede c) (pc := pc) (run := run) (act := active c g run) (fl := 0) (k := k) (headOf c s g)
  have hw : withIssueOf g (issuedFor (.cede c) pc run (active c g run) 0 (headOf c s g) k) = withIssueOf g k := withIssueOf_issuedFor ..
  refine ⟨t, _, h1, h2, h3, ha _, hr, (issuedFor_ceded _).trans (if_neg hact), (congrArg Group.cededAt hw :), ?_⟩
  refine (congrArg (fun h : Group => { h with cededAt := g.cededAt }) hw :).trans ?_
  rw [hk]
  unfold headOf
  cases c.hd <;> rfl

theorem ctxOf_headOf (c : Ctl) (s : State) (g : Group) : s.ctxOf (headOf c s g) = s.ctxOf g := by
  unfold headOf
  cases c.hd <;> rfl

/-- DBRK halts the group when a debugger is attached to its context. -/
theorem exec_dbrk (A : Able (.dbrk c imm) c s g run pc) (hd : (s.ctxOf g).any Context.debug = true) :
    ∃ t h, exec (.dbrk c imm) s = .next t ∧
      Entered c s t g h run (entryOf (.dbrk c imm) (headOf c s g) pc run (active c g run) 0 [.halt]) (fun _ => nextPc pc) ∧ World t s ∧
      SameArch g h ∧ SameRegs g.arch h.arch ∧ h.halt = some ⟨pc, active c g run, imm⟩ ∧ withIssueOf g { h with halt := g.halt } = g := by
  set q : Group := Group.noting { headOf c s g with halt := some ⟨pc, active c g run, imm⟩ } .halt
  have hw0 : withIssueOf g { headOf c s g with arch := g.arch.setPcs run fun _ => nextPc pc, halt := g.halt, objs := g.objs } = g := by
    unfold headOf
    cases c.hd <;> rfl
  obtain ⟨t, h1, h2, h3⟩ := serve_done A (k := q) (obj := [.halt]) (fl := 0)
    (body := fun v => if (s.ctxOf v.g).any Context.debug then
      .done s (Group.noting { v.g with halt := some ⟨v.pc, v.act, imm⟩ } .halt) 0 else v.trap s 0x10 v.act imm.toNat)
    (if_pos ((congrArg (fun o => Option.any Context.debug o) (ctxOf_headOf c s g)).trans hd)) (headOf_key ..) (headOf_rob ..) rfl rfl
    (congrArg (ObjImage.halt :: ·) (headOf_objs c s g)) (headOf_arch ..)
  set k : Group := { q with arch := g.arch.setPcs run fun _ => nextPc pc }
  obtain ⟨hr, -, ha⟩ := issuedFor_arch (i := .dbrk c imm) (pc := pc) (run := run) (act := active c g run) (fl := 0) (k := k) (headOf c s g)
  have hw : withIssueOf g (issuedFor (.dbrk c imm) pc run (active c g run) 0 (headOf c s g) k) = withIssueOf g k := withIssueOf_issuedFor ..
  refine ⟨t, _, h1, h2, h3, ha _, hr, (congrArg Group.halt hw :), ?_⟩
  exact (congrArg (fun h : Group => { h with halt := g.halt }) hw :).trans hw0

/-- It is trap 0x10 without one. -/
theorem exec_dbrk_undebugged (A : Able (.dbrk c imm) c s g run pc) (hd : (s.ctxOf g).any Context.debug = false) :
    ∃ t, exec (.dbrk c imm) s = .next t ∧ Trapped c s t g ⟨0x10, pc, active c g run, imm.setWidth 64, 0⟩ := by
  have ht : BitVec.ofNat 64 imm.toNat = imm.setWidth 64 := BitVec.eq_of_toNat_eq (by simp)
  rw [← ht]
  refine serve_trapped A (if_neg ?_)
  rw [ctxOf_headOf, hd]
  exact Bool.false_ne_true

end

/-- Settles O29: a branch sends its active lanes where its targets say, and each of the other instructions is served with its own body. -/
theorem controlFlow : Obligations.ControlFlow := by
  unfold Obligations.ControlFlow
  refine ⟨fun c tslot off d a => ?_, fun c imm s g run pc => ⟨fun k A hm => exec_exit A hm, exec_cede, exec_dbrk, exec_dbrk_undebugged⟩⟩
  have hnear : (fun (_ : Group) (pc : Dword) (_ : Nat) => (pc &&& ~~~(63 : Dword)) + off.signExtend 64 * 64 + tslot.setWidth 64) =
      fun _ pc _ => branchTarget pc tslot off := by
    funext _ pc _
    exact (branchTarget_eq pc tslot off).symm
  have hfar : ∀ (s : State) (g : Group) (_ : Dword) (L : Nat), readRaw (headOf c s g).arch true a L = readRaw g.arch true a L :=
    fun s g _ L => by rw [headOf_arch]
  intro near far
  have hn : near = fun _ pc _ => branchTarget pc tslot off := hnear
  rw [hn]
  exact ⟨branches_of (fun _ _ _ _ => rfl) fun _ => rfl, branches_of hfar fun _ => rfl, branches_of hfar fun _ => rfl,
    branches_of (fun _ _ _ _ => rfl) fun _ => rfl, branches_of hfar fun _ => rfl, fun _ _ _ _ => exec_nop⟩

end Sys2Proof.Claims
end

section
/-! PROOF. The fetch decision, the guard turn and the translation probe (R28, R30, R31, R35, R50, R67, R136, R265). -/

namespace Sys2Proof.Claims

open Sys2Proof.Machine Sys2Proof.Laws

/-! ## Runs at the lowest PC (R28) -/

section
variable {a : Arch} {m r : Mask} {p q : Dword}

/-- The lower of a PC found so far and the PC of a lane. -/
def lowerPc (a : Arch) (o : Option Dword) (L : Nat) : Option Dword :=
  match o with
  | none => some (a.pc L)
  | some p => if (a.pc L).toNat < p.toNat then some (a.pc L) else some p

theorem lowPc_eq (a : Arch) (m : Mask) : a.lowPc m = m.lanes.foldl (lowerPc a) none := rfl

theorem foldl_lowerPc (a : Arch) (ls : List Nat) (q : Dword) :
    ∃ p, ls.foldl (lowerPc a) (some q) = some p ∧ p ≤ q ∧ (∀ L ∈ ls, p ≤ a.pc L) ∧ (p = q ∨ ∃ L ∈ ls, a.pc L = p) := by
  induction ls generalizing q with
  | nil => exact ⟨q, rfl, BitVec.le_refl q, by simp, .inl rfl⟩
  | cons K t ih =>
    rw [List.foldl_cons]
    by_cases h : (a.pc K).toNat < q.toNat
    · rw [show lowerPc a (some q) K = some (a.pc K) from if_pos h]
      obtain ⟨p, h1, h2, h3, h4⟩ := ih (a.pc K)
      refine ⟨p, h1, BitVec.le_trans h2 (Nat.le_of_lt h), List.forall_mem_cons.mpr ⟨h2, h3⟩, .inr ?_⟩
      rcases h4 with h4 | ⟨L, hL, h4⟩
      · exact ⟨K, List.mem_cons_self, h4.symm⟩
      · exact ⟨L, List.mem_cons_of_mem _ hL, h4⟩
    · rw [show lowerPc a (some q) K = some q from if_neg h]
      obtain ⟨p, h1, h2, h3, h4⟩ := ih q
      refine ⟨p, h1, h2, List.forall_mem_cons.mpr ⟨BitVec.le_trans h2 (Nat.le_of_not_lt h), h3⟩, ?_⟩
      exact h4.imp_right fun ⟨L, hL, h4⟩ => ⟨L, List.mem_cons_of_mem _ hL, h4⟩

theorem lanes_ne_nil (h : m ≠ 0) : m.lanes ≠ [] := fun hn => h ((ofLanes_lanes m).symm.trans (congrArg Mask.ofLanes hn))

/-- A mask with a lane has a lowest PC, and one of its lanes stands there. -/
theorem lowPc_of_ne_zero (a : Arch) (h : m ≠ 0) :
    ∃ p, a.lowPc m = some p ∧ (∀ L, m.has L = true → p ≤ a.pc L) ∧ ∃ L, m.has L = true ∧ a.pc L = p := by
  obtain ⟨K, t, hl⟩ := List.exists_cons_of_ne_nil (lanes_ne_nil h)
  have hK : m.has K = true := mem_lanes.mp (by simp [hl])
  have ht : ∀ L ∈ t, m.has L = true := fun L hL => mem_lanes.mp (by simp [hl, hL])
  obtain ⟨p, h1, h2, h3, h4⟩ := foldl_lowerPc a t (a.pc K)
  refine ⟨p, (lowPc_eq a m).trans (hl ▸ h1), fun L hL => ?_, ?_⟩
  · rcases List.mem_cons.mp (hl ▸ mem_lanes.mpr hL) with rfl | hL
    · exact h2
    · exact h3 L hL
  · rcases h4 with h4 | ⟨L, hL, h4⟩
    · exact ⟨K, hK, h4.symm⟩
    · exact ⟨L, ht L hL, h4⟩

theorem headRun_zero (a : Arch) : a.headRun 0 = none := by
  have : Mask.lanes 0 = [] := List.eq_nil_iff_forall_not_mem.mpr fun L hL => by
    have := mem_lanes.mp hL
    rw [mask_has_zero] at this
    cases this
  rw [Arch.headRun, lowPc_eq, this]
  rfl

theorem atPc_has (a : Arch) (m : Mask) (p : Dword) (L : Nat) : (a.atPc m p).has L = (m.has L && a.pc L == p) := mask_has_filter ..

/-- The head run of a mask is its lanes at the lowest PC. -/
theorem headRun_lanes (h : a.headRun m = some (r, p)) :
    (∀ L, r.has L = (m.has L && a.pc L == p)) ∧ ∀ L, m.has L = true → p ≤ a.pc L := by
  have hm : m ≠ 0 := by
    rintro rfl
    rw [headRun_zero] at h
    cases h
  obtain ⟨q, hq, hle, -⟩ := lowPc_of_ne_zero a hm
  rw [Arch.headRun, hq] at h
  cases h
  exact ⟨atPc_has a m _, hle⟩

theorem headRun_of_ne_zero (a : Arch) (h : m ≠ 0) : ∃ r p, a.headRun m = some (r, p) ∧ r ≠ 0 ∧ r &&& m = r := by
  obtain ⟨p, hp, -, L, hL, hpc⟩ := lowPc_of_ne_zero a h
  refine ⟨a.atPc m p, p, by rw [Arch.headRun, hp]; rfl, fun h0 => ?_, mask_ext fun L _ => ?_⟩
  · have := atPc_has a m p L
    rw [h0, mask_has_zero, hL, hpc, beq_self_eq_true] at this
    cases this
  · rw [mask_has_and, atPc_has]
    cases m.has L <;> simp

end

/-! ## Guard turns (R31) -/

section
variable {g : Group} {m hd run : Mask} {n : Nat} {p pc : Dword}

/-- A group that is in no guard turn begins one, counts on, or has nothing to count. -/
def nextTurn (g : Group) (a : Arch) : Group :=
  match a.headRun g.eligible with
  | none => { g with arch := a }
  | some (h, _) =>
    if g.eligible &&& ~~~h = 0 ∨ h &&& a.lastRun = 0 then { g with arch := { a with starve := 0 } }
    else if a.starve ≥ Config.starvationLimit then
      let others := g.eligible &&& ~~~h
      let above := Mask.ofLanes (others.lanes.filter fun L => a.rot.toNat < (a.pc L).toNat)
      match a.headRun (if above = 0 then others else above) with
      | some (r, p) => { g with arch := { a with turn := some (r, 0), rot := p } }
      | none => { g with arch := a }
    else { g with arch := a }

/-- The registers once a turn that is over has ended. -/
def turnOver (g : Group) : Arch :=
  match g.arch.turn with
  | some (m, n) => if 64 ≤ n ∨ g.eligible &&& m = 0 then { g.arch with turn := none, starve := 0 } else g.arch
  | none => g.arch

theorem turnStep_eq (g : Group) :
    g.turnStep = if (turnOver g).turn.isSome then { g with arch := turnOver g } else nextTurn g (turnOver g) := by
  show (match (turnOver g).turn with
    | some _ => ({ g with arch := turnOver g } : Group)
    | none => nextTurn g (turnOver g)) = _
  cases (turnOver g).turn <;> rfl

theorem turnStep_of_none (h : g.arch.turn = none) : g.turnStep = nextTurn g g.arch := by
  have ho : turnOver g = g.arch := by simp only [turnOver, h]
  rw [turnStep_eq, ho, h]
  exact if_neg Bool.false_ne_true

theorem turnStep_of_over (h : g.arch.turn = some (m, n)) (hn : 64 ≤ n ∨ g.eligible &&& m = 0) :
    g.turnStep = nextTurn g { g.arch with turn := none, starve := 0 } := by
  have ho : turnOver g = { g.arch with turn := none, starve := 0 } := by simp only [turnOver, h, if_pos hn]
  rw [turnStep_eq, ho]
  exact if_neg Bool.false_ne_true

theorem turnStep_of_on (h : g.arch.turn = some (m, n)) (hn : n < 64) (hm : g.eligible &&& m ≠ 0) : g.turnStep = g := by
  have ho : turnOver g = g.arch := by simp only [turnOver, h, if_neg (not_or.mpr ⟨Nat.not_le_of_lt hn, hm⟩)]
  rw [turnStep_eq, ho, h]
  exact if_pos rfl

theorem nextTurn_rest (g : Group) (a : Arch) : ∃ t n r, nextTurn g a = { g with arch := { a with turn := t, starve := n, rot := r } } := by
  unfold nextTurn
  split
  · exact ⟨a.turn, a.starve, a.rot, rfl⟩
  · split_ifs
    · exact ⟨a.turn, 0, a.rot, rfl⟩
    · dsimp only
      split
      · exact ⟨_, a.starve, _, rfl⟩
      · exact ⟨a.turn, a.starve, a.rot, rfl⟩
    · exact ⟨a.turn, a.starve, a.rot, rfl⟩

/-- What a guard turn changes is what R31 counts. -/
theorem turnStep_rest (g : Group) : ∃ t n r, g.turnStep = { g with arch := { g.arch with turn := t, starve := n, rot := r } } := by
  rcases h : g.arch.turn with _ | ⟨m, n⟩
  · rw [turnStep_of_none h]
    exact nextTurn_rest g g.arch
  · by_cases ho : 64 ≤ n ∨ g.eligible &&& m = 0
    · rw [turnStep_of_over h ho]
      obtain ⟨t, n, r, e⟩ := nextTurn_rest g { g.arch with turn := none, starve := 0 }
      exact ⟨t, n, r, e⟩
    · obtain ⟨hn, hm⟩ := not_or.mp ho
      exact ⟨g.arch.turn, g.arch.starve, g.arch.rot, turnStep_of_on h (Nat.lt_of_not_le hn) hm⟩

/-- A group whose head run has starved the others begins a turn for some of them. -/
theorem nextTurn_begins {a : Arch} (hh : a.headRun g.eligible = some (hd, p)) (ho : g.eligible &&& ~~~hd ≠ 0) (hl : hd &&& a.lastRun ≠ 0)
    (hs : 1024 ≤ a.starve) : ∃ r, (nextTurn g a).arch.turn = some (r, 0) ∧ r ≠ 0 ∧ r &&& (g.eligible &&& ~~~hd) = r := by
  set others := g.eligible &&& ~~~hd with hoth
  set above := Mask.ofLanes (others.lanes.filter fun L => a.rot.toNat < (a.pc L).toNat) with hab
  have hs : a.starve ≥ Config.starvationLimit := hs
  have hne : (if above = 0 then others else above) ≠ 0 := by
    split_ifs with h
    · exact ho
    · exact h
  have hsub : (if above = 0 then others else above) &&& others = if above = 0 then others else above := by
    split_ifs with h
    · exact BitVec.and_self
    · refine mask_ext fun L _ => ?_
      rw [mask_has_and, hab, mask_has_filter]
      cases others.has L <;> simp
  obtain ⟨r, q, hr, h0, hrs⟩ := headRun_of_ne_zero a hne
  refine ⟨r, ?_, h0, ?_⟩
  · unfold nextTurn
    simp only [hh, ← hoth, if_neg (not_or.mpr ⟨ho, hl⟩), if_pos hs, ← hab, hr]
  · rw [← hrs, BitVec.and_assoc, hsub]

/-- A turn that is over leaves no turn: the counter begins again at 0. -/
theorem nextTurn_over {a : Arch} (ht : a.turn = none) (hs : a.starve = 0) : (nextTurn g a).arch.turn = none ∧ (nextTurn g a).arch.starve = 0 := by
  have hs' : ¬a.starve ≥ Config.starvationLimit := by
    rw [hs]
    decide
  unfold nextTurn
  split
  · exact ⟨ht, hs⟩
  · simp only [if_neg hs']
    split_ifs
    · exact ⟨ht, rfl⟩
    · exact ⟨ht, hs⟩

end

/-! ## The fetch decision -/

section
variable {k : GroupKey} {s : State} {g : Group} {run : Mask} {pc : Dword}

theorem turnStep_eligible (g : Group) : g.turnStep.eligible = g.eligible := by
  obtain ⟨t, n, r, h⟩ := turnStep_rest g
  rw [h]
  rfl

theorem turnStep_pc (g : Group) (L : Nat) : g.turnStep.arch.pc L = g.arch.pc L := by
  obtain ⟨t, n, r, h⟩ := turnStep_rest g
  rw [h]
  rfl

/-- Without a guard turn the run served is every eligible thread at the lowest PC. -/
theorem decide_lowest (hc : g.commitTurn = none) (ht : g.turnStep.arch.turn = none) (h : g.decide_ = some (run, pc)) :
    (∀ L, run.has L = (g.eligible.has L && g.arch.pc L == pc)) ∧ ∀ L, g.eligible.has L = true → pc ≤ g.arch.pc L := by
  have hh : g.turnStep.arch.headRun g.turnStep.eligible = some (run, pc) := by
    rw [← h, Group.decide_, hc]
    simp only [Group.choose, ht]
  obtain ⟨h1, h2⟩ := headRun_lanes hh
  refine ⟨fun L => ?_, fun L hL => ?_⟩
  · rw [h1, turnStep_eligible, turnStep_pc]
  · rw [← turnStep_pc]
    exact h2 L (by rwa [turnStep_eligible])

/-- A commit point that may execute comes first. -/
theorem decide_commit {m : Commit} (hm : g.commit = some m) (hc : g.commitTurn.isSome = true) :
    g.decide_ = some (m.run, m.pc) ∧ g.commitTurn = some (m.run, m.pc) := by
  have ht : g.commitTurn = some (m.run, m.pc) := by
    rw [Group.commitTurn, hm, Option.bind_some] at hc ⊢
    split_ifs at hc ⊢
    · rfl
    · cases hc
  exact ⟨by rw [Group.decide_, ht], ht⟩

theorem key_of_group? (h : s.group? k = some g) : g.key = k := by simpa using List.find?_some h

theorem exec_fetch (h : s.group? k = some g) (hs : s.mayServe g = true) (hl : s.latch = none) :
    exec (.fetchDecision k) s = .next (fetchDecide s g) := by
  show execFetchDecision k s = _
  simp only [execFetchDecision, h, hs, hl, Option.isNone_none, Bool.and_self, if_true]

/-- A decided run whose threads have been checked where they stand is fetched. -/
theorem fetchDecide_run (hd : g.decide_ = some (run, pc)) (hc : g.commitTurn = none) (he : run &&& g.arch.entering = 0) :
    fetchDecide s g = fetchRun (s.resumed g.core) { g with lastAt := s.now } run pc := by
  have hc' : ({ g with lastAt := s.now } : Group).commitTurn = none := hc
  simp only [fetchDecide, hd, hc', if_pos he]
  cases g.commit <;> rfl

theorem fetchDecide_commit {m : Commit} (hm : g.commit = some m) (hc : g.commitTurn.isSome = true) :
    fetchDecide s g = { (s.resumed g.core).setGroup { g with lastAt := s.now } with
      latch := some ⟨⟨g.key, m.run, m.pc⟩, m.word, true, true⟩, cur := none } := by
  obtain ⟨hd, ht⟩ := decide_commit hm hc
  have ht' : ({ g with lastAt := s.now } : Group).commitTurn = some (m.run, m.pc) := ht
  simp only [fetchDecide, hd, ht']
  rw [hm]

/-- Fetch that resumes reads the same lines. -/
theorem fetchLine_resumed (s : State) (c : CoreId) (g : Group) (pc : Dword) : fetchLine (s.resumed c) g pc = fetchLine s g pc := rfl

/-- Only the group itself is another, and neither memory nor the teams. -/
def OnlyHere (s t : State) (k : GroupKey) (h : Group) : Prop :=
  t.group? k = some h ∧ (∀ k', k' ≠ k → t.group? k' = s.group? k') ∧ t.ram = s.ram ∧ t.teams = s.teams

theorem onlyHere_setGroup {u : State} {h : Group} (hg : s.group? k = some g) (hk : h.key = k) (hu : u.groups = s.groups)
    (hr : u.ram = s.ram) (ht : u.teams = s.teams) : OnlyHere s (u.setGroup h) k h := by
  have hug : ∀ k', u.group? k' = s.group? k' := fun k' => congrArg (List.find? fun g : Group => decide (g.key = k')) hu
  subst hk
  exact ⟨setGroup_get u h g ((hug _).trans hg), fun k' hk' => ((setGroup_only u h).others k' hk').trans (hug k'), hr, ht⟩

end

/-! ## Lanes that park (R35) -/

section
variable {s : State} {g : Group} {kd : Access}

theorem mask_has_or (m n : Mask) (L : Nat) : (m ||| n).has L = (m.has L || n.has L) := by simp [Mask.has]

theorem or_bit_or_ofLanes (m : Mask) (L : Nat) (t : List Nat) : m ||| Mask.bit L ||| Mask.ofLanes t = m ||| Mask.ofLanes (L :: t) := by
  refine mask_ext fun K hK => ?_
  rw [mask_has_or, mask_has_or, mask_has_or, mask_has_bit, mask_has_ofLanes, mask_has_ofLanes, decide_eq_true hK, Bool.or_assoc]
  congr 1
  by_cases h : L = K
  · simp [h, hK]
  · simp [h, Ne.symm h]

/-- Parking lanes queues faults in the group's partition, and changes nothing else of the machine. -/
theorem parkAll_state (s : State) (g : Group) (kd : Access) (l : List (Nat × Nat × Nat)) :
    (s.parkAll g kd l).1 = { s with parts := (s.parkAll g kd l).1.parts } := by
  induction l generalizing s g with
  | nil => rfl
  | cons x t ih => exact (ih _ _).trans rfl

/-- Of the group it parks the lanes listed, each with the record of its fault. -/
theorem parkAll_group (s : State) (g : Group) (kd : Access) (l : List (Nat × Nat × Nat)) :
    ∃ ps, (s.parkAll g kd l).2 =
        { g with arch := { g.arch with parked := g.arch.parked ||| Mask.ofLanes (l.map Prod.fst) }, parks := g.parks ++ ps } ∧
      ∀ x ∈ ps, x.lane ∈ l.map Prod.fst := by
  induction l generalizing s g with
  | nil => exact ⟨[], by simp [State.parkAll, show Mask.ofLanes [] = 0 from rfl], by simp⟩
  | cons x t ih =>
    obtain ⟨ps, h1, h2⟩ := ih (s.queueFault g kd x.2.2).1 (g.park x.1 (s.queueFault g kd x.2.2).2 x.2.1)
    refine ⟨⟨x.1, (s.queueFault g kd x.2.2).2, x.2.1, false⟩ :: ps, h1.trans ?_, List.forall_mem_cons.mpr ⟨by simp, fun y hy => by simp [h2 y hy]⟩⟩
    simp only [Group.park, or_bit_or_ofLanes, List.append_assoc, List.map_cons, List.singleton_append]

/-- The end of a guard turn changes of the registers only what R31 counts. -/
theorem endTurn_arch (g : Group) : ∃ n t, g.endTurn.arch = { g.arch with starve := n, turn := t } := by
  unfold Group.endTurn
  split
  · split <;> exact ⟨_, _, rfl⟩
  · exact ⟨g.arch.starve, g.arch.turn, rfl⟩

/-- A run whose page is missing parks at its PC. -/
theorem fetchRun_absent {k : GroupKey} {run : Mask} {pc : Dword} {page : Nat} {o : Group} (hg : s.group? k = some o) (hgk : g.key = k)
    (hf : fetchLine s g pc = .absent page) (hb : g.branching run = false) :
    ∃ h, (fetchRun s g run pc).latch = s.latch ∧ OnlyHere s (fetchRun s g run pc) k h ∧ h.arch.pcs = g.arch.pcs ∧
      h.arch.parked = g.arch.parked ||| run ∧ SameRegs g.arch h.arch := by
  set l := run.lanes.map fun L => (L, pc.toNat, page)
  have hl : Mask.ofLanes (l.map Prod.fst) = run := by
    rw [List.map_map]
    exact (congrArg Mask.ofLanes (List.map_id run.lanes)).trans (ofLanes_lanes run)
  have hs := parkAll_state s g .fetch l
  obtain ⟨ps, hp, -⟩ := parkAll_group s g .fetch l
  rw [hl] at hp
  set r := s.parkAll g .fetch l
  set h := (r.2.decided g run).endTurn
  have he : fetchRun s g run pc = r.1.setGroup h := by simp only [fetchRun, hf, hb, if_false, Bool.false_eq_true]; rfl
  have hk : h.key = k := by
    rw [show h = _ from endTurn_rest _]
    exact (congrArg Group.key hp :).trans hgk
  obtain ⟨n, t, ha⟩ := endTurn_arch (r.2.decided g run)
  have ha : h.arch = { r.2.arch with starve := n, turn := t, rot := g.turnStep.arch.rot, lastRun := run } := ha
  rw [hp] at ha
  refine ⟨h, ?_, ?_, ?_, ?_, ?_⟩
  · rw [he]
    exact (congrArg State.latch hs :)
  · rw [he]
    exact onlyHere_setGroup hg hk (congrArg State.groups hs :) (congrArg State.ram hs :) (congrArg State.teams hs :)
  all_goals rw [ha]
  exact ⟨rfl, rfl, rfl, rfl⟩

end

/-- Settles O34: a fetch decision is the case of `fetchDecide` that its premises choose, and a guard turn is `turnStep`. -/
theorem fetching : Obligations.Fetching := by
  unfold Obligations.Fetching
  refine ⟨fun k s g hg hs hl run pc hd => ?_, fun k s g hd p hg hh => ?_⟩
  · have hx := exec_fetch hg hs hl
    have hk : g.key = k := key_of_group? hg
    have only : ∀ (h : Group) (l : Option Fetched) (c : Option GroupKey), h.key = k →
        OnlyHere s { (s.resumed g.core).setGroup h with latch := l, cur := c } k h :=
      fun h l c hk => onlyHere_setGroup hg hk rfl rfl rfl
    refine ⟨fun hc ht L _ => ?_, fun m hm hc => ?_, fun hc he => ⟨fun l p hf => ?_, fun page hf hb => ?_, fun c hf ho => ?_⟩⟩
    · exact ⟨(decide_lowest hc ht hd).1 L, (decide_lowest hc ht hd).2 L⟩
    · obtain ⟨hd', -⟩ := decide_commit hm hc
      cases hd.symm.trans hd'
      exact ⟨rfl, rfl, _, hx, by rw [fetchDecide_commit hm hc, hk], by rw [fetchDecide_commit hm hc]; exact only _ _ _ hk,
        by rw [fetchDecide_commit hm hc]; rfl, by rw [fetchDecide_commit hm hc]; rfl⟩
    all_goals rw [fetchDecide_run hd hc he] at hx
    · have hr : fetchRun (s.resumed g.core) { g with lastAt := s.now } run pc = { (s.resumed g.core).setGroup { g with lastAt := s.now } with
          latch := some (Machine.fetched { g with lastAt := s.now } run pc l), cur := none } := by
        simp only [fetchRun, fetchLine_resumed, hf]
      rw [hr] at hx
      exact ⟨_, hx, by rw [← hk]; rfl, only _ _ _ hk, rfl, rfl⟩
    · obtain ⟨h, h1, h2, h3, h4, h5⟩ := fetchRun_absent (s := s.resumed g.core) (g := { g with lastAt := s.now }) hg hk hf hb
      exact ⟨_, h, hx, h1.trans hl, h2, h3, fun L _ => by rw [h4, mask_has_or], h5⟩
    · have hn : (c = 0x07 && ({ g with lastAt := s.now } : Group).loading run) = false := by
        rcases ho with ho | ho
        · simp [ho]
        · exact Bool.and_eq_false_iff.mpr (.inr ho)
      have hr : fetchRun (s.resumed g.core) { g with lastAt := s.now } run pc = (s.resumed g.core).setGroup
          { Group.decided { g with lastAt := s.now } { g with lastAt := s.now } run with trap := some ⟨c, pc, run, pc, 0⟩ } := by
        simp only [fetchRun, fetchLine_resumed, hf, hn, if_false, Bool.false_eq_true]
      rw [hr] at hx
      exact ⟨_, hx, hl, only _ _ _ hk, rfl, rfl⟩
  · obtain ⟨t, n, r, hr⟩ := turnStep_rest g
    have hkey : ∀ x : Group, x.key = k → x.turnStep.key = k := fun x hx => by
      obtain ⟨t, n, r, hr⟩ := turnStep_rest x
      rw [hr]
      exact hx
    refine ⟨_, g.turnStep, rfl, ⟨rfl, fun k' hk' => updGroup_other s hk' _ hkey, updGroup_get s k _ hkey g hg⟩, by rw [hr], ?_, ?_, ?_⟩
    · intro ht ho hl hs
      rw [turnStep_of_none ht]
      exact nextTurn_begins hh ho hl hs
    · intro m n ht hn
      rw [turnStep_of_over ht (.inl hn)]
      exact nextTurn_over rfl rfl
    · exact fun m n => turnStep_of_on

/-! ## The translation probe (R50) -/

section
variable {s : State} {g : Group}

theorem foldl_useKey (l : List Phys) (s : State) : l.foldl State.useKey s = { s with coh := (l.foldl State.useKey s).coh } := by
  induction l generalizing s with
  | nil => rfl
  | cons p t ih =>
    rw [List.foldl_cons, ih]
    unfold State.useKey
    split <;> rfl

theorem foldl_keepIn (bulk : Bool) (part ctx : Nat) (core : CoreId) (l : List Phys) (s : State) :
    l.foldl (fun s p => s.keepIn bulk part ctx core p) s =
      { s with coh := (l.foldl (fun s p => s.keepIn bulk part ctx core p) s).coh } := by
  induction l generalizing s with
  | nil => rfl
  | cons p t ih =>
    rw [List.foldl_cons, ih]
    unfold State.keepIn
    split <;> rfl

/-- Keeping translations changes the coherence state alone. -/
theorem keepAcc_state (s : State) (bulk : Bool) (g : Group) (l : List Acc) : s.keepAcc bulk g l = { s with coh := (s.keepAcc bulk g l).coh } := by
  unfold State.keepAcc
  rw [foldl_keepIn, foldl_useKey]

/-- The lanes without a translation are those whose own probe finds none. -/
theorem mem_parkers {act : Mask} {ad : Nat → Nat} {res : Nat → LaneRes} {L : Nat} :
    L ∈ (parkers false act ad (act.lanes.map fun L => (L, res L))).map Prod.fst ↔ act.has L = true ∧ ∃ p, res L = .park p := by
  have he : ∀ rs, parkers false act ad rs = rs.filterMap fun r => match r.2 with
      | .park p => some (r.1, ad r.1, p)
      | _ => none := fun rs => by
    unfold parkers
    dsimp only
    split
    · exact if_neg Bool.false_ne_true
    · rfl
  rw [he, List.filterMap_map, List.mem_map]
  constructor
  · rintro ⟨y, hy, rfl⟩
    obtain ⟨K, hK, hr⟩ := List.mem_filterMap.mp hy
    cases hres : res K with
    | park p =>
      simp only [Function.comp, hres] at hr
      cases hr
      exact ⟨mem_lanes.mp hK, p, hres⟩
    | _ => simp only [Function.comp, hres] at hr; cases hr
  · rintro ⟨hL, p, hres⟩
    exact ⟨(L, ad L, p), List.mem_filterMap.mpr ⟨L, mem_lanes.mpr hL, by simp only [Function.comp, hres]⟩, rfl⟩

end

/-- Settles O35: of the group the probe parks the lanes of `parkers`, of the machine it changes translations and fault records. -/
theorem probeParksLanes : Obligations.ProbeParksLanes := by
  unfold Obligations.ProbeParksLanes
  intro k s g f i p hg hl hk hpar hline hdec hform hregs hready hholds act misses
  set res := fun L => laneAcc s g p.kind p.sp p.size p.align L (addrSum g.arch p.unit p.t1 p.t2 p.t3 L) with hres
  set ad := addrSum g.arch p.unit p.t1 p.t2 p.t3
  set rs := act.lanes.map fun L => (L, res L)
  set ok := rs.filterMap fun r => match r.2 with
    | .ok a => some a
    | _ => none
  set out := parkers false act ad rs
  have hmiss : ∀ L, L ∈ out.map Prod.fst ↔ misses L = true := fun L => by
    rw [mem_parkers, Bool.and_eq_true]
    refine and_congr_right fun _ => ?_
    show _ ↔ (match res L with
      | .park _ => true
      | _ => false) = true
    cases res L <;> simp
  have hs := parkAll_state (s.keepAcc false g ok) g p.kind out
  have hc := keepAcc_state s false g ok
  obtain ⟨ps, hp, hps⟩ := parkAll_group (s.keepAcc false g ok) g p.kind out
  set x := (s.keepAcc false g ok).parkAll g p.kind out
  set run := f.issue.run &&& ~~~x.2.arch.parked
  have hx : exec (.translationProbe k) s =
      .next { x.1.setGroup x.2 with latch := if run = 0 then none else some { f with issue := { f.issue with run := run } } } := by
    show execTranslationProbe k s = _
    simp only [execTranslationProbe, hl, hg, hdec, Except.toOption, Option.bind_some, hform, Option.map_some, hk, hpar, hline, hregs, hready,
      hholds, ne_eq, not_true_eq_false, Bool.not_true, Bool.false_eq_true, or_self, if_false]
    rfl
  have hgk : g.key = k := key_of_group? hg
  have hxk : x.2.key = k := (congrArg Group.key hp :).trans hgk
  obtain ⟨h1, h2, h3, h4⟩ : OnlyHere s (x.1.setGroup x.2) k x.2 :=
    onlyHere_setGroup hg hxk ((congrArg State.groups hs :).trans (congrArg State.groups hc :)) ((congrArg State.ram hs :).trans (congrArg State.ram hc :))
      ((congrArg State.teams hs :).trans (congrArg State.teams hc :))
  refine ⟨_, x.2, hx, h1, h2, h3, h4, by rw [hp], fun L hL => ?_, fun y hy => ?_, rfl⟩
  · rw [hp]
    show (g.arch.parked ||| Mask.ofLanes (out.map Prod.fst)).has L = _
    rw [mask_has_or, mask_has_ofLanes, decide_eq_true hL, Bool.true_and]
    congr 1
    rw [Bool.eq_iff_iff, List.contains_iff_mem]
    exact hmiss L
  · rw [hp] at hy
    exact (List.mem_append.mp hy).imp_right fun hy => (hmiss _).mp (hps y hy)

end Sys2Proof.Claims
end

section
/-! PROOF. Launches: their copy, dependences, aging and placement, their completion, and the groups of their teams (R23, R27, R194, R198, R200,
R203, R205). -/

namespace Sys2Proof.Claims

open Sys2Proof.Machine Sys2Proof.Laws

/-! ## Booths -/

section
variable {part n : Nat} {s : State}

theorem booth_updBooth (hp : part < s.parts.length) (hn : n < (s.part part).booths.length) (f : Booth → Booth) :
    (s.updBooth part n f).booth part n = f (s.booth part n) := by
  rw [State.booth, State.updBooth, part_updPart _ _ _ hp]
  simp [State.booth, List.getD_eq_getElem?_getD, hn]

theorem booth_updBooth_other {m : Nat} (hp : part < s.parts.length) (h : m ≠ n) (f : Booth → Booth) :
    (s.updBooth part n f).booth part m = s.booth part m := by
  rw [State.booth, State.updBooth, part_updPart _ _ _ hp]
  simp [State.booth, List.getD_eq_getElem?_getD, Ne.symm h]

/-! ## Dependences (R203) -/

/-- A booth whose head waits for no counter, or that has none, is left as it is. -/
def Settled (s : State) (part i : Nat) : Prop := ∀ w r, (s.booth part i).waits = w :: r → w.since.isSome = true

theorem settled_of_empty {i : Nat} (h : (s.booth part i).waits = []) : Settled s part i := fun w r hw => by
  rw [h] at hw
  cases hw

theorem evalBooth_settled {i : Nat} {b : Bool} (h : Settled s part i) : evalBooth part (s, b) i = (s, b) := by
  unfold evalBooth
  dsimp only
  split
  · rfl
  · next w r hw => rw [if_pos (h w r hw)]

theorem foldl_evalBooth_settled {b : Bool} (ls : List Nat) (h : ∀ i ∈ ls, Settled s part i) : ls.foldl (evalBooth part) (s, b) = (s, b) := by
  induction ls with
  | nil => rfl
  | cons i t ih =>
    rw [List.foldl_cons, evalBooth_settled (h i List.mem_cons_self)]
    exact ih fun i hi => h i (List.mem_cons_of_mem _ hi)

/-- Without a refusal one evaluation is all. -/
theorem deps_of_foldl {t : State} (h : (List.range 65).foldl (evalBooth part) (s, false) = (t, false)) : s.deps part = t := by
  have hd : s.deps part = if ((List.range 65).foldl (evalBooth part) (s, false)).2 then
      evalDeps part 65 ((List.range 65).foldl (evalBooth part) (s, false)).1
    else ((List.range 65).foldl (evalBooth part) (s, false)).1 := rfl
  rw [hd, h]
  exact if_neg Bool.false_ne_true

theorem deps_settled (h : ∀ i, i < 65 → Settled s part i) : s.deps part = s :=
  deps_of_foldl (foldl_evalBooth_settled (List.range 65) fun i hi => h i (List.mem_range.mp hi))

/-- A waiting launch whose counters have reached their targets becomes eligible. -/
theorem evalBooth_met {b : Bool} {w : Waiting} {r : List Waiting} {v : View} (hw : (s.booth part n).waits = w :: r) (hs : w.since = none)
    (hd : depsOf s part w.ctx w.blk.used = .met v) :
    evalBooth part (s, b) n =
      (s.updBooth part n fun b => { b with waits := { w with since := some s.now, raised := s.now, hb := View.join w.hb v } :: r }, b) := by
  simp only [evalBooth, hw, hs, hd, Option.isSome_none, Bool.false_eq_true, if_false]

/-- Where only one booth has a launch that waits, evaluating the dependences evaluates that one. -/
theorem deps_met {w : Waiting} {r : List Waiting} {v : View} (hp : part < s.parts.length) (hn : n < (s.part part).booths.length) (hn' : n < 65)
    (hw : (s.booth part n).waits = w :: r) (hs : w.since = none) (ho : ∀ i, i < 65 → i ≠ n → (s.booth part i).waits = [])
    (hd : depsOf s part w.ctx w.blk.used = .met v) :
    s.deps part =
      s.updBooth part n fun b => { b with waits := { w with since := some s.now, raised := s.now, hb := View.join w.hb v } :: r } := by
  set t := s.updBooth part n fun b => { b with waits := { w with since := some s.now, raised := s.now, hb := View.join w.hb v } :: r } with ht
  obtain ⟨as, bs, hl, ha⟩ := List.eq_append_cons_of_mem (List.mem_range.mpr hn')
  have hlt : ∀ i ∈ as ++ n :: bs, i < 65 := fun i hi => List.mem_range.mp (hl ▸ hi)
  have h1 : as.foldl (evalBooth part) (s, false) = (s, false) := foldl_evalBooth_settled as fun i hi =>
    settled_of_empty (ho i (hlt i (by simp [hi])) fun h => ha (h ▸ hi))
  have h2 : bs.foldl (evalBooth part) (t, false) = (t, false) := foldl_evalBooth_settled bs fun i hi => by
    by_cases h : i = n
    · intro x y hx
      rw [h, ht, booth_updBooth hp hn] at hx
      cases hx
      rfl
    · exact settled_of_empty (by rw [ht, booth_updBooth_other hp h]; exact ho i (hlt i (by simp [hi])) h)
  exact deps_of_foldl (by rw [hl, List.foldl_append, h1, List.foldl_cons, evalBooth_met hw hs hd, h2])

end

/-! ## Grants (R215) -/

section
variable {s : State}

theorem noteStops_dies (s : State) : s.noteStops = { s with dies := s.noteStops.dies } := by
  have h : ∀ (l : List Nat) (s : State), l.foldl State.noteStop s = { s with dies := (l.foldl State.noteStop s).dies } := fun l => by
    induction l with
    | nil => exact fun s => rfl
    | cons d t ih => exact fun s => (ih _).trans rfl
  exact h _ s

theorem foldl_countClk {α : Type} (l : List α) (g : Group) :
    l.foldl (fun g _ => Group.countClk g) g = { g with clkevt := (l.foldl (fun g _ => Group.countClk g) g).clkevt } := by
  induction l generalizing g with
  | nil => rfl
  | cons x t ih => exact (ih _).trans rfl

/-- Computing the grants again changes the clocks: of a group only how often they have changed. -/
theorem regrant_state (s : State) : { s.regrant with dies := s.dies, dev := s.dev, groups := s.groups } = s := by
  unfold State.regrant
  rw [noteStops_dies]
  rfl

theorem countChanges_groups (s : State) : ∃ f : Group → Dword, s.countChanges.groups = s.groups.map fun g => { g with clkevt := f g } :=
  ⟨_, List.map_congr_left fun _ _ => foldl_countClk _ _⟩

theorem regrant_groups (s : State) : ∃ f : Group → Dword, s.regrant.groups = s.groups.map fun g => { g with clkevt := f g } := by
  unfold State.regrant
  rw [noteStops_dies]
  exact countChanges_groups _

end

/-! ## The groups of a team (R23, R27) -/

theorem has_below {n L : Nat} (h : L < 64) : (Mask.below n).has L = decide (L < n) := by
  rw [Mask.has, Mask.below, BitVec.getLsbD_ofNat, Nat.testBit_two_pow_sub_one, decide_eq_true h, Bool.true_and]

section
variable {w nv ns : Nat} {code : Dword} {args : List Dword} {ex : Mask}

theorem pc_fresh {L : Nat} (h : L < w) : (Arch.fresh w nv ns code args ex).pc L = code := by
  simp [Arch.pc, Arch.fresh, List.getD_eq_getElem?_getD, h]

theorem vreg_fresh (i L : Nat) : (Arch.fresh w nv ns code args ex).vreg i L = 0 := by
  simp only [Arch.vreg, Arch.fresh, List.getD_eq_getElem?_getD, List.getElem?_replicate]
  split_ifs
  · simp only [Option.getD_some, List.getElem?_replicate]
    split_ifs <;> rfl
  · rfl

theorem sreg_fresh (i : Nat) : (Arch.fresh w nv ns code args ex).sreg i = if i < ns ∧ i < 16 then args.getD i 0 else 0 := by
  simp only [Arch.sreg, Arch.fresh, List.getD_eq_getElem?_getD, List.getElem?_map]
  by_cases h : i < ns
  · simp [h]
  · simp [h]

end

/-- The threads of a group that are not there have exited at once (R27). -/
theorem live_below {w n L : Nat} (hw : w ≤ 64) (hL : L < w) :
    (Mask.below w &&& ~~~(Mask.below w &&& ~~~(Mask.below n))).has L = decide (L < n) := by
  have h : L < 64 := Nat.lt_of_lt_of_le hL hw
  rw [mask_has_diff, mask_has_diff, has_below h, has_below h, decide_eq_true hL]
  simp

/-- A legal block at the head of a booth begins to wait, and the dependences are evaluated (R194, R203). -/
theorem exec_launchCopy {part n : Nat} {s : State} {e : BoothEntry} {r : List BoothEntry} {l : List IoRun} (he : (s.booth part n).entries = e :: r)
    (hv : (s.booth part n).valid = true) (hk : (s.booth part n).work = false) (hw : (s.booth part n).waits = []) (hn : n < 64)
    (ho : launchEntryOk e.words = true) (hl : ioRuns s part (s.booth part n).ctx .read ((e.words.getD 0 0).toNat % 2 ^ 57) 256 = some l)
    (hb : ioBusy s l = false) (hp : ioPoison s l = false)
    (hj : judgeLaunch s part (s.booth part n).ctx false (parseLaunch ((e.words.getD 0 0).toNat % 2 ^ 57) (ioBytes s l)) = none) :
    exec (.launchCopy part n) s = .next ((s.updBooth part n fun b => { b with waits :=
      [Waiting.fresh (parseLaunch ((e.words.getD 0 0).toNat % 2 ^ 57) (ioBytes s l)) (s.booth part n).ctx none e.view] }).deps part) := by
  have hn : decide (64 ≤ n) = false := decide_eq_false (Nat.not_le_of_lt hn)
  show execLaunchCopy part n s = _
  simp only [execLaunchCopy, he, hv, hk, hw, hn, ho, hl, hb, hp, hj, List.isEmpty_nil, Bool.not_true, Bool.or_self, Bool.false_eq_true, if_false]

/-- Settles O49: the booth's head is what is evaluated and aged, placing changes what is placed and then the clocks, and a grid without
actions only leaves. -/
theorem launches : Obligations.Launches := by
  unfold Obligations.Launches
  intro part n s hp hn b
  refine ⟨?_, ?_, ?_, ?_, ?_, ?_⟩
  · intro e r l he hv hwk hw hn64 hok hl hbusy hpois blk hj ho hu
    set u := s.updBooth part n fun x => { x with waits := [Waiting.fresh blk b.ctx none e.view] } with hu'
    have hx : exec (.launchCopy part n) s = .next (u.deps part) := exec_launchCopy he hv hwk hw hn64 hok hl hbusy hpois hj
    have hub : u.booth part n = { b with waits := [Waiting.fresh blk b.ctx none e.view] } := booth_updBooth hp hn _
    have hup : part < u.parts.length := by simpa [hu', State.updBooth, State.updPart, State.setPart] using hp
    have hun : n < (u.part part).booths.length := by
      rw [hu', State.updBooth, part_updPart _ _ _ hp]
      simpa using hn
    have hd : u.deps part = _ := deps_met (v := []) hup hun (by omega) (congrArg Booth.waits hub) rfl
      (fun i hi hin => by rw [hu', booth_updBooth_other hp hin]; exact ho i hi hin) (by
        show depsOf u part b.ctx blk.used = _
        rw [hu]
        rfl)
    rw [hd] at hx
    exact ⟨_, hx, rfl, rfl, rfl, by rw [booth_updBooth hup hun]; rfl, by rw [booth_updBooth hup hun, hub]⟩
  · intro w r v hw hn' hs ho hd
    exact ⟨_, congrArg Host.Outcome.next (deps_met hp hn hn' hw hs ho hd), rfl, rfl, by rw [booth_updBooth hp hn]⟩
  · intro w r x hw hs hr hl
    refine ⟨s.updBooth part n fun b => { b with waits := { w with level := w.level + 1, raised := w.raised + 10000000 } :: r },
      ?_, rfl, rfl, by rw [booth_updBooth hp hn]⟩
    show execPriorityAging part n s = _
    have hw : (s.booth part n).waits = w :: r := hw
    simp only [execPriorityAging, hw, hs, Option.isSome_some, decide_eq_true hr, decide_eq_true hl, Bool.and_self, if_true]
  · intro grid cores u hr hu
    obtain ⟨f, hf⟩ := regrant_groups u
    have hs := regrant_state u
    refine ⟨u.regrant, ?_, (congrArg State.teams hs :), (congrArg State.parts hs :), (congrArg State.ram hs :), (congrArg State.coh hs :), ?_, ?_⟩
    · show execTeamPlace part grid cores s = _
      simp only [execTeamPlace, hr, hu, Bool.not_true, Bool.false_eq_true, if_false]
    · rw [hf, List.map_map]; rfl
    · rw [hf, List.map_map]; rfl
  · intro grid g hg hover hgang hring hctl hw
    set u := s.updPart part fun p => { p with grids := p.grids.filter fun x => x.num ≠ g.num }
    have he : s.endGrid part g = u := by
      rw [State.endGrid, hring]
      rfl
    have hidle : ∀ i, (u.booth part i).waits = (s.booth part i).waits := fun i => by
      rw [State.booth, part_updPart _ _ _ hp]
      rfl
    have hf : u.finish part g.ctx g.blk g.status (g.lost.getD 0) g.did = u := by
      simp [State.finish, Launch.stw, Launch.cnt, Launch.irq, hctl, State.completed]
    have hb : finishBusy s part g.ctx g.blk = false := by simp [finishBusy, Launch.stw, Launch.cnt, hctl]
    have hx : exec (.completionAction part grid) s = .next u := by
      show execCompletionAction part grid s = _
      simp only [execCompletionAction, hg, hover, hgang, hb, he, hf, Bool.not_true, Bool.false_eq_true, if_false]
      rw [deps_settled fun i hi => settled_of_empty ((hidle i).trans (hw i hi))]
    refine ⟨u, hx, rfl, ?_, fun q hq => part_updPart_other s hq _⟩
    have hnum : g.num = grid := by simpa using List.find?_some hg
    rw [State.grid?, part_updPart _ _ _ hp]
    refine List.find?_eq_none.mpr fun x hx => ?_
    simpa [hnum] using (List.mem_filter.mp hx).2
  · intro k ctx blk cores g hg
    obtain ⟨i, hi, rfl⟩ := List.mem_map.mp hg
    refine ⟨rfl, List.mem_range.mp hi, rfl, rfl, rfl, rfl, fun L => pc_fresh, fun i h1 h2 => ?_, fun i h1 => ?_, vreg_fresh, fun L hL hw => ?_⟩
    · exact (sreg_fresh i).trans (if_pos ⟨h2, h1⟩)
    · exact (sreg_fresh i).trans (if_neg fun h => Nat.not_lt.mpr h1 h.2)
    · refine (Bool.eq_iff_iff.mp (live_below hw hL)).trans ?_
      simp only [decide_eq_true_eq, Group.fresh]
      omega

end Sys2Proof.Claims
end

section
/-! PROOF. Waits that end: engine commands, loads, HOLDW and CEDE, and the retirement of groups and teams (R38, R64, R79, R133, R232, R301, R331, R346,
R387, R407). -/

namespace Sys2Proof.Claims

open Sys2Proof.Machine Sys2Proof.Laws

/-! ## What leaves groups and teams where they are -/

section
variable {s t u : State}

/-- The same groups and teams are there, and no byte of memory has changed. -/
structure SameThere (s t : State) : Prop where
  groups : t.groups.map Group.key = s.groups.map Group.key
  teams  : t.teams.map Team.key = s.teams.map Team.key
  mem    : t.ram.mem = s.ram.mem

theorem SameThere.refl (s : State) : SameThere s s := ⟨rfl, rfl, rfl⟩

theorem SameThere.trans (h : SameThere s t) (h' : SameThere t u) : SameThere s u :=
  ⟨h'.groups.trans h.groups, h'.teams.trans h.teams, h'.mem.trans h.mem⟩

theorem SameThere.ite {c : Prop} [Decidable c] (ht : SameThere s t) (hu : SameThere s u) : SameThere s (if c then t else u) := by
  split <;> assumption

theorem SameThere.foldl {α : Type} {f : State → α → State} (hf : ∀ s x, SameThere s (f s x)) (l : List α) (s : State) :
    SameThere s (l.foldl f s) := by
  induction l generalizing s with
  | nil => exact .refl s
  | cons x r ih => exact (hf s x).trans (ih _)

theorem sameThere_updGroup (s : State) (k : GroupKey) {f : Group → Group} (hf : ∀ g, (f g).key = g.key) : SameThere s (s.updGroup k f) where
  groups := by
    show (s.groups.map _).map Group.key = _
    rw [List.map_map]
    refine List.map_congr_left fun g _ => ?_
    simp only [Function.comp]
    split
    · exact hf g
    · rfl
  teams := rfl
  mem := rfl

theorem sameThere_updTeam (s : State) (k : TeamKey) {f : Team → Team} (hf : ∀ x, (f x).key = x.key) : SameThere s (s.updTeam k f) where
  groups := rfl
  teams := by
    show (s.teams.map _).map Team.key = _
    rw [List.map_map]
    refine List.map_congr_left fun x _ => ?_
    simp only [Function.comp]
    split
    · exact hf x
    · rfl
  mem := rfl

theorem sameThere_updRank (s : State) (k : TeamKey) (r : Nat) (f : Rank → Rank) : SameThere s (s.updRank k r f) :=
  sameThere_updTeam s k fun _ => updRank_key ..

theorem sameThere_noteStops (s : State) : SameThere s s.noteStops :=
  .foldl (f := State.noteStop) (fun _ _ => ⟨rfl, rfl, rfl⟩) _ s

/-! ### Faults of dispatched entries (R55) -/

theorem sameThere_discard (s : State) (k : GroupKey) (n : Nat) (a : Arch) : SameThere s (s.discard k n a) := by
  unfold State.discard
  split
  · exact .refl s
  · next g hg =>
    have h := fun f => (sameThere_updRank s k.team g.rank f).trans (sameThere_updGroup _ k (f := fun g => g.windBack n a) fun _ => rfl)
    exact .ite ((h _).trans (sameThere_noteStops _)) (h _)

theorem sameThere_putBack (g : Group) (s : State) (o : ObjImage) : SameThere s (State.putBack g s o) := by
  cases o with
  | bar => exact sameThere_updTeam _ _ fun _ => rfl
  | halt => exact sameThere_updGroup _ _ fun _ => rfl
  | _ => exact sameThere_updRank ..

theorem sameThere_recover (s : State) (k : GroupKey) (n : Nat) (a : Arch) : SameThere s (s.recover k n a) := by
  unfold State.recover
  split
  · exact .refl s
  · next g hg => exact (SameThere.foldl (sameThere_putBack g) _ s).trans (sameThere_discard ..)

theorem sameThere_faultEntry (s : State) (k : GroupKey) (seq cause : Nat) (mask : Mask) (addr : Nat) :
    SameThere s (s.faultEntry k seq cause mask addr) := by
  unfold State.faultEntry
  split
  · exact .refl s
  · exact (sameThere_recover ..).trans (sameThere_updGroup _ _ fun _ => rfl)

theorem sameThere_faultRetired (s : State) (x : Sign) (cause addr : Nat) : SameThere s (s.faultRetired x cause addr) := by
  unfold State.faultRetired
  split
  · exact .refl s
  · exact (sameThere_recover ..).trans (sameThere_updGroup _ _ fun _ => rfl)

/-! ### Generations that are voided (R109) -/

theorem sameThere_voidSigns (s : State) (l : List Sign) (cause addr : Nat) : SameThere s (s.voidSigns l cause addr) :=
  .foldl (fun _ _ => .ite (sameThere_faultEntry ..) (sameThere_faultRetired ..)) _ s

theorem sameThere_voidGens (s : State) (k : TeamKey) (r c : Nat) (kind : List Sign → Option Nat) : SameThere s (s.voidGens k r c kind) :=
  (sameThere_updRank s k r _).trans (.foldl (fun _ _ => sameThere_voidSigns ..) _ _)

theorem sameThere_judge4 (s : State) (k : TeamKey) (r c : Nat) : SameThere s (s.judge4 k r c) := sameThere_voidGens ..

/-! ### Teams that leave (R215, R232) -/

theorem sameThere_regrant (s : State) : SameThere s s.regrant := by
  obtain ⟨f, hf⟩ := regrant_groups s
  have hs := regrant_state s
  exact ⟨by rw [hf, List.map_map]; rfl, (congrArg (fun s => s.teams.map Team.key) hs :), (congrArg (fun s => s.ram.mem) hs :)⟩

theorem sameThere_abortColl (s : State) (part : Nat) (o : CollOp) : SameThere s (s.abortColl part o) := by
  unfold State.abortColl
  split
  · exact .refl s
  · refine .foldl (fun s r => ?_) _ s
    exact .ite (.refl s) (.ite ⟨rfl, rfl, rfl⟩ ⟨rfl, rfl, rfl⟩)

theorem sameThere_showLocked (s : State) (k : TeamKey) : SameThere s (s.showLocked k) where
  groups := rfl
  teams := rfl
  mem := mem_foldl (fun r (l : Nat × CoreId) => unhide_mem r l.1 l.2) _ s.ram

/-- With a team go its groups, and no others; the bytes of memory stay. -/
theorem dropTeam_there (s : State) (k : TeamKey) :
    (s.dropTeam k).groups.map Group.key = (s.groups.map Group.key).filter (fun q => q.team ≠ k) ∧
      (s.dropTeam k).teams.map Team.key = (s.teams.map Team.key).filter (· ≠ k) ∧ (s.dropTeam k).ram.mem = s.ram.mem := by
  obtain ⟨h1, h2, h3⟩ := (SameThere.foldl (fun s o => sameThere_abortColl s k.part o) ((s.part k.part).colls.filter fun o => o.group.team = k) s).trans
    (sameThere_showLocked _ k)
  rw [← h1, ← h2, ← h3, List.filter_map, List.filter_map]
  exact ⟨rfl, rfl, rfl⟩

end

/-! ## GROUP_RETIRE (R38, R232) -/

section
variable {s t : State} {k : GroupKey} {g : Group}

theorem group?_none_iff : s.group? k = none ↔ k ∉ s.groups.map Group.key := by
  simp [State.group?]

theorem team?_isSome_iff {q : TeamKey} : (s.team? q).isSome = true ↔ q ∈ s.teams.map Team.key := by
  simp [State.team?]

/-- What a group's retirement leaves once it has left its slot: its grid keeps what it has read and written. -/
def leftSlot (s : State) (k : GroupKey) (g : Group) : State :=
  { s with groups := s.groups.filter fun h => h.key ≠ k }.updPart k.team.part fun p =>
    { p with grids := p.grids.map fun (r : Grid) => if r.num = k.team.grid then { r with did := View.join r.did g.viewAll } else r }

/-- A group that is over leaves; with the last one of its team the team does. -/
theorem exec_groupRetire (hg : s.group? k = some g) (ho : g.over = true) (hf : (s.part k.team.part).resetAt = none) :
    exec (.groupRetire k) s = .next (if (leftSlot s k g).groups.any (fun h => h.key.team = k.team) then
      (((leftSlot s k g).rankOf k.team g.rank).c.map Prod.fst).foldl (fun t c => t.judge4 k.team g.rank c) (leftSlot s k g)
    else ((leftSlot s k g).dropTeam k.team).regrant) := by
  have hf : s.falling k.team.part = false := by rw [State.falling, hf]; rfl
  show execGroupRetire k s = _
  simp only [execGroupRetire, hg, ho, hf, Bool.not_true, Bool.or_self, Bool.false_eq_true, if_false]
  exact (apply_ite Host.Outcome.next ..).symm

theorem groupRetires (hg : s.group? k = some g) (ho : g.over = true) (hf : (s.part k.team.part).resetAt = none) :
    ∃ t, exec (.groupRetire k) s = .next t ∧ t.group? k = none ∧ t.ram.mem = s.ram.mem ∧
      ((∀ h ∈ s.groups, h.key.team = k.team → h.key = k) → t.team? k.team = none ∧ ∀ h ∈ t.groups, h.key.team ≠ k.team) ∧
      ((∃ h ∈ s.groups, h.key.team = k.team ∧ h.key ≠ k) → (t.team? k.team).isSome = (s.team? k.team).isSome) := by
  have hx := exec_groupRetire hg ho hf
  have hgr : (leftSlot s k g).groups = s.groups.filter fun h => h.key ≠ k := rfl
  by_cases hl : ∃ h ∈ s.groups, h.key.team = k.team ∧ h.key ≠ k
  · have hany : (leftSlot s k g).groups.any (fun h => h.key.team = k.team) = true := by
      obtain ⟨h, h1, h2, h3⟩ := hl
      rw [hgr]
      exact List.any_eq_true.mpr ⟨h, List.mem_filter.mpr ⟨h1, by simpa using h3⟩, by simpa using h2⟩
    rw [if_pos hany] at hx
    obtain ⟨h1, h2, h3⟩ := SameThere.foldl (fun t c => sameThere_judge4 t k.team g.rank c)
      (((leftSlot s k g).rankOf k.team g.rank).c.map Prod.fst) (leftSlot s k g)
    refine ⟨_, hx, ?_, h3, fun ha => ?_, fun _ => ?_⟩
    · rw [group?_none_iff, h1, hgr]
      simp
    · obtain ⟨h, m1, m2, m3⟩ := hl
      exact absurd (ha h m1 m2) m3
    · rw [Bool.eq_iff_iff, team?_isSome_iff, team?_isSome_iff, h2]
      rfl
  · have hany : ¬(leftSlot s k g).groups.any (fun h => h.key.team = k.team) = true := fun ha => by
      obtain ⟨h, h1, h2⟩ := List.any_eq_true.mp ha
      rw [hgr] at h1
      exact hl ⟨h, List.mem_of_mem_filter h1, by simpa using h2, by simpa using (List.mem_filter.mp h1).2⟩
    rw [if_neg hany] at hx
    obtain ⟨d1, d2, d3⟩ := dropTeam_there (leftSlot s k g) k.team
    obtain ⟨h1, h2, h3⟩ := sameThere_regrant ((leftSlot s k g).dropTeam k.team)
    refine ⟨_, hx, ?_, h3.trans d3, fun _ => ⟨?_, fun h hh => ?_⟩, fun h => absurd h hl⟩
    · rw [group?_none_iff, h1, d1]
      simp
    · rw [← Option.not_isSome_iff_eq_none, team?_isSome_iff, h2, d2]
      simp
    · have hm := List.mem_map_of_mem (f := Group.key) hh
      rw [h1, d1] at hm
      simpa using (List.mem_filter.mp hm).2

end
end Sys2Proof.Claims
end

section
/-! PROOF. What a load reads of a chunk: the bytes of each 64-byte line as of one moment (R48, R170, R174, R351, R405, R408). -/

namespace Sys2Proof.Claims

open Sys2Proof.Machine Sys2Proof.Laws

/-! ## The bytes of a chunk, line by line and word by word -/

section
variable {c : Chunk} {w x b : Nat}

/-- The addresses of the bytes of a chunk that lie in the word at `w`. -/
def bytesIn (c : Chunk) (w : Nat) : List Nat :=
  (List.range 8).filterMap fun i => if c.addr ≤ w + i ∧ w + i < c.addr + c.n then some (w + i) else none

theorem mem_bytesIn : b ∈ bytesIn c w ↔ (w ≤ b ∧ b < w + 8) ∧ c.addr ≤ b ∧ b < c.addr + c.n := by
  simp only [bytesIn, List.mem_filterMap, List.mem_range, Option.ite_none_right_eq_some, Option.some.injEq]
  constructor
  · rintro ⟨i, hi, h, rfl⟩
    omega
  · rintro ⟨h, h'⟩
    exact ⟨b - w, by omega, by omega, by omega⟩

theorem mem_wordsOf {a n : Nat} : w ∈ wordsOf a n ↔ w % 8 = 0 ∧ w < a + n ∧ a < w + 8 ∧ n ≠ 0 := by
  unfold wordsOf
  split_ifs with h
  · simp [h]
  · simp only [List.mem_map, List.mem_range]
    constructor
    · rintro ⟨i, hi, rfl⟩
      omega
    · rintro ⟨h1, h2, h3, -⟩
      exact ⟨w / 8 - a / 8, by omega, by omega⟩

theorem mem_linesOf {a n : Nat} : x ∈ linesOf a n ↔ x % 64 = 0 ∧ x < a + n ∧ a < x + 64 ∧ n ≠ 0 := by
  unfold linesOf
  split_ifs with h
  · simp [h]
  · simp only [List.mem_map, List.mem_range]
    constructor
    · rintro ⟨i, hi, rfl⟩
      omega
    · rintro ⟨h1, h2, h3, -⟩
      exact ⟨x / 64 - a / 64, by omega, by omega⟩

theorem mem_inLine : w ∈ c.inLine x ↔ w ∈ wordsOf c.addr c.n ∧ w / 64 * 64 = x := by simp [Chunk.inLine]

theorem bytesIn_sorted (c : Chunk) (w : Nat) : (bytesIn c w).Pairwise (· < ·) := by
  refine List.Pairwise.filterMap _ (fun i j hij a ha b hb => ?_) List.pairwise_lt_range
  simp only [Option.ite_none_right_eq_some, Option.some.injEq] at ha hb
  omega

theorem wordsOf_sorted (a n : Nat) : (wordsOf a n).Pairwise (· < ·) := by
  unfold wordsOf
  split_ifs
  · exact List.Pairwise.nil
  · exact List.pairwise_map.mpr (List.pairwise_lt_range.imp fun h => by omega)

theorem linesOf_sorted (a n : Nat) : (linesOf a n).Pairwise (· < ·) := by
  unfold linesOf
  split_ifs
  · exact List.Pairwise.nil
  · exact List.pairwise_map.mpr (List.pairwise_lt_range.imp fun h => by omega)

/-- The addresses of the bytes of a chunk that lie in the line at `x`. -/
def bytesOn (c : Chunk) (x : Nat) : List Nat := (c.inLine x).flatMap (bytesIn c)

theorem mem_bytesOn (h : b ∈ bytesOn c x) : b / 64 * 64 = x := by
  obtain ⟨w, hw, hb⟩ := List.mem_flatMap.mp h
  obtain ⟨hw, hx⟩ := mem_inLine.mp hw
  obtain ⟨h8, -⟩ := mem_wordsOf.mp hw
  obtain ⟨hb, -⟩ := mem_bytesIn.mp hb
  omega

theorem bytesOn_sorted (c : Chunk) (x : Nat) : (bytesOn c x).Pairwise (· < ·) := by
  refine List.pairwise_flatMap.mpr ⟨fun w _ => bytesIn_sorted c w, ((wordsOf_sorted c.addr c.n).filter _).imp_of_mem fun {u v} hu hv huv a ha b hb => ?_⟩
  obtain ⟨h1, -⟩ := mem_wordsOf.mp (List.mem_of_mem_filter hu)
  obtain ⟨h2, -⟩ := mem_wordsOf.mp (List.mem_of_mem_filter hv)
  obtain ⟨ha, -⟩ := mem_bytesIn.mp ha
  obtain ⟨hb, -⟩ := mem_bytesIn.mp hb
  omega

/-- Line by line, a chunk is read in the order of its bytes. -/
theorem flatMap_bytesOn (c : Chunk) : (linesOf c.addr c.n).flatMap (bytesOn c) = (List.range c.n).map (c.addr + ·) := by
  refine List.Pairwise.eq_of_mem_iff (r := (· < ·)) ?_ ?_ fun b => ?_
  · refine List.pairwise_flatMap.mpr ⟨fun x _ => bytesOn_sorted c x, (linesOf_sorted c.addr c.n).imp_of_mem fun {u v} hu hv huv a ha b hb => ?_⟩
    obtain ⟨h1, -⟩ := mem_linesOf.mp hu
    obtain ⟨h2, -⟩ := mem_linesOf.mp hv
    have ha := mem_bytesOn ha
    have hb := mem_bytesOn hb
    omega
  · exact List.pairwise_map.mpr (List.pairwise_lt_range.imp fun h => by omega)
  · simp only [List.mem_flatMap, List.mem_map, List.mem_range]
    constructor
    · rintro ⟨x, -, hb⟩
      obtain ⟨w, -, hb⟩ := List.mem_flatMap.mp hb
      obtain ⟨-, h1, h2⟩ := mem_bytesIn.mp hb
      exact ⟨b - c.addr, by omega, by omega⟩
    · rintro ⟨i, hi, rfl⟩
      exact ⟨(c.addr + i) / 64 * 64, mem_linesOf.mpr (by omega), List.mem_flatMap.mpr ⟨(c.addr + i) / 8 * 8,
        mem_inLine.mpr ⟨mem_wordsOf.mpr (by omega), by omega⟩, mem_bytesIn.mpr (by omega)⟩⟩

end

/-! ## Reading a word -/

section
variable {s : State} {g : Group} {c : Chunk} {o : Option Nat} {w : Nat}

/-- A sum of powers that is zero has no terms. -/
theorem foldl_bits_zero {p : Nat → Bool} {ls : List Nat} {x : Nat} (h : ls.foldl (fun x i => if p i then x + 2 ^ i else x) x = 0) :
    x = 0 ∧ ∀ i ∈ ls, p i = false := by
  induction ls generalizing x with
  | nil => exact ⟨h, by simp⟩
  | cons i t ih =>
    obtain ⟨h1, h2⟩ := ih h
    cases hp : p i with
    | true =>
      have := Nat.two_pow_pos i
      simp only [hp, if_true] at h1
      omega
    | false => exact ⟨by simpa [hp] using h1, List.forall_mem_cons.mpr ⟨hp, h2⟩⟩

theorem testBit_maskOf {a n i : Nat} (hi : i < 8) (h1 : a ≤ w + i) (h2 : w + i < a + n) : (maskOf w a n).testBit i = true := by
  have hlo : max a w - w ≤ i := by omega
  have hhi : i < min (a + n) (w + 8) - w := by omega
  rw [maskOf]
  generalize max a w - w = lo at *
  generalize min (a + n) (w + 8) - w = hi at *
  obtain ⟨d, rfl⟩ := Nat.exists_eq_add_of_le (show lo ≤ hi by omega)
  have he : 2 ^ (lo + d) - 2 ^ lo = 2 ^ lo * (2 ^ d - 1) := by
    rw [pow_add, Nat.mul_sub, mul_one]
  rw [he, Nat.testBit_two_pow_mul, Nat.testBit_two_pow_sub_one, Bool.and_eq_true, decide_eq_true_eq, decide_eq_true_eq]
  omega

/-- Where nothing of a word comes from storage, the group's own stores give every byte. -/
theorem forwarded_of_zero {b : Nat} (h : g.unforwarded false c w = 0) (hb : b ∈ bytesIn c w) : (g.fwdByte c.tgt b).isSome = true := by
  obtain ⟨⟨hw1, hw2⟩, h1, h2⟩ := mem_bytesIn.mp hb
  have hz : (List.range 8).foldl
      (fun x i => if (maskOf w c.addr c.n).testBit i && (false || (g.fwdByte c.tgt (w + i)).isNone) then x + 2 ^ i else x) 0 = 0 := by
    simp only [Group.unforwarded] at h
    split at h <;> omega
  have := (foldl_bits_zero hz).2 (b - w) (List.mem_range.mpr (by omega))
  rw [testBit_maskOf (by omega) (by omega) (by omega), show w + (b - w) = b by omega] at this
  simpa [Option.isSome_iff_ne_none] using this

/-- A word of a chunk without poison, read as of a moment. -/
theorem loadWord_read (hw : w % 8 = 0) (hp : (s.wordSeen g c.tgt o w).pois = false) (hf : ∀ b ∈ bytesIn c w, g.fwdPois c.tgt b = false) :
    (s.loadWord g false c o w).bytes = (bytesIn c w).map (byteSeen s g c.tgt o) ∧ (s.loadWord g false c o w).pois = [] := by
  have hbad : (!false && (bytesIn c w).any (g.fwdPois c.tgt)) = false := by
    rw [Bool.not_false, Bool.true_and]
    exact List.any_eq_false.mpr fun b hb => by rw [hf b hb]; exact Bool.false_ne_true
  by_cases hr : g.unforwarded false c w = 0
  · have he : s.loadWord g false c o w = ⟨(bytesIn c w).map fun a => (g.fwdByte c.tgt a).getD 0,
        (if c.tgt = .mem ∧ !false then g.fwdTag w else none).getD false,
        if !false && (bytesIn c w).any (g.fwdPois c.tgt) then [0] else [], [], []⟩ := if_pos hr
    rw [he]
    refine ⟨List.map_congr_left fun b hb => ?_, by rw [hbad]; rfl⟩
    obtain ⟨y, hy⟩ := Option.isSome_iff_exists.mp (forwarded_of_zero hr hb)
    rw [byteSeen, hy]
    rfl
  · set y := s.wordSeen g c.tgt o w
    have hb : (s.loadWord g false c o w).bytes = (bytesIn c w).map fun a => (g.fwdByte c.tgt a).getD
        ((if y.pois ∧ (c.phys.map fun p => ptePol p.pte).getD 0 = 1 then 0 else y.val).extractLsb' (8 * (a - w)) 8) :=
      congrArg Got.bytes (if_neg hr)
    have hq : (s.loadWord g false c o w).pois = (if !false && (bytesIn c w).any (g.fwdPois c.tgt) then [0] else []) ++
        if y.pois then [(c.phys.map fun p => ptePol p.pte).getD 0] else [] := congrArg Got.pois (if_neg hr)
    rw [hb, hq, hbad, hp]
    refine ⟨List.map_congr_left fun a ha => ?_, rfl⟩
    obtain ⟨⟨h1, h2⟩, -⟩ := mem_bytesIn.mp ha
    rw [byteSeen, if_neg fun h => Bool.false_ne_true h.1, show a / 8 * 8 = w by omega, show a % 8 = a - w by omega]

/-- Reads put one after the other. -/
theorem foldl_and {α : Type} (f : α → Got) (ls : List α) (r : Got) :
    (ls.foldl (fun r w => r.and (f w)) r).bytes = r.bytes ++ ls.flatMap (fun w => (f w).bytes) ∧
      (ls.foldl (fun r w => r.and (f w)) r).pois = r.pois ++ ls.flatMap fun w => (f w).pois := by
  induction ls generalizing r with
  | nil => simp
  | cons w t ih =>
    obtain ⟨h1, h2⟩ := ih (r.and (f w))
    rw [List.foldl_cons, h1, h2]
    simp [Got.and]

/-! ## Reading a line and a chunk -/

theorem pick_mem {α : Type} (s : State) {l : List α} (d : α) (h : l ≠ []) : (s.pick l d).1 ∈ l := by
  unfold State.pick
  have hl := List.length_pos_of_ne_nil h
  split
  · obtain ⟨x, t, rfl⟩ := List.exists_cons_of_ne_nil h
    exact List.mem_cons_self
  · have hm := Nat.mod_lt (Config.freeNat s.fresh) hl
    rw [List.getD_eq_getElem _ _ hm]
    exact List.getElem_mem hm

theorem pick_state {α : Type} (s : State) (l : List α) (d : α) : ∃ n, (s.pick l d).2 = { s with fresh := n } := by
  unfold State.pick
  split
  · exact ⟨s.fresh, rfl⟩
  · exact ⟨_, rfl⟩

theorem moments_ne_nil (s : State) (g : Group) (v : View) (c : Chunk) (x : Nat) : s.moments g v false c x ≠ [] := by
  unfold State.moments
  dsimp only
  split
  · simp
  · split_ifs
    · simp
    · split
      · simp
      · next h => simpa using h

/-- Nothing of a chunk is poisoned, for any moment. -/
def ChunkSound (s : State) (g : Group) (c : Chunk) : Prop :=
  (∀ w ∈ wordsOf c.addr c.n, ∀ o, (s.wordSeen g c.tgt o w).pois = false) ∧ ∀ i, i < c.n → g.fwdPois c.tgt (c.addr + i) = false

theorem loadLine_read (h : ChunkSound s g c) (v : View) (m x : Nat) :
    ∃ n, ∃ o ∈ s.moments g v false c x, (({ s with fresh := m }).loadLine g v false c x).1 = { s with fresh := n } ∧
      (({ s with fresh := m }).loadLine g v false c x).2.bytes = (bytesOn c x).map (byteSeen s g c.tgt o) ∧
      (({ s with fresh := m }).loadLine g v false c x).2.pois = [] := by
  set t : State := { s with fresh := m }
  obtain ⟨n, hn⟩ := pick_state t (t.moments g v false c x) none
  set o := (t.pick (t.moments g v false c x) none).1 with ho
  have hw : ∀ w ∈ c.inLine x, (t.loadWord g false c o w).bytes = (bytesIn c w).map (byteSeen s g c.tgt o) ∧ (t.loadWord g false c o w).pois = [] :=
    fun w hw => by
      obtain ⟨hw, -⟩ := mem_inLine.mp hw
      refine loadWord_read (s := t) (mem_wordsOf.mp hw).1 (h.1 w hw o) fun b hb => ?_
      obtain ⟨-, h1, h2⟩ := mem_bytesIn.mp hb
      have := h.2 (b - c.addr) (by omega)
      rwa [show c.addr + (b - c.addr) = b by omega] at this
  obtain ⟨h1, h2⟩ := foldl_and (t.loadWord g false c o) (c.inLine x) Got.none_
  refine ⟨n, o, pick_mem t none (moments_ne_nil t g v c x), hn, h1.trans ?_, h2.trans ?_⟩
  · rw [bytesOn, List.map_flatMap]
    exact List.flatMap_congr fun w hm => (hw w hm).1
  · exact List.flatMap_eq_nil_iff.mpr fun w hm => (hw w hm).2

/-- What has been read of a chunk, once one line more has. -/
def andLine (g : Group) (v : View) (c : Chunk) (r : State × Got) (x : Nat) : State × Got :=
  ((r.1.loadLine g v false c x).1, r.2.and (r.1.loadLine g v false c x).2)

theorem loadChunk_eq (s : State) (g : Group) (v : View) (c : Chunk) :
    s.loadChunk g v false c = (linesOf c.addr c.n).foldl (andLine g v c) (s, Got.none_) := rfl

theorem foldl_andLine (h : ChunkSound s g c) (v : View) (ls : List Nat) (hd : ls.Nodup) (m : Nat) (r : Got) :
    ∃ (n : Nat) (mo : Nat → Option Nat), (∀ x ∈ ls, mo x ∈ s.moments g v false c x) ∧
      (ls.foldl (andLine g v c) ({ s with fresh := m }, r)).1 = { s with fresh := n } ∧
      (ls.foldl (andLine g v c) ({ s with fresh := m }, r)).2.bytes =
        r.bytes ++ ls.flatMap (fun x => (bytesOn c x).map (byteSeen s g c.tgt (mo x))) ∧
      (ls.foldl (andLine g v c) ({ s with fresh := m }, r)).2.pois = r.pois := by
  induction ls generalizing m r with
  | nil => exact ⟨m, fun _ => none, by simp, rfl, by simp, rfl⟩
  | cons x t ih =>
    obtain ⟨hx, hd⟩ := List.nodup_cons.mp hd
    obtain ⟨n, o, ho, h1, h2, h3⟩ := loadLine_read h v m x
    rw [List.foldl_cons, andLine, h1]
    obtain ⟨n', mo, hmo, e1, e2, e3⟩ := ih hd n (r.and (({ s with fresh := m } : State).loadLine g v false c x).2)
    have hne : ∀ y ∈ t, y ≠ x := fun y hy he => hx (he ▸ hy)
    refine ⟨n', fun y => if y = x then o else mo y, List.forall_mem_cons.mpr ⟨by simpa using ho, fun y hy => ?_⟩, e1, e2.trans ?_, e3.trans ?_⟩
    · simpa [hne y hy] using hmo y hy
    · rw [List.flatMap_cons, Got.and, h2, List.append_assoc]
      simp only [if_true]
      congr 2
      exact List.flatMap_congr fun y hy => by rw [if_neg (hne y hy)]
    · rw [Got.and, h3, List.append_nil]

/-- A chunk without poison gives the bytes that a load may read, and draws on no more than free values. -/
theorem loadChunk_read (h : ChunkSound s g c) (v : View) (m : Nat) :
    ∃ n, (({ s with fresh := m }).loadChunk g v false c).1 = { s with fresh := n } ∧
      ChunkRead s g v c (({ s with fresh := m }).loadChunk g v false c).2.bytes ∧ (({ s with fresh := m }).loadChunk g v false c).2.pois = [] := by
  rw [loadChunk_eq]
  obtain ⟨n, mo, hmo, h1, h2, h3⟩ := foldl_andLine h v (linesOf c.addr c.n) ((linesOf_sorted ..).imp Nat.ne_of_lt) m Got.none_
  refine ⟨n, h1, ⟨mo, hmo, h2.trans ?_⟩, h3⟩
  have hb : ∀ x, (bytesOn c x).map (byteSeen s g c.tgt (mo x)) = (bytesOn c x).map fun b => byteSeen s g c.tgt (mo (b / 64 * 64)) b :=
    fun x => List.map_congr_left fun b hb => by rw [mem_bytesOn hb]
  rw [show Got.none_.bytes = [] from rfl, List.nil_append, List.flatMap_congr fun x _ => hb x, ← List.map_flatMap, flatMap_bytesOn,
    List.map_map]
  rfl

end
end Sys2Proof.Claims
end

section
/-! PROOF. Engine commands, loads that return, and the ends of HOLDW and CEDE waits (R64, R79, R133, R301, R331, R346, R387, R407). -/

namespace Sys2Proof.Claims

open Sys2Proof.Machine Sys2Proof.Laws

/-! ## The units of a command (R133, R387) -/

section
variable {s : State} {g : Group} {c : Cmd} {e : Elem}

theorem chunkSound_of_sound {a : Acc} (h : Sound s g a) : ∀ k ∈ a.chunks, ChunkSound s g k := fun k hk => h k hk

/-- A chunk that an engine reads for a unit, with the policy that poison in it is met with. -/
def readChunk (g : Group) (c : Cmd) (va : Nat) (pol : Option Nat) (r : Moved × List Byte) (k : Chunk) : Moved × List Byte :=
  let x := r.1.s.loadChunk g.bare (g.mustSee c.cls) false k
  ({ r.1 with s := x.1, saw := View.join r.1.saw x.2.saw, pois := r.1.pois ++ if x.2.pois.isEmpty then [] else [(pol.getD 0, va)] },
    r.2 ++ x.2.bytes)

theorem readElem_of_none (m : Moved) (h : e.addr = none) :
    readElem g c m e = (m, if c.kind.produces then c.fill.take e.len else (c.fill.drop e.off).take e.len) := by
  unfold readElem
  simp only [h]
  split_ifs <;> rfl

/-- A unit from storage is read chunk by chunk. -/
theorem readElem_of_some (m : Moved) {pa : Nat} (h : e.addr = some pa) :
    readElem g c m e = (elemChunks c e).foldl (readChunk g c e.va (if c.kind.produces then some (ptePol e.pte) else none)) (m, []) := by
  cases hk : c.kind.produces with
  | true =>
    simp only [readElem, elemChunks, h, hk, if_true]
    rfl
  | false =>
    simp only [readElem, elemChunks, h, hk, Bool.false_eq_true, if_false, List.foldl_map]
    rfl

/-- Chunks without poison are read as a load may, and nothing else has changed. -/
theorem foldl_readChunk (va : Nat) (pol : Option Nat) (ks : List Chunk) (h : ∀ k ∈ ks, ChunkSound s g.bare k) (m : Moved) (d : List Byte) (n : Nat)
    (hm : m.s = { s with fresh := n }) :
    ∃ ls n' saw, List.Forall₂ (ChunkRead s g.bare (g.mustSee c.cls)) ks ls ∧
      ks.foldl (readChunk g c va pol) (m, d) = ({ m with s := { s with fresh := n' }, saw := saw }, d ++ ls.flatten) := by
  induction ks generalizing m d n with
  | nil => exact ⟨[], n, m.saw, .nil, by simp [← hm]⟩
  | cons k t ih =>
    obtain ⟨hk, ht⟩ := List.forall_mem_cons.mp h
    obtain ⟨n1, h1, h2, h3⟩ := loadChunk_read hk (g.mustSee c.cls) n
    rw [← hm] at h1 h2 h3
    have he : readChunk g c va pol (m, d) k = ({ m with
        s := { s with fresh := n1 }, saw := View.join m.saw (m.s.loadChunk g.bare (g.mustSee c.cls) false k).2.saw },
        d ++ (m.s.loadChunk g.bare (g.mustSee c.cls) false k).2.bytes) := by
      simp only [readChunk, h1, h3, List.isEmpty_nil, if_true, List.append_nil]
    rw [List.foldl_cons, he]
    obtain ⟨ls, n2, saw, f1, f2⟩ := ih ht { m with
      s := { s with fresh := n1 }, saw := View.join m.saw (m.s.loadChunk g.bare (g.mustSee c.cls) false k).2.saw } _ n1 rfl
    exact ⟨_ :: ls, n2, saw, .cons h2 f1, f2.trans (by rw [List.flatten_cons, List.append_assoc])⟩

/-- A unit without poison gives what it may read. -/
theorem readElem_read (h : Sound s g.bare ⟨0, 0, elemChunks c e⟩) (m : Moved) (n : Nat) (hm : m.s = { s with fresh := n }) :
    ∃ l n' saw, ElemRead s g c e l ∧ readElem g c m e = ({ m with s := { s with fresh := n' }, saw := saw }, l) := by
  unfold ElemRead
  rcases ha : e.addr with _ | pa
  · exact ⟨_, n, m.saw, rfl, by rw [readElem_of_none m ha, ← hm]⟩
  · obtain ⟨ls, n', saw, h1, h2⟩ := foldl_readChunk (c := c) e.va (if c.kind.produces then some (ptePol e.pte) else none) (elemChunks c e)
      (chunkSound_of_sound h) m [] n hm
    exact ⟨ls.flatten, n', saw, ⟨ls, h1, rfl⟩, by rw [readElem_of_some m ha, h2, List.nil_append]⟩

/-! ## Its writes (R407) -/

theorem foldl_moveElem (w : List Elem) (h : ∀ e ∈ w, Sound s g.bare ⟨0, 0, elemChunks c e⟩) (m : Moved) (n : Nat) (hm : m.s = { s with fresh := n }) :
    ∃ d n' saw, List.Forall₂ (ElemRead s g c) w d ∧ w.foldl (moveElem g c) m =
      { m with s := { s with fresh := n' }, saw := saw, pieces := m.pieces ++ (w.zip d).flatMap fun y => writeElem c y.1 y.2 } := by
  induction w generalizing m n with
  | nil => exact ⟨[], n, m.saw, .nil, by simp [← hm]⟩
  | cons e t ih =>
    obtain ⟨he, ht⟩ := List.forall_mem_cons.mp h
    obtain ⟨l, n1, saw1, h1, h2⟩ := readElem_read he m n hm
    obtain ⟨d, n2, saw2, f1, f2⟩ := ih ht (moveElem g c m e) n1 (by rw [moveElem, h2])
    refine ⟨l :: d, n2, saw2, .cons h1 f1, f2.trans ?_⟩
    rw [moveElem, h2]
    simp

/-- The effect that one write of a command stages. -/
def writeEffect (c : Cmd) (now : Nat) (w : List Elem) (d : List (List Byte)) : List Effect := cmdEffects c now [w] [d]

theorem cmdEffects_cons (c : Cmd) (now : Nat) (w : List Elem) (d : List (List Byte)) (ws : List (List Elem)) (ds : List (List (List Byte))) :
    cmdEffects c now (w :: ws) (d :: ds) = writeEffect c now w d ++ cmdEffects c now ws ds := by
  simp only [writeEffect, cmdEffects, List.zip_cons_cons, List.zip_nil_right, List.filterMap_cons, List.filterMap_nil]
  split_ifs <;> rfl

theorem moveWrite_read {w : List Elem} (h : ∀ e ∈ w, Sound s g.bare ⟨0, 0, elemChunks c e⟩) (now : Nat) (m : Moved) (l : List Effect) (n : Nat)
    (hm : m.s = { s with fresh := n }) :
    ∃ d n' saw ps, List.Forall₂ (ElemRead s g c) w d ∧ moveWrite g c now (m, l) w =
      ({ m with s := { s with fresh := n' }, saw := saw, pieces := ps }, l ++ writeEffect c now w d) := by
  obtain ⟨d, n', saw, h1, h2⟩ := foldl_moveElem w h { m with pieces := [] } n hm
  refine ⟨d, n', saw, (w.zip d).flatMap fun y => writeElem c y.1 y.2, h1, ?_⟩
  simp only [moveWrite, h2, writeEffect, cmdEffects, List.zip_cons_cons, List.zip_nil_right, List.filterMap_cons, List.filterMap_nil, List.nil_append]
  split_ifs <;> simp

/-- Writes without poison are staged, each as what its units have read. -/
theorem foldl_moveWrite (ws : List (List Elem)) (h : ∀ w ∈ ws, ∀ e ∈ w, Sound s g.bare ⟨0, 0, elemChunks c e⟩) (now : Nat) (m : Moved) (l : List Effect)
    (n : Nat) (hm : m.s = { s with fresh := n }) :
    ∃ ds n' saw ps, List.Forall₂ (List.Forall₂ (ElemRead s g c)) ws ds ∧ ws.foldl (moveWrite g c now) (m, l) =
      ({ m with s := { s with fresh := n' }, saw := saw, pieces := ps }, l ++ cmdEffects c now ws ds) := by
  induction ws generalizing m l n with
  | nil => exact ⟨[], n, m.saw, m.pieces, .nil, by simp [← hm, cmdEffects]⟩
  | cons w t ih =>
    obtain ⟨hw, ht⟩ := List.forall_mem_cons.mp h
    obtain ⟨d, n1, saw1, ps1, h1, h2⟩ := moveWrite_read hw now m l n hm
    rw [List.foldl_cons, h2]
    obtain ⟨ds, n2, saw2, ps2, f1, f2⟩ := ih ht { m with s := { s with fresh := n1 }, saw := saw1, pieces := ps1 } (l ++ writeEffect c now w d) n1 rfl
    exact ⟨d :: ds, n2, saw2, ps2, .cons h1 f1, f2.trans (by rw [cmdEffects_cons, List.append_assoc])⟩

/-! ## What a command asks for and stages -/

theorem request_state (s : State) (core : CoreId) (line : Nat) (own priv : Bool) :
    ∃ rs, s.request core line own priv = { s with coh := { s.coh with reqs := rs } } := by
  unfold State.request
  split_ifs <;> exact ⟨_, rfl⟩

theorem foldl_request {α : Type} {f : State → α → State} (hf : ∀ s x, ∃ rs, f s x = { s with coh := { s.coh with reqs := rs } }) (l : List α)
    (s : State) : ∃ rs, l.foldl f s = { s with coh := { s.coh with reqs := rs } } := by
  induction l generalizing s with
  | nil => exact ⟨s.coh.reqs, rfl⟩
  | cons x t ih =>
    obtain ⟨r1, h1⟩ := hf s x
    obtain ⟨r2, h2⟩ := ih (f s x)
    exact ⟨r2, by rw [List.foldl_cons, h2, h1]⟩

theorem askLines_state (s : State) (g : Group) (c : Cmd) (l : List Elem) : ∃ rs, s.askLines g c l = { s with coh := { s.coh with reqs := rs } } := by
  refine foldl_request (fun s e => ?_) l s
  dsimp only
  split
  · split_ifs
    · exact ⟨s.coh.reqs, rfl⟩
    · exact foldl_request (fun s x => request_state ..) _ s
  · exact ⟨s.coh.reqs, rfl⟩

theorem cmdEffects_seq {now : Nat} {ws : List (List Elem)} {ds : List (List (List Byte))} : ∀ x ∈ cmdEffects c now ws ds, x.seq = c.seq := fun x hx => by
  obtain ⟨y, -, hy⟩ := List.mem_filterMap.mp hx
  dsimp only at hy
  split_ifs at hy
  cases hy
  rfl

/-- What an entry stages in two steps stands in their order. -/
theorem stageAll_stageAll (g : Group) {n : Nat} {l : List Effect} (h : ∀ e ∈ l, e.seq = n) (l' : List Effect) :
    (g.stageAll n l).stageAll n l' = g.stageAll n (l ++ l') := by
  have h1 : l.filter (fun e => decide (e.seq ≤ n)) = l := List.filter_eq_self.mpr fun e he => by simp [h e he]
  have h2 : l.filter (fun e => decide (n < e.seq)) = [] := List.filter_eq_nil_iff.mpr fun e he => by simp [h e he]
  have h3 : ∀ x : List Effect, (x.filter fun e => decide (n < e.seq)).filter (fun e => decide (e.seq ≤ n)) = [] := fun x =>
    List.filter_eq_nil_iff.mpr fun e he => by
      have := (List.mem_filter.mp he).2
      simpa using this
  have h4 : ∀ x : List Effect, (x.filter fun e => decide (e.seq ≤ n)).filter (fun e => decide (n < e.seq)) = [] := fun x =>
    List.filter_eq_nil_iff.mpr fun e he => by
      have := (List.mem_filter.mp he).2
      simpa using this
  simp only [Group.stageAll, List.filter_append, h1, h2, h3, h4, List.filter_filter, Bool.and_self, List.append_nil, List.nil_append, List.append_assoc]

/-- An effect without the time its data was complete. -/
def untimed (e : Effect) : Effect := { e with execAt := 0 }

theorem markExecuted_staged (g : Group) (now seq : Nat) : (g.markExecuted now seq).staged.map untimed = g.staged.map untimed := by
  show (g.staged.map _).map untimed = _
  rw [List.map_map]
  refine List.map_congr_left fun e _ => ?_
  simp only [Function.comp]
  split_ifs <;> rfl

theorem endCmd_staged (g : Group) (now : Nat) (c : Cmd) (r : Rank) :
    (g.endCmd now c r).staged.map untimed = (g.stageAll c.seq (slotEffect r c now)).staged.map untimed := by
  unfold Group.endCmd slotEffect
  rw [markExecuted_staged]
  cases c.slot <;> rfl

theorem markExecuted_executed {g : Group} {now seq : Nat} {e : Entry} (h : e ∈ (g.markExecuted now seq).rob) (hs : e.seq = seq) : e.executed = true := by
  obtain ⟨x, -, rfl⟩ := List.mem_map.mp h
  split_ifs at hs ⊢ with hx
  · rfl
  · exact absurd hs hx

/-- The group once a command has run as far as its writes have found room: `l` is what they stage, `v` what it has seen. -/
def ranOn (s : State) (g : Group) (c : Cmd) (l : List Effect) (v : View) : Group :=
  let h := (g.stageAll c.seq l).later c.seq (Arch.seen c.cls c.seq v)
  if (s.fits g c).2 = [] then h.endCmd s.now c (rankOfG s g)
  else { h with cmds := h.cmds.map fun x => if x.seq = c.seq then { x with elems := (s.fits g c).2, paused := true } else x }

/-- A command whose data has no poison stages its writes, and asks for lines. -/
theorem runCmd_sound (hs : ∀ w ∈ (s.fits g c).1, ∀ e ∈ w, Sound s g.bare ⟨0, 0, elemChunks c e⟩) :
    ∃ ds n v rs, List.Forall₂ (List.Forall₂ (ElemRead s g c)) (s.fits g c).1 ds ∧
      s.runCmd g c = ({ s with fresh := n, coh := { s.coh with reqs := rs } } : State).setGroup (ranOn s g c (cmdEffects c s.now (s.fits g c).1 ds) v) := by
  obtain ⟨ds, n, v, ps, h1, h2⟩ := foldl_moveWrite (s.fits g c).1 hs s.now ⟨s, [], [], []⟩ [] s.fresh rfl
  obtain ⟨rs, hr⟩ := askLines_state { s with fresh := n } g c (s.fits g c).1.flatten
  refine ⟨ds, n, v, rs, h1, ?_⟩
  simp only [State.runCmd, h2, List.find?_nil, List.foldl_nil, hr, List.nil_append, ranOn, List.isEmpty_iff]
  split_ifs <;> rfl

theorem ranOn_staged {l : List Effect} (hl : ∀ e ∈ l, e.seq = c.seq) (v : View) :
    (ranOn s g c l v).staged.map untimed =
      (g.staged.filter (fun e => decide (e.seq ≤ c.seq)) ++ l ++ (if (s.fits g c).2 = [] then slotEffect (rankOfG s g) c s.now else []) ++
        g.staged.filter fun e => decide (c.seq < e.seq)).map untimed := by
  unfold ranOn
  split_ifs
  · refine (endCmd_staged ..).trans ?_
    show (((g.stageAll c.seq l).stageAll c.seq (slotEffect (rankOfG s g) c s.now)).staged).map untimed = _
    rw [stageAll_stageAll g hl, Group.stageAll, ← List.append_assoc]
  · rw [List.append_nil]
    rfl

/-- A command runs as far as its writes find room. -/
theorem runCmd_ran (hg : s.group? g.key = some g) (hs : ∀ w ∈ (s.fits g c).1, ∀ e ∈ w, Sound s g.bare ⟨0, 0, elemChunks c e⟩) :
    ∃ h, CmdRan s (s.runCmd g c) g h c := by
  obtain ⟨ds, n, v, rs, hd, he⟩ := runCmd_sound hs
  set h := ranOn s g c (cmdEffects c s.now (s.fits g c).1 ds) v with hh
  have hst := ranOn_staged (s := s) (g := g) (cmdEffects_seq (c := c) (now := s.now) (ws := (s.fits g c).1) (ds := ds)) v
  have hkey : h.key = g.key := by
    rw [hh, ranOn]
    split_ifs <;> rfl
  have harch : h.arch = Arch.seen c.cls c.seq v g.arch := by
    rw [hh, ranOn]
    split_ifs <;> rfl
  rw [he]
  set u : State := { s with fresh := n, coh := { s.coh with reqs := rs } }
  refine ⟨h, ⟨rfl, rfl⟩, ?_, setGroup_mine u g h hkey hg, ?_, ?_, ?_, ⟨ds, hd, hst⟩, ?_, fun hl e hm => ?_⟩
  · rw [← hkey]
    exact (setGroup_only u h).others
  · rw [harch]
    exact ⟨rfl, rfl, rfl, rfl⟩
  · rw [SameButMem, harch]
    rfl
  · rw [harch]
    rfl
  · rw [hh, ranOn]
    split_ifs <;> rfl
  · rw [hh, ranOn, if_pos hl] at hm
    exact markExecuted_executed hm

end

/-! ## Events that end a wait -/

section
variable {k : GroupKey} {s : State} {g : Group} {seq : Nat}

/-- ENGINE_RESUME runs a paused command (R64). -/
theorem exec_engineResume {c : Cmd} (hg : s.group? k = some g) (hw : s.engineWaits g c = false)
    (hc : g.cmds.find? (fun c => c.seq = seq ∧ c.paused) = some c) : exec (.engineResume k seq) s = .next (s.runCmd g c) := by
  show execEngineResume k seq s = _
  simp only [execEngineResume, hg, hc, hw, Bool.false_eq_true, if_false]

/-- EXECUTE_COMPLETE runs one whose sources are ready (R47). -/
theorem exec_executeCmd {c : Cmd} (hg : s.group? k = some g) (hw : s.engineWaits g c = false) (hc : g.cmds.find? (fun c => c.seq = seq) = some c)
    (hp : c.paused = false) (hd : g.depWaits seq = false) : exec (.executeComplete k seq) s = .next (s.runCmd g c) := by
  show execExecuteComplete k seq s = _
  simp only [execExecuteComplete, hg, hc, hw, hp, hd, Bool.or_self, Bool.false_eq_true, if_false]

/-- The home has answered for the lines of a load. -/
def answered (s : State) (g : Group) (ls : List Nat) : Coh :=
  ls.foldl (fun c x => match c.req? g.core x with
    | some r => if r.own then c else c.grant r
    | none => c) s.coh

/-- LOAD_RETURN executes a load whose lines are there and whose sources are ready (R346). -/
theorem exec_loadReturn {ls : List Nat} (hg : s.group? k = some g) (hl : g.loads.find? (fun l => l.1 = seq) = some (seq, ls))
    (hh : ∀ x ∈ ls, s.lineHere g.core x = true) (hd : g.depWaits seq = false) :
    exec (.loadReturn k seq) s = .next (({ s with coh := answered s g ls } : State).setGroup
      (Group.markExecuted { g with loads := g.loads.filter fun l => l.1 ≠ seq } s.now seq)) := by
  have hh : ls.all (s.lineHere g.core) = true := List.all_eq_true.mpr hh
  have hd : ({ g with loads := g.loads.filter fun l => l.1 ≠ seq } : Group).depWaits seq = false := hd
  have hf : Group.finished { g with loads := g.loads.filter fun l => l.1 ≠ seq } s.now seq =
      Group.markExecuted { g with loads := g.loads.filter fun l => l.1 ≠ seq } s.now seq := if_neg (by rw [hd]; exact Bool.false_ne_true)
  show execLoadReturn k seq s = _
  simp only [execLoadReturn, hg, hl, hh, hf, Bool.not_true, Bool.false_eq_true, if_false]
  rfl

theorem loadReturns {ls : List Nat} (hg : s.group? k = some g) (hl : g.loads.find? (fun l => l.1 = seq) = some (seq, ls))
    (hh : ∀ x ∈ ls, s.lineHere g.core x = true) (hd : g.depWaits seq = false) :
    ∃ t h, exec (.loadReturn k seq) s = .next t ∧ t.group? k = some h ∧ (∀ k', k' ≠ k → t.group? k' = s.group? k') ∧ t.ram = s.ram ∧
      t.teams = s.teams ∧ t.parts = s.parts ∧ h.arch = g.arch ∧ h.loads = g.loads.filter (fun l => l.1 ≠ seq) ∧
      h.rob = g.rob.map (fun e => if e.seq = seq then { e with executed := true } else e) ∧
      h.staged = g.staged.map (fun e => if e.seq = seq ∧ e.engine = false then { e with execAt := s.now } else e) := by
  have hk := key_of_group? hg
  subst hk
  set u : State := { s with coh := answered s g ls }
  set h : Group := Group.markExecuted { g with loads := g.loads.filter fun l => l.1 ≠ seq } s.now seq
  refine ⟨u.setGroup h, h, exec_loadReturn hg hl hh hd, setGroup_mine u g h rfl hg, (setGroup_only u h).others, rfl, rfl, rfl, rfl, rfl, rfl, ?_⟩
  refine List.map_congr_left fun e _ => ?_
  cases e.engine <;> simp

/-- HOLDW_WAKE ends the waits whose time is over (R331). -/
theorem holdwWakes (hg : s.group? k = some g) :
    ∃ t h, exec (.holdwWake k) s = .next t ∧ ChangedGroup s t k h ∧ h.look = g.blocked ||| (g.look &&& g.coll) ∧ h.holds.length = g.holds.length ∧
      (∀ (n : Nat) (x : HoldWait), g.holds[n]? = some x → h.holds[n]? = some { x with woken := x.woken || decide (x.until_ ≤ s.now) }) ∧
      { h with look := g.look, holds := g.holds } = g := by
  set f : Group → Group := fun g =>
    { g with look := g.blocked ||| (g.look &&& g.coll), holds := g.holds.map fun h => if h.until_ ≤ s.now then { h with woken := true } else h }
  refine ⟨s.updGroup k f, f g, rfl, ⟨rfl, fun k' hk => updGroup_other s hk f fun _ h => h, updGroup_get s k f (fun _ h => h) g hg⟩, rfl,
    List.length_map _, fun n x hx => ?_, rfl⟩
  show (g.holds.map _)[n]? = _
  rw [List.getElem?_map, hx]
  by_cases h : x.until_ ≤ s.now <;> simp [h]

/-- CEDE_EXPIRY makes ceded threads eligible again (R301). -/
theorem cedeExpires (hg : s.group? k = some g) (h : s.cedeEnd g ≤ s.now) :
    ∃ t, exec (.cedeExpiry k) s = .next t ∧ ChangedGroup s t k { g with ceded := 0 } := by
  set f : Group → Group := fun g => if s.cedeEnd g ≤ s.now then { g with ceded := 0 } else g
  have hf : ∀ x : Group, x.key = k → (f x).key = k := fun x hx => (apply_ite Group.key _ _ _).trans (by simp [hx])
  have hm := updGroup_get s k f hf g hg
  rw [show f g = { g with ceded := 0 } from if_pos h] at hm
  exact ⟨s.updGroup k f, rfl, rfl, fun k' hk => updGroup_other s hk f hf, hm⟩

end

/-- Settles O41: an engine command runs by `runCmd`, the other waits end in one update of their group, and a group that is over leaves with
its effects on other groups and teams gone through `SameThere`. -/
theorem waitsEnd : Obligations.WaitsEnd := by
  unfold Obligations.WaitsEnd
  refine ⟨fun k s g seq hg => ⟨fun c hw hs => ?_, fun ls => loadReturns hg, holdwWakes hg, cedeExpires hg⟩, ?_⟩
  · have hk := key_of_group? hg
    subst hk
    obtain ⟨h, hr⟩ := runCmd_ran hg hs
    exact ⟨fun hc => ⟨_, h, exec_engineResume hg hw hc, hr⟩, fun hc hp hd => ⟨_, h, exec_executeCmd hg hw hc hp hd, hr⟩⟩
  · intro k s g hg hl hr hst hc ht hre
    refine groupRetires hg ?_ hre
    simp [Group.over, hl, hr, hst, hc, ht]

end Sys2Proof.Claims
end

section
/-! PROOF. The forwarding of staged stores, and TRAP, the handler's entry and TRET (R48, R55, R73, R223, R224, R398, R399). -/

namespace Sys2Proof.Claims

open Sys2Proof.Machine Sys2Proof.Laws

/-! ## Forwarding (R48) -/

section
variable {e : Effect} {t : Target} {p : Piece} {tag : TagOp} {sc : Option Scope} {a : Nat}

theorem byteAt_write_one (hk : e.kind = .write [p] tag sc) :
    e.byteAt t a = if p.tgt = t ∧ p.addr ≤ a then p.data[a - p.addr]? else none := by
  simp [Effect.byteAt, hk]

/-- What is staged last is asked first. -/
theorem fwdByte_stage (g : Group) (e : Effect) (t : Target) (a : Nat) :
    ({ g with staged := g.staged ++ [e] } : Group).fwdByte t a = (e.byteAt t a).or (g.fwdByte t a) := by
  simp only [Group.fwdByte, List.reverse_append, List.reverse_singleton, List.singleton_append, List.findSome?_cons]
  cases e.byteAt t a <;> rfl

end

/-- Settles O13: a load asks the store that is staged last first, and goes on to the older ones where that does not hold the byte. -/
theorem youngestStoreForwards : Obligations.YoungestStoreForwards := by
  unfold Obligations.YoungestStoreForwards
  intro g e t p tag sc a b hk
  rw [fwdByte_stage, byteAt_write_one hk]
  constructor
  · intro ht ha hb
    rw [if_pos ⟨ht, ha⟩, hb, Option.some_or]
  · intro hout
    have hnone : (if p.tgt = t ∧ p.addr ≤ a then p.data[a - p.addr]? else none) = none := by
      split_ifs with hin
      · rcases hout with ht | ha | ha
        · exact absurd hin.1 ht
        · omega
        · exact List.getElem?_eq_none (by omega)
      · rfl
    rw [hnone, Option.none_or]

/-! ## One group that changes -/

section
variable {s : State} {k : GroupKey} {g h : Group}

theorem changedGroup_setGroup (hg : s.group? k = some g) (hk : h.key = k) : ChangedGroup s (s.setGroup h) k h := by
  subst hk
  exact ⟨rfl, (setGroup_only s h).others, setGroup_get s h g hg⟩

theorem changedGroup_updGroup (hg : s.group? k = some g) {f : Group → Group} (hf : ∀ x, (f x).key = x.key) :
    ChangedGroup s (s.updGroup k f) k (f g) :=
  ⟨rfl, fun _ hk => updGroup_other s hk f fun x hx => (hf x).trans hx, updGroup_get s k f (fun x hx => (hf x).trans hx) g hg⟩

end

/-! ## The handler's entry (R223) -/

section
variable {s : State} {g : Group} {t : Trap}

/-- A group that enters its handler with nothing staged: no entry is left, and its checkpoint is verified at once. -/
theorem inHandler_enterTrap (now : Nat) (hc : t.cause < 256) (hs : g.staged = []) :
    InHandler g ((g.enterTrap t).commitDone now) now t.cause t.pc t.mask t.addr where
  regs := ⟨rfl, rfl, rfl, rfl⟩
  tcause := by
    show BitVec.ofNat 64 (t.cause % 256) ||| 0x100 = _
    rw [Nat.mod_eq_of_lt hc]
  tpc := rfl
  tmask := rfl
  taddr := rfl
  thand := rfl
  fpctl := rfl
  held := ⟨rfl, rfl⟩
  pcs _ hL := pc_setPcs g.arch t.mask _ hL
  rest := ⟨rfl, rfl, rfl, rfl, hs⟩
  ckpts := rfl

/-- A legal handler outside a handler is entered, and the group's team stays. -/
theorem deliver_handled (hm : g.arch.hmode = false) (ht : g.arch.thand ≠ 0) (hok : checkTarget s g g.arch.thand = .ok)
    (hteam : (s.team? g.key.team).isSome = true) :
    (deliver s g t).regrantIf g.key.team = s.setGroup ((g.enterTrap t).commitDone s.now) := by
  have hd : deliver s g t = s.setGroup ((g.enterTrap t).commitDone s.now) := by
    simp only [deliver, hm, ht, hok, Bool.false_eq_true, or_self, if_false]
  have hn : ((s.setGroup ((g.enterTrap t).commitDone s.now)).team? g.key.team).isNone = false := by
    rw [← Option.not_isSome]
    exact congrArg not hteam
  rw [hd, State.regrantIf, hn, if_neg Bool.false_ne_true]

end

/-! ## TRAP at its gate (R55, R398) -/

section
variable {c : Ctl} {imm : BitVec 32} {s : State} {g : Group} {run : Mask} {pc : Dword} {k : Commit}

/-- The trap that TRAP takes. -/
def ownTrap (c : Ctl) (imm : BitVec 32) (g : Group) (run : Mask) (pc : Dword) : Trap := ⟨0x0F, pc, active c g run, imm.setWidth 64, 0⟩

theorem AtGate.isOpen {i : Instr} (A : AtGate i c s g run pc k) : (!k.begun && !(g.verifiedAt k.seq && g.drainedTo k.seq)) = false := by
  rcases A.gate with hb | ⟨hv, hd⟩
  · rw [hb, Bool.not_true, Bool.false_and]
  · rw [hv, hd, Bool.and_self, Bool.not_true, Bool.and_false]

theorem AtGate.found {i : Instr} (A : AtGate i c s g run pc k) : (g.commit.filter fun k => k.pc == pc && k.run == run) = some k := by
  obtain ⟨hc, hp, hr⟩ := A.mine
  simp [hc, hp, hr]

/-- With nothing in flight TRAP delivers its own trap. -/
theorem exec_trap_drained (A : AtGate (.trap c imm) c s g run pc k) (hd : g.drained = true) :
    exec (.trap c imm) s = .next ((deliver s g (ownTrap c imm g run pc)).regrantIf g.key.team) := by
  have hact : run &&& guardOf g.arch c ≠ 0 := A.lanes
  have hsound : Served.tainted ⟨g, run, run &&& guardOf g.arch c, pc, .trap c imm, false⟩ = 0 := tainted_of A.sound _ rfl rfl rfl rfl
  show execTrap c imm s = _
  simp only [execTrap, serveCommit, served_of A.toTurn, A.regs, gate, A.found, A.isOpen, hact, clean_of hsound, hd, decide_false, Bool.false_and,
    if_false, if_true, Bool.not_true, Bool.false_eq_true]
  rfl

/-- Else the trap waits until what is younger has been discarded. -/
theorem exec_trap_waits (A : AtGate (.trap c imm) c s g run pc k) (hd : g.drained = false) :
    exec (.trap c imm) s = .next (s.setGroup { g with trap := some (ownTrap c imm g run pc), commit := none, cut := some (k.seq + 1) }) := by
  have hact : run &&& guardOf g.arch c ≠ 0 := A.lanes
  have hsound : Served.tainted ⟨g, run, run &&& guardOf g.arch c, pc, .trap c imm, false⟩ = 0 := tainted_of A.sound _ rfl rfl rfl rfl
  have hd' : ({ g with commit := none } : Group).drained = false := hd
  show execTrap c imm s = _
  simp only [execTrap, serveCommit, served_of A.toTurn, A.regs, gate, A.found, A.isOpen, hact, clean_of hsound, hd, conclude, decide_false,
    Bool.false_and, if_false, Bool.not_true, Bool.false_eq_true]
  rfl

end

/-! ## TRET (R224, R399) -/

section
variable {c : Ctl} {s : State} {g : Group} {run : Mask} {pc : Dword}

/-- The threads of TMASK go to TPC, the held ones to their held PCs. -/
theorem pc_leaveTrap (a : Arch) {L : Nat} (hL : L < a.pcs.length) :
    a.leaveTrap.pc L = if a.heldSet.has L then a.heldPc.getD L 0 else if Mask.has a.tmask L then a.tpc else a.pc L := by
  show ((a.setPcs a.tmask fun _ => a.tpc).setPcs a.heldSet fun L => a.heldPc.getD L 0).pc L = _
  rw [pc_setPcs _ _ _ (by rwa [length_setPcs]), pc_setPcs _ _ _ hL]

/-- HMODE is bit 8 of TCAUSE. -/
theorem hmode_leaveTrap (a : Arch) : a.leaveTrap.hmode = false := by
  show (a.tcause &&& ~~~(0x100 : Dword)).getLsbD 8 = false
  rw [BitVec.getLsbD_and]
  simp

theorem rstrt_setConsec_zero (g : Group) : (g.setConsec 0).rstrt = g.rstrt &&& ~~~(0xF00000000 : Dword) := by
  show g.rstrt &&& ~~~(0xF00000000 : Dword) ||| BitVec.ofNat 64 (0 * 2 ^ 32) = _
  simp

/-- A group as TRET serves it, and as its threads leave the handler. -/
def tretServed (c : Ctl) (s : State) (g : Group) : Group := { headOf c s g with coll := 0 }
def tretLeft (c : Ctl) (s : State) (g : Group) : Group :=
  let h := { tretServed c s g with arch := g.arch.leaveTrap }
  if g.arch.tcause.toNat % 256 = 0x11 then h.setConsec 0 else h

/-- TRET issues for every thread that counts once they have gathered. -/
theorem exec_tret (A : Admitted (.tret c) c s g run pc) (hb : g.holdsBack (.tret c) = false) (hm : g.arch.hmode = true)
    (h0 : g.handlers ≠ 0) (hall : g.handlers &&& ~~~(run ||| g.coll) = 0) (hpc : g.arch.atPc g.handlers pc = g.handlers)
    (hpk : g.handlers &&& g.arch.parked = 0) (hact : g.handlers &&& guardOf g.arch c ≠ 0) (hok : checkTarget s g g.arch.tpc = .ok) :
    exec (.tret c) s = .next (s.setGroup
      (issuedFor (.tret c) pc g.handlers (active c g g.handlers) 0 (tretServed c s g) (tretLeft c s g))) := by
  set v : Served := ⟨tretServed c s g, g.handlers, active c g g.handlers, pc, .tret c, c.hd⟩
  have hv : served (.tret c) s c = some ⟨g, run, active c g run, pc, .tret c, false⟩ := served_of A.toTurn ..
  have hgather : (g.handlers &&& ~~~(run ||| g.coll) == 0 && g.arch.atPc g.handlers pc == g.handlers) = true := by
    rw [hall, hpc, beq_self_eq_true, beq_self_eq_true]; rfl
  have hok' : checkTarget s (tretServed c s g) g.arch.tpc = .ok := (checkTarget_headOf c s g _).trans hok
  have hbody : tretBody v s = .moved s (tretLeft c s g) g.handlers 0 := by
    simp only [tretBody, v, show (tretServed c s g).arch = g.arch from headOf_arch .., hok', if_neg (show active c g g.handlers ≠ 0 from hact)]
    rfl
  have hpk' : g.handlers &&& (tretLeft c s g).arch.parked = 0 := by
    unfold tretLeft
    split <;> exact hpk
  show execTret c s = _
  simp only [execTret, hv, hm, hb, hgather, headed_admitted A, Bool.not_true, Bool.false_eq_true, if_false]
  show Host.Outcome.next (conclude v (tretBody v s)) = _
  rw [hbody]
  exact congrArg (fun h => Host.Outcome.next (s.setGroup h)) (issued_eq hpk' h0 (act_and_run ..))

/-- What TRET leaves of its group. -/
theorem tretLeft_rest (c : Ctl) (s : State) (g : Group) :
    tretLeft c s g = { tretServed c s g with arch := g.arch.leaveTrap, rstrt := (tretLeft c s g).rstrt } ∧
      (tretLeft c s g).rstrt = if g.arch.tcause.toNat % 256 = 0x11 then g.rstrt &&& ~~~(0xF00000000 : Dword) else g.rstrt := by
  unfold tretLeft
  have hr : (tretServed c s g).rstrt = g.rstrt := by
    unfold tretServed headOf
    split <;> rfl
  split_ifs
  · exact ⟨rfl, (rstrt_setConsec_zero _).trans (by rw [← hr])⟩
  · exact ⟨rfl, hr⟩

end

/-- Outside a handler TRET is trap 0x02. -/
theorem tret_traps (c : Ctl) : TrapsWhere (.tret c) c (fun _ g _ => g.arch.hmode = false) 0x02 (fun _ act => act) (fun _ _ => 0) := by
  intro s g run pc A hm
  have hs : served (.tret c) s c = some ⟨g, run, active c g run, pc, .tret c, false⟩ := served_of A.toTurn ..
  have he : exec (.tret c) s = serve (.tret c) c s fun v => v.trap s 0x02 v.act 0 := by
    show execTret c s = _
    simp only [execTret, hs, hm, Bool.not_false, if_true]
  rw [he]
  exact serve_trapped A rfl

/-- Settles O30: TRAP at its gate delivers its own trap or leaves it waiting, and TRET issues for every thread of TMASK with the registers of
`Arch.leaveTrap`. -/
theorem trapEntryAndReturn : Obligations.TrapEntryAndReturn := by
  unfold Obligations.TrapEntryAndReturn
  refine fun c imm s g run pc => ⟨fun k A => ⟨fun hd hm ht hok hteam => ?_, fun hd => ?_⟩, ?_, tret_traps c⟩
  · have hs : g.staged = [] := List.isEmpty_iff.mp (Bool.and_eq_true_iff.mp hd).2
    refine ⟨_, (g.enterTrap (ownTrap c imm g run pc)).commitDone s.now, ?_, changedGroup_setGroup A.here rfl,
      inHandler_enterTrap s.now (show 0x0F < 256 by decide) hs⟩
    rw [exec_trap_drained A hd, deliver_handled hm ht hok hteam]
  · exact ⟨_, exec_trap_waits A hd, changedGroup_setGroup A.here rfl⟩
  · intro A hb hm all h0 hall hpc hpk hact hok
    set h := issuedFor (.tret c) pc all (active c g all) 0 (tretServed c s g) (tretLeft c s g)
    obtain ⟨hleft, hrstrt⟩ := tretLeft_rest c s g
    obtain ⟨hregs, hpcs, harch⟩ := issuedFor_arch (i := .tret c) (pc := pc) (run := all) (act := active c g all) (fl := 0) (k := tretLeft c s g)
      (tretServed c s g)
    obtain ⟨hrob, -, hckpts, -, hkey, -⟩ := noteIssue_rest ((tretLeft c s g).dispatch (.tret c) pc all (active c g all) 0 (tretServed c s g).arch)
      (tretServed c s g) all
    have hrest : withIssueOf g h = withIssueOf g (tretLeft c s g) := withIssueOf_issuedFor ..
    have ha : (tretLeft c s g).arch = g.arch.leaveTrap := congrArg Group.arch hleft
    rw [ha] at hregs hpcs
    have hw : withRegsOf g.arch h.arch = withRegsOf g.arch g.arch.leaveTrap := (harch _).trans (by rw [ha])
    have htc : h.arch.tcause = g.arch.leaveTrap.tcause := (congrArg Arch.tcause hw :)
    refine ⟨_, h, exec_tret A hb hm h0 hall hpc hpk hact hok, changedGroup_setGroup A.here ?_, hregs, ?_, htc, (congrArg Arch.heldSet hw :),
      (congrArg Arch.heldPc hw :), fun L hL => ?_, ?_, ?_, ?_, ?_, ?_⟩
    · exact hkey.trans ((congrArg Group.key hleft :).trans (headOf_key ..))
    · rw [Arch.hmode, htc]
      exact hmode_leaveTrap g.arch
    · rw [Arch.pc, hpcs]
      exact pc_leaveTrap g.arch hL
    · refine hrob.trans ((congrArg (fun x : Group => (x.dispatch (.tret c) pc all (active c g all) 0 (tretServed c s g).arch).rob) hleft :).trans ?_)
      exact congrArg (fun l : List Entry => l ++ [_]) (headOf_rob c s g)
    · exact (congrArg Group.coll hrest :).trans (congrArg Group.coll hleft :)
    · exact hckpts.trans (congrArg Group.ckpts hleft :)
    · exact (congrArg Group.staged hrest :).trans ((congrArg Group.staged hleft :).trans (headOf_staged ..))
    · exact (congrArg Group.rstrt hrest :).trans hrstrt

end Sys2Proof.Claims
end

section
/-! PROOF. Execution and retirement of entries (R47, R52, R61, R65, R67, R91, R116, R407). -/

namespace Sys2Proof.Claims

open Sys2Proof.Machine Sys2Proof.Laws

/-! ## EXECUTE_COMPLETE (R47, R61) -/

section
variable {k : GroupKey} {s : State} {g : Group} {seq : Nat}

/-- An entry that waits for nothing has executed. -/
theorem exec_executeComplete (hg : s.group? k = some g) (hc : g.cmds.find? (fun c => c.seq = seq) = none) (hw : s.entryWaits g seq = false) :
    exec (.executeComplete k seq) s = .next (s.setGroup (g.markExecuted s.now seq)) := by
  show execExecuteComplete k seq s = _
  simp only [execExecuteComplete, hg, hc, hw, Bool.false_eq_true, if_false]

theorem executedBefore_iff (g : Group) (n : Nat) :
    g.executedBefore n = true ↔ (∀ e ∈ g.rob, n ≤ e.seq ∨ e.executed = true) ∧ ∀ m, g.commit = some m → n ≤ m.seq := by
  simp [Group.executedBefore, List.all_eq_true, Option.all_eq_true]

/-- A checkpoint that all older instructions have executed for is complete, and no other changes. -/
theorem markExecuted_ckpts_get {n : Nat} {c : Ckpt} (hc : g.ckpts[n]? = some c) (now : Nat) :
    (g.markExecuted now seq).ckpts[n]? = some (if c.complete = none ∧
      (∀ e ∈ (g.markExecuted now seq).rob, c.seq ≤ e.seq ∨ e.executed = true) ∧ (∀ m, g.commit = some m → c.seq ≤ m.seq)
      then { c with complete := some now } else c) := by
  show (g.ckpts.map _)[n]? = _
  simp only [List.getElem?_map, hc, Option.map_some, Bool.and_eq_true, Option.isNone_iff_eq_none, executedBefore_iff]
  rfl

theorem executeCompletes (hg : s.group? k = some g) (hc : g.cmds.find? (fun c => c.seq = seq) = none) (hw : s.entryWaits g seq = false) :
    ∃ t h, exec (.executeComplete k seq) s = .next t ∧ ChangedGroup s t k h ∧
      { h with rob := g.rob, ckpts := g.ckpts, staged := g.staged } = g ∧
      h.rob = g.rob.map (fun e => if e.seq = seq then { e with executed := true } else e) ∧
      h.staged = g.staged.map (fun e => if e.seq = seq ∧ e.engine = false then { e with execAt := s.now } else e) ∧
      ∀ (n : Nat) (c : Ckpt), g.ckpts[n]? = some c → h.ckpts[n]? = some
        (if c.complete = none ∧ (∀ e ∈ h.rob, c.seq ≤ e.seq ∨ e.executed = true) ∧ (∀ m, g.commit = some m → c.seq ≤ m.seq)
        then { c with complete := some s.now } else c) := by
  refine ⟨_, g.markExecuted s.now seq, exec_executeComplete hg hc hw, changedGroup_setGroup hg (key_of_group? hg :), rfl, rfl, ?_,
    fun n c hn => markExecuted_ckpts_get hn s.now⟩
  refine List.map_congr_left fun e _ => ?_
  cases e.engine <;> simp

end

/-! ## RETIRE (R52, R65) -/

section
variable {now seq last : Nat} {e x : Effect} {l : List Effect} {n : Nat}

/-- The later of retirement, execution plus W, and the time before (R65). -/
def releaseTime (now last : Nat) (x : Effect) : Nat := max (max now (x.execAt + 48)) last

/-- An effect of an older or the retiring entry is passed over, or its release time is fixed. -/
theorem timeEffects_cons (h : x.seq ≤ seq) :
    ∃ m y, timeEffects now seq last (x :: l) = ((timeEffects now seq m l).1, y :: (timeEffects now seq m l).2) ∧ last ≤ m ∧
      if x.seq = seq ∧ x.relAt = none ∧ x.engine = false then y = { x with relAt := some (releaseTime now last x) } ∧ m = releaseTime now last x
      else y = x := by
  rw [timeEffects, if_neg (by omega)]
  by_cases he : x.engine = true
  · simp only [he, if_true]
    exact ⟨_, x, rfl, le_max_left .., by simp⟩
  · by_cases ht : x.seq = seq ∧ x.relAt.isNone = true
    · have hn : x.relAt = none := Option.isNone_iff_eq_none.mp ht.2
      rw [if_neg he, if_pos ht]
      refine ⟨releaseTime now last x, _, rfl, le_max_right .., ?_⟩
      rw [if_pos ⟨ht.1, hn, Bool.eq_false_iff.mpr he⟩]
      exact ⟨rfl, rfl⟩
    · rw [if_neg he, if_neg ht]
      refine ⟨last, x, rfl, le_rfl, ?_⟩
      rw [if_neg fun h => ht ⟨h.1, by rw [h.2.1]; rfl⟩]

theorem timeEffects_younger (h : seq < x.seq) : timeEffects now seq last (x :: l) = (last, x :: l) := by
  rw [timeEffects, if_pos h]

theorem le_timeEffects (now seq last : Nat) (l : List Effect) : last ≤ (timeEffects now seq last l).1 := by
  induction l generalizing last with
  | nil => exact le_rfl
  | cons x l ih =>
    rcases Nat.lt_or_ge seq x.seq with h | h
    · rw [timeEffects_younger h]
    · obtain ⟨m, y, he, hm, -⟩ := timeEffects_cons (now := now) (last := last) (l := l) h
      rw [he]
      exact hm.trans (ih m)

theorem length_timeEffects (now seq last : Nat) (l : List Effect) : (timeEffects now seq last l).2.length = l.length := by
  induction l generalizing last with
  | nil => rfl
  | cons x l ih =>
    rcases Nat.lt_or_ge seq x.seq with h | h
    · rw [timeEffects_younger h]
    · obtain ⟨m, y, he, -, -⟩ := timeEffects_cons (now := now) (last := last) (l := l) h
      rw [he, List.length_cons, List.length_cons, ih]

/-- What becomes of each effect, in order. -/
theorem timeEffects_get (now : Nat) (hx : l[n]? = some x) :
    ∃ y, (timeEffects now seq last l).2[n]? = some y ∧
      ((x.seq ≠ seq ∨ x.relAt.isSome = true ∨ x.engine = true) → y = x) ∧
      (x.seq = seq → x.relAt = none → x.engine = false → (∀ m z, m < n → l[m]? = some z → z.seq ≤ seq) →
        ∃ m, last ≤ m ∧ y = { x with relAt := some (releaseTime now m x) } ∧ releaseTime now m x ≤ (timeEffects now seq last l).1) := by
  induction l generalizing last n with
  | nil => cases hx
  | cons z l ih =>
    rcases Nat.lt_or_ge seq z.seq with h | h
    · rw [timeEffects_younger h]
      refine ⟨x, hx, fun _ => rfl, fun hs _ _ ho => ?_⟩
      cases n with
      | zero =>
        cases hx
        omega
      | succ n =>
        have := ho 0 z (Nat.succ_pos n) rfl
        omega
    · obtain ⟨m, y, he, hm, hy⟩ := timeEffects_cons (now := now) (last := last) (l := l) h
      rw [he]
      cases n with
      | zero =>
        cases hx
        refine ⟨y, rfl, fun hk => ?_, fun hs hn hg _ => ?_⟩
        · rwa [if_neg fun hc => ?_] at hy
          obtain ⟨h1, h2, h3⟩ := hc
          rw [h2, h3] at hk
          simp [h1] at hk
        · rw [if_pos ⟨hs, hn, hg⟩] at hy
          exact ⟨last, le_rfl, hy.1, hy.2 ▸ le_timeEffects ..⟩
      | succ n =>
        obtain ⟨y', h1, h2, h3⟩ := ih (last := m) (n := n) hx
        refine ⟨y', h1, h2, fun hs hn hg ho => ?_⟩
        obtain ⟨m', k1, k2, k3⟩ := h3 hs hn hg fun i z' hi hz => ho (i + 1) z' (Nat.succ_lt_succ hi) hz
        exact ⟨m', hm.trans k1, k2, k3⟩

end

section
variable {k : GroupKey} {s : State} {g : Group} {e : Entry} {r : List Entry}

/-- The group once its oldest entry has given its flags, before its effects are timed. -/
def retiring (g : Group) (e : Entry) (r : List Entry) : Group := Group.later { g with rob := r } e.seq e.flagsInto

/-- The group once its oldest entry has retired. -/
def retired (now : Nat) (g : Group) (e : Entry) (r : List Entry) : Group :=
  { retiring g e r with
    staged := (timeEffects now e.seq g.lastRel g.staged).2
    lastRel := (timeEffects now e.seq g.lastRel g.staged).1 }

theorem exec_retire (hg : s.group? k = some g) (hr : g.rob = e :: r) (he : e.executed = true)
    (hc : ∀ m, g.commit = some m → m.run = 0 ∨ e.seq < m.seq) : exec (.retire k) s = .next (s.setGroup (retired s.now g e r)) := by
  have hcan : g.canRetire e = true := by
    rw [Group.canRetire, he, Bool.true_and, Option.all_eq_true]
    intro m hm
    simpa using hc m hm
  show execRetire k s = _
  simp only [execRetire, hg, hr, hcan, Bool.not_true, Bool.false_eq_true, if_false]
  rfl

/-- Flags reach FPFLG and MXFLG, and no other register (R91, R116). -/
theorem flagsInto_regs (e : Entry) (a : Arch) :
    (e.flagsInto a).fpflg = (match e.wr with
      | some (.fpflg, x) => x
      | _ => a.fpflg ||| e.flags.setWidth 64) ∧
    (e.flagsInto a).mxflg = (match e.wr with
      | some (.mxflg, x) => x
      | _ => a.mxflg ||| e.mx.setWidth 64) ∧
    { e.flagsInto a with fpflg := a.fpflg, mxflg := a.mxflg } = a := by
  unfold Entry.flagsInto
  rcases e.wr with _ | ⟨r, x⟩
  · exact ⟨rfl, rfl, rfl⟩
  · cases r <;> exact ⟨rfl, rfl, rfl⟩

theorem later_rob_seqs (g : Group) (n : Nat) (f : Arch → Arch) : (g.later n f).rob.map Entry.seq = g.rob.map Entry.seq := by
  show (g.rob.map _).map Entry.seq = _
  rw [List.map_map]
  refine List.map_congr_left fun e _ => ?_
  exact (apply_ite Entry.seq ..).trans (ite_self _)

end

/-- Settles O36: EXECUTE_COMPLETE marks an entry, and RETIRE gives the flags of the oldest one and times its effects in order. -/
theorem executeAndRetire : Obligations.ExecuteAndRetire := by
  unfold Obligations.ExecuteAndRetire
  refine fun k s g seq hg => ⟨executeCompletes hg, fun e r hr he hc => ?_⟩
  obtain ⟨hfp, hmx, hother⟩ := flagsInto_regs e g.arch
  refine ⟨_, retired s.now g e r, exec_retire hg hr he hc, changedGroup_setGroup hg (key_of_group? hg :), rfl,
    later_rob_seqs { g with rob := r } .., ?_, ?_, hother, length_timeEffects .., fun n x hx => ?_⟩
  · exact hfp
  · exact hmx
  · obtain ⟨y, hy, hsame, htimed⟩ := timeEffects_get (seq := e.seq) (last := g.lastRel) s.now hx
    refine ⟨y, hy, hsame, fun hs hn hne ho => ?_⟩
    obtain ⟨m, hm, rfl, hle⟩ := htimed hs hn hne ho
    refine ⟨by rw [← hn], releaseTime s.now m x, rfl, ?_, ?_, ?_, hle⟩ <;> unfold releaseTime <;> omega

end Sys2Proof.Claims
end

section
/-! PROOF. Entries that are discarded (R54, R55, R56, R69, R119): what a group gives up and puts back, what stays, BRANCH_RECOVERY and the effects
that are held by others (R66). -/

namespace Sys2Proof.Claims

open Sys2Proof.Machine Sys2Proof.Laws

/-! ## What a discard leaves of the machine -/

section
variable {s t u : State} {k : GroupKey} {g : Group}

/-- Nothing is other than before but groups, teams, and what dies note of activity. -/
def SameWorld (s t : State) : Prop := { t with groups := s.groups, teams := s.teams, dies := s.dies } = s

theorem SameWorld.refl (s : State) : SameWorld s s := rfl

theorem SameWorld.trans (h : SameWorld s t) (h' : SameWorld t u) : SameWorld s u :=
  (congrArg (fun x : State => { x with groups := s.groups, teams := s.teams, dies := s.dies }) h' :).trans h

theorem SameWorld.now (h : SameWorld s t) : t.now = s.now := (congrArg State.now h :)
theorem SameWorld.ram (h : SameWorld s t) : t.ram = s.ram := (congrArg State.ram h :)
theorem SameWorld.coh (h : SameWorld s t) : t.coh = s.coh := (congrArg State.coh h :)
theorem SameWorld.parts (h : SameWorld s t) : t.parts = s.parts := (congrArg State.parts h :)
theorem SameWorld.dev (h : SameWorld s t) : t.dev = s.dev := (congrArg State.dev h :)

/-- Of the groups only `k` may have changed. -/
structure Discarded (s t : State) (k : GroupKey) : Prop where
  world  : SameWorld s t
  others : ∀ k', k' ≠ k → t.group? k' = s.group? k'

theorem Discarded.refl (s : State) (k : GroupKey) : Discarded s s k := ⟨rfl, fun _ _ => rfl⟩

theorem Discarded.trans (h : Discarded s t k) (h' : Discarded t u k) : Discarded s u k :=
  ⟨h.world.trans h'.world, fun q hq => (h'.others q hq).trans (h.others q hq)⟩

theorem discarded_updRank (s : State) (k : GroupKey) (q : TeamKey) (r : Nat) (f : Rank → Rank) : Discarded s (s.updRank q r f) k :=
  ⟨rfl, fun _ _ => rfl⟩

theorem discarded_updGroup (s : State) (k : GroupKey) {f : Group → Group} (hf : ∀ x, (f x).key = x.key) : Discarded s (s.updGroup k f) k :=
  ⟨rfl, fun _ hq => updGroup_other s hq f fun x hx => (hf x).trans hx⟩

theorem discarded_putBack (g : Group) (s : State) (o : ObjImage) : Discarded s (State.putBack g s o) g.key := by
  cases o with
  | bar => exact ⟨rfl, fun _ _ => rfl⟩
  | halt => exact discarded_updGroup s g.key fun _ => rfl
  | _ => exact discarded_updRank ..

theorem discarded_putBacks (g : Group) (l : List ObjImage) (s : State) : Discarded s (l.foldl (State.putBack g) s) g.key := by
  induction l generalizing s with
  | nil => exact .refl ..
  | cons o l ih => exact (discarded_putBack g s o).trans (ih _)

/-- What a group gives up of its core rank from sequence number `n` on (R69, R119, Table 5-3). -/
def givenUp (k : GroupKey) (n : Nat) (g : Group) (r : Rank) : Rank :=
  ((g.cmds.filter fun c => decide (n ≤ c.seq)).foldl Rank.abort
    ((g.staged.filter fun e => decide (n ≤ e.seq)).foldl (fun r e => r.undo e.kind) r)).withdraw k n

/-- A discard gives up what the core rank holds, and winds the group back. -/
theorem discard_eq (hg : s.group? k = some g) (n : Nat) (a : Arch) :
    s.discard k n a =
      { (s.updRank k.team g.rank (givenUp k n g)).updGroup k (fun h => h.windBack n a) with dies := (s.discard k n a).dies } := by
  simp only [State.discard, hg]
  split
  · exact noteStops_dies _
  · rfl

theorem discarded_discard (s : State) (k : GroupKey) (n : Nat) (a : Arch) : Discarded s (s.discard k n a) k := by
  cases hg : s.group? k with
  | none =>
    simp only [State.discard, hg]
    exact .refl ..
  | some g =>
    rw [discard_eq hg]
    exact ⟨rfl, fun q hq => updGroup_other (s.updRank k.team g.rank (givenUp k n g)) hq (fun h => h.windBack n a) fun _ hx => hx⟩

theorem discard_mine (hg : s.group? k = some g) (n : Nat) (a : Arch) : (s.discard k n a).group? k = some (g.windBack n a) := by
  rw [discard_eq hg]
  exact updGroup_get (s.updRank k.team g.rank (givenUp k n g)) k (fun h => h.windBack n a) (fun _ hx => hx) g hg

theorem discard_rank? (hg : s.group? k = some g) (n : Nat) (a : Arch) :
    (s.discard k n a).rank? k.team g.rank = (s.rank? k.team g.rank).map (givenUp k n g) := by
  rw [discard_eq hg]
  exact (rank_updRank s k.team g.rank (givenUp k n g) k.team g.rank).trans (if_pos ⟨rfl, rfl⟩)

end

/-! ## The records of a core rank (R54) -/

section
variable {r q p : Rank}

/-- The same shape records, codebooks and declared counts. -/
structure SameRecords (r q : Rank) : Prop where
  shapes : q.k = r.k
  books  : q.cb = r.cb
  counts : ∀ c, (q.conv c).count = (r.conv c).count

theorem SameRecords.refl (r : Rank) : SameRecords r r := ⟨rfl, rfl, fun _ => rfl⟩

theorem SameRecords.trans (h : SameRecords r q) (h' : SameRecords q p) : SameRecords r p :=
  ⟨h'.shapes.trans h.shapes, h'.books.trans h.books, fun c => (h'.counts c).trans (h.counts c)⟩

theorem SameRecords.foldl {α : Type} {f : Rank → α → Rank} (hf : ∀ r x, SameRecords r (f r x)) (l : List α) (r : Rank) :
    SameRecords r (l.foldl f r) := by
  induction l generalizing r with
  | nil => exact .refl r
  | cons x l ih => exact (hf r x).trans (ih _)

theorem SameRecords.foldr {α : Type} {f : α → Rank → Rank} (hf : ∀ x r, SameRecords r (f x r)) (l : List α) (r : Rank) :
    SameRecords r (l.foldr f r) := by
  induction l with
  | nil => exact .refl r
  | cons x l ih => exact ih.trans (hf x _)

theorem assoc_map {α : Type} (l : List (Nat × α)) (f : α → α) (n : Nat) : assoc (l.map fun x => (x.1, f x.2)) n = (assoc l n).map f := by
  simp only [assoc, List.find?_map, Option.map_map]
  rfl

theorem conv_setConv (r : Rank) (c n : Nat) (x : Conv) : (r.setConv c x).conv n = if n = c then x else r.conv n := by
  unfold Rank.conv Rank.setConv
  split
  · next h => rw [h, assoc_put_same, Option.getD_some]
  · next h => rw [assoc_put_other _ h]

theorem sameRecords_updQueue (r : Rank) (n : Nat) (f : Queue → Queue) : SameRecords r (r.updQueue n f) := by
  unfold Rank.updQueue
  split <;> exact ⟨rfl, rfl, fun _ => rfl⟩

theorem sameRecords_undo (r : Rank) (e : EffectKind) : SameRecords r (r.undo e) := by
  cases e with
  | qacq | qwait | slotCommit | slotFree => exact sameRecords_updQueue ..
  | _ => exact ⟨rfl, rfl, fun _ => rfl⟩

theorem sameRecords_abort (r : Rank) (c : Cmd) : SameRecords r (r.abort c) := by
  unfold Rank.abort
  split
  · exact sameRecords_updQueue ..
  · exact .refl r

/-- A generation that is reopened keeps its count. -/
theorem sameRecords_reopen (k : GroupKey) (n : Nat) (o : MatOp) (r : Rank) : SameRecords r (r.reopen k n o) := by
  have hset : ∀ q : Rank,
      SameRecords q (q.setConv o.c { q.conv o.c with old := insertBy Prod.fst (o.id, standing k n o.signs) (q.conv o.c).old }) := fun q =>
    ⟨rfl, rfl, fun c => by
      rw [conv_setConv]
      split
      · next h => rw [h]
      · rfl⟩
  unfold Rank.reopen
  split
  · exact (sameRecords_updQueue ..).trans (hset _)
  · exact hset r

theorem sameRecords_settleTile (r : Rank) (z : Nat) : SameRecords r (r.settleTile z) := by
  unfold Rank.settleTile
  split
  · exact .refl r
  · refine SameRecords.trans ?_ (.foldl (fun _ _ => sameRecords_updQueue ..) _ _)
    exact ⟨rfl, rfl, fun _ => rfl⟩

theorem sameRecords_withdraw (r : Rank) (k : GroupKey) (n : Nat) : SameRecords r (r.withdraw k n) := by
  unfold Rank.withdraw
  refine SameRecords.trans (SameRecords.trans ?_ (.foldr (sameRecords_reopen k n) _ _)) (.foldl sameRecords_settleTile _ _)
  refine ⟨rfl, rfl, fun c => ?_⟩
  simp only [Rank.conv, assoc_map r.c fun x => { x with old := x.old.map (fun y => (y.1, standing k n y.2)), cur := standing k n x.cur }]
  cases assoc r.c c <;> rfl

theorem sameRecords_givenUp (k : GroupKey) (n : Nat) (g : Group) (r : Rank) : SameRecords r (givenUp k n g r) :=
  ((SameRecords.foldl (fun r (e : Effect) => sameRecords_undo r e.kind) _ r).trans (.foldl sameRecords_abort _ _)).trans
    (sameRecords_withdraw ..)

end

/-! ## What an entry has replaced (R54) -/

section
variable {s : State} {k : GroupKey} {g : Group} {n : Nat} {a : Arch}

/-- A core rank with what an entry has replaced of it put back. -/
def putRecord (r : Rank) : ObjImage → Rank
  | .shape k x => { r with k := assocSet r.k k x }
  | .resv b x => { r with b := assocSet r.b b x }
  | .count c x => r.setConv c { r.conv c with count := x }
  | .queue q x => { r with q := assocSet r.q q x }
  | .book n x => { r with cb := assocSet r.cb n x }
  | .bar _ _ | .halt => r

theorem rank?_updTeam (s : State) (k : TeamKey) {f : Team → Team} (hk : ∀ t, (f t).key = t.key) (hr : ∀ t, (f t).ranks = t.ranks) (q : TeamKey)
    (r : Nat) : (s.updTeam k f).rank? q r = s.rank? q r := by
  rw [State.rank?, State.rank?, team_updTeam s k q f hk]
  split
  · cases s.team? q with
    | none => rfl
    | some t => exact congrArg (fun l : List Rank => l[r]?) (hr t)
  · rfl

theorem putBack_rank? (g : Group) (s : State) (o : ObjImage) :
    (State.putBack g s o).rank? g.key.team g.rank = (s.rank? g.key.team g.rank).map fun r => putRecord r o := by
  have hone : ∀ f, (s.updRank g.key.team g.rank f).rank? g.key.team g.rank = (s.rank? g.key.team g.rank).map f := fun f =>
    (rank_updRank ..).trans (if_pos ⟨rfl, rfl⟩)
  cases o with
  | bar i x =>
    show (s.updTeam g.key.team _).rank? _ _ = _
    rw [rank?_updTeam]
    · exact Option.map_id'.symm
    · exact fun _ => rfl
    · exact fun _ => rfl
  | halt => exact Option.map_id'.symm
  | _ => exact hone _

theorem putBacks_rank? (g : Group) (l : List ObjImage) (s : State) :
    (l.foldl (State.putBack g) s).rank? g.key.team g.rank = (s.rank? g.key.team g.rank).map fun r => l.foldl putRecord r := by
  induction l generalizing s with
  | nil => exact Option.map_id'.symm
  | cons o l ih =>
    rw [List.foldl_cons, ih, putBack_rank?, Option.map_map]
    rfl

/-- Of its own group an entry puts back no more than a halt. -/
theorem putBack_mine {x : Option Halt} (hs : s.group? g.key = some { g with halt := x }) (o : ObjImage) :
    ∃ y, (State.putBack g s o).group? g.key = some { g with halt := y } := by
  cases o with
  | halt => exact ⟨none, updGroup_get s g.key (fun h => { h with halt := none }) (fun _ h => h) { g with halt := x } hs⟩
  | _ => exact ⟨x, hs⟩

theorem putBacks_mine {x : Option Halt} (hs : s.group? g.key = some { g with halt := x }) (l : List ObjImage) :
    ∃ y, (l.foldl (State.putBack g) s).group? g.key = some { g with halt := y } := by
  induction l generalizing s x with
  | nil => exact ⟨x, hs⟩
  | cons o l ih =>
    obtain ⟨y, hy⟩ := putBack_mine hs o
    exact ih hy

/-- What the entries of a group from a number on have replaced, in the order in which it is put back. -/
def replacedFrom (g : Group) (n : Nat) : List ObjImage := (g.rob.filter fun e => decide (n ≤ e.seq)).reverse.flatMap Entry.objs

theorem recover_eq (hg : s.group? g.key = some g) (n : Nat) (a : Arch) :
    s.recover g.key n a = ((replacedFrom g n).foldl (State.putBack g) s).discard g.key n a := by
  simp only [State.recover, hg]
  rfl

/-- A recovery winds the group back, and leaves every other group. -/
theorem recover_group (hg : s.group? k = some g) (n : Nat) (a : Arch) :
    Discarded s (s.recover k n a) k ∧ ∃ x, (s.recover k n a).group? k = some { g.windBack n a with halt := x } := by
  have hk := key_of_group? hg
  subst hk
  obtain ⟨x, hx⟩ := putBacks_mine (x := g.halt) hg (replacedFrom g n)
  rw [recover_eq hg]
  exact ⟨(discarded_putBacks ..).trans (discarded_discard ..), x, discard_mine hx n a⟩

/-- Its records are those that its entries had replaced first: what is put back last stands. -/
theorem recover_records (hg : s.group? k = some g) (n : Nat) (a : Arch) (hr : (s.rank? k.team g.rank).isSome = true) {o : ObjImage}
    (ho : (replacedFrom g n).getLast? = some o) : ∃ r, SameRecords (putRecord r o) ((s.recover k n a).rankOf k.team g.rank) := by
  have hk := key_of_group? hg
  subst hk
  obtain ⟨l, hl⟩ := List.getLast?_eq_some_iff.mp ho
  obtain ⟨q, hq⟩ := Option.isSome_iff_exists.mp hr
  obtain ⟨x, hx⟩ := putBacks_mine (x := g.halt) hg (replacedFrom g n)
  have hd := discard_rank? hx n a
  rw [← recover_eq hg] at hd
  refine ⟨l.foldl putRecord q, ?_⟩
  rw [State.rankOf, hd, putBacks_rank?, hq, hl, Option.map_some, List.foldl_append]
  exact sameRecords_givenUp ..

theorem assoc_set_same {α : Type} (l : List (Nat × α)) (n : Nat) (x : Option α) : assoc (assocSet l n x) n = x := by
  cases x with
  | none => exact assoc_del_same l n
  | some x => exact assoc_put_same l n x

/-- A record that is put back is found as it was. -/
theorem putRecord_found (r : Rank) (n : Nat) :
    (∀ x, assoc (putRecord r (.shape n x)).k n = x) ∧ (∀ x, assoc (putRecord r (.book n x)).cb n = x) ∧
      ∀ x, ((putRecord r (.count n x)).conv n).count = x :=
  ⟨assoc_set_same r.k n, assoc_set_same r.cb n, fun x => by rw [putRecord, conv_setConv, if_pos rfl]⟩

end

/-! ## BRANCH_RECOVERY, SQUASH_MESSAGE and HELD_EFFECT_ARRIVAL -/

section
variable {k : GroupKey} {s : State} {g : Group} {seq : Nat}

/-- A branch that has younger entries is recovered to the registers before the oldest of them. -/
theorem exec_branchRecovery {b e : Entry} (hg : s.group? k = some g) (hb : b ∈ g.rob) (hs : b.seq = seq) (hbr : b.branch = true)
    (he : g.rob.find? (fun e => decide (seq < e.seq)) = some e) :
    exec (.branchRecovery k seq) s = .next (s.recover k (seq + 1) e.undo) := by
  have hany : (g.rob.any fun e => e.seq == seq && e.branch) = true := List.any_eq_true.mpr ⟨b, hb, by simp [hs, hbr]⟩
  show execBranchRecovery k seq s = _
  simp only [execBranchRecovery, hg, hany, he, if_true]

theorem decide_lt_succ (n m : Nat) : decide (n < m + 1) = decide (n ≤ m) := decide_eq_decide.mpr Nat.lt_succ_iff

theorem heldArrives (hg : s.group? k = some g) {n : Nat} {x : Effect} (hx : g.staged[n]? = some x) (hs : x.seq = seq) (ha : x.away = true)
    (hr : (g.relTime x).isSome = true) (hf : s.farRoute g x = false) :
    ∃ t h, exec (.heldEffectArrival k seq) s = .next t ∧ ChangedGroup s t k h ∧ h.staged[n]? = some { x with held := true } ∧
      { h with staged := g.staged } = g := by
  refine ⟨_, _, rfl, changedGroup_updGroup hg fun _ => rfl, ?_, rfl⟩
  simp [hx, hs, ha, hr, hf]

end

/-- Settles O37: BRANCH_RECOVERY is `State.recover` from the entry after the branch on, and the other two events change the staged effects of one
group. -/
theorem recoveryAndHeldEffects : Obligations.RecoveryAndHeldEffects := by
  unfold Obligations.RecoveryAndHeldEffects
  refine fun k s g seq hg => ⟨fun b hb hs hbr e he => ?_, ⟨_, rfl, changedGroup_updGroup hg fun _ => rfl⟩,
    fun n x hx hs ha hr hf => heldArrives hg hx hs ha hr hf⟩
  obtain ⟨⟨hw, ho⟩, x, hx⟩ := recover_group hg (seq + 1) e.undo
  have hlt : ∀ m, decide (m < seq + 1) = decide (m ≤ seq) := fun m => decide_lt_succ m seq
  refine ⟨_, _, exec_branchRecovery hg hb hs hbr he, hx, ho, hw.ram, hw.coh, hw.parts, rfl, ?_, ?_, ?_, ?_, rfl, ?_⟩
  · exact List.filter_congr fun x _ => by rw [hlt]
  · exact List.filter_congr fun x _ => hlt _
  · exact List.filter_congr fun x _ => hlt _
  · exact List.filter_congr fun x _ => hlt _
  · intro hrank last r n
    have hrec : ∀ o, last = some o → ∃ q, SameRecords (putRecord q o) r := fun o hl => recover_records hg (seq + 1) e.undo hrank hl
    refine ⟨fun x hl => ?_, fun x hl => ?_, fun x hl => ?_⟩ <;> obtain ⟨q, hq⟩ := hrec _ hl
    · exact hq.shapes ▸ (putRecord_found q n).1 x
    · exact hq.books ▸ (putRecord_found q n).2.1 x
    · exact (hq.counts n).trans ((putRecord_found q n).2.2 x)

end Sys2Proof.Claims
end

section
/-! PROOF. Restarts: SENSOR_RESTART returns the groups of the cores it reaches to their youngest verified checkpoints (R56, R57, R68, R69, R73, R79,
Tables 5-5 and 5-6). -/

namespace Sys2Proof.Claims

open Sys2Proof.Machine Sys2Proof.Laws

/-! ## A group that restarts -/

section
variable {ty : SensorType} {c : Ckpt} {g : Group}

/-- A count in bits 31:0 of a 64-bit register, with another field above it. -/
theorem low_field {n m : Nat} (hn : n < 2 ^ 32) (hm : m < 2 ^ 32) : bitsOf (BitVec.ofNat 64 (n + m * 2 ^ 32)).toNat 31 0 = n := by
  have h64 : n + m * 2 ^ 32 < 2 ^ 64 := by omega
  rw [bitsOf, BitVec.toNat_ofNat, Nat.mod_eq_of_lt h64, Nat.shiftRight_zero, Nat.add_mul_mod_self_right, Nat.mod_eq_of_lt hn]

theorem high_field {n m hi : Nat} (hn : n < 2 ^ 32) (hm : m < 2 ^ (hi + 1 - 32)) (hhi : m < 2 ^ 32) :
    bitsOf (BitVec.ofNat 64 (n + m * 2 ^ 32)).toNat hi 32 = m := by
  have h64 : n + m * 2 ^ 32 < 2 ^ 64 := by omega
  rw [bitsOf, BitVec.toNat_ofNat, Nat.mod_eq_of_lt h64, Nat.shiftRight_eq_div_pow, Nat.add_mul_div_right _ _ (by decide),
    Nat.div_eq_of_lt hn, Nat.zero_add, Nat.mod_eq_of_lt hm]

/-- A saturating count of 32 bits (Tables 5-5 and 5-6). -/
def countedUp (x : Dword) : Nat := min 0xFFFFFFFF (bitsOf x.toNat 31 0 + 1)

theorem countedUp_lt (x : Dword) : countedUp x < 2 ^ 32 := lt_of_le_of_lt (min_le_left ..) (by decide)

/-- A group that has counted a restart, and met its limit of eight (R73). -/
def restartCounted (ty : SensorType) (g : Group) : Group := ((g.sensed ty).restarted).limit

/-- It is the group but for SENSEV, RSTRT and a trap 0x11. The new values are named, so that no proof has to compute them. -/
theorem restartCounted_eq (ty : SensorType) (g : Group) :
    ∃ x y z, restartCounted ty g = { g with sensev := x, rstrt := y, trap := z } ∧
      x = BitVec.ofNat 64 (countedUp g.sensev + sensorCode ty * 2 ^ 32) ∧
      y = BitVec.ofNat 64 (countedUp g.rstrt + min 8 (g.consec + 1) * 2 ^ 32) ∧
      (8 ≤ bitsOf y.toNat 35 32 → z = ({ g with sensev := x, rstrt := y } : Group).limitTrap) := by
  obtain ⟨x, hx, hxv⟩ : ∃ x, g.sensed ty = { g with sensev := x } ∧ x = BitVec.ofNat 64 (countedUp g.sensev + sensorCode ty * 2 ^ 32) :=
    ⟨_, rfl, rfl⟩
  obtain ⟨y, hy, hyv⟩ : ∃ y, ({ g with sensev := x } : Group).restarted = { g with sensev := x, rstrt := y } ∧
      y = BitVec.ofNat 64 (countedUp g.rstrt + min 8 (g.consec + 1) * 2 ^ 32) := ⟨_, rfl, rfl⟩
  have hl : restartCounted ty g = ({ g with sensev := x, rstrt := y } : Group).limit := by rw [restartCounted, hx, hy]
  rw [hl, Group.limit]
  split
  · next h => exact ⟨x, y, g.trap, rfl, hxv, hyv, fun h8 => absurd h (Nat.not_lt.mpr h8)⟩
  · exact ⟨x, y, _, rfl, hxv, hyv, fun _ => rfl⟩

theorem restartCounted_key (ty : SensorType) (g : Group) : (restartCounted ty g).key = g.key := by
  obtain ⟨x, y, z, h, -⟩ := restartCounted_eq ty g
  rw [h]

/-- A group that a sensor has returned to a checkpoint. -/
def restartAt (ty : SensorType) (c : Ckpt) (g : Group) : Group := restartCounted ty (g.windBack (c.seq + 1) c.arch)

/-- Beside SENSEV, RSTRT and a trap 0x11 it is the group wound back. -/
theorem restartAt_rest (ty : SensorType) (c : Ckpt) (g : Group) :
    ∃ x y z, restartAt ty c g = { g.windBack (c.seq + 1) c.arch with sensev := x, rstrt := y, trap := z } := by
  obtain ⟨x, y, z, h, -⟩ := restartCounted_eq ty (g.windBack (c.seq + 1) c.arch)
  exact ⟨x, y, z, h⟩

theorem restartAt_core (ty : SensorType) (c : Ckpt) (g : Group) : (restartAt ty c g).core = g.core := by
  obtain ⟨x, y, z, h⟩ := restartAt_rest ty c g
  rw [h]
  rfl

theorem sensev_restartAt (ty : SensorType) (c : Ckpt) (g : Group) :
    (restartAt ty c g).sensev = BitVec.ofNat 64 (countedUp g.sensev + sensorCode ty * 2 ^ 32) := by
  obtain ⟨x, y, z, h, hx, -⟩ := restartCounted_eq ty (g.windBack (c.seq + 1) c.arch)
  rw [restartAt, h]
  exact hx

theorem rstrt_restartAt (ty : SensorType) (c : Ckpt) (g : Group) :
    (restartAt ty c g).rstrt = BitVec.ofNat 64 (countedUp g.rstrt + min 8 (g.consec + 1) * 2 ^ 32) := by
  obtain ⟨x, y, z, h, -, hy, -⟩ := restartCounted_eq ty (g.windBack (c.seq + 1) c.arch)
  rw [restartAt, h]
  exact hy

/-- The eighth restart in a row raises trap 0x11 where a thread may take it (R73). -/
theorem trap_restartAt {m : Mask} {p : Dword} (h7 : 7 ≤ g.consec) (hr : c.arch.headRun ((restartAt ty c g).live &&& ~~~c.arch.parked &&&
      ~~~(if c.arch.hmode then c.arch.heldSet else 0)) = some (m, p)) : (restartAt ty c g).trap = some ⟨0x11, p, m, 0, 0⟩ := by
  have hrs := rstrt_restartAt ty c g
  obtain ⟨x, y, z, h, -, -, hz⟩ := restartCounted_eq ty (g.windBack (c.seq + 1) c.arch)
  have he : restartAt ty c g = _ := h
  rw [he] at hr hrs ⊢
  have h8 : 8 ≤ bitsOf y.toNat 35 32 := by
    rw [show y = _ from hrs, high_field (countedUp_lt _) (by omega) (by omega)]
    omega
  show z = _
  rw [hz h8, Group.limitTrap]
  split
  · next h' => cases h'.symm.trans hr; rfl
  · next h' => cases h'.symm.trans hr

end

section
variable {ty : SensorType} {s : State} {k : GroupKey} {c : Ckpt} {g : Group}

/-- A group that has a verified checkpoint, and whose partition is not falling, restarts; every other stays. -/
theorem restartGroup_cases (s : State) (k : GroupKey) (ty : SensorType) :
    s.restartGroup k ty = s ∨ ∃ n a, s.restartGroup k ty = (s.discard k n a).updGroup k (restartCounted ty) := by
  unfold State.restartGroup
  split
  · exact .inl rfl
  · split
    · exact .inl rfl
    · exact .inr ⟨_, _, rfl⟩

theorem restartGroup_mine (hg : s.group? k = some g) (hf : s.falling k.team.part = false)
    (hc : (g.ckpts.filter Ckpt.verified).getLast? = some c) : (s.restartGroup k ty).group? k = some (restartAt ty c g) := by
  have hfilter : (g.ckpts.filter fun c => c.verified && !s.falling k.team.part) = g.ckpts.filter Ckpt.verified :=
    List.filter_congr fun c _ => by rw [hf, Bool.not_false, Bool.and_true]
  simp only [State.restartGroup, hg, hfilter, hc]
  exact updGroup_get _ k (restartCounted ty) (fun x hx => (restartCounted_key ty x).trans hx) _ (discard_mine hg _ _)

theorem discarded_restartGroup (s : State) (k : GroupKey) (ty : SensorType) : Discarded s (s.restartGroup k ty) k := by
  rcases restartGroup_cases s k ty with h | ⟨n, a, h⟩ <;> rw [h]
  · exact .refl ..
  · exact (discarded_discard s k n a).trans (discarded_updGroup _ k (restartCounted_key ty))

theorem keys_restartGroup (s : State) (k : GroupKey) (ty : SensorType) : (s.restartGroup k ty).groups.map Group.key = s.groups.map Group.key := by
  rcases restartGroup_cases s k ty with h | ⟨n, a, h⟩ <;> rw [h]
  exact (sameThere_updGroup _ k (restartCounted_key ty)).groups.trans (sameThere_discard s k n a).groups

theorem SameWorld.falling {s t : State} (h : SameWorld s t) (n : Nat) : t.falling n = s.falling n := by
  rw [State.falling, State.part, h.parts]
  rfl

/-! ## The groups of a core that restart -/

/-- Some groups restart, one after another. -/
def restartAll (ty : SensorType) (s : State) (ks : List GroupKey) : State := ks.foldl (fun s k => s.restartGroup k ty) s

theorem restartAll_world (ks : List GroupKey) (s : State) : SameWorld s (restartAll ty s ks) := by
  induction ks generalizing s with
  | nil => exact .refl s
  | cons k ks ih => exact (discarded_restartGroup s k ty).world.trans (ih _)

theorem restartAll_keys (ks : List GroupKey) (s : State) : (restartAll ty s ks).groups.map Group.key = s.groups.map Group.key := by
  induction ks generalizing s with
  | nil => rfl
  | cons k ks ih => exact (ih _).trans (keys_restartGroup s k ty)

theorem restartAll_other {ks : List GroupKey} (hk : k ∉ ks) (s : State) : (restartAll ty s ks).group? k = s.group? k := by
  induction ks generalizing s with
  | nil => rfl
  | cons q ks ih =>
    obtain ⟨hq, hks⟩ := not_or.mp (mt List.mem_cons.mpr hk)
    exact (ih hks _).trans ((discarded_restartGroup s q ty).others k hq)

/-- Each of them returns to the checkpoint it held before. -/
theorem restartAll_mine {ks : List GroupKey} (hn : ks.Nodup) (hk : k ∈ ks) (hg : s.group? k = some g) (hf : s.falling k.team.part = false)
    (hc : (g.ckpts.filter Ckpt.verified).getLast? = some c) : (restartAll ty s ks).group? k = some (restartAt ty c g) := by
  induction ks generalizing s with
  | nil => cases hk
  | cons q ks ih =>
    obtain ⟨hq, hks⟩ := List.nodup_cons.mp hn
    by_cases he : k = q
    · subst he
      exact (restartAll_other hq _).trans (restartGroup_mine hg hf hc)
    · have hd := discarded_restartGroup s q ty
      exact ih hks (List.mem_of_ne_of_mem he hk) ((hd.others k he).trans hg) ((hd.world.falling _).trans hf)

end

/-! ## A strike on some cores -/

section
variable {core : CoreId} {cores : List CoreId} {s t u : State}

/-- The groups of some cores have restarted, their line fills are dropped, and nothing else of memory, partitions and groups has changed. -/
structure Struck (cores : List CoreId) (s t : State) : Prop where
  now    : t.now = s.now
  ram    : t.ram = s.ram
  parts  : t.parts = s.parts
  coh    : t.coh = { s.coh with reqs := s.coh.reqs.filter fun r => !cores.contains r.core }
  keys   : t.groups.map Group.key = s.groups.map Group.key
  begun  : ∀ r ∈ t.dev.restarting, r.1 ∉ cores → r ∈ s.dev.restarting
  others : ∀ k g, s.group? k = some g → g.core ∉ cores → t.group? k = some g
  mine   : ∀ k g c, s.group? k = some g → g.core ∈ cores → s.falling k.team.part = false →
    (g.ckpts.filter Ckpt.verified).getLast? = some c → t.group? k = some (restartAt .strike c g)

/-- The groups on a core. -/
def groupsOn (s : State) (core : CoreId) : List GroupKey := (s.groups.filter fun g => g.core = core).map Group.key

/-- A strike that merges with no restart restarts the groups of its core (R70), and drops its line fills (R79). -/
theorem strikeCore_eq (hm : ∀ r ∈ s.dev.restarting, r.1 = core → r.2 + 4 < s.now) :
    let t := restartAll .strike s (groupsOn s core)
    ∃ ds l rs, s.strikeCore core .strike =
      { t with
        dies := ds
        latch := l
        coh := { t.coh with reqs := t.coh.reqs.filter fun r => r.core ≠ core }
        dev := { t.dev with restarting := rs } } ∧ ∀ r ∈ rs, r.1 ≠ core → r ∈ t.dev.restarting := by
  have hmerge : (s.dev.restarting.any fun r => r.1 = core && decide (s.now ≤ r.2 + 4)) = false := by
    rw [List.any_eq_false]
    intro r hr h
    simp only [Bool.and_eq_true, decide_eq_true_eq] at h
    have := hm r hr h.1
    omega
  intro t
  unfold State.strikeCore
  extract_lets ks merges t₁ d t₂ coh t₃ t₄ begun dev t₅
  have ht₁ : t₁ = t := if_neg (by rw [show merges = false from hmerge]; exact Bool.false_ne_true)
  clear_value t₁
  subst ht₁
  rw [if_neg fun h => h.2 rfl]
  by_cases h : (decide (ks = []) || merges) = true
  · rw [show t₅ = t₄ from if_pos h]
    exact ⟨t₂.dies, t₄.latch, t.dev.restarting, rfl, fun r hr _ => hr⟩
  · rw [show t₅ = { t₄ with dev := { dev with restarting := begun } } from if_neg h]
    refine ⟨t₂.dies, t₄.latch, begun, rfl, fun r hr hne => ?_⟩
    rcases List.mem_cons.mp hr with rfl | hr
    · exact absurd rfl hne
    · exact List.mem_of_mem_filter hr

theorem mem_groupsOn {k : GroupKey} {g : Group} (hn : (s.groups.map Group.key).Nodup) (hg : s.group? k = some g) :
    k ∈ groupsOn s core ↔ g.core = core := by
  have hmem : g ∈ s.groups := List.mem_of_find?_eq_some hg
  have hkey := key_of_group? hg
  simp only [groupsOn, List.mem_map, List.mem_filter, decide_eq_true_eq]
  constructor
  · rintro ⟨x, ⟨hx, hcore⟩, hk⟩
    rw [← List.inj_on_of_nodup_map hn hx hmem (hk.trans hkey.symm)]
    exact hcore
  · exact fun h => ⟨g, ⟨hmem, h⟩, hkey⟩

theorem struck_strikeCore (hn : (s.groups.map Group.key).Nodup) (hm : ∀ r ∈ s.dev.restarting, r.1 = core → r.2 + 4 < s.now) :
    Struck [core] s (s.strikeCore core .strike) := by
  obtain ⟨ds, l, rs, he, hrs⟩ := strikeCore_eq hm
  have hks : (groupsOn s core).Nodup := hn.sublist (List.filter_sublist.map _)
  have hw := restartAll_world (ty := .strike) (groupsOn s core) s
  rw [he]
  refine ⟨hw.now, hw.ram, hw.parts, ?_, restartAll_keys .., fun r hr hc => hw.dev ▸ hrs r hr (by simpa using hc), fun k g hg hc => ?_,
    fun k g c hg hc hf hl => ?_⟩
  · simp [hw.coh]
  · exact (restartAll_other (fun h => hc (List.mem_singleton.mpr ((mem_groupsOn hn hg).mp h))) s).trans hg
  · exact restartAll_mine hks ((mem_groupsOn hn hg).mpr (List.mem_singleton.mp hc)) hg hf hl

theorem struck_nil (s : State) : Struck [] s s :=
  ⟨rfl, rfl, rfl, by simp, rfl, fun _ h _ => h, fun _ _ h _ => h, fun _ _ _ _ h => absurd h List.not_mem_nil⟩

theorem Struck.cons (h : Struck [core] s t) (h' : Struck cores t u) (hc : core ∉ cores) : Struck (core :: cores) s u where
  now := h'.now.trans h.now
  ram := h'.ram.trans h.ram
  parts := h'.parts.trans h.parts
  coh := by
    rw [h'.coh, h.coh]
    refine congrArg (fun l => { s.coh with reqs := l }) ?_
    rw [List.filter_filter]
    refine List.filter_congr fun r _ => ?_
    simp [Bool.and_comm]
  keys := h'.keys.trans h.keys
  begun r hr hn := by
    obtain ⟨h1, h2⟩ := not_or.mp (mt List.mem_cons.mpr hn)
    exact h.begun r (h'.begun r hr h2) (by simpa using h1)
  others k g hg hn := by
    obtain ⟨h1, h2⟩ := not_or.mp (mt List.mem_cons.mpr hn)
    exact h'.others k g (h.others k g hg (by simpa using h1)) h2
  mine k g c hg hmem hf hl := by
    rcases List.mem_cons.mp hmem with hg1 | hg1
    · have hcore : (restartAt .strike c g).core = core := (restartAt_core ..).trans hg1
      exact h'.others k _ (h.mine k g c hg (List.mem_singleton.mpr hg1) hf hl) (hcore ▸ hc)
    · have hne : g.core ∉ [core] := fun h => hc (List.mem_singleton.mp h ▸ hg1)
      have hft : t.falling k.team.part = false := by
        rw [State.falling, State.part, h.parts]
        exact hf
      exact h'.mine k g c (h.others k g hg hne) hg1 hft hl

/-- A strike reaches each core of its zones once. -/
theorem struck_strikes (hd : cores.Nodup) (hn : (s.groups.map Group.key).Nodup)
    (hm : ∀ core ∈ cores, ∀ r ∈ s.dev.restarting, r.1 = core → r.2 + 4 < s.now) :
    Struck cores s (cores.foldl (fun t c => t.strikeCore c .strike) s) := by
  induction cores generalizing s with
  | nil => exact struck_nil s
  | cons core cores ih =>
    obtain ⟨hc, hcs⟩ := List.nodup_cons.mp hd
    have h := struck_strikeCore hn (hm core List.mem_cons_self)
    refine h.cons (ih hcs (h.keys ▸ hn) fun c hmem r hr he => ?_) hc
    rw [h.now]
    refine hm c (List.mem_cons_of_mem _ hmem) r (h.begun r hr fun hx => hc ?_) he
    rwa [← List.mem_singleton.mp hx, he]

theorem exec_sensorRestart (hz : sensorZones cores .strike = true) (hd : cores.Nodup) (hn : (s.groups.map Group.key).Nodup)
    (hm : ∀ core ∈ cores, ∀ r ∈ s.dev.restarting, r.1 = core → r.2 + 4 < s.now) :
    ∃ t, exec (.sensorRestart cores .strike) s = .next t ∧ Struck cores s t := by
  set d := s.die ((cores.head?.map CoreId.die).getD 0)
  set u := s.setDie ((cores.head?.map CoreId.die).getD 0) { d with events := d.events.modify (sensorCode .strike - 1) (· + 1) }
  obtain ⟨h1, h2, h3, h4, h5, h6, h7, h8⟩ := struck_strikes (s := u) hd hn hm
  exact ⟨_, congrArg Host.Outcome.next (if_pos hz), h1, h2, h3, h4, h5, h6, h7, h8⟩

end

/-- Settles O38: a strike reaches the cores of its zones one after another, and each of their groups becomes `restartAt` its checkpoint. -/
theorem sensorRestarts : Obligations.SensorRestarts := by
  unfold Obligations.SensorRestarts
  intro cores s hn hcores hm hf
  obtain ⟨hz, hd⟩ : sensorZones cores .strike = true ∧ cores.Nodup := by
    rcases hcores with ⟨a, rfl⟩ | ⟨a, b, rfl, hab, hdie⟩
    · exact ⟨rfl, List.nodup_singleton a⟩
    · exact ⟨by simp [sensorZones, hab, hdie], by simp [hab]⟩
  obtain ⟨t, he, hs⟩ := exec_sensorRestart hz hd hn hm
  refine ⟨t, he, hs.ram, hs.parts, hs.coh, hs.others, fun k g c hg hc hl => ?_⟩
  have hfk : s.falling k.team.part = false := key_of_group? hg ▸ hf g (List.mem_of_find?_eq_some hg)
  obtain ⟨x, y, z, hrest⟩ := restartAt_rest .strike c g
  refine ⟨_, hs.mine k g c hg hc hfk hl, (congrArg Group.arch hrest :), fun e hmem => ?_, ?_, ?_, ?_, ?_, ?_, ?_,
    fun h7 m p hr => trap_restartAt h7 hr⟩
  · rw [(congrArg Group.rob hrest :)] at hmem
    have := (List.mem_filter.mp hmem).2
    simpa [Nat.lt_succ_iff] using this
  · exact (congrArg Group.staged hrest :).trans (List.filter_congr fun x _ => decide_lt_succ ..)
  · exact (congrArg Group.ckpts hrest :).trans (List.filter_congr fun x _ => decide_lt_succ ..)
  · rw [sensev_restartAt]
    exact low_field (countedUp_lt _) (by decide)
  · rw [sensev_restartAt]
    exact high_field (countedUp_lt _) (by decide) (by decide)
  · rw [rstrt_restartAt]
    exact low_field (countedUp_lt _) (by omega)
  · rw [rstrt_restartAt]
    exact high_field (countedUp_lt _) (by omega) (by omega)

end Sys2Proof.Claims
end

section
/-! PROOF. The delivery of a trap, in its two phases, and the verification of checkpoints (R55, R61, R67, R73, R223). -/

namespace Sys2Proof.Claims

open Sys2Proof.Machine Sys2Proof.Laws

/-! ## TRAP_DELIVERY (R55, R67, R223) -/

section
variable {k : GroupKey} {s : State} {g : Group} {tr : Trap}

/-- What stands for the delivery of a trap while it waits for its checkpoint and for older effects (R67): a commit point of no threads. -/
def deliveryPoint (tr : Trap) (n : Nat) : Commit := ⟨tr.pc, n, false, 0, 0, [], [], false, 0, false⟩

theorem withTrap_self (ht : g.trap = some tr) : ({ g with trap := some tr } : Group) = g := by rw [← ht]

/-- The oldest entry's trap takes its checkpoint first. -/
theorem exec_trapDelivery_begins (hg : s.group? k = some g) (ht : g.trap = some tr) (hh : g.halt = none) (hf : s.falling k.team.part = false)
    (hcut : g.cut = none) (hc : g.commit = none) (hr : g.rob = []) (hu : g.unverified < 4) :
    exec (.trapDelivery k) s = .next (s.setGroup { g.takeCkpt s.now with commit := some (deliveryPoint tr g.seq) }) := by
  have hroom : decide (Config.maxUnverified ≤ g.unverified) = false := decide_eq_false (Nat.not_le.mpr hu)
  show execTrapDelivery k s = _
  simp only [execTrapDelivery, hg, ht, Option.orElse_some, withTrap_self ht]
  simp only [hh, hf, hcut, hc, hr, hroom, Option.isSome_none, List.isEmpty_nil, Bool.or_self,
    Bool.not_true, Bool.false_eq_true, if_false]
  rfl

/-- Behind a commit point's fault the younger entries go first. -/
theorem exec_trapDelivery_cuts {n : Nat} (hg : s.group? k = some g) (ht : g.trap = some tr) (hh : g.halt = none)
    (hf : s.falling k.team.part = false) (hcut : g.cut = some n) : exec (.trapDelivery k) s = .next (s.cutBehind g n) := by
  show execTrapDelivery k s = _
  simp only [execTrapDelivery, hg, ht, Option.orElse_some, withTrap_self ht]
  simp only [hh, hf, hcut, Option.isSome_none, Bool.or_self, Bool.false_eq_true, if_false]

/-- With nothing older in flight the trap is delivered. -/
theorem exec_trapDelivery_enters {m : Commit} (hg : s.group? k = some g) (ht : g.trap = some tr) (hh : g.halt = none)
    (hf : s.falling k.team.part = false) (hcut : g.cut = none) (hc : g.commit = some m) (hm : m.run = 0) (hv : g.verifiedAt m.seq = true)
    (hd : g.drained = true) : exec (.trapDelivery k) s = .next ((deliver s (g.unpark tr.mask) tr).regrantIf k.team) := by
  show execTrapDelivery k s = _
  simp only [execTrapDelivery, hg, ht, Option.orElse_some, withTrap_self ht]
  simp only [hh, hf, hcut, hc, hm, hv, hd, Option.isSome_none, Bool.or_self, Bool.false_eq_true,
    if_false, beq_self_eq_true, Bool.and_self, if_true]

/-- What is younger than a commit point's fault is discarded, and the trap goes on waiting. -/
theorem cutBehind_group {n : Nat} {c : Ckpt} (hg : s.group? g.key = some g) (hl : (g.ckpts.filter fun x => decide (x.seq < n)).getLast? = some c) :
    Discarded s (s.cutBehind g n) g.key ∧ ∃ x, (s.cutBehind g n).group? g.key = some { g.windBack n c.arch with halt := x, trap := g.trap } := by
  obtain ⟨hd, x, hx⟩ := recover_group hg n c.arch
  have he : s.cutBehind g n = (s.recover g.key n c.arch).updGroup g.key fun h => { h with trap := g.trap } := by
    simp only [State.cutBehind, hl]
  rw [he]
  exact ⟨hd.trans (discarded_updGroup _ _ fun _ => rfl), x, updGroup_get _ g.key (fun h => { h with trap := g.trap }) (fun _ h => h) _ hx⟩

/-- The handler does not see that parked threads are parked no more. -/
theorem InHandler.of_unpark {m : Mask} {h : Group} {now cause : Nat} {pc : Dword} {mask : Mask} {addr : Dword}
    (H : InHandler (g.unpark m) h now cause pc mask addr) : InHandler g h now cause pc mask addr :=
  ⟨H.regs, H.tcause, H.tpc, H.tmask, H.taddr, H.thand, H.fpctl, H.held, H.pcs, H.rest, H.ckpts⟩

end

/-! ## CHECKPOINT_VERIFY (R61, R73) -/

section
variable {k : GroupKey} {s : State} {g : Group} {c : Ckpt} {l r : List Ckpt}

theorem find?_unverified (hv : ∀ y ∈ l, y.verified = true) (hc : c.verified = false) :
    (l ++ c :: r).find? (fun c => !c.verified) = some c ∧ ((l ++ c :: r).dropWhile Ckpt.verified).drop 1 = r := by
  have hl : l.find? (fun c => !c.verified) = none := List.find?_eq_none.mpr fun y hy => by simp [hv y hy]
  constructor
  · rw [List.find?_append, hl, Option.none_or, List.find?_cons_of_pos (by rw [hc]; rfl)]
  · rw [List.dropWhile_append_of_pos hv, List.dropWhile_cons_of_neg (by rw [hc]; exact Bool.false_ne_true), List.drop_one, List.tail_cons]

/-- The oldest unverified checkpoint is verified once W has passed since it was complete. -/
theorem exec_checkpointVerify {x : Nat} (hg : s.group? k = some g) (he : g.ckpts = l ++ c :: r) (hv : ∀ y ∈ l, y.verified = true)
    (hc : c.verified = false) (hx : c.complete = some x) (hnow : x + 48 ≤ s.now) :
    exec (.checkpointVerify k) s = .next (s.setGroup (({ g with ckpts := { c with verified := true } :: r } : Group).setConsec 0)) := by
  obtain ⟨hfind, hdrop⟩ := find?_unverified (r := r) hv hc
  rw [← he] at hfind hdrop
  have hw : c.complete.any (fun t => decide (t + Config.window ≤ s.now)) = true := by
    rw [hx]
    exact decide_eq_true hnow
  show execCheckpointVerify k s = _
  simp only [execCheckpointVerify, hg, hfind, hdrop, hw, if_true]

end

/-- Settles O39: each phase of TRAP_DELIVERY is one of its branches, the entry is `inHandler_enterTrap`, and the oldest unverified checkpoint is
the first that `find?` meets. -/
theorem trapDelivery : Obligations.TrapDelivery := by
  unfold Obligations.TrapDelivery
  refine fun k s g hg => ⟨fun tr ht hh hf => ⟨fun hcut hc hr hu => ?_, fun n c hcut hl => ?_, ?_⟩, fun l c r x he hv hc hx hnow => ?_⟩
  · refine ⟨_, _, exec_trapDelivery_begins hg ht hh hf hcut hc hr hu, changedGroup_setGroup hg (key_of_group? hg :), rfl, ?_, rfl, rfl⟩
    have hbefore : g.executedBefore g.seq = true := (executedBefore_iff ..).mpr ⟨by simp [hr], by simp [hc]⟩
    exact congrArg (fun o => g.ckpts ++ [⟨g.seq, o, false, g.arch⟩]) (if_pos hbefore)
  · have hk := key_of_group? hg
    subst hk
    obtain ⟨⟨hw, ho⟩, x, hx⟩ := cutBehind_group hg hl
    exact ⟨_, _, exec_trapDelivery_cuts hg ht hh hf hcut, hx, ho, hw.ram, rfl, rfl, rfl, ht, rfl⟩
  · intro m hcut hc hm hv hr hs hmode ht0 hok hteam hcause hfl hpk
    have hk := key_of_group? hg
    subst hk
    have hd : g.drained = true := by rw [Group.drained, hr, hs]; rfl
    refine ⟨_, ((g.unpark tr.mask).enterTrap tr).commitDone s.now, ?_, changedGroup_setGroup hg rfl,
      (inHandler_enterTrap (g := g.unpark tr.mask) s.now hcause hs).of_unpark⟩
    rw [exec_trapDelivery_enters hg ht hh hf hcut hc hm hv hd]
    exact congrArg Host.Outcome.next (deliver_handled (g := g.unpark tr.mask) hmode ht0 hok hteam)
  · exact ⟨_, _, exec_checkpointVerify hg he hv hc hx hnow, changedGroup_setGroup hg (key_of_group? hg :), rfl, rstrt_setConsec_zero _, rfl⟩

end Sys2Proof.Claims
end

section
/-! PROOF. EFFECT_RELEASE: what a staged effect does when it is released (R63, R65, R104, R118, R128, R129, R156 to R158, R209, R375, R405). -/

namespace Sys2Proof.Claims

open Sys2Proof.Machine Sys2Proof.Laws

/-! ## What the homes note of a release (R180, R183, R190, R412) -/

section
variable {s t u : State}

/-- Nothing is other than before but home state and what partitions keep. -/
def HomesOnly (s t : State) : Prop := { t with coh := s.coh, parts := s.parts } = s

theorem HomesOnly.refl (s : State) : HomesOnly s s := rfl

theorem HomesOnly.trans (h : HomesOnly s t) (h' : HomesOnly t u) : HomesOnly s u :=
  (congrArg (fun x : State => { x with coh := s.coh, parts := s.parts }) h' :).trans h

theorem HomesOnly.ite {c : Prop} [Decidable c] (ht : HomesOnly s t) (hu : HomesOnly s u) : HomesOnly s (if c then t else u) := by
  split <;> assumption

theorem HomesOnly.foldl {α : Type} {f : State → α → State} (hf : ∀ s x, HomesOnly s (f s x)) (l : List α) (s : State) :
    HomesOnly s (l.foldl f s) := by
  induction l generalizing s with
  | nil => exact .refl s
  | cons x l ih => exact (hf s x).trans (ih _)

theorem HomesOnly.ram (h : HomesOnly s t) : t.ram = s.ram := (congrArg State.ram h :)
theorem HomesOnly.teams (h : HomesOnly s t) : t.teams = s.teams := (congrArg State.teams h :)
theorem HomesOnly.groups (h : HomesOnly s t) : t.groups = s.groups := (congrArg State.groups h :)

theorem homesOnly_checkAt (s : State) (e : Checker) : HomesOnly s (s.checkAt e) := by
  unfold State.checkAt
  dsimp only
  split <;> rfl

theorem homesOnly_releaseAt (s : State) (g : Group) (line : Nat) (fences : List Release) (own : Option Scope) :
    HomesOnly s (s.releaseAt g line fences own) := by
  unfold State.releaseAt
  split
  · split
    · rfl
    · exact homesOnly_checkAt ..
    · exact homesOnly_checkAt ..
    · exact homesOnly_checkAt ..
  · exact HomesOnly.ite rfl rfl

theorem homesOnly_wideRelease (s : State) (g : Group) (rels : List Release) : HomesOnly s (s.wideRelease g rels) := HomesOnly.ite rfl rfl

theorem homesOnly_releaseTo (s : State) (g : Group) (lines : List Nat) (r : Releasing) : HomesOnly s (s.releaseTo g lines r).1 :=
  (homesOnly_wideRelease ..).trans (.foldl (fun _ _ => homesOnly_releaseAt ..) ..)

theorem homesOnly_bypass (s : State) (l : Nat) : HomesOnly s (s.bypass l) := HomesOnly.ite rfl rfl

end

/-! ## Storing bytes -/

section
variable {s t u : State} {k q : TeamKey} {n r w : Nat}

theorem rank?_updRank_isSome (f : Rank → Rank) : ((s.updRank k r f).rank? q n).isSome = (s.rank? q n).isSome := by
  rw [rank_updRank]
  split
  · exact Option.isSome_map
  · rfl

theorem rankOf_updRank (hr : (s.rank? k r).isSome = true) (f : Rank → Rank) :
    (s.updRank k r f).rankOf q n = if q = k ∧ n = r then f (s.rankOf q n) else s.rankOf q n := by
  rw [State.rankOf, rank_updRank]
  split
  · next h =>
    obtain ⟨rfl, rfl⟩ := h
    obtain ⟨x, hx⟩ := Option.isSome_iff_exists.mp hr
    simp [State.rankOf, hx]
  · rfl

theorem rankOf_updRank_other (h : q ≠ k) (f : Rank → Rank) : (s.updRank k r f).rankOf q n = s.rankOf q n := by
  rw [State.rankOf, rank_updRank, if_neg fun e => h e.1, State.rankOf]

/-- A core rank but for what its scratchpad and operand buffer hold. -/
def bareRank (r : Rank) : Rank := { r with scr := ⟨[]⟩, opbuf := ⟨[]⟩, scrPoison := [], opPoison := [] }

theorem bareStore_eq (t : Team) : bareStore t = { t with ranks := t.ranks.map bareRank } := rfl

theorem bareStore_updRank {f : Rank → Rank} (hf : ∀ r, bareRank (f r) = bareRank r) (t : Team) (n : Nat) :
    bareStore (t.updRank n f) = bareStore t := by
  unfold Team.updRank
  split
  · next x hx =>
    obtain ⟨hn, rfl⟩ := List.getElem?_eq_some_iff.mp hx
    simp only [bareStore_eq, List.map_set, hf]
    rw [← List.getElem_map bareRank (h := by simpa using hn), List.set_getElem_self]
  · rfl

theorem teams_bareStore {f : Rank → Rank} (hf : ∀ r, bareRank (f r) = bareRank r) (s : State) (k : TeamKey) (n : Nat) :
    (s.updRank k n f).teams.map bareStore = s.teams.map bareStore := by
  refine (List.map_map ..).trans (List.map_congr_left fun t _ => ?_)
  show bareStore (if t.key = k then t.updRank n f else t) = bareStore t
  split
  · exact bareStore_updRank hf t n
  · rfl

/-- Some stores of one history change nothing but the history. -/
theorem foldl_push (l : List Nat) (key mask : Nat → Nat) (old val : Nat → WordState) (rels : List Release) (atom : Bool) (hid : Option CoreId)
    (eng : Bool) (r : Ram) :
    ∃ x, l.foldl (fun r w => r.push (key w) (mask w) (old w) (val w) rels atom hid eng) r = { r with hist := x } := by
  induction l generalizing r with
  | nil => exact ⟨_, rfl⟩
  | cons w l ih => exact ih _

theorem mem_addSorted {l : List Nat} {x y : Nat} : x ∈ addSorted l y ↔ x = y ∨ x ∈ l := by
  induction l with
  | nil => simp [addSorted]
  | cons a l ih =>
    unfold addSorted
    split
    · exact List.mem_cons
    · split
      · next h => simp [h]
      · rw [List.mem_cons, ih, List.mem_cons]
        tauto

theorem mem_foldl_addSorted {l m : List Nat} {x : Nat} : x ∈ l.foldl addSorted m ↔ x ∈ l ∨ x ∈ m := by
  induction l generalizing m with
  | nil => simp
  | cons a l ih =>
    rw [List.foldl_cons, ih, mem_addSorted, List.mem_cons]
    tauto

/-- The tags after a write (Table 13-1). -/
def tagsAfter (tag : TagOp) (tags : List Nat) (a n : Nat) : List Nat :=
  let l := tags.filter fun x => !(wordsOf a n).contains x
  match tag with
  | .clear => l
  | .set => addSorted l (8 * (a / 8))

/-- A write of memory changes its bytes, takes the poison of the words it writes whole, and puts the tags of the words it touches right. -/
theorem write_eq (r : Ram) (a : Nat) (d : List Byte) (k : StoreKind) :
    ∃ x n, r.write a d k =
      { r with
        mem := r.mem.putN a d, poison := unpoison r.poison a d.length, tags := tagsAfter k.tag r.tags a d.length, hist := x, num := n } := by
  obtain ⟨tag, rels, atom, hid, eng⟩ := k
  let u : Ram := { r with
    mem := r.mem.putN a d, poison := unpoison r.poison a d.length, tags := tagsAfter tag r.tags a d.length }
  obtain ⟨x, hx⟩ := foldl_push (wordsOf a d.length) id (fun w => maskOf w a d.length + 256) r.word u.word rels atom hid eng u
  cases tag <;> exact ⟨x, _, congrArg Ram.counted hx⟩

/-! What one store does, target by target. -/

section
variable {t : Target} {a : Nat} {d : List Byte} {sk : StoreKind}

/-- The core rank that a target lies on. -/
def rankNo : Target → Option Nat
  | .mem => none
  | .scr n | .opbuf n => some n

/-- A target that a team has: memory, or what one of its core ranks holds. -/
def HasTarget (s : State) (k : TeamKey) (t : Target) : Prop := ∀ n, t = .scr n ∨ t = .opbuf n → (s.rank? k n).isSome = true

theorem store_scr_eq (s : State) (k : TeamKey) (r a : Nat) (d : List Byte) (sk : StoreKind) :
    ∃ h n, s.store k (.scr r) a d sk =
      { s.updRank k r fun x => { x with scr := x.scr.putN a d, scrPoison := unpoison x.scrPoison a d.length } with
        ram := { s.ram with hist := h, num := n } } := by
  obtain ⟨h, hh⟩ := foldl_push (wordsOf a d.length) (keyOf k (.scr r)) (fun w => maskOf w a d.length) (s.wordAt k (.scr r))
    ((s.updRank k r fun x => { x with scr := x.scr.putN a d, scrPoison := unpoison x.scrPoison a d.length }).wordAt k (.scr r))
    sk.rels sk.atom sk.hid sk.eng s.ram
  exact ⟨h, _, congrArg (fun m : Ram => ({ s.updRank k r _ with ram := m.counted } : State)) hh⟩

theorem byteAt_store (hm : MemoryOk s) (ht : HasTarget s k t) (x : Target) (y : Nat) :
    byteAt (s.store k t a d sk) k x y = if t = x ∧ a ≤ y ∧ y < a + d.length then d.getD (y - a) 0 else byteAt s k x y := by
  cases t with
  | mem =>
    cases x with
    | mem =>
      show (s.ram.write a d sk).mem.get y = _
      rw [write_mem, get_putN hm.ram]
      simp [byteAt]
    | _ => simp [byteAt]; rfl
  | scr r =>
    obtain ⟨h, n, e⟩ := store_scr_eq s k r a d sk
    rw [e]
    cases x with
    | scr m =>
      show Memory.get (State.rankOf (s.updRank k r _) k m).scr y = _
      rw [rankOf_updRank (ht r (.inl rfl))]
      by_cases hr : m = r
      · subst hr
        simp [byteAt, get_putN (hm.rankOf k m).1]
      · simp [byteAt, hr, Ne.symm hr]
    | opbuf m =>
      show Memory.get (State.rankOf (s.updRank k r _) k m).opbuf y = _
      rw [rankOf_updRank (ht r (.inl rfl))]
      split <;> simp [byteAt]
    | mem => simp [byteAt]
  | opbuf r =>
    cases x with
    | opbuf m =>
      show Memory.get (State.rankOf (s.updRank k r _) k m).opbuf y = _
      rw [rankOf_updRank (ht r (.inr rfl))]
      by_cases hr : m = r
      · subst hr
        simp [byteAt, get_putN (hm.rankOf k m).2]
      · simp [byteAt, hr, Ne.symm hr]
    | scr m =>
      show Memory.get (State.rankOf (s.updRank k r _) k m).scr y = _
      rw [rankOf_updRank (ht r (.inr rfl))]
      split <;> simp [byteAt]
    | mem => simp [byteAt]; rfl

theorem poisonOf_store (ht : HasTarget s k t) (x : Target) :
    poisonOf (s.store k t a d sk) k x = if t = x then unpoison (poisonOf s k x) a d.length else poisonOf s k x := by
  cases t with
  | mem =>
    obtain ⟨h, n, e⟩ := write_eq s.ram a d sk
    cases x with
    | mem => exact congrArg Ram.poison e
    | _ => rfl
  | scr r =>
    obtain ⟨h, n, e⟩ := store_scr_eq s k r a d sk
    rw [e]
    cases x with
    | mem => rfl
    | scr m =>
      show Rank.scrPoison (State.rankOf (s.updRank k r _) k m) = _
      rw [rankOf_updRank (ht r (.inl rfl))]
      by_cases hr : m = r
      · subst hr
        simp [poisonOf]
      · simp [poisonOf, hr, Ne.symm hr]
    | opbuf m =>
      show Rank.opPoison (State.rankOf (s.updRank k r _) k m) = _
      rw [rankOf_updRank (ht r (.inl rfl))]
      split <;> simp [poisonOf]
  | opbuf r =>
    cases x with
    | mem => rfl
    | opbuf m =>
      show Rank.opPoison (State.rankOf (s.updRank k r _) k m) = _
      rw [rankOf_updRank (ht r (.inr rfl))]
      by_cases hr : m = r
      · subst hr
        simp [poisonOf]
      · simp [poisonOf, hr, Ne.symm hr]
    | scr m =>
      show Rank.scrPoison (State.rankOf (s.updRank k r _) k m) = _
      rw [rankOf_updRank (ht r (.inr rfl))]
      split <;> simp [poisonOf]

theorem contains_tagsAfter (tag : TagOp) (l : List Nat) (hd : d ≠ []) (y : Nat) :
    (tagsAfter tag l a d.length).contains (8 * (y / 8)) =
      if (wordsOf a d.length).contains (y / 8 * 8) then decide (tag = .set ∧ a / 8 = y / 8) else l.contains (8 * (y / 8)) := by
  have hn : d.length ≠ 0 := fun h => hd (List.length_eq_zero_iff.mp h)
  have hfirst : 8 * (a / 8) ∈ wordsOf a d.length := mem_wordsOf.mpr ⟨by omega, by omega, by omega, hn⟩
  rw [Nat.mul_comm (y / 8) 8, Bool.eq_iff_iff]
  cases tag with
  | clear =>
    simp only [tagsAfter, List.contains_iff_mem, List.mem_filter, Bool.not_eq_true']
    split <;> simp_all
  | set =>
    simp only [tagsAfter, List.contains_iff_mem, mem_addSorted, List.mem_filter, Bool.not_eq_true']
    split
    · next h =>
      simp [h]
      omega
    · next h =>
      have hne : 8 * (y / 8) ≠ 8 * (a / 8) := fun e => h (by rw [e]; simpa using hfirst)
      simp_all

theorem tag_store (p : Piece) (hd : p.data ≠ []) (y : Nat) :
    (s.store k p.tgt p.addr p.data sk).ram.tag y = if touches p y then decide (sk.tag = .set ∧ p.addr / 8 = y / 8) else s.ram.tag y := by
  obtain ⟨t, a, d, lanes, posted⟩ := p
  change (s.store k t a d sk).ram.tag y = _
  change d ≠ [] at hd
  cases t with
  | mem =>
    obtain ⟨h, n, e⟩ := write_eq s.ram a d sk
    exact (congrArg (fun r : Ram => r.tag y) e).trans (contains_tagsAfter sk.tag s.ram.tags hd y)
  | scr r =>
    obtain ⟨h, n, e⟩ := store_scr_eq s k r a d sk
    rw [e]
    rfl
  | opbuf r => rfl

theorem groups_store : (s.store k t a d sk).groups = s.groups := by
  cases t <;> rfl

theorem teams_store_bareStore : (s.store k t a d sk).teams.map bareStore = s.teams.map bareStore := by
  cases t with
  | mem => rfl
  | scr r => exact teams_bareStore (f := fun x => { x with scr := x.scr.putN a d, scrPoison := unpoison x.scrPoison a d.length }) (fun _ => rfl) s k r
  | opbuf r => exact teams_bareStore (f := fun x => { x with opbuf := x.opbuf.putN a d, opPoison := unpoison x.opPoison a d.length }) (fun _ => rfl) s k r

theorem rankOf_store_other (h : q ≠ k) : (s.store k t a d sk).rankOf q n = s.rankOf q n := by
  cases t with
  | mem => rfl
  | _ => exact rankOf_updRank_other h _

theorem hasTarget_store (x : Target) : HasTarget (s.store k t a d sk) k x ↔ HasTarget s k x := by
  have h : ∀ n, ((s.store k t a d sk).rank? k n).isSome = (s.rank? k n).isSome := fun n => by
    cases t with
    | mem => rfl
    | _ => exact rank?_updRank_isSome _
  simp only [HasTarget, h]

end

end

/-! ## Storing the pieces of an effect -/

section
variable {s t u : State} {k : TeamKey} {tag : TagOp} {ps qs : List Piece}

/-- The poison of a target once some pieces have been stored, each of which takes that of the words it writes whole. -/
def poisonAfter (ps : List Piece) (x : Target) (l : List Nat) : List Nat :=
  ps.foldl (fun l p => if p.tgt = x then unpoison l p.addr p.data.length else l) l

/-- The tag of a word once some pieces have been stored. -/
def tagAfter (tag : TagOp) (ps : List Piece) (y : Nat) (b : Bool) : Bool :=
  ps.foldl (fun b p => if touches p y then decide (tag = .set ∧ p.addr / 8 = y / 8) else b) b

/-- Each piece writes a byte, of a target that its team has. -/
def PiecesThere (s : State) (k : TeamKey) (ps : List Piece) : Prop := ∀ p ∈ ps, p.data ≠ [] ∧ HasTarget s k p.tgt

/-- Some pieces have been stored for a team, and nothing else has changed but home state, history and partitions. -/
structure PiecesStored (s t : State) (k : TeamKey) (ps : List Piece) (tag : TagOp) : Prop where
  bytes  : ∀ x a, byteAt t k x a = pieceByte ps x a (byteAt s k x a)
  tags   : ∀ y, t.ram.tag y = tagAfter tag ps y (s.ram.tag y)
  pois   : ∀ x, poisonOf t k x = poisonAfter ps x (poisonOf s k x)
  teams  : t.teams.map bareStore = s.teams.map bareStore
  other  : ∀ j n, j ≠ k → t.rankOf j n = s.rankOf j n
  groups : t.groups = s.groups
  has    : ∀ x, HasTarget t k x ↔ HasTarget s k x

theorem PiecesStored.nil (s : State) (k : TeamKey) (tag : TagOp) : PiecesStored s s k [] tag :=
  ⟨fun _ _ => rfl, fun _ => rfl, fun _ => rfl, rfl, fun _ _ _ => rfl, rfl, fun _ => Iff.rfl⟩

theorem PiecesStored.append (h : PiecesStored s t k ps tag) (h' : PiecesStored t u k qs tag) : PiecesStored s u k (ps ++ qs) tag where
  bytes x a := by rw [h'.bytes, h.bytes, pieceByte, pieceByte, pieceByte, List.foldl_append]
  tags y := by rw [h'.tags, h.tags, tagAfter, tagAfter, tagAfter, List.foldl_append]
  pois x := by rw [h'.pois, h.pois, poisonAfter, poisonAfter, poisonAfter, List.foldl_append]
  teams := h'.teams.trans h.teams
  other j n hj := (h'.other j n hj).trans (h.other j n hj)
  groups := h'.groups.trans h.groups
  has x := (h'.has x).trans (h.has x)

theorem PiecesThere.of_stored (h : PiecesStored s t k ps tag) (hq : PiecesThere s k qs) : PiecesThere t k qs :=
  fun p hp => ⟨(hq p hp).1, (h.has _).mpr (hq p hp).2⟩

/-- One piece is stored, after what the homes note of its release. -/
theorem piecesStored_store {p : Piece} {sk : StoreKind} (hm : MemoryOk s) (hp : p.data ≠ [] ∧ HasTarget s k p.tgt) :
    PiecesStored s (s.store k p.tgt p.addr p.data sk) k [p] sk.tag where
  bytes x a := byteAt_store hm hp.2 x a
  tags y := tag_store p hp.1 y
  pois x := poisonOf_store hp.2 x
  teams := teams_store_bareStore
  other _ _ hj := rankOf_store_other hj
  groups := groups_store
  has := hasTarget_store

/-- What the homes note changes no storage. -/
theorem PiecesStored.of_homesOnly (h : HomesOnly s t) (tag : TagOp) : PiecesStored s t k [] tag := by
  have hk : ∀ j n, t.rankOf j n = s.rankOf j n := fun j n => (congrArg (fun u : State => u.rankOf j n) h :)
  have hr : ∀ n, t.rank? k n = s.rank? k n := fun n => (congrArg (fun u : State => u.rank? k n) h :)
  refine ⟨fun x a => ?_, fun y => by rw [h.ram]; rfl, fun x => ?_, by rw [h.teams], fun j n _ => hk j n, h.groups, fun x => by simp only [HasTarget, hr]⟩
  · cases x <;> simp [byteAt, pieceByte, h.ram, hk]
  · cases x <;> simp [poisonOf, poisonAfter, h.ram, hk]

end

/-! ## What a group is ordered by once an effect has been released (R170, R171) -/

section
variable {g h q : Group} {e : Effect}

/-- Of a group nothing that a release shows has changed: its registers but for what orders its accesses, and its staged effects but for what
they are to release. -/
structure Shown (g h : Group) : Prop where
  key    : h.key = g.key
  arch   : { h.arch with mem := g.arch.mem } = g.arch
  staged : h.staged.map (fun e => { e with rels := [] }) = g.staged.map fun e => { e with rels := [] }

theorem Shown.refl (g : Group) : Shown g g := ⟨rfl, rfl, rfl⟩

theorem Shown.trans (h₁ : Shown g h) (h₂ : Shown h q) : Shown g q :=
  ⟨h₂.key.trans h₁.key, (congrArg (fun a : Arch => { a with mem := g.arch.mem }) h₂.arch :).trans h₁.arch, h₂.staged.trans h₁.staged⟩

theorem shown_ever {f : Arch → Arch} (hf : ∀ a, { f a with mem := a.mem } = a) (g : Group) : Shown g (g.ever f) := ⟨rfl, hf _, rfl⟩

theorem shown_showed (g : Group) (e : Effect) (m : Mask) (posted : Bool) (v : View) : Shown g (g.showed e m posted v) := by
  unfold Group.showed
  split
  · exact shown_ever (f := Arch.seen e.cls e.seq v) (fun _ => rfl) g
  · refine ⟨rfl, rfl, ?_⟩
    rw [List.map_map]
    rfl

theorem shown_handed (g : Group) (cls before after : Nat) (v : View) : Shown g (g.handed cls before after v) := by
  unfold Group.handed
  split
  · refine shown_ever (fun a => ?_) g
    unfold Group.needs Group.acquire
    split
    · split <;> rfl
    · rfl
  · exact .refl g

end

/-! ## The release of a piece, and of tags -/

section
variable {s t : State} {g h : Group} {e : Effect} {tag : TagOp} {ps : List Piece}

theorem relPiece_stored (own : Option Scope) {p : Piece} (hm : MemoryOk s) (hp : p.data ≠ [] ∧ HasTarget s g.key.team p.tgt) :
    PiecesStored s (relPiece e tag own (s, g) p).1 g.key.team [p] tag ∧ Shown g (relPiece e tag own (s, g) p).2 := by
  refine ⟨?_, shown_showed ..⟩
  let lines := if p.tgt == .mem then linesOf p.addr p.data.length else []
  let r := s.releaseTo g (lines.filter fun l => decide (l < Config.hostBase)) (e.releasing own p.lanes)
  let u := if e.away then lines.foldl State.bypass r.1 else { r.1 with coh := lines.foldl (fun c l => c.dirtied g.core l) r.1.coh }
  have hu : HomesOnly s u :=
    (homesOnly_releaseTo ..).trans (.ite (.foldl homesOnly_bypass ..) rfl)
  have hmu : MemoryOk u :=
    memoryOk_ite (MemoryOk.foldl (hm.releaseTo ..) (fun _ _ h => h.bypass _) _) ((hm.releaseTo ..).withCoh _)
  have h0 : PiecesStored s u g.key.team [] tag := .of_homesOnly hu tag
  exact h0.append (piecesStored_store (sk := ⟨tag, r.2, false, u.hides g p.tgt p.addr, e.engine⟩) hmu ⟨hp.1, (h0.has _).mpr hp.2⟩)

theorem relPieces_stored (own : Option Scope) (hm : MemoryOk s) (hp : PiecesThere s g.key.team ps) :
    PiecesStored s (ps.foldl (relPiece e tag own) (s, g)).1 g.key.team ps tag ∧ Shown g (ps.foldl (relPiece e tag own) (s, g)).2 := by
  induction ps generalizing s g with
  | nil => exact ⟨.nil .., .refl g⟩
  | cons p ps ih =>
    obtain ⟨hs, hg⟩ := relPiece_stored (e := e) (tag := tag) own hm (hp p List.mem_cons_self)
    have hm' : MemoryOk (relPiece e tag own (s, g) p).1 := relPiece_memoryOk e tag own (x := (s, g)) hm p
    obtain ⟨hs', hg'⟩ := ih hm' (hg.key ▸ PiecesThere.of_stored hs fun q hq => hp q (List.mem_cons_of_mem _ hq))
    rw [hg.key] at hs'
    exact ⟨hs.append hs', hg.trans hg'⟩

/-- Tags of some words are gone, and nothing else has changed but home state, history and partitions. -/
structure TagsGone (s t : State) (gone : Nat → Bool) : Prop where
  world : { t with coh := s.coh, parts := s.parts, ram := s.ram } = s
  mem   : t.ram.mem = s.ram.mem
  pois  : t.ram.poison = s.ram.poison
  tags  : ∀ y, t.ram.tag y = (s.ram.tag y && !gone y)

theorem TagsGone.refl (s : State) : TagsGone s s fun _ => false := ⟨rfl, rfl, rfl, fun _ => (Bool.and_true _).symm⟩

theorem TagsGone.there {gone : Nat → Bool} {k : TeamKey} (h : TagsGone s t gone) (hp : PiecesThere s k ps) : PiecesThere t k ps := by
  have hr : ∀ n, t.rank? k n = s.rank? k n := fun n => (congrArg (fun u : State => u.rank? k n) h.world :)
  exact fun p hpp => ⟨(hp p hpp).1, fun n hn => (hr n).symm ▸ (hp p hpp).2 n hn⟩

theorem clearTags_eq (r : Ram) (ws : List Nat) (rels : List Release) :
    ∃ x n, r.clearTags ws rels = { r with tags := r.tags.filter fun w => !ws.contains w, hist := x, num := n } := by
  have h : ∀ (ws : List Nat) (r : Ram), ∃ x,
      ws.foldl (fun r w => ({ r with tags := r.tags.filter (· ≠ w) } : Ram).push w 256 (r.word w) { r.word w with tag := false } rels false none) r =
        { r with tags := r.tags.filter fun w => !ws.contains w, hist := x } := by
    intro ws
    induction ws with
    | nil => exact fun r => ⟨r.hist, by simp⟩
    | cons w ws ih =>
      intro r
      obtain ⟨x, hx⟩ := ih (({ r with tags := r.tags.filter (· ≠ w) } : Ram).push w 256 (r.word w) { r.word w with tag := false } rels false none)
      refine ⟨x, hx.trans ?_⟩
      simp only [Ram.push, List.filter_filter]
      congr 2
      funext y
      simp [Bool.and_comm]
  obtain ⟨x, hx⟩ := h ws r
  exact ⟨x, _, congrArg Ram.counted hx⟩

/-- A word lies in some runs of bytes. -/
def inRuns (rs : List (Nat × Nat)) (w : Nat) : Bool := rs.any fun x => decide (x.1 ≤ w) && decide (w < x.1 + x.2)

theorem mem_tagged {r : Ram} {w : Nat} (h : w ∈ r.tags) (rs : List (Nat × Nat)) : w ∈ r.tagged rs ↔ inRuns rs w = true := by
  simp only [Ram.tagged, List.mem_eraseDups, List.mem_append, List.mem_filter, h, true_and, List.mem_map, Bool.and_eq_true]
  constructor
  · rintro (h | ⟨m, ⟨-, hm, -⟩, rfl⟩)
    · exact h
    · exact hm
  · exact Or.inl

theorem relClears_gone (e : Effect) (p : Piece) (rs : List (Nat × Nat)) (s : State) (g : Group) :
    TagsGone s (relClears e p rs s g).1 (fun y => inRuns rs (y / 8 * 8)) ∧ Shown g (relClears e p rs s g).2 := by
  refine ⟨?_, shown_showed ..⟩
  let ws := s.ram.tagged rs
  let r := s.releaseTo g (((ws.map fun w => w / 64 * 64).eraseDups).filter fun l => decide (l < Config.hostBase)) (e.releasing none p.lanes)
  have hr : HomesOnly s r.1 := homesOnly_releaseTo ..
  obtain ⟨x, n, hx⟩ := clearTags_eq r.1.ram ws r.2
  have he : (relClears e p rs s g).1.ram = { s.ram with tags := s.ram.tags.filter fun w => !ws.contains w, hist := x, num := n } :=
    hx.trans (by rw [hr.ram])
  refine ⟨(congrArg (fun u : State => { u with ram := s.ram }) hr :), by rw [he], by rw [he], fun y => ?_⟩
  rw [he]
  rw [Nat.mul_comm (y / 8) 8, Bool.eq_iff_iff, Bool.and_eq_true, Bool.not_eq_true']
  simp only [Ram.tag, List.contains_iff_mem, List.mem_filter, Bool.not_eq_true']
  refine and_congr_right fun hy => ?_
  rw [← Bool.not_eq_true, ← Bool.not_eq_true, List.contains_iff_mem, mem_tagged hy]

end

/-! ## The poison that an effect leaves (R76, R405) -/

section
variable {s t u : State} {k : TeamKey} {tag : TagOp} {ps : List Piece} {bad : List (Target × Nat)} {w : Nat} {x : Target}

/-- The poison of a target once an effect has taken what it writes whole, and left its own. -/
def settled (ps : List Piece) (bad : List (Target × Nat)) (x : Target) (l : List Nat) : List Nat :=
  ((bad.filter fun y => y.1 == x).map Prod.snd).foldl addSorted (l.filter fun w => !written ps x w)

def settledRank (ps : List Piece) (bad : List (Target × Nat)) (n : Nat) (r : Rank) : Rank :=
  { r with scrPoison := settled ps bad (.scr n) r.scrPoison, opPoison := settled ps bad (.opbuf n) r.opPoison }

/-- The core ranks that some pieces write to. -/
def ranksOf (ps : List Piece) : List Nat := (ps.filterMap fun p => rankNo p.tgt).eraseDups

/-- The poison of some core ranks settled. -/
def settleRanks (k : TeamKey) (ps : List Piece) (bad : List (Target × Nat)) (s : State) (ns : List Nat) : State :=
  ns.foldl (fun s n => s.updRank k n (settledRank ps bad n)) s

theorem settlePoison_eq (s : State) (k : TeamKey) (ps : List Piece) (bad : List (Target × Nat)) :
    s.settlePoison k ps bad = settleRanks k ps bad { s with ram := { s.ram with poison := settled ps bad .mem s.ram.poison } } (ranksOf ps) := by
  have h : ranksOf ps = (ps.filterMap fun p => match p.tgt with
      | .scr r | .opbuf r => some r
      | .mem => none).eraseDups := by
    refine congrArg (fun f => (ps.filterMap f).eraseDups) (funext fun p => ?_)
    cases p.tgt <;> rfl
  rw [h]
  rfl

theorem mem_settled {l : List Nat} : w ∈ settled ps bad x l ↔ (w ∈ l ∧ written ps x w = false) ∨ (x, w) ∈ bad := by
  rw [settled, mem_foldl_addSorted, List.mem_filter, Bool.not_eq_true', or_comm]
  refine or_congr_right ?_
  simp only [List.mem_map, List.mem_filter, beq_iff_eq, Prod.exists, exists_eq_right]

theorem poisonOf_settledRank {n : Nat} (hr : (s.rank? k n).isSome = true) (x : Target) :
    poisonOf (s.updRank k n (settledRank ps bad n)) k x = if rankNo x = some n then settled ps bad x (poisonOf s k x) else poisonOf s k x := by
  cases x with
  | mem => rfl
  | _ m =>
    simp only [poisonOf, rankOf_updRank hr, rankNo, Option.some.injEq, true_and]
    split
    · next h => subst h; rfl
    · rfl

/-- Settling some core ranks changes their poison alone. -/
structure RanksSettled (k : TeamKey) (ps : List Piece) (bad : List (Target × Nat)) (ns : List Nat) (s t : State) : Prop where
  world : { t with teams := s.teams } = s
  bytes : ∀ x a, byteAt t k x a = byteAt s k x a
  pois  : ∀ x w, w ∈ poisonOf t k x ↔ if ∃ n ∈ ns, rankNo x = some n then w ∈ settled ps bad x (poisonOf s k x) else w ∈ poisonOf s k x
  teams : t.teams.map bareStore = s.teams.map bareStore
  other : ∀ j n, j ≠ k → t.rankOf j n = s.rankOf j n

theorem ranksSettled {ns : List Nat} (hr : ∀ n ∈ ns, (s.rank? k n).isSome = true) : RanksSettled k ps bad ns s (settleRanks k ps bad s ns) := by
  induction ns generalizing s with
  | nil => exact ⟨rfl, fun _ _ => rfl, fun x w => by simp [settleRanks], rfl, fun _ _ _ => rfl⟩
  | cons n ns ih =>
    have hn := hr n List.mem_cons_self
    obtain ⟨h1, h2, h3, h4, h5⟩ := ih (s := s.updRank k n (settledRank ps bad n))
      fun m hm => (rank?_updRank_isSome _).trans (hr m (List.mem_cons_of_mem _ hm))
    refine ⟨(congrArg (fun u : State => { u with teams := s.teams }) h1 :), fun x a => (h2 x a).trans ?_, fun x w => (h3 x w).trans ?_,
      h4.trans (teams_bareStore (f := settledRank ps bad n) (fun _ => rfl) s k n), fun j m hj => (h5 j m hj).trans (rankOf_updRank_other hj _)⟩
    · cases x with
      | mem => rfl
      | _ m =>
        simp only [byteAt, rankOf_updRank hn, true_and]
        split <;> rfl
    · rw [poisonOf_settledRank hn]
      by_cases h : rankNo x = some n
      · rw [if_pos h, if_pos (⟨n, List.mem_cons_self, h⟩ : ∃ m ∈ n :: ns, rankNo x = some m)]
        split
        · rw [mem_settled, mem_settled]
          tauto
        · rfl
      · have hns : (∃ m ∈ n :: ns, rankNo x = some m) ↔ ∃ m ∈ ns, rankNo x = some m := by simp [h]
        simp only [h, if_false, hns]

theorem fullWords_written {p : Piece} (hp : p ∈ ps) (hx : p.tgt = x) (hw : w ∈ fullWords p.addr p.data.length) : written ps x w = true := by
  simp only [fullWords, List.mem_filter, Bool.and_eq_true, decide_eq_true_eq] at hw
  refine List.all_eq_true.mpr fun i hi => List.any_eq_true.mpr ⟨p, hp, ?_⟩
  have := List.mem_range.mp hi
  simp only [hx, beq_self_eq_true, Bool.true_and, Bool.and_eq_true, decide_eq_true_eq]
  omega

theorem mem_poisonAfter {l : List Nat} {qs : List Piece} (h : written ps x w = false) (hq : ∀ p ∈ qs, p ∈ ps) :
    w ∈ poisonAfter qs x l ↔ w ∈ l := by
  induction qs generalizing l with
  | nil => rfl
  | cons p qs ih =>
    refine (ih fun q hq' => hq q (List.mem_cons_of_mem _ hq')).trans ?_
    dsimp only
    split
    · next hx =>
      have hn : w ∉ fullWords p.addr p.data.length := fun hw => by
        rw [fullWords_written (hq p List.mem_cons_self) hx hw] at h
        exact Bool.noConfusion h
      simp [unpoison, hn]
    · rfl

/-- What is settled of the poison that storing the pieces has left is what is settled of all that was there. -/
theorem mem_settled_poisonAfter {l : List Nat} :
    w ∈ settled ps bad x (poisonAfter ps x l) ↔ (w ∈ l ∧ written ps x w = false) ∨ (x, w) ∈ bad := by
  rw [mem_settled]
  exact or_congr_left (and_congr_left fun h => mem_poisonAfter h fun _ hp => hp)

theorem mem_ranksOf {n : Nat} : n ∈ ranksOf ps ↔ ∃ p ∈ ps, rankNo p.tgt = some n := by
  rw [ranksOf, List.mem_eraseDups, List.mem_filterMap]

theorem hasTarget_rank {n : Nat} (h : HasTarget s k x) (hn : rankNo x = some n) : (s.rank? k n).isSome = true := by
  cases x with
  | mem => cases hn
  | scr m =>
    cases hn
    exact h n (.inl rfl)
  | opbuf m =>
    cases hn
    exact h n (.inr rfl)

/-- Once its pieces are stored, where tags may have gone before, and its poison is settled, an effect has written its pieces. -/
theorem piecesWritten_settled {gone : Nat → Bool} (hg : TagsGone s t gone) (hs : PiecesStored t u k ps tag) (hp : PiecesThere t k ps) :
    PiecesWritten s (u.settlePoison k ps bad) k ps tag gone bad ∧ (u.settlePoison k ps bad).groups = s.groups := by
  let v : State := { u with ram := { u.ram with poison := settled ps bad .mem u.ram.poison } }
  have hv : RanksSettled k ps bad (ranksOf ps) v (u.settlePoison k ps bad) := settlePoison_eq u k ps bad ▸ ranksSettled fun n hn => by
    obtain ⟨p, hp', he⟩ := mem_ranksOf.mp hn
    exact hasTarget_rank ((hs.has _).mpr (hp p hp').2) he
  have hk : ∀ j n, t.rankOf j n = s.rankOf j n := fun j n => (congrArg (fun y : State => y.rankOf j n) hg.world :)
  have hb : ∀ x a, byteAt t k x a = byteAt s k x a := fun x a => by
    cases x <;> simp [byteAt, hg.mem, hk]
  have hpo : ∀ x, poisonOf t k x = poisonOf s k x := fun x => by
    cases x <;> simp [poisonOf, hg.pois, hk]
  have hteams : t.teams = s.teams := (congrArg State.teams hg.world :)
  have hram : (u.settlePoison k ps bad).ram = v.ram := (congrArg State.ram hv.world :)
  refine ⟨⟨fun x a => ?_, fun y => ?_, fun x w _ hx => ?_, ?_, fun j n hj => ?_⟩, ?_⟩
  · have : byteAt v k x a = byteAt u k x a := by cases x <;> rfl
    rw [hv.bytes, this, hs.bytes, hb]
  · rw [hram, ← hg.tags, ← tagAfter, ← hs.tags]
    rfl
  · rw [hv.pois, ← hpo, ← mem_settled_poisonAfter, ← hs.pois]
    rcases hx with rfl | ⟨p, hp', rfl⟩
    · rw [if_neg (by simp [rankNo])]
      rfl
    · cases hn : rankNo p.tgt with
      | none =>
        rw [if_neg (by simp)]
        cases ht : p.tgt with
        | mem => rfl
        | _ => rw [ht] at hn; cases hn
      | some n =>
        rw [if_pos ⟨n, mem_ranksOf.mpr ⟨p, hp', hn⟩, rfl⟩]
        cases ht : p.tgt with
        | mem => rw [ht] at hn; cases hn
        | _ => rfl
  · exact hv.teams.trans (hs.teams.trans (by rw [hteams]))
  · exact (hv.other j n hj).trans ((hs.other j n hj).trans (hk j n))
  · exact (congrArg State.groups hv.world :).trans (hs.groups.trans (congrArg State.groups hg.world :))

end

/-! ## EFFECT_RELEASE (R65, R407) -/

section
variable {k : GroupKey} {s u : State} {g h : Group} {e : Effect} {r : List Effect} {n : Nat}

/-- A group whose oldest effect is released: a write of an engine counts for the release times after it (R407). -/
def releasing (g : Group) (e : Effect) (r : List Effect) : Group :=
  { g with staged := r, lastRel := if e.engine then max g.lastRel (e.execAt + Config.window) else g.lastRel }

theorem exec_effectRelease (hg : s.group? k = some g) (hs : g.staged = e :: r) (hr : s.releasable g = true) :
    exec (.effectRelease k) s = .next ((s.applyEffect (releasing g e r) e).1.setGroup (s.applyEffect (releasing g e r) e).2) := by
  show execEffectRelease k s = _
  simp only [execEffectRelease, hg, hs, hr, Bool.not_true, Bool.false_eq_true, if_false]
  rfl

theorem released_of_shown (hg : s.group? g.key = some g) (hu : u.groups = s.groups) (hs : Shown { g with staged := r, lastRel := n } h) :
    Released s (u.setGroup h) g h r := by
  have hk : h.key = g.key := hs.key
  have hug : ∀ j, u.group? j = s.group? j := fun j => congrArg (List.find? fun x : Group => x.key = j) hu
  exact ⟨fun j hj => ((setGroup_only u h).others j (hk.symm ▸ hj)).trans (hug j), setGroup_mine u g h hk ((hug _).trans hg), hs.staged,
    ⟨(congrArg Arch.v hs.arch :), (congrArg Arch.s hs.arch :), (congrArg Arch.p hs.arch :), (congrArg Arch.pois hs.arch :)⟩,
    (congrArg (withRegsOf g.arch) hs.arch :), (congrArg Arch.pcs hs.arch :)⟩

/-- An effect that changes no group leaves its own with the others that it has staged. -/
theorem exec_effectRelease_plain (hg : s.group? k = some g) (hs : g.staged = e :: r) (hr : s.releasable g = true) (he : e.engine = false)
    (ha : s.applyEffect { g with staged := r } e = (u, { g with staged := r })) (hu : u.groups = s.groups) :
    ∃ t, exec (.effectRelease k) s = .next t ∧ ChangedGroup u t k { g with staged := r } := by
  have hrel : releasing g e r = { g with staged := r } := by
    rw [releasing, he]
    rfl
  refine ⟨_, exec_effectRelease hg hs hr, ?_⟩
  rw [hrel, ha]
  exact changedGroup_setGroup ((congrArg (List.find? fun x : Group => x.key = k) hu :).trans hg) (key_of_group? hg :)

theorem piecesWritten_setGroup {tag : TagOp} {ps : List Piece} {j : TeamKey} {gone : Nat → Bool} {bad : List (Target × Nat)}
    (hw : PiecesWritten s u j ps tag gone bad) (h : Group) : PiecesWritten s (u.setGroup h) j ps tag gone bad :=
  ⟨hw.bytes, hw.tags, hw.pois, hw.teams, hw.other⟩

/-- An effect whose pieces are stored, where tags may have gone before, has written them. -/
theorem piecesReleased {v : State} {tag : TagOp} {ps : List Piece} {gone : Nat → Bool} (hg : s.group? g.key = some g) (hs : g.staged = e :: r)
    (hr : s.releasable g = true) (ha : s.applyEffect (releasing g e r) e = (u.settlePoison g.key.team ps e.pois, h)) (hgone : TagsGone s v gone)
    (hst : PiecesStored v u g.key.team ps tag) (hp : PiecesThere v g.key.team ps) (hsh : Shown (releasing g e r) h) :
    ∃ t h, exec (.effectRelease g.key) s = .next t ∧ Released s t g h r ∧ PiecesWritten s t g.key.team ps tag gone e.pois := by
  obtain ⟨hw, hgr⟩ := piecesWritten_settled (bad := e.pois) hgone hst hp
  refine ⟨_, h, exec_effectRelease hg hs hr, ?_⟩
  rw [ha]
  exact ⟨released_of_shown hg hgr hsh, piecesWritten_setGroup hw h⟩

/-- A change of a buffer that still stands tells the group of the slots it had taken ahead; one that stands no more is not changed. -/
theorem onQueue_eq (s : State) (g : Group) (id n : Nat) (f : Queue → Queue) :
    (∀ x, (rankOfG s g).queue? n = some x → x.id = id →
      (s.onQueue g id n f).1 = (onRank s g fun y => y.setQueue n (f x)) ∧ Shown g (s.onQueue g id n f).2) ∧
    ((∀ x, (rankOfG s g).queue? n = some x → x.id ≠ id) → s.onQueue g id n f = (s, g)) := by
  constructor
  · intro x hx hid
    have hf : ((s.rankOf g.key.team g.rank).queue? n).filter (fun x => x.id = id) = some x := by
      rw [show (s.rankOf g.key.team g.rank).queue? n = some x from hx]
      simp [hid]
    rw [State.onQueue, hf]
    exact ⟨rfl, (shown_handed ..).trans (shown_handed ..)⟩
  · intro hx
    have hf : ((s.rankOf g.key.team g.rank).queue? n).filter (fun x => x.id = id) = none := by
      rw [Option.filter_eq_none_iff]
      exact fun y hy => by simpa using hx y hy
    rw [State.onQueue, hf]

/-- A slot of a buffer is given up in the buffer that it was staged for (R128, R129). -/
theorem slotsGivenUp {id : Nat} {f : Queue → Queue} (hg : s.group? k = some g) (hs : g.staged = e :: r) (hr : s.releasable g = true)
    (he : e.engine = false) (ha : s.applyEffect { g with staged := r } e = s.onQueue { g with staged := r } id n f) :
    (∀ x, (rankOfG s g).queue? n = some x → x.id = id → ∃ t h, exec (.effectRelease k) s = .next t ∧ Released s t g h r ∧
      World t (onRank s g fun y => y.setQueue n (f x))) ∧
    ((∀ x, (rankOfG s g).queue? n = some x → x.id ≠ id) →
      ∃ t, exec (.effectRelease k) s = .next t ∧ ChangedGroup s t k { g with staged := r }) := by
  have hk := key_of_group? hg
  subst hk
  have hrel : releasing g e r = { g with staged := r } := by
    rw [releasing, he]
    rfl
  obtain ⟨hstands, hgone⟩ := onQueue_eq s { g with staged := r } id n f
  constructor
  · intro x hx hid
    obtain ⟨hw, hsh⟩ := hstands x hx hid
    refine ⟨_, (s.applyEffect (releasing g e r) e).2, exec_effectRelease hg hs hr, ?_, ?_⟩
    · rw [hrel, ha]
      exact released_of_shown (n := g.lastRel) hg (by rw [hw]; rfl) hsh
    · rw [hrel, ha, hw]
      rfl
  · exact fun hx => exec_effectRelease_plain hg hs hr he (ha.trans (hgone hx)) rfl

/-- A tile whose one image loses its one writer holds the image's rows (R118). -/
theorem releaseTile_live {y : Rank} {z id seq : Nat} {tl : Tile} {x : Shadow} (hz : y.z[z]? = some tl) (hx : tl.shadows = [x]) (hid : x.id = id)
    (hw : x.waits = [(k, seq)]) (ho : x.op = none) :
    (y.releaseTile z id k seq).z[z]? = some ⟨tl.rows.mapIdx fun i w => (assoc x.rows i).getD w, x.cnt, []⟩ := by
  obtain ⟨rows, cnt, shadows⟩ := tl
  obtain ⟨i, rws, c, waits, op⟩ := x
  subst hx hid hw ho
  obtain ⟨hlen, hget⟩ := List.getElem?_eq_some_iff.mp hz
  simp [Rank.releaseTile, Rank.settleTile, hget, Tile.settle, hlen]

end

/-- Settles O40: the pieces of a store are stored one by one (`relPieces_stored`), then their poison is settled; a slot is given up where its
buffer still stands; every other effect changes its one record. -/
theorem effectsAreReleased : Obligations.EffectsAreReleased := by
  unfold Obligations.EffectsAreReleased
  intro k s g e r hg hs hr
  have hk := key_of_group? hg
  subst hk
  refine ⟨fun ps tag sc he hp => ?_, fun p rs he hp => ?_, fun id n m => ⟨fun he => ?_, fun he => ?_, fun he => ?_, fun he => ?_⟩,
    fun id n i m he => ?_, fun id ts he => ?_, fun n b he => ?_, fun n z id he => ⟨?_, fun y tl x => releaseTile_live⟩⟩
  · obtain ⟨hst, hsh⟩ := relPieces_stored (e := e) (tag := tag) (g := releasing g e r) sc hp.1 hp.2
    exact piecesReleased hg hs hr (by rw [State.applyEffect, he]; rfl) (.refl s) hst hp.2 hsh
  · obtain ⟨hgone, hsh⟩ := relClears_gone e p rs s (releasing g e r)
    have hthere : PiecesThere (relClears e p rs s (releasing g e r)).1 g.key.team [p] := hgone.there hp.2
    have hm := relClears_memoryOk hp.1 e p rs (releasing g e r)
    obtain ⟨hst, hsh'⟩ := relPiece_stored (e := e) (tag := .clear) none hm (hsh.key ▸ hthere p List.mem_cons_self)
    exact piecesReleased hg hs hr (by rw [State.applyEffect, he]; rfl) hgone (hsh.key ▸ hst) hthere (hsh.trans hsh')
  · exact slotsGivenUp hg hs hr (by rw [Effect.engine, he]) (by rw [State.applyEffect, he])
  · exact slotsGivenUp hg hs hr (by rw [Effect.engine, he]) (by rw [State.applyEffect, he])
  · exact slotsGivenUp hg hs hr (by rw [Effect.engine, he]) (by rw [State.applyEffect, he]; rfl)
  · exact slotsGivenUp hg hs hr (by rw [Effect.engine, he]) (by rw [State.applyEffect, he]; rfl)
  · rcases he with he | he | he <;> exact exec_effectRelease_plain hg hs hr (by rw [Effect.engine, he]) (by rw [State.applyEffect, he]) rfl
  · exact exec_effectRelease_plain hg hs hr (by rw [Effect.engine, he]) (by rw [State.applyEffect, he]) rfl
  · exact exec_effectRelease_plain hg hs hr (by rw [Effect.engine, he]) (by rw [State.applyEffect, he]; rfl) rfl
  · exact exec_effectRelease_plain hg hs hr (by rw [Effect.engine, he]) (by rw [State.applyEffect, he]; rfl) rfl

end Sys2Proof.Claims
end

section
/-! PROOF. The fatal reset: what asks for it, what it drops, and what ends it (R76, R151, R226, R232 to R234, R238). -/

namespace Sys2Proof.Claims

open Sys2Proof.Machine Sys2Proof.Laws

/-! ## Asking for the reset (R233) -/

section
variable {s t u : State} {n p : Nat}

/-- A partition awaits its fatal reset: its VF is not ready, and none of its groups dispatches any more. -/
def Falls (t : State) (n : Nat) : Prop :=
  (t.part n).ready = false ∧ (t.part n).resetAt.isSome = true ∧ ∀ g ∈ t.groups, g.key.team.part = n → g.stop = true

/-- Nothing is other than before but groups and partitions. -/
def AsksOnly (s t : State) : Prop := { t with groups := s.groups, parts := s.parts } = s ∧ t.parts.length = s.parts.length

theorem AsksOnly.refl (s : State) : AsksOnly s s := ⟨rfl, rfl⟩

theorem AsksOnly.trans (h : AsksOnly s t) (h' : AsksOnly t u) : AsksOnly s u :=
  ⟨(congrArg (fun x : State => { x with groups := s.groups, parts := s.parts }) h'.1 :).trans h.1, h'.2.trans h.2⟩

theorem AsksOnly.ram (h : AsksOnly s t) : t.ram = s.ram := (congrArg State.ram h.1 :)
theorem AsksOnly.coh (h : AsksOnly s t) : t.coh = s.coh := (congrArg State.coh h.1 :)
theorem AsksOnly.teams (h : AsksOnly s t) : t.teams = s.teams := (congrArg State.teams h.1 :)

theorem length_setPart (s : State) (p : Nat) (x : Part) : (s.setPart p x).parts.length = s.parts.length := List.length_set

theorem asksOnly_askReset (s : State) (p : Nat) : AsksOnly s (s.askReset p) := ⟨rfl, length_setPart ..⟩

theorem part_askReset (s : State) (p n : Nat) : (s.askReset p).part n =
    if n = p ∧ p < s.parts.length then { s.part p with ready := false, resetAt := some ((s.part p).resetAt.getD s.now) } else s.part n :=
  part_setPart s p n _

theorem falls_askReset (hn : n < s.parts.length) : Falls (s.askReset n) n := by
  have h := part_askReset s n n
  rw [if_pos ⟨rfl, hn⟩] at h
  exact ⟨congrArg Part.ready h, congrArg (fun p : Part => p.resetAt.isSome) h, fun g hg hk => askReset_stop hg hk⟩

/-- A partition that awaits its reset still does when another asks for one. -/
theorem Falls.askReset (h : Falls s n) (p : Nat) : Falls (s.askReset p) n := by
  obtain ⟨hready, hat, hstop⟩ := h
  refine ⟨?_, ?_, fun g hg hk => ?_⟩
  · rw [part_askReset]
    split
    · rfl
    · exact hready
  · rw [part_askReset]
    split
    · rfl
    · exact hat
  · obtain ⟨x, hx, rfl⟩ := List.mem_map.mp hg
    split
    · rfl
    · next hp =>
      rw [if_neg hp] at hk
      exact hstop x hx hk

/-- The partitions of a list for which a condition holds ask for their resets. -/
def askResets (c : Nat → Bool) (s : State) (l : List Nat) : State := l.foldl (fun s p => if c p then s.askReset p else s) s

theorem asksOnly_askResets (c : Nat → Bool) (l : List Nat) (s : State) : AsksOnly s (askResets c s l) := by
  induction l generalizing s with
  | nil => exact .refl s
  | cons p l ih =>
    refine AsksOnly.trans ?_ (ih _)
    dsimp only
    split
    · exact asksOnly_askReset ..
    · exact .refl s

theorem Falls.askResets (h : Falls s n) (c : Nat → Bool) (l : List Nat) : Falls (askResets c s l) n := by
  induction l generalizing s with
  | nil => exact h
  | cons p l ih =>
    refine ih (s := if c p then s.askReset p else s) ?_
    split
    · exact h.askReset p
    · exact h

theorem falls_askResets {c : Nat → Bool} {l : List Nat} (hn : n < s.parts.length) (hc : c n = true) (hl : n ∈ l) : Falls (askResets c s l) n := by
  induction l generalizing s with
  | nil => cases hl
  | cons p l ih =>
    rcases List.mem_cons.mp hl with rfl | hl
    · refine Falls.askResets (s := if c n then s.askReset n else s) ?_ c l
      rw [if_pos hc]
      exact falls_askReset hn
    · refine ih (s := if c p then s.askReset p else s) ?_ hl
      split
      · rw [(asksOnly_askReset s p).2]
        exact hn
      · exact hn

end

/-! ## What asks for it: LINK_DOWN, MACHINE_CHECK, VF_RESET (R76, R151, R226, R238) -/

section
variable {s : State} {n : Nat}

theorem taintLines_state (r : Ram) (ls : List Nat) : ∃ x, r.taintLines ls = { r with poison := x } := by
  suffices h : ∀ p, ∃ x, (ls.foldl (fun r l => r.taint l 64) { r with poison := p }) = { r with poison := x } from h r.poison
  induction ls with
  | nil => exact fun p => ⟨p, rfl⟩
  | cons l ls ih => exact fun p => ih _

theorem linkFalls {link : Nat} (hl : link < 8) (hd : link ∉ s.coh.linkDown) :
    ∃ t, exec (.linkDown link) s = .next t ∧ link ∈ t.coh.linkDown ∧ t.ram.mem = s.ram.mem ∧ t.teams = s.teams ∧
      ∀ n, n < 16 → n < s.parts.length → link ∈ s.linksUsed (s.part n) → Falls t n := by
  have hc : ¬(s.coh.linkDown.contains link = true ∨ 8 ≤ link) := by
    rw [List.contains_iff_mem]
    exact not_or.mpr ⟨hd, Nat.not_le.mpr hl⟩
  refine ⟨_, (show execLinkDown link s = _ by rw [execLinkDown, if_neg hc]), ?_⟩
  let c := fun p => (s.linksUsed (s.part p)).contains link
  have ha := fun u : State => asksOnly_askResets c (List.range 16) u
  refine ⟨?_, ?_, (ha _).teams, fun n hn hp hu => falls_askResets (c := c) hp (List.contains_iff_mem.mpr hu) (List.mem_range.mpr hn)⟩
  · rw [show ∀ u : State, ((List.range 16).foldl (fun t p => if (s.linksUsed (s.part p)).contains link then t.askReset p else t) u).coh = u.coh from
      fun u => (ha u).coh]
    exact List.mem_cons_self
  · exact (congrArg Ram.mem (ha _).ram).trans (taintLines_mem ..)

theorem vfResets {port vf p : Nat} (h : s.bound port vf = some p) : ∃ t, exec (.vfReset port vf) s = .next t ∧ t.ram = s.ram ∧ Falls t p := by
  have hp : p < s.parts.length := by
    by_contra hge
    have hb := List.find?_some h
    have hpart : s.part p = Part.reset := List.getD_eq_default _ _ (Nat.not_lt.mp hge)
    rw [hpart] at hb
    revert hb
    simp only [show Part.reset.described = false from rfl, Bool.false_and, Bool.false_eq_true, false_implies]
  refine ⟨s.askReset p, ?_, rfl, falls_askReset hp⟩
  show execVfReset port vf s = _
  rw [execVfReset, h]

end

/-! ## What a completion changes (R198, R203) -/

section
variable {s t u : State}

/-- Nothing is other than before but memory, home state, what partitions keep beside their contexts, and device-wide records. -/
structure FrontOnly (s t : State) : Prop where
  world : { t with ram := s.ram, coh := s.coh, parts := s.parts, dev := s.dev, fresh := s.fresh } = s
  parts : t.parts.length = s.parts.length
  ctxs  : ∀ n, (t.part n).ctxs.map Context.num = (s.part n).ctxs.map Context.num

theorem FrontOnly.refl (s : State) : FrontOnly s s := ⟨rfl, rfl, fun _ => rfl⟩

theorem FrontOnly.trans (h : FrontOnly s t) (h' : FrontOnly t u) : FrontOnly s u :=
  ⟨(congrArg (fun x : State => { x with ram := s.ram, coh := s.coh, parts := s.parts, dev := s.dev, fresh := s.fresh }) h'.world :).trans h.world,
    h'.parts.trans h.parts, fun n => (h'.ctxs n).trans (h.ctxs n)⟩

/-- The same, the later part first. -/
theorem FrontOnly.after (h' : FrontOnly t u) (h : FrontOnly s t) : FrontOnly s u := h.trans h'

theorem FrontOnly.of_eq (h : { t with ram := s.ram, coh := s.coh, parts := s.parts, dev := s.dev, fresh := s.fresh } = s) (hp : t.parts = s.parts) :
    FrontOnly s t :=
  ⟨h, congrArg List.length hp, fun n => congrArg (fun l : List Part => (l.getD n Part.reset).ctxs.map Context.num) hp⟩

theorem FrontOnly.ite {c : Prop} [Decidable c] (ht : FrontOnly s t) (hu : FrontOnly s u) : FrontOnly s (if c then t else u) := by
  split <;> assumption

theorem FrontOnly.foldl {α : Type} {f : State → α → State} (hf : ∀ s x, FrontOnly s (f s x)) (l : List α) (s : State) : FrontOnly s (l.foldl f s) := by
  induction l generalizing s with
  | nil => exact .refl s
  | cons x l ih => exact (hf s x).trans (ih _)

theorem frontOnly_updPart (s : State) (p : Nat) {f : Part → Part} (hf : ∀ x, (f x).ctxs.map Context.num = x.ctxs.map Context.num) :
    FrontOnly s (s.updPart p f) := by
  refine ⟨rfl, length_setPart .., fun n => ?_⟩
  rw [State.updPart, part_setPart]
  split
  · next h => rw [hf, h.1]
  · rfl

theorem frontOnly_evict (s : State) (part ctx : Nat) : FrontOnly s (s.evict part ctx) := by
  refine frontOnly_updPart s part fun x => (List.map_map ..).trans (List.map_congr_left fun c _ => ?_)
  show Context.num (if c.num = ctx then _ else c) = c.num
  split <;> rfl

theorem frontOnly_checkAt (s : State) (e : Checker) : FrontOnly s (s.checkAt e) := by
  unfold State.checkAt
  dsimp only
  split
  · exact (frontOnly_evict ..).after (.of_eq rfl rfl)
  · exact .of_eq rfl rfl

theorem frontOnly_bypass (s : State) (l : Nat) : FrontOnly s (s.bypass l) := .ite (.refl s) (.of_eq rfl rfl)

theorem frontOnly_ioPut (s : State) (a : Nat) (d : List Byte) (k : StoreKind) : FrontOnly s (s.ioPut a d k) :=
  (FrontOnly.foldl frontOnly_bypass (linesOf a d.length) { s with ram := s.ram.write a d k }).after (.of_eq rfl rfl)

theorem frontOnly_ioChecked (s : State) (who : Releaser) (part ctx a : Nat) : FrontOnly s (s.ioChecked who part ctx a) :=
  .ite (frontOnly_checkAt ..) (.refl s)

theorem frontOnly_logAt (s : State) (source part a : Nat) : FrontOnly s (s.logAt source part a) := .of_eq rfl rfl

theorem frontOnly_pick {α : Type} (s : State) (l : List α) (d : α) : FrontOnly s (s.pick l d).2 := by
  obtain ⟨n, hn⟩ := pick_state s l d
  rw [hn]
  exact .of_eq rfl rfl

theorem frontOnly_putStatus (s : State) (part ctx va x : Nat) : FrontOnly s (s.putStatus part ctx va x) := by
  unfold State.putStatus
  split
  · exact frontOnly_ioPut ..
  · exact frontOnly_logAt ..

theorem frontOnly_addCounter (s : State) (part ctx va : Nat) (v : View) : FrontOnly s (s.addCounter part ctx va v) := by
  unfold State.addCounter
  split
  · next r _ =>
    have hx : FrontOnly s (if 2 ≤ pteMt r.pte then s.pick [true, false] true else (true, s)).2 := by
      split
      · exact frontOnly_pick ..
      · exact .refl s
    exact .ite (hx.trans (frontOnly_logAt ..)) (hx.trans ((frontOnly_ioPut ..).trans (frontOnly_ioChecked ..)))
  · exact frontOnly_logAt ..

theorem frontOnly_completed (s : State) (part ctx : Nat) (st : Option (Nat × Nat)) (cnt : Option Nat) (did : View) :
    FrontOnly s (s.completed part ctx st cnt did) := by
  have ht : FrontOnly s ((st.map fun x => s.putStatus part ctx x.1 x.2).getD s) := by
    cases st with
    | none => exact .refl s
    | some x => exact frontOnly_putStatus ..
  unfold State.completed
  cases cnt with
  | none => exact ht
  | some a => exact ht.trans (frontOnly_addCounter ..)

theorem frontOnly_emit (s : State) (o : Out) : FrontOnly s (s.emit o) := .of_eq rfl rfl

theorem frontOnly_tryVec (s : State) (part vec : Nat) : FrontOnly s (s.tryVec part vec) :=
  .ite ((frontOnly_emit ..).after (frontOnly_updPart s part fun _ => rfl)) (.refl s)

theorem frontOnly_raiseVec (s : State) (part vec : Nat) : FrontOnly s (s.raiseVec part vec) :=
  (frontOnly_tryVec _ part vec).after (frontOnly_updPart s part fun _ => rfl)

theorem frontOnly_finish (s : State) (part ctx : Nat) (b : Launch) (status lost : Nat) (did : View) :
    FrontOnly s (s.finish part ctx b status lost did) :=
  .ite ((frontOnly_completed ..).trans (frontOnly_raiseVec ..)) (frontOnly_completed ..)

theorem frontOnly_updBooth (s : State) (part n : Nat) (f : Booth → Booth) : FrontOnly s (s.updBooth part n f) :=
  frontOnly_updPart s part fun _ => rfl

theorem frontOnly_freeSlot (s : State) (part : Nat) (slot : Option Nat) : FrontOnly s (s.freeSlot part slot) := by
  cases slot with
  | none => exact .refl s
  | some i => exact (frontOnly_emit _ (.credit part i)).after (frontOnly_updPart s part fun _ => rfl)

theorem frontOnly_refuse (s : State) (part n : Nat) (w : Waiting) (status : Nat) : FrontOnly s (s.refuse part n w status) :=
  (frontOnly_updBooth ..).trans ((frontOnly_finish ..).trans (frontOnly_freeSlot ..))

theorem frontOnly_evalBooth (part : Nat) (x : State × Bool) (n : Nat) : FrontOnly x.1 (evalBooth part x n).1 := by
  unfold evalBooth
  dsimp only
  split
  · exact .refl _
  · split
    · exact .refl _
    · split
      · split
        · exact .refl _
        · exact frontOnly_refuse ..
      · exact .refl _
      · exact frontOnly_updBooth ..

theorem frontOnly_evalDeps (part n : Nat) (s : State) : FrontOnly s (evalDeps part n s) := by
  induction n generalizing s with
  | zero => exact .refl s
  | succ n ih =>
    have hx : FrontOnly s ((List.range 65).foldl (evalBooth part) (s, false)).1 :=
      List.foldlRecOn _ _ (motive := fun x : State × Bool => FrontOnly s x.1) (.refl s) fun _ h n _ => h.trans (frontOnly_evalBooth part _ n)
    unfold evalDeps
    exact .ite (hx.trans (ih _)) hx

theorem frontOnly_deps (s : State) (part : Nat) : FrontOnly s (s.deps part) := frontOnly_evalDeps ..

theorem frontOnly_endGang (s : State) (a : Gang) : FrontOnly s (s.endGang a) :=
  .ite (.refl s) (((frontOnly_finish ..).trans (frontOnly_deps ..)).after (.of_eq rfl rfl))

theorem frontOnly_copyDone (s : State) (part id status lost : Nat) (did : View) : FrontOnly s (s.copyDone part id status lost did) := by
  unfold State.copyDone
  split
  · exact .refl s
  · exact .ite ((frontOnly_endGang ..).after (.of_eq rfl rfl)) (.of_eq rfl rfl)

theorem frontOnly_dropGangs (s : State) (part : Nat) (gs : List Grid) : FrontOnly s (s.dropGangs part gs) := by
  refine (FrontOnly.foldl (fun s g => ?_) gs _).after (.of_eq rfl rfl)
  cases g.gang with
  | none => exact .refl s
  | some id => exact frontOnly_copyDone ..

theorem frontOnly_abortColl (s : State) (part : Nat) (o : CollOp) : FrontOnly s (s.abortColl part o) := by
  unfold State.abortColl
  split
  · exact .refl s
  · refine FrontOnly.foldl (fun s r => ?_) _ s
    dsimp only
    split
    · exact .refl s
    · split
      · exact frontOnly_updPart s _ fun _ => rfl
      · exact .of_eq rfl rfl

end

/-! ## The teams of a partition leave (R232, R233) -/

section
variable {s t u : State} {k : TeamKey} {ks : List TeamKey}

/-- The teams of some keys have left with their groups, and nothing else that a reset keeps has changed. -/
structure TeamsLeft (ks : List TeamKey) (s t : State) : Prop where
  teams  : t.teams = s.teams.filter fun x => !ks.contains x.key
  groups : t.groups = s.groups.filter fun g => !ks.contains g.key.team
  iods   : t.iods = s.iods
  parts  : t.parts.length = s.parts.length
  ctxs   : ∀ n, (t.part n).ctxs.map Context.num = (s.part n).ctxs.map Context.num

theorem TeamsLeft.of_frontOnly (h : FrontOnly s t) : TeamsLeft [] s t :=
  ⟨by simpa using congrArg State.teams h.world, by simpa using congrArg State.groups h.world, (congrArg State.iods h.world :), h.parts, h.ctxs⟩

theorem TeamsLeft.trans {js : List TeamKey} (h : TeamsLeft js s t) (h' : TeamsLeft ks t u) : TeamsLeft (js ++ ks) s u where
  teams := by
    rw [h'.teams, h.teams, List.filter_filter]
    exact List.filter_congr fun x _ => by simp [Bool.and_comm]
  groups := by
    rw [h'.groups, h.groups, List.filter_filter]
    exact List.filter_congr fun x _ => by simp [Bool.and_comm]
  iods := h'.iods.trans h.iods
  parts := h'.parts.trans h.parts
  ctxs n := (h'.ctxs n).trans (h.ctxs n)

theorem part_mapIdx (s : State) {f : Nat → Part → Part} (hf : ∀ n x, (f n x).ctxs = x.ctxs) (n : Nat) :
    (State.part { s with parts := s.parts.mapIdx f } n).ctxs = (s.part n).ctxs := by
  simp only [State.part, List.getD_eq_getElem?_getD, List.getElem?_mapIdx]
  cases s.parts[n]? with
  | none => rfl
  | some x => exact hf n x

theorem teamsLeft_dropTeam (s : State) (k : TeamKey) : TeamsLeft [k] s (s.dropTeam k) := by
  let c := ((s.part k.part).colls.filter fun o => o.group.team = k).foldl (fun s o => s.abortColl k.part o) s
  have hc : FrontOnly s (c.showLocked k) := (FrontOnly.foldl (fun s o => frontOnly_abortColl s k.part o) _ s).trans (.of_eq rfl rfl)
  refine (TeamsLeft.of_frontOnly hc).trans (u := s.dropTeam k) ⟨?_, ?_, rfl, List.length_mapIdx, fun n => congrArg (List.map Context.num) ?_⟩
  · exact List.filter_congr fun x _ => by simp
  · exact List.filter_congr fun x _ => by simp
  · exact part_mapIdx (c.showLocked k) (fun n x => by split <;> rfl) n

theorem teamsLeft_dropTeams (ks : List TeamKey) (s : State) : TeamsLeft ks s (ks.foldl State.dropTeam s) := by
  induction ks generalizing s with
  | nil => exact .of_frontOnly (.refl s)
  | cons k ks ih => exact (teamsLeft_dropTeam s k).trans (ih _)

theorem TeamsLeft.team? (h : TeamsLeft ks s t) (hk : k ∉ ks) : t.team? k = s.team? k := by
  rw [State.team?, h.teams, List.find?_filter]
  refine congrArg (fun f => s.teams.find? f) (funext fun x => ?_)
  by_cases hx : x.key = k
  · simp [hx, hk]
  · simp [hx]

end

/-! ## Counted errors (R76, R151, R226) -/

theorem retried (s : State) (link : Nat) : ∃ t, exec (.linkRetry link) s = .next t ∧ { t with dev := s.dev } = s ∧
    ∀ i : Nat, t.dev.retries[i]? = if i = link then s.dev.retries[i]?.map (· + 1) else s.dev.retries[i]? := by
  refine ⟨_, rfl, rfl, fun i => ?_⟩
  rw [List.getElem?_modify]
  by_cases hi : link = i
  · simp [hi]
  · simp [hi, Ne.symm hi]

theorem corrected (s : State) (d : Nat) : ∃ t, exec (.machineCheck (.corrected d)) s = .next t ∧ { t with dies := s.dies } = s ∧
    ∀ i : Nat, t.dies[i]? = if i = d then s.dies[i]?.map fun x => { x with ecc := x.ecc + 1 } else s.dies[i]? := by
  refine ⟨_, rfl, rfl, fun i => ?_⟩
  rw [show (s.setDie d { s.die d with ecc := (s.die d).ecc + 1 }).dies = s.dies.set d { s.die d with ecc := (s.die d).ecc + 1 } from rfl,
    List.getElem?_set']
  by_cases hi : d = i
  · subst hi
    rw [if_pos rfl, if_pos rfl, State.die, List.getD_eq_getElem?_getD]
    cases s.dies[d]? <;> rfl
  · rw [if_neg hi, if_neg (Ne.symm hi)]

theorem memoryUpset (s : State) (a : Nat) : ∃ t, exec (.machineCheck (.memory a)) s = .next t ∧
    { t with ram := { t.ram with poison := s.ram.poison } } = s ∧ ∀ w, w ∈ t.ram.poison ↔ w ∈ s.ram.poison ∨ w = a / 8 * 8 := by
  refine ⟨_, rfl, rfl, fun w => ?_⟩
  refine mem_foldl_addSorted.trans (Or.comm.trans (or_congr_right ?_))
  rw [mem_wordsOf]
  omega

theorem checked (s : State) (parts : List Nat) : ∃ t, exec (.machineCheck (.check parts)) s = .next t ∧ t.ram = s.ram ∧ t.coh = s.coh ∧
    t.teams = s.teams ∧ ∀ n ∈ parts, n < 16 → n < s.parts.length → Falls t n := by
  have heq : execMachineCheck (.check parts) s = .next (askResets (fun p => decide (p < 16)) s parts) := by
    simp only [execMachineCheck, askResets, decide_eq_true_eq]
  have ha := asksOnly_askResets (fun p => decide (p < 16)) parts s
  exact ⟨_, heq, ha.ram, ha.coh, ha.teams, fun n hn h16 hp => falls_askResets hp (decide_eq_true h16) hn⟩

/-! ## FATAL_RESET (R233, R234) -/

section
variable {s : State} {p : Nat}

/-- The windows of a partition, shut. -/
def shutWins (p : Nat) (d : Iod) : Iod := { d with wins := d.wins.map fun x => if x.part = p then ⟨false, 0, 0, 0, 0, 0, 0⟩ else x }

/-- The teams of a partition. -/
def keysOf (s : State) (p : Nat) : List TeamKey := (s.teams.filter fun t => t.key.part = p).map Team.key

theorem mem_keysOf {k : TeamKey} : k ∈ keysOf s p ↔ k.part = p ∧ (s.team? k).isSome = true := by
  simp only [keysOf, State.team?, List.mem_map, List.mem_filter, List.find?_isSome, decide_eq_true_eq]
  constructor
  · rintro ⟨x, ⟨hx, hp⟩, rfl⟩
    exact ⟨hp, x, hx, rfl⟩
  · rintro ⟨hp, x, hx, rfl⟩
    exact ⟨x, ⟨hx, hp⟩, rfl⟩

/-- The teams of the partition have left, with the copies of its gangs and the lines of its cores. -/
def vacated (s : State) (p : Nat) : State := (((keysOf s p).foldl State.dropTeam s).dropGangs p (s.part p).grids).dropLines p

theorem teamsLeft_vacated (s : State) (p : Nat) : TeamsLeft (keysOf s p) s (vacated s p) := by
  have hfront : FrontOnly ((keysOf s p).foldl State.dropTeam s) (vacated s p) := (frontOnly_dropGangs ..).trans (.of_eq rfl rfl)
  simpa using (teamsLeft_dropTeams (keysOf s p) s).trans (.of_frontOnly hfront)

theorem execFatalReset_eq (hat : (s.part p).resetAt.isSome = true) (hd : (s.part p).dropped = false) :
    exec (.fatalReset p) s = .next { (vacated s p).updPart p Part.emptied with iods := ((vacated s p).updPart p Part.emptied).iods.map (shutWins p) }.regrant := by
  show execFatalReset p s = _
  rw [execFatalReset, if_neg (by simp [hd, Option.isSome_iff_ne_none.mp hat])]
  rfl

theorem fatallyReset (hp : p < s.parts.length) (hat : (s.part p).resetAt.isSome = true) (hd : (s.part p).dropped = false) :
    ∃ t, exec (.fatalReset p) s = .next t ∧ (∀ x ∈ t.teams, x.key.part ≠ p) ∧ (∀ j, j.part = p → (s.team? j).isSome = true → ∀ g ∈ t.groups, g.key.team ≠ j) ∧
      (∀ k, k.part ≠ p → t.team? k = s.team? k) ∧ (t.part p).grids = [] ∧ (t.part p).armings = [] ∧ (t.part p).dropped = true ∧
      (∀ b ∈ (t.part p).booths, b.entries = [] ∧ b.waits = []) ∧ (t.part p).ctxs.map Context.num = (s.part p).ctxs.map Context.num ∧
      ∀ d ∈ t.iods, ∀ w ∈ d.wins, w.enable = true → w.part ≠ p := by
  refine ⟨_, execFatalReset_eq hat hd, ?_⟩
  have hleft := teamsLeft_vacated s p
  generalize vacated s p = v at hleft
  generalize hu : ({ v.updPart p Part.emptied with iods := (v.updPart p Part.emptied).iods.map (shutWins p) } : State) = u
  have hstate := regrant_state u
  have hteams : u.regrant.teams = v.teams := (congrArg State.teams hstate :).trans (congrArg State.teams hu.symm :)
  have hiods : u.regrant.iods = v.iods.map (shutWins p) := (congrArg State.iods hstate :).trans (congrArg State.iods hu.symm :)
  have hpart : u.regrant.part p = (v.part p).emptied :=
    ((congrArg (fun x : State => x.part p) hstate :).trans (congrArg (fun x : State => x.part p) hu.symm :)).trans
      (part_updPart v p _ (hleft.parts ▸ hp))
  have hgroups : ∀ g ∈ u.regrant.groups, ∃ x ∈ v.groups, g.key = x.key := by
    intro g hg
    obtain ⟨f, hf⟩ := regrant_groups u
    rw [hf] at hg
    obtain ⟨x, hx, rfl⟩ := List.mem_map.mp hg
    exact ⟨x, by rw [← hu] at hx; exact hx, rfl⟩
  rw [hteams, hiods, hpart]
  refine ⟨fun x hx hxp => ?_, fun j hj hjs g hg hgj => ?_, fun k hk => ?_, rfl, rfl, rfl, fun b hb => ?_, hleft.ctxs p, fun d hd w hw he => ?_⟩
  · rw [hleft.teams, List.mem_filter] at hx
    have hin : x.key ∈ keysOf s p := List.mem_map_of_mem (List.mem_filter.mpr ⟨hx.1, decide_eq_true hxp⟩)
    simp [hin] at hx
  · obtain ⟨x, hx, hkey⟩ := hgroups g hg
    rw [hleft.groups, List.mem_filter, ← hkey, hgj] at hx
    simp [mem_keysOf.mpr ⟨hj, hjs⟩] at hx
  · rw [State.team?, hteams]
    exact hleft.team? fun hin => hk (mem_keysOf.mp hin).1
  · obtain ⟨y, -, rfl⟩ := List.mem_map.mp hb
    exact ⟨rfl, rfl⟩
  · obtain ⟨y, -, rfl⟩ := List.mem_map.mp hd
    obtain ⟨z, -, rfl⟩ := List.mem_map.mp hw
    by_cases hz : z.part = p
    · simp [hz] at he
    · rwa [if_neg hz]

/-! ## PARTITION_READY (R233, R245) -/

/-- A RESET request has its answer. -/
def ResetAnswered (t : State) (src : MboxSource) : Prop := ∃ r ∈ t.dev.replies, r.src = src ∧ r.status = 0

/-- The RESET requests are answered. -/
def answerAll (t : State) (l : List (MboxSource × Dword)) : State := l.foldl (fun t m => t.answer m.1 m.2 0 []) t

theorem resetAnswered_answer (t : State) (src : MboxSource) (seq : Dword) : ResetAnswered (t.answer src seq 0 []) src :=
  ⟨⟨src, seq, 0, []⟩, List.mem_cons_self, rfl, rfl⟩

/-- An answer to another mailbox leaves an answer, and one to the same mailbox stands in its place. -/
theorem ResetAnswered.answer {t : State} {src : MboxSource} (h : ResetAnswered t src) (src' : MboxSource) (seq : Dword) : ResetAnswered (t.answer src' seq 0 []) src := by
  obtain ⟨r, hr, rfl, hstatus⟩ := h
  by_cases hsrc : r.src = src'
  · rw [hsrc]
    exact resetAnswered_answer ..
  · exact ⟨r, List.mem_cons_of_mem _ (List.mem_filter.mpr ⟨hr, decide_eq_true hsrc⟩), rfl, hstatus⟩

theorem ResetAnswered.answerAll {t : State} {src : MboxSource} (h : ResetAnswered t src) (l : List (MboxSource × Dword)) : ResetAnswered (answerAll t l) src := by
  induction l generalizing t with
  | nil => exact h
  | cons m l ih => exact ih (h.answer m.1 m.2)

theorem resetAnswered_answerAll {l : List (MboxSource × Dword)} {x : MboxSource × Dword} (hx : x ∈ l) (t : State) : ResetAnswered (answerAll t l) x.1 := by
  induction l generalizing t with
  | nil => cases hx
  | cons m l ih =>
    rcases List.mem_cons.mp hx with rfl | hx
    · exact (resetAnswered_answer t x.1 x.2).answerAll l
    · exact ih hx _

theorem answerAll_state (t : State) (l : List (MboxSource × Dword)) : { answerAll t l with dev := t.dev } = t := by
  induction l generalizing t with
  | nil => rfl
  | cons m l ih => exact (congrArg (fun x : State => { x with dev := t.dev }) (ih (t.answer m.1 m.2 0 [])) :)

theorem readied (hp : p < s.parts.length) (hd : (s.part p).dropped = true) (hc : s.dev.classC = false) :
    ∃ t, exec (.partitionReady p) s = .next t ∧ (t.part p).ready = true ∧ (t.part p).resetAt = none ∧ (t.part p).dropped = false ∧
      (∀ x ∈ (s.part p).resetMbox, ∃ r ∈ t.dev.replies, r.src = x.1 ∧ r.status = 0) ∧ t.ram = s.ram ∧ t.groups = s.groups := by
  let u := s.updPart p fun p => { p with ready := true, resetAt := none, dropped := false, resetMbox := [] }
  have heq : exec (.partitionReady p) s = .next (answerAll u (s.part p).resetMbox) := by
    show execPartitionReady p s = _
    rw [execPartitionReady, if_neg (by simp [hd, hc])]
    rfl
  have hstate := answerAll_state u (s.part p).resetMbox
  have hpart : (answerAll u (s.part p).resetMbox).part p = { s.part p with ready := true, resetAt := none, dropped := false, resetMbox := [] } :=
    (congrArg (fun x : State => x.part p) hstate :).trans (part_updPart s p _ hp)
  refine ⟨_, heq, ?_, ?_, ?_, fun x hx => resetAnswered_answerAll hx u, (congrArg State.ram hstate :), (congrArg State.groups hstate :)⟩
  · rw [hpart]
  · rw [hpart]
  · rw [hpart]

end

/-- Settles O47: each clause is the lemma of its event above. What asks for a reset does so partition by partition (`askResets`), and what FATAL_RESET
drops leaves with the teams of the partition (`TeamsLeft`). -/
theorem fatalResets : Obligations.FatalResets := by
  intro s p
  exact ⟨fun _ => linkFalls, retried s, corrected s, memoryUpset s, checked s, fun _ _ => vfResets, fatallyReset, readied⟩

end Sys2Proof.Claims
end

section
/-! PROOF. The windows of a VF, peers, streams and DMA (R77, R161, R188, R201, R236, R238, R240, R251, R252, Table 20-13). -/

namespace Sys2Proof.Claims

open Sys2Proof.Machine Sys2Proof.Laws

/-! ## Queues and vectors after a change -/

section
variable {s : State} {part n p m : Nat}

theorem queue_updQueue (hp : part < s.parts.length) (hn : n < (s.part part).queues.length) (f : DmaQueue → DmaQueue) :
    (s.updQueue part n f).queue part n = f (s.queue part n) := by
  rw [State.queue, State.updQueue, part_updPart _ _ _ hp]
  simp [State.queue, List.getD_eq_getElem?_getD, hn]

theorem length_queues_updQueue (f : DmaQueue → DmaQueue) : ((s.updQueue part n f).part p).queues.length = (s.part p).queues.length := by
  rw [State.updQueue, State.updPart, part_setPart]
  split
  · next h => simp [h.1]
  · rfl

theorem queue_updQueue_other (h : ¬(p = part ∧ m = n)) (f : DmaQueue → DmaQueue) : (s.updQueue part n f).queue p m = s.queue p m := by
  rw [State.queue, State.updQueue, State.updPart, part_setPart]
  split
  · next hp =>
    obtain ⟨rfl, -⟩ := hp
    have hm : n ≠ m := fun e => h ⟨rfl, e.symm⟩
    simp [State.queue, List.getD_eq_getElem?_getD, hm]
  · rfl

theorem vector_updVector (hp : part < s.parts.length) (hn : n < (s.part part).vectors.length) (f : Msix → Msix) :
    ((s.updPart part fun p => { p with vectors := p.vectors.modify n f }).part part).vectors.getD n Msix.reset =
      f ((s.part part).vectors.getD n Msix.reset) := by
  rw [part_updPart _ _ _ hp]
  simp [List.getD_eq_getElem?_getD, hn]

end

/-! ## Writes into the windows of a VF (R201, R238, R240, R251) -/

section
variable {s : State} {part n : Nat} (hp : part < s.parts.length) (hready : (s.part part).ready = true)

include hready in
theorem boothTakes (hdesc : (s.part part).described = true) (req : Nat) (data : List Byte) (hn : n < 64) (hlen : data.length = 64)
    (hhost : (s.booth part n).hostenq = true) (hvalid : (s.booth part n).valid = true) (hroom : (s.booth part n).full = false) :
    exec (.boothEnq part n req true data) s = .next (s.enqueue part n
      ⟨(List.range 8).map fun i => BitVec.ofNat 64 (fieldAt data (8 * i) 8), s.seenBy ((s.part part).port, req)⟩) := by
  show execBoothEnq part n req true data s = _
  rw [execBoothEnq, if_neg (Nat.not_le.mpr hn)]
  simp [State.enqWrite, hready, hdesc, hlen, hhost, hvalid, hroom]

include hp hready in
theorem queueTakes (hdesc : (s.part part).described = true) (req : Nat) (data : List Byte) (hn : n < 4) (hq : n < (s.part part).queues.length)
    (hlen : data.length = 64) (hvalid : (s.queue part n).valid = true) (hroom : (s.queue part n).full = false) :
    ∃ t, exec (.dmaDescriptorSubmit part n req true data) s = .next t ∧ { t with parts := s.parts } = s ∧
      t.queue part n = { s.queue part n with descs := (s.queue part n).descs ++ [(data, s.seenBy ((s.part part).port, req))] } := by
  refine ⟨s.updQueue part n fun q => { q with descs := q.descs ++ [(data, s.seenBy ((s.part part).port, req))] }, ?_, rfl, queue_updQueue hp hq _⟩
  show execDmaDescriptorSubmit part n req true data s = _
  rw [execDmaDescriptorSubmit, if_neg (Nat.not_le.mpr hn)]
  simp [State.descWrite, hready, hdesc, hlen, hvalid, hroom]

theorem due_eq_false {m : Msix} (h : m.pend = 0) (now : Nat) : m.due now = false := by simp [Msix.due, h]

theorem due_of_timer {m : Msix} {now : Nat} (hmask : m.masked = false) (hpend : 0 < m.pend) (hdue : m.oldest + 1000 * m.timer ≤ now) :
    m.due now = true := by
  simp [Msix.due, hmask, hpend, hdue]

include hp hready in
/-- A vector with no event waiting sends nothing when its control is written. -/
theorem vectorControlled (hdesc : (s.part part).described = true) (val : Dword) (hn : n < (s.part part).vectors.length)
    (hpend : ((s.part part).vectors.getD n Msix.reset).pend = 0) :
    ∃ t, exec (.coalescingControlWrite part n val) s = .next t ∧ { t with parts := s.parts } = s ∧
      (t.part part).vectors.getD n Msix.reset = { (s.part part).vectors.getD n Msix.reset with
        count := if val.toNat % 256 = 0 then 1 else val.toNat % 256
        timer := if val.toNat / 256 % 256 = 0 then 1 else val.toNat / 256 % 256 } := by
  let up := fun (m : Msix) => { m with count := atLeast1 (bitsOf val.toNat 7 0), timer := atLeast1 (bitsOf val.toNat 15 8) }
  have hvec := vector_updVector hp hn up
  refine ⟨s.updPart part fun p => { p with vectors := p.vectors.modify n up }, ?_, rfl, ?_⟩
  · show execCoalescingControlWrite part n val s = _
    simp only [execCoalescingControlWrite, hready, hdesc, Bool.not_true, Bool.false_eq_true, if_false]
    refine congrArg Host.Outcome.next (if_neg ?_)
    rw [hvec]
    exact ne_true_of_eq_false (due_eq_false (m := up _) hpend _)
  · rw [hvec]
    simp only [up, atLeast1, bitsOf, Nat.shiftRight_eq_div_pow]
    norm_num

include hp in
theorem timerSends (v : Msix) (hn : n < (s.part part).vectors.length) (hv : (s.part part).vectors.getD n Msix.reset = v) (hmask : v.masked = false)
    (hpend : 0 < v.pend) (hdue : v.oldest + 1000 * v.timer ≤ s.now) :
    ∃ t, exec (.msixTimerExpiry part n) s = .next t ∧ t.dev.out = .msix part n :: s.dev.out ∧
      (t.part part).vectors.getD n Msix.reset = { v with pend := 0 } ∧ t.ram = s.ram ∧ t.groups = s.groups := by
  refine ⟨s.deliverVec part n, ?_, rfl, ?_, rfl, rfl⟩
  · show Host.Outcome.next (s.tryVec part n) = _
    rw [State.tryVec, hv, if_pos (due_of_timer hmask hpend hdue)]
  · rw [← hv]
    exact vector_updVector hp hn fun m => { m with pend := 0 }

include hp hready in
/-- The offset of STATUS of a booth's window (Table 20-2). -/
theorem statusCleared (x : Byte) (a : VfAccess) (hn : n < 64) (hb : n < (s.part part).booths.length) (hbound : s.bound a.port a.vf = some part) :
    ∃ t, exec (.registerWrite a (4096 * n + 0x48) [x]) s = .next t ∧ { t with parts := s.parts } = s ∧
      t.booth part n = { s.booth part n with
        size := (s.booth part n).size && !x.getLsbD 1
        ovf := (s.booth part n).ovf && !x.getLsbD 0 } := by
  refine ⟨s.updBooth part n fun b => { b with size := b.size && !x.getLsbD 1, ovf := b.ovf && !x.getLsbD 0 }, ?_, rfl, booth_updBooth hp hb _⟩
  have hmod : (4096 * n + 0x48) % 4096 = 0x48 := by omega
  have hdiv : (4096 * n + 0x48) / 4096 = n := by omega
  have hwindow : 4096 * n + 0x48 < 0x40000 := by omega
  show execRegisterWrite a (4096 * n + 0x48) [x] s = _
  rw [execRegisterWrite, hbound]
  dsimp only
  rw [State.vfWrite, hmod, hdiv]
  simp only [hready, hwindow]
  simp

end

/-! ## Bytes that an I/O die puts (R157, R411) -/

section
variable {s : State}

theorem bypass_state (s : State) (l : Nat) : { s.bypass l with coh := s.coh } = s := by
  unfold State.bypass
  split <;> rfl

theorem foldl_bypass_state (l : List Nat) (s : State) : { l.foldl State.bypass s with coh := s.coh } = s := by
  induction l generalizing s with
  | nil => rfl
  | cons x l ih => exact (congrArg (fun u : State => { u with coh := s.coh }) (ih (s.bypass x)) :).trans (bypass_state s x)

theorem ioPut_state (s : State) (a : Nat) (d : List Byte) (k : StoreKind) : { s.ioPut a d k with coh := s.coh } = { s with ram := s.ram.write a d k } :=
  foldl_bypass_state (linesOf a d.length) { s with ram := s.ram.write a d k }

theorem ioPut_parts (a : Nat) (d : List Byte) (k : StoreKind) : (s.ioPut a d k).parts = s.parts := (congrArg State.parts (ioPut_state s a d k) :)
theorem ioPut_groups (a : Nat) (d : List Byte) (k : StoreKind) : (s.ioPut a d k).groups = s.groups := (congrArg State.groups (ioPut_state s a d k) :)
theorem ioPut_teams (a : Nat) (d : List Byte) (k : StoreKind) : (s.ioPut a d k).teams = s.teams := (congrArg State.teams (ioPut_state s a d k) :)

theorem get_ioPut (hm : s.ram.mem.wf = true) (a : Nat) (d : List Byte) (k : StoreKind) (x : Nat) :
    (s.ioPut a d k).ram.mem.get x = if a ≤ x ∧ x < a + d.length then d.getD (x - a) 0 else s.ram.mem.get x := by
  rw [show (s.ioPut a d k).ram = s.ram.write a d k from (congrArg State.ram (ioPut_state s a d k) :), write_mem, get_putN hm]

end

/-! ## PEER_ACCESS (R161, R236) -/

section
variable {s : State} {w : PeerReq} {part : Nat} (hready : (s.part part).ready = true) (hold : s.holder w.addr = some part)

include hready hold in
theorem peerWrites (hm : s.ram.mem.wf = true) (hk : w.kind = .write) (hd : w.data ≠ []) (hok : s.peerRefused w.addr w.data.length = false)
    (hb : ioBusy s [⟨w.addr, w.data.length, 0⟩] = false) :
    ∃ t, exec (.peerAccess w) s = .next t ∧ t.groups = s.groups ∧ t.teams = s.teams ∧ t.parts = s.parts ∧
      ∀ a, t.ram.mem.get a = if w.addr ≤ a ∧ a < w.addr + w.data.length then w.data.getD (a - w.addr) 0 else s.ram.mem.get a := by
  let t := s.ioPut w.addr w.data plainStore
  refine ⟨t.noteSeen (w.iod, w.req) (physView t w.addr w.data.length), ?_, ioPut_groups .., ioPut_teams .., ioPut_parts .., fun a => get_ioPut hm _ _ _ a⟩
  show execPeerAccess w s = _
  simp [execPeerAccess, PeerReq.moves, PeerReq.cxl, hk, hd, hok, hold, hready, hb, t]

theorem peerAtomic (hk : w.kind = .atomic) : exec (.peerAccess w) s = .next (s.emit (.peerReply w.req false [])) := if_pos (.inl hk)

include hready hold in
/-- A read answers with the bytes as they stand, a CXL one once the host holds its lines. -/
theorem peerReads (hk : w.kind = .read ∨ w.kind = .cxlRead) (hlen : 0 < w.len) (hok : s.peerRefused w.addr w.len = false)
    (hclean : s.ram.tainted w.addr w.len = false) (hb : w.kind = .read → ioBusy s [⟨w.addr, w.len, 0⟩] = false)
    (hcxl : w.kind = .cxlRead → (s.iod w.iod).proto = some .cxl ∧ ∀ l ∈ linesOf w.addr w.len, s.coh.holds (hostCore w.iod) l = true) :
    exec (.peerAccess w) s = .next (s.emit (.peerReply w.req true (s.ram.mem.getN w.addr w.len))) := by
  have hne : w.len ≠ 0 := Nat.pos_iff_ne_zero.mp hlen
  show execPeerAccess w s = _
  rcases hk with hk | hk
  · simp [execPeerAccess, PeerReq.moves, PeerReq.cxl, hk, hne, hok, hold, hready, hb hk, hclean]
  · obtain ⟨hproto, hlines⟩ := hcxl hk
    have hmoves : w.moves = false := by simp [PeerReq.moves, hk]
    have hserve : hostAccess w w.len s = .next (s.emit (.peerReply w.req true (s.ram.mem.getN w.addr w.len))) := by
      simp only [hostAccess, hmoves, Bool.false_eq_true, if_false, List.all_eq_true.mpr hlines, Bool.not_true, hclean]
    simp [execPeerAccess, hmoves, PeerReq.cxl, hk, hne, hok, hold, hready, hproto, hserve]

end

/-! ## Stream windows (R77, R188; log 36) -/

section
variable {s : State} {part : Nat}

theorem flatMap_data_filter (l : List Posted) : (l.filter fun y => !y.data.isEmpty).flatMap Posted.data = l.flatMap Posted.data := by
  induction l with
  | nil => rfl
  | cons y l ih =>
    cases hy : y.data with
    | nil => simp [hy, ih]
    | cons b d => simp [hy, ih]

/-- Where a stream write leaves the data range. -/
def flagFrom (x : StreamWin) (w : PeerReq) : Nat :=
  if x.flag ≤ w.addr ∧ w.addr < x.flag + 4096 then 0
  else if w.addr < x.flag ∧ x.flag < w.addr + w.data.length then x.flag - w.addr else w.data.length

theorem split_eq (x : StreamWin) (w : PeerReq) (now i : Nat) :
    x.split w now i = [(⟨now, (w.iod, w.req), streamKey w.iod i w, w.addr, w.data.take (flagFrom x w), false⟩ : Posted),
      ⟨now, (w.iod, w.req), streamKey w.iod i w, w.addr + flagFrom x w, w.data.drop (flagFrom x w), true⟩].filter fun y => !y.data.isEmpty := by
  simp only [StreamWin.split, flagFrom, Bool.and_eq_true, decide_eq_true_eq]

/-- What goes to the flag range starts where the write does, or at the first byte of that range. -/
theorem flagFrom_spec (x : StreamWin) (w : PeerReq) (h : w.data.drop (flagFrom x w) ≠ []) :
    (w.addr + flagFrom x w = w.addr ∨ w.addr + flagFrom x w = x.flag) ∧ x.flag ≤ w.addr + flagFrom x w ∧
      w.addr + flagFrom x w < x.flag + 4096 := by
  have hlen : flagFrom x w < w.data.length := by simpa using h
  by_cases hin : x.flag ≤ w.addr ∧ w.addr < x.flag + 4096
  · rw [show flagFrom x w = 0 from if_pos hin]
    omega
  · by_cases hcross : w.addr < x.flag ∧ x.flag < w.addr + w.data.length
    · rw [show flagFrom x w = x.flag - w.addr from (if_neg hin).trans (if_pos hcross)]
      omega
    · rw [show flagFrom x w = w.data.length from (if_neg hin).trans (if_neg hcross)] at hlen
      omega

theorem mem_split {x : StreamWin} {w : PeerReq} {now i : Nat} {y : Posted} (h : y ∈ x.split w now i) :
    (y.at_ = now ∧ y.who = (w.iod, w.req) ∧ y.data ≠ []) ∧ (y.addr = w.addr ∨ (y.addr = x.flag ∧ y.flag = true)) ∧
      (y.flag = true → x.flag ≤ y.addr ∧ y.addr < x.flag + 4096) := by
  rw [split_eq, List.mem_filter] at h
  obtain ⟨hy, hd⟩ := h
  replace hd : y.data ≠ [] := by simpa using hd
  simp only [List.mem_cons, List.not_mem_nil, or_false] at hy
  rcases hy with rfl | rfl
  · exact ⟨⟨rfl, rfl, hd⟩, .inl rfl, fun h => nomatch h⟩
  · obtain ⟨hstart, hrange⟩ := flagFrom_spec x w hd
    exact ⟨⟨rfl, rfl, hd⟩, hstart.imp_right fun h => ⟨h, rfl⟩, fun _ => hrange⟩

theorem streamStages (hp : part < s.parts.length) (hready : (s.part part).ready = true) (w : PeerReq) (i : Nat) (x : StreamWin)
    (hwin : s.window? w = some (i, x)) (hx : x.part = part) (hw : w.write = true) (hd : w.data ≠ [])
    (hpub : ∀ l ∈ linesOf w.addr w.data.length, s.privLine l = false) :
    ∃ t ps, exec (.streamWrite w) s = .next t ∧ { t with parts := s.parts } = s ∧ (t.part part).posted = (s.part part).posted ++ ps ∧
      ps.flatMap Posted.data = w.data ∧ (∀ y ∈ ps, y.at_ = s.now ∧ y.who = (w.iod, w.req) ∧ y.data ≠ []) ∧
      (∀ y ∈ ps, y.addr = w.addr ∨ (y.addr = x.flag ∧ y.flag = true)) ∧
      ∀ y ∈ ps, y.flag = true → x.flag ≤ y.addr ∧ y.addr < x.flag + 4096 := by
  subst hx
  have heq : exec (.streamWrite w) s = .next (s.updPart x.part fun p => { p with posted := p.posted ++ x.split w s.now i }) := by
    show execStreamWrite w s = _
    simp only [execStreamWrite, hwin]
    rw [if_neg (by simp [hw, hd]), if_neg (by simp [hready]), if_neg (by simpa using hpub)]
  refine ⟨_, x.split w s.now i, heq, rfl, congrArg Part.posted (part_updPart s x.part _ hp), ?_, fun y hy => (mem_split hy).1,
    fun y hy => (mem_split hy).2.1, fun y hy => (mem_split hy).2.2⟩
  rw [split_eq, flatMap_data_filter]
  simp

theorem posted_evict (s : State) (part ctx p : Nat) : ((s.evict part ctx).part p).posted = (s.part p).posted := by
  rw [State.evict, State.updPart, part_setPart]
  split
  · next h =>
    rw [h.1]
  · rfl

theorem posted_checkAt (s : State) (e : Checker) (p : Nat) : ((s.checkAt e).part p).posted = (s.part p).posted := by
  unfold State.checkAt
  dsimp only
  split
  · exact posted_evict ..
  · rfl

theorem posted_ioChecked (s : State) (who : Releaser) (part ctx a p : Nat) : ((s.ioChecked who part ctx a).part p).posted = (s.part p).posted := by
  unfold State.ioChecked
  split
  · exact posted_checkAt ..
  · rfl

theorem homesOnly_ioChecked (s : State) (who : Releaser) (part ctx a : Nat) : HomesOnly s (s.ioChecked who part ctx a) :=
  .ite (homesOnly_checkAt ..) (.refl s)

/-- A staged stream write that becomes visible writes its bytes, and notes what it has made visible. -/
theorem streamPut_eq (s : State) (part : Nat) (x : Posted) : ∃ k u d, HomesOnly (s.ioPut x.addr x.data k) u ∧ s.streamPut part x = { u with dev := d } ∧
    (u.part part).posted = (s.part part).posted := by
  unfold State.streamPut
  cases x.flag with
  | false => exact ⟨_, _, _, .refl _, rfl, congrArg (fun l : List Part => (l.getD part Part.reset).posted) (ioPut_parts ..)⟩
  | true => exact ⟨_, _, _, homesOnly_ioChecked .., rfl, (posted_ioChecked ..).trans
      (congrArg (fun l : List Part => (l.getD part Part.reset).posted) (ioPut_parts ..))⟩

theorem streamReleases (hp : part < s.parts.length) (y : Posted) (r : List Posted) (hy : (s.part part).posted = y :: r) (hat : y.at_ + 48 ≤ s.now)
    (hb : ioBusy s [⟨y.addr, y.data.length, 0⟩] = false) (hm : s.ram.mem.wf = true) :
    ∃ t, exec (.dmaChunkRelease part 4) s = .next t ∧ t.groups = s.groups ∧ t.teams = s.teams ∧ (t.part part).posted = r ∧
      ∀ a, t.ram.mem.get a = if y.addr ≤ a ∧ a < y.addr + y.data.length then y.data.getD (a - y.addr) 0 else s.ram.mem.get a := by
  let v := s.updPart part fun p => { p with posted := r }
  obtain ⟨k, u, d, hu, heq, hposted⟩ := streamPut_eq v part y
  have hwait : ¬((decide (s.now < y.at_ + Config.window) || ioBusy s [⟨y.addr, y.data.length, 0⟩]) = true) := by
    rw [hb, Bool.or_false, decide_eq_true_eq]
    exact Nat.not_lt.mpr hat
  have hexec : exec (.dmaChunkRelease part 4) s = .next (v.streamPut part y) := by
    show execDmaChunkRelease part 4 s = _
    rw [execDmaChunkRelease, if_pos (show 4 = streamQueue from rfl), State.streamRelease, hy]
    exact congrArg Host.Outcome.next (if_neg hwait)
  rw [heq] at hexec
  refine ⟨_, hexec, hu.groups.trans (ioPut_groups ..), hu.teams.trans (ioPut_teams ..),
    hposted.trans (congrArg Part.posted (part_updPart s part _ hp)), fun a => ?_⟩
  show u.ram.mem.get a = _
  rw [hu.ram]
  exact get_ioPut (s := v) hm ..

end

/-! ## What the chunk of a transfer lies in (R20, R136, R161, R252) -/

section
variable {s t u : State} {part : Nat}

/-- Nothing is other than before but partitions, free values and device-wide records, and a partition has kept all but what its DMA queues and its
staged stream writes are. -/
structure QueuesOnly (part : Nat) (s t : State) : Prop where
  world : { t with parts := s.parts, fresh := s.fresh, dev := s.dev } = s
  count : t.parts.length = s.parts.length
  side  : { t.part part with queues := (s.part part).queues, posted := (s.part part).posted } = s.part part

theorem QueuesOnly.refl (s : State) : QueuesOnly part s s := ⟨rfl, rfl, rfl⟩

theorem QueuesOnly.trans (h : QueuesOnly part s t) (h' : QueuesOnly part t u) : QueuesOnly part s u where
  world := (congrArg (fun x : State => { x with parts := s.parts, fresh := s.fresh, dev := s.dev }) h'.world :).trans h.world
  count := h'.count.trans h.count
  side  := (congrArg (fun x : Part => { x with queues := (s.part part).queues, posted := (s.part part).posted }) h'.side :).trans h.side

theorem QueuesOnly.of_parts (h : { t with fresh := s.fresh, dev := s.dev } = s) : QueuesOnly part s t where
  world := (congrArg (fun x : State => { x with parts := s.parts }) h :)
  count := (congrArg (fun x : State => x.parts.length) h :)
  side  := (congrArg (fun x : State => { x.part part with queues := (s.part part).queues, posted := (s.part part).posted }) h :)

theorem queuesOnly_updQueue (s : State) (p n : Nat) (f : DmaQueue → DmaQueue) : QueuesOnly part s (s.updQueue p n f) := by
  refine ⟨rfl, length_setPart .., ?_⟩
  rw [State.updQueue, State.updPart, part_setPart]
  split
  · next h => rw [h.1]
  · rfl

namespace QueuesOnly

theorem ram (h : QueuesOnly part s t) : t.ram = s.ram := (congrArg State.ram h.world :)
theorem coh (h : QueuesOnly part s t) : t.coh = s.coh := (congrArg State.coh h.world :)
theorem iods (h : QueuesOnly part s t) : t.iods = s.iods := (congrArg State.iods h.world :)
theorem now (h : QueuesOnly part s t) : t.now = s.now := (congrArg State.now h.world :)
theorem groups (h : QueuesOnly part s t) : t.groups = s.groups := (congrArg State.groups h.world :)
theorem port (h : QueuesOnly part s t) : (t.part part).port = (s.part part).port := (congrArg Part.port h.side :)

theorem judged (h : QueuesOnly part s t) (k : Access) (va : Nat) (w : WalkRes) : judged t part k va w = judged s part k va w := by
  cases w with
  | absent => rfl
  | malformed => rfl
  | leaf e base size =>
    have howns : ownsPage (t.parts.getD part Part.reset) e size = ownsPage (s.parts.getD part Part.reset) e size :=
      (congrArg (fun p => ownsPage p e size) h.side :)
    have hkey : keyOk (t.parts.getD part Part.reset) e = keyOk (s.parts.getD part Part.reset) e := (congrArg (fun p => keyOk p e) h.side :)
    have hcxl : cxlPort t part = cxlPort s part := by
      show ((t.iods.getD (t.part part).port _).proto == _) = ((s.iods.getD (s.part part).port _).proto == _)
      rw [h.iods, h.port]
    simp only [Machine.judged, howns, hkey, hcxl]

theorem ioProbe (h : QueuesOnly part s t) (ctx : Nat) (k : Access) (va : Nat) : ioProbe t part ctx k va = ioProbe s part ctx k va := by
  have hctx : (t.part part).ctx? ctx = (s.part part).ctx? ctx := (congrArg (fun p => Part.ctx? p ctx) h.side :)
  simp only [Machine.ioProbe, hctx, probe, lookup, tlbHit, h.judged, h.coh, h.ram]

theorem escapes (h : QueuesOnly part s t) (ctx : Nat) (p : Phys) : escapes t part ctx none p = escapes s part ctx none p := by
  simp only [Machine.escapes, h.coh]
  rfl

theorem ioRuns (h : QueuesOnly part s t) (ctx : Nat) (k : Access) (a n : Nat) : ioRuns t part ctx k a n = ioRuns s part ctx k a n := by
  simp only [Machine.ioRuns, h.ioProbe, h.escapes]

theorem chunkRuns (h : QueuesOnly part s t) (x : Xfer) : chunkRuns t part x = chunkRuns s part x := by
  simp only [Machine.chunkRuns, dmaRuns, h.ioRuns]

theorem ioBusy (h : QueuesOnly part s t) (l : List IoRun) : ioBusy t l = ioBusy s l := (congrArg (fun u => Machine.ioBusy u l) h.world :)
theorem ioBytes (h : QueuesOnly part s t) (l : List IoRun) : ioBytes t l = ioBytes s l := (congrArg (fun u => Machine.ioBytes u l) h.world :)
theorem ioPoison (h : QueuesOnly part s t) (l : List IoRun) : ioPoison t l = ioPoison s l := (congrArg (fun u => Machine.ioPoison u l) h.world :)
theorem ioSeen (h : QueuesOnly part s t) (l : List IoRun) : ioSeen t l = ioSeen s l := (congrArg (fun u => Machine.ioSeen u l) h.world :)

end QueuesOnly

end

/-! ## Staging a chunk (R77, R252) -/

section
variable {s t : State} {part n : Nat} {x : Xfer} {a b : List IoRun}

/-- A transfer with its chunk staged from some runs. -/
def stagedFrom (s : State) (x : Xfer) (a : List IoRun) : Xfer :=
  { x with chunk := ioBytes s a, pois := ioPoison s a, at_ := s.now, view := View.join x.view (ioSeen s a) }

/-- The host has answered the read of a transfer with an error completion. -/
def HostErred (x : Xfer) (y : Xfer) : Prop := (parseDma x.desc).dir = 0 ∧ y = { x with chunk := [], ended := true, status := 1 }

theorem stagedFrom_congr (h : QueuesOnly part s t) : stagedFrom t x a = stagedFrom s x a := by
  simp only [stagedFrom, h.ioBytes, h.ioPoison, h.now, h.ioSeen]

theorem stageChunk_over (h : (parseDma x.desc).len ≤ x.moved) : s.stageChunk part x = (s, { x with chunk := [], ended := true }) := by
  rw [State.stageChunk]
  exact if_pos h

theorem stageChunk_eq (hlen : x.moved < (parseDma x.desc).len) (hr : chunkRuns s part x = some (a, b)) (hb : ioBusy s a = false) :
    ∃ k y, s.stageChunk part x = ({ s with fresh := k }, y) ∧ (y = stagedFrom s x a ∨ HostErred x y) := by
  unfold State.stageChunk
  rw [if_neg (Nat.not_le.mpr hlen), if_neg (by simp [hr, hb])]
  split
  · next herr => exact ⟨_, _, rfl, .inr ⟨beq_iff_eq.mp (Bool.and_eq_true_iff.mp herr).1, rfl⟩⟩
  · by_cases hdir : (parseDma x.desc).dir == 0
    · simp only [hdir, if_true, show Machine.chunkRuns { s with fresh := s.fresh + 1 } part x = some (a, b) from hr]
      exact ⟨_, _, rfl, .inl rfl⟩
    · simp only [hdir, Bool.false_eq_true, if_false, hr]
      exact ⟨_, _, rfl, .inl rfl⟩

theorem logged_state (o : Option Nat) (h : { t with fresh := s.fresh, dev := s.dev } = s) :
    { (o.map fun a => t.logAt 4 part a).getD t with fresh := s.fresh, dev := s.dev } = s := by
  cases o <;> exact h

theorem stageChunk_state (s : State) (part : Nat) (x : Xfer) : { (s.stageChunk part x).1 with fresh := s.fresh, dev := s.dev } = s := by
  have hdrawn : ∀ c : Bool, ({ (if c then { s with fresh := s.fresh + 1 } else s : State) with fresh := s.fresh, dev := s.dev } : State) = s := by
    intro c
    cases c <;> rfl
  unfold State.stageChunk
  dsimp only
  split
  · rfl
  · split
    · rfl
    · split
      · rfl
      · split
        · exact logged_state _ (hdrawn _)
        · exact hdrawn _

theorem queuesOnly_stageChunk (s : State) (p part : Nat) (x : Xfer) : QueuesOnly p s (s.stageChunk part x).1 :=
  .of_parts (stageChunk_state s part x)

theorem stageChunk_queue (s : State) (part : Nat) (x : Xfer) (p m : Nat) : (s.stageChunk part x).1.queue p m = s.queue p m :=
  (congrArg (fun u : State => u.queue p m) (stageChunk_state s part x) :)

end

/-! ## DMA_TRANSFER_START, DMA_CHUNK_RELEASE, DMA_COMPLETE (R77, R251, R252) -/

section
variable {s : State} {part n : Nat} (hp : part < s.parts.length) (hn : n < (s.part part).queues.length)

include hp hn in
theorem transferStarts {d : List Byte} {v : View} {r : List (List Byte × View)} {a b : List IoRun} (hcur : (s.queue part n).cur = none)
    (hdescs : (s.queue part n).descs = (d, v) :: r) (hok : (parseDma d).bad = false)
    (hr : chunkRuns s part ⟨d, (s.queue part n).ctx, 0, [], 0, s.now, false, false, v⟩ = some (a, b)) (hb : ioBusy s a = false) :
    ∃ t y, exec (.dmaTransferStart part n) s = .next t ∧ { t with parts := s.parts, fresh := s.fresh } = s ∧ (t.queue part n).descs = r ∧
      (t.queue part n).cur = some y ∧ (y = stagedFrom s ⟨d, (s.queue part n).ctx, 0, [], 0, s.now, false, false, v⟩ a ∨
        HostErred ⟨d, (s.queue part n).ctx, 0, [], 0, s.now, false, false, v⟩ y) := by
  generalize hx : (⟨d, (s.queue part n).ctx, 0, [], 0, s.now, false, false, v⟩ : Xfer) = x at hr
  let u := s.updQueue part n fun q => { q with descs := r }
  have hu : QueuesOnly part s u := queuesOnly_updQueue ..
  have hlen : x.moved < (parseDma x.desc).len := by
    rw [← hx]
    refine Nat.pos_iff_ne_zero.mpr fun h0 => ?_
    simp [DmaDesc.bad, h0] at hok
  obtain ⟨k, y, hstage, hy⟩ := stageChunk_eq hlen ((hu.chunkRuns x).trans hr) ((hu.ioBusy a).trans hb)
  have heq : exec (.dmaTransferStart part n) s = .next (({ u with fresh := k } : State).setXfer part n (some y)) := by
    show execDmaTransferStart part n s = _
    simp only [execDmaTransferStart, hcur, hdescs, hok, hx]
    rw [show State.stageChunk (s.updQueue part n _) part x = _ from hstage]
    rfl
  have hqueues : n < (({ u with fresh := k } : State).part part).queues.length := (length_queues_updQueue (s := s) _).symm ▸ hn
  have hq := queue_updQueue (s := { u with fresh := k }) (hu.count.symm ▸ hp) hqueues fun q => { q with cur := some y }
  rw [stagedFrom_congr hu] at hy
  refine ⟨_, y, heq, rfl, ?_, ?_, hy⟩
  · rw [State.setXfer, hq]
    exact congrArg DmaQueue.descs (queue_updQueue hp hn fun q => { q with descs := r })
  · rw [State.setXfer, hq]

theorem ioKey_state (s : State) (y : IoRun) : { s.ioKey y with coh := s.coh } = s := by
  unfold State.ioKey
  split <;> rfl

/-- A whole chunk goes to one run. -/
theorem putChunk_one (s : State) {x : Xfer} {y : IoRun} (hpois : x.pois = false) (hlen : x.chunk.length = y.n) :
    ∃ t v, s.putChunk x [y] = (t, { x with moved := x.moved + x.chunk.length, view := v }) ∧
      { t with coh := s.coh } = { s with ram := s.ram.write y.addr x.chunk engineStore } := by
  let t := (s.ioKey y).ioPut y.addr (x.chunk.take y.n) engineStore
  refine ⟨t, View.join x.view (ioView t [y]), ?_, ?_⟩
  · simp only [State.putChunk, hpois, Bool.false_eq_true, if_false, State.ioPutRuns, t]
  · simp only [t]
    rw [← hlen, List.take_length]
    have hput := ioPut_state (s.ioKey y) y.addr x.chunk engineStore
    have hkey := ioKey_state s y
    have hram : (s.ioKey y).ram = s.ram := (congrArg State.ram hkey :)
    rw [hram] at hput
    exact ((congrArg (fun u : State => { u with coh := s.coh }) hput :).trans
      (congrArg (fun u : State => { u with ram := s.ram.write y.addr x.chunk engineStore }) hkey :))

include hp hn in
/-- A chunk that runs to the end of its transfer. -/
theorem lastChunkReleases {x : Xfer} {a : List IoRun} {y : IoRun} (hn4 : n < 4) (hcur : (s.queue part n).cur = some x) (hend : x.ended = false)
    (hat : x.at_ + 48 ≤ s.now) (hr : chunkRuns s part x = some (a, [y])) (ha : ioBusy s a = false) (hb : ioBusy s [y] = false) (hpois : x.pois = false)
    (hlast : (parseDma x.desc).len ≤ x.moved + x.chunk.length) (hlen : x.chunk.length = y.n) (hm : s.ram.mem.wf = true) :
    ∃ t z, exec (.dmaChunkRelease part n) s = .next t ∧ t.groups = s.groups ∧ t.teams = s.teams ∧
      (∀ p, t.ram.mem.get p = if y.addr ≤ p ∧ p < y.addr + y.n then x.chunk.getD (p - y.addr) 0 else s.ram.mem.get p) ∧
      (t.queue part n).cur = some z ∧ z.ended = true ∧ z.moved = x.moved + x.chunk.length ∧ z.status = x.status := by
  have hover : ¬(x.ended = true ∨ s.now < x.at_ + Config.window ∧ x.chunk ≠ []) := by
    rw [hend]
    exact fun h => h.elim Bool.false_ne_true fun h => Nat.not_lt.mpr hat h.1
  have hexec : exec (.dmaChunkRelease part n) s = execDmaChunkRelease part n s := rfl
  rw [hexec, execDmaChunkRelease, if_neg (show n ≠ streamQueue from Nat.ne_of_lt hn4), hcur]
  dsimp only
  rw [if_neg hover]
  by_cases hempty : x.chunk = []
  · rw [if_pos hempty, stageChunk_over (by simpa [hempty] using hlast)]
    refine ⟨_, { x with chunk := [], ended := true }, rfl, rfl, rfl, fun p => ?_, congrArg DmaQueue.cur (queue_updQueue hp hn _), rfl, by simp [hempty], rfl⟩
    rw [if_neg (by simp [← hlen, hempty])]
    rfl
  · obtain ⟨t, v, hput, ht⟩ := putChunk_one s hpois hlen
    have hparts : t.parts = s.parts := (congrArg State.parts ht :)
    have hpart : t.part part = s.part part := congrArg (fun l : List Part => l.getD part Part.reset) hparts
    rw [if_neg hempty, hr]
    simp only [ha, hb, Bool.or_false, Bool.false_eq_true, if_false, hput, hend]
    rw [stageChunk_over hlast]
    refine ⟨_, { x with moved := x.moved + x.chunk.length, view := v, chunk := [], ended := true }, rfl, (congrArg State.groups ht :),
      (congrArg State.teams ht :), fun p => ?_, congrArg DmaQueue.cur (queue_updQueue (hparts ▸ hp) (hpart ▸ hn) _), rfl, rfl, rfl⟩
    show t.ram.mem.get p = _
    rw [show t.ram = s.ram.write y.addr x.chunk engineStore from (congrArg State.ram ht :), write_mem, get_putN hm, hlen]

include hp hn in
theorem transferCompletes {x : Xfer} (hcur : (s.queue part n).cur = some x) (hend : x.ended = true) (hst : (parseDma x.desc).doSt = false)
    (hcnt : (parseDma x.desc).doCnt = false) (hirq : (parseDma x.desc).doIrq = false) :
    ∃ t, exec (.dmaComplete part n) s = .next t ∧ { t with parts := s.parts } = s ∧ t.queue part n = { s.queue part n with cur := none } := by
  refine ⟨s.setXfer part n none, ?_, rfl, queue_updQueue hp hn _⟩
  show execDmaComplete part n s = _
  simp [execDmaComplete, hcur, hend, hst, hcnt, hirq, State.completed]

end

/-! ## IOD_SENSOR_EVENT (R77) -/

section
variable {s t : State} {part n p q : Nat} {x : Xfer} {a b : List IoRun}

/-- In a run over a list without repetitions, what holds before the turn of one element, and what its turn makes hold, after it. -/
theorem foldl_turn {σ α : Type} {f : σ → α → σ} {B A : σ → Prop} {x : α} (hbefore : ∀ s y, y ≠ x → B s → B (f s y))
    (hturn : ∀ s, B s → A (f s x)) (hafter : ∀ s y, y ≠ x → A s → A (f s y)) {l : List α} (hl : l.Nodup) (hx : x ∈ l) {s : σ} (hs : B s) :
    A (l.foldl f s) := by
  induction l generalizing s with
  | nil => cases hx
  | cons y l ih =>
    obtain ⟨hy, hl⟩ := List.nodup_cons.mp hl
    rcases List.mem_cons.mp hx with rfl | hx
    · exact List.foldlRecOn l f (hturn s hs) fun u hu z hz => hafter u z (fun e => hy (e ▸ hz)) hu
    · exact ih hl hx (hbefore s y (fun e => hy (e ▸ hx)) hs)

theorem queuesOnly_restage (s : State) (p q : Nat) : QueuesOnly part s (s.restage p q) := by
  unfold State.restage
  split
  · exact .refl s
  · split
    · exact .refl s
    · exact (queuesOnly_stageChunk ..).trans (queuesOnly_updQueue ..)

theorem restage_queue_other (h : ¬(part = p ∧ n = q)) : (s.restage p q).queue part n = s.queue part n := by
  unfold State.restage
  split
  · rfl
  · split
    · rfl
    · exact (queue_updQueue_other h _).trans (stageChunk_queue ..)

/-- A transfer that waits for its I/O die to stage its chunk again. -/
structure Unstaged (s : State) (part n : Nat) (x : Xfer) (t : State) : Prop where
  front : QueuesOnly part s t
  there : n < (t.part part).queues.length
  cur   : (t.queue part n).cur = some x

/-- A transfer whose chunk has been staged again from some runs. -/
structure Restaged (s : State) (part n : Nat) (x : Xfer) (a : List IoRun) (t : State) : Prop where
  front : QueuesOnly part s t
  cur   : ∃ y, (t.queue part n).cur = some y ∧ (y = stagedFrom s x a ∨ HostErred x y)

theorem length_queues_restage (s : State) (p q : Nat) : ((s.restage p q).part part).queues.length = (s.part part).queues.length := by
  unfold State.restage
  split
  · rfl
  · split
    · rfl
    · exact (length_queues_updQueue _).trans (congrArg (fun u : State => (u.part part).queues.length) (stageChunk_state s p _) :)

theorem Unstaged.restage_other (h : Unstaged s part n x t) (hne : ¬(part = p ∧ n = q)) : Unstaged s part n x (t.restage p q) :=
  ⟨h.front.trans (queuesOnly_restage ..), by rw [length_queues_restage]; exact h.there, by rw [restage_queue_other hne]; exact h.cur⟩

theorem Restaged.restage_other (h : Restaged s part n x a t) (hne : ¬(part = p ∧ n = q)) : Restaged s part n x a (t.restage p q) :=
  ⟨h.front.trans (queuesOnly_restage ..), by rw [restage_queue_other hne]; exact h.cur⟩

theorem Unstaged.restage (h : Unstaged s part n x t) (hp : part < s.parts.length) (hend : x.ended = false)
    (hlen : x.moved < (parseDma x.desc).len) (hr : chunkRuns s part x = some (a, b)) (hb : ioBusy s a = false) :
    Restaged s part n x a (t.restage part n) := by
  obtain ⟨k, y, hstage, hy⟩ := stageChunk_eq hlen ((h.front.chunkRuns x).trans hr) ((h.front.ioBusy a).trans hb)
  refine ⟨h.front.trans (queuesOnly_restage ..), y, ?_, ?_⟩
  · simp only [State.restage, h.cur, hend, Bool.false_eq_true, if_false, hstage]
    exact congrArg DmaQueue.cur (queue_updQueue (s := { t with fresh := k }) (h.front.count.symm ▸ hp) h.there _)
  · rwa [stagedFrom_congr h.front] at hy

/-- The DMA queues of a partition on an I/O die stage their chunks again. -/
def restageAll (iod : Nat) (s : State) (p : Nat) : State :=
  if (s.part p).port = iod then (List.range 4).foldl (fun s q => s.restage p q) s else s

theorem Unstaged.restageAll_other (h : Unstaged s part n x t) (iod : Nat) (hne : p ≠ part) : Unstaged s part n x (restageAll iod t p) := by
  unfold restageAll
  split
  · exact List.foldlRecOn _ _ h fun u hu q _ => hu.restage_other fun e => hne e.1.symm
  · exact h

theorem Restaged.restageAll_other (h : Restaged s part n x a t) (iod : Nat) (hne : p ≠ part) : Restaged s part n x a (restageAll iod t p) := by
  unfold restageAll
  split
  · exact List.foldlRecOn _ _ h fun u hu q _ => hu.restage_other fun e => hne e.1.symm
  · exact h

theorem Unstaged.restageAll (h : Unstaged s part n x t) (hp : part < s.parts.length) (hn : n < 4) (hend : x.ended = false)
    (hlen : x.moved < (parseDma x.desc).len) (hr : chunkRuns s part x = some (a, b)) (hb : ioBusy s a = false) :
    Restaged s part n x a (restageAll (s.part part).port t part) := by
  rw [Claims.restageAll, if_pos h.front.port]
  exact foldl_turn (fun u q hq hu => hu.restage_other fun e => hq e.2.symm) (fun u hu => hu.restage hp hend hlen hr hb)
    (fun u q hq hu => hu.restage_other fun e => hq e.2.symm) List.nodup_range (List.mem_range.mpr hn) h

/-- The stream writes that an I/O die has staged are staged as they came. -/
theorem part_restreamed (s : State) (iod p : Nat) :
    ∃ l, State.part { s with parts := s.parts.map fun p => p.restreamed iod s.now } p = { s.part p with posted := l } := by
  simp only [State.part, List.getD_eq_getElem?_getD, List.getElem?_map]
  cases s.parts[p]? with
  | none => exact ⟨_, rfl⟩
  | some y => exact ⟨_, rfl⟩

theorem sensorRestages (hp : part < s.parts.length) (hq : n < (s.part part).queues.length) (h16 : part < 16) (hn : n < 4)
    (hcur : (s.queue part n).cur = some x) (hend : x.ended = false) (hlen : x.moved < (parseDma x.desc).len)
    (hr : chunkRuns s part x = some (a, b)) (hb : ioBusy s a = false) :
    ∃ t, exec (.iodSensorEvent (s.part part).port) s = .next t ∧ Restaged s part n x a t := by
  refine ⟨_, rfl, ?_⟩
  obtain ⟨l, hl⟩ := part_restreamed s (s.part part).port part
  have hstart : Unstaged s part n x { s with parts := s.parts.map fun p => p.restreamed (s.part part).port s.now } :=
    ⟨⟨rfl, List.length_map _, by rw [hl]⟩, by rw [hl]; exact hq, by rw [State.queue, hl]; exact hcur⟩
  exact foldl_turn (f := restageAll (s.part part).port) (fun u p hne hu => hu.restageAll_other _ hne)
    (fun u hu => hu.restageAll hp hn hend hlen hr hb) (fun u p hne hu => hu.restageAll_other _ hne) List.nodup_range (List.mem_range.mpr h16) hstart

end

/-! ## O53 -/

/-- How a queue's transfer stands once its chunk has been staged, or the host has refused it. -/
theorem cur_staged_or_erred {s : State} {x y : Xfer} {a : List IoRun} {o : Option Xfer} (ho : o = some y) (hy : y = stagedFrom s x a ∨ HostErred x y) :
    o = some (stagedFrom s x a) ∨ ((parseDma x.desc).dir = 0 ∧ o = some { x with chunk := [], ended := true, status := 1 }) := by
  subst ho
  rcases hy with rfl | ⟨hdir, rfl⟩
  · exact .inl rfl
  · exact .inr ⟨hdir, rfl⟩

/-- Settles O53: the windows, peers and streams of a ready partition, then its DMA queues, each clause the lemma of its event above. -/
theorem hostPorts : Obligations.HostPorts := by
  refine ⟨fun part n s hp hready hdesc => ⟨?_, ?_, ?_, ?_, ?_, ?_, ?_, ?_⟩, fun part n s hp hn => ⟨?_, ?_, ?_, ?_⟩⟩
  · exact fun req data hn hlen hhost hvalid hroom => ⟨_, boothTakes hready hdesc req data hn hlen hhost hvalid hroom, rfl⟩
  · exact queueTakes hp hready hdesc
  · exact vectorControlled hp hready hdesc
  · exact timerSends hp
  · exact statusCleared hp hready
  · intro w hold hm
    exact ⟨peerWrites hready hold hm, fun hk => ⟨_, peerAtomic hk, rfl⟩, fun hk hlen hok hclean hb hcxl =>
      ⟨_, peerReads hready hold hk hlen hok hclean hb hcxl, rfl, rfl⟩⟩
  · exact streamStages hp hready
  · exact streamReleases hp
  · intro d v r a b hcur hdescs hok x hr hb
    obtain ⟨t, y, heq, hworld, hleft, hy, hstaged⟩ := transferStarts hp hn hcur hdescs hok hr hb
    exact ⟨t, heq, hworld, hleft, cur_staged_or_erred hy hstaged⟩
  · exact fun x a y hn4 => lastChunkReleases hp hn hn4
  · exact fun x => transferCompletes hp hn
  · intro x a b h16 hn4 hcur hend hlen hr hb
    obtain ⟨t, heq, hfront, y, hy, hstaged⟩ := sensorRestages hp hn h16 hn4 hcur hend hlen hr hb
    exact ⟨t, heq, hfront.ram, hfront.groups, cur_staged_or_erred hy hstaged⟩

end Sys2Proof.Claims
end

section
/-! PROOF. Number formats: what rounding to a multiple of a power of two gives in every mode, and that a finite pattern rounds back to itself
(R81, R95, R97, Tables 7-1 and 7-5). -/

namespace Sys2Proof.Claims

open Sys2Proof.Machine

/-! ## Rounding to a multiple of a power of two (Table 7-5, R97) -/

/-- A magnitude in units of the last place kept, `s` bits above its own: the kept integer, rounded up or not. -/
def rounded (mode : Rnd) (rnd : Nat) (neg : Bool) (m s : Nat) : Nat :=
  m / 2 ^ s + if roundsUp mode rnd neg (m / 2 ^ s) (m % 2 ^ s) s then 1 else 0

section
variable {mode : Rnd} {r m s : Nat} {neg : Bool} {e q : Int}

theorem roundAt_of_le (h : q ≤ e) : roundAt mode r neg m e q = (m * 2 ^ (e - q).toNat, false) := if_pos h

theorem roundAt_of_lt (h : e < q) :
    roundAt mode r neg m e q = (rounded mode r neg m (q - e).toNat, m % 2 ^ (q - e).toNat != 0) := by
  have hq : ¬q ≤ e := by omega
  rw [roundAt, if_neg hq, rounded]
  dsimp only
  split <;> rfl

/-- What is dropped below the last place, and what rounding up adds there. -/
theorem rounded_mul_add_mod (mode : Rnd) (r : Nat) (neg : Bool) (m s : Nat) :
    rounded mode r neg m s * 2 ^ s + m % 2 ^ s =
      m + if roundsUp mode r neg (m / 2 ^ s) (m % 2 ^ s) s then 2 ^ s else 0 := by
  have hm := Nat.div_add_mod' m (2 ^ s)
  rw [rounded, Nat.add_mul, ite_mul, one_mul, zero_mul]
  omega

/-- Nothing dropped, nothing rounds up: a draw of 16 bits does not carry alone. -/
theorem roundsUp_zero (hr : r < 2 ^ 16) (hi : Nat) : roundsUp mode r neg hi 0 s = false := by
  have hs := Nat.two_pow_pos s
  cases mode with
  | rz => rfl
  | rd | ru => simp [roundsUp]
  | sr => simpa [roundsUp] using hr
  | rna => simp [roundsUp]
  | rne | dyn => simp [roundsUp, Nat.ne_of_lt hs]

theorem rounded_exact (hr : r < 2 ^ 16) (h : m % 2 ^ s = 0) : rounded mode r neg m s * 2 ^ s = m := by
  simpa [h, roundsUp_zero hr] using rounded_mul_add_mod mode r neg m s

/-- Truncation: the multiple next to the magnitude towards zero. -/
theorem rounded_down (h : roundsUp mode r neg (m / 2 ^ s) (m % 2 ^ s) s = false) :
    rounded mode r neg m s * 2 ^ s ≤ m ∧ m < (rounded mode r neg m s + 1) * 2 ^ s := by
  have hsum := rounded_mul_add_mod mode r neg m s
  have hlt := Nat.mod_lt m (Nat.two_pow_pos s)
  rw [h, if_neg Bool.false_ne_true] at hsum
  rw [Nat.add_one_mul]
  omega

/-- Away from zero: what is dropped, if anything, rounds up. -/
theorem rounded_away (h : roundsUp mode r neg (m / 2 ^ s) (m % 2 ^ s) s = (m % 2 ^ s != 0)) :
    m ≤ rounded mode r neg m s * 2 ^ s ∧ rounded mode r neg m s * 2 ^ s < m + 2 ^ s := by
  have hsum := rounded_mul_add_mod mode r neg m s
  have hlt := Nat.mod_lt m (Nat.two_pow_pos s)
  rw [h] at hsum
  by_cases h0 : m % 2 ^ s = 0
  · rw [if_neg (by simp [h0])] at hsum
    omega
  · rw [if_pos (by simp [h0])] at hsum
    omega

theorem roundsUp_rne_iff {hi lo : Nat} :
    roundsUp .rne r neg hi lo s = true ↔ 2 ^ s < 2 * lo ∨ 2 * lo = 2 ^ s ∧ hi % 2 = 1 := by
  simp only [roundsUp, Bool.or_eq_true, Bool.and_eq_true, decide_eq_true_eq, beq_iff_eq]

/-- To the nearest, a tie to the even multiple: a tie rounds up from an odd kept integer only. -/
theorem rounded_rne :
    2 * (rounded .rne r neg m s * 2 ^ s) ≤ 2 * m + 2 ^ s ∧ 2 * m ≤ 2 * (rounded .rne r neg m s * 2 ^ s) + 2 ^ s ∧
      (2 * (rounded .rne r neg m s * 2 ^ s) = 2 * m + 2 ^ s ∨ 2 * m = 2 * (rounded .rne r neg m s * 2 ^ s) + 2 ^ s →
        rounded .rne r neg m s % 2 = 0) := by
  have hsum := rounded_mul_add_mod .rne r neg m s
  have hlt := Nat.mod_lt m (Nat.two_pow_pos s)
  have hval : rounded .rne r neg m s = m / 2 ^ s + if roundsUp .rne r neg (m / 2 ^ s) (m % 2 ^ s) s then 1 else 0 := rfl
  by_cases hup : roundsUp .rne r neg (m / 2 ^ s) (m % 2 ^ s) s = true
  · rw [if_pos hup] at hsum hval
    rw [roundsUp_rne_iff] at hup
    omega
  · rw [if_neg hup] at hsum hval
    rw [roundsUp_rne_iff] at hup
    omega

/-- To the nearest, a tie away from zero. -/
theorem rounded_rna :
    2 * (rounded .rna r neg m s * 2 ^ s) ≤ 2 * m + 2 ^ s ∧ 2 * m < 2 * (rounded .rna r neg m s * 2 ^ s) + 2 ^ s := by
  have hsum := rounded_mul_add_mod .rna r neg m s
  have hlt := Nat.mod_lt m (Nat.two_pow_pos s)
  simp only [roundsUp, decide_eq_true_eq] at hsum
  split at hsum <;> omega

/-- Up when the first 16 bits dropped and the draw carry (R97). -/
theorem rounded_sr :
    rounded .sr r neg m s = m / 2 ^ s + if 2 ^ 16 ≤ m % 2 ^ s * 2 ^ 16 / 2 ^ s + r then 1 else 0 := by
  simp only [rounded, roundsUp, decide_eq_true_eq]

end

/-- Settles O5: at or above `q` by `roundAt_of_le`; below it the rule of each mode is a lemma about `rounded` above. -/
theorem roundingModes : Obligations.RoundingModes := by
  intro mode r neg m e q n inexact hr
  refine ⟨fun h => ?_, ?_⟩
  · have hat := roundAt_of_le (mode := mode) (r := r) (neg := neg) (m := m) h
    exact ⟨congrArg Prod.fst hat, congrArg Prod.snd hat⟩
  · intro h u
    have hat := roundAt_of_lt (mode := mode) (r := r) (neg := neg) (m := m) h
    have hn : n = rounded mode r neg m (q - e).toNat := congrArg Prod.fst hat
    have hinexact : inexact = (m % u != 0) := congrArg Prod.snd hat
    rw [hn, hinexact]
    refine ⟨bne_iff_ne, fun h0 => rounded_exact hr (by simpa using h0), ?_, ?_, ?_, ?_, ?_, ?_⟩
    · rintro rfl
      exact rounded_down rfl
    · rintro rfl
      exact ⟨by rintro rfl; exact rounded_down rfl, by rintro rfl; exact rounded_away rfl⟩
    · rintro rfl
      exact ⟨by rintro rfl; exact rounded_down rfl, by rintro rfl; exact rounded_away rfl⟩
    · rintro rfl
      exact rounded_rne
    · rintro rfl
      exact rounded_rna
    · rintro rfl
      exact rounded_sr

/-! ## A finite pattern and its value (R81, Table 7-1) -/

/-- A format holds the significand `m`, `k` places above the last place of a subnormal: it fits, and only at the smallest exponent may it lack its
leading one. -/
structure HeldAt (f : Fmt) (m k : Nat) : Prop where
  fits   : m < 2 ^ (f.fb + 1)
  normal : m < 2 ^ f.fb → k = 0

/-- The code of that significand. -/
def codeAt (f : Fmt) (m k : Nat) : Nat := k * 2 ^ f.fb + m

/-- The codes, signs aside, of infinities and NaNs (Table 7-1). -/
def reservedCode (f : Fmt) (c : Nat) : Bool :=
  match f.kind with
  | .ieee => c / 2 ^ f.fb == 2 ^ f.eb - 1
  | .e4m3 => c == 0x7F
  | .plain => false

section
variable {f : Fmt} {x c m k : Nat} {neg : Bool} {e : Int}

/-- A finite value comes of a code that is not reserved, subnormal when its exponent field is 0. -/
theorem unpack_eq_fin (h : f.unpack x = .fin neg m e) :
    reservedCode f (x % f.signBit) = false ∧ neg = x.testBit (f.eb + f.fb) ∧
      ((x % f.signBit / 2 ^ f.fb = 0 ∧ m = x % f.signBit % 2 ^ f.fb ∧ e = f.qmin) ∨
       (x % f.signBit / 2 ^ f.fb ≠ 0 ∧ m = 2 ^ f.fb + x % f.signBit % 2 ^ f.fb ∧
         e = (x % f.signBit / 2 ^ f.fb : Nat) - f.bias - f.fb)) := by
  change (if reservedCode f (x % f.signBit) = true then _ else _) = _ at h
  by_cases hres : reservedCode f (x % f.signBit) = true
  · rw [if_pos hres] at h
    split at h
    · split at h <;> cases h
    · cases h
  · rw [if_neg hres] at h
    refine ⟨by simpa using hres, ?_⟩
    split at h
    · next h0 => injection h with hneg hm he; exact ⟨hneg.symm, .inl ⟨h0, hm.symm, he.symm⟩⟩
    · next h0 => injection h with hneg hm he; exact ⟨hneg.symm, .inr ⟨h0, hm.symm, he.symm⟩⟩

/-- The significand and the exponent of a finite value are those its format holds at its code. -/
theorem heldAt_of_unpack (h : f.unpack x = .fin neg m e) : ∃ k : Nat, HeldAt f m k ∧ codeAt f m k = x % f.signBit ∧ e = f.qmin + k := by
  obtain ⟨-, -, hfields⟩ := unpack_eq_fin h
  have hcode := Nat.div_add_mod' (x % f.signBit) (2 ^ f.fb)
  have hlt := Nat.mod_lt (x % f.signBit) (Nat.two_pow_pos f.fb)
  rcases hfields with ⟨h0, rfl, rfl⟩ | ⟨h0, rfl, rfl⟩
  · refine ⟨0, ⟨?_, fun _ => rfl⟩, ?_, by simp⟩
    · rw [pow_succ]; omega
    · simpa [codeAt, h0] using hcode
  · obtain ⟨k, hk⟩ := Nat.exists_eq_succ_of_ne_zero h0
    rw [hk] at hcode ⊢
    refine ⟨k, ⟨?_, ?_⟩, ?_, ?_⟩
    · rw [pow_succ]; omega
    · omega
    · rwa [codeAt, ← Nat.add_assoc, ← Nat.succ_mul]
    · rw [Fmt.qmin, Fmt.emin]; push_cast; omega

/-- A code that is not reserved is at most that of the largest finite value; E4M3's layout has seven bits below the sign. -/
theorem le_maxCode_of_not_reservedCode (hf : f.kind = .e4m3 → f.eb + f.fb = 7) (hc : c < f.signBit) (h : reservedCode f c = false) : c ≤ f.maxCode := by
  cases hkind : f.kind with
  | ieee =>
    simp only [reservedCode, hkind, beq_eq_false_iff_ne] at h
    rw [Fmt.signBit, pow_add] at hc
    have hlt : c / 2 ^ f.fb < 2 ^ f.eb := Nat.div_lt_of_lt_mul (by rwa [mul_comm])
    have hinf : c < f.infCode := Nat.lt_mul_of_div_lt (by omega) (Nat.two_pow_pos _)
    rw [Fmt.maxCode, hkind]
    exact Nat.le_sub_one_of_lt hinf
  | e4m3 =>
    simp only [reservedCode, hkind, beq_eq_false_iff_ne] at h
    rw [Fmt.signBit, hf hkind] at hc
    rw [Fmt.maxCode, hkind]
    show c ≤ 0x7E
    omega
  | plain =>
    rw [Fmt.maxCode, hkind]
    exact Nat.le_sub_one_of_lt hc

/-- A pattern is its sign bit and its code. -/
theorem signed_testBit (hx : x < 2 ^ (f.eb + f.fb + 1)) : f.signed (x.testBit (f.eb + f.fb)) (x % f.signBit) = x := by
  have hdiv := Nat.div_add_mod' x f.signBit
  have hbit : x / f.signBit < 2 := Nat.div_lt_of_lt_mul (by rwa [Fmt.signBit, ← pow_succ])
  have hsign : x.testBit (f.eb + f.fb) = decide (x / f.signBit = 1) := by
    rw [Nat.testBit_eq_decide_div_mod_eq, ← Fmt.signBit, Nat.mod_eq_of_lt hbit]
  simp only [Fmt.signed, hsign, decide_eq_true_eq]
  rcases Nat.le_one_iff_eq_zero_or_eq_one.1 (Nat.le_of_lt_succ hbit) with h0 | h1
  · rw [if_neg (by simp [h0])]
    rwa [h0, zero_mul, zero_add] at hdiv
  · rw [if_pos h1]
    rwa [h1, one_mul] at hdiv

/-- A nonzero held value has its last place where rounding to the format puts it. -/
theorem lastPlace_of_heldAt (h : HeldAt f m k) (hm : m ≠ 0) :
    max (f.qmin + k + (Nat.log2 m : Nat) - f.fb) f.qmin = f.qmin + k := by
  have hfits : Nat.log2 m < f.fb + 1 := (Nat.log2_lt hm).2 h.fits
  by_cases hlt : m < 2 ^ f.fb
  · have hlow : Nat.log2 m < f.fb := (Nat.log2_lt hm).2 hlt
    rw [h.normal hlt]
    omega
  · have hhigh : f.fb ≤ Nat.log2 m := (Nat.le_log2 hm).2 (Nat.le_of_not_lt hlt)
    omega

/-- So nothing of it is dropped, and its own code comes back. -/
theorem round_heldAt (h : HeldAt f m k) (hm : m ≠ 0) (hmax : codeAt f m k ≤ f.maxCode) (mode : Rnd) (r : Nat) (neg : Bool) :
    f.round ⟨mode, r, false, false⟩ neg m (f.qmin + k) = (f.signed neg (codeAt f m k), 0) := by
  have hq := lastPlace_of_heldAt h hm
  have hround : roundAt mode r neg m (f.qmin + k) (f.qmin + k) = (m, false) := by
    simp [roundAt_of_le]
  rw [codeAt] at hmax ⊢
  simp [Fmt.round, hq, hround, Nat.not_lt.2 hmax]

/-- Unpacking loses nothing: a finite value rounds back to its pattern, in any format that meets what Table 7-1 says of E4M3's layout. -/
theorem ofFv_unpack (hf : f.kind = .e4m3 → f.eb + f.fb = 7) (hx : x < 2 ^ (f.eb + f.fb + 1)) (h : f.unpack x = .fin neg m e) (mode : Rnd)
    (r : Nat) : f.ofFv ⟨mode, r, false, false⟩ (.fin neg m e) = (x, 0) := by
  obtain ⟨hfinite, rfl, -⟩ := unpack_eq_fin h
  obtain ⟨k, hheld, hcode, rfl⟩ := heldAt_of_unpack h
  have hmax : x % f.signBit ≤ f.maxCode := le_maxCode_of_not_reservedCode hf (Nat.mod_lt _ (Nat.two_pow_pos _)) hfinite
  by_cases hm : m = 0
  · have hzero : x % f.signBit = 0 := by
      rw [← hcode, codeAt, hheld.normal (hm ▸ Nat.two_pow_pos _), hm, zero_mul]
    rw [Fmt.ofFv, if_pos hm, ← hzero, signed_testBit hx]
  · rw [Fmt.ofFv, if_neg hm, round_heldAt hheld hm (hcode ▸ hmax), hcode, signed_testBit hx]

end

/-- The widths of Table 7-1: a sign bit, the exponent and the fraction; E4M3 has seven bits below the sign. -/
theorem widths_of_fmtOf : ∀ ty ∈ [Ty.fp64, .fp32, .fp16, .bf16, .e5m2, .e4m3, .e3m2, .e2m3, .e2m1],
    ty.bits = (fmtOf ty).eb + (fmtOf ty).fb + 1 ∧ ((fmtOf ty).kind = .e4m3 → (fmtOf ty).eb + (fmtOf ty).fb = 7) := by decide

/-- Settles O6, by `ofFv_unpack`, with the widths that Table 7-1 gives. -/
theorem formatsRoundTrip : Obligations.FormatsRoundTrip := by
  intro ty mode r x neg m e hty hx h
  obtain ⟨hbits, hf⟩ := widths_of_fmtOf ty hty
  exact ofFv_unpack hf (hbits ▸ hx) h mode r

end Sys2Proof.Claims
end

section
/-! PROOF. The set-up of the matrix engine (R103, R104, R106): the statement of it fails, in a state that its premises leave open. -/

namespace Sys2Proof.Claims

open Sys2Proof.Machine Sys2Proof.Laws

/-! ## CVSET where two teams have one key -/

/-- The loader's team (log 1), and its one group. -/
def cvsetTeam : Team := Team.fresh loaderTeam 0 loaderLaunch [loaderCore] 0 [] 0 0

def cvsetGroup : Group := (teamGroups loaderTeam 0 loaderLaunch [loaderCore] 0).headD default

/-- A second team has the loader's key and is found first; it has no core rank. -/
def twinState : State :=
  { State.reset with groups := [cvsetGroup], teams := [{ cvsetTeam with ranks := [] }, cvsetTeam], issue := some ⟨cvsetGroup.key, 0xFFFF, 0x1000⟩ }

/-- A word's guard that every lane passes, and no HD. -/
def plainCtl : Ctl := ⟨⟨false, 15⟩, ⟨false, 15⟩, false, false⟩

/-- CVSET of c0 to 64. -/
def cvset64 : Instr := .cvset plainCtl (.creg 0) 64

theorem able_cvset64 : Able cvset64 plainCtl twinState cvsetGroup 0xFFFF 0x1000 :=
  ⟨⟨⟨rfl, rfl, by decide +kernel⟩, fun h => (by cases h), by decide +kernel⟩, by decide +kernel, by unfold Untainted; decide +kernel,
    by decide +kernel, by decide +kernel⟩

/-- The counts that the first core rank of each team declares for c0. -/
def countsOf (s : State) : List (Option Nat) := s.teams.map fun x => ((x.ranks.headD default).conv 0).count

/-- The same of the state that a step answers. -/
def countsAfter : Out_ → List (Option Nat)
  | .next t => countsOf t
  | _ => []

/-- The count is declared where a core rank is found by a change, and then put back to what the first team's missing rank reads. -/
theorem countsAfter_cvset64 : countsAfter (exec cvset64 twinState) = [none, none] := by decide +kernel

theorem countsOf_declared (c : Ctl) :
    countsOf (onRank twinState (headOf c twinState cvsetGroup) fun r => r.setConv 0 ⟨some 64, [], []⟩) = [none, some 64] := by
  rw [onRank, headOf_key, show (headOf c twinState cvsetGroup).rank = cvsetGroup.rank by unfold headOf; split <;> rfl]
  decide +kernel

/-- Refutes O25: its premises leave open that two teams have one key, the first of them without the group's core rank; a CVSET that judges its
register (R109) then reads the first team and writes the second, and declares no count. -/
theorem not_matrixSetUp : ¬ Obligations.MatrixSetUp := by
  unfold Obligations.MatrixSetUp
  intro h
  obtain ⟨-, -, hcvset⟩ := h plainCtl 0 0 .none .none 64
  obtain ⟨t, k, ht, -, hw, -⟩ := hcvset twinState cvsetGroup 0xFFFF 0x1000 able_cvset64
    ⟨by decide, by decide, rfl, none, by decide +kernel⟩
  have hteams : countsOf t = countsOf (onRank twinState (headOf plainCtl twinState cvsetGroup) fun r => r.setConv 0 ⟨some 64, [], []⟩) :=
    (congrArg countsOf hw :)
  have hafter : countsOf t = [none, none] := (congrArg countsAfter ht).symm.trans countsAfter_cvset64
  rw [hafter, countsOf_declared] at hteams
  exact absurd hteams (by decide)

end Sys2Proof.Claims
end

section
/-! PROOF. Instructions whose bodies act outside their group: what stands once one has dispatched (R29, R51, R116). -/

namespace Sys2Proof.Claims

open Sys2Proof.Machine Sys2Proof.Laws

section
variable {i : Instr} {c : Ctl} {s u t : State} {g k h : Group} {run : Mask} {pc : Dword} {obj : List ObjImage} {e : Entry} {body : Served → Res}

/-- A group as a body leaves it before its entry is made: its entries, checkpoints and threads stand as they did, and `obj` is what the body
has replaced outside the renamed registers. -/
structure Undispatched (c : Ctl) (s : State) (g k : Group) (obj : List ObjImage) : Prop where
  key    : k.key = g.key
  rob    : k.rob = g.rob
  seq    : k.seq = (headOf c s g).seq
  ckpts  : k.ckpts = (headOf c s g).ckpts
  objs   : k.objs = obj ++ g.objs
  pcs    : k.arch.pcs = g.arch.pcs
  parked : k.arch.parked = g.arch.parked

/-- Before its body acts, a group stands as its checkpoint has left it. -/
theorem undispatched_headOf (c : Ctl) (s : State) (g : Group) : Undispatched c s g (headOf c s g) [] :=
  ⟨headOf_key .., headOf_rob .., rfl, rfl, headOf_objs .., congrArg Arch.pcs (headOf_arch c s g), congrArg Arch.parked (headOf_arch c s g)⟩

/-- So it does once an effect is staged. -/
theorem Undispatched.stage (K : Undispatched c s g k obj) {now cls : Nat} {x : EffectKind} : Undispatched c s g (k.stage now cls x []) obj :=
  { K with }

/-- So it does once a command is accepted. -/
theorem Undispatched.cmds (K : Undispatched c s g k obj) {l : List Cmd} : Undispatched c s g { k with cmds := l } obj :=
  { K with }

/-- An instruction whose body has left the world `u` and its group `k` has dispatched: the world stays, and of the group only what every issue
changes is other than in `k`. -/
structure Dispatched (c : Ctl) (s t : State) (g h : Group) (run : Mask) (pc : Dword) (e : Entry) (u : State) (k : Group) : Prop extends
    Entered c s t g h run e (fun _ => nextPc pc) where
  state : t = u.setGroup h
  regs  : SameRegs k.arch h.arch
  arch  : ∀ a, withRegsOf a h.arch = withRegsOf a k.arch
  rest  : ∀ x, withIssueOf x h = withIssueOf x k

theorem Dispatched.world (D : Dispatched c s t g h run pc e u k) : World t u := by
  rw [D.state]
  rfl

theorem Dispatched.staged (D : Dispatched c s t g h run pc e u k) : h.staged = k.staged := (congrArg Group.staged (D.rest k) :)

theorem Dispatched.cmds (D : Dispatched c s t g h run pc e u k) : h.cmds = k.cmds := (congrArg Group.cmds (D.rest k) :)

theorem Dispatched.teams (D : Dispatched c s t g h run pc e u k) : t.teams = u.teams := (congrArg State.teams D.world :)

/-- The group that a body leaves, once its run stands at the next slot. -/
def steppedOn (k : Group) (run : Mask) (pc : Dword) : Group := { k with arch := k.arch.setPcs run fun _ => nextPc pc }

theorem group?_setGroup_congr (hu : u.groups = s.groups) (h : Group) (q : GroupKey) : (u.setGroup h).group? q = (s.setGroup h).group? q := by
  simp only [State.group?, setGroup_groups, hu]

/-- The group has dispatched once its run stands at the next slot, its entry is made and the issue is counted; `old` is the group as it was
served. -/
theorem dispatched_issuedFor {act : Mask} {old : Group} (hg : s.group? g.key = some g) (K : Undispatched c s g k obj) (hu : u.groups = s.groups)
    (ho : old.arch = g.arch) :
    Dispatched c s (u.setGroup (issuedFor i pc run act 0 old (steppedOn k run pc))) g (issuedFor i pc run act 0 old (steppedOn k run pc)) run pc
      (entryOf i (headOf c s g) pc run act 0 obj) u k := by
  set H := issuedFor i pc run act 0 old (steppedOn k run pc)
  obtain ⟨hrob, hseq, hckpts, hobjs, hkey, -⟩ := noteIssue_rest ((steppedOn k run pc).dispatch i pc run act 0 old.arch) old run
  obtain ⟨hr, hpc, ha⟩ := issuedFor_arch (i := i) (pc := pc) (run := run) (act := act) (fl := 0) (k := steppedOn k run pc) old
  have hk : H.key = g.key := hkey.trans K.key
  have hd : k.depsOf i = (headOf c s g).depsOf i := by rw [Group.depsOf, Group.depsOf, K.rob, headOf_rob]
  refine ⟨⟨fun q hq => ?_, ?_, hrob.trans ?_, hseq.trans (congrArg (· + 1) K.seq), hckpts.trans K.ckpts, hobjs, fun L hL => ?_⟩, rfl, hr, ha,
    fun x => withIssueOf_issuedFor x _⟩
  · rw [group?_setGroup_congr hu]
    exact (setGroup_only s H).others q (hk ▸ hq)
  · rw [group?_setGroup_congr hu]
    exact setGroup_mine s g H hk hg
  · show k.rob ++ [⟨k.seq, pc, run, act, false, 0, 0, none, old.arch, i.orders, k.depsOf i, i.isBranch, k.objs⟩] = _
    rw [K.rob, K.seq, K.objs, hd, ho, entryOf, headOf_arch, headOf_objs]
  · rw [Arch.pc, hpc, steppedOn, ← Arch.pc, pc_setPcs _ _ _ (K.pcs ▸ hL), Arch.pc, Arch.pc, K.pcs]

/-- What `conclude` does for a body that raises flags of MXFLG (R116). -/
def withMx (mx : BitVec 4) (h : Group) : Group := { h with rob := h.rob.modify (h.rob.length - 1) fun e => { e with mx := mx } }

/-- The flags stand in the entry. -/
theorem Dispatched.withMx (D : Dispatched c s (u.setGroup h) g h run pc e u k) (hg : u.group? g.key = some g) (mx : BitVec 4) :
    Dispatched c s (u.setGroup (withMx mx h)) g (withMx mx h) run pc { e with mx := mx } u k := by
  obtain ⟨⟨others, mine, entry, seq, ckpts, objs, pcs⟩, -, hr, ha, hw⟩ := D
  have hk : h.key = g.key := key_of_group? mine
  have hm : ∀ q, q ≠ g.key → (u.setGroup (Claims.withMx mx h)).group? q = (u.setGroup h).group? q := fun q hq => by
    rw [← hk] at hq
    rw [(setGroup_only u h).others q hq]
    exact (setGroup_only u (Claims.withMx mx h)).others q hq
  refine ⟨⟨fun q hq => (hm q hq).trans (others q hq), setGroup_mine u g _ hk hg, ?_, seq, ckpts, objs, pcs⟩, rfl, hr, ha, hw⟩
  show h.rob.modify (h.rob.length - 1) _ = _
  rw [entry]
  simp [List.modify_eq_take_drop]

theorem issued_able (A : Able i c s g run pc) (K : Undispatched c s g k obj) :
    (steppedOn k run pc).issued ⟨headOf c s g, run, active c g run, pc, i, c.hd⟩ run 0 =
      issuedFor i pc run (active c g run) 0 (headOf c s g) (steppedOn k run pc) :=
  issued_eq (K.parked ▸ A.free) (run_ne_zero A) (act_and_run ..)

/-- A body that acts on the world and completes has dispatched. -/
theorem serve_acted (A : Able i c s g run pc) (hb : body ⟨headOf c s g, run, active c g run, pc, i, c.hd⟩ = .done u k 0)
    (K : Undispatched c s g k obj) (hu : u.groups = s.groups) :
    ∃ t h, serve i c s body = .next t ∧ Dispatched c s t g h run pc (entryOf i (headOf c s g) pc run (active c g run) 0 obj) u k := by
  refine ⟨_, _, ?_, dispatched_issuedFor A.here K hu (headOf_arch c s g)⟩
  rw [serve_able A, hb, ← issued_able A K]
  simp only [conclude, K.parked, and_compl_of_disjoint A.free]
  rfl

/-- So has one that completes with flags of MXFLG. -/
theorem serve_flagged (A : Able i c s g run pc) {mx : BitVec 4} (hb : body ⟨headOf c s g, run, active c g run, pc, i, c.hd⟩ = .flagged u k mx)
    (K : Undispatched c s g k obj) (hu : u.groups = s.groups) :
    ∃ t h, serve i c s body = .next t ∧
      Dispatched c s t g h run pc { entryOf i (headOf c s g) pc run (active c g run) 0 obj with mx := mx } u k := by
  have hg : u.group? g.key = some g := by rw [State.group?, hu]; exact A.here
  refine ⟨_, _, ?_, (dispatched_issuedFor A.here K hu (headOf_arch c s g)).withMx hg mx⟩
  rw [serve_able A, hb, ← issued_able A K]
  rfl

/-- A complete group-collective point whose body acts on the world and completes has dispatched for every thread that counts (R33). -/
theorem serve_gathered_acted (A : Gathered i c s g run pc)
    (hb : body ⟨{ headOf c s g with coll := 0 }, g.here, active c g g.here, pc, i, c.hd⟩ = .done u k 0)
    (K : Undispatched c s g k obj) (hu : u.groups = s.groups) :
    ∃ t h, serveColl i c s body = .next t ∧
      Dispatched c s t g h g.here pc (entryOf i (headOf c s g) pc g.here (active c g g.here) 0 obj) u k := by
  refine ⟨_, _, ?_, dispatched_issuedFor (old := { headOf c s g with coll := 0 }) A.here K hu (headOf_arch ..)⟩
  have hi := issued_eq (k := steppedOn k g.here pc) (fl := 0) (v := ⟨{ headOf c s g with coll := 0 }, g.here, active c g g.here, pc, i, c.hd⟩)
    (K.parked ▸ A.parked) A.live (act_and_run ..)
  rw [serve_gathered A, hb, ← hi]
  simp only [conclude, K.parked, and_compl_of_disjoint A.parked]
  rfl

end
end Sys2Proof.Claims
end

section
/-! PROOF. The tile instructions (R76, R117, R118, R120, R403, R404, Table 8-7). -/

namespace Sys2Proof.Claims

open Sys2Proof.Machine Sys2Proof.Laws

section
variable {i : Instr} {c : Ctl} {s t u : State} {g h k : Group} {run : Mask} {pc : Dword} {body : Served → Res} {z : Opd} {rows : List Nat} {tl : Tile}

@[simp] theorem headOf_rank (c : Ctl) (s : State) (g : Group) : (headOf c s g).rank = g.rank := by unfold headOf; split <;> rfl

theorem rankOfG_headOf (c : Ctl) (s : State) (g : Group) : rankOfG s (headOf c s g) = rankOfG s g := by
  rw [rankOfG, rankOfG, headOf_key, headOf_rank]

/-- A group that only its issue has changed is, but for that, as its checkpoint left it. -/
theorem rest_headOf (hr : withIssueOf g h = g) : withIssueOf (headOf c s g) h = headOf c s g :=
  calc withIssueOf (headOf c s g) h = withIssueOf (headOf c s g) (withIssueOf g h) := rfl
    _ = withIssueOf (headOf c s g) g := by rw [hr]
    _ = headOf c s g := by unfold headOf; cases c.hd <;> rfl

/-- An access of a class that no XFENCE of its group comes before is ordered by nothing more (R186). -/
theorem xgate_of_no_dst {cls : Nat} (hx : ∀ x ∈ g.arch.mem.xfences, x.dst ≠ cls) (seq : Nat) : xgate s g cls seq = some g := by
  have hm : (g.arch.mem.xfences.filter fun x => decide (x.dst = cls ∧ x.seq < seq)) = [] :=
    List.filter_eq_nil_iff.mpr fun x hm h => hx x hm (of_decide_eq_true h).1
  have hk : (g.arch.mem.xfences.filter fun x => decide (x.dst ≠ cls ∨ seq ≤ x.seq)) = g.arch.mem.xfences :=
    List.filter_eq_self.mpr fun x hm => decide_eq_true (.inl (hx x hm))
  simp only [xgate, hm, List.any_nil, List.foldl_nil, hk, Bool.false_eq_true, if_false]

/-! ## A free tile, and sound rows -/

theorem tileFree_headOf (F : TileFree s g z rows tl) (c : Ctl) : TileFree s (headOf c s g) z rows tl := by
  rwa [TileFree, rankOfG_headOf, headOf_key]

theorem tileBody_free {v : Served} (F : TileFree s v.g z rows tl) (f : Rank → Tile → Res) : tileBody v s (objNo z) rows f = f (rankOfG s v.g) tl := by
  obtain ⟨htile, hbusy, hroom⟩ := F
  rw [rankOfG] at htile hbusy
  simp only [tileBody, htile, hbusy, hroom, Bool.not_true, Bool.or_self, Bool.false_eq_true, if_false]
  rfl

theorem tileClean_sound (h : TileSound tl rows) (v : Served) (f : Unit → Res) : tileClean v s tl rows f = f () := by
  refine if_neg (Bool.eq_false_iff.mp (List.any_eq_false.mpr fun i hi => ?_))
  rw [h i hi]
  exact Bool.false_ne_true

/-! ## New images of some rows (R118) -/

/-- The shadow that a tile instruction of a group makes. -/
def newShadow (s : State) (g : Group) (rows : List (Nat × Row)) (cnt : Nat) : Shadow := ⟨(rankOfG s g).nextId, rows, cnt, [(g.key, g.seq)], none⟩

/-- A core rank with one shadow more in a tile. -/
def withShadow (z : Nat) (x : Shadow) (r : Rank) : Rank :=
  { r with z := r.z.modify z (fun t => { t with shadows := t.shadows ++ [x] }), nextId := x.id + 1 }

/-- What a tile write answers. -/
theorem tileWrite_eq (v : Served) (s : State) (cls z : Nat) (l : List (Nat × Row)) (cnt : Nat) (mx : BitVec 4) :
    tileWrite v s cls z l cnt mx = .flagged (onRank s v.g (withShadow z (newShadow s v.g l cnt)))
      (v.g.stage s.now cls (.tile v.g.rank z (rankOfG s v.g).nextId) []) mx := rfl

/-- A tile instruction that ends with new images of some rows has dispatched: the images stand in a shadow, whose release is staged. -/
theorem serve_tileWrite (A : Able i c s g run pc) {cls n cnt : Nat} {l : List (Nat × Row)} {mx : BitVec 4}
    (hb : body ⟨headOf c s g, run, active c g run, pc, i, c.hd⟩ = tileWrite ⟨k, run, active c g run, pc, i, c.hd⟩ u cls n l cnt mx)
    (K : Undispatched c s g k []) (hu : u.groups = s.groups) :
    ∃ t h, serve i c s body = .next t ∧
      Dispatched c s t g h run pc { entryOf i (headOf c s g) pc run (active c g run) 0 with mx := mx }
        (onRank u k (withShadow n (newShadow u k l cnt))) (k.stage u.now cls (.tile k.rank n (rankOfG u k).nextId) []) :=
  serve_flagged A (hb.trans (tileWrite_eq ..)) K.stage hu

/-- One that reads no memory changes nothing else, and no register. -/
theorem serve_tileWritten (A : Able i c s g run pc) {cnt : Nat} {l : List (Nat × Row)} {mx : BitVec 4}
    (hb : body ⟨headOf c s g, run, active c g run, pc, i, c.hd⟩ =
      tileWrite ⟨headOf c s g, run, active c g run, pc, i, c.hd⟩ s noClass (objNo z) l cnt mx) :
    ∃ t h, serve i c s body = .next t ∧
      Entered c s t g h run { entryOf i (headOf c s g) pc run (active c g run) 0 with mx := mx } (fun _ => nextPc pc) ∧
      SameArch (headOf c s g) h ∧ SameButStaged (headOf c s g) h ∧ TileWritten s t (headOf c s g) h noClass z l cnt := by
  obtain ⟨t, h, he, D⟩ := serve_tileWrite A hb (undispatched_headOf c s g) rfl
  exact ⟨t, h, he, D.toEntered, D.arch _, (congrArg (fun x : Group => { x with staged := (headOf c s g).staged }) (D.rest (headOf c s g)) :),
    D.world, D.staged, D.regs⟩

/-! ## ZCLR and ZPROM (R116, Table 8-7) -/

theorem exec_zclr (A : Able (.zclr c z) c s g run pc) (F : TileFree s g z (List.range 64) tl) :
    ∃ t h, exec (.zclr c z) s = .next t ∧
      Entered c s t g h run (entryOf (.zclr c z) (headOf c s g) pc run (active c g run) 0) (fun _ => nextPc pc) ∧
      SameArch (headOf c s g) h ∧ SameButStaged (headOf c s g) h ∧
      TileWritten s t (headOf c s g) h noClass z ((List.range 64).map fun i => (i, ⟨List.replicate 128 0, List.replicate 128 none, []⟩)) 0 :=
  serve_tileWritten A (tileBody_free (tileFree_headOf F c) _)

theorem exec_zprom (A : Able (.zprom c z) c s g run pc) (F : TileFree s g z (List.range 64) tl) (S : TileSound tl (List.range 64)) :
    ∃ t h, exec (.zprom c z) s = .next t ∧
      Entered c s t g h run { entryOf (.zprom c z) (headOf c s g) pc run (active c g run) 0 with
        mx := (List.range 64).foldl (fun f i => f ||| ((tl.row i).promote).2) 0 } (fun _ => nextPc pc) ∧
      SameArch (headOf c s g) h ∧ SameButStaged (headOf c s g) h ∧
      TileWritten s t (headOf c s g) h noClass z ((List.range 64).map fun i => (i, ((tl.row i).promote).1)) 0 := by
  refine serve_tileWritten A ((tileBody_free (tileFree_headOf F c) _).trans ((tileClean_sound S ..).trans ?_))
  simp only [List.map_map, List.foldl_map]
  rfl

/-! ## ZMOV (R403, R404) -/

theorem exec_zmovToVector {ty : Ty} {d pos : Opd} {row col : Nat} (A : Able (.zmovToVector c ty d z pos) c s g run pc) (F : TileFree s g z [] tl)
    (S : TileSound tl [row]) (hp : zPos (readRaw g.arch true pos 0).toNat g.w = some (row, col)) :
    ∃ t h, exec (.zmovToVector c ty d z pos) s = .next t ∧ Issued (.zmovToVector c ty d z pos) c s t g h run (active c g run) pc 0 ∧
      Written g.arch h.arch false d (active c g run) fun L => ((tl.row row).acc.getD (col + L) 0).setWidth 64 := by
  have hw := writeDst_regs g.arch false d (active c g run) fun L => ((tl.row row).acc.getD (col + L) 0).setWidth 64
  have hbad : Mask.ofLanes ((active c g run).lanes.filter fun L => (tl.row row).pois.contains ((col + L) / 2)) = 0 := by
    rw [S row (List.mem_singleton_self _)]
    simp [Mask.ofLanes]
  have hs : ∃ t h, exec (.zmovToVector c ty d z pos) s = .next t ∧ Issued (.zmovToVector c ty d z pos) c s t g h run (active c g run) pc 0 ∧
      SameRegs (writeDst g.arch false d (active c g run) fun L => ((tl.row row).acc.getD (col + L) 0).setWidth 64) h.arch := by
    refine serve_writes A hw.1 hw.2 ?_
    simp only [headOf_arch, headOf_w, hp]
    rw [tileBody_free (tileFree_headOf F c)]
    simp only [hbad, ne_eq, not_true_eq_false, if_false]
  obtain ⟨t, h, h1, h2, h3⟩ := hs
  exact ⟨t, h, h1, h2, written_of_regs (writeDst_written ..) h3⟩

/-- The row of a tile once ZMOV has written the columns that `new` names from a register. -/
theorem zmov_acc {acc : List Word} {new : Nat → Bool} {f : Nat → Word} {j : Nat} (hj : j < acc.length) :
    (acc.mapIdx fun j a => if new j then f j else a)[j]? = if new j = true then some (f j) else acc[j]? := by
  rw [List.getElem?_mapIdx, List.getElem?_eq_getElem hj]
  split <;> simp_all

theorem exec_zmovToTile {ty : Ty} {x pos : Opd} {row col : Nat} (A : Able (.zmovToTile c ty x z pos) c s g run pc) (F : TileFree s g z [row] tl)
    (hp : zPos (readRaw g.arch true pos 0).toNat g.w = some (row, col)) :
    let new := fun (j : Nat) => decide (col ≤ j) && decide (j < col + g.w) && (active c g run).has (j - col)
    ∃ t h, exec (.zmovToTile c ty x z pos) s = .next t ∧
      Entered c s t g h run (entryOf (.zmovToTile c ty x z pos) (headOf c s g) pc run (active c g run) 0) (fun _ => nextPc pc) ∧
      SameArch (headOf c s g) h ∧ SameButStaged (headOf c s g) h ∧
      TileWritten s t (headOf c s g) h noClass z [(row, { tl.row row with
        acc := (tl.row row).acc.mapIdx fun j a => if new j then g.arch.vreg (vecNo x) (j - col) else a
        pois := (tl.row row).pois.filter fun p => !(new (2 * p) && new (2 * p + 1)) })] tl.newCnt := by
  refine serve_tileWritten (mx := 0) A ?_
  simp only [headOf_arch, headOf_w, hp]
  exact tileBody_free (tileFree_headOf F c) _

/-! ## ZCPY (R120, R404) -/

section
variable {v : Served} {addr z rows : Opd} {tl : Tile} {s : State} {off first n : Nat} {write : Bool}

/-- What ZCPY asks: its rows, a line's offset in the scratchpad's allotment, a free tile and no XFENCE before its class. -/
theorem zcpyBody_ok (hr : zRows (readRaw v.g.arch true rows 0).toNat = some (first, n)) (ha : (readRaw v.g.arch true addr 0).toNat = off)
    (ho : off % 64 = 0) (hl : off + 512 * n ≤ s.allot v.g) (F : TileFree s v.g z (if write then (List.range n).map (first + ·) else []) tl)
    (hx : ∀ x ∈ v.g.arch.mem.xfences, x.dst ≠ 2) (body : Served → Tile → Nat → Nat → Nat → Res) :
    zcpyBody v s addr z rows write body = body v tl off first n := by
  simp only [zcpyBody, hr, ha, ho, ne_eq, not_true_eq_false, if_false, Nat.not_lt.mpr hl, tileBody_free F, xgate_of_no_dst hx]

end

theorem allot_headOf (c : Ctl) (s : State) (g : Group) : s.allot (headOf c s g) = s.allot g := by rw [State.allot, State.allot, headOf_key]

/-- The bytes of some rows of a tile, row by row and word by word. -/
def rowBytes (tl : Tile) (first n : Nat) : List Byte := (List.range n).flatMap fun i => (tl.row (first + i)).acc.flatMap fun a => leBytes 4 a.toNat

/-- The command of a ZCPY out of a tile. -/
def zcpyCmd (g : Group) (tl : Tile) (off first n : Nat) (pc : Dword) (act : Mask) : Cmd :=
  ⟨g.seq, 2, .zcpyOut, 512, rowBytes tl first n, (List.range n).map fun i => ⟨512 * i, 512, none, 0, 0⟩, .scr g.rank, off, 0, 512 * n, none, pc, act,
    false, false, 0⟩

section
variable {ty : Ty} {addr rws : Opd} {off first n : Nat}

theorem exec_zcpyToScratchpad (A : Able (.zcpyToScratchpad c ty addr z rws) c s g run pc) (F : TileFree s g z [] tl)
    (S : TileSound tl ((List.range n).map (first + ·))) (hr : zRows (readRaw g.arch true rws 0).toNat = some (first, n))
    (ha : (readRaw g.arch true addr 0).toNat = off) (ho : off % 64 = 0) (hl : off + 512 * n ≤ s.allot g)
    (hx : ∀ x ∈ g.arch.mem.xfences, x.dst ≠ 2) :
    ∃ t h, exec (.zcpyToScratchpad c ty addr z rws) s = .next t ∧
      Dispatched c s t g h run pc (entryOf (.zcpyToScratchpad c ty addr z rws) (headOf c s g) pc run (active c g run) 0) s
        { headOf c s g with cmds := (headOf c s g).cmds ++ [zcpyCmd (headOf c s g) tl off first n pc (active c g run)] } := by
  have hr' : zRows (readRaw (headOf c s g).arch true rws 0).toNat = some (first, n) := by rw [headOf_arch, hr]
  have ha' : (readRaw (headOf c s g).arch true addr 0).toNat = off := by rw [headOf_arch, ha]
  refine serve_acted A ?_ (undispatched_headOf c s g).cmds rfl
  refine (zcpyBody_ok (v := ⟨headOf c s g, run, active c g run, pc, _, c.hd⟩) hr' ha' ho (allot_headOf c s g ▸ hl) (tileFree_headOf F c)
    (headOf_arch c s g ▸ hx) _).trans (tileClean_sound S ..)

/-- A group that has seen what `m` says. -/
def seeing (g : Group) (m : MemOrder) : Group := { g with arch := { g.arch with mem := m } }

theorem undispatched_seeing (c : Ctl) (s : State) (g : Group) (m : MemOrder) : Undispatched c s g (seeing (headOf c s g) m) [] :=
  let K := undispatched_headOf c s g
  { K with }

/-- The chunk of the scratchpad that a ZCPY into a tile reads. -/
def zcpyChunk (g : Group) (off n : Nat) : Chunk := ⟨.scr g.rank, off, 512 * n, none, off⟩

/-- The images that it makes of its rows. -/
def zcpyRows (tl : Tile) (first n : Nat) (bytes : List Byte) : List (Nat × Row) :=
  (List.range n).map fun i => (first + i, { tl.row (first + i) with acc := wordsOfBytes 128 ((bytes.drop (512 * i)).take 512), pois := [] })

theorem zcpyChunk_headOf (c : Ctl) (s : State) (g : Group) (off n : Nat) : zcpyChunk (headOf c s g) off n = zcpyChunk g off n := by
  rw [zcpyChunk, zcpyChunk, headOf_rank]

@[simp] theorem headOf_core (c : Ctl) (s : State) (g : Group) : (headOf c s g).core = g.core := by unfold headOf; split <;> rfl

theorem fwdPois_unstaged (g : Group) (x : Target) (a : Nat) : Group.fwdPois { g with staged := [] } x a = false := rfl

theorem wordSeen_congr (hk : h.key = g.key) (hc : h.core = g.core) (x : Target) (o : Option Nat) (w : Nat) :
    s.wordSeen h x o w = s.wordSeen g x o w := by
  simp only [State.wordSeen, hk, hc]

/-- An engine reads no staged store of its own group (R48), so none of them bears on what is sound for it. -/
theorem chunkSound_headOf {a : Acc} {k : Chunk} (S : Sound s g a) (hk : k ∈ a.chunks) (c : Ctl) : ChunkSound s { headOf c s g with staged := [] } k :=
  ⟨fun w hw o => (congrArg WordState.pois (wordSeen_congr (headOf_key ..) (headOf_core ..) ..)).trans ((S k hk).1 w hw o),
    fun _ _ => fwdPois_unstaged ..⟩

theorem loadChunk_sound {k : Chunk} (S : ChunkSound s g k) (v : View) :
    ∃ n, (s.loadChunk g v false k).1 = { s with fresh := n } ∧ ChunkRead s g v k (s.loadChunk g v false k).2.bytes ∧
      (s.loadChunk g v false k).2.pois = [] := loadChunk_read S v s.fresh

/-- What the memory order of a group is once its engine class 2 has seen `w`. -/
def sawTile (m : MemOrder) (w : View) : MemOrder := { m with seen := m.seen.modify 1 fun y => View.join y w }

/-- What a ZCPY into a tile does once it may. -/
def zcpyLoad (z : Opd) (s : State) (v : Served) (tl : Tile) (off first n : Nat) : Res :=
  let x := s.loadChunk { v.g with staged := [] } (v.g.mustSee 2) false (zcpyChunk v.g off n)
  if x.2.pois ≠ [] then v.trap s 0x0B v.act off
  else tileWrite { v with g := seeing v.g (sawTile v.g.arch.mem x.2.saw) } x.1 2 (objNo z) (zcpyRows tl first n x.2.bytes) tl.newCnt 0

/-- With no poison in what it reads, it writes what it has read. -/
theorem zcpyLoad_sound {v : Served} (S : ChunkSound s { v.g with staged := [] } (zcpyChunk v.g off n)) :
    ∃ m n' bytes, ChunkRead s { v.g with staged := [] } (v.g.mustSee 2) (zcpyChunk v.g off n) bytes ∧
      zcpyLoad z s v tl off first n =
        tileWrite { v with g := seeing v.g m } { s with fresh := n' } 2 (objNo z) (zcpyRows tl first n bytes) tl.newCnt 0 := by
  obtain ⟨n', hload, hread, hpois⟩ := loadChunk_sound S (v.g.mustSee 2)
  exact ⟨_, n', _, hread, by rw [zcpyLoad, hpois, if_neg (not_not_intro rfl), hload]⟩

/-- What it leaves of the world and of its group. -/
theorem zcpyToTile_leaves {q : Group} {m : MemOrder} {n' cls : Nat} {l : List (Nat × Row)} {cnt : Nat} {e : Entry}
    (D : Dispatched c s t g h run pc e
      (onRank { s with fresh := n' } (seeing q m) (withShadow (objNo z) (newShadow { s with fresh := n' } (seeing q m) l cnt)))
      ((seeing q m).stage s.now cls (.tile q.rank (objNo z) (rankOfG { s with fresh := n' } (seeing q m)).nextId) [])) :
    SameButMem q h ∧ SameRegs q.arch h.arch ∧ SameButStaged q h ∧ t.ram = s.ram ∧
      h.staged.map Effect.kind = q.staged.map Effect.kind ++ [.tile q.rank (objNo z) (rankOfG s q).nextId] ∧
      t.teams = (onRank s q (withShadow (objNo z) (newShadow s q l cnt))).teams := by
  refine ⟨(congrArg (fun a : Arch => { a with mem := q.arch.mem }) (D.arch q.arch) :), D.regs,
    (congrArg (fun x : Group => { x with staged := q.staged }) (D.rest q) :), (congrArg State.ram D.world :), ?_, D.teams⟩
  rw [D.staged]
  exact List.map_append

theorem exec_zcpyToTile (A : Able (.zcpyToTile c ty addr z rws) c s g run pc) (F : TileFree s g z ((List.range n).map (first + ·)) tl)
    (hr : zRows (readRaw g.arch true rws 0).toNat = some (first, n))
    (ha : (readRaw g.arch true addr 0).toNat = off) (ho : off % 64 = 0) (hl : off + 512 * n ≤ s.allot g)
    (hx : ∀ x ∈ g.arch.mem.xfences, x.dst ≠ 2) (S : Sound s g ⟨0, off, [zcpyChunk g off n]⟩) :
    ∃ t h m n' bytes, exec (.zcpyToTile c ty addr z rws) s = .next t ∧
      ChunkRead s { headOf c s g with staged := [] } ((headOf c s g).mustSee 2) (zcpyChunk (headOf c s g) off n) bytes ∧
      Dispatched c s t g h run pc (entryOf (.zcpyToTile c ty addr z rws) (headOf c s g) pc run (active c g run) 0)
        (onRank { s with fresh := n' } (seeing (headOf c s g) m)
          (withShadow (objNo z) (newShadow { s with fresh := n' } (seeing (headOf c s g) m) (zcpyRows tl first n bytes) tl.newCnt)))
        ((seeing (headOf c s g) m).stage s.now 2 (.tile (headOf c s g).rank (objNo z) (rankOfG { s with fresh := n' } (seeing (headOf c s g) m)).nextId)
          []) := by
  have hr' : zRows (readRaw (headOf c s g).arch true rws 0).toNat = some (first, n) := by rw [headOf_arch, hr]
  have ha' : (readRaw (headOf c s g).arch true addr 0).toNat = off := by rw [headOf_arch, ha]
  have hl' : off + 512 * n ≤ s.allot (headOf c s g) := allot_headOf c s g ▸ hl
  have hx' : ∀ x ∈ (headOf c s g).arch.mem.xfences, x.dst ≠ 2 := headOf_arch c s g ▸ hx
  have S' : ChunkSound s { headOf c s g with staged := [] } (zcpyChunk (headOf c s g) off n) :=
    chunkSound_headOf S (by rw [zcpyChunk_headOf]; exact List.mem_singleton_self _) c
  obtain ⟨m, n', bytes, hread, hload⟩ := zcpyLoad_sound (v := ⟨headOf c s g, run, active c g run, pc, .zcpyToTile c ty addr z rws, c.hd⟩)
    (z := z) (tl := tl) (first := first) S'
  have hb := (zcpyBody_ok (v := ⟨headOf c s g, run, active c g run, pc, .zcpyToTile c ty addr z rws, c.hd⟩) (write := true) hr' ha' ho hl'
    (tileFree_headOf F c) hx' (zcpyLoad z s)).trans hload
  obtain ⟨t, h, he, D⟩ := serve_tileWrite (body := fun v => zcpyBody v s addr z rws true (zcpyLoad z s)) A hb (undispatched_seeing c s g m) rfl
  exact ⟨t, h, m, n', bytes, he, hread, D⟩

end
end

/-- Settles O27: each tile instruction passes its checks on a free tile; those that write one end in the same tile write. -/
theorem tileInstructions : Obligations.TileInstructions := by
  unfold Obligations.TileInstructions
  intro c ty d z pos addr rows tl row col first n off
  refine ⟨fun s g run pc A _ F => exec_zclr A F, fun s g run pc A _ ⟨F, S⟩ => exec_zprom A F S, ?_, ?_, ?_, ?_⟩
  · rintro s g run pc A ⟨F, S, hp⟩
    obtain ⟨t, h, he, hI, hw⟩ := exec_zmovToVector (d := d) A F S hp
    refine ⟨t, h, he, hI.toEntered, hI.world, ?_, rest_headOf hI.rest, ?_⟩
    · exact (congrArg (fun a => withRegsOf a h.arch = a) (headOf_arch c s g)).mpr hI.arch
    · rwa [headOf_arch]
  · rintro s g run pc A - ⟨F, hp⟩
    obtain ⟨t, h, he, hE, ha, hst, hw⟩ := exec_zmovToTile A F hp
    refine ⟨t, h, he, hE, ha, hst, _, _, hw, fun p => ?_, fun j hj => (zmov_acc hj).trans ?_⟩
    · simp only [headOf_w, List.mem_filter, forall_eq_or_imp, forall_eq, Bool.not_eq_true', Bool.eq_false_iff, ne_eq, Bool.and_eq_true,
        decide_eq_true_eq, and_assoc]
    · simp only [headOf_w, headOf_arch, Bool.and_eq_true, decide_eq_true_eq, and_assoc]
  · rintro s g run pc A ⟨F, S, hr, ha, ho, hl, hx⟩
    obtain ⟨t, h, he, D⟩ := exec_zcpyToScratchpad A F S hr ha ho hl hx
    exact ⟨t, h, he, D.toEntered, D.world, D.arch _, D.regs, (congrArg (fun x : Group => { x with cmds := (headOf c s g).cmds }) (D.rest (headOf c s g)) :),
      _, D.cmds, rfl, rfl, rfl, rfl, rfl, rfl⟩
  · rintro s g run pc A - ⟨F, hr, ha, ho, hl, hx, S⟩
    obtain ⟨t, h, m, n', bytes, he, hread, D⟩ := exec_zcpyToTile A F hr ha ho hl hx S
    obtain ⟨hm, hregs, hst, hram, hkind, hteams⟩ := zcpyToTile_leaves D
    exact ⟨t, h, he, D.toEntered, hm, hregs, hst, hram, hkind, bytes, ⟨[bytes], .cons hread .nil, (List.append_nil bytes).symm⟩, hteams⟩

end Sys2Proof.Claims
end

section
/-! PROOF. TMAC: a signature, and the generation that it closes (R33, R76, R107 to R109, R122). -/

namespace Sys2Proof.Claims

open Sys2Proof.Machine Sys2Proof.Laws

/-! ## A core rank that is changed -/

section
variable {s : State} {k : TeamKey} {r c : Nat} {f : Rank → Rank}

theorem blk_updRank (s : State) (k q : TeamKey) (r : Nat) (f : Rank → Rank) :
    ((s.updRank k r f).team? q).map Team.blk = (s.team? q).map Team.blk := by
  rw [State.updRank, team_updTeam s k q _ fun t => updRank_key t r f]
  split
  · rw [Option.map_map]
    congr 1
    funext t
    simp only [Function.comp, Team.updRank]
    split <;> rfl
  · rfl

/-- Whether a group of a core rank has retired. -/
theorem someRetired_eq (s : State) (k : TeamKey) (r : Nat) : s.someRetired k r =
    ((s.team? k).map Team.blk).any fun b => decide ((s.groups.filter fun g => g.key.team = k && g.rank == r).length < b.onRank r) := by
  unfold State.someRetired
  cases s.team? k <;> rfl

theorem someRetired_updRank (q : TeamKey) (n : Nat) : (s.updRank k r f).someRetired q n = s.someRetired q n := by
  rw [someRetired_eq, someRetired_eq, blk_updRank]
  rfl

/-- None has while no group leaves. -/
theorem someRetired_setGroup {h : Group} (hs : s.someRetired h.key.team h.rank = false) : (s.setGroup h).someRetired h.key.team h.rank = false := by
  have hlen : (s.groups.filter fun g => g.key.team = h.key.team && g.rank == h.rank).length ≤
      ((s.setGroup h).groups.filter fun g => g.key.team = h.key.team && g.rank == h.rank).length := by
    rw [← List.countP_eq_length_filter, ← List.countP_eq_length_filter, setGroup_groups, List.countP_map]
    refine List.countP_mono_left fun g _ hg => ?_
    simp only [Function.comp]
    split
    · simp
    · exact hg
  rw [someRetired_eq, Option.any_eq_false] at hs ⊢
  exact fun b hb => decide_eq_false (not_lt.mpr ((not_lt.mp (of_decide_eq_false (hs b hb))).trans hlen))

/-- The width of a team's groups (R27). -/
theorem width_updRank (s : State) (k q : TeamKey) (r : Nat) (f : Rank → Rank) :
    ((s.updRank k r f).team? q).map (fun t => t.blk.width) = (s.team? q).map fun t => t.blk.width := by
  have h := congrArg (Option.map Launch.width) (blk_updRank s k q r f)
  rwa [Option.map_map, Option.map_map] at h

end

/-! ## An open generation that nothing is wrong with (R109, R409) -/

section
variable {s : State} {k : TeamKey} {r c : Nat} {cnt : Option Nat} {l : List Sign} {kind : List Sign → Option Nat}

theorem rankOf_setConv (hr : (s.rank? k r).isSome = true) (x : Conv) : (s.setConv k r c x).rankOf k r = (s.rankOf k r).setConv c x :=
  (rankOf_updRank hr _).trans (if_pos ⟨rfl, rfl⟩)

theorem rank?_setConv_isSome (x : Conv) : ((s.setConv k r c x).rank? k r).isSome = (s.rank? k r).isSome := rank?_updRank_isSome _

theorem conv_of_setConv (hr : (s.rank? k r).isSome = true) (x : Conv) : ((s.setConv k r c x).rankOf k r).conv c = x := by
  rw [rankOf_setConv hr, conv_setConv, if_pos rfl]

/-- Where no open generation has met the fault, none is voided. -/
theorem voidGens_open (hc : (s.rankOf k r).conv c = ⟨cnt, [], l⟩) (hk : kind l = none) : s.voidGens k r c kind = s.setConv k r c ⟨cnt, [], l⟩ := by
  simp [State.voidGens, hc, hk, Conv.gens]

/-- A generation short of its count, or before one is declared, stays open. -/
theorem judge_open (hr : (s.rank? k r).isSome = true) (hc : (s.rankOf k r).conv c = ⟨cnt, [], l⟩) (hk : genKind cnt l = none)
    (hn : cnt ≠ some (genCount l)) : s.judge k r c = s.setConv k r c ⟨cnt, [], l⟩ := by
  have hv : s.voidBad k r c = s.setConv k r c ⟨cnt, [], l⟩ := voidGens_open hc (by rw [hc]; exact hk)
  have hc' := conv_of_setConv (c := c) hr ⟨cnt, [], l⟩
  rw [State.judge, hv, hc']
  show State.closeAll 1 _ k r c = _
  cases cnt with
  | none => simp only [State.closeAll, hc']
  | some m => simp only [State.closeAll, hc', if_neg fun h => hn (congrArg some h).symm]

/-- The machine once a generation without a fault has closed: its operation is queued (R107). -/
def queued (s : State) (k : TeamKey) (r c : Nat) (l : List Sign) : State :=
  s.updRank k r fun y => { y with ops := queueOp y.ops ⟨y.nextId, c, l, none, false, s.now⟩, nextId := y.nextId + 1 }

/-- A fault of a closing generation rests on nothing that a convergence register holds. -/
theorem closeFault_setConv (y : Rank) (w c n : Nat) (x : Conv) (l : List Sign) : closeFault (y.setConv n x) w c l = closeFault y w c l := rfl

theorem bQuarter_setConv (y : Rank) (w n : Nat) (x : Conv) (z : Sign) : bQuarter (y.setConv n x) w z = bQuarter y w z := rfl

theorem closeGen_clean (hf : closeFault (s.rankOf k r) (((s.team? k).map fun t => t.blk.width).getD 64) c l = none)
    (hp : ∀ x ∈ l, x.poisoned (bQuarter (s.rankOf k r) (((s.team? k).map fun t => t.blk.width).getD 64) (l.headD default)) = 0) :
    s.closeGen k r c none l = queued s k r c l := by
  simp only [State.closeGen, hf]
  generalize bQuarter (s.rankOf k r) (((s.team? k).map fun t => t.blk.width).getD 64) (l.headD default) = n at hp ⊢
  have hfold : ∀ (m : List Sign) (t : State), (∀ x ∈ m, x.poisoned n = 0) →
      m.foldl (fun t x => if x.poisoned n = 0 then t else t.faultEntry x.group x.seq 0x0B (x.poisoned n) 0) t = t := fun m => by
    induction m with
    | nil => exact fun _ _ => rfl
    | cons x m ih =>
      intro t hm
      rw [List.foldl_cons, if_pos (hm x List.mem_cons_self)]
      exact ih t fun y hy => hm y (List.mem_cons_of_mem _ hy)
  exact hfold l _ hp

/-- One that has reached its count, and with which nothing is wrong (R109, R122), closes. -/
theorem judge_closes (hr : (s.rank? k r).isSome = true) (hc : (s.rankOf k r).conv c = ⟨cnt, [], l⟩) (hk : genKind cnt l = none)
    (hn : cnt = some (genCount l)) (hf : closeFault (s.rankOf k r) (((s.team? k).map fun t => t.blk.width).getD 64) c l = none)
    (hp : ∀ x ∈ l, x.poisoned (bQuarter (s.rankOf k r) (((s.team? k).map fun t => t.blk.width).getD 64) (l.headD default)) = 0) :
    s.judge k r c = queued ((s.setConv k r c ⟨cnt, [], l⟩).setConv k r c ⟨cnt, [], []⟩) k r c l := by
  have hv : s.voidBad k r c = s.setConv k r c ⟨cnt, [], l⟩ := voidGens_open hc (by rw [hc]; exact hk)
  have hc' := conv_of_setConv (c := c) hr ⟨cnt, [], l⟩
  have hr' := (rank?_setConv_isSome (c := c) ⟨cnt, [], l⟩).trans hr
  rw [State.judge, hv, hc']
  show State.closeAll 1 _ k r c = _
  subst hn
  simp only [State.closeAll, hc', if_true]
  refine closeGen_clean ?_ ?_
  · rw [rankOf_setConv hr', rankOf_setConv hr, closeFault_setConv, closeFault_setConv, State.setConv, State.setConv, width_updRank, width_updRank]
    exact hf
  · rw [rankOf_setConv hr', rankOf_setConv hr, bQuarter_setConv, bQuarter_setConv, State.setConv, State.setConv, width_updRank, width_updRank]
    exact hp

/-- While no group of the core rank has retired, a signature is judged no further (R109). -/
theorem signed_of_judge (hret : (s.judge k r c).someRetired k r = false) : s.signed k r c = s.judge k r c := by
  simp only [State.signed, hret, Bool.and_false, Bool.false_eq_true, if_false]

end

/-! ## A signature (R107) -/

section
variable {i : Instr} {c : Ctl} {s t : State} {g h : Group} {run : Mask} {pc : Dword} {vb : Opd} {n : Nat} {cnt : Option Nat} {cur : List Sign}

theorem headOf_here (c : Ctl) (s : State) (g : Group) : (headOf c s g).here = g.here := by unfold headOf; split <;> rfl

theorem onRank_headOf (c : Ctl) (s : State) (g : Group) (f : Rank → Rank) : onRank s (headOf c s g) f = onRank s g f := by
  rw [onRank, onRank, headOf_key, headOf_rank]

/-- A signature in a register without old generations stands in the current one (R409). -/
theorem sign_current (x : Sign) : Conv.sign ⟨cnt, [], cur⟩ x = ⟨cnt, [], cur ++ [x]⟩ := rfl

/-- A TMAC that no XFENCE comes before signs its convergence register. -/
theorem tmacBody_signs {v : Served} (hx : ∀ x ∈ v.g.arch.mem.xfences, x.dst ≠ 2) (hr : v.run = v.g.here) (ha : v.act = active c v.g v.g.here) :
    tmacBody i (vecNo vb) n s v = .done (onRank s v.g fun r => r.setConv n ((r.conv n).sign (signOf i vb c v.g v.pc))) v.g 0 := by
  simp only [tmacBody, xgate_of_no_dst hx, signOf, hr, ha]
  rfl

/-- A core rank with a signature more in a convergence register. -/
def signedRank (n : Nat) (x : Sign) (r : Rank) : Rank := r.setConv n ((r.conv n).sign x)

/-- A gathered TMAC signs, dispatches for every thread that counts, and has its register judged. -/
theorem exec_tmac {ng : Bool} {ty : Ty} {z bq p : Opd} {cr : Fin 16} (A : Gathered (.tmac c ng ty z bq vb (.creg cr) p) c s g run pc)
    (hx : ∀ x ∈ g.arch.mem.xfences, x.dst ≠ 2) :
    ∃ t h, exec (.tmac c ng ty z bq vb (.creg cr) p) s = .next (t.signed g.key.team g.rank cr.val) ∧
      Dispatched c s t g h g.here pc
        (entryOf (.tmac c ng ty z bq vb (.creg cr) p) (headOf c s g) pc g.here (active c g g.here) 0)
        (onRank s g (signedRank cr.val (signOf (.tmac c ng ty z bq vb (.creg cr) p) vb c (headOf c s g) pc)))
        { headOf c s g with coll := 0 } := by
  set i : Instr := .tmac c ng ty z bq vb (.creg cr) p with hi
  have hx' : ∀ x ∈ (headOf c s g).arch.mem.xfences, x.dst ≠ 2 := by rwa [headOf_arch]
  have hb := tmacBody_signs (i := i) (c := c) (s := s) (vb := vb) (n := cr.val)
    (v := ⟨{ headOf c s g with coll := 0 }, g.here, active c g g.here, pc, i, c.hd⟩) hx' (headOf_here c s g).symm (by
      show active c g g.here = (headOf c s g).here &&& guardOf (headOf c s g).arch c
      rw [headOf_here, headOf_arch]
      rfl)
  have hu : onRank s { headOf c s g with coll := 0 } (signedRank cr.val (signOf i vb c (headOf c s g) pc)) =
      onRank s g (signedRank cr.val (signOf i vb c (headOf c s g) pc)) := onRank_headOf c s g _
  have K := undispatched_headOf c s g
  obtain ⟨t, h, he, D⟩ := serve_gathered_acted A (hb.trans (congrArg (fun u => Res.done u { headOf c s g with coll := 0 } 0) hu)) { K with } rfl
  refine ⟨t, h, ?_, D⟩
  show execTmac c ng ty z bq vb (.creg cr) p s = _
  have hs : served i s c = some ⟨g, run, run &&& guardOf g.arch c, pc, i, false⟩ := served_of A.toTurn i c
  simp only [execTmac, ← hi, hs]
  rw [show objNo (.creg cr) = cr.val from rfl, he]

theorem rank?_of_lt (h : g.rank < s.rankCount g) : (s.rank? g.key.team g.rank).isSome = true := by
  unfold State.rankCount at h
  unfold State.rank?
  cases hm : s.team? g.key.team with
  | none => simp [hm] at h
  | some tm => simpa [hm] using h

/-- What a signature leaves of its machine before its register is judged. -/
structure Signed (s t : State) (g : Group) (n : Nat) (cnt : Option Nat) (l : List Sign) : Prop where
  there   : (t.rank? g.key.team g.rank).isSome = true
  conv    : (t.rankOf g.key.team g.rank).conv n = ⟨cnt, [], l⟩
  same    : { t.rankOf g.key.team g.rank with c := (rankOfG s g).c } = rankOfG s g
  retired : t.someRetired g.key.team g.rank = false
  width   : (t.team? g.key.team).map (fun t => t.blk.width) = (s.team? g.key.team).map fun t => t.blk.width
  world   : { t with groups := s.groups, teams := s.teams } = s
  others  : ∀ q r, (q, r) ≠ (g.key.team, g.rank) → t.rankOf q r = s.rankOf q r

theorem signed_of_dispatched {e : Entry} {k : Group} {x : Sign} (hr : g.rank < s.rankCount g) (hret : s.someRetired g.key.team g.rank = false)
    (hc : (rankOfG s g).conv n = ⟨cnt, [], cur⟩) (D : Dispatched c s t g h run pc e (onRank s g (signedRank n x)) k)
    (hk : k.key = g.key) (hkr : k.rank = g.rank) : Signed s t g n cnt (cur ++ [x]) := by
  have hthere := rank?_of_lt hr
  have hrank : (onRank s g (signedRank n x)).rankOf g.key.team g.rank = signedRank n x (rankOfG s g) :=
    (rankOf_updRank hthere _).trans (if_pos ⟨rfl, rfl⟩)
  have hkey : h.key = g.key := (congrArg Group.key (D.rest k) :).trans hk
  have hhr : h.rank = g.rank := (congrArg Machine.Group.rank (D.rest k) :).trans hkr
  rw [D.state]
  refine ⟨(rank?_updRank_isSome _).trans hthere, ?_, ?_, ?_, width_updRank .., rfl, fun q r hq => ?_⟩
  · show ((onRank s g (signedRank n x)).rankOf g.key.team g.rank).conv n = _
    rw [hrank, signedRank, conv_setConv, if_pos rfl, hc, sign_current]
  · show { (onRank s g (signedRank n x)).rankOf g.key.team g.rank with c := (rankOfG s g).c } = _
    rw [hrank]
    rfl
  · rw [← hkey, ← hhr]
    refine someRetired_setGroup ?_
    rw [onRank, someRetired_updRank, hkey, hhr]
    exact hret
  · exact (rankOf_updRank hthere _).trans (if_neg fun h => hq (Prod.ext h.1 h.2))

end

/-! ## What judging leaves (R107, R108) -/

section
variable {s t : State} {g : Group} {n : Nat} {cnt : Option Nat} {l : List Sign}

/-- A signature that leaves its generation open. -/
theorem Signed.opens (S : Signed s t g n cnt l) (hk : genKind cnt l = none) (hn : cnt ≠ some (genCount l)) :
    t.signed g.key.team g.rank n = t.setConv g.key.team g.rank n ⟨cnt, [], l⟩ := by
  have hj := judge_open S.there S.conv hk hn
  rw [signed_of_judge, hj]
  rw [hj, State.setConv, someRetired_updRank]
  exact S.retired

/-- One that closes it. -/
theorem Signed.closes (S : Signed s t g n cnt l) (hk : genKind cnt l = none) (hn : cnt = some (genCount l))
    (hf : closeFault (rankOfG s g) (((s.team? g.key.team).map fun t => t.blk.width).getD 64) n l = none)
    (hp : ∀ x ∈ l, x.poisoned (bQuarter (rankOfG s g) (((s.team? g.key.team).map fun t => t.blk.width).getD 64) (l.headD default)) = 0) :
    t.signed g.key.team g.rank n =
      queued ((t.setConv g.key.team g.rank n ⟨cnt, [], l⟩).setConv g.key.team g.rank n ⟨cnt, [], []⟩) g.key.team g.rank n l := by
  have hf' : closeFault (t.rankOf g.key.team g.rank) (((t.team? g.key.team).map fun t => t.blk.width).getD 64) n l = none := by
    rw [S.width, ← hf, ← S.same]
    rfl
  have hp' : ∀ x ∈ l, x.poisoned (bQuarter (t.rankOf g.key.team g.rank) (((t.team? g.key.team).map fun t => t.blk.width).getD 64) (l.headD default)) = 0 := by
    rw [S.width]
    rw [← S.same] at hp
    exact hp
  have hj := judge_closes S.there S.conv hk hn hf' hp'
  rw [signed_of_judge, hj]
  rw [hj, queued, State.setConv, State.setConv, someRetired_updRank, someRetired_updRank, someRetired_updRank]
  exact S.retired

theorem rankOf_queued {k : TeamKey} {r : Nat} (hr : (s.rank? k r).isSome = true) : (queued s k r n l).rankOf k r =
    { s.rankOf k r with
      ops := queueOp (s.rankOf k r).ops ⟨(s.rankOf k r).nextId, n, l, none, false, s.now⟩, nextId := (s.rankOf k r).nextId + 1 } :=
  (rankOf_updRank hr _).trans (if_pos ⟨rfl, rfl⟩)

end

section
variable {c : Ctl} {s t t' u : State} {g h : Group} {run : Mask} {pc : Dword} {e : Entry} {n : Nat} {cnt : Option Nat} {l : List Sign}

/-- What judging a signature leaves of the machine: the groups, the world and the other core ranks. -/
structure Judged (s t t' : State) (g : Group) : Prop where
  groups : t'.groups = t.groups
  world  : { t' with groups := s.groups, teams := s.teams } = s
  others : ∀ q r, (q, r) ≠ (g.key.team, g.rank) → t'.rankOf q r = s.rankOf q r

/-- A change of the core rank keeps them. -/
theorem Judged.updRank (J : Judged s t t' g) (hr : (t'.rank? g.key.team g.rank).isSome = true) (f : Rank → Rank) :
    Judged s t (t'.updRank g.key.team g.rank f) g :=
  ⟨J.groups, J.world, fun q r hq => ((rankOf_updRank hr f).trans (if_neg fun h => hq (Prod.ext h.1 h.2))).trans (J.others q r hq)⟩

theorem Signed.judged (S : Signed s t g n cnt l) : Judged s t t g := ⟨rfl, S.world, S.others⟩

/-- The signature stands in the open generation. -/
theorem Signed.judged_open (S : Signed s t g n cnt l) :
    let t' := t.setConv g.key.team g.rank n ⟨cnt, [], l⟩
    Judged s t t' g ∧ (rankOfG t' g).conv n = ⟨cnt, [], l⟩ ∧ { rankOfG t' g with c := (rankOfG s g).c } = rankOfG s g := by
  refine ⟨S.judged.updRank S.there _, conv_of_setConv S.there _, ?_⟩
  rw [rankOfG, rankOf_setConv S.there]
  exact S.same

/-- The generation closes, and its operation is queued. -/
theorem Signed.judged_closed (S : Signed s t g n cnt l) :
    let t' := queued ((t.setConv g.key.team g.rank n ⟨cnt, [], l⟩).setConv g.key.team g.rank n ⟨cnt, [], []⟩) g.key.team g.rank n l
    Judged s t t' g ∧ (rankOfG t' g).conv n = ⟨cnt, [], []⟩ ∧
      { rankOfG t' g with c := (rankOfG s g).c, ops := (rankOfG s g).ops, nextId := (rankOfG s g).nextId } = rankOfG s g ∧
      (rankOfG t' g).ops = queueOp (rankOfG s g).ops ⟨(rankOfG s g).nextId, n, l, none, false, s.now⟩ := by
  have h₁ := (rank?_setConv_isSome (c := n) ⟨cnt, [], l⟩).trans S.there
  have h₂ := (rank?_setConv_isSome (c := n) ⟨cnt, [], []⟩).trans h₁
  have hops : (t.rankOf g.key.team g.rank).ops = (rankOfG s g).ops := (congrArg Rank.ops S.same :)
  have hid : (t.rankOf g.key.team g.rank).nextId = (rankOfG s g).nextId := (congrArg Rank.nextId S.same :)
  have hnow : t.now = s.now := (congrArg State.now S.world :)
  refine ⟨((S.judged.updRank S.there _).updRank h₁ _).updRank h₂ _, ?_⟩
  rw [rankOfG, rankOf_queued h₂]
  refine ⟨conv_of_setConv h₁ _, ?_, ?_⟩
  · rw [rankOf_setConv h₁, rankOf_setConv S.there]
    rw [← hops, ← hid]
    exact S.same
  · rw [rankOf_setConv h₁, rankOf_setConv S.there, ← hops, ← hid, ← hnow]
    rfl

/-- A dispatched instruction has entered its entry also where the groups have been judged no further. -/
theorem Dispatched.entered_gathered (D : Dispatched c s t g h run pc e u { headOf c s g with coll := 0 }) (J : Judged s t t' g) :
    Entered c s t' { g with coll := 0 } h run e fun _ => nextPc pc := by
  obtain ⟨others, mine, entry, seq, ckpts, objs, pcs⟩ := D.toEntered
  refine ⟨fun q hq => ?_, ?_, entry, seq.trans ?_, ckpts.trans ?_, objs, pcs⟩
  · rw [State.group?, J.groups]
    exact others q hq
  · rw [State.group?, J.groups]
    exact mine
  all_goals
    unfold headOf
    split <;> rfl

end

/-- Settles O26: a TMAC signs, and its register is judged; the signature stands in the open generation or closes it. -/
theorem matrixSignature : Obligations.MatrixSignature := by
  unfold Obligations.MatrixSignature
  intro c ng ty z bq vb p cr cnt cur i s g run pc A hvb hx hrank hret hc hcur l hk w hclose
  obtain ⟨t, h, he, D⟩ := exec_tmac A hx
  have S : Signed s t g cr.val cnt l := signed_of_dispatched hrank hret hc D (headOf_key ..) (headOf_rank ..)
  have ha : { headOf c s g with coll := 0 }.arch = g.arch := headOf_arch c s g
  have hA : SameArch g h := by
    rw [SameArch, D.arch, ha]
    rfl
  have hR : SameRegs g.arch h.arch := by
    rw [← ha]
    exact D.regs
  by_cases hn : cnt = some (genCount l)
  · obtain ⟨-, hf, hp⟩ := hclose hn
    obtain ⟨J, hconv, hsame, hops⟩ := S.judged_closed
    rw [S.closes hk hn hf hp] at he
    exact ⟨_, h, he, D.entered_gathered J, hA, hR, J.world, J.others, fun h => absurd hn h, fun _ => ⟨hconv, hsame, hops⟩⟩
  · obtain ⟨J, hconv, hsame⟩ := S.judged_open
    rw [S.opens hk hn] at he
    exact ⟨_, h, he, D.entered_gathered J, hA, hR, J.world, J.others, fun _ => ⟨hconv, hsame⟩, fun h => absurd h hn⟩

end Sys2Proof.Claims
end

section
/-! PROOF. The events of the matrix arrays, and the integer chain (R104, R107, R112, R115, R116, R118). -/

namespace Sys2Proof.Claims

open Sys2Proof.Machine Sys2Proof.Laws

/-! ## MATRIX_OPERATION_ISSUE and RESERVATION_INVALIDATE (R104, R107) -/

section
variable {k : TeamKey} {rank : Nat} {s : State}

theorem exec_matrixOperationIssue {o : MatOp} {r : Rank} {slot : Option (Nat × Nat)} (ho : s.opReady k rank = some (o, r, slot))
    (hm : s.mayStart (s.coreOf k rank).die (s.coreOf k rank).cluster = true) :
    exec (.matrixOperationIssue k rank) s =
      .next ((s.updRank k rank fun _ => { r with ops := { o with started := true, slot := slot } :: r.ops.tail }).noteStart
        (s.coreOf k rank).die (s.coreOf k rank).cluster) := by
  show execMatrixOperationIssue k rank s = _
  simp only [execMatrixOperationIssue, ho, hm, Bool.not_true, Bool.false_eq_true, if_false]

theorem issues {o : MatOp} {r : Rank} {slot : Option (Nat × Nat)} (hr : (s.rank? k rank).isSome = true) (ho : s.opReady k rank = some (o, r, slot))
    (hm : s.mayStart (s.coreOf k rank).die (s.coreOf k rank).cluster = true) :
    ∃ t, exec (.matrixOperationIssue k rank) s = .next t ∧ t.ram = s.ram ∧ t.groups = s.groups ∧ t.parts = s.parts ∧
      t.rankOf k rank = { r with ops := { o with started := true, slot := slot } :: r.ops.tail } ∧
      ∀ q n, (q, n) ≠ (k, rank) → t.rankOf q n = s.rankOf q n := by
  refine ⟨_, exec_matrixOperationIssue ho hm, rfl, rfl, rfl, ?_, fun q n hq => ?_⟩
  · exact (rankOf_updRank hr _).trans (if_pos ⟨rfl, rfl⟩)
  · exact (rankOf_updRank hr _).trans (if_neg fun h => hq (Prod.ext h.1 h.2))

theorem invalidates {b : Nat} {y : Resv} (hr : (s.rank? k rank).isSome = true) (hb : assoc (s.rankOf k rank).b b = some y)
    (hm : y.marked = true) (hf : y.freed = true) (hn : (s.rankOf k rank).reads b = false) :
    ∃ t, exec (.reservationInvalidate k rank b) s = .next t ∧ assoc (t.rankOf k rank).b b = none ∧ { t with teams := s.teams } = s ∧
      { t.rankOf k rank with b := (s.rankOf k rank).b } = s.rankOf k rank := by
  have he : exec (.reservationInvalidate k rank b) s = .next (s.updRank k rank fun r => { r with b := assocDel r.b b }) := by
    show execReservationInvalidate k rank b s = _
    simp only [execReservationInvalidate, when_, hb, hn, hm, hf, Option.any_some, Bool.and_self, Bool.not_false, if_true]
  have ht := (rankOf_updRank (q := k) (n := rank) hr fun r => { r with b := assocDel r.b b }).trans (if_pos ⟨rfl, rfl⟩)
  refine ⟨_, he, ?_, rfl, ?_⟩
  · rw [ht]
    exact assoc_del_same ..
  · rw [ht]

end

/-! ## The integer chain of an S8 pair (R115) -/

theorem chainS8_append (l r : List Int) (x : Chain) : chainS8 (l ++ r) x = chainS8 r (chainS8 l x) := List.foldl_append

theorem chainS8_low {x : Chain} {t : Int} (h : x.acc.toInt + t < -(2 ^ 31)) :
    chainS8 [t] x = { x with acc := 0x80000000, fl := x.fl ||| mxAovf } := if_pos h

theorem chainS8_high {x : Chain} {t : Int} (h : 2 ^ 31 ≤ x.acc.toInt + t) :
    chainS8 [t] x = { x with acc := 0x7FFFFFFF, fl := x.fl ||| mxAovf } := (if_neg (by omega)).trans (if_pos h)

theorem chainS8_exact {x : Chain} {t : Int} (hl : -(2 ^ 31) ≤ x.acc.toInt + t) (hh : x.acc.toInt + t < 2 ^ 31) :
    chainS8 [t] x = { x with acc := BitVec.ofInt 32 (x.acc.toInt + t) } := (if_neg (by omega)).trans (if_neg (by omega))

/-- A step that stays in range is exact, and any other saturates and raises AOVF. -/
theorem chainS8_saturates (x : Chain) (t : Int) :
    (chainS8 [t] x).acc.toInt = max (-(2 ^ 31)) (min (2 ^ 31 - 1) (x.acc.toInt + t)) ∧ (chainS8 [t] x).nar = x.nar ∧
      ((chainS8 [t] x).fl = x.fl ||| mxAovf ↔ (x.acc.toInt + t < -(2 ^ 31) ∨ 2 ^ 31 ≤ x.acc.toInt + t ∨ x.fl ||| mxAovf = x.fl)) := by
  rcases lt_or_ge (x.acc.toInt + t) (-(2 ^ 31)) with hl | hl
  · rw [chainS8_low hl]
    refine ⟨?_, rfl, iff_of_true rfl (.inl hl)⟩
    rw [show (0x80000000 : Word).toInt = -(2 ^ 31) by decide]
    omega
  · rcases lt_or_ge (x.acc.toInt + t) (2 ^ 31) with hh | hh
    · rw [chainS8_exact hl hh]
      refine ⟨?_, rfl, ?_⟩
      · rw [BitVec.toInt_ofInt_eq_self (by decide) hl hh]
        omega
      · simp only [not_lt.mpr hl, not_le.mpr hh, false_or]
        exact eq_comm
    · rw [chainS8_high hh]
      refine ⟨?_, rfl, iff_of_true rfl (.inr (.inl hh))⟩
      rw [show (0x7FFFFFFF : Word).toInt = 2 ^ 31 - 1 by decide]
      omega

end Sys2Proof.Claims
end

section
/-! PROOF. MATRIX_OPERATION_COMPLETE (R107, R112 to R118). -/

namespace Sys2Proof.Claims

open Sys2Proof.Machine Sys2Proof.Laws

/-! ## What completing an operation leaves of a signer's entries -/

section
variable {g h j : Group} {n m now rank z id : Nat} {fl : BitVec 4} {e : Entry}

/-- An entry as it was but for its flags, what it would restore and that it may have executed. -/
structure EntryKept (e f : Entry) : Prop where
  seq      : f.seq = e.seq
  deps     : f.deps = e.deps
  executed : e.executed = true → f.executed = true

/-- The entries of a group, each as it was but for that. -/
def EntriesKept (g h : Group) : Prop := ∃ f : Entry → Entry, (∀ e, EntryKept e (f e)) ∧ h.rob = g.rob.map f

theorem EntriesKept.refl (g : Group) : EntriesKept g g := ⟨id, fun _ => ⟨rfl, rfl, id⟩, (List.map_id _).symm⟩

theorem EntriesKept.trans : EntriesKept g h → EntriesKept h j → EntriesKept g j := by
  rintro ⟨f, hf, h1⟩ ⟨f', hf', h2⟩
  refine ⟨f' ∘ f, fun e => ⟨(hf' _).seq.trans (hf e).seq, (hf' _).deps.trans (hf e).deps, fun he => (hf' _).executed ((hf e).executed he)⟩, ?_⟩
  rw [h2, h1, List.map_map]

theorem EntriesKept.of_map {f : Entry → Entry} (hf : ∀ e, EntryKept e (f e)) (hr : h.rob = g.rob.map f) : EntriesKept g h := ⟨f, hf, hr⟩

/-- The group has an entry of a number. -/
def HasEntry (g : Group) (n : Nat) : Prop := ∃ e ∈ g.rob, e.seq = n

/-- It has executed. -/
def HasExecuted (g : Group) (n : Nat) : Prop := ∃ e ∈ g.rob, e.seq = n ∧ e.executed = true

theorem any_seq_iff : (g.rob.any fun e => e.seq == n) = true ↔ HasEntry g n := by
  simp [HasEntry]

theorem EntriesKept.hasEntry (K : EntriesKept g h) (he : HasEntry g n) : HasEntry h n := by
  obtain ⟨f, hf, hr⟩ := K
  obtain ⟨e, hm, hs⟩ := he
  exact ⟨f e, hr ▸ List.mem_map_of_mem hm, (hf e).seq.trans hs⟩

theorem EntriesKept.hasExecuted (K : EntriesKept g h) (he : HasExecuted g n) : HasExecuted h n := by
  obtain ⟨f, hf, hr⟩ := K
  obtain ⟨e, hm, hs, hx⟩ := he
  exact ⟨f e, hr ▸ List.mem_map_of_mem hm, (hf e).seq.trans hs, (hf e).executed hx⟩

/-- What an entry does not wait for, it does not wait for later. -/
theorem EntriesKept.depWaits (K : EntriesKept g h) (hd : g.depWaits n = false) : h.depWaits n = false := by
  obtain ⟨f, hf, hr⟩ := K
  simp only [Group.depWaits, hr, List.any_map, List.any_eq_false, Function.comp, Bool.and_eq_true, beq_iff_eq, not_and, (hf _).seq, (hf _).deps,
    Bool.not_eq_true, Bool.not_eq_false', List.any_eq_false] at hd ⊢
  exact fun e he hs d hd' o ho ho' => (hf o).executed (hd e he hs d hd' o ho ho')

/-- Flags reach a signer's entry. -/
theorem signFlags_of_entry (he : HasEntry g n) :
    g.signFlags fl n = { g with rob := g.rob.map fun e => if e.seq = n then { e with mx := e.mx ||| fl } else e } :=
  if_pos (any_seq_iff.mpr he)

theorem signFlags_entries (g : Group) (fl : BitVec 4) (n : Nat) : EntriesKept g (g.signFlags fl n) := by
  unfold Group.signFlags
  split
  · exact .of_map (fun e => by split <;> exact ⟨rfl, rfl, id⟩) rfl
  · exact .of_map (fun e => by split <;> exact ⟨rfl, rfl, id⟩) rfl

theorem signFlags_staged (g : Group) (fl : BitVec 4) (n : Nat) : (g.signFlags fl n).staged = g.staged := by
  unfold Group.signFlags
  split <;> rfl

theorem signFlags_key (g : Group) (fl : BitVec 4) (n : Nat) : (g.signFlags fl n).key = g.key := by
  unfold Group.signFlags
  split <;> rfl

/-! ## Tile writes that are staged (R118) -/

/-- A tile write is staged under a number. -/
def HasTile (g : Group) (n : Nat) : Prop := ∃ e ∈ g.staged, e.seq = n ∧ e.isTile = true

theorem any_tile_iff : (g.staged.any fun e => e.seq == n && e.isTile) = true ↔ HasTile g n := by
  simp [HasTile]

theorem hasTile_congr (hs : h.staged.map (fun e => (e.seq, e.isTile)) = g.staged.map fun e => (e.seq, e.isTile)) : HasTile h n ↔ HasTile g n := by
  have hm : ∀ k : Group, HasTile k n ↔ (n, true) ∈ k.staged.map fun e => (e.seq, e.isTile) := fun k => by simp [HasTile]
  rw [hm, hm, hs]

theorem mem_insertBy {α : Type} {f : α → Nat} {x y : α} {l : List α} : y ∈ insertBy f x l ↔ y = x ∨ y ∈ l := by
  induction l with
  | nil => simp [insertBy]
  | cons a l ih =>
    unfold insertBy
    split
    · exact List.mem_cons
    · rw [List.mem_cons, ih, List.mem_cons]
      tauto

theorem markExecuted_entries (g : Group) (now n : Nat) : EntriesKept g (g.markExecuted now n) :=
  .of_map (f := fun e => if e.seq = n then { e with executed := true } else e) (fun e => by split <;> exact ⟨rfl, rfl, fun h => by simp [h]⟩) rfl

theorem finished_entries (g : Group) (now n : Nat) : EntriesKept g (g.finished now n) := by
  unfold Group.finished
  split
  · exact .refl g
  · exact markExecuted_entries ..

theorem hasTile_finished : HasTile (g.finished now m) n ↔ HasTile g n := by
  unfold Group.finished
  split
  · rfl
  · refine hasTile_congr ?_
    show (g.staged.map _).map _ = _
    rw [List.map_map]
    refine List.map_congr_left fun e _ => ?_
    simp only [Function.comp]
    split <;> rfl

theorem finished_rest (g : Group) (now n : Nat) : (g.finished now n).key = g.key ∧ (g.finished now n).arch = g.arch := by
  unfold Group.finished
  split <;> exact ⟨rfl, rfl⟩

theorem finished_executed (he : HasEntry g n) (hd : g.depWaits n = false) : HasExecuted (g.finished now n) n := by
  obtain ⟨f, hm, hs⟩ := (markExecuted_entries g now n).hasEntry he
  rw [Group.finished, if_neg (Bool.eq_false_iff.mp hd)]
  exact ⟨f, hm, hs, markExecuted_executed hm hs⟩

/-! ## A signer's entry after its operation (R112, R118) -/

/-- The tile write that completing an operation stages. -/
def tileEffect (now rank z id n : Nat) : Effect := ⟨n, 2, .tile rank z id, now, none, false, false, [], []⟩

/-- The group once it is staged. -/
def withTile (g : Group) (now rank z id n : Nat) : Group := { g with staged := insertBy Effect.seq (tileEffect now rank z id n) g.staged }

theorem hasTile_withTile : HasTile (withTile g now rank z id m) n ↔ HasTile g n ∨ m = n := by
  simp only [HasTile, withTile, mem_insertBy]
  constructor
  · rintro ⟨e, rfl | he, hs, ht⟩
    · exact .inr hs
    · exact .inl ⟨e, he, hs, ht⟩
  · rintro (⟨e, he, hs, ht⟩ | rfl)
    · exact ⟨e, .inr he, hs, ht⟩
    · exact ⟨_, .inl rfl, rfl, rfl⟩

/-- A tile write that is staged already is renamed. -/
theorem completeSign_of_tile (ht : HasTile g m) : g.completeSign now rank z id m =
    { g with staged := g.staged.map fun e => if e.seq == m && e.isTile then { e with kind := .tile rank z id } else e } :=
  if_pos (any_tile_iff.mpr ht)

theorem completeSign_of_entry (ht : ¬HasTile g m) (he : HasEntry g m) :
    g.completeSign now rank z id m = (withTile g now rank z id m).finished now m :=
  (if_neg (any_tile_iff.not.mpr ht)).trans (if_pos (any_seq_iff.mpr he))

theorem completeSign_of_none (ht : ¬HasTile g m) (he : ¬HasEntry g m) : g.completeSign now rank z id m = g :=
  (if_neg (any_tile_iff.not.mpr ht)).trans (if_neg (any_seq_iff.not.mpr he))

theorem completeSign_rest (g : Group) (now rank z id m : Nat) : (g.completeSign now rank z id m).key = g.key ∧
    (g.completeSign now rank z id m).arch = g.arch ∧ EntriesKept g (g.completeSign now rank z id m) := by
  by_cases ht : HasTile g m
  · rw [completeSign_of_tile ht]
    exact ⟨rfl, rfl, .refl g⟩
  · by_cases he : HasEntry g m
    · rw [completeSign_of_entry ht he]
      obtain ⟨hk, ha⟩ := finished_rest (withTile g now rank z id m) now m
      exact ⟨hk, ha, (EntriesKept.refl g : EntriesKept g (withTile g now rank z id m)).trans (finished_entries ..)⟩
    · rw [completeSign_of_none ht he]
      exact ⟨rfl, rfl, .refl g⟩

/-- Completing a signature stages a tile write for its entry, and for no other. -/
theorem hasTile_completeSign : HasTile (g.completeSign now rank z id m) n ↔ HasTile g n ∨ m = n ∧ HasEntry g m := by
  by_cases ht : HasTile g m
  · rw [completeSign_of_tile ht, hasTile_congr (g := g)]
    · exact ⟨.inl, fun h => h.elim (fun h => h) fun h => h.1 ▸ ht⟩
    · show (g.staged.map _).map _ = _
      rw [List.map_map]
      refine List.map_congr_left fun e _ => ?_
      simp only [Function.comp]
      split
      · next h => exact Prod.ext rfl (Bool.and_eq_true_iff.mp h).2.symm
      · rfl
  · by_cases he : HasEntry g m
    · rw [completeSign_of_entry ht he, hasTile_finished, hasTile_withTile]
      exact or_congr_right (and_iff_left he).symm
    · rw [completeSign_of_none ht he]
      exact ⟨.inl, fun h => h.elim (fun h => h) fun h => absurd h.2 he⟩

theorem completeSign_executed (ht : ¬HasTile g n) (he : HasEntry g n) (hd : g.depWaits n = false) :
    HasExecuted (g.completeSign now rank z id n) n := by
  rw [completeSign_of_entry ht he]
  exact finished_executed he hd

end

/-! ## The signers of an operation, one after another -/

section
variable {s : State} {k : GroupKey} {l : List Sign} {f : State → Sign → Group → Group} {P Q : Group → Prop}

/-- Each signer's group changed in turn. -/
def onSigners (f : State → Sign → Group → Group) (l : List Sign) (s : State) : State := l.foldl (fun s x => s.updGroup x.group (f s x)) s

theorem onSigners_rest (f : State → Sign → Group → Group) (l : List Sign) (s : State) :
    onSigners f l s = { s with groups := (onSigners f l s).groups } := by
  induction l generalizing s with
  | nil => rfl
  | cons x l ih => exact ih (s.updGroup x.group (f s x))

/-- What the changes of a group's own signatures keep, they keep together. -/
theorem onSigners_keeps (hf : ∀ s x g, (f s x g).key = g.key) (hP : ∀ s g, ∀ x ∈ l, x.group = k → P g → P (f s x g))
    (hs : ∃ g, s.group? k = some g ∧ P g) : ∃ g, (onSigners f l s).group? k = some g ∧ P g := by
  induction l generalizing s with
  | nil => exact hs
  | cons x l ih =>
    refine ih (fun s g y hy => hP s g y (List.mem_cons_of_mem _ hy)) ?_
    obtain ⟨g, hg, hp⟩ := hs
    by_cases hx : x.group = k
    · subst hx
      exact ⟨_, updGroup_get s _ _ (fun g hg => (hf s x g).trans hg) g hg, hP s g x List.mem_cons_self rfl hp⟩
    · exact ⟨g, (updGroup_other s (Ne.symm hx) _ fun g hg => (hf s x g).trans hg).trans hg, hp⟩

/-- What the change of one signature brings about, and the others keep, holds in the end. -/
theorem onSigners_reaches {x : Sign} (hf : ∀ s x g, (f s x g).key = g.key) (hx : x ∈ l) (hP : ∀ s g, ∀ y ∈ l, y.group = x.group → P g → P (f s y g))
    (hQ : ∀ s g, P g → Q (f s x g)) (hk : ∀ s g, ∀ y ∈ l, y.group = x.group → Q g → Q (f s y g))
    (hs : ∃ g, s.group? x.group = some g ∧ P g) : ∃ g, (onSigners f l s).group? x.group = some g ∧ Q g := by
  obtain ⟨l1, l2, rfl⟩ := List.append_of_mem hx
  obtain ⟨g, hg, hp⟩ := onSigners_keeps (l := l1) hf (fun s g y hy => hP s g y (List.mem_append_left _ hy)) hs
  have he : onSigners f (l1 ++ x :: l2) s = onSigners f l2 ((onSigners f l1 s).updGroup x.group (f (onSigners f l1 s) x)) := List.foldl_append
  have hx' := updGroup_get _ _ (f (onSigners f l1 s) x) (fun g hg => (hf _ x g).trans hg) g hg
  rw [he]
  exact onSigners_keeps hf (fun s g y hy => hk s g y (List.mem_append_right _ (List.mem_cons_of_mem _ hy))) ⟨_, hx', hQ _ g hp⟩

end

section
variable {s : State} {g h : Group} {l : List Sign} {x : Sign} {fl : BitVec 4} {rank z id : Nat}

/-- The flags of an operation, to each signer. -/
def flagSigner (fl : BitVec 4) (_ : State) (x : Sign) (g : Group) : Group := g.signFlags fl x.seq

/-- Its tile write, to each signer. -/
def completeSigner (rank z id : Nat) (s : State) (x : Sign) (g : Group) : Group := g.completeSign s.now rank z id x.seq

/-- Every signature of a group has its entry. -/
def AllEntered (l : List Sign) (g : Group) : Prop := ∀ y ∈ l, y.group = g.key → HasEntry g y.seq

/-- The flags of an operation change nothing of a signer's group but those of its entries, where every one of them is there. -/
theorem flagSigners_group (hg : s.group? x.group = some g) :
    ∃ h, (onSigners (flagSigner fl) l s).group? x.group = some h ∧ EntriesKept g h ∧ h.staged = g.staged ∧ (AllEntered l g → h.arch = g.arch) := by
  refine onSigners_keeps (P := fun h => EntriesKept g h ∧ h.staged = g.staged ∧ (AllEntered l g → h.arch = g.arch))
    (fun _ _ _ => signFlags_key ..) ?_ ⟨g, hg, .refl g, rfl, fun _ => rfl⟩
  rintro s h y hy hk ⟨K, hst, ha⟩
  refine ⟨K.trans (signFlags_entries ..), (signFlags_staged ..).trans hst, fun H => (ha H).symm ▸ ?_⟩
  have he : HasEntry h y.seq := K.hasEntry (H y hy (hk.trans (key_of_group? hg).symm))
  rw [flagSigner, signFlags_of_entry he]

/-- A signer's entry is complete: its tile write is staged, and it has executed unless a source of it is still to come. -/
structure SignDone (g h : Group) (n : Nat) : Prop where
  tile : HasTile h n
  done : g.depWaits n = false → HasExecuted h n

/-- Each signer whose entry is there and has staged nothing yet is complete once they all have been completed. -/
theorem completeSigners_group (hg : s.group? x.group = some h) (hx : x ∈ l) (K : EntriesKept g h) (he : HasEntry g x.seq) (ht : ¬HasTile h x.seq) :
    ∃ j, (onSigners (completeSigner rank z id) l s).group? x.group = some j ∧ SignDone g j x.seq ∧ j.arch = h.arch := by
  have hkeep : ∀ (s : State) (j : Group), ∀ y ∈ l, y.group = x.group → SignDone g j x.seq ∧ j.arch = h.arch →
      SignDone g (completeSigner rank z id s y j) x.seq ∧ (completeSigner rank z id s y j).arch = h.arch := by
    rintro s j y - - ⟨⟨h1, h2⟩, h3⟩
    obtain ⟨-, ha, K'⟩ := completeSign_rest j s.now rank z id y.seq
    exact ⟨⟨hasTile_completeSign.mpr (.inl h1), fun hd => K'.hasExecuted (h2 hd)⟩, ha.trans h3⟩
  have hdo : ∀ (s : State) (j : Group) (n : Nat), n = x.seq → EntriesKept g j → ¬HasTile j n → j.arch = h.arch →
      SignDone g (j.completeSign s.now rank z id n) x.seq ∧ (j.completeSign s.now rank z id n).arch = h.arch := by
    rintro s j _ rfl K' ht' ha'
    obtain ⟨-, ha, -⟩ := completeSign_rest j s.now rank z id x.seq
    exact ⟨⟨hasTile_completeSign.mpr (.inr ⟨rfl, K'.hasEntry he⟩),
      fun hd => completeSign_executed ht' (K'.hasEntry he) (K'.depWaits hd)⟩, ha.trans ha'⟩
  refine onSigners_reaches (P := fun j => (EntriesKept g j ∧ ¬HasTile j x.seq ∨ SignDone g j x.seq) ∧ j.arch = h.arch)
    (fun s x g => (completeSign_rest ..).1) hx ?_ ?_ hkeep ⟨h, hg, .inl ⟨K, ht⟩, rfl⟩
  · rintro s j y hy hk ⟨⟨K', ht'⟩ | hd, ha'⟩
    · by_cases hn : y.seq = x.seq
      · obtain ⟨h1, h2⟩ := hdo s j y.seq hn K' (hn ▸ ht') ha'
        exact ⟨.inr h1, h2⟩
      · obtain ⟨-, ha, K''⟩ := completeSign_rest j s.now rank z id y.seq
        exact ⟨.inl ⟨K'.trans K'', fun h => (hasTile_completeSign.mp h).elim ht' fun h => hn h.1⟩, ha.trans ha'⟩
    · obtain ⟨h1, h2⟩ := hkeep s j y hy hk ⟨hd, ha'⟩
      exact ⟨.inr h1, h2⟩
  · rintro s j ⟨⟨K', ht'⟩ | hd, ha'⟩
    · exact hdo s j x.seq rfl K' ht' ha'
    · exact hkeep s j x hx rfl ⟨hd, ha'⟩

end

/-! ## The operation itself (R107, R112, R118) -/

section
variable {r : Rank} {q : Nat}

/-- Settling a tile changes nothing of a core rank but its tiles and its buffers. -/
theorem updQueue_rest (r : Rank) (q : Nat) (f : Queue → Queue) : ∃ l, r.updQueue q f = { r with q := l } := by
  unfold Rank.updQueue
  split
  · exact ⟨_, rfl⟩
  · exact ⟨r.q, rfl⟩

theorem foldl_updQueue_rest {α : Type} (q : α → Nat) (f : α → Queue → Queue) (ps : List α) (r : Rank) :
    ∃ l, ps.foldl (fun r p => r.updQueue (q p) (f p)) r = { r with q := l } := by
  induction ps generalizing r with
  | nil => exact ⟨r.q, rfl⟩
  | cons p ps ih =>
    obtain ⟨l, hl⟩ := updQueue_rest r (q p) (f p)
    rw [List.foldl_cons, hl]
    exact ih _

theorem settleTile_rest (r : Rank) (n : Nat) : ∃ l q, r.settleTile n = { r with z := l, q := q } := by
  unfold Rank.settleTile
  split
  · exact ⟨r.z, r.q, rfl⟩
  · obtain ⟨q, hq⟩ := foldl_updQueue_rest (fun p : Nat × Nat => p.1) (fun p y => y.freeSlot p.2) _ _
    exact ⟨_, q, hq⟩

end

section
variable {k : TeamKey} {rank : Nat} {s : State} {o : MatOp} {y : Resv} {l : Nat}

/-- The tile that an operation writes. -/
def opTile (o : MatOp) : Nat := (o.signs.headD default).tmac.z

/-- What the arrays make of an operation on a tile of A of `l` bytes in `y`. -/
def opProduct (s : State) (k : TeamKey) (rank : Nat) (o : MatOp) (y : Resv) (l : Nat) : Product :=
  let r := s.rankOf k rank
  let tile := r.z.getD (opTile o) default
  product ((aTile y.fmt.toNat l).getD ⟨.s8, 0, 0, 32⟩) (fmtScoff y.fmt.toNat) ((assoc r.cb (fmtSlot y.fmt.toNat)).getD []) (r.opbuf.getN y.off l)
    (((s.team? k).map fun y => y.blk.width).getD 64) o.signs ((List.range 64).map tile.row) tile.newCnt

/-- The shadow in which it stands. -/
def opShadow (s : State) (o : MatOp) (p : Product) : Shadow :=
  ⟨o.id, p.rows.mapIdx fun i r => (i, r), p.cnt, (o.signs.filter s.signLive).map fun x => (x.group, x.seq), some o⟩

/-- The core rank once its operation has ended. -/
def rankEnded (r : Rank) (o : MatOp) (x : Shadow) : Rank :=
  Rank.settleTile { r with
    ops := r.ops.filter fun p => p.id != o.id
    z := r.z.modify (opTile o) fun t => { t with shadows := t.shadows ++ [x] } } (opTile o)

theorem rankEnded_rest (r : Rank) (o : MatOp) (x : Shadow) :
    (rankEnded r o x).ops = r.ops.filter (fun p => p.id != o.id) ∧ (rankEnded r o x).opbuf = r.opbuf ∧ (rankEnded r o x).scr = r.scr := by
  obtain ⟨z, q, h⟩ := settleTile_rest { r with
    ops := r.ops.filter fun p => p.id != o.id
    z := r.z.modify (opTile o) fun t => { t with shadows := t.shadows ++ [x] } } (opTile o)
  rw [rankEnded, h]
  exact ⟨rfl, rfl, rfl⟩

/-- The machine once an operation has ended with product `p`: each of its signers has the flags and its tile write. -/
def operationEnded (s : State) (k : TeamKey) (rank : Nat) (o : MatOp) (p : Product) : State :=
  (onSigners (completeSigner rank (opTile o) o.id) (o.signs.filter s.signLive) (onSigners (flagSigner p.fl) o.signs
    (s.updRank k rank fun _ => rankEnded (s.rankOf k rank) o (opShadow s o p)))).noteStop (s.coreOf k rank).die

theorem operationEnded_world (s : State) (k : TeamKey) (rank : Nat) (o : MatOp) (p : Product) : SameWorld s (operationEnded s k rank o p) := by
  rw [operationEnded, onSigners_rest (completeSigner rank (opTile o) o.id), onSigners_rest (flagSigner p.fl)]
  rfl

/-- No poison: neither the tile's rows nor the slot of A hold any (R76). -/
theorem find?_poison (hp : ∀ w ∈ wordsOf y.off l, w ∉ (s.rankOf k rank).opPoison) :
    (wordsOf y.off l).find? (s.rankOf k rank).opPoison.contains = none :=
  List.find?_eq_none.mpr fun w hw h => hp w hw (List.contains_iff_mem.mp h)

theorem any_pois_of_sound {tl : Tile} {rows : List Nat} (S : TileSound tl rows) : (rows.any fun i => !(tl.row i).pois.isEmpty) = false :=
  List.any_eq_false.mpr fun i hi => by rw [S i hi]; exact Bool.false_ne_true

theorem exec_matrixOperationComplete (ho : (s.rankOf k rank).ops.find? MatOp.started = some o) (hs : o.slot = none)
    (ht : (s.rankOf k rank).tileOf (o.signs.headD default).source = some (y, l))
    (S : TileSound ((s.rankOf k rank).z.getD (opTile o) default) (List.range 64)) (hp : ∀ w ∈ wordsOf y.off l, w ∉ (s.rankOf k rank).opPoison) :
    exec (.matrixOperationComplete k rank) s = .next (operationEnded s k rank o (opProduct s k rank o y l)) := by
  have hrow := any_pois_of_sound S
  have hfind := find?_poison hp
  rw [opTile] at hrow
  show execMatrixOperationComplete k rank s = _
  simp only [execMatrixOperationComplete, ho, hs, ht, Option.getD_some, hrow, hfind, Bool.false_eq_true, if_false]
  rfl

theorem rankOf_onSigners (f : State → Sign → Group → Group) (l : List Sign) (q : TeamKey) (n : Nat) : (onSigners f l s).rankOf q n = s.rankOf q n := by
  rw [onSigners_rest]
  rfl

theorem operationEnded_rank (hr : (s.rank? k rank).isSome = true) (o : MatOp) (p : Product) :
    (operationEnded s k rank o p).rankOf k rank = rankEnded (s.rankOf k rank) o (opShadow s o p) := by
  show (onSigners _ _ (onSigners _ _ _)).rankOf k rank = _
  rw [rankOf_onSigners, rankOf_onSigners, rankOf_updRank hr, if_pos ⟨rfl, rfl⟩]

/-- With no poison in its tile and its slot of A, the operation on the arrays ends. -/
theorem completes (hr : (s.rank? k rank).isSome = true) (ho : (s.rankOf k rank).ops.find? MatOp.started = some o) (hs : o.slot = none)
    (ht : (s.rankOf k rank).tileOf (o.signs.headD default).source = some (y, l))
    (S : TileSound ((s.rankOf k rank).z.getD (opTile o) default) (List.range 64)) (hp : ∀ w ∈ wordsOf y.off l, w ∉ (s.rankOf k rank).opPoison) :
    ∃ t, exec (.matrixOperationComplete k rank) s = .next t ∧ t.ram = s.ram ∧ t.parts = s.parts ∧ t.coh = s.coh ∧
      (∀ p ∈ (t.rankOf k rank).ops, p.id ≠ o.id) ∧ (t.rankOf k rank).opbuf = (s.rankOf k rank).opbuf ∧
      (t.rankOf k rank).scr = (s.rankOf k rank).scr ∧
      ∀ x ∈ o.signs, ∀ g e, s.group? x.group = some g → e ∈ g.rob → e.seq = x.seq →
        (∀ f ∈ g.staged, f.seq = x.seq → f.isTile = false) →
        ∃ h, t.group? x.group = some h ∧ (g.depWaits x.seq = false → ∃ f ∈ h.rob, f.seq = x.seq ∧ f.executed = true) ∧
          (∃ f ∈ h.staged, f.seq = x.seq ∧ f.isTile = true) ∧
          ((∀ y ∈ o.signs, y.group = x.group → ∃ f ∈ g.rob, f.seq = y.seq) → h.arch = g.arch) := by
  set p := opProduct s k rank o y l
  have hrank := operationEnded_rank hr o p
  obtain ⟨hops, hbuf, hscr⟩ := rankEnded_rest (s.rankOf k rank) o (opShadow s o p)
  have W := operationEnded_world s k rank o p
  refine ⟨_, exec_matrixOperationComplete ho hs ht S hp, W.ram, W.parts, W.coh, ?_, ?_, ?_, ?_⟩
  · rw [hrank, hops]
    exact fun p hp => by simpa using (List.mem_filter.mp hp).2
  · rw [hrank, hbuf]
  · rw [hrank, hscr]
  · intro x hx g e hg hm hseq hst
    have hlive : x ∈ o.signs.filter s.signLive := by
      refine List.mem_filter.mpr ⟨hx, ?_⟩
      rw [State.signLive, hg]
      exact Bool.or_eq_true_iff.mpr (.inl (any_seq_iff.mpr ⟨e, hm, hseq⟩))
    obtain ⟨h, hh, K, hstaged, harch⟩ := flagSigners_group (fl := p.fl) (l := o.signs)
      (s := s.updRank k rank fun _ => rankEnded (s.rankOf k rank) o (opShadow s o p)) hg
    have htile : ¬HasTile h x.seq := fun ⟨f, hf, h1, h2⟩ => absurd ((hst f (hstaged ▸ hf) h1).symm.trans h2) Bool.false_ne_true
    obtain ⟨j, hj, ⟨h1, h2⟩, h3⟩ := completeSigners_group (rank := rank) (z := opTile o) (id := o.id) hh hlive K ⟨e, hm, hseq⟩ htile
    refine ⟨j, hj, h2, h1, fun H => h3.trans (harch fun y hy hk => ?_)⟩
    exact H y hy (hk.trans (key_of_group? hg))

end

/-- Settles O48: the issue and the end of an operation, the freeing of a reservation, and the integer chain step by step. -/
theorem matrixOperations : Obligations.MatrixOperations := by
  unfold Obligations.MatrixOperations
  intro k rank s hr
  refine ⟨fun o r slot ho hm => issues hr ho hm, fun o y l ho hs ht S hp => completes hr ho hs ht S hp, fun b y hb hm hf hn => invalidates hr hb hm hf hn,
    fun x t => ?_⟩
  obtain ⟨h1, h2, h3⟩ := chainS8_saturates x t
  exact ⟨h1, h2, h3, fun l r => chainS8_append l r x⟩

end Sys2Proof.Claims
end

section
/-! PROOF. Where the access of a lane faults, and which bytes it reaches (R124, R125, Table 10-1). -/

namespace Sys2Proof.Claims

open Sys2Proof.Machine Sys2Proof.Laws

section
variable {s : State} {g : Group} {k : Access} {size align L a : Nat}

theorem laneAcc_misaligned {sp : Space} (h : a % align ≠ 0) : laneAcc s g k sp size align L a = .bad 0x05 := if_pos h

/-- An aligned access of the group's own scratchpad is judged by the allotment alone (R125). -/
theorem laneAcc_own (h : a % align = 0) :
    laneAcc s g k .own size align L a =
      if a + size ≤ s.allot g then .ok ⟨L, a, [⟨.scr g.rank, a, size, none, a⟩]⟩ else .bad 0x06 := if_neg (not_not.mpr h)

/-- An aligned access of a core rank's scratchpad: the rank in bits 27:24 of the address, the offset in bits 17:0, and nothing in the others
(Table 10-1). -/
theorem laneAcc_team (h : a % align = 0) :
    laneAcc s g k .team size align L a =
      if a < 2 ^ 28 ∧ a / 2 ^ 18 % 64 = 0 ∧ a / 2 ^ 24 % 16 < s.rankCount g ∧ a % 2 ^ 18 + size ≤ s.allot g then
        .ok ⟨L, a, [⟨.scr (a / 2 ^ 24 % 16), a % 2 ^ 18, size, none, a⟩]⟩
      else .bad 0x06 := by
  have hrank : bitsOf a 27 24 = a / 2 ^ 24 % 16 := congrArg (· % 16) (Nat.shiftRight_eq_div_pow a 24)
  have hoff : bitsOf a 17 0 = a % 2 ^ 18 := rfl
  have hzero : bitsOf a 23 18 = a / 2 ^ 18 % 64 := congrArg (· % 64) (Nat.shiftRight_eq_div_pow a 18)
  rw [← hrank, ← hoff, ← hzero]
  exact if_neg (not_not.mpr h)

end

/-- Settles O14: the alignment is judged first, then the limits of the space that the address names. -/
theorem scratchpadLimits : Obligations.ScratchpadLimits := by
  unfold Obligations.ScratchpadLimits
  intro s g k size align L a
  refine ⟨fun h sp => laneAcc_misaligned h, fun h hout => ?_, fun h hin => ?_, fun h hout => ?_, fun r o ha hr ho h hrank hin => ?_⟩
  · rw [laneAcc_own h, if_neg (Nat.not_le.mpr hout)]
  · rw [laneAcc_own h, if_pos hin]
  · rw [laneAcc_team h, if_neg (by omega)]
  · have hr' : a / 2 ^ 24 % 16 = r := by omega
    have ho' : a % 2 ^ 18 = o := by omega
    rw [laneAcc_team h, hr', ho', if_pos ⟨by omega, by omega, hrank, hin⟩]

end Sys2Proof.Claims
end

section
/-! PROOF. The home's record of a line, its bank and its requests: what the shared operations of the homes do (R142 to R144, R152, R153). -/

namespace Sys2Proof.Claims

open Sys2Proof.Machine Sys2Proof.Laws

/-! ## The record of a line (R142) -/

section
variable {c d : Coh} {l : Line} {a : Nat}

theorem line_addr (c : Coh) (a : Nat) : (c.line a).addr = a := by
  unfold Coh.line
  split
  · next h => simpa using List.find?_some h
  · rfl

theorem line_congr (h : d.lines = c.lines) (a : Nat) : d.line a = c.line a := by
  unfold Coh.line
  rw [h]

/-- A line's record is what the directory finds under its address, else the record of an untouched line. -/
theorem line_of_find? {o : Option Line} (h : c.lines.find? (fun l => l.addr = a) = o) : c.line a = o.getD ⟨a, .i, none, [], false, none⟩ := by
  unfold Coh.line
  rw [h]
  cases o <;> rfl

theorem line_setLine_same (c : Coh) (ha : l.addr = a) : (c.setLine l).line a = l := by
  subst ha
  have hnone : (c.lines.filter fun x => x.addr ≠ l.addr).find? (fun x => x.addr = l.addr) = none :=
    List.find?_eq_none.mpr fun x hx => by simpa using (List.mem_filter.mp hx).2
  unfold Coh.setLine
  split
  · next h => exact (line_of_find? (c := { c with lines := _ }) hnone).trans h.symm
  · exact line_of_find? (c := { c with lines := l :: _ }) (List.find?_cons_of_pos (decide_eq_true rfl))

theorem line_setLine_other (c : Coh) (h : a ≠ l.addr) : (c.setLine l).line a = c.line a := by
  have hrest : (c.lines.filter fun x => x.addr ≠ l.addr).find? (fun x => x.addr = a) = c.lines.find? fun x => x.addr = a := by
    rw [List.find?_filter]
    refine congrArg (fun p => c.lines.find? p) (funext fun x => ?_)
    by_cases hx : x.addr = a <;> simp [hx, h]
  rw [line_of_find? (c := c) rfl]
  unfold Coh.setLine
  split
  · exact line_of_find? hrest
  · exact line_of_find? ((List.find?_cons_of_neg (by simpa using h.symm)).trans hrest)

/-! ## Stamps (R152) -/

/-- A line's record without its stamp. -/
def unstamped (l : Line) : Line := { l with stamp := none }

/-- Two directories keep the same of every line but for its stamp. -/
def SameButStamps (c d : Coh) : Prop := d.lines.map unstamped = c.lines.map unstamped

theorem find?_unstamped (l : List Line) (a : Nat) :
    (l.map unstamped).find? (fun x => x.addr = a) = (l.find? fun x => x.addr = a).map unstamped := List.find?_map

theorem unstamped_line (c : Coh) (a : Nat) : unstamped (c.line a) = { c with lines := c.lines.map unstamped }.line a := by
  unfold Coh.line
  dsimp only
  rw [find?_unstamped]
  cases c.lines.find? (fun x => x.addr = a) <;> rfl

theorem SameButStamps.line (h : SameButStamps c d) (a : Nat) : unstamped (d.line a) = unstamped (c.line a) := by
  rw [unstamped_line, unstamped_line, show d.lines.map unstamped = c.lines.map unstamped from h]
  rfl

theorem SameButStamps.owner (h : SameButStamps c d) (a : Nat) : (d.line a).owner = (c.line a).owner := (congrArg Line.owner (h.line a) :)
theorem SameButStamps.holders (h : SameButStamps c d) (a : Nat) : (d.line a).holders = (c.line a).holders := (congrArg Line.holders (h.line a) :)

/-- What marking old the lines of a die that `p` picks does to a line. -/
def aged (die : Nat) (p : Line → Nat → Bool) (l : Line) : Line :=
  if homeDie l.addr = die then
    (match l.stamp with
      | some x => if p l x then { l with stamp := none } else l
      | none => l)
  else l

theorem markOld_lines (c : Coh) (die : Nat) (p : Line → Nat → Bool) : (c.markOld die p).lines = c.lines.map (aged die p) := rfl

theorem aged_none {die : Nat} {p : Line → Nat → Bool} (h : l.stamp = none) : aged die p l = l := by
  unfold aged
  rw [h]
  exact ite_self l

theorem aged_some {die x : Nat} {p : Line → Nat → Bool} (h : l.stamp = some x) :
    aged die p l = if homeDie l.addr = die ∧ p l x = true then unstamped l else l := by
  unfold aged
  rw [h]
  exact (ite_and ..).symm

theorem unstamped_aged (die : Nat) (p : Line → Nat → Bool) (l : Line) : unstamped (aged die p l) = unstamped l := by
  cases h : l.stamp with
  | none => rw [aged_none h]
  | some x => rw [aged_some h]; split <;> rfl

theorem addr_aged (die : Nat) (p : Line → Nat → Bool) (l : Line) : (aged die p l).addr = l.addr := (congrArg Line.addr (unstamped_aged die p l) :)

theorem sameButStamps_markOld (c : Coh) (die : Nat) (p : Line → Nat → Bool) : SameButStamps c (c.markOld die p) := by
  rw [SameButStamps, markOld_lines, List.map_map]
  exact List.map_congr_left fun l _ => unstamped_aged die p l

/-! ## Sleeping banks (R153) -/

theorem wake_rest (c : Coh) (die slice : Nat) : { c.wake die slice with lines := c.lines, asleep := c.asleep } = c := by
  unfold Coh.wake
  split <;> rfl

theorem sameButStamps_wake (c : Coh) (die slice : Nat) : SameButStamps c (c.wake die slice) := by
  unfold Coh.wake
  split
  · rfl
  · exact sameButStamps_markOld ..

theorem not_asleep_wake (c : Coh) (die slice : Nat) : ∀ a ∈ (c.wake die slice).asleep, ¬(a.1 = die ∧ a.2.1 = slice) := by
  unfold Coh.wake
  split
  · next h => exact fun a ha => by simpa using List.find?_eq_none.mp h a ha
  · exact fun a ha => by simpa [imp_iff_not_or] using (List.mem_filter.mp ha).2

theorem sleeps_congr (h : d.asleep = c.asleep) (a : Nat) : d.sleeps a = c.sleeps a := by
  unfold Coh.sleeps
  rw [h]

theorem woken_of_awake (h : c.sleeps a = false) : c.woken a = c := if_neg (by rw [h]; exact Bool.false_ne_true)

theorem woken_rest (c : Coh) (a : Nat) : { c.woken a with lines := c.lines, asleep := c.asleep } = c := by
  unfold Coh.woken
  split
  · exact wake_rest ..
  · rfl

theorem sameButStamps_woken (c : Coh) (a : Nat) : SameButStamps c (c.woken a) := by
  unfold Coh.woken
  split
  · exact sameButStamps_wake ..
  · rfl

theorem sleeps_woken (c : Coh) (a : Nat) : (c.woken a).sleeps a = false := by
  unfold Coh.woken
  split
  · exact List.any_eq_false.mpr fun x hx => by simpa using not_asleep_wake c _ _ x hx
  · next h => exact Bool.eq_false_of_not_eq_true h

end

/-! ## Requests (R143) -/

section
variable {s : State} {core : CoreId} {line : Nat} {f : HomeReq → HomeReq} {r : HomeReq}

theorem req?_name (h : s.coh.req? core line = some r) : r.core = core ∧ r.line = line := by simpa using List.find?_some h

theorem req?_congr {c d : Coh} (h : d.reqs = c.reqs) : d.req? core line = c.req? core line := by
  unfold Coh.req?
  rw [h]

theorem req?_updReq (hf : ∀ r, (f r).core = r.core ∧ (f r).line = r.line) (h : s.coh.req? core line = some r) :
    (s.updReq core line f).coh.req? core line = some (f r) := by
  have hname : (fun r : HomeReq => decide (r.core = core ∧ r.line = line)) ∘ (fun r => if r.core = core ∧ r.line = line then f r else r) =
      fun r => decide (r.core = core ∧ r.line = line) := by
    funext q
    rw [Function.comp_apply]
    split
    · rw [(hf q).1, (hf q).2]
    · rfl
  show (s.coh.reqs.map _).find? _ = _
  rw [List.find?_map, hname]
  unfold Coh.req? at h
  rw [h]
  exact congrArg some (if_pos (req?_name h))

/-- A request that a change of a core's request for a line leaves is one it has changed or one of another name. -/
theorem mem_updReq {q : HomeReq} (h : q ∈ (s.updReq core line f).coh.reqs) :
    ∃ r ∈ s.coh.reqs, (r.core = core ∧ r.line = line) ∧ q = f r ∨ ¬(r.core = core ∧ r.line = line) ∧ q = r := by
  obtain ⟨r, hr, rfl⟩ := List.mem_map.mp h
  refine ⟨r, hr, ?_⟩
  split
  · next hn => exact .inl ⟨hn, rfl⟩
  · next hn => exact .inr ⟨hn, rfl⟩

/-- A new request waits for nobody yet. -/
theorem mem_request {q : HomeReq} {own priv : Bool} (h : q ∈ (s.request core line own priv).coh.reqs) : q ∈ s.coh.reqs ∨ q.wait = [] := by
  refine iteInduction (motive := fun t : State => q ∈ t.coh.reqs → _) (fun _ => .inl)
    (fun _ => iteInduction (motive := fun t : State => q ∈ t.coh.reqs → _) (fun _ => .inl) fun _ h => ?_) h
  exact (List.mem_append.mp h).imp (fun h => (List.mem_filter.mp h).1) fun h => congrArg HomeReq.wait (List.mem_singleton.mp h)

/-- Whom a request's probes reach (R143, R144). -/
theorem mem_asked {c : Coh} {x : CoreId} :
    x ∈ c.asked r ↔ x ≠ r.core ∧ ((c.line r.line).owner = some x ∨ (r.own = true ∧ x ∈ (c.line r.line).holders)) ∧
      (r.priv = true ∨ Config.hostBase ≤ r.line ∨ c.names r.line x = true) := by
  have hby (l : Line) (own : Bool) : x ∈ l.askedBy r.core own ↔ x ≠ r.core ∧ (l.owner = some x ∨ (own = true ∧ x ∈ l.holders)) := by
    unfold Line.askedBy
    cases own <;> simp [List.mem_filter, and_comm]
  unfold Coh.asked
  rw [List.mem_filter, hby]
  simp [and_assoc, or_assoc]

end

/-! ## The directory (R144) -/

section
variable {c d : Coh}

/-- Nothing is other than before but what the directory and the guest tables track. -/
def DirectoryOnly (c d : Coh) : Prop := { d with regions := c.regions, guests := c.guests } = c

theorem DirectoryOnly.trans {e : Coh} (h : DirectoryOnly c d) (h' : DirectoryOnly d e) : DirectoryOnly c e :=
  (congrArg (fun x : Coh => { x with regions := c.regions, guests := c.guests }) h' :).trans h

theorem directoryOnly_trim (c : Coh) (line : Nat) : DirectoryOnly c (c.trim line) := by
  unfold Coh.trim
  split
  · rfl
  · extract_lets h cl gs
    have hgs : DirectoryOnly c gs := List.foldlRecOn _ _ (motive := DirectoryOnly c) rfl fun _ h _ _ => h.trans rfl
    exact hgs.trans rfl

theorem directoryOnly_track (c : Coh) (line : Nat) (core : CoreId) : DirectoryOnly c (c.track line core) := by
  unfold Coh.track
  split_ifs <;> rfl

theorem DirectoryOnly.lines (h : DirectoryOnly c d) : d.lines = c.lines := (congrArg Coh.lines h :)
theorem DirectoryOnly.reqs (h : DirectoryOnly c d) : d.reqs = c.reqs := (congrArg Coh.reqs h :)
theorem DirectoryOnly.asleep (h : DirectoryOnly c d) : d.asleep = c.asleep := (congrArg Coh.asleep h :)

/-- The record of a line that its core has been granted for ownership. -/
def grantedLine (c : Coh) (r : HomeReq) : Line := { (c.woken r.line).line r.line with state := .m, owner := some r.core, holders := [r.core] }

/-- The home that has granted a line for ownership, but for its directory. -/
def grantedHome (c : Coh) (r : HomeReq) : Coh :=
  Coh.setLine { c.woken r.line with reqs := (c.woken r.line).reqs.filter fun q => !(q.core = r.core && q.line = r.line) } (grantedLine c r)

theorem grant_own {r : HomeReq} (h : r.own = true) : DirectoryOnly (grantedHome c r) (c.grant r) := by
  have ht := directoryOnly_trim (grantedHome c r) r.line
  have he : c.grant r = if r.priv then (grantedHome c r).trim r.line else ((grantedHome c r).trim r.line).track r.line r.core := by
    simp only [Coh.grant, h, if_true, grantedHome, grantedLine]
  rw [he]
  split
  · exact ht
  · exact ht.trans (directoryOnly_track ..)

end

end Sys2Proof.Claims
end

section
/-! PROOF. The events of the homes and of narrow releases (R139, R143, R144, R152, R153, R180 to R182, R189, R191). -/

namespace Sys2Proof.Claims

open Sys2Proof.Machine Sys2Proof.Laws

/-! ## HOME_REQUEST (R143) -/

section
variable {core : CoreId} {line : Nat} {s : State} {r : HomeReq}

/-- The request whose probes the home of a line, its bank awake, has sent. -/
def probedReq (s : State) (line : Nat) (r : HomeReq) : HomeReq := { r with stage := .probing, wait := (s.coh.woken line).asked r }

theorem exec_homeRequest (hr : s.coh.req? core line = some r) (hs : r.stage = .sent) (ha : s.arriving line = false) (hl : s.leaving line = false)
    (hp : ∀ q ∈ s.coh.reqs, q.line = line → q.stage ≠ .probing) :
    exec (.homeRequest core line) s = .next (State.updReq { s with coh := s.coh.woken line } core line (probedReq s line)) := by
  have hany : (s.coh.reqs.any fun q => q.line = line && q.stage == .probing) = false :=
    List.any_eq_false.mpr fun q hq => by simpa using hp q hq
  show execHomeRequest core line s = _
  simp only [execHomeRequest, hr, hs, ha, hl, hany]
  rfl

theorem requestBegins (hr : s.coh.req? core line = some r) (hs : r.stage = .sent) (ha : s.arriving line = false) (hl : s.leaving line = false)
    (hp : ∀ q ∈ s.coh.reqs, q.line = line → q.stage ≠ .probing) :
    ∃ t q, exec (.homeRequest core line) s = .next t ∧ { t with coh := s.coh } = s ∧ t.coh.sleeps line = false ∧
      t.coh.lines.map (fun l => { l with stamp := none }) = s.coh.lines.map (fun l => { l with stamp := none }) ∧
      (s.coh.sleeps line = false → t.coh.lines = s.coh.lines) ∧ t.coh.req? core line = some q ∧ q.stage = .probing ∧ q.own = r.own ∧
      ∀ c, c ∈ q.wait ↔ c ≠ core ∧ ((s.coh.line line).owner = some c ∨ (r.own = true ∧ c ∈ (s.coh.line line).holders)) ∧
        (r.priv = true ∨ Config.hostBase ≤ line ∨ s.coh.names line c = true) := by
  obtain ⟨hcore, hline⟩ := req?_name hr
  have hrest := woken_rest s.coh line
  have hreqs : (s.coh.woken line).reqs = s.coh.reqs := (congrArg Coh.reqs hrest :)
  have hnames (c : CoreId) : (s.coh.woken line).names line c = s.coh.names line c := (congrArg (fun x : Coh => x.names line c) hrest :)
  refine ⟨_, probedReq s line r, exec_homeRequest hr hs ha hl hp, rfl, sleeps_woken .., sameButStamps_woken .., fun h => ?_, ?_, rfl, rfl, fun c => ?_⟩
  · exact (congrArg Coh.lines (woken_of_awake h) :)
  · exact req?_updReq (f := probedReq s line) (fun _ => ⟨rfl, rfl⟩) ((req?_congr hreqs).trans hr)
  · show c ∈ (s.coh.woken line).asked r ↔ _
    rw [mem_asked, hcore, hline, (sameButStamps_woken ..).owner, (sameButStamps_woken ..).holders, hnames]

end

/-! ## COHERENCE_PROBE (R143, R189) -/

section
variable {core : CoreId} {line : Nat} {s : State} {r : HomeReq}

theorem yield_addr (l : Line) (core : CoreId) (own : Bool) : (l.yield core own).addr = l.addr := by
  unfold Line.yield
  split
  · rfl
  · split <;> rfl

theorem not_mem_filter_ne (core : CoreId) (l : List CoreId) : core ∉ l.filter (· ≠ core) := by simp

/-- For ownership a holder gives up its copy. -/
theorem yield_own (l : Line) (core : CoreId) : core ∉ (l.yield core true).holders ∧ (l.yield core true).owner ≠ some core := by
  constructor
  · exact not_mem_filter_ne core l.holders
  · show (if l.owner = some core then none else l.owner) ≠ some core
    split
    · exact Option.some_ne_none core |>.symm
    · assumption

/-- For a read it keeps no writable one. -/
theorem yield_read (l : Line) (core : CoreId) : (l.yield core false).state = .o ∨ (l.yield core false).state = .s := by
  obtain ⟨a, st, o, h, p, x⟩ := l
  cases st
  case m | o => exact .inl rfl
  case i | s | e => exact .inr rfl

theorem line_yield (c : Coh) (core : CoreId) (line : Nat) (own : Bool) :
    (c.setLine ((c.line line).yield core own)).line line = (c.line line).yield core own :=
  line_setLine_same c ((yield_addr ..).trans (line_addr ..))

theorem owns_yield (c : Coh) (core : CoreId) (line : Nat) (own : Bool) : (c.setLine ((c.line line).yield core own)).owns core line = false := by
  unfold Coh.owns
  dsimp only
  rw [line_yield]
  cases own with
  | true => simp [(yield_own (c.line line) core).2]
  | false => rcases yield_read (c.line line) core with h | h <;> rw [h] <;> rfl

/-- The machine once a holder has given up a line, or its writable copy, for a request. -/
def lineYielded (s : State) (core : CoreId) (line : Nat) (r : HomeReq) : State :=
  { s with coh := s.coh.setLine ((s.coh.line line).yield core r.own) }.updReq r.core line fun q =>
    { q with wait := q.wait.filter (· ≠ core), acks := q.acks ++ [core] }

/-- A holder that still wants the line asks for it again (R189): its new request waits for nobody yet. -/
theorem askedAgain_reqs (b : Bool) (t : State) (core : CoreId) (line : Nat) (priv : Bool) :
    ∃ rs, (if b then t.request core line true priv else t) = { t with coh := { t.coh with reqs := rs } } ∧
      ∀ q ∈ rs, q ∈ t.coh.reqs ∨ q.wait = [] := by
  cases b with
  | false => exact ⟨t.coh.reqs, rfl, fun q hq => .inl hq⟩
  | true =>
    obtain ⟨rs, hrs⟩ := request_state t core line true priv
    exact ⟨rs, hrs, fun q hq => mem_request (own := true) (priv := priv) ((congrArg (fun u : State => q ∈ u.coh.reqs) hrs).mpr hq)⟩

theorem exec_coherenceProbe (hr : (s.coh.reqs.find? fun r => r.line = line && r.stage == .probing && r.wait.contains core) = some r)
    (hl : ∀ l, s.lockOf line = some l → l.2 ≠ core) :
    exec (.coherenceProbe core line) s = .next (if r.own && (lineYielded s core line r).wants core line then
      (lineYielded s core line r).request core line true r.priv else lineYielded s core line r) := by
  have hany : (s.lockOf line).any (fun l => l.2 == core) = false := by
    cases h : s.lockOf line with
    | none => rfl
    | some l => exact beq_false_of_ne (hl l h)
  show execCoherenceProbe core line s = _
  simp only [execCoherenceProbe, hr, hany]
  rfl

theorem holderAnswers (hr : (s.coh.reqs.find? fun r => r.line = line && r.stage == .probing && r.wait.contains core) = some r)
    (hl : ∀ l, s.lockOf line = some l → l.2 ≠ core) :
    ∃ t, exec (.coherenceProbe core line) s = .next t ∧ ({ t with coh := s.coh } = s ∧ ∀ l, l ≠ line → t.coh.line l = s.coh.line l) ∧
      t.coh.owns core line = false ∧ (r.own = true → core ∉ (t.coh.line line).holders ∧ (t.coh.line line).owner ≠ some core) ∧
      ∀ q ∈ t.coh.reqs, q.core = r.core → q.line = line → core ∉ q.wait := by
  obtain ⟨rs, he, hrs⟩ := askedAgain_reqs (r.own && (lineYielded s core line r).wants core line) (lineYielded s core line r) core line r.priv
  have haddr : ((s.coh.line line).yield core r.own).addr = line := (yield_addr ..).trans (line_addr ..)
  refine ⟨_, (exec_coherenceProbe hr hl).trans (congrArg _ he), ⟨rfl, fun l h => ?_⟩, owns_yield .., fun h => ?_, fun q hq hc hline hmem => ?_⟩
  · exact line_setLine_other s.coh (h.trans_eq haddr.symm)
  · have hown := yield_own (s.coh.line line) core
    rw [← h, ← line_yield] at hown
    exact hown
  · rcases hrs q hq with hq | hq
    · obtain ⟨p, -, ⟨-, rfl⟩ | ⟨hn, rfl⟩⟩ := mem_updReq hq
      · exact not_mem_filter_ne core p.wait hmem
      · exact hn ⟨hc, hline⟩
    · exact List.not_mem_nil (hq ▸ hmem)

/-! ## INVALIDATION_ACK (R143) -/

theorem answerArrives (core : CoreId) (line : Nat) (s : State) :
    ∃ t, exec (.invalidationAck core line) s = .next t ∧ ({ t with coh := s.coh } = s ∧ ∀ l, l ≠ line → t.coh.line l = s.coh.line l) ∧
      t.coh.lines = s.coh.lines ∧ t.coh.reqs.length = s.coh.reqs.length ∧ ∀ q ∈ t.coh.reqs, q.line = line → core ∉ q.acks := by
  refine ⟨_, rfl, ⟨rfl, fun _ _ => rfl⟩, rfl, List.length_map .., fun q hq hline hmem => ?_⟩
  obtain ⟨p, -, rfl⟩ := List.mem_map.mp hq
  split at hmem
  · exact not_mem_filter_ne core p.acks hmem
  · next h => exact h (by rwa [if_neg h] at hline)

/-! ## OWNERSHIP_GRANT (R143) -/

theorem exec_ownershipGrant (hr : s.coh.req? core line = some r) (hg : s.grantable r = true) :
    exec (.ownershipGrant core line) s = .next { s with coh := s.coh.grant r } := by
  show execOwnershipGrant core line s = _
  simp only [execOwnershipGrant, hr, hg, when_, if_true]

/-- A granted request is gone. -/
theorem req?_grantedHome (c : Coh) (r : HomeReq) : (grantedHome c r).req? r.core r.line = none :=
  List.find?_eq_none.mpr fun q hq => by simpa [imp_iff_not_or] using (List.mem_filter.mp hq).2

theorem ownershipGranted (hr : s.coh.req? core line = some r) (hg : s.grantable r = true) (ho : r.own = true) :
    ∃ t, exec (.ownershipGrant core line) s = .next t ∧ { t with coh := s.coh } = s ∧ t.coh.sleeps line = false ∧
      (∀ l, l ≠ line → { t.coh.line l with stamp := none } = { s.coh.line l with stamp := none }) ∧
      (s.coh.sleeps line = false → { t with coh := s.coh } = s ∧ ∀ l, l ≠ line → t.coh.line l = s.coh.line l) ∧
      t.coh.owns core line = true ∧ (t.coh.line line).state = .m ∧ (t.coh.line line).holders = [core] ∧ t.coh.req? core line = none := by
  obtain ⟨rfl, rfl⟩ := req?_name hr
  have D := grant_own (c := s.coh) ho
  have hline (l : Nat) : (s.coh.grant r).line l = (grantedHome s.coh r).line l := line_congr D.lines l
  have haddr : (grantedLine s.coh r).addr = r.line := line_addr ..
  have hmine : (s.coh.grant r).line r.line = grantedLine s.coh r := (hline _).trans (line_setLine_same _ haddr)
  have hother (l : Nat) (h : l ≠ r.line) : (s.coh.grant r).line l = (s.coh.woken r.line).line l :=
    (hline l).trans (line_setLine_other _ (h.trans_eq haddr.symm))
  refine ⟨_, exec_ownershipGrant hr hg, rfl, ?_, fun l h => ?_, fun h => ⟨rfl, fun l hl => ?_⟩, ?_, ?_, ?_, ?_⟩
  · exact (sleeps_congr D.asleep _).trans (sleeps_woken ..)
  · exact (congrArg unstamped (hother l h)).trans ((sameButStamps_woken ..).line l)
  · exact (hother l hl).trans (line_congr (congrArg Coh.lines (woken_of_awake h)) l)
  · show (s.coh.grant r).owns r.core r.line = true
    unfold Coh.owns
    rw [hmine]
    simp [grantedLine]
  · exact congrArg Line.state hmine
  · exact congrArg Line.holders hmine
  · exact (req?_congr D.reqs).trans (req?_grantedHome ..)

end

/-! ## Generations and banks (R152, R153) -/

section
variable {die slice : Nat} {s : State}

/-- The stamps that a sweep of a slice marks old (R152). -/
def sweptAt (dg slice : Nat) (l : Line) (x : Nat) : Bool := decide (stampLag dg x ≥ 2 ^ 14) && sliceOf l.addr == slice

theorem sweptAt_iff {dg : Nat} {l : Line} {x : Nat} : sweptAt dg slice l x = true ↔ sliceOf l.addr = slice ∧ 2 ^ 14 ≤ (dg + 65536 - x) % 65536 := by
  simp [sweptAt, stampLag, and_comm]

/-- STAMP_SWEEP of an awake slice marks old the lines whose stamps lag by 2^14 or more. -/
theorem sweeps (ha : (s.coh.asleep.any fun a => a.1 == die && a.2.1 == slice) = false) :
    ∃ t, exec (.stampSweep die slice) s = .next t ∧ { t with coh := s.coh } = s ∧
      ∀ (n : Nat) (l : Line), s.coh.lines[n]? = some l → ∃ m, t.coh.lines[n]? = some m ∧ { m with stamp := l.stamp } = l ∧
        (l.stamp = none → m.stamp = none) ∧
        ∀ x, l.stamp = some x → m.stamp =
          if homeDie l.addr = die ∧ sliceOf l.addr = slice ∧ 2 ^ 14 ≤ (s.coh.dg.getD die 0 + 65536 - x) % 65536 then none else some x := by
  refine ⟨{ s with coh := s.coh.markOld die (sweptAt (s.coh.dg.getD die 0) slice) }, ?_, rfl,
    fun n l hl => ⟨aged die (sweptAt (s.coh.dg.getD die 0) slice) l, ?_, ?_, fun h => ?_, fun x hx => ?_⟩⟩
  · show execStampSweep die slice s = _
    simp only [execStampSweep, when_, ha]
    rfl
  · exact (List.getElem?_map ..).trans (congrArg (Option.map _) hl)
  · exact (congrArg (fun m : Line => { m with stamp := l.stamp }) (unstamped_aged die _ l) :)
  · rw [aged_none h, h]
  · rw [aged_some hx, apply_ite Line.stamp, hx]
    exact if_congr (and_congr_right fun _ => sweptAt_iff) rfl rfl

theorem bankSleeps (ha : (s.coh.asleep.any fun a => a.1 == die && a.2.1 == slice) = false) :
    ∃ t, exec (.bankSleep die slice) s = .next t ∧ { t with coh := s.coh } = s ∧ { t.coh with asleep := s.coh.asleep } = s.coh ∧
      t.coh.asleep = (die, slice, s.coh.dg.getD die 0) :: s.coh.asleep := by
  refine ⟨{ s with coh := { s.coh with asleep := (die, slice, s.coh.dg.getD die 0) :: s.coh.asleep } }, ?_, rfl, rfl, rfl⟩
  show execBankSleep die slice s = _
  simp only [execBankSleep, when_, ha]
  rfl

/-- The stamps that a bank marks old when it wakes (R153), `was` its recorded generation. -/
def oldAtWake (dg was slice : Nat) (l : Line) (x : Nat) : Bool :=
  sliceOf l.addr == slice && (decide (2 ^ 15 ≤ dg - was) || decide (stampLag dg x ≥ 2 ^ 14))

theorem wake_lines {c : Coh} {was : Nat} (hf : (c.asleep.find? fun a => a.1 = die ∧ a.2.1 = slice) = some (die, slice, was)) :
    (c.wake die slice).lines = c.lines.map (aged die (oldAtWake (c.dg.getD die 0) was slice)) := by
  simp only [Coh.wake, hf]
  rfl

/-- A bank that has slept for 2^15 generations wakes with every line old. -/
theorem wake_old {c : Coh} {was : Nat} (hf : (c.asleep.find? fun a => a.1 = die ∧ a.2.1 = slice) = some (die, slice, was))
    (hw : was + 2 ^ 15 ≤ c.dg.getD die 0) : ∀ l ∈ (c.wake die slice).lines, homeDie l.addr = die → sliceOf l.addr = slice → l.stamp = none := by
  intro l hl hd hs
  rw [wake_lines hf] at hl
  obtain ⟨m, -, rfl⟩ := List.mem_map.mp hl
  rw [addr_aged] at hd hs
  cases hm : m.stamp with
  | none => rw [aged_none hm, hm]
  | some x =>
    have hold : oldAtWake (c.dg.getD die 0) was slice m x = true := by
      rw [oldAtWake, hs, decide_eq_true (Nat.le_sub_of_add_le' hw), beq_self_eq_true]
      rfl
    rw [aged_some hm, if_pos ⟨hd, hold⟩]
    rfl

theorem bankWakes {was : Nat} (hf : (s.coh.asleep.find? fun a => a.1 = die ∧ a.2.1 = slice) = some (die, slice, was))
    (hw : was + 2 ^ 15 ≤ s.coh.dg.getD die 0) :
    ∃ t, exec (.bankWake die slice) s = .next t ∧ { t with coh := s.coh } = s ∧ (∀ a ∈ t.coh.asleep, ¬(a.1 = die ∧ a.2.1 = slice)) ∧
      ∀ l ∈ t.coh.lines, homeDie l.addr = die → sliceOf l.addr = slice → l.stamp = none :=
  ⟨{ s with coh := s.coh.wake die slice }, rfl, rfl, not_asleep_wake s.coh die slice, wake_old hf hw⟩

end

/-! ## Narrow releases (R180 to R182, R191) -/

section
variable {c d e : Coh} {die cluster : Nat} {gen : Option Nat} {x : Narrow}

/-- A completion of narrow releases frees records; the lines and the generations of the dies stand. -/
structure Freed (c d : Coh) : Prop where
  narrows : ∀ x ∈ d.narrows, x ∈ c.narrows
  lines : d.lines = c.lines
  dg : d.dg = c.dg

theorem Freed.trans (h : Freed c d) (h' : Freed d e) : Freed c e :=
  ⟨fun x hx => h.narrows x (h'.narrows x hx), h'.lines.trans h.lines, h'.dg.trans h.dg⟩

theorem freed_complete (c : Coh) (die cluster : Nat) (gen : Option Nat) : Freed c (c.complete die cluster gen) :=
  ⟨fun _ hx => (List.mem_filter.mp hx).1, rfl, rfl⟩

/-- A completion that completes its dependences first does no more, however deep their chain. -/
theorem freed_widen (n : Nat) (c : Coh) (die cluster : Nat) (gen : Option Nat) : Freed c (Coh.widen n c die cluster gen) := by
  induction n generalizing c die cluster gen with
  | zero => exact freed_complete ..
  | succ n ih =>
    rw [Coh.widen]
    refine Freed.trans ?_ (freed_complete ..)
    exact List.foldlRecOn _ _ (motive := Freed c) ⟨fun _ hx => hx, rfl, rfl⟩ fun d h x _ => h.trans (ih ..)

theorem not_within_complete (h : x ∈ (c.complete die cluster gen).narrows) : ¬(x.die = die ∧ x.cluster = cluster ∧ genWithin gen x.gen = true) := by
  simpa [imp_iff_not_or, or_assoc] using (List.mem_filter.mp h).2

/-- No record of the cluster at or before the generation is left. -/
theorem not_within_widen {n : Nat} (h : x ∈ (Coh.widen n c die cluster gen).narrows) :
    ¬(x.die = die ∧ x.cluster = cluster ∧ genWithin gen x.gen = true) := by
  cases n <;> exact not_within_complete h

theorem genBefore_refl (g : Nat) : genBefore g g = true := decide_eq_true (by omega)

theorem advance_dg (h : die < c.dg.length) : (c.advance die).dg.getD die 0 = c.dg.getD die 0 + 1 := by
  show (c.dg.set die (c.dg.getD die 0 + 1)).getD die 0 = _
  simp [h]

theorem recordFreed {s : State} {line : Nat} {n : Narrow}
    (hn : (s.coh.narrows.find? fun n => n.line = line && n.die = die && n.cluster = cluster && n.asked) = some n) (hd : die < s.coh.dg.length) :
    ∃ t, exec (.widenAnswer line die cluster) s = .next t ∧ { t with coh := s.coh } = s ∧ n ∉ t.coh.narrows ∧
      (∀ x ∈ t.coh.narrows, x ∈ s.coh.narrows) ∧ t.coh.dg.getD die 0 = s.coh.dg.getD die 0 + 1 := by
  have F := freed_widen widenDepth s.coh die cluster (some n.gen)
  have hname : ((n.line = line ∧ n.die = die) ∧ n.cluster = cluster) ∧ n.asked = true := by simpa using List.find?_some hn
  obtain ⟨⟨⟨-, hdie⟩, hcl⟩, -⟩ := hname
  refine ⟨{ s with coh := (Coh.widen widenDepth s.coh die cluster (some n.gen)).advance die }, ?_, rfl, fun h => ?_, F.narrows, ?_⟩
  · show execWidenAnswer line die cluster s = _
    simp only [execWidenAnswer, hn]
  · exact not_within_widen h ⟨hdie, hcl, genBefore_refl _⟩
  · rw [← F.dg]
    exact advance_dg (F.dg ▸ hd)

theorem narrowsCompleted (die cluster gen : Nat) (s : State) :
    ∃ t, exec (.narrowReleaseComplete die cluster gen) s = .next t ∧ { t with coh := s.coh } = s ∧ (∀ x ∈ t.coh.narrows, x ∈ s.coh.narrows) ∧
      t.coh.lines = s.coh.lines ∧
      ∀ x ∈ t.coh.narrows, x.die = die → x.cluster = cluster → 32768 ≤ (gen % 65536 + 65536 - x.gen) % 65536 := by
  have F := freed_widen widenDepth s.coh die cluster (some (gen % 65536))
  refine ⟨_, rfl, rfl, F.narrows, F.lines, fun x hx hd hc => ?_⟩
  exact Nat.not_lt.mp fun hlt => not_within_widen hx ⟨hd, hc, decide_eq_true hlt⟩

end

/-- Settles O45: each event changes the home state alone, and each clause is the lemma of its event above. -/
theorem homesAndScopes : Obligations.HomesAndScopes := by
  unfold Obligations.HomesAndScopes
  constructor
  · intro core line s r
    exact ⟨fun hr hs ha hl hp => requestBegins hr hs ha hl hp, fun hr hl => holderAnswers hr hl, answerArrives core line s,
      fun hr hg ho => ownershipGranted hr hg ho⟩
  · intro die slice s
    exact ⟨fun ha => sweeps ha, fun ha => bankSleeps ha, fun was hf hw => bankWakes hf hw, fun line cluster n hn hd => recordFreed hn hd,
      fun cluster gen => narrowsCompleted die cluster gen s⟩

end Sys2Proof.Claims
end

section
/-! PROOF. Translations and page migrations: what ends a TLB invalidation (R138), a migration (R139, R140, R150) and a walk's wait (R166). -/

namespace Sys2Proof.Claims

open Sys2Proof.Machine Sys2Proof.Laws

/-! ## The bytes of a copied page (R139) -/

section
variable {m : Memory} {l : List Host.Cell}

theorem cellAt_filter (l : List Host.Cell) (p : Nat → Bool) (x : Nat) : cellAt (l.filter fun c => p c.1) x = if p x then cellAt l x else 0 := by
  induction l with
  | nil => exact (ite_self _).symm
  | cons c r ih =>
    obtain ⟨a, b⟩ := c
    rw [List.filter_cons]
    by_cases hx : a = x
    · subst hx
      by_cases hp : p a <;> simp [hp, cellAt, ih]
    · by_cases hp : p a <;> simp [hp, hx, cellAt, ih]

theorem cellsWf_of_le {lo k : Nat} (h : cellsWf lo l = true) (hk : ∀ c ∈ l, k ≤ c.1) : cellsWf k l = true := by
  cases l with
  | nil => rfl
  | cons c r =>
    simp only [cellsWf, Bool.and_eq_true, decide_eq_true_eq] at h ⊢
    exact ⟨⟨hk c List.mem_cons_self, h.1.2⟩, h.2⟩

/-- The bytes listed from `src` upward put at `dst` upward: each of them stands in its new place. -/
theorem get_moveCells {src dst lo : Nat} (hm : m.wf = true) (hl : cellsWf lo l = true) (hlo : src ≤ lo) (x : Nat) :
    (l.foldl (fun m c => m.put (dst + (c.1 - src)) c.2) m).get x =
      if dst ≤ x ∧ cellAt l (src + (x - dst)) ≠ 0 then cellAt l (src + (x - dst)) else m.get x := by
  induction l generalizing m lo with
  | nil => simp [cellAt]
  | cons c r ih =>
    obtain ⟨a, b⟩ := c
    have hat : cellAt ((a, b) :: r) (src + (x - dst)) = if a = src + (x - dst) then b else cellAt r (src + (x - dst)) := rfl
    simp only [cellsWf, Bool.and_eq_true, decide_eq_true_eq] at hl
    obtain ⟨⟨hla, hb⟩, hr⟩ := hl
    rw [List.foldl_cons, ih (wf_put hm ..) hr (by omega), hat]
    by_cases hx : x = dst + (a - src)
    · rw [if_neg (fun h => h.2 (cellAt_below hr (by omega))), if_pos (show a = src + (x - dst) by omega), hx, get_put_same hm, if_pos ⟨by omega, hb⟩]
    · rw [get_put_other m hx]
      by_cases hd : dst ≤ x
      · rw [if_neg (show ¬a = src + (x - dst) by omega)]
      · rw [if_neg (fun h => hd h.1), if_neg (fun h => hd h.1)]

/-- The bytes listed in a page. -/
def pageCells (m : Memory) (base size : Nat) : List Host.Cell := m.cells.filter fun c => inPage c.1 base size

/-- A memory with a page emptied. -/
def emptied (m : Memory) (base size : Nat) : Memory := ⟨m.cells.filter fun c => !inPage c.1 base size⟩

theorem inPage_iff {a base size : Nat} : inPage a base size = true ↔ base ≤ a ∧ a < base + size := by
  simp [inPage]

theorem cellAt_pageCells (m : Memory) (base size a : Nat) : cellAt (pageCells m base size) a = if inPage a base size then m.get a else 0 :=
  cellAt_filter m.cells (fun n => inPage n base size) a

theorem get_emptied (m : Memory) (base size a : Nat) : (emptied m base size).get a = if !inPage a base size then m.get a else 0 :=
  cellAt_filter m.cells (fun n => !inPage n base size) a

theorem wf_pageCells (hm : m.wf = true) (base size : Nat) : cellsWf base (pageCells m base size) = true :=
  cellsWf_of_le (cellsWf_filter hm _) fun _ hc => (inPage_iff.mp (List.mem_filter.mp hc).2).1

theorem copyPage_mem (r : Ram) (src dst size : Nat) :
    (r.copyPage src dst size).mem =
      (pageCells r.mem src size).foldl (fun m c => m.put (dst + (c.1 - src)) c.2) (emptied r.mem dst size) := by
  unfold Ram.copyPage
  extract_lets bytes mem tags bad keys t u
  have hu : u.mem = t.mem := mem_foldl (f := fun t l => t.taint (dst + (l - src)) 64) (fun _ _ => taint_mem ..) bad t
  rw [counted_mem, mem_foldl (fun _ _ => push_mem ..), hu]
  rfl

/-- What a page's copy leaves at an address: in its place the byte it had, elsewhere the byte that stood there. -/
theorem get_copyPage {r : Ram} (hm : r.mem.wf = true) (src dst size a : Nat) :
    (r.copyPage src dst size).mem.get a = if dst ≤ a ∧ a < dst + size then r.mem.get (src + (a - dst)) else r.mem.get a := by
  have hwf : (emptied r.mem dst size).wf = true := cellsWf_filter hm _
  rw [copyPage_mem, get_moveCells hwf (wf_pageCells hm src size) le_rfl, cellAt_pageCells, get_emptied]
  by_cases hin : dst ≤ a ∧ a < dst + size
  · have hsrc : inPage (src + (a - dst)) src size = true := inPage_iff.mpr (by omega)
    rw [if_pos hsrc, inPage_iff.mpr hin, if_pos hin]
    split
    · rfl
    · next h => exact (by_contra fun hz => h ⟨hin.1, fun h0 => hz h0.symm⟩)
  · have hdst : inPage a dst size = false := Bool.eq_false_of_not_eq_true fun h => hin (inPage_iff.mp h)
    have hsrc : dst ≤ a → inPage (src + (a - dst)) src size = false := fun h =>
      Bool.eq_false_of_not_eq_true fun h' => hin ⟨h, by have := inPage_iff.mp h'; omega⟩
    rw [if_neg hin, if_neg fun h => h.2 (if_neg (by rw [hsrc h.1]; exact Bool.false_ne_true)), hdst]
    rfl

end

/-! ## Numbers in memory -/

section
variable {m : Memory} {a b n k x : Nat}

theorem num_lt (m : Memory) (a n : Nat) : m.num a n < 2 ^ (8 * n) := by
  have h := leNat_lt (m.getN a n)
  rwa [Memory.getN, List.length_map, List.length_range] at h

theorem num_putN_same (hm : m.wf = true) (a n x : Nat) : (m.putN a (leBytes n x)).num a n = x % 2 ^ (8 * n) := by
  rw [← leNat_leBytes, Memory.num]
  refine congrArg leNat (List.ext_getElem (by simp [Memory.getN, leBytes_length]) fun i hi hj => ?_)
  rw [leBytes_length] at hj
  simp [Memory.getN, get_putN hm, leBytes_length, hj]

theorem word_lt (m : Memory) (a : Nat) : m.num a 8 < 2 ^ 64 := by
  have h := num_lt m a 8
  rwa [show 8 * 8 = 64 from rfl] at h

theorem word_putN_same (hm : m.wf = true) (a x : Nat) : (m.putN a (leBytes 8 x)).num a 8 = x % 2 ^ 64 := by
  have h := num_putN_same hm a 8 x
  rwa [show 8 * 8 = 64 from rfl] at h

theorem num_putN_other (hm : m.wf = true) {d : List Byte} (h : b + k ≤ a ∨ a + d.length ≤ b) : (m.putN a d).num b k = m.num b k := by
  refine congrArg leNat (List.map_congr_left fun i hi => ?_)
  have := List.mem_range.mp hi
  exact get_putN_outside hm (by omega)

end

/-! ## The leaves of the tables (R135) -/

section
variable {s : State} {m : Memory} {x : Nat × Nat × Nat}

theorem aligned_of_tableWords {tab a : Nat} (h : a ∈ tableWords m tab) : a % 8 = 0 := by
  obtain ⟨c, -, rfl⟩ := List.mem_map.mp (List.mem_eraseDups.mp h)
  exact Nat.mul_mod_left ..

/-- A leaf stands at an aligned word and is what that word holds. -/
theorem leaf_word {n tab : Nat} (h : x ∈ tableLeaves m n tab) : x.1 % 8 = 0 ∧ x.2.1 = m.num x.1 8 := by
  induction n generalizing tab with
  | zero => exact absurd h List.not_mem_nil
  | succ n ih =>
    obtain ⟨a, ha, hx⟩ := List.mem_flatMap.mp h
    dsimp only at hx
    split at hx
    · exact absurd hx List.not_mem_nil
    · split at hx
      · split at hx
        · rw [List.mem_singleton.mp hx]
          exact ⟨aligned_of_tableWords ha, rfl⟩
        · exact absurd hx List.not_mem_nil
      · split at hx
        · exact absurd hx List.not_mem_nil
        · exact ih hx

theorem leaves_word (h : x ∈ s.leaves) : x.1 % 8 = 0 ∧ x.2.1 = s.ram.mem.num x.1 8 := by
  obtain ⟨p, -, h⟩ := List.mem_flatMap.mp h
  obtain ⟨c, -, h⟩ := List.mem_flatMap.mp h
  exact leaf_word h

end

/-! ## The entries that a migration rewrites (R139, R140) -/

section
variable {s : State} {m : Memory} {l : List (Nat × Nat × Nat)} {f : Nat → Nat}

/-- Firmware writes the entries of some leaves, one after another. -/
def writePtes (m : Memory) (l : List (Nat × Nat × Nat)) (f : Nat → Nat) : Memory := l.foldl (fun m x => m.putN x.1 (leBytes 8 (f x.2.1))) m

theorem writePtes_cons (m : Memory) (x : Nat × Nat × Nat) (l : List (Nat × Nat × Nat)) (f : Nat → Nat) :
    writePtes m (x :: l) f = writePtes (m.putN x.1 (leBytes 8 (f x.2.1))) l f := rfl

theorem get_writePtes (hm : m.wf = true) {a : Nat} (ha : ∀ x ∈ l, a < x.1 ∨ x.1 + 8 ≤ a) : (writePtes m l f).get a = m.get a := by
  induction l generalizing m with
  | nil => rfl
  | cons x l ih =>
    rw [writePtes_cons, ih (wf_putN hm ..) fun y hy => ha y (List.mem_cons_of_mem _ hy), get_putN_outside hm]
    rw [leBytes_length]
    exact ha x List.mem_cons_self

/-- A word that is not among the leaves' words stands. -/
theorem num_writePtes_other (hm : m.wf = true) (hl : ∀ x ∈ l, x.1 % 8 = 0) {w : Nat} (hw : w % 8 = 0) (hn : ∀ x ∈ l, x.1 ≠ w) :
    (writePtes m l f).num w 8 = m.num w 8 := by
  refine congrArg leNat (List.map_congr_left fun i hi => get_writePtes hm fun x hx => ?_)
  have h1 := hl x hx
  have h2 := hn x hx
  have h3 := List.mem_range.mp hi
  omega

/-- Each leaf's word holds what was written for it, in whatever order and however often: the leaves at one word hold one entry. -/
theorem num_writePtes (hm : m.wf = true) {e : Nat → Nat} (hl : ∀ x ∈ l, x.1 % 8 = 0 ∧ x.2.1 = e x.1) {x : Nat × Nat × Nat} (hx : x ∈ l) :
    (writePtes m l f).num x.1 8 = f x.2.1 % 2 ^ 64 := by
  induction l generalizing m x with
  | nil => exact absurd hx List.not_mem_nil
  | cons y l ih =>
    have hrest : ∀ z ∈ l, z.1 % 8 = 0 ∧ z.2.1 = e z.1 := fun z hz => hl z (List.mem_cons_of_mem _ hz)
    rw [writePtes_cons]
    by_cases hmem : ∃ z ∈ l, z.1 = x.1
    · obtain ⟨z, hz, hzx⟩ := hmem
      rw [(hl x hx).2, ← hzx, ← (hrest z hz).2]
      exact ih (wf_putN hm ..) hrest hz
    · rcases List.mem_cons.mp hx with rfl | hx
      · rw [num_writePtes_other (wf_putN hm ..) (fun z hz => (hrest z hz).1) (hl x List.mem_cons_self).1 fun z hz h => hmem ⟨z, hz, h⟩,
          word_putN_same hm]
      · exact absurd ⟨x, hx, rfl⟩ hmem

/-- The leaves that a migration has set MIG in: those that map its destination. -/
def movingLeaves (s : State) (m : Migration) : List (Nat × Nat × Nat) :=
  s.leaves.filter fun x => pteMig x.2.1 && pteMt x.2.1 == 0 && inPage (ptePpn x.2.1) m.dst m.size

theorem movingLeaves_word {m : Migration} {x : Nat × Nat × Nat} (h : x ∈ movingLeaves s m) : x.1 % 8 = 0 ∧ x.2.1 = s.ram.mem.num x.1 8 :=
  leaves_word (List.mem_filter.mp h).1

theorem bypass_migs (s : State) (l : Nat) : (s.bypass l).coh.migs = s.coh.migs := by
  unfold State.bypass
  split
  · rfl
  · exact (congrArg Coh.migs (directoryOnly_trim ((s.coh.woken l).setLine _) l) :).trans (congrArg Coh.migs (woken_rest s.coh l) :)

theorem ioPut_migs (s : State) (a : Nat) (d : List Byte) (k : StoreKind) : (s.ioPut a d k).coh.migs = s.coh.migs :=
  List.foldlRecOn (linesOf a d.length) State.bypass (motive := fun t : State => t.coh.migs = s.coh.migs) rfl fun t h l _ => (bypass_migs t l).trans h

/-- The machine once firmware has written the entries of some leaves. -/
def putPtes (s : State) (l : List (Nat × Nat × Nat)) (f : Nat → Nat) : State :=
  l.foldl (fun s x => s.ioPut x.1 (leBytes 8 (f x.2.1)) plainStore) s

theorem rewritePtes_eq (s : State) (m : Migration) (f : Nat → Nat) : s.rewritePtes m f = putPtes s (movingLeaves s m) f := rfl

theorem putPtes_cons (s : State) (x : Nat × Nat × Nat) (l : List (Nat × Nat × Nat)) (f : Nat → Nat) :
    putPtes s (x :: l) f = putPtes (s.ioPut x.1 (leBytes 8 (f x.2.1)) plainStore) l f := rfl

/-- Writing entries changes memory, and of the homes nothing of a migration. -/
theorem putPtes_state (s : State) (l : List (Nat × Nat × Nat)) (f : Nat → Nat) :
    { putPtes s l f with ram := s.ram, coh := s.coh } = s ∧ (putPtes s l f).coh.migs = s.coh.migs := by
  induction l generalizing s with
  | nil => exact ⟨rfl, rfl⟩
  | cons x l ih =>
    have hput := ioPut_state s x.1 (leBytes 8 (f x.2.1)) plainStore
    obtain ⟨hrest, hmigs⟩ := ih (s.ioPut x.1 (leBytes 8 (f x.2.1)) plainStore)
    rw [putPtes_cons]
    refine ⟨?_, hmigs.trans (ioPut_migs ..)⟩
    exact (congrArg (fun t : State => { t with ram := s.ram, coh := s.coh }) hrest :).trans (congrArg (fun t : State => { t with ram := s.ram }) hput :)

theorem putPtes_mem (s : State) (l : List (Nat × Nat × Nat)) (f : Nat → Nat) : (putPtes s l f).ram.mem = writePtes s.ram.mem l f := by
  induction l generalizing s with
  | nil => rfl
  | cons x l ih =>
    have hput := ioPut_state s x.1 (leBytes 8 (f x.2.1)) plainStore
    rw [putPtes_cons, ih, writePtes_cons, show (s.ioPut x.1 (leBytes 8 (f x.2.1)) plainStore).ram = _ from (congrArg State.ram hput :), write_mem]

end

/-! ## The end of a migration (R139, R140, R150) -/

section
variable {s : State} {m : Migration} {src dst id : Nat} {f : Nat → Nat} {body : List Byte}

/-- The machine once a migration has ended in `s`: what was meant for the page at `src` goes to `dst`, the entries are rewritten, and the
requester is answered. -/
def migrationEnded (s : State) (m : Migration) (src dst : Nat) (f : Nat → Nat) (body : List Byte) : State :=
  ((s.redirect src dst m.size).rewritePtes m f).answer m.mbox.1 m.mbox.2 0 body

/-- The teams of a machine with the lines locked in the page at `src` locked in the page at `dst`. -/
def relocked (s : State) (src dst size : Nat) : List Team :=
  s.teams.map fun t => { t with ranks := t.ranks.map fun r =>
    { r with locks := r.locks.map fun l => (if src ≤ l.1 ∧ l.1 < src + size then dst + (l.1 - src) else l.1, l.2) } }

theorem redirect_teams (s : State) (src dst size : Nat) : (s.redirect src dst size).teams = relocked s src dst size := by
  have hto (a : Nat) : (if inPage a src size then dst + (a - src) else a) = if src ≤ a ∧ a < src + size then dst + (a - src) else a :=
    if_congr inPage_iff rfl rfl
  unfold State.redirect relocked
  simp only [hto]

theorem migrationEnded_front (s : State) (m : Migration) (src dst : Nat) (f : Nat → Nat) (body : List Byte) :
    (migrationEnded s m src dst f body).teams = relocked s src dst m.size ∧ (migrationEnded s m src dst f body).parts = s.parts ∧
      (migrationEnded s m src dst f body).dev.replies.head? = some ⟨m.mbox.1, m.mbox.2, 0, body⟩ ∧
      (migrationEnded s m src dst f body).coh.migs = s.coh.migs := by
  obtain ⟨hs, hmigs⟩ := putPtes_state (s.redirect src dst m.size) (movingLeaves s m) f
  exact ⟨(congrArg State.teams hs :).trans (redirect_teams ..), (congrArg State.parts hs :), rfl, hmigs⟩

theorem migrationEnded_mem (s : State) (m : Migration) (src dst : Nat) (f : Nat → Nat) (body : List Byte) :
    (migrationEnded s m src dst f body).ram.mem = writePtes s.ram.mem (movingLeaves s m) f :=
  putPtes_mem (s.redirect src dst m.size) (movingLeaves s m) f

/-- The migration that has ended is no longer under way, nor any of its number. -/
theorem ne_of_mem_filter_migs {l : List Migration} {x : Migration} (h : x ∈ l.filter fun x => x.id ≠ id) : x.id ≠ id :=
  of_decide_eq_true (List.mem_filter.mp h).2

theorem useKey_migs (c : Coh) (base size key : Nat) : (c.useKey base size key).migs = c.migs := by
  unfold Coh.useKey
  split <;> rfl

theorem copyPage_migs (c : Coh) (src dst size : Nat) : (c.copyPage src dst size).migs = c.migs := by
  unfold Coh.copyPage
  extract_lets d
  have hd : d.migs = c.migs := List.foldrRecOn _ _ (motive := fun e : Coh => e.migs = c.migs) rfl fun e h x _ => (useKey_migs ..).trans h
  exact (foldl_setLine_migs d _ _).1.trans hd

/-- The machine with a migration's page copied, and the migration no longer under way. -/
def pageCopied (s : State) (m : Migration) (id : Nat) : State :=
  { s with
    ram := s.ram.copyPage m.src m.dst m.size
    coh := Coh.copyPage { s.coh with migs := s.coh.migs.filter fun x => x.id ≠ id } m.src m.dst m.size }

theorem exec_migrationComplete (hm : (s.coh.migs.find? fun m => m.id = id) = some m) (hl : s.pageLocked m.src m.size = false) :
    exec (.migrationComplete id) s = .next (migrationEnded (pageCopied s m id) m m.src m.dst pteSettled [0]) := by
  show execMigrationComplete id s = _
  simp only [execMigrationComplete, hm, hl]
  rfl

theorem exec_migrationAbort (hm : (s.coh.migs.find? fun m => m.id = id) = some m) :
    exec (.migrationAbort id) s = .next (migrationEnded
      { s with coh := Coh.forget { s.coh with migs := s.coh.migs.filter fun x => x.id ≠ id } m.dst m.size } m m.dst m.src (pteRestored m) [1]) := by
  show execMigrationAbort id s = _
  simp only [execMigrationAbort, hm]
  rfl

theorem pteSettled_le (e : Nat) : pteSettled e ≤ e := Nat.sub_le ..

/-- The copy has ended: of the copied memory the moving entries lose MIG, and no other byte changes. -/
theorem migrationCompleted_mem (hwf : s.ram.mem.wf = true) :
    (∀ x ∈ movingLeaves (pageCopied s m id) m,
        (migrationEnded (pageCopied s m id) m m.src m.dst pteSettled body).ram.mem.num x.1 8 = pteSettled x.2.1) ∧
      ∀ a, (∀ x ∈ movingLeaves (pageCopied s m id) m, a < x.1 ∨ x.1 + 8 ≤ a) →
        (migrationEnded (pageCopied s m id) m m.src m.dst pteSettled body).ram.mem.get a =
          if m.dst ≤ a ∧ a < m.dst + m.size then s.ram.mem.get (m.src + (a - m.dst)) else s.ram.mem.get a := by
  have hu : (pageCopied s m id).ram.mem.wf = true := wf_copyPage hwf ..
  rw [migrationEnded_mem]
  refine ⟨fun x hx => ?_, fun a ha => ?_⟩
  · have hx64 : x.2.1 < 2 ^ 64 := by
      rw [(movingLeaves_word hx).2]
      exact word_lt ..
    rw [num_writePtes (e := fun w => (pageCopied s m id).ram.mem.num w 8) hu (fun _ h => movingLeaves_word h) hx]
    exact Nat.mod_eq_of_lt ((pteSettled_le _).trans_lt hx64)
  · exact (get_writePtes hu ha).trans (get_copyPage hwf ..)

end

/-! ## Translations that go, and walks that go on (R138, R166) -/

section
variable {s : State} {id : Nat}

theorem syncAnswers {y : TlbSync} {x : MboxSource × Dword} (hy : (s.coh.syncs.find? fun y => y.id = id) = some y)
    (hw : y.waits.all s.performed = true) (hx : y.mbox = some x) :
    ∃ t, exec (.tlbSyncAnswer id) s = .next t ∧ t.dev.replies.head? = some ⟨x.1, x.2, 0, []⟩ ∧ (∀ z ∈ t.coh.syncs, z.id ≠ id) ∧
      { t with coh := s.coh, dev := s.dev } = s := by
  refine ⟨{ s with coh := { s.coh with syncs := s.coh.syncs.filter fun z => z.id ≠ id } }.answer x.1 x.2 0 [], ?_, rfl,
    fun z hz => of_decide_eq_true (List.mem_filter (p := fun z : TlbSync => decide (z.id ≠ id)).mp hz).2, rfl⟩
  show execTlbSyncAnswer id s = _
  simp only [execTlbSyncAnswer, hy, hw, hx]
  rfl

/-- The contexts that share a PASID, each with its partition (R138). -/
def sharers (s : State) (pasid : Nat) : List (Nat × Nat) :=
  (List.range 16).flatMap fun n => ((s.part n).ctxs.filter fun c => c.shared && c.pasid == pasid).map fun c => (n, c.num)

theorem mem_sharers {pasid n : Nat} {c : Context} (hn : n < 16) (hc : c ∈ (s.part n).ctxs) (hs : c.shared = true) (hp : c.pasid = pasid) :
    (n, c.num) ∈ sharers s pasid :=
  List.mem_flatMap.mpr ⟨n, List.mem_range.mpr hn, List.mem_map_of_mem (List.mem_filter.mpr ⟨hc, by simp [hs, hp]⟩)⟩

/-- The translations that a host's broadcast removes. -/
def hostHits (s : State) (pasid va size : Nat) (t : TlbEntry) : Bool :=
  (sharers s pasid).contains (t.part, t.ctx) && decide (t.va < va + size) && decide (va < t.va + t.size)

theorem exec_hostTlbInvalidate {pasid va size : Nat} (hc : ∃ d ∈ s.iods, d.proto = some .cxl) :
    exec (.hostTlbInvalidate pasid va size) s = .next { s with coh := { s.coh with
      tlb := s.coh.tlb.filter fun t => !hostHits s pasid va size t
      syncs := s.coh.syncs ++ [⟨s.coh.nextId, (sharers s pasid).flatMap fun c => s.underWay c.1 c.2, none⟩]
      nextId := s.coh.nextId + 1 } } := by
  have hany : s.iods.any (fun d => d.proto == some .cxl) = true := by simpa using hc
  show execHostTlbInvalidate pasid va size s = _
  simp only [execHostTlbInvalidate, hany]
  rfl

theorem hostInvalidates {pasid va size : Nat} (hc : ∃ d ∈ s.iods, d.proto = some .cxl) :
    ∃ t, exec (.hostTlbInvalidate pasid va size) s = .next t ∧ { t with coh := s.coh } = s ∧ t.coh.lines = s.coh.lines ∧
      ∀ e ∈ t.coh.tlb, e ∈ s.coh.tlb ∧ ∀ n c, n < 16 → c ∈ (s.part n).ctxs → c.shared = true → c.pasid = pasid → e.part = n → e.ctx = c.num →
        va + size ≤ e.va ∨ e.va + e.size ≤ va := by
  refine ⟨_, exec_hostTlbInvalidate hc, rfl, rfl, fun e he => ?_⟩
  obtain ⟨hmem, hhit⟩ := List.mem_filter.mp he
  refine ⟨hmem, fun n c hn hctx hs hp h1 h2 => ?_⟩
  have hshare : (sharers s pasid).contains (e.part, e.ctx) = true := by
    rw [h1, h2]
    exact List.contains_iff_mem.mpr (mem_sharers hn hctx hs hp)
  by_contra hnot
  have hover : e.va < va + size ∧ va < e.va + e.size := by omega
  rw [hostHits, hshare, decide_eq_true hover.1, decide_eq_true hover.2] at hhit
  exact Bool.false_ne_true hhit

theorem walkResumes {k : GroupKey} {g : Group} {w : Walk} (hg : s.group? k = some g) (hw : g.walk = some w) (hr : w.ready = true) :
    ∃ t, exec (.droverWalkResume k) s = .next t ∧ ChangedGroup s t k { g with walk := some { w with fault := none, ready := false } } := by
  refine ⟨_, rfl, ?_⟩
  have h := changedGroup_updGroup hg (f := fun x => { x with walk := x.walk.map fun w => if w.ready then { w with fault := none, ready := false } else w })
    fun _ => rfl
  simpa [hw, hr] using h

end

/-- Settles O46: a migration ends alike in both of its ways (`migrationEnded`), after a copy or without one; the other events change translations, or one
group's walk. -/
theorem translationsAndMigrations : Obligations.TranslationsAndMigrations := by
  unfold Obligations.TranslationsAndMigrations
  intro s id
  refine ⟨fun y x hy hw hx => syncAnswers hy hw hx, fun pasid va size hc => hostInvalidates hc, fun m hm => ⟨fun hl hwf _ => ?_, ?_⟩,
    fun k g w hg hw hr => walkResumes hg hw hr⟩
  · obtain ⟨hteams, hparts, hreply, hmigs⟩ := migrationEnded_front (pageCopied s m id) m m.src m.dst pteSettled [0]
    refine ⟨_, exec_migrationComplete hm hl, hteams, hparts, hreply, fun x hx => ?_, migrationCompleted_mem hwf⟩
    rw [hmigs] at hx
    exact ne_of_mem_filter_migs (copyPage_migs _ m.src m.dst m.size ▸ hx)
  · obtain ⟨hteams, hparts, hreply, hmigs⟩ := migrationEnded_front
      { s with coh := Coh.forget { s.coh with migs := s.coh.migs.filter fun x => x.id ≠ id } m.dst m.size } m m.dst m.src (pteRestored m) [1]
    refine ⟨_, exec_migrationAbort hm, hteams, hparts, fun hwf a ha => ?_, hreply, fun x hx => ne_of_mem_filter_migs (hmigs ▸ hx)⟩
    rw [migrationEnded_mem]
    exact get_writePtes hwf ha

end Sys2Proof.Claims
end

section
/-! PROOF. LLOCK and LUNLK (R149, R350): the statement of them fails, in a state that its premises leave open. -/

namespace Sys2Proof.Claims

open Sys2Proof.Machine Sys2Proof.Laws

/-! ## LUNLK where two teams have one key -/

/-- The LUNLK's commit point, which has dispatched for lane 0 with a checkpoint of its own. -/
def lunlkPoint : Commit := ⟨0x1000, 0, false, 1, 0, [], [], false, 0, false⟩

/-- The loader's group, the address of its data in s0, with the commit point at its gate. -/
def lunlkGroup : Group := { cvsetGroup with arch := cvsetGroup.arch.setS 0 0x1000, commit := some lunlkPoint }

/-- The loader's team, whose core rank holds some locks for that group. -/
def lockTeam (l : List Nat) : Team := { cvsetTeam with ranks := cvsetTeam.ranks.map fun r => { r with locks := l.map fun a => (a, lunlkGroup.key) } }

/-- Two teams have the loader's key: the one that is found first holds no lock, the other holds the group's line. -/
def twinLocks : State :=
  { State.reset.loaderGroup with groups := [lunlkGroup], teams := [lockTeam [], lockTeam [0x20000]], issue := some ⟨lunlkGroup.key, 1, 0x1000⟩ }

/-- LUNLK of the line at s0. -/
def lunlk0 : Instr := .lunlk plainCtl .glob (.scl 0) .none

theorem atGate_lunlk0 : AtGate lunlk0 plainCtl twinLocks lunlkGroup 1 0x1000 lunlkPoint :=
  ⟨⟨rfl, rfl, by decide +kernel⟩, by decide +kernel, by decide +kernel, by unfold Untainted; decide +kernel, ⟨rfl, rfl, rfl⟩,
    .inr (by decide +kernel)⟩

/-- What the probe of a lane finds at s0: the first byte of the loader's page. -/
def lunlkAcc (L : Nat) : Acc := ⟨L, 0x1000, [⟨.mem, 0x20000, 1, some ⟨0x20000, 0x2020F, 0x1000, 4096⟩, 0x1000⟩]⟩

theorem active_lunlk0 : active plainCtl lunlkGroup 1 = Mask.bit 0 := by decide +kernel

theorem reaches_lunlk0 : Reaches twinLocks lunlkGroup (active plainCtl lunlkGroup 1) .read .glob 1 1
    (addrSum lunlkGroup.arch 4 (.scl 0) .none .none) lunlkAcc := by
  have lane : ∀ L, (active plainCtl lunlkGroup 1).has L = true → L = 0 := fun L hL => by
    rw [active_lunlk0, mask_has_bit] at hL
    exact (of_decide_eq_true hL).1.symm
  refine ⟨fun L hL => ?_, by decide +kernel, fun L hL => ?_⟩
  · rw [lane L hL]
    decide +kernel
  · rw [lane L hL]
    decide +kernel

/-- The lines that the core ranks of each team hold locked. -/
def linesLocked (s : State) : List (List Nat) := s.teams.map fun x => x.ranks.flatMap fun r => r.locks.map Prod.fst

/-- The same of the state that a step answers. -/
def linesLockedAfter : Out_ → List (List Nat)
  | .next t => linesLocked t
  | _ => []

/-- The locks given up are those of the team that is found first. -/
theorem linesLockedAfter_lunlk0 : linesLockedAfter (exec lunlk0 twinLocks) = [[], [0x20000]] := by decide +kernel

/-- Refutes O15: its premises leave open that two teams have one key; a LUNLK then looks up which lines its group holds on the core rank of the
first team, and the second keeps what it holds. -/
theorem not_lineLocks : ¬ Obligations.LineLocks := by
  unfold Obligations.LineLocks
  intro h
  obtain ⟨-, hlunlk⟩ := h plainCtl (.scl 0) .none lunlkAcc
  obtain ⟨t, k, ht, -, -, -, -, -, -, -, -, hteams⟩ := hlunlk twinLocks lunlkGroup 1 0x1000 lunlkPoint atGate_lunlk0
    ⟨reaches_lunlk0, fun _ _ => rfl⟩
  have hafter : linesLocked t = [[], [0x20000]] := (congrArg linesLockedAfter ht).symm.trans linesLockedAfter_lunlk0
  have hgone : linesLocked t = [[], []] := by
    rw [linesLocked, hteams]
    decide +kernel
  exact absurd (hafter.symm.trans hgone) (by decide)

end Sys2Proof.Claims
end

section
/-! PROOF. The front end's instructions: WQENQ, LAUNCH, WQDEQ, NARM and SCHNXT (R149, R202, R207, R209, R344, R370, R389, R401). -/

namespace Sys2Proof.Claims

open Sys2Proof.Machine Sys2Proof.Laws

/-! ## What enqueuing and arming change (R202, R207) -/

theorem frontOnly_enqueue (s : State) (part n : Nat) (e : BoothEntry) : FrontOnly s (s.enqueue part n e) :=
  (frontOnly_updBooth ..).trans (frontOnly_deps ..)

theorem frontOnly_fire (s : State) (part : Nat) (a : Arming) (slot : Nat) (v : View) : FrontOnly s (s.fire part a slot v) := by
  unfold State.fire
  split
  · exact (frontOnly_logAt ..).trans (frontOnly_freeSlot ..)
  · dsimp only
    split
    · exact ((frontOnly_finish ..).trans (frontOnly_freeSlot ..)).trans (frontOnly_deps ..)
    · exact (frontOnly_updBooth ..).trans (frontOnly_deps ..)

theorem frontOnly_fireHeld (s : State) (part : Nat) (a : Arming) : FrontOnly s (s.fireHeld part a) :=
  (FrontOnly.foldl (fun _ _ => frontOnly_fire ..) _ _).after (frontOnly_updPart s part fun _ => rfl)

theorem FrontOnly.groups {s t : State} (h : FrontOnly s t) : t.groups = s.groups := (congrArg State.groups h.world :)

/-! ## Commit points that act on the world and on registers -/

section
variable {i : Instr} {c : Ctl} {s u : State} {g : Group} {run : Mask} {pc : Dword} {k : Commit} {body : Served → Res} {b : Arch} {p : Opd}
  {x : Bool}

/-- A commit point at its gate whose body acts on the world, and of its group on the registers `b` alone, commits. -/
theorem committed_of_acted (A : AtGate i c s g run pc k) (hb : body ⟨g, run, active c g run, pc, i, false⟩ = .done u { g with arch := b } 0)
    (hu : u.groups = s.groups) (hp : b.pcs = g.arch.pcs) (hf : b.parked = g.arch.parked) :
    ∃ t h, serveCommit i c s body = .next t ∧ Committed s t g h k run (fun _ => nextPc pc) ∧ World t u ∧ SameAfterCommit g h ∧
      SameRegs b h.arch ∧ withRegsOf b h.arch = b := by
  have hg : ∀ q, u.group? q = s.group? q := fun q => by rw [State.group?, hu]; rfl
  obtain ⟨t, h, he, hc, hr, ha, ⟨hkeep, htrap⟩, hw⟩ := committed_of_done A hb ((hg g.key).trans A.here) (fun q _ => hg q) rfl rfl rfl hp hf
  exact ⟨t, h, he, hc, hw, ⟨(congrArg (fun y : Group => { y with arch := g.arch }) hkeep :), htrap⟩, hr, ha⟩

/-- One that answers in a predicate does nothing else to its group. -/
theorem committed_of_answer (A : AtGate i c s g run pc k)
    (hb : body ⟨g, run, active c g run, pc, i, false⟩ = .done u (g.answer p (active c g run) x) 0) (hu : u.groups = s.groups) :
    ∃ t h, serveCommit i c s body = .next t ∧ Committed s t g h k run (fun _ => nextPc pc) ∧ World t u ∧
      Answered g h p (active c g run) x := by
  obtain ⟨hregs, hpcs⟩ := writePrd_regs g.arch p (active c g run) fun _ => x
  obtain ⟨t, h, he, hc, hw, hkeep, hr, ha⟩ := committed_of_acted A hb hu hpcs (congrArg Arch.parked hregs :)
  exact ⟨t, h, he, hc, hw, hkeep, (congrArg (withRegsOf g.arch) ha).trans hregs, writtenPrd_of_regs (writePrd_written ..) hr⟩

end

/-! ## Enqueuing (R202, R344, R401) -/

section
variable {s : State} {v : Served} {p : Opd} {n : Nat} {words : List Dword}

/-- Nothing holds up the release of a front-end instruction where no XFENCE waits. -/
theorem frontRelease_unfenced (hu : Unfenced v.g) : frontRelease v s = some (v.g, released s v.g v.act) := by
  rw [frontRelease, xgate_unfenced hu]
  rfl

theorem released_groups (s : State) (g : Group) (act : Mask) : (released s g act).1.groups = s.groups := (homesOnly_wideRelease ..).groups

theorem enqueueBody_room (hu : Unfenced v.g) (hf : (s.booth v.g.key.team.part n).full = false) :
    enqueueBody v s p n words = .done ((released s v.g v.act).1.enqueue v.g.key.team.part n ⟨words, (released s v.g v.act).2⟩)
      (v.g.answer p v.act true) 0 := by
  simp only [enqueueBody, frontRelease_unfenced hu, hf, Bool.false_eq_true, if_false]

theorem enqueueBody_full (hu : Unfenced v.g) (hf : (s.booth v.g.key.team.part n).full = true) :
    enqueueBody v s p n words = .done (released s v.g v.act).1 (v.g.answer p v.act false) 0 := by
  simp only [enqueueBody, frontRelease_unfenced hu, hf, if_true]

theorem denied_eq_false {b : Booth} {ctx : Nat} (hv : b.valid = true) (hc : b.ctx = ctx) : b.denied ctx = false := by
  simp [Booth.denied, hv, hc]

end

/-- An instruction that enqueues to a booth whose group may, where `ok` holds beside: with room the entry is in, and the answer is true; else the
answer is false, and no more than the release has happened. -/
theorem enqueues {i : Instr} {c : Ctl} {p : Opd} {n : Nat} {ok : State → Group → Prop} {words : Group → List Dword}
    {body : State → Served → Res}
    (he : ∀ s, exec i s = serveCommit i c s (body s))
    (hb : ∀ s v, (s.booth v.g.key.team.part n).valid = true → (s.booth v.g.key.team.part n).ctx = v.g.ctx →
      (s.booth v.g.key.team.part n).devenq = true → ok s v.g → body s v = enqueueBody v s p n (words v.g)) :
    let booth := fun (s : State) (g : Group) => s.booth g.key.team.part n
    let usable := fun (s : State) (g : Group) => (booth s g).valid = true ∧ (booth s g).ctx = g.ctx
    Commits i c (fun s g _ => Unfenced g ∧ usable s g ∧ (booth s g).devenq = true ∧ ok s g ∧ (booth s g).full = false) (fun s g act t h =>
      World t ((released s g act).1.enqueue g.key.team.part n ⟨words g, (released s g act).2⟩) ∧ Answered g h p act true) ∧
    Commits i c (fun s g _ => Unfenced g ∧ usable s g ∧ (booth s g).devenq = true ∧ ok s g ∧ (booth s g).full = true) (fun s g act t h =>
      World t (released s g act).1 ∧ Answered g h p act false) := by
  refine ⟨?_, ?_⟩
  · rintro s g run pc k A ⟨hu, ⟨hv, hc⟩, hd, hok, hf⟩
    have hdone := (hb s ⟨g, run, active c g run, pc, i, false⟩ hv hc hd hok).trans (enqueueBody_room hu hf)
    obtain ⟨t, h, hnext, hrest⟩ := committed_of_answer A hdone ((frontOnly_enqueue ..).groups.trans (released_groups ..))
    exact ⟨t, h, (he s).trans hnext, hrest⟩
  · rintro s g run pc k A ⟨hu, ⟨hv, hc⟩, hd, hok, hf⟩
    have hdone := (hb s ⟨g, run, active c g run, pc, i, false⟩ hv hc hd hok).trans (enqueueBody_full hu hf)
    obtain ⟨t, h, hnext, hrest⟩ := committed_of_answer A hdone (released_groups ..)
    exact ⟨t, h, (he s).trans hnext, hrest⟩

/-- The word of a LAUNCH (R344): the block's address, with the kind of an entry above it. -/
theorem launchWord_eq (x : Dword) : BitVec.ofNat 64 (x.toNat + 2 ^ 60) = x + 0x1000000000000000 := by
  rw [BitVec.ofNat_add, BitVec.ofNat_toNat, BitVec.setWidth_eq]
  rfl

/-! ## Taking an entry out (R202, R401) -/

/-- The first `m` words of an entry in scalars from `n` on. -/
def putScalars (a : Arch) (n : Nat) (w : List Dword) (m : Nat) : Arch := (List.range m).foldl (fun a i => a.setS (n + i) (w.getD i 0)) a

theorem putScalars_succ (a : Arch) (n : Nat) (w : List Dword) (m : Nat) :
    putScalars a n w (m + 1) = (putScalars a n w m).setS (n + m) (w.getD m 0) := by
  rw [putScalars, List.range_succ, List.foldl_append]
  rfl

/-- Only scalars change, and their poison. -/
theorem putScalars_rest (a : Arch) (n : Nat) (w : List Dword) (m : Nat) :
    putScalars a n w m = { a with s := (putScalars a n w m).s, pois := (putScalars a n w m).pois } ∧ (putScalars a n w m).s.length = a.s.length := by
  induction m with
  | zero => exact ⟨rfl, rfl⟩
  | succ m ih =>
    obtain ⟨hrest, hlen⟩ := ih
    rw [putScalars_succ]
    refine ⟨?_, (List.length_set ..).trans hlen⟩
    rw [hrest]
    rfl

theorem sreg_setS (a : Arch) (n k : Nat) (x : Dword) : (a.setS n x).sreg k = if k = n ∧ k < a.s.length then x else a.sreg k := by
  simp only [Arch.sreg, Arch.setS, List.getD_eq_getElem?_getD, List.getElem?_set]
  by_cases h : n = k
  · subst h
    by_cases hl : n < a.s.length <;> simp [hl]
  · simp [h, Ne.symm h]

theorem sreg_putScalars (a : Arch) (n : Nat) (w : List Dword) (m k : Nat) :
    (putScalars a n w m).sreg k = if n ≤ k ∧ k < n + m ∧ k < a.s.length then w.getD (k - n) 0 else a.sreg k := by
  induction m with
  | zero => rw [if_neg (by omega)]; rfl
  | succ m ih =>
    rw [putScalars_succ, sreg_setS, (putScalars_rest a n w m).2, ih]
    by_cases h : k = n + m
    · subst h
      by_cases hl : n + m < a.s.length
      · simp [hl]
      · simp [hl]
    · have hlt : k < n + (m + 1) ↔ k < n + m := by omega
      simp [h, hlt]

theorem mem_pois_putScalars (a : Arch) (n : Nat) (w : List Dword) (m : Nat) (x : RegFile × Nat × Nat) :
    x ∈ (putScalars a n w m).pois ↔ x ∈ a.pois ∧ ¬(x.1 = .scl ∧ n ≤ x.2.1 ∧ x.2.1 < n + m) := by
  induction m with
  | zero => exact ⟨fun h => ⟨h, by omega⟩, And.left⟩
  | succ m ih =>
    rw [putScalars_succ]
    simp only [Arch.setS, List.mem_filter, ih, Bool.or_eq_true, bne_iff_ne, and_assoc, ne_eq]
    refine and_congr_right fun _ => ?_
    by_cases hx : x.1 = .scl
    · simp only [hx, true_and, not_true_eq_false, false_or]
      omega
    · simp only [hx, false_and, not_false_eq_true, true_or, and_self]

/-- Eight words of an entry stand in eight scalars. -/
theorem eightScalars_put (a : Arch) (n : Nat) (w : List Dword) : EightScalars a (putScalars a n w 8) n w := by
  have h := (putScalars_rest a n w 8).1
  exact ⟨(congrArg Arch.v h :), (congrArg Arch.p h :), mem_pois_putScalars a n w 8, sreg_putScalars a n w 8⟩

/-- Acquiring changes what the group's accesses are ordered by alone. -/
theorem acquire_eq (g : Group) (m : Mask) (x : View) :
    g.acquire m x = { g with arch := { g.arch with mem := (g.acquire m x).arch.mem } } := by
  unfold Group.acquire
  split <;> rfl

/-- A group with eight words in scalars from `n` on and an answer in a predicate, its accesses ordered by `m`. -/
def dequeued (g : Group) (p : Opd) (act : Mask) (n : Nat) (w : List Dword) (x : Bool) (m : MemOrder) : Group :=
  { g with arch := { writePrd (putScalars g.arch n w 8) p act (fun _ => x) with mem := m } }

/-- A commit point that leaves its group so commits, and does nothing else to it. -/
theorem committed_of_dequeued {i : Instr} {c : Ctl} {s u : State} {g : Group} {run : Mask} {pc : Dword} {k : Commit} {body : Served → Res} {n : Nat}
    {w : List Dword} {p : Opd} {x : Bool} {m : MemOrder} (A : AtGate i c s g run pc k)
    (hb : body ⟨g, run, active c g run, pc, i, false⟩ = .done u (dequeued g p (active c g run) n w x m) 0) (hu : u.groups = s.groups) :
    ∃ t h, serveCommit i c s body = .next t ∧ Committed s t g h k run (fun _ => nextPc pc) ∧ World t u ∧ SameAfterCommit g h ∧
      withRegsOf g.arch h.arch = { g.arch with mem := m } ∧
      ∃ q, EightScalars g.arch q n w ∧ WrittenPrd q h.arch p (active c g run) fun _ => x := by
  have hput := (putScalars_rest g.arch n w 8).1
  set q := putScalars g.arch n w 8 with hq
  obtain ⟨hregs, hpcs⟩ := writePrd_regs q p (active c g run) fun _ => x
  have hkept : withRegsOf g.arch (writePrd q p (active c g run) fun _ => x) = g.arch :=
    (congrArg (withRegsOf g.arch) hregs :).trans (congrArg (withRegsOf g.arch) hput :)
  obtain ⟨t, h, he, hc, hw, hsame, hr, ha⟩ := committed_of_acted A hb hu (hpcs.trans (congrArg Arch.pcs hput :)) (congrArg Arch.parked hkept :)
  refine ⟨t, h, he, hc, hw, hsame, ?_, q, hq ▸ eightScalars_put g.arch n w, writtenPrd_of_regs (writePrd_written ..) hr⟩
  exact (congrArg (withRegsOf g.arch) ha :).trans (congrArg (fun a : Arch => { a with mem := m }) hkept :)

/-- An answer after the words of an entry leaves what orders the accesses. -/
theorem answer_putScalars (g : Group) (p : Opd) (act : Mask) (n : Nat) (w : List Dword) (x : Bool) :
    Group.answer { g with arch := putScalars g.arch n w 8 } p act x = dequeued g p act n w x g.arch.mem := by
  have hput := (putScalars_rest g.arch n w 8).1
  have hregs := (writePrd_regs (putScalars g.arch n w 8) p act fun _ => x).1
  have hmem : (writePrd (putScalars g.arch n w 8) p act fun _ => x).mem = g.arch.mem := (congrArg Arch.mem hregs :).trans (congrArg Arch.mem hput :)
  rw [dequeued, ← hmem]
  rfl

/-- WQDEQ on a work-queue booth that its group may use takes the head out, or finds none. -/
theorem exec_wqdeq (c : Ctl) (p bn first : Opd) (s : State) :
    ∃ body, exec (.wqdeq c p bn first) s = serveCommit (.wqdeq c p bn first) c s body ∧
      ∀ v, let b := s.booth v.g.key.team.part (immVal bn).toNat
        b.valid = true → b.ctx = v.g.ctx → b.work = true →
        (∀ e rest, b.entries = e :: rest → ∃ m, body v =
          .done (s.popHead v.g.key.team.part (immVal bn).toNat) (dequeued v.g p v.act (sclNo first) e.words true m) 0) ∧
        (b.entries = [] → body v = .done s (dequeued v.g p v.act (sclNo first) [] false v.g.arch.mem) 0) := by
  refine ⟨_, rfl, ?_⟩
  intro v b hv hx hk
  have hmay : ¬(b.denied v.g.ctx || !b.work) = true := by simp [denied_eq_false hv hx, hk]
  refine ⟨fun e rest he => ?_, fun he => ?_⟩
  · have hput := answer_putScalars v.g p v.act (sclNo first) e.words true
    set h := dequeued v.g p v.act (sclNo first) e.words true v.g.arch.mem
    refine ⟨(h.acquire v.act e.view).arch.mem, (if_neg hmay).trans ?_⟩
    rw [show (s.booth v.g.key.team.part (immVal bn).toNat).entries = e :: rest from he]
    exact congrArg (Res.done (s.popHead v.g.key.team.part (immVal bn).toNat) · 0)
      ((congrArg (Group.acquire · v.act e.view) hput).trans (acquire_eq ..))
  · refine (if_neg hmay).trans ?_
    rw [show (s.booth v.g.key.team.part (immVal bn).toNat).entries = [] from he]
    exact congrArg (Res.done s · 0) (answer_putScalars v.g p v.act (sclNo first) [] false)

section
variable {c : Ctl} {s : State} {g : Group} {run : Mask} {pc : Dword} {k : Commit} {p bn first : Opd} {n : Nat} (hn : (immVal bn).toNat = n)
  (A : AtGate (.wqdeq c p bn first) c s g run pc k) (hv : (s.booth g.key.team.part n).valid = true)
  (hc : (s.booth g.key.team.part n).ctx = g.ctx) (hk : (s.booth g.key.team.part n).work = true)

include hn A hv hc hk

theorem wqdeq_takes {e : BoothEntry} {rest : List BoothEntry} (he : (s.booth g.key.team.part n).entries = e :: rest) :
    ∃ t h, exec (.wqdeq c p bn first) s = .next t ∧ Committed s t g h k run (fun _ => nextPc pc) ∧ World t (s.popHead g.key.team.part n) ∧
      SameAfterCommit g h ∧ SameButMem g h ∧
      ∃ q, EightScalars g.arch q (sclNo first) e.words ∧ WrittenPrd q h.arch p (active c g run) fun _ => true := by
  subst hn
  obtain ⟨body, hbody, hacts⟩ := exec_wqdeq c p bn first s
  obtain ⟨m, hdone⟩ := (hacts ⟨g, run, active c g run, pc, .wqdeq c p bn first, false⟩ hv hc hk).1 e rest he
  obtain ⟨t, h, hnext, hcom, hw, hsame, ha, hq⟩ := committed_of_dequeued A hdone rfl
  exact ⟨t, h, hbody.trans hnext, hcom, hw, hsame, (congrArg (fun a : Arch => { a with mem := g.arch.mem }) ha :), hq⟩

theorem wqdeq_empty (he : (s.booth g.key.team.part n).entries = []) :
    ∃ t h, exec (.wqdeq c p bn first) s = .next t ∧ Committed s t g h k run (fun _ => nextPc pc) ∧ World t s ∧ SameAfterCommit g h ∧
      SameArch g h ∧ ∃ q, EightScalars g.arch q (sclNo first) [] ∧ WrittenPrd q h.arch p (active c g run) fun _ => false := by
  subst hn
  obtain ⟨body, hbody, hacts⟩ := exec_wqdeq c p bn first s
  have hdone := (hacts ⟨g, run, active c g run, pc, .wqdeq c p bn first, false⟩ hv hc hk).2 he
  obtain ⟨t, h, hnext, hcom, hw, hsame, ha, hq⟩ := committed_of_dequeued A hdone rfl
  exact ⟨t, h, hbody.trans hnext, hcom, hw, hsame, ha, hq⟩

end

/-! ## Armings (R149, R207, R370) -/

/-- The arming that a NARM makes: its tag, whether it repeats, its block, and what it releases. -/
def armOf (s : State) (g : Group) (act : Mask) (first d : Opd) : Arming :=
  let tag := (g.arch.sreg (sclNo first)).toNat
  ⟨tag % 2 ^ 32, tag.testBit 32, (g.arch.sreg (sclNo d)).toNat, g.ctx, (released s g act).2⟩

/-- A NARM may arm or find no room: its tag and its block are legal, no XFENCE waits, and it would not fire at once on lines that are locked or
in motion. -/
structure MayArm (s : State) (g : Group) (act : Mask) (first d : Opd) : Prop where
  fence : Unfenced g
  tag   : (g.arch.sreg (sclNo first)).toNat < 2 ^ 33
  block : (g.arch.sreg (sclNo d)).toNat % 256 = 0
  high  : (g.arch.sreg (sclNo d)).toNat < 2 ^ 57
  free  : (∀ m ∈ (s.part g.key.team.part).unmatched, m.tag ≠ (g.arch.sreg (sclNo first)).toNat % 2 ^ 32) ∨
    s.fireBusy g.key.team.part (armOf s g act first d) = false

/-- With room it is armed, or fires at once; else it answers false. -/
theorem exec_narm (c : Ctl) (p first d : Opd) (s : State) :
    ∃ body, exec (.narm c p first d) s = serveCommit (.narm c p first d) c s body ∧
      ∀ v, MayArm s v.g v.act first d → body v =
        if 64 ≤ (s.part v.g.key.team.part).armings.length then .done (released s v.g v.act).1 (v.g.answer p v.act false) 0
        else .done ((released s v.g v.act).1.fireHeld v.g.key.team.part (armOf s v.g v.act first d)) (v.g.answer p v.act true) 0 := by
  refine ⟨_, rfl, fun v M => ?_⟩
  set arm := armOf s v.g v.act first d with ha
  have hgo : ((s.part v.g.key.team.part).unmatched.any (fun m => m.tag == arm.tag) && s.fireBusy v.g.key.team.part arm) = false := by
    rcases M.free with hm | hm
    · rw [List.any_eq_false.mpr fun m h => by simpa [ha, armOf] using hm m h, Bool.false_and]
    · rw [hm, Bool.and_false]
  simp only [frontRelease_unfenced M.fence]
  rw [if_neg (Nat.not_le.mpr M.tag), if_neg (not_not.mpr M.block), if_neg (Nat.not_le.mpr M.high)]
  exact if_neg (ne_true_of_eq_false hgo)

section
variable {c : Ctl} {s : State} {g : Group} {run : Mask} {pc : Dword} {k : Commit} {p first d : Opd}
  (A : AtGate (.narm c p first d) c s g run pc k) (M : MayArm s g (active c g run) first d)

include A M

theorem narm_arms (hroom : (s.part g.key.team.part).armings.length < 64) :
    ∃ t h, exec (.narm c p first d) s = .next t ∧ Committed s t g h k run (fun _ => nextPc pc) ∧
      World t ((released s g (active c g run)).1.fireHeld g.key.team.part (armOf s g (active c g run) first d)) ∧
      Answered g h p (active c g run) true := by
  obtain ⟨body, hbody, hacts⟩ := exec_narm c p first d s
  have hdone := (hacts ⟨g, run, active c g run, pc, .narm c p first d, false⟩ M).trans (if_neg (Nat.not_le.mpr hroom))
  obtain ⟨t, h, hnext, hrest⟩ := committed_of_answer A hdone ((frontOnly_fireHeld ..).groups.trans (released_groups ..))
  exact ⟨t, h, hbody.trans hnext, hrest⟩

theorem narm_full (hfull : 64 ≤ (s.part g.key.team.part).armings.length) :
    ∃ t h, exec (.narm c p first d) s = .next t ∧ Committed s t g h k run (fun _ => nextPc pc) ∧ World t (released s g (active c g run)).1 ∧
      Answered g h p (active c g run) false := by
  obtain ⟨body, hbody, hacts⟩ := exec_narm c p first d s
  have hdone := (hacts ⟨g, run, active c g run, pc, .narm c p first d, false⟩ M).trans (if_pos hfull)
  obtain ⟨t, h, hnext, hrest⟩ := committed_of_answer A hdone (released_groups ..)
  exact ⟨t, h, hbody.trans hnext, hrest⟩

end

/-! ## SCHNXT (R209, R389) -/

section
variable {c : Ctl} {s : State} {g k : Group} {run : Mask} {pc : Dword} {p d : Opd} {x : Dword} {y : Bool}

/-- The registers once SCHNXT has put an entry's number in a scalar and its answer in a predicate. -/
def scheduled (a : Arch) (p d : Opd) (act : Mask) (x : Dword) (y : Bool) : Arch := writePrd (a.setS (sclNo d) x) p act fun _ => y

theorem scheduled_regs (a : Arch) (p d : Opd) (act : Mask) (x : Dword) (y : Bool) :
    withRegsOf a (scheduled a p d act x y) = a ∧ (scheduled a p d act x y).pcs = a.pcs := by
  obtain ⟨hregs, hpcs⟩ := writePrd_regs (a.setS (sclNo d) x) p act fun _ => y
  exact ⟨(congrArg (withRegsOf a) hregs :), hpcs⟩

/-- What SCHNXT answers: the next entry of its core rank's list, whose taking it stages, or none. -/
theorem exec_schnxt (c : Ctl) (p d : Opd) (s : State) :
    ∃ body, exec (.schnxt c p d) s = serve (.schnxt c p d) c s body ∧
      ∀ v, (∀ k r, (rankOfG s v.g).nextEntry = some (k, r) → body v = .done (onRank s v.g fun _ => r)
          { v.g.stage s.now noClass (.schnxt v.g.rank k) [] with arch := scheduled v.g.arch p d v.act (r.sched.getD k 0) true } 0) ∧
        ((rankOfG s v.g).nextEntry = none → body v = .done s { v.g with arch := scheduled v.g.arch p d v.act 0 false } 0) := by
  refine ⟨_, rfl, fun v => ⟨fun k r hn => ?_, fun hn => ?_⟩⟩
  · rw [rankOfG] at hn
    simp only [hn]
    rfl
  · rw [rankOfG] at hn
    simp only [hn]
    rfl

/-- An instruction whose body has left the world `u` and its group `k` with such registers has dispatched. -/
theorem serve_scheduled {i : Instr} {u : State} {body : Served → Res} (A : Able i c s g run pc) (K : Undispatched c s g k [])
    (hb : body ⟨headOf c s g, run, active c g run, pc, i, c.hd⟩ =
      .done u { k with arch := scheduled (headOf c s g).arch p d (active c g run) x y } 0)
    (hu : u.groups = s.groups) :
    ∃ t h, serve i c s body = .next t ∧
      Dispatched c s t g h run pc (entryOf i (headOf c s g) pc run (active c g run) 0) u
        { k with arch := scheduled (headOf c s g).arch p d (active c g run) x y } ∧
      SameArch (headOf c s g) h ∧ WrittenPrd ((headOf c s g).arch.setS (sclNo d) x) h.arch p (active c g run) fun _ => y := by
  obtain ⟨hregs, hpcs⟩ := scheduled_regs (headOf c s g).arch p d (active c g run) x y
  have harch : (headOf c s g).arch = g.arch := headOf_arch c s g
  have K' : Undispatched c s g { k with arch := scheduled (headOf c s g).arch p d (active c g run) x y } [] :=
    { K with pcs := hpcs.trans (congrArg Arch.pcs harch), parked := (congrArg Arch.parked hregs :).trans (congrArg Arch.parked harch) }
  obtain ⟨t, h, hnext, D⟩ := serve_acted A hb K' hu
  exact ⟨t, h, hnext, D, (D.arch _).trans hregs, writtenPrd_of_regs (writePrd_written ..) D.regs⟩

theorem schnxt_takes (A : Able (.schnxt c p d) c s g run pc) {e : Nat} {r : Rank} (hn : (rankOfG s g).nextEntry = some (e, r)) :
    ∃ t h, exec (.schnxt c p d) s = .next t ∧
      Entered c s t g h run (entryOf (.schnxt c p d) (headOf c s g) pc run (active c g run) 0) (fun _ => nextPc pc) ∧
      World t (onRank s (headOf c s g) fun _ => r) ∧ SameArch (headOf c s g) h ∧ SameButStaged (headOf c s g) h ∧
      h.staged.map Effect.kind = (headOf c s g).staged.map Effect.kind ++ [.schnxt (headOf c s g).rank e] ∧
      WrittenPrd ((headOf c s g).arch.setS (sclNo d) (r.sched.getD e 0)) h.arch p (active c g run) fun _ => true := by
  rw [← rankOfG_headOf c] at hn
  obtain ⟨body, hbody, hacts⟩ := exec_schnxt c p d s
  have hdone := (hacts ⟨headOf c s g, run, active c g run, pc, .schnxt c p d, c.hd⟩).1 e r hn
  obtain ⟨t, h, hnext, D, ha, hw⟩ := serve_scheduled A (undispatched_headOf c s g).stage hdone rfl
  refine ⟨t, h, hbody.trans hnext, D.toEntered, D.world, ha, ?_, ?_, hw⟩
  · exact (congrArg (fun y : Group => { y with staged := (headOf c s g).staged }) (D.rest (headOf c s g)) :)
  · rw [D.staged]
    exact List.map_append

theorem schnxt_empty (A : Able (.schnxt c p d) c s g run pc) (hn : (rankOfG s g).nextEntry = none) :
    ∃ t h, exec (.schnxt c p d) s = .next t ∧
      Entered c s t g h run (entryOf (.schnxt c p d) (headOf c s g) pc run (active c g run) 0) (fun _ => nextPc pc) ∧ World t s ∧
      SameArch (headOf c s g) h ∧ withIssueOf (headOf c s g) h = headOf c s g ∧
      WrittenPrd ((headOf c s g).arch.setS (sclNo d) 0) h.arch p (active c g run) fun _ => false := by
  rw [← rankOfG_headOf c] at hn
  obtain ⟨body, hbody, hacts⟩ := exec_schnxt c p d s
  have hdone := (hacts ⟨headOf c s g, run, active c g run, pc, .schnxt c p d, c.hd⟩).2 hn
  obtain ⟨t, h, hnext, D, ha, hw⟩ := serve_scheduled A (undispatched_headOf c s g) hdone rfl
  exact ⟨t, h, hbody.trans hnext, D.toEntered, D.world, ha, D.rest _, hw⟩

end

/-- Settles O32: each front-end instruction runs its body, whose guards the premises pass; what that enqueues, takes out, arms or stages is the
lemma of its instruction above, and its group answers in a predicate. -/
theorem frontEndInstructions : Obligations.FrontEndInstructions := by
  unfold Obligations.FrontEndInstructions
  intro c p bn first d e rest n booth usable x enq
  refine ⟨?_, ?_, ?_, ?_, ⟨?_, ?_⟩, ?_, ?_⟩
  · refine enqueues (fun _ => rfl) fun s v hv hc hd _ => if_neg ?_
    rw [denied_eq_false hv hc, hd]
    exact Bool.false_ne_true
  · refine enqueues (fun _ => rfl) fun s v hv hc hd ⟨hk, ha, hl⟩ => ?_
    have hmay : ¬((booth s v.g).denied v.g.ctx || !(booth s v.g).devenq || (booth s v.g).work) = true := by
      simp [booth, denied_eq_false hv hc, hd, hk]
    rw [← launchWord_eq]
    exact (if_neg (not_not.mpr ha)).trans ((if_neg (Nat.not_le.mpr hl)).trans (if_neg hmay))
  · exact fun s g run pc k A ⟨⟨hv, hc⟩, hk, he⟩ => wqdeq_takes rfl A hv hc hk he
  · exact fun s g run pc k A ⟨⟨hv, hc⟩, hk, he⟩ => wqdeq_empty rfl A hv hc hk he
  · exact fun s g run pc k A ⟨⟨hu, ht, hb, hl, hfree⟩, hroom⟩ => narm_arms A ⟨hu, ht, hb, hl, hfree⟩ hroom
  · exact fun s g run pc k A ⟨⟨hu, ht, hb, hl, hfree⟩, hfull⟩ => narm_full A ⟨hu, ht, hb, hl, hfree⟩ hfull
  · exact fun e r s g run pc A hn => schnxt_takes A hn
  · exact fun s g run pc A hn => schnxt_empty A hn

end Sys2Proof.Claims
end

section
/-! PROOF. Publication (R162, R379): a PUB of one lane, first at its cluster's Drover, whose walk comes to its end. -/

namespace Sys2Proof.Claims

open Sys2Proof.Machine Sys2Proof.Laws

/-! ## What a walk changes, and what it does not look at (R162) -/

/-- The machine where a walk stands. -/
def walkState : WalkStep → State
  | .more s _ | .done s _ | .page s _ _ _ | .locked s _ | .trap s _ _ | .check s => s

/-- The same machine with other groups. -/
def regrouped (gs : List Group) (s : State) : State := { s with groups := gs }

/-- A walk that stands alike on the machine with other groups. -/
def walkRegrouped (gs : List Group) : WalkStep → WalkStep
  | .more s w => .more (regrouped gs s) w
  | .done s w => .done (regrouped gs s) w
  | .page s w va p => .page (regrouped gs s) w va p
  | .locked s w => .locked (regrouped gs s) w
  | .trap s c a => .trap (regrouped gs s) c a
  | .check s => .check (regrouped gs s)

/-- A walk from `s` that stands at `x` has changed home state and the log alone, and from the same machine with the groups `gs` it stands at
`y`, alike but for them. -/
structure Walks (s : State) (gs : List Group) (x y : WalkStep) : Prop where
  only  : { walkState x with coh := s.coh, dev := s.dev } = s
  alike : y = walkRegrouped gs x

section
variable {s : State} {gs : List Group} {g : Group}

theorem walks_ite {p : Prop} [Decidable p] {a b a' b' : WalkStep} (ha : Walks s gs a a') (hb : Walks s gs b b') :
    Walks s gs (if p then a else b) (if p then a' else b') := by
  split <;> assumption

theorem Walks.ite_state {p : Prop} [Decidable p] {f : State → WalkStep} {t u : State} (ha : Walks s gs (f t) (f (regrouped gs t)))
    (hb : Walks s gs (f u) (f (regrouped gs u))) : Walks s gs (f (if p then t else u)) (f (if p then regrouped gs t else regrouped gs u)) := by
  split <;> assumption

theorem regrouped_ram : (regrouped gs s).ram = s.ram := rfl

theorem walkProbe_regrouped (va : Nat) : walkProbe (regrouped gs s) g va = walkProbe s g va := rfl

theorem walkHead_walks (w : Walk) : Walks s gs (walkHead s g w) (walkHead (regrouped gs s) g w) := by
  unfold walkHead
  cases w.stack with
  | nil => exact ⟨rfl, rfl⟩
  | cons h r =>
    refine walks_ite ⟨rfl, rfl⟩ (walks_ite ⟨rfl, rfl⟩ (walks_ite ⟨rfl, rfl⟩ ?_))
    rw [walkProbe_regrouped]
    cases walkProbe s g h with
    | absent p => exact ⟨rfl, rfl⟩
    | forbid => exact ⟨rfl, rfl⟩
    | ok p =>
      refine walks_ite ⟨rfl, rfl⟩ (walks_ite ⟨rfl, rfl⟩ (walks_ite ⟨rfl, rfl⟩ (walks_ite ⟨rfl, rfl⟩ (walks_ite ⟨rfl, rfl⟩ ?_))))
      exact walks_ite (.ite_state (f := fun t => .more t _) ⟨rfl, rfl⟩ ⟨rfl, rfl⟩) (.ite_state (f := fun t => .trap t _ _) ⟨rfl, rfl⟩ ⟨rfl, rfl⟩)

theorem walkLine_walks (w : Walk) (h len x : Nat) : Walks s gs (walkLine s g w h len x) (walkLine (regrouped gs s) g w h len x) := by
  unfold walkLine
  refine walks_ite ⟨rfl, rfl⟩ (walks_ite ⟨rfl, rfl⟩ ?_)
  rw [walkProbe_regrouped]
  cases walkProbe s g x with
  | absent p => exact ⟨rfl, rfl⟩
  | forbid => exact ⟨rfl, rfl⟩
  | ok p =>
    refine walks_ite ⟨rfl, rfl⟩ (walks_ite ⟨rfl, rfl⟩ (walks_ite ⟨rfl, rfl⟩ ?_))
    dsimp only
    generalize ptePol _ = pol
    rw [regrouped_ram]
    cases List.find? _ _ with
    | none => exact .ite_state (f := fun t => .more t _) ⟨rfl, rfl⟩ ⟨rfl, rfl⟩
    | some y =>
      dsimp only
      split
      · exact ⟨rfl, rfl⟩
      · exact ⟨rfl, rfl⟩
      · exact ⟨rfl, rfl⟩
      · exact .ite_state (f := fun t => .more t _) ⟨rfl, rfl⟩ ⟨rfl, rfl⟩

theorem walkStep_walks (w : Walk) : Walks s gs (walkStep s g w) (walkStep (regrouped gs s) g w) := by
  unfold walkStep
  split
  · exact walkLine_walks ..
  · exact walkHead_walks ..

theorem walkRun_walks (n : Nat) (s : State) (w : Walk) : Walks s gs (walkRun g n s w) (walkRun g n (regrouped gs s) w) := by
  induction n generalizing s w with
  | zero => exact ⟨rfl, rfl⟩
  | succ n ih =>
    obtain ⟨honly, halike⟩ := walkStep_walks (s := s) (gs := gs) (g := g) w
    unfold walkRun
    rw [halike]
    cases hx : walkStep s g w with
    | more t v =>
      rw [hx] at honly
      exact ⟨(congrArg (fun u : State => { u with coh := s.coh, dev := s.dev }) (ih t v).only :).trans honly, (ih t v).alike⟩
    | _ => rw [hx] at honly; exact ⟨honly, rfl⟩

end

/-! ## The store of the reference (R157, R162) -/

section
variable {s : State} {g : Group} {sc : Scope} {m : Mask} {w : Walk} {a : Acc} {ref : Nat}

/-- The state `t` differs from `s` by one store of a reference to memory that sets its tag, with what homes and partitions note of it. -/
structure RefStored (s t : State) (pa ref : Nat) : Prop where
  rest : { t with coh := s.coh, parts := s.parts, ram := s.ram } = s
  ram  : ∃ k : StoreKind, k.tag = .set ∧ t.ram = s.ram.write pa (leBytes 8 ref) k

/-- A group whose accesses are ordered by `m`, with other checkpoints and entries, which restore that too (R72). -/
def reordered (g : Group) (m : MemOrder) (ckpts : List Ckpt) (rob : List Entry) : Group :=
  { g with arch := { g.arch with mem := m }, ckpts := ckpts, rob := rob }

theorem pubStore_stored : RefStored s (pubStore s g sc m w a ref).1 ((a.chunks.head?.map Chunk.addr).getD 0) ref := by
  unfold pubStore
  extract_lets u own pa x t t' v
  have hx : HomesOnly u x.1 := homesOnly_releaseTo ..
  have hram : x.1.ram = s.ram := hx.ram
  clear_value x
  refine ⟨(congrArg (fun y : State => { y with coh := s.coh, ram := s.ram }) hx :), ⟨.set, x.2, false, x.1.hides g .mem pa, false⟩, rfl, ?_⟩
  rw [← hram]
  rfl

theorem unwalked_reordered {h : Group} {x : MemOrder} {cs : List Ckpt} {es : List Entry} (hw : g.walk = none) (hg : h = reordered g x cs es) :
    ({ h with walk := none } : Group) = reordered g x cs es := by
  rw [hg, ← hw]
  rfl

theorem ever_reordered {f : Arch → Arch} {x : MemOrder} (hf : f g.arch = { g.arch with mem := x }) :
    g.ever f = reordered g x (g.ever f).ckpts (g.ever f).rob := congrArg (fun b : Arch => { g.ever f with arch := b }) hf

theorem pubStore_group : ∃ x c r, (pubStore s g sc m w a ref).2 = reordered g x c r := by
  unfold pubStore
  extract_lets u own pa x t t' v
  exact ⟨_, _, _, ever_reordered (g := g) (f := fun b => (Group.acquire { g with arch := b } m v).arch) (congrArg Group.arch (acquire_eq g m v) :)⟩

/-- An aligned reference lies in one line. -/
theorem linesOf_aligned {pa : Nat} (h : pa % 8 = 0) : linesOf pa 8 = [pa / 64 * 64] := by
  have hn : (pa + 8 - 1) / 64 + 1 - pa / 64 = 1 := by omega
  rw [linesOf, if_neg (by decide), hn]
  simp [Nat.mul_comm]

theorem RefStored.get {s t : State} {pa ref : Nat} (h : RefStored s t pa ref) (hwf : s.ram.mem.wf = true) (y : Nat) :
    t.ram.mem.get y = if pa ≤ y ∧ y < pa + 8 then (leBytes 8 ref).getD (y - pa) 0 else s.ram.mem.get y := by
  obtain ⟨k, -, hr⟩ := h.ram
  rw [hr, write_mem, get_putN hwf, leBytes_length]

theorem RefStored.tag {s t : State} {pa ref : Nat} (h : RefStored s t pa ref) (h8 : pa % 8 = 0) (y : Nat) :
    t.ram.tag y = if y / 8 = pa / 8 then true else s.ram.tag y := by
  obtain ⟨k, hk, hr⟩ := h.ram
  obtain ⟨x, n, hw⟩ := write_eq s.ram pa (leBytes 8 ref) k
  have hd : leBytes 8 ref ≠ [] := List.ne_nil_of_length_pos (by rw [leBytes_length]; decide)
  have hword : (wordsOf pa 8).contains (y / 8 * 8) = true ↔ y / 8 = pa / 8 := by
    rw [List.contains_iff_mem, mem_wordsOf]
    omega
  rw [hr, hw]
  refine (contains_tagsAfter k.tag s.ram.tags hd y).trans ?_
  rw [leBytes_length, hk]
  by_cases hy : y / 8 = pa / 8
  · rw [if_pos (hword.mpr hy), if_pos hy, hy]
    simp
  · rw [if_neg (hword.not.mpr hy), if_neg hy]
    rfl

end

/-! ## The probe of one lane, and its turn at the Drover -/

section
variable {s t : State} {v : Served} {L : Nat}

/-- One active lane whose probe finds its access, and no fault there, acts on it. -/
theorem memBody_found (ha : v.act = Mask.bit L) (hL : L < 64) (hu : Unfenced v.g) {k : Access} {sp : Space} {size align : Nat} {ad : Nat → Nat}
    {extra : Acc → Option Nat} {a : Acc} (hf : laneAcc s v.g k sp size align L (ad L) = .ok a) (hm : s.escape v.g a = false)
    (he : extra a = none) (hp : v.g.unparked = v.g) (hr : v.run &&& ~~~v.g.arch.parked = v.run) (hc : v.act &&& ~~~v.g.arch.parked = v.act)
    (body : State → Served → List Acc → Res) :
    memBody v s k sp size align ad extra body = body ((s.keepAcc false v.g [a]).keepParks v.g) v [a] := by
  obtain ⟨g, run, act, pc, i, hd⟩ := v
  dsimp only at ha hp hr hc hu hf hm ⊢
  simp only [memBody, probeBody, xgate_unfenced hu, ha, lanes_bit hL, List.map_cons, List.map_nil, hf, parkers, List.filterMap_cons, hm, he,
    List.filterMap_nil, State.parkAll, hp, hr]
  rw [← ha, hc]
  rfl

/-- The one lane of a PUB stores its reference when its walk comes to its end. -/
theorem pubLanes_one {g : Group} {a : Acc} {sc : Scope} {once : Bool} {ref : Nat → Nat} {w u : Walk} (hw : w.lane = a.lane)
    (hr : walkRun g walkFuel s w = .done t u) :
    pubLanes v sc once ref [a] s g w =
      let x := pubStore t g sc (if once then v.act else Mask.bit a.lane) u a (ref a.lane)
      .done x.1 { x.2 with walk := none } 0 := by
  rw [pubLanes, if_neg (by omega), if_pos hw, hr]
  rfl

/-- A PUB of one lane whose lines are held, first at its Drover, goes on to its walk. -/
theorem pubBody_first {a : Acc} {sc : Scope} {once : Bool} {ref : Nat → Nat} (hl : s.lockedOut v.g [a] = false)
    (ho : ∀ x ∈ a.lines, s.coh.owns v.g.core x.1 = true) (hw : v.g.walk = none) (hb : s.droverBusy v.g s.coh.nextId = false) :
    pubBody v s sc once ref [a] =
      pubLanes v sc once ref [a] { s with coh := { s.coh with nextId := s.coh.nextId + 1 } } v.g
        (Walk.start s.coh.nextId a.lane (ref a.lane)) := by
  have hown : ((([a] : List Acc).flatMap Acc.lines).all fun x => s.coh.owns v.g.core x.1) = true := by simpa using ho
  have hone : (if once = true then [a].take 1 else [a]) = [a] := ite_self _
  have hfirst : s.droverBusy v.g (Walk.start s.coh.nextId a.lane (ref a.lane)).ticket = false := hb
  simp only [pubBody, hl, hown, hw, hone, List.head?_cons, Option.map_some, Option.getD_some, hfirst, Bool.not_true, Bool.false_eq_true, if_false]

end

/-! ## The machine that a PUB finds at its gate -/

section
variable {s t u : State} {g : Group}

/-- Nothing is other than before but the translations kept and the keys in use. -/
def TranslationsOnly (s t : State) : Prop := { t with coh := { t.coh with keyed := s.coh.keyed, tlb := s.coh.tlb } } = s

theorem TranslationsOnly.trans (h : TranslationsOnly s t) (h' : TranslationsOnly t u) : TranslationsOnly s u :=
  (congrArg (fun x : State => { x with coh := { x.coh with keyed := s.coh.keyed, tlb := s.coh.tlb } }) h' :).trans h

theorem TranslationsOnly.group? (h : TranslationsOnly s t) (q : GroupKey) : t.group? q = s.group? q := (congrArg (fun x : State => x.group? q) h :)

theorem TranslationsOnly.nextId (h : TranslationsOnly s t) : t.coh.nextId = s.coh.nextId := (congrArg (fun x : State => x.coh.nextId) h :)

theorem translationsOnly_useKey (s : State) (p : Phys) : TranslationsOnly s (s.useKey p) := by
  unfold State.useKey
  split
  · unfold Coh.useKey
    split <;> rfl
  · rfl

theorem translationsOnly_keepIn (s : State) (ahead : Bool) (part ctx : Nat) (core : CoreId) (p : Phys) :
    TranslationsOnly s (s.keepIn ahead part ctx core p) := by
  unfold State.keepIn
  split <;> rfl

theorem translationsOnly_keepAcc (s : State) (bulk : Bool) (g : Group) (l : List Acc) : TranslationsOnly s (s.keepAcc bulk g l) := by
  unfold State.keepAcc
  extract_lets ps
  have hkeys : TranslationsOnly s (ps.foldl State.useKey s) :=
    List.foldlRecOn ps _ (motive := TranslationsOnly s) rfl fun _ h _ _ => h.trans (translationsOnly_useKey ..)
  exact List.foldlRecOn _ _ (motive := TranslationsOnly s) hkeys fun _ h _ _ => h.trans (translationsOnly_keepIn ..)

/-- What is parked in a group makes its Drover neither busy nor free for it. -/
theorem droverBusy_keepParks (n : Nat) : (s.keepParks g).droverBusy g n = s.droverBusy g n := by
  simp only [State.droverBusy, State.keepParks, State.updGroup, List.any_map]
  refine congrArg (List.any s.groups) (funext fun h => ?_)
  by_cases hk : h.key = g.key
  · simp [hk]
  · simp [hk]

/-- The groups that stand are the same, but for what is parked in this one. -/
theorem group?_keepParks (hg : s.group? g.key = some g) :
    (∃ h, (s.keepParks g).group? g.key = some h) ∧ ∀ q, q ≠ g.key → (s.keepParks g).group? q = s.group? q := by
  unfold State.keepParks
  refine ⟨⟨_, updGroup_get s g.key _ ?_ g hg⟩, fun _ hq => updGroup_other s hq _ ?_⟩
  · exact fun _ hk => hk
  · exact fun _ hk => hk

/-- No thread of a commit point that is served is parked. -/
theorem unparked_of_commit {k : Commit} (hc : g.commit = some k) (hk : k.run &&& g.arch.parked = 0) : g.unparked = g := by
  rw [Group.unparked, hc, Option.map_some, and_compl_of_disjoint hk, ← hc]

end

section
variable {i : Instr} {c : Ctl} {s u : State} {g x : Group} {run : Mask} {pc : Dword} {k : Commit} {body : Served → Res} {m : MemOrder}
  {cs : List Ckpt} {es : List Entry}

/-- A commit point at its gate whose body acts on the world, and of its group on what orders its accesses alone, commits. -/
theorem committed_of_reordered (A : AtGate i c s g run pc k)
    (hb : body ⟨g, run, active c g run, pc, i, false⟩ = .done u (reordered g m cs es) 0) (hx : u.group? g.key = some x)
    (ho : ∀ q, q ≠ g.key → u.group? q = s.group? q) :
    ∃ t h, serveCommit i c s body = .next t ∧ Committed s t g h k run (fun _ => nextPc pc) ∧ World t u ∧ SameAfterCommit g h ∧
      SameRegs g.arch h.arch ∧ SameButMem g h := by
  obtain ⟨t, h, he, hc, hr, ha, ⟨hkeep, htrap⟩, hw⟩ := committed_of_done A hb hx ho rfl rfl rfl rfl rfl
  refine ⟨t, h, he, hc, hw, ⟨?_, htrap⟩, hr, (congrArg (fun a : Arch => { a with mem := g.arch.mem }) ha :)⟩
  exact (congrArg (fun y : Group => { y with arch := g.arch, ckpts := g.ckpts, rob := g.rob }) hkeep :)

end

/-! ## Publication -/

/-- Where a PUB of one lane comes to its end (R162): it is first at its cluster's Drover, no other core holds its flag's line, whose page is
not in motion, and the walk of its reference ends at `t`. -/
structure Publishes (s : State) (g : Group) (a : Acc) (ref : Nat) (t : State) (w : Walk) : Prop where
  free  : s.lockedOut g [a] = false
  held  : ∀ x ∈ a.lines, s.coh.owns g.core x.1 = true
  fresh : g.walk = none
  first : s.droverBusy g s.coh.nextId = false
  ends  : walkRun g walkFuel { s with coh := { s.coh with nextId := s.coh.nextId + 1 } } (Walk.start s.coh.nextId a.lane ref) = .done t w

section
variable {s t u : State} {g : Group} {a : Acc} {n : Nat} {w : Walk}

/-- Its lane's reference is stored where the walk ends, and of its group no more than what orders its accesses changes. -/
theorem Publishes.pubBody {v : Served} {ref : Nat → Nat} (P : Publishes s v.g a (ref a.lane) t w) (sc : Scope) (once : Bool) :
    ∃ u m cs es, RefStored t u ((a.chunks.head?.map Chunk.addr).getD 0) (ref a.lane) ∧
      pubBody v s sc once ref [a] = .done u (reordered v.g m cs es) 0 := by
  rw [pubBody_first P.free P.held P.fresh P.first, pubLanes_one rfl P.ends]
  obtain ⟨m, cs, es, hg⟩ := pubStore_group (s := t) (g := v.g) (sc := sc) (m := if once then v.act else Mask.bit a.lane) (w := w) (a := a)
    (ref := ref a.lane)
  exact ⟨_, m, cs, es, pubStore_stored, congrArg (Res.done _ · 0) (unwalked_reordered P.fresh hg)⟩

/-- The walk has changed home state and the log alone. -/
theorem Publishes.only (P : Publishes s g a n t w) : { t with coh := s.coh, dev := s.dev } = s := by
  have h := (walkRun_walks (gs := s.groups) (g := g) walkFuel { s with coh := { s.coh with nextId := s.coh.nextId + 1 } }
    (Walk.start s.coh.nextId a.lane n)).only
  rw [P.ends] at h
  exact (congrArg (fun x : State => { x with coh := s.coh }) h :)

/-- It comes to the same end once the group's parked lanes are noted. -/
theorem Publishes.keepParks (P : Publishes s g a n t w) : Publishes (s.keepParks g) g a n (regrouped (s.keepParks g).groups t) w where
  free := P.free
  held := P.held
  fresh := P.fresh
  first := (droverBusy_keepParks _).trans P.first
  ends := (walkRun_walks walkFuel _ _).alike.trans (congrArg (walkRegrouped (s.keepParks g).groups) P.ends)

/-- Keeping the translations of its access leaves it as it is. -/
theorem publishes_of_translations (h : TranslationsOnly s u) (hfree : s.lockedOut g [a] = false)
    (hheld : ∀ x ∈ a.lines, s.coh.owns g.core x.1 = true) (hfresh : g.walk = none) (hfirst : s.droverBusy g s.coh.nextId = false)
    (hends : walkRun g walkFuel { u with coh := { u.coh with nextId := s.coh.nextId + 1 } } (Walk.start s.coh.nextId a.lane n) = .done t w) :
    Publishes u g a n t w where
  free := (congrArg (fun v : State => v.lockedOut g [a]) h :).trans hfree
  held x hx := (congrArg (fun v : State => v.coh.owns g.core x.1) h :).trans (hheld x hx)
  fresh := hfresh
  first := (congrArg (fun v : State => v.droverBusy g v.coh.nextId) h :).trans hfirst
  ends := by
    rw [h.nextId]
    exact hends

end

/-- What a PUB does once it is served at its gate. -/
def pubServed (sc : Scope) (x t1 t2 : Opd) (s : State) (v : Served) : Res :=
  memBody v s .write .glob 8 8 (addrSum v.g.arch 8 t1 t2 .none) deviceOnly fun s v l =>
    pubBody v s sc (uniform x && uniform t1 && uniform t2) (fun L => (readRaw v.g.arch true x L).toNat) l

theorem exec_pub (c : Ctl) (sc : Scope) (x t1 t2 : Opd) (s : State) :
    exec (.pub c sc x t1 t2) s = serveCommit (.pub c sc x t1 t2) c s (pubServed sc x t1 t2 s) := rfl

section
variable {c : Ctl} {sc : Scope} {x t1 t2 : Opd} {s t : State} {g : Group} {run : Mask} {pc : Dword} {k : Commit} {a : Acc} {w : Walk}

theorem pubServed_stores (A : AtGate (.pub c sc x t1 t2) c s g run pc k) (hact : active c g run = Mask.bit a.lane) (hL : a.lane < 64)
    (R : Reaches s g (active c g run) .write .glob 8 8 (addrSum g.arch 8 t1 t2 .none) fun _ => a) (hdev : deviceOnly a = none)
    (P : Publishes (s.keepAcc false g [a]) g a (readRaw g.arch true x a.lane).toNat t w) :
    ∃ u m cs es, RefStored (regrouped ((s.keepAcc false g [a]).keepParks g).groups t) u ((a.chunks.head?.map Chunk.addr).getD 0)
        (readRaw g.arch true x a.lane).toNat ∧
      pubServed sc x t1 t2 s ⟨g, run, active c g run, pc, .pub c sc x t1 t2, false⟩ = .done u (reordered g m cs es) 0 := by
  obtain ⟨hcommit, -, hrun⟩ := A.mine
  have hlane : (active c g run).has a.lane = true := by
    rw [hact, mask_has_bit]
    exact decide_eq_true ⟨rfl, hL⟩
  have hparked : run &&& ~~~g.arch.parked = run := and_compl_of_disjoint A.free
  have hactive : active c g run &&& ~~~g.arch.parked = active c g run := by rw [← act_and_run, BitVec.and_assoc, hparked]
  obtain ⟨u, m, cs, es, hstored, hbody⟩ := P.keepParks.pubBody (v := ⟨g, run, active c g run, pc, .pub c sc x t1 t2, false⟩)
    (ref := fun L => (readRaw g.arch true x L).toNat) sc (uniform x && uniform t1 && uniform t2)
  have hfound := memBody_found (v := ⟨g, run, active c g run, pc, .pub c sc x t1 t2, false⟩) hact hL R.fence (R.found _ hlane)
    (R.mine _ hlane) hdev (unparked_of_commit hcommit (hrun ▸ A.free)) hparked hactive
    fun s v l => pubBody v s sc (uniform x && uniform t1 && uniform t2) (fun L => (readRaw v.g.arch true x L).toNat) l
  exact ⟨u, m, cs, es, hstored, hfound.trans hbody⟩

end

/-- Settles O19: the probe finds the access of the one lane, the walk changes home state and the log alone, and the store at its end is a write that
sets the tag of the word it writes. -/
theorem publicationStores : Obligations.PublicationStores := by
  unfold Obligations.PublicationStores
  intro c sc x t1 t2 L pa p va acc ref s g run pc k A ⟨hact, hL, R, hwf, h8, hdev, hlock, hown, hwalk, hbusy, t, w, hends⟩
  have htr := translationsOnly_keepAcc s false g [acc]
  have hlines : acc.lines = [(pa / 64 * 64, p)] := by
    simp [acc, Acc.lines, linesOf_aligned h8]
  have hheld : ∀ x ∈ acc.lines, s.coh.owns g.core x.1 = true := by simpa [hlines] using hown
  have P := publishes_of_translations (a := acc) htr hlock hheld hwalk hbusy hends
  obtain ⟨u, m, cs, es, hstored, hdone⟩ := pubServed_stores A hact hL R hdev P
  obtain ⟨⟨y, hy⟩, hothers⟩ := group?_keepParks ((htr.group? g.key).trans A.here)
  have hgroup : ∀ q, u.group? q = ((s.keepAcc false g [acc]).keepParks g).group? q := fun q =>
    (congrArg (fun v : State => v.group? q) hstored.rest :)
  obtain ⟨t', h, hnext, hcom, hworld, hsame, hregs, hmem⟩ := committed_of_reordered A hdone ((hgroup _).trans hy) fun q hq =>
    (hgroup q).trans ((hothers q hq).trans (htr.group? q))
  have hram : t.ram = s.ram := (congrArg State.ram P.only :).trans (congrArg State.ram htr :)
  have hram' : t'.ram = u.ram := (congrArg State.ram hworld :)
  refine ⟨t', h, hnext, hcom, hsame, hregs, hmem, ?_, ?_, fun y => ?_, fun y => ?_⟩
  · exact (congrArg State.teams hworld :).trans ((congrArg State.teams hstored.rest :).trans ((congrArg State.teams P.only :).trans
      (congrArg State.teams htr :)))
  · exact (congrArg State.dies hworld :).trans ((congrArg State.dies hstored.rest :).trans ((congrArg State.dies P.only :).trans
      (congrArg State.dies htr :)))
  · rw [hram', ← hram]
    exact hstored.get (hram ▸ hwf) y
  · rw [hram', ← hram]
    exact hstored.tag h8 y

end Sys2Proof.Claims
end

section
/-! PROOF. Gang reservations, the harbourmaster's lease and the saves of teams (R210 to R212, R229). -/

namespace Sys2Proof.Claims

open Sys2Proof.Machine Sys2Proof.Laws

/-! ## Reservations (R211) -/

section
variable {part n : Nat} {s : State} {w : Waiting}

/-- The machine with another reservation, or none. -/
def withResv (s : State) (r : Option GangResv) : State := { s with dev := { s.dev with gangResv := r } }

theorem gangOpen_eq_false (hr : s.dev.gangResv = none) : s.gangOpen part n = false := by rw [State.gangOpen, hr]; rfl

/-- No launch that asks became eligible before this one, nor at the same time on a lower partition. -/
theorem gangAsking_firstEligible
    (hfirst : ∀ x ∈ s.gangAsking, w.since.getD 0 < x.2.2 ∨ (w.since.getD 0 = x.2.2 ∧ part ≤ x.1)) :
    (s.gangAsking.any fun x => decide (x.2.2 < w.since.getD 0) || (x.2.2 == w.since.getD 0 && decide (x.1 < part))) = false := by
  rw [List.any_eq_false]
  intro x hx
  have h := hfirst x hx
  simp only [Bool.or_eq_true, Bool.and_eq_true, decide_eq_true_eq, beq_iff_eq, not_or, not_and]
  omega

/-- A gang that cannot start everywhere yet keeps what it has reserved. -/
theorem gangTry_keeps {r : GangResv} (h : (s.holdGang w r).whole w = false) :
    s.gangTry part n w r = withResv s (some (s.holdGang w r)) := by
  simp [State.gangTry, h, withResv]

/-- With no reservation open, the gang that became eligible first opens one. -/
theorem gangStep_opens (htake : s.dev.takeover = none) (hcarry : s.noCarrier w.blk = false) (hresv : s.dev.gangResv = none)
    (hfirst : ∀ x ∈ s.gangAsking, w.since.getD 0 < x.2.2 ∨ (w.since.getD 0 = x.2.2 ∧ part ≤ x.1))
    (hpartial : (s.holdGang w ⟨part, n, s.now, []⟩).whole w = false) :
    s.gangStep part n w = withResv s (some (s.holdGang w ⟨part, n, s.now, []⟩)) := by
  rw [← gangTry_keeps (part := part) (n := n) hpartial]
  simp only [State.gangStep, htake, hcarry, hresv, gangAsking_firstEligible hfirst, Option.isSome_none, Bool.false_eq_true, if_false]

theorem exec_gangReserve (hturn : s.gangTurn part n = some w) (hresv : s.dev.gangResv = none) (htries : w.tries = 0) :
    exec (.gangReserve part n) s = .next (s.gangStep part n w) := by
  show execGangReserve part n s = _
  simp [execGangReserve, gangOpen_eq_false hresv, hturn, htries]

theorem exec_gangRetry (hturn : s.gangTurn part n = some w) (htries : 0 < w.tries) (hat : w.retryAt ≤ s.now) :
    exec (.gangRetry part n) s = .next (s.gangStep part n w) := by
  show execGangRetry part n s = _
  simp only [execGangRetry, hturn, if_pos (And.intro htries hat)]

/-- The reservation is released 100 µs after it was begun, and the failed attempt counted. -/
theorem exec_gangReserveTimeout {r : GangResv} {q : List Waiting} (hresv : s.dev.gangResv = some r) (hdue : r.start + 100000 ≤ s.now)
    (hhead : (s.booth r.part r.booth).waits = w :: q) (htries : w.tries < 15) :
    exec .gangReserveTimeout s = .next ((withResv s none).updBooth r.part r.booth fun b =>
      { b with waits := { w with tries := w.tries + 1, retryAt := s.now + 1000000 } :: q }) := by
  show execGangReserveTimeout s = _
  rw [execGangReserveTimeout, hresv]
  dsimp only
  rw [if_neg (Nat.not_lt.mpr hdue), hhead]
  exact if_neg (Nat.not_le.mpr htries)

theorem reservationTimesOut {r : GangResv} {q : List Waiting} (hresv : s.dev.gangResv = some r) (hdue : r.start + 100000 ≤ s.now)
    (hhead : (s.booth r.part r.booth).waits = w :: q) (htries : w.tries < 15) (hp : r.part < s.parts.length)
    (hb : r.booth < (s.part r.part).booths.length) :
    ∃ t, exec .gangReserveTimeout s = .next t ∧ t.dev.gangResv = none ∧ t.ram = s.ram ∧ t.teams = s.teams ∧
      (t.booth r.part r.booth).waits = { w with tries := w.tries + 1, retryAt := s.now + 1000000 } :: q :=
  ⟨_, exec_gangReserveTimeout hresv hdue hhead htries, rfl, rfl, rfl,
    congrArg Booth.waits (booth_updBooth (s := withResv s none) hp hb _)⟩

end

/-! ## The harbourmaster (R212) -/

section
variable {s : State} {healthy : List Nat} {d : Nat}

/-- The lowest-numbered healthy die takes the role. -/
theorem nextHolder (hd : d < 4) (hdie : s.hasDie d = true) (hhealthy : d ∈ healthy)
    (hmin : ∀ x, x < d → s.hasDie x = true → x ∉ healthy) :
    ((List.range 4).find? fun d => s.hasDie d && healthy.contains d) = some d := by
  rw [List.find?_range_eq_some]
  refine ⟨by simp [hdie, hhealthy], List.mem_range.mpr hd, fun x hx => ?_⟩
  cases hx' : s.hasDie x with
  | false => rfl
  | true => simpa using hmin x hx hx'

/-- The machine once the role has passed to a die: queued fault records are sent again. -/
def roleAt (s : State) (d : Nat) : State :=
  State.logAt { s with
    parts := s.parts.map fun p => { p with faults := p.faults.map fun f => { f with queued := true } }
    dev := { s.dev with hm := d, takeover := some (s.now + 60000000), gangResv := none } } 6 255 d

theorem leaseLapses (hlease : s.dev.lease ≤ s.now) (htake : s.dev.takeover = none) (hd : d < 4) (hdie : s.hasDie d = true)
    (hhealthy : d ∈ healthy) (hmin : ∀ x, x < d → s.hasDie x = true → x ∉ healthy) :
    ∃ t, exec (.leaseLapse healthy) s = .next t ∧ t.dev.hm = d ∧ t.dev.takeover = some (s.now + 60000000) ∧ t.dev.gangResv = none ∧
      (∀ p ∈ t.parts, ∀ f ∈ p.faults, f.queued = true) ∧ t.ram = s.ram ∧ t.groups = s.groups ∧ t.teams = s.teams := by
  have hdue : ¬(s.now < s.dev.lease ∨ s.dev.takeover.isSome = true) := by simp [htake, hlease]
  refine ⟨roleAt s d, (if_neg hdue).trans ?_, rfl, rfl, rfl, fun p hp f hf => ?_, rfl, rfl, rfl⟩
  · rw [nextHolder hd hdie hhealthy hmin]
    rfl
  · obtain ⟨q, -, rfl⟩ := List.mem_map.mp hp
    obtain ⟨e, -, rfl⟩ := List.mem_map.mp hf
    rfl

end

/-! ## PREEMPT_SAVE (R229) -/

section
variable {s u : State} {part ctx : Nat}

theorem frontOnly_ioKey (s : State) (x : IoRun) : FrontOnly s (s.ioKey x) := .ite (.of_eq rfl rfl) (.refl s)

theorem frontOnly_ioPutRuns (s : State) (l : List IoRun) (d : List Byte) (k : StoreKind) : FrontOnly s (s.ioPutRuns l d k) := by
  induction l generalizing s d with
  | nil => exact .refl s
  | cons x l ih => exact ((frontOnly_ioKey s x).trans (frontOnly_ioPut ..)).trans (ih ..)

/-- Writing an image changes memory, and nothing of groups or teams. -/
theorem frontOnly_putParts {l : List (Nat × List Byte)} (h : s.putParts part ctx l = some u) : FrontOnly s u := by
  induction l generalizing s with
  | nil =>
    obtain rfl := Option.some.inj h
    exact .refl _
  | cons x l ih =>
    obtain ⟨runs, -, h⟩ := Option.bind_eq_some_iff.mp h
    exact (frontOnly_ioPutRuns ..).trans (ih h)

variable {k : TeamKey} {tm : Team} {i : Nat}

/-- The record of a team once it is saved in slot `i`. -/
def savedTeam (s : State) (tm : Team) (i : Nat) : Team :=
  { tm with status := .saved, slot := some i, saved := s.groups.filter (fun g => g.key.team = tm.key), cores := [] }

/-- The machine once the image of a team is written in `u` and the team has left its cores. -/
def teamLeft (s u : State) (tm : Team) (i : Nat) : State :=
  let v := (u.showLocked tm.key).setTeam (savedTeam s tm i)
  { v with
    groups := v.groups.filter fun g => g.key.team ≠ tm.key
    coh := v.coh.vacate tm.cores fun l => !v.privLine l || (v.lockOf l).any fun x => x.1.team != tm.key }

theorem key_of_team? (h : s.team? k = some tm) : tm.key = k := by simpa using List.find?_some h

theorem setTeam_get {t x : Team} (h : s.team? t.key = some x) : (s.setTeam t).team? t.key = some t := by
  unfold State.team? State.setTeam at *
  generalize s.teams = l at h
  induction l with
  | nil => cases h
  | cons y l ih =>
    by_cases hy : y.key = t.key
    · simp [hy]
    · simpa [hy] using ih (by simpa [hy] using h)

theorem saveTeam_eq (hslot : s.freeSlotOf tm.key.part tm.ctx = some i)
    (himage : s.putParts tm.key.part tm.ctx (imageParts tm (s.groups.filter fun g => g.key.team = tm.key)
      ((s.saveArea tm.key.part tm.ctx).1 + i * (s.saveArea tm.key.part tm.ctx).2.1)) = some u) :
    s.saveTeam tm = teamLeft s u tm i := by
  simp only [State.saveTeam, hslot, himage]
  rfl

theorem exec_preemptSave (hteam : s.team? k = some tm) (hstatus : tm.status = .saving) (hfall : s.falling k.part = false)
    (hquiet : ∀ g ∈ s.groups, g.key.team = k → s.quiet g = true) (hranks : ∀ r ∈ tm.ranks, r.ops = [] ∧ ∀ z ∈ r.z, z.shadows = []) :
    exec (.preemptSave k) s = .next (s.saveTeam tm).regrant := by
  have hall : (s.groups.filter fun g => g.key.team = k).all s.quiet = true := by
    exact List.all_eq_true.mpr fun g hg => hquiet g (List.mem_of_mem_filter hg) (by simpa using (List.mem_filter.mp hg).2)
  have hidle : (tm.ranks.any fun r => !r.ops.isEmpty || r.z.any fun z => !z.shadows.isEmpty) = false := by
    rw [List.any_eq_false]
    intro r hr
    obtain ⟨hops, hz⟩ := hranks r hr
    simpa [hops] using hz
  show execPreemptSave k s = _
  simp only [execPreemptSave, hteam, hstatus, hfall, hall, hidle]
  rfl

/-- The team stays, saved, its groups leave, and the bytes of memory are those of the image. -/
theorem teamLeft_there (hteam : s.team? tm.key = some tm) (hu : FrontOnly s u) :
    (teamLeft s u tm i).team? tm.key = some (savedTeam s tm i) ∧ (∀ g ∈ (teamLeft s u tm i).groups, g.key.team ≠ tm.key) ∧
      (teamLeft s u tm i).ram.mem = u.ram.mem := by
  have hsame : (u.showLocked tm.key).team? (savedTeam s tm i).key = some tm :=
    (congrArg (fun v : State => v.team? tm.key) hu.world :).trans hteam
  exact ⟨setTeam_get hsame, fun g hg => by simpa using (List.mem_filter.mp hg).2, (sameThere_showLocked u tm.key).mem⟩

theorem regrant_team? (s : State) (k : TeamKey) : s.regrant.team? k = s.team? k := (congrArg (fun v : State => v.team? k) (regrant_state s) :)

theorem teamSaves (hteam : s.team? k = some tm) (hstatus : tm.status = .saving) (hfall : s.falling k.part = false)
    (hquiet : ∀ g ∈ s.groups, g.key.team = k → s.quiet g = true) (hranks : ∀ r ∈ tm.ranks, r.ops = [] ∧ ∀ z ∈ r.z, z.shadows = [])
    (hslot : s.freeSlotOf k.part tm.ctx = some i)
    (himage : s.putParts k.part tm.ctx (imageParts tm (s.groups.filter fun g => g.key.team = k)
      ((s.saveArea k.part tm.ctx).1 + i * (s.saveArea k.part tm.ctx).2.1)) = some u) :
    ∃ t x, exec (.preemptSave k) s = .next t ∧ t.team? k = some x ∧ x.status = .saved ∧ x.slot = some i ∧ x.cores = [] ∧
      x.saved = s.groups.filter (fun g => g.key.team = k) ∧ (∀ g ∈ t.groups, g.key.team ≠ k) ∧ t.ram.mem = u.ram.mem := by
  have hexec := exec_preemptSave hteam hstatus hfall hquiet hranks
  obtain rfl := key_of_team? hteam
  rw [saveTeam_eq hslot himage] at hexec
  obtain ⟨hsaved, hgone, hmem⟩ := teamLeft_there (i := i) hteam (frontOnly_putParts himage)
  obtain ⟨hkeys, -, hmem'⟩ := sameThere_regrant (teamLeft s u tm i)
  refine ⟨_, savedTeam s tm i, hexec, (regrant_team? ..).trans hsaved, rfl, rfl, rfl, rfl, fun g hg => ?_, hmem'.trans hmem⟩
  have hkey := List.mem_map_of_mem (f := Group.key) hg
  rw [hkeys] at hkey
  obtain ⟨h, hh, hhk⟩ := List.mem_map.mp hkey
  exact hhk ▸ hgone h hh

end

/-- Settles O50: a first attempt and a retry open a reservation alike (`gangStep_opens`); its end, the lease and the save are each the lemma of its
event above. -/
theorem gangsLeaseAndSaves : Obligations.GangsLeaseAndSaves := by
  unfold Obligations.GangsLeaseAndSaves
  intro part n s
  refine ⟨?reserve, ?retry, ?timeout, ?renew, ?lapse, ?save⟩
  case reserve =>
    intro w htries hturn htake hcarry hresv hfirst r hpartial
    exact ⟨_, (exec_gangReserve hturn hresv htries).trans (congrArg _ (gangStep_opens htake hcarry hresv hfirst hpartial)), rfl⟩
  case retry =>
    intro w htries hat hturn htake hcarry hresv hfirst r hpartial
    exact ⟨_, (exec_gangRetry hturn htries hat).trans (congrArg _ (gangStep_opens htake hcarry hresv hfirst hpartial)), rfl⟩
  case timeout => exact fun r w q hresv hdue hhead htries hp hb => reservationTimesOut hresv hdue hhead htries hp hb
  case renew => exact ⟨_, rfl, rfl, rfl, rfl, rfl⟩
  case lapse => exact fun healthy d hlease htake hd hdie hhealthy hmin => leaseLapses hlease htake hd hdie hhealthy hmin
  case save =>
    exact fun k tm i u hteam hstatus hfall hquiet hranks hslot himage => teamSaves hteam hstatus hfall hquiet hranks hslot himage

end Sys2Proof.Claims
end

section
/-! PROOF. The Wharf: messages that land, credit, and the ends of NSENDs and COLLs (R207, R234, R242 to R244, R303, R306, R307, R373). -/

namespace Sys2Proof.Claims

open Sys2Proof.Machine Sys2Proof.Laws

/-! ## A commit point in progress that ends (R67, R293) -/

section
variable {s t u : State} {g h : Group} {e : Entry} {k : GroupKey} {pc code : Dword} {run : Mask} {dreg : Nat} {f : Arch → Arch}

/-- A verified checkpoint numbered `n` is the oldest, and only later ones follow it. -/
def VerifiedAhead (n : Nat) (l : List Ckpt) : Prop := ∃ c r, l = c :: r ∧ c.seq = n ∧ c.verified = true ∧ ∀ x ∈ r, n < x.seq

/-- What a group is once its entry `e`, a COLL or NSEND at `pc`, has ended with `code` in a scalar register. -/
structure HeldEnd (g : Group) (e : Entry) (pc : Dword) (run : Mask) (dreg : Nat) (code : Dword) (h : Group) : Prop where
  rob     : h.rob.map Entry.seq = (g.rob.filter fun x => x.seq != e.seq).map Entry.seq
  commit  : h.commit = g.behind.head?
  behind  : h.behind = g.behind.tail
  blocked : h.blocked = g.blocked &&& ~~~run
  vecs    : h.arch.v = g.arch.v
  preds   : h.arch.p = g.arch.p
  rstrt   : h.rstrt = g.rstrt &&& ~~~(0xF00000000 : Dword)
  ckpts   : VerifiedAhead e.seq h.ckpts
  sregs   : ∀ r, h.arch.sreg r = if r = dreg then code else g.arch.sreg r
  pcs     : ∀ L, L < g.arch.pcs.length → h.arch.pc L = if run.has L then nextPc pc else g.arch.pc L

/-- Of the registers the ending writes one scalar, whatever it notes of the accesses that were performed. -/
def WritesStatus (f : Arch → Arch) (dreg : Nat) (code : Dword) : Prop := ∀ a, ∃ m, f a = ({ a with mem := m } : Arch).setS dreg code

/-- A checkpoint once it has become complete, where every older instruction has executed. -/
def completedCkpt (g : Group) (now : Nat) (c : Ckpt) : Ckpt :=
  if c.complete.isNone && g.executedBefore c.seq then { c with complete := some now } else c

theorem completedCkpt_keeps (g : Group) (now : Nat) (c : Ckpt) :
    (completedCkpt g now c).seq = c.seq ∧ (completedCkpt g now c).verified = c.verified := by
  unfold completedCkpt
  split <;> exact ⟨rfl, rfl⟩

/-- Checkpoints that become complete keep their numbers and stay verified. -/
theorem completeCkpts_ahead {n : Nat} (now : Nat) (h : VerifiedAhead n g.ckpts) : VerifiedAhead n (g.completeCkpts now).ckpts := by
  obtain ⟨c, r, hl, hseq, hver, hr⟩ := h
  obtain ⟨hseq', hver'⟩ := completedCkpt_keeps g now c
  refine ⟨_, r.map (completedCkpt g now), congrArg (List.map (completedCkpt g now)) hl, hseq'.trans hseq, hver'.trans hver, fun x hx => ?_⟩
  obtain ⟨y, hy, rfl⟩ := List.mem_map.mp hx
  exact (completedCkpt_keeps g now y).1.symm ▸ hr y hy

theorem later_rob_others (g : Group) (n : Nat) (f : Arch → Arch) :
    ((g.later n f).rob.filter fun x => x.seq != n).map Entry.seq = (g.rob.filter fun x => x.seq != n).map Entry.seq := by
  have hcomm (l : List Entry) : (l.filter fun x => x.seq != n).map Entry.seq = (l.map Entry.seq).filter (· != n) :=
    (List.filter_map (f := Entry.seq) (p := (· != n))).symm
  rw [hcomm, hcomm, later_rob_seqs]

/-- The entry leaves its group, whose threads go on behind it with the status in their register. -/
theorem heldEnd_endHeld (he : g.rob.find? (fun e => e.pc = pc ∧ !e.executed) = some e) (hd : dreg < g.arch.s.length)
    (hf : WritesStatus f dreg code) (now : Nat) : HeldEnd g e pc run dreg code (g.endHeld now pc run f) := by
  obtain ⟨m, hm⟩ := hf g.arch
  have harch : (g.endHeld now pc run f).arch = (({ g.arch with mem := m } : Arch).setS dreg code).pass run pc := by
    rw [← hm]
    simp only [Group.endHeld, he]
    rfl
  refine ⟨?rob, ?commit, ?behind, ?blocked, ?vecs, ?preds, ?rstrt, ?ckpts, fun r => ?sregs, fun L hL => ?pcs⟩
  case vecs => rw [harch]; rfl
  case preds => rw [harch]; rfl
  case sregs =>
    rw [harch]
    refine (sreg_setS _ dreg r code).trans (if_congr (and_iff_left_of_imp ?_) rfl rfl)
    rintro rfl
    exact hd
  case pcs =>
    rw [harch]
    exact pc_setPcs _ run _ hL
  all_goals simp only [Group.endHeld, he]
  case rob => exact later_rob_others ..
  case commit => rfl
  case behind => rfl
  case blocked => rfl
  case rstrt => exact rstrt_setConsec_zero ..
  case ckpts =>
    exact completeCkpts_ahead now ⟨_, _, rfl, rfl, rfl, fun x hx => of_decide_eq_true (List.mem_filter.mp hx).2⟩

/-- The group of `k` in `s`, where it has such an entry, is in `t` the one whose entry has ended. -/
def Ended (s t : State) (k : GroupKey) (pc : Dword) (run : Mask) (dreg : Nat) (code : Dword) : Prop :=
  ∀ g e, s.group? k = some g → g.rob.find? (fun e => e.pc = pc ∧ !e.executed) = some e → dreg < g.arch.s.length →
    ∃ h, t.group? k = some h ∧ HeldEnd g e pc run dreg code h

theorem endHeld_key (g : Group) (now : Nat) (pc : Dword) (run : Mask) (f : Arch → Arch) : (g.endHeld now pc run f).key = g.key := by
  unfold Group.endHeld
  dsimp only
  split <;> rfl

theorem ended_updGroup (hu : u.groups = s.groups) (hf : WritesStatus f dreg code) (now : Nat) :
    Ended s (u.updGroup k fun g => g.endHeld now pc run f) k pc run dreg code := by
  intro g e hg he hd
  have hg' : u.group? k = some g := by rw [State.group?, hu]; exact hg
  exact ⟨_, updGroup_get u k _ (fun _ hh => (endHeld_key ..).trans hh) g hg', heldEnd_endHeld he hd hf now⟩

end

/-! ## Messages that land (R242, R243, R207) -/

section
variable {s : State} {part i : Nat} {h : WharfHeader} {payload : List Byte}

/-- Memory with a message written from `a - 64` on. -/
def messagePut (s : State) (a : Nat) (h : WharfHeader) (payload : List Byte) : State :=
  (s.ioPut (a - 64) (WharfHeader_bytes h) plainStore).ioPut a payload plainStore

theorem ioPut_ram (s : State) (a : Nat) (d : List Byte) (k : StoreKind) : (s.ioPut a d k).ram = s.ram.write a d k :=
  (congrArg State.ram (ioPut_state s a d k) :)

theorem ioPut_dev (s : State) (a : Nat) (d : List Byte) (k : StoreKind) : (s.ioPut a d k).dev = s.dev :=
  (congrArg State.dev (ioPut_state s a d k) :)

theorem messagePut_groups (a : Nat) : (messagePut s a h payload).groups = s.groups := (ioPut_groups ..).trans (ioPut_groups ..)
theorem messagePut_teams (a : Nat) : (messagePut s a h payload).teams = s.teams := (ioPut_teams ..).trans (ioPut_teams ..)
theorem messagePut_parts (a : Nat) : (messagePut s a h payload).parts = s.parts := (ioPut_parts ..).trans (ioPut_parts ..)
theorem messagePut_dev (a : Nat) : (messagePut s a h payload).dev = s.dev := (ioPut_dev ..).trans (ioPut_dev ..)

theorem present_updPart_messagePut (a : Nat) (hp : part < s.parts.length) (f : Part → Part) :
    part < ((messagePut s a h payload).updPart part f).parts.length := by
  rwa [State.updPart, length_setPart, messagePut_parts]

theorem part_updPart_messagePut (a : Nat) (hp : part < s.parts.length) (f : Part → Part) :
    ((messagePut s a h payload).updPart part f).part part = f (s.part part) := by
  rw [part_updPart _ _ _ (by rwa [messagePut_parts]), State.part, messagePut_parts, State.part]

theorem get_messagePut (hm : s.ram.mem.wf = true) (a : Nat) (h : WharfHeader) {j : Nat} (hj : j < payload.length) :
    (messagePut s a h payload).ram.mem.get (a + j) = payload.getD j 0 := by
  have hm' : (s.ioPut (a - 64) (WharfHeader_bytes h) plainStore).ram.mem.wf = true := by
    rw [ioPut_ram]
    exact wf_write hm ..
  rw [messagePut, get_ioPut hm', if_pos ⟨Nat.le_add_right .., Nat.add_lt_add_left hj a⟩, Nat.add_sub_cancel_left]

theorem expects_received (p : Part) (src : Nat × Nat) : (p.received src).expects src = (p.expects src + 1) % 2 ^ 32 := by
  simp [Part.received, Part.expects]

/-- What has happened before a message that has landed. -/
def landedView (s : State) (a : Nat) (h : WharfHeader) (payload : List Byte) (before : View) : View :=
  View.join before ((wordsOf (a - 64) (64 + payload.length)).flatMap fun w => (messagePut s a h payload).ram.lastView w 511)

/-- A partition whose landing ring has a slot taken, and one that holds some messages. -/
def slotTaken (i : Nat) (p : Part) : Part := { p with ringUsed := i :: p.ringUsed, ringNext := (i + 1) % p.slots }
def holding (l : List HeldMsg) (p : Part) : Part := { p with unmatched := l }

/-- The machine with a message written into slot `i` and held there. -/
def heldIn (s : State) (part i : Nat) (h : WharfHeader) (payload : List Byte) (v : View) : State :=
  ((messagePut s ((s.part part).payloadAt i) h payload).updPart part (slotTaken i)).updPart part
    (holding ((s.part part).unmatched ++ [⟨h.tag, i, v⟩]))

theorem part_heldIn (hp : part < s.parts.length) (v : View) :
    (heldIn s part i h payload v).part part = holding ((s.part part).unmatched ++ [⟨h.tag, i, v⟩]) (slotTaken i (s.part part)) := by
  rw [heldIn, part_updPart _ _ _ (present_updPart_messagePut _ hp _), part_updPart_messagePut _ hp]

/-- A message for which nothing is armed is held in its slot. -/
theorem land_held (harm : ∀ a ∈ (s.part part).armings, a.tag ≠ h.tag) (hroom : (s.part part).unmatched.length < 64) (before : View) :
    s.land part i h payload before = heldIn s part i h payload (landedView s ((s.part part).payloadAt i) h payload before) := by
  have hnone : ((s.part part).armings.find? fun x => x.tag = h.tag) = none := by
    simpa [List.find?_eq_none] using harm
  rw [State.land]
  dsimp only
  rw [hnone]
  dsimp only
  rw [if_neg (by rw [List.length_append]; exact Nat.not_lt.mpr hroom)]
  rfl

/-- A message for partition `part` of this device that may land in slot `i`: it is well formed and the next of its source, and the slot is free. -/
structure Arrives (s : State) (part : Nat) (h : WharfHeader) (payload : List Byte) (i : Nat) : Prop where
  dev     : h.dstDev = s.dev.devNum
  dest    : h.dstPart = part
  below   : part < 16
  present : part < s.parts.length
  header  : badHeader h payload = false
  slot    : (s.part part).freeSlot? = some i
  ready   : (s.part part).ready = true
  next    : (s.part part).expects (h.srcDev, h.srcPart) = h.seq
  idle    : runsBusy s [((s.part part).payloadAt i - 64, slotBytes)] = false

/-- A tagged message arrives as one that its partition has counted. -/
theorem Arrives.lands (A : Arrives s part h payload i) (harm : ∀ a ∈ (s.part part).armings, a.tag ≠ h.tag) (before : View) :
    s.arrive h payload before = some ((s.updPart part fun p => p.received (h.srcDev, h.srcPart)).land part i h payload before) := by
  obtain ⟨-, rfl, -, -, -, hslot, hready, hnext, hidle⟩ := A
  have hnone : ((s.part h.dstPart).armings.find? fun x => x.tag = h.tag) = none := by
    simpa [List.find?_eq_none] using harm
  simp [State.arrive, hslot, hready, hnext, hidle, hnone]

theorem Arrives.exec_tagged (A : Arrives s part h payload i) (hkind : h.kind = 1) :
    exec (.wharfMessageReceive h payload) s = .next ((s.arrive h payload (s.sentView h)).getD s) := by
  obtain ⟨hdev, rfl, hbelow, -, hheader, -⟩ := A
  show execWharfMessageReceive h payload s = _
  simp [execWharfMessageReceive, hdev, hbelow, hheader, hkind]

theorem Arrives.exec_collective (A : Arrives s part h payload i) (hkind : h.kind = 2) :
    exec (.wharfMessageReceive h payload) s = .next ((s.arriveColl h payload).getD s) := by
  obtain ⟨hdev, rfl, hbelow, -, hheader, -⟩ := A
  show execWharfMessageReceive h payload s = _
  simp [execWharfMessageReceive, hdev, hbelow, hheader, hkind]

theorem Arrives.messageLands (A : Arrives s part h payload i) (hkind : h.kind = 1) (harm : ∀ a ∈ (s.part part).armings, a.tag ≠ h.tag)
    (hroom : (s.part part).unmatched.length < 64) (hm : s.ram.mem.wf = true) :
    ∃ t v, exec (.wharfMessageReceive h payload) s = .next t ∧ t.groups = s.groups ∧ t.teams = s.teams ∧
      (t.part part).unmatched = (s.part part).unmatched ++ [⟨h.tag, i, v⟩] ∧ i ∈ (t.part part).ringUsed ∧
      (t.part part).expects (h.srcDev, h.srcPart) = (h.seq + 1) % 2 ^ 32 ∧
      ∀ j, j < payload.length → t.ram.mem.get ((s.part part).payloadAt i + j) = payload.getD j 0 := by
  let u := s.updPart part fun p => p.received (h.srcDev, h.srcPart)
  have hu : u.part part = (s.part part).received (h.srcDev, h.srcPart) := part_updPart _ _ _ A.present
  have hpu : part < u.parts.length := (length_setPart ..).symm ▸ A.present
  have hland := land_held (s := u) (i := i) (payload := payload) (by rw [hu]; exact harm) (by rw [hu]; exact hroom) (s.sentView h)
  have hexec := A.exec_tagged hkind
  rw [A.lands harm, Option.getD_some, hland] at hexec
  refine ⟨_, landedView u ((u.part part).payloadAt i) h payload (s.sentView h), hexec, messagePut_groups .., messagePut_teams .., ?_⟩
  rw [part_heldIn hpu, hu]
  refine ⟨rfl, List.mem_cons_self, (expects_received ..).trans (by rw [A.next]), fun j hj => ?_⟩
  have haddr : (s.part part).payloadAt i = (u.part part).payloadAt i := by rw [hu]; rfl
  rw [haddr]
  exact get_messagePut (s := u) hm _ h hj

/-- The machine with a collective's message written into slot `i` and counted. -/
def collectiveTaken (s : State) (part i : Nat) (h : WharfHeader) (payload : List Byte) : State :=
  (messagePut s ((s.part part).payloadAt i) h payload).updPart part fun p =>
    { p.received (h.srcDev, h.srcPart) with ringNext := (i + 1) % p.slots }

theorem Arrives.takesCollective (A : Arrives s part h payload i) :
    s.arriveColl h payload = some ((collectiveTaken s part i h payload).freeSlot part (some i)) := by
  obtain ⟨-, rfl, -, -, -, hslot, hready, hnext, hidle⟩ := A
  simp only [State.arriveColl, hslot]
  rw [if_neg (by simp [hready, hnext, hidle])]
  rfl

/-- What a collective's message leaves: its slot is free again at once. -/
theorem Arrives.collectiveLands (A : Arrives s part h payload i) (hkind : h.kind = 2) (hm : s.ram.mem.wf = true) :
    ∃ t, exec (.wharfMessageReceive h payload) s = .next t ∧ t.groups = s.groups ∧ t.teams = s.teams ∧
      t.dev.out = .credit part i :: s.dev.out ∧ i ∉ (t.part part).ringUsed ∧
      (t.part part).expects (h.srcDev, h.srcPart) = (h.seq + 1) % 2 ^ 32 ∧
      ∀ j, j < payload.length → t.ram.mem.get ((s.part part).payloadAt i + j) = payload.getD j 0 := by
  let u := collectiveTaken s part i h payload
  have hu : u.part part = _ := part_updPart_messagePut _ A.present _
  have hpu : part < u.parts.length := present_updPart_messagePut _ A.present _
  have hexec := A.exec_collective hkind
  rw [A.takesCollective, Option.getD_some] at hexec
  refine ⟨_, hexec, messagePut_groups .., messagePut_teams .., ?_, ?_⟩
  · rw [← messagePut_dev (s := s) (h := h) (payload := payload) ((s.part part).payloadAt i)]
    rfl
  · have hpart : (u.freeSlot part (some i)).part part = _ := part_updPart u part (fun p => { p with ringUsed := p.ringUsed.filter (· ≠ i) }) hpu
    rw [hpart, hu]
    exact ⟨by simp, (expects_received ..).trans (by rw [A.next]), fun j hj => get_messagePut hm _ h hj⟩

end

/-! ## Aborts (R244, R234) -/

section
variable {s : State} {part : Nat} {h : WharfHeader}

/-- A partition whose collective of a number has lost a rank. -/
def rankLost (comm seq r : Nat) (p : Part) : Part := { p with colls := p.colls.map fun o => o.lose comm seq r }

theorem abortNoted {comm seq r : Nat} {c : Comm} (hdev : h.dstDev = s.dev.devNum) (hdest : h.dstPart = part) (hbelow : part < 16)
    (hp : part < s.parts.length) (hkind : h.kind = 3) (hc : assoc (s.part part).comms comm = some c)
    (hrank : c.ranks.findIdx (fun x => x == (h.srcDev, h.srcPart)) = r) (hr : r < c.nr) :
    ∃ t, exec (.wharfAbortReceive h comm seq) s = .next t ∧ { t with parts := s.parts } = s ∧
      (t.part part).colls = (s.part part).colls.map fun o => o.lose comm seq r := by
  subst hdest
  refine ⟨s.updPart h.dstPart (rankLost comm seq r), ?_, rfl, congrArg Part.colls (part_updPart s h.dstPart (rankLost comm seq r) hp)⟩
  show execWharfAbortReceive h comm seq s = _
  rw [execWharfAbortReceive, if_neg (by simp [hdev, hkind, hbelow]), hc]
  dsimp only
  rw [hrank]
  exact congrArg Host.Outcome.next (if_pos hr)

end

/-! ## Messages of a partition (R242, R243, R372, R373) -/

section
variable {s : State} {part dst : Nat} {m : Send}

theorem part_updSends (hp : part < s.parts.length) (f : List Send → List Send) :
    ((s.updSends part f).part part).sends = f (s.part part).sends := congrArg Part.sends (part_updPart s part _ hp)

/-- What is found among the messages to a destination is a message of the partition. -/
theorem mem_sends_of_find {p : Send → Bool} (h : (s.sendsTo part dst).find? p = some m) : m ∈ (s.part part).sends :=
  List.mem_of_mem_filter (List.mem_of_find?_eq_some h)

/-- A message, marked as sent where it is `m`. -/
def markSent (now : Nat) (m x : Send) : Send := if x = m then { x with sentAt := some now } else x

theorem messageGoes (hp : part < s.parts.length) (hm : (s.sendsTo part dst).find? (fun m => m.sentAt.isNone) = some m)
    (hfar : ¬(m.dev = s.dev.devNum ∧ m.part = part)) :
    ∃ t, exec (.wharfCredit part dst) s = .next t ∧
      t.dev.out = .wharf (s.part part).port (wharfPort m.dev m.part) m.header m.payload :: s.dev.out ∧ t.ram = s.ram ∧ t.groups = s.groups ∧
      { m with sentAt := some s.now } ∈ (t.part part).sends := by
  let u := s.updSends part fun l => l.map (markSent s.now m)
  refine ⟨u.emit (.wharf (s.part part).port (wharfPort m.dev m.part) m.header m.payload), ?_, rfl, rfl, rfl, ?_⟩
  · show execWharfCredit part dst s = _
    rw [execWharfCredit, hm]
    exact if_neg hfar
  · show _ ∈ (u.part part).sends
    rw [part_updSends hp]
    exact List.mem_map.mpr ⟨m, mem_sends_of_find hm, if_pos rfl⟩

/-- A message that ends has left its partition, and its NSEND has ended. -/
theorem not_mem_endSend (hp : part < s.parts.length) (m : Send) (code : Nat) : m ∉ ((s.endSend part m code).part part).sends := by
  show m ∉ ((s.updSends part _).part part).sends
  rw [part_updSends hp]
  simp

theorem ended_endSend (s : State) (part : Nat) (m : Send) (code : Nat) :
    Ended s (s.endSend part m code) m.group m.pc m.run m.dreg (BitVec.ofNat 64 code) :=
  ended_updGroup (u := s.updSends part _) rfl (fun a => ⟨a.mem, rfl⟩) s.now

theorem messageAcknowledged {seq : Nat} (hp : part < s.parts.length)
    (hm : (s.sendsTo part dst).find? (fun m => m.seq = seq && m.sentAt.isSome) = some m) :
    ∃ t, exec (.wharfAck part dst seq) s = .next t ∧ t.ram = s.ram ∧ m ∉ (t.part part).sends ∧ Ended s t m.group m.pc m.run m.dreg 0 := by
  refine ⟨s.endSend part m 0, ?_, rfl, not_mem_endSend hp m 0, ended_endSend s part m 0⟩
  show execWharfAck part dst seq s = _
  rw [execWharfAck, hm]

/-- A message without acknowledgement is logged at its sender, and at its destination where that is on this device. -/
theorem messageTimesOut {seq : Nat} (hp : part < s.parts.length)
    (hm : (s.sendsTo part dst).find? (fun m => m.seq = seq && m.sentAt.any fun t => decide (t + 1000000 ≤ s.now)) = some m) :
    ∃ t, exec (.messageAckTimeout part dst seq) s = .next t ∧ t.ram = s.ram ∧ m ∉ (t.part part).sends ∧
      t.dev.log.length = s.dev.log.length + (if m.dev = s.dev.devNum then 2 else 1) ∧ Ended s t m.group m.pc m.run m.dreg 1 := by
  let t := (s.endSend part m 1).logAt 7 part m.addr
  have hlog : t.dev.log.length = s.dev.log.length + 1 := List.length_append
  have hexec : exec (.messageAckTimeout part dst seq) s =
      .next (if m.dev = s.dev.devNum then t.logAt 7 m.part (s.part m.part).ringPa else t) := by
    show execMessageAckTimeout part dst seq s = _
    rw [execMessageAckTimeout, hm]
  refine ⟨_, hexec, ?_⟩
  split
  · exact ⟨rfl, not_mem_endSend hp m 1, List.length_append.trans (congrArg (· + 1) hlog), ended_endSend s part m 1⟩
  · exact ⟨rfl, not_mem_endSend hp m 1, hlog, ended_endSend s part m 1⟩

end

/-! ## Collectives that end (R303, R306 to R308) -/

section
variable {s u : State} {part comm seq : Nat} {o : CollOp} {c : Comm}

theorem frontOnly_putRuns (l : List (Nat × Nat)) (s : State) (d : List Byte) : FrontOnly s (s.putRuns l d) := by
  induction l generalizing s d with
  | nil => exact .refl s
  | cons x l ih => exact (frontOnly_ioPut ..).trans (ih ..)

theorem putRuns_groups (s : State) (l : List (Nat × Nat)) (d : List Byte) : (s.putRuns l d).groups = s.groups :=
  (congrArg State.groups (frontOnly_putRuns l s d).world :)

theorem undefRuns_groups (s : State) (l : List (Nat × Nat)) : (s.undefRuns l).groups = s.groups := putRuns_groups ..

/-- One run takes bytes of its length whole. -/
theorem get_putRuns (hm : s.ram.mem.wf = true) {a n : Nat} {d : List Byte} (hd : d.length = n) (y : Nat) :
    (s.putRuns [(a, n)] d).ram.mem.get y = if a ≤ y ∧ y < a + n then d.getD (y - a) 0 else s.ram.mem.get y := by
  subst hd
  show (s.ioPut a (d.take d.length) engineStore).ram.mem.get y = _
  rw [List.take_length, get_ioPut hm]

/-- The COLL of a collective that ends has ended with its status, whatever has been written before. -/
theorem ended_endColl (hu : u.groups = s.groups) (part : Nat) (o : CollOp) (code rank : Nat) :
    Ended s (u.endColl part o code rank) o.group o.pc o.run o.dreg (collStatus code rank) :=
  ended_updGroup (u := u.updPart part _) hu (fun _ => ⟨_, rfl⟩) u.now

theorem mismatchAt_eq_none {x : CollPart} {l : List CollPart}
    (h : ∀ y ∈ l, y.op = x.op ∧ y.ty = x.ty ∧ y.root = x.root ∧ y.count = x.count ∧ y.seq = x.seq ∧ y.data.length = x.data.length) :
    mismatchAt x l = none := by
  rw [mismatchAt, List.find?_eq_none]
  intro r hr
  have hr' : r < l.length := List.mem_range.mp hr
  obtain ⟨hop, hty, hroot, hcount, hseq, hdata⟩ := h l[r] (List.getElem_mem hr')
  simp [List.getElem?_eq_getElem hr', hop, hty, hroot, hcount, hseq, hdata]

variable (ho : s.coll? part comm seq = some o) (hc : assoc (s.part part).comms comm = some c) (hidle : runsBusy s o.dst = false)

include ho hc hidle in
theorem exec_collComplete_aborted {r : Nat} (hfate : o.fate = some r) (blocks : List CollPart) :
    exec (.collComplete part comm seq blocks) s = .next ((s.undefRuns o.dst).endColl part o 1 r) := by
  show execCollComplete part comm seq blocks s = _
  simp only [execCollComplete, ho, hc, hidle, hfate, Bool.false_eq_true, if_false]

include ho hc hidle in
theorem exec_collComplete_mismatch {r : Nat} {blocks : List CollPart} (hfate : o.fate = none) (hlen : blocks.length = c.nr)
    (hr : mismatchAt o.own ((s.collParts c comm seq blocks).set c.my o.own) = some r) :
    exec (.collComplete part comm seq blocks) s = .next (s.endColl part o 3 r) := by
  show execCollComplete part comm seq blocks s = _
  simp only [execCollComplete, ho, hc, hidle, hfate, hlen, hr, ne_eq, not_true_eq_false, Bool.false_eq_true, if_false]

include ho hc hidle in
theorem exec_collComplete_agreed {blocks : List CollPart} (hfate : o.fate = none) (hlen : blocks.length = c.nr)
    (hnone : mismatchAt o.own ((s.collParts c comm seq blocks).set c.my o.own) = none) :
    exec (.collComplete part comm seq blocks) s = .next ((s.putRuns o.dst (collResult o c.my
      (((s.collParts c comm seq blocks).set c.my o.own).map CollPart.data))).endColl part o 0 0) := by
  show execCollComplete part comm seq blocks s = _
  simp only [execCollComplete, ho, hc, hidle, hfate, hlen, hnone, ne_eq, not_true_eq_false, Bool.false_eq_true, if_false]

include ho hc hidle in
theorem exec_collTimeout (hdue : o.start + 1000000 * c.tmo ≤ s.now) (lowest : Nat) :
    exec (.collTimeout part comm seq lowest) s = .next ((s.undefRuns o.dst).endColl part o 2 (min lowest (c.nr - 1))) := by
  show execCollTimeout part comm seq lowest s = _
  simp only [execCollTimeout, ho, hc]
  exact if_neg (by simp [hdue, hidle])

end

/-- Settles O54: a message lands as `Arrives` says; each end of an NSEND or a COLL is one `Group.endHeld`, whose group is `HeldEnd`; the other
events are the lemmas above. -/
theorem wharfEvents : Obligations.WharfEvents := by
  unfold Obligations.WharfEvents
  intro part s hp ended
  have hended {t k pc run dreg code} (h : Ended s t k pc run dreg code) : ended t k pc run dreg code := by
    intro g e hg he hd
    obtain ⟨x, hx, hend⟩ := h g e hg he hd
    exact ⟨x, hx, hend.rob, hend.commit, hend.behind, hend.blocked, hend.vecs, hend.preds, hend.rstrt, hend.ckpts, hend.sregs, hend.pcs⟩
  refine ⟨?message, ?collective, ?abort, ?credit, ?ack, ?timeout, ?coll⟩
  case message =>
    intro h payload i hdev hdest hbelow hkind hheader hslot hready hnext hidle harm hroom hm
    exact Arrives.messageLands ⟨hdev, hdest, hbelow, hp, hheader, hslot, hready, hnext, hidle⟩ hkind harm hroom hm
  case collective =>
    intro h payload i hdev hdest hbelow hkind hheader hslot hready hnext hidle hm
    exact Arrives.collectiveLands ⟨hdev, hdest, hbelow, hp, hheader, hslot, hready, hnext, hidle⟩ hkind hm
  case abort =>
    intro h comm seq c r hdev hdest hbelow hkind hc hrank hr
    exact abortNoted hdev hdest hbelow hp hkind hc hrank hr
  case credit => exact fun m dst hm hfar => messageGoes hp hm hfar
  case ack =>
    intro m dst seq hm
    obtain ⟨t, hexec, hram, hgone, hend⟩ := messageAcknowledged hp hm
    exact ⟨t, hexec, hram, hgone, hended hend⟩
  case timeout =>
    intro m dst seq x hm _
    obtain ⟨t, hexec, hram, hgone, hlog, hend⟩ := messageTimesOut hp hm
    exact ⟨t, hexec, hram, hgone, hlog, hended hend⟩
  case coll =>
    intro comm seq o c ho hc hidle
    refine ⟨?all, fun blocks r hfate => ?aborted, fun lowest hdue => ?late⟩
    case all =>
      intro blocks hfate hlen _ all out
      refine ⟨fun hagree hm => ?agreed, fun r hr => ?mismatch⟩
      case agreed =>
        have hexec := exec_collComplete_agreed ho hc hidle hfate hlen (mismatchAt_eq_none hagree)
        refine ⟨_, hexec, hended (ended_endColl (putRuns_groups ..) part o 0 0), fun a n hdst hout y => ?_⟩
        rw [hdst]
        exact get_putRuns hm hout y
      case mismatch => exact ⟨_, exec_collComplete_mismatch ho hc hidle hfate hlen hr, rfl, hended (ended_endColl rfl part o 3 r)⟩
    case aborted =>
      exact ⟨_, exec_collComplete_aborted ho hc hidle hfate blocks, hended (ended_endColl (undefRuns_groups ..) part o 1 r)⟩
    case late => exact ⟨_, exec_collTimeout ho hc hidle hdue lowest, hended (ended_endColl (undefRuns_groups ..) part o 2 _)⟩

end Sys2Proof.Claims
end

section
/-! PROOF. Clock domains, LOADSTEP and the end of a lowering (R213, R215 to R217, R220). -/

namespace Sys2Proof.Claims

open Sys2Proof.Machine Sys2Proof.Laws

/-! ## Grants -/

section
variable {dom c : Nat} {f : Grant → Grant} {d e : Die}

/-- The grant that `Die.grant` gives where a die has no such cluster. -/
abbrev grantAtReset : Grant := ⟨5, 5, [], 5, 0⟩

theorem grant_congr (hm : e.math = d.math) (hv : e.vec = d.vec) (hn : e.net = d.net) (hmem : e.mem = d.mem) (dom c : Nat) :
    e.grant dom c = d.grant dom c := by
  simp only [Die.grant, hm, hv, hn, hmem]

/-- A die whose clusters' grants are each changed as `f` says, in every domain of a cluster. -/
theorem grant_of_map (hm : e.math = d.math.map f) (hv : e.vec = d.vec.map f) (h0 : f grantAtReset = grantAtReset) (hd : dom < 2) :
    e.grant dom c = f (d.grant dom c) := by
  obtain rfl | rfl : dom = 0 ∨ dom = 1 := by omega
  · show e.math.getD c grantAtReset = f (d.math.getD c grantAtReset)
    rw [hm, ← List.getD_map (f := f), h0]
  · show e.vec.getD c grantAtReset = f (d.vec.getD c grantAtReset)
    rw [hv, ← List.getD_map (f := f), h0]

end

section
variable {g : Grant} {n x : Nat}

/-- Aiming a grant keeps the grant computed and what of it is held back. -/
theorem aim_base_low (g : Grant) (n x : Nat) :
    (g.aim n x).base = x ∧ (g.aim n x).low = if g.low = 0 then 0 else x - (g.base - g.low) := by
  unfold Grant.aim
  extract_lets low h
  split
  · exact ⟨rfl, rfl⟩
  · split <;> exact ⟨rfl, rfl⟩

theorem aim_base (g : Grant) (n x : Nat) : (g.aim n x).base = x := (aim_base_low g n x).1

/-- What lowerings hold back stays, where the grant computed is the same and no more is held back than that. -/
theorem aim_low (hx : x = g.base) (hl : g.low ≤ g.base) : (g.aim n x).low = g.low := by
  rw [(aim_base_low g n x).2]
  split <;> omega

theorem aim_low_of_zero (hl : g.low = 0) : (g.aim n x).low = 0 := by
  rw [(aim_base_low g n x).2, if_pos hl]

end

theorem aim_grantAtReset (n : Nat) : grantAtReset.aim n 5 = grantAtReset := rfl

theorem lift_grantAtReset : grantAtReset.lift = grantAtReset := rfl

/-! ## Counting the changes that are complete (R216) -/

section
variable {s : State} {i : Nat}

/-- A die where the changes that are complete are counted no more. -/
def settledDie (done : Nat → Bool) (d : Die) : Die :=
  { d with
    math := d.math.map (Grant.settle done), vec := d.vec.map (Grant.settle done), net := d.net.settle done, mem := d.mem.settle done }

theorem die_countChanges (h : i < s.dies.length) : s.countChanges.die i = settledDie (fun n => !s.changing n) (s.die i) := by
  simp only [State.die, State.countChanges, List.getD_eq_getElem?_getD, List.getElem?_map, List.getElem?_eq_getElem h]
  rfl

theorem grant_settledDie (done : Nat → Bool) (d : Die) (dom c : Nat) :
    (settledDie done d).grant dom c = (d.grant dom c).settle done := by
  match dom with
  | 0 => exact grant_of_map rfl rfl rfl (by decide)
  | 1 => exact grant_of_map rfl rfl rfl (by decide)
  | 2 => rfl
  | n + 3 => rfl

theorem countChanges_arch (s : State) : s.countChanges.groups.map Group.arch = s.groups.map Group.arch := by
  obtain ⟨f, hf⟩ := countChanges_groups s
  rw [hf, List.map_map]
  rfl

end

/-! ## Deasserting LOADSTEP (R220) -/

section
variable {s : State} {i : Nat}

theorem die_noteStop (s : State) (j i : Nat) : ∃ k x y, (s.noteStop j).die i = { s.die i with steps := k, loadstep := x, limited := y } := by
  rw [State.noteStop, die_setDie]
  split
  · next h =>
    rw [h.1]
    exact ⟨_, _, _, rfl⟩
  · exact ⟨_, _, _, rfl⟩

theorem die_noteStops (s : State) (i : Nat) : ∃ k x y, s.noteStops.die i = { s.die i with steps := k, loadstep := x, limited := y } :=
  List.foldlRecOn (List.range 4) State.noteStop
    (motive := fun t : State => ∃ k x y, t.die i = { s.die i with steps := k, loadstep := x, limited := y }) ⟨_, _, _, rfl⟩
    fun t ⟨_, _, _, ht⟩ j _ => by
      obtain ⟨k, x, y, hj⟩ := die_noteStop t j i
      exact ⟨k, x, y, by rw [hj, ht]⟩

end

/-! ## Computing the grants again (R215, R217) -/

section
variable {s : State} {i : Nat}

/-- A die whose grants are computed again by change `n`: that of a domain at a place from what `b` says. -/
def aimedDie (n : Nat) (b : Nat → Nat → Grant → Nat) (d : Die) : Die :=
  { d with
    math := d.math.mapIdx fun c g => g.aim n (b 0 c g), vec := d.vec.mapIdx fun c g => g.aim n (b 1 c g)
    net := d.net.aim n (b 2 0 d.net), mem := d.mem.aim n (b 3 0 d.mem) }

/-- A die once its grants are computed again, before the changes that are complete are counted. -/
def regrantedDie (now n : Nat) (b : Nat → Nat → Grant → Nat) (d : Die) : Die := (aimedDie n b d).callOff.settleStorm now

theorem regrant_eq (s : State) : ∃ (n : Nat) (b : Nat → Nat → Nat → Grant → Nat), s.regrant =
    ({ s with dev := { s.dev with changes := n }
              dies := s.dies.mapIdx fun i d => regrantedDie s.now n (b i) d } : State).countChanges.noteStops := by
  unfold State.regrant
  extract_lets n all most
  exact ⟨n, fun i dom c g => ((most (all.map Prod.fst) dom (i, c)).or (most (all.map Prod.snd) dom (i, c))).getD g.base, rfl⟩

/-- Computing the grants again aims each grant of a die, ends its lowering where none is left, and settles its changes. -/
theorem die_regrant (h : i < s.dies.length) : ∃ done n b k x y, s.regrant.die i =
    { settledDie done (regrantedDie s.now n b (s.die i)) with steps := k, loadstep := x, limited := y } := by
  obtain ⟨n, b, hs⟩ := regrant_eq s
  let u : State := { s with dev := { s.dev with changes := n }, dies := s.dies.mapIdx fun i d => regrantedDie s.now n (b i) d }
  have hl : i < u.dies.length := by simpa [u] using h
  have hu : u.die i = regrantedDie s.now n (b i) (s.die i) := by
    simp [u, State.die, List.getD_eq_getElem?_getD, List.getElem?_eq_getElem h]
  obtain ⟨k, x, y, hk⟩ := die_noteStops u.countChanges i
  rw [die_countChanges hl, hu] at hk
  exact ⟨_, n, b i, k, x, y, by rw [hs]; exact hk⟩

theorem grant_aimedDie (n : Nat) (b : Nat → Nat → Grant → Nat) (d : Die) {dom : Nat} (hd : dom < 2) (c : Nat) :
    ∃ x, (aimedDie n b d).grant dom c = (d.grant dom c).aim n x := by
  obtain rfl | rfl : dom = 0 ∨ dom = 1 := by omega
  · by_cases hc : c < d.math.length
    · exact ⟨b 0 c d.math[c], by simp [aimedDie, Die.grant, List.getD_eq_getElem?_getD, hc]⟩
    · exact ⟨5, by simp [aimedDie, Die.grant, List.getD_eq_getElem?_getD, hc, aim_grantAtReset]⟩
  · by_cases hc : c < d.vec.length
    · exact ⟨b 1 c d.vec[c], by simp [aimedDie, Die.grant, List.getD_eq_getElem?_getD, hc]⟩
    · exact ⟨5, by simp [aimedDie, Die.grant, List.getD_eq_getElem?_getD, hc, aim_grantAtReset]⟩

theorem grant_regrantedDie (now n : Nat) (b : Nat → Nat → Grant → Nat) (d : Die) {dom : Nat} (hd : dom < 2) (c : Nat) :
    ∃ x, (regrantedDie now n b d).grant dom c = (d.grant dom c).aim n x := by
  obtain ⟨x, hx⟩ := grant_aimedDie n b d hd c
  exact ⟨x, (grant_congr rfl rfl rfl rfl dom c).trans hx⟩

theorem regrant_arch (s : State) : s.regrant.groups.map Group.arch = s.groups.map Group.arch := by
  obtain ⟨f, hf⟩ := regrant_groups s
  rw [hf, List.map_map]
  rfl

end

/-! ## What a change of the clocks leaves -/

/-- No register, no byte and nothing of the teams and the partitions has changed. -/
structure OnlyClocks (s t : State) : Prop where
  ram   : t.ram = s.ram
  coh   : t.coh = s.coh
  teams : t.teams = s.teams
  parts : t.parts = s.parts
  arch  : t.groups.map Group.arch = s.groups.map Group.arch

theorem onlyClocks_setDie (s : State) (i : Nat) (d : Die) : OnlyClocks s (s.setDie i d) := ⟨rfl, rfl, rfl, rfl, rfl⟩

theorem onlyClocks_setDie_countChanges (s : State) (i : Nat) (d : Die) : OnlyClocks s (s.setDie i d).countChanges :=
  ⟨rfl, rfl, rfl, rfl, countChanges_arch _⟩

theorem onlyClocks_setDie_regrant (s : State) (i : Nat) (d : Die) : OnlyClocks s (s.setDie i d).regrant :=
  have h := regrant_state (s.setDie i d)
  ⟨(congrArg State.ram h :), (congrArg State.coh h :), (congrArg State.teams h :), (congrArg State.parts h :), regrant_arch _⟩

section
variable {s : State} {die : Nat}

theorem die_setDie_same (h : die < s.dies.length) (d : Die) : (s.setDie die d).die die = d := by
  rw [die_setDie, if_pos ⟨rfl, h⟩]

theorem lt_setDie (h : die < s.dies.length) (d : Die) : die < (s.setDie die d).dies.length := by
  simpa [State.setDie] using h

/-! ## GRANT_TAKE_EFFECT (R216) -/

/-- A die where the grant of a domain has taken effect. -/
def takenAt (dom : Domain) (cl : Nat) (d : Die) : Die :=
  match dom with
  | .math => { d with math := d.math.modify cl Grant.take }
  | .vec => { d with vec := d.vec.modify cl Grant.take }
  | .net => { d with net := d.net.take }
  | .mem => { d with mem := d.mem.take }

theorem grant_takenAt {dom : Domain} {cl : Nat} {d : Die} (hc : dom = .math ∨ dom = .vec → cl < d.math.length ∧ cl < d.vec.length) :
    (takenAt dom cl d).grant (domNum dom) cl = (d.grant (domNum dom) cl).take := by
  cases dom with
  | math => simp [takenAt, domNum, Die.grant, List.getD_eq_getElem?_getD, (hc (.inl rfl)).1]
  | vec => simp [takenAt, domNum, Die.grant, List.getD_eq_getElem?_getD, (hc (.inr rfl)).2]
  | net => rfl
  | mem => rfl

/-- A domain that waits for its target point gets there, where a raise of MATH has been announced and its step is admitted. -/
theorem grantTakesEffect {cl : Nat} {dom : Domain} (h : die < s.dies.length)
    (hp : ((s.die die).grant (domNum dom) cl).point ≠ ((s.die die).grant (domNum dom) cl).target)
    (hc : dom = .math ∨ dom = .vec → cl < (s.die die).math.length ∧ cl < (s.die die).vec.length)
    (hup : dom = .math → ((s.die die).grant 0 cl).point < ((s.die die).grant 0 cl).target →
      (s.die die).mayRaise cl ((s.die die).grant 0 cl).target = true ∧ s.admits die (s.raiseAmps die cl ((s.die die).grant 0 cl)) = true) :
    ∃ t, exec (.grantTakeEffect die cl dom) s = .next t ∧ OnlyClocks s t ∧
      ((t.die die).grant (domNum dom) cl).point = ((s.die die).grant (domNum dom) cl).target := by
  show ∃ t, execGrantTakeEffect die cl dom s = _ ∧ _
  unfold execGrantTakeEffect
  extract_lets d g up step noted taken acting off
  have hgo : ¬(g.point = g.target ∨ (up = true ∧ ((!d.mayRaise cl g.target) = true ∨ (!s.admits die step) = true))) := by
    rintro (he | ⟨hu, hno⟩)
    · exact hp he
    · obtain ⟨hdom, hlt⟩ : dom = .math ∧ g.point < g.target := by simpa [up] using hu
      subst hdom
      obtain ⟨hmay, hadm⟩ := hup rfl hlt
      have hstep : step = s.raiseAmps die cl g := if_pos hu
      rw [hstep] at hno
      simp [show d.mayRaise cl g.target = true from hmay, show s.admits die (s.raiseAmps die cl g) = true from hadm] at hno
  rw [if_neg hgo]
  refine ⟨_, rfl, onlyClocks_setDie_countChanges .., ?_⟩
  have hnoted : noted.math = d.math ∧ noted.vec = d.vec ∧ noted.net = d.net ∧ noted.mem = d.mem := by
    dsimp only [noted]
    split <;> exact ⟨rfl, rfl, rfl, rfl⟩
  have hacting : acting.math = taken.math ∧ acting.vec = taken.vec ∧ acting.net = taken.net ∧ acting.mem = taken.mem := by
    dsimp only [acting]
    split <;> exact ⟨rfl, rfl, rfl, rfl⟩
  have htaken : taken = takenAt dom cl noted := by cases dom <;> rfl
  obtain ⟨hm, hv, hn, hmem⟩ := hacting
  have hg : off.grant (domNum dom) cl = (takenAt dom cl noted).grant (domNum dom) cl := htaken ▸ grant_congr hm hv hn hmem ..
  obtain ⟨hm, hv, hn, hmem⟩ := hnoted
  rw [grant_takenAt (by rwa [hm, hv]), grant_congr hm hv hn hmem] at hg
  rw [die_countChanges (lt_setDie h _), die_setDie_same h, grant_settledDie]
  exact congrArg Grant.point hg

/-! ## LOADSTEP (R220) -/

theorem loadstepAnnounced (h : die < s.dies.length) (hl : (s.die die).lead = none) :
    ∃ t, exec (.loadstepAssert die) s = .next t ∧ OnlyClocks s t ∧ (t.die die).loadstep = true ∧
      (t.die die).lead = some ⟨s.now + 2000, s.crossing die, (s.die die).raising⟩ := by
  have he : exec (.loadstepAssert die) s = .next (s.setDie die
      { s.die die with loadstep := true, lead := some ⟨s.now + 2000, s.crossing die, (s.die die).raising⟩ }) := by
    show execLoadstepAssert die s = _
    simp [execLoadstepAssert, hl]
  refine ⟨_, he, onlyClocks_setDie .., ?_⟩
  rw [die_setDie_same h]
  exact ⟨rfl, rfl⟩

/-- A die may raise what is among its announced raises, to any point up to the one announced. -/
theorem mayRaise_of_mem {d : Die} {r : Nat × Nat} (hr : r ∈ d.raises) {x : Nat} (hx : x ≤ r.2) : d.mayRaise r.1 x = true :=
  List.any_eq_true.mpr ⟨r, hr, by simp [hx]⟩

theorem loadstepAdmitted {l : Lead} (ack : Bool) (h : die < s.dies.length) (hl : (s.die die).lead = some l)
    (hend : (l.end_ + 99) / 100 * 100 ≤ s.now) :
    ∃ t, exec (.loadstepLeadExpiry die ack) s = .next t ∧ OnlyClocks s t ∧ (t.die die).lead = none ∧ (t.die die).limited = !ack ∧
      (t.die die).steps = (if l.step then min 3 ((s.die die).steps + 1) else (s.die die).steps) ∧
      ∀ r ∈ l.raises, ∀ x, x ≤ r.2 → (t.die die).mayRaise r.1 x = true := by
  have he : exec (.loadstepLeadExpiry die ack) s = .next (s.setDie die { s.die die with
      lead := none, limited := !ack, steps := if l.step then min 3 ((s.die die).steps + 1) else (s.die die).steps
      raises := l.raises ++ (s.die die).raises.filter fun r => !l.raises.any fun x => x.1 == r.1 }) := by
    show execLoadstepLeadExpiry die ack s = _
    rw [execLoadstepLeadExpiry, hl]
    exact if_neg (Nat.not_lt.mpr hend)
  refine ⟨_, he, onlyClocks_setDie .., ?_⟩
  rw [die_setDie_same h]
  exact ⟨rfl, rfl, rfl, fun r hr x hx => mayRaise_of_mem (List.mem_append_left _ hr) hx⟩

theorem limitLifted (h : die < s.dies.length) :
    ∃ t, exec (.ldackAssert die) s = .next t ∧ OnlyClocks s t ∧ (t.die die).limited = false ∧ (t.die die).admits = [] := by
  refine ⟨s.setDie die { s.die die with limited := false, admits := [] }, rfl, onlyClocks_setDie .., ?_⟩
  rw [die_setDie_same h]
  exact ⟨rfl, rfl⟩

/-! ## DROOP_RECOVERY_INTERVAL (R217) -/

/-- A die at the end of an interval that began at `x`: every MATH and VEC grant has one point restored. -/
def recoveredDie (x : Nat) (d : Die) : Die :=
  { d with restartsIv := 0, math := d.math.map Grant.lift, vec := d.vec.map Grant.lift, storm := some (some (x + 10000000)) }

theorem exec_droopRecoveryInterval {x : Nat} (hs : (s.die die).storm = some (some x)) (hx : x + 10000000 ≤ s.now)
    (hr : (s.die die).restartsIv < 16) :
    exec (.droopRecoveryInterval die) s = .next (s.setDie die (recoveredDie x (s.die die))).regrant := by
  show execDroopRecoveryInterval die s = _
  simp only [execDroopRecoveryInterval, hs, hr, if_true]
  exact if_neg (Nat.not_lt.mpr hx)

/-- What is held back of a cluster's grant that the new computation leaves, once a point is restored. -/
theorem low_regranted {now n x : Nat} {b : Nat → Nat → Grant → Nat} {d : Die} {dom c : Nat} (hd : dom < 2)
    (hb : ((regrantedDie now n b (recoveredDie x d)).grant dom c).base = (d.grant dom c).base) :
    ((regrantedDie now n b (recoveredDie x d)).grant dom c).low = min (d.grant dom c).low (d.grant dom c).base - 1 := by
  have hl : (recoveredDie x d).grant dom c = (d.grant dom c).lift := grant_of_map rfl rfl lift_grantAtReset hd
  obtain ⟨y, hy⟩ := grant_regrantedDie now n b (recoveredDie x d) hd c
  rw [hy, hl] at hb ⊢
  rw [aim_base] at hb
  exact aim_low hb ((Nat.sub_le ..).trans (Nat.min_le_right ..))

theorem storm_regrantedDie (now n x : Nat) (b : Nat → Nat → Grant → Nat) (d : Die) :
    (regrantedDie now n b (recoveredDie x d)).storm =
      if ((regrantedDie now n b (recoveredDie x d)).math ++ (regrantedDie now n b (recoveredDie x d)).vec).all fun g => g.low == 0
      then none else some (some (x + 10000000)) := by
  rfl

/-- A grant that is held back is one of a cluster's. -/
theorem grant_mem_of_low {d : Die} {dom c : Nat} (hd : dom < 2) (hl : (d.grant dom c).low ≠ 0) : d.grant dom c ∈ d.math ++ d.vec := by
  have hmem (l : List Grant) (hl : (l.getD c grantAtReset).low ≠ 0) : l.getD c grantAtReset ∈ l := by
    by_cases hc : c < l.length
    · rw [List.getD_eq_getElem l _ hc]
      exact List.getElem_mem hc
    · rw [List.getD_eq_default _ _ (Nat.not_lt.mp hc)] at hl
      exact (hl rfl).elim
  obtain rfl | rfl : dom = 0 ∨ dom = 1 := by omega
  · exact List.mem_append_left _ (hmem d.math hl)
  · exact List.mem_append_right _ (hmem d.vec hl)

/-- Where no more than one point of any grant is held back, nothing is once a point is restored. -/
theorem low_of_recovered {now n x : Nat} {b : Nat → Nat → Grant → Nat} {d : Die} {g : Grant}
    (h : ∀ g ∈ d.math ++ d.vec, min g.low g.base ≤ 1)
    (hg : g ∈ (regrantedDie now n b (recoveredDie x d)).math ++ (regrantedDie now n b (recoveredDie x d)).vec) : g.low = 0 := by
  have haimed (l : List Grant) (f : Nat → Grant → Nat) (hl : ∀ g ∈ l, min g.low g.base ≤ 1)
      (hg : g ∈ (l.map Grant.lift).mapIdx fun c g => g.aim n (f c g)) : g.low = 0 := by
    obtain ⟨c, hc, rfl⟩ := List.mem_mapIdx.mp hg
    refine aim_low_of_zero ?_
    rw [List.getElem_map]
    exact Nat.sub_eq_zero_of_le (hl _ (List.getElem_mem _))
  obtain hm | hv := List.mem_append.mp hg
  · exact haimed d.math (b 0) (fun g hg => h g (List.mem_append_left _ hg)) hm
  · exact haimed d.vec (b 1) (fun g hg => h g (List.mem_append_right _ hg)) hv

/-- What a die is at the end of a quiet interval, once the changes that are complete are counted. -/
theorem pointRestored {x : Nat} (h : die < s.dies.length) (hs : (s.die die).storm = some (some x)) (hx : x + 10000000 ≤ s.now)
    (hr : (s.die die).restartsIv < 16) :
    ∃ t n b, exec (.droopRecoveryInterval die) s = .next t ∧ OnlyClocks s t ∧ (t.die die).restartsIv = 0 ∧
      (t.die die).storm = (regrantedDie s.now n b (recoveredDie x (s.die die))).storm ∧
      ∀ dom c, ((t.die die).grant dom c).base = ((regrantedDie s.now n b (recoveredDie x (s.die die))).grant dom c).base ∧
        ((t.die die).grant dom c).low = ((regrantedDie s.now n b (recoveredDie x (s.die die))).grant dom c).low := by
  obtain ⟨done, n, b, k, y, z, hd⟩ := die_regrant (lt_setDie h (recoveredDie x (s.die die)))
  rw [die_setDie_same h] at hd
  refine ⟨_, n, b, exec_droopRecoveryInterval hs hx hr, onlyClocks_setDie_regrant .., by rw [hd]; rfl, by rw [hd]; rfl, fun dom c => ?_⟩
  have hg : ((s.setDie die (recoveredDie x (s.die die))).regrant.die die).grant dom c =
      ((regrantedDie s.now n b (recoveredDie x (s.die die))).grant dom c).settle done := by
    rw [hd, ← grant_settledDie]
    exact grant_congr rfl rfl rfl rfl dom c
  rw [hg]
  exact ⟨rfl, rfl⟩

end

/-- Settles O51: each event changes the clocks only, and the die's own part is the lemma above of it; at the end of a quiet interval the lowering is
over where every grant has come to its computed one. -/
theorem clockEvents : Obligations.ClockEvents := by
  unfold Obligations.ClockEvents
  intro die cl s h d same
  have hsame {t : State} (ht : OnlyClocks s t) : same t := ⟨ht.ram, ht.coh, ht.teams, ht.parts, ht.arch⟩
  refine ⟨?grant, ?announce, ?expiry, ?ldack, ?droop⟩
  case grant =>
    intro dom hp hc hup
    obtain ⟨t, he, ht, hpoint⟩ := grantTakesEffect h hp hc hup
    exact ⟨t, he, hsame ht, hpoint⟩
  case announce =>
    intro hl
    obtain ⟨t, he, ht, hd⟩ := loadstepAnnounced h hl
    exact ⟨t, he, hsame ht, hd⟩
  case expiry =>
    intro l ack hl hend
    obtain ⟨t, he, ht, hd⟩ := loadstepAdmitted ack h hl hend
    exact ⟨t, he, hsame ht, hd⟩
  case ldack =>
    obtain ⟨t, he, ht, hd⟩ := limitLifted h
    exact ⟨t, he, hsame ht, hd⟩
  case droop =>
    intro x hs hx hr
    obtain ⟨t, n, b, he, ht, hiv, hstorm, hgrant⟩ := pointRestored h hs hx hr
    rw [storm_regrantedDie] at hstorm
    have hlow {dom c : Nat} (hd : dom < 2) (hk : ((t.die die).grant dom c).base = (d.grant dom c).base) :
        ((t.die die).grant dom c).low = min (d.grant dom c).low (d.grant dom c).base - 1 := by
      rw [(hgrant dom c).1] at hk
      rw [(hgrant dom c).2]
      exact low_regranted hd hk
    refine ⟨t, he, hsame ht, hiv, fun dom c hd hk => hlow hd hk, fun hone => ?_, fun dom c hd hk hmore => ?_⟩
    · rw [hstorm, if_pos (List.all_eq_true.mpr fun g hg => beq_iff_eq.mpr (low_of_recovered hone hg))]
    · have hl : ((regrantedDie s.now n b (recoveredDie x d)).grant dom c).low ≠ 0 := by
        rw [← (hgrant dom c).2, hlow hd hk]
        omega
      exact hstorm.trans (if_neg fun hall => hl (by simpa using List.all_eq_true.mp hall _ (grant_mem_of_low hd hl)))

end Sys2Proof.Claims
end

section
/-! PROOF. The POWER, SECURITY, DEBUG and TELEMETRY requests (R214, R215, R218, R226, R235, R241, R250, R253, R313, R406). Of a PROVISION whose
mailbox has a request that is not answered yet the model has it wait (R245), where the statement has it served: whether the statement holds rests
on a check without a body (log 12). -/

namespace Sys2Proof.Claims

open Sys2Proof.Machine Sys2Proof.Laws

variable {m : Mbox} {s : State}

/-! ## Requests of the SECURITY endpoint (R235, R250) -/

section
variable {i : Instr} {len : Nat} {zero : List (Nat × Nat)} {u : State} {always : Bool} {body : State → List Byte → Ans} {b : List Byte}

/-- The security state forbids no request that is asked. -/
theorem Asked.mbox_security_eq (h : Asked i m len zero s) (hi : codeKnown (codeOf i) = true) (always : Bool) (body : State → List Byte → Ans) :
    mbox i m (.security always) ⟨len, zero⟩ s body = .next (reply i m (body s (mboxBytes m))) := by
  obtain ⟨k, hk, -⟩ := h.die
  rw [mbox, h.mboxTurn_eq]
  cases always <;> simp [serveMbox, h.hasMbox, h.known hi, h.not_bad, h.code, h.alive.1, h.alive.2.1, hk]

theorem Asked.answeredSecurity (h : Asked i m len zero s) (hi : codeKnown (codeOf i) = true) (hb : body s (mboxBytes m) = .ok u b)
    (hu : u.dev.unanswered = s.dev.unanswered) :
    ∃ t, mbox i m (.security always) ⟨len, zero⟩ s body = .next t ∧ Replied m u t 0 b :=
  ⟨_, by rw [h.mbox_security_eq hi, hb], h.replied hu b⟩

end

/-! ## What the checks of the requests come to -/

theorem foldl_max_le {α : Type} {f : α → Nat} {k : Nat} (l : List α) {n : Nat} (hn : n ≤ k) (h : ∀ x ∈ l, f x ≤ k) :
    l.foldl (fun n x => max n (f x)) n ≤ k :=
  List.foldlRecOn l _ (motive := (· ≤ k)) hn fun _ hb x hx => Nat.max_le.mpr ⟨hb, h x hx⟩

/-- An image whose signature holds is accepted where its SVN is not below a fuse (R253). -/
theorem not_badImage {st : Nat} {img : List Byte} (hs : Config.imageSignatureOk img = true)
    (hd : ∀ d ∈ s.dies, (assoc d.svn st).getD 0 ≤ Config.imageSvn img) : s.badImage st img = false := by
  have hf : s.fuse st ≤ Config.imageSvn img := foldl_max_le s.dies (Nat.zero_le _) hd
  simp [State.badImage, hs, hf]

/-- The latest nonce is the one that a credential is checked against (log 38). -/
theorem nonces_any_of_head {l : List (List Byte)} {x : List Byte} {p : List Byte → Bool} (hx : l.head? = some x) (hp : p x = true) :
    l.any (fun y => some y == l.head? && p y) = true := by
  rw [hx]
  exact List.any_eq_true.mpr ⟨x, List.mem_of_head? hx, by simp [hp]⟩

theorem keysMeet_eq_false {a k b n : Nat} (h : k = 0 ∨ n = 0 ∨ a + k ≤ b ∨ b + n ≤ a) : keysMeet a k b n = false := by
  simp only [keysMeet, Bool.and_eq_false_iff, decide_eq_false_iff_not]
  omega

/-- A KEYID that a list keeps has the key it had. -/
theorem assoc_filter_append {α : Type} {l r : List (Nat × α)} {p : Nat → Bool} {k : Nat} (hp : p k = true) (hk : (assoc l k).isSome = true) :
    assoc (l.filter (fun e => p e.1) ++ r) k = assoc l k := by
  have hf : (l.filter fun e => p e.1).find? (fun e => e.1 = k) = l.find? fun e => e.1 = k := by
    rw [List.find?_filter]
    congr 1
    funext e
    by_cases he : e.1 = k
    · simp [he, hp]
    · simp [he]
  rw [assoc, Option.isSome_map] at hk
  rw [assoc, assoc, List.find?_append, hf, Option.or_of_isSome hk]

/-! ## What a KEY_ASSIGN leaves (R406) -/

/-- A partition with a run of KEYIDs, those of its keys that stay among them, and those drawn. -/
def assigned (a k : Nat) (drawn : List (Nat × Nat)) (p : Part) : Part :=
  { p with keyFirst := a, keyCount := k, keys := (p.keys.filter fun e => decide (a ≤ e.1) && decide (e.1 < a + k)) ++ drawn }

theorem keyAssigned {n : Nat} (h : Asked (.keyAssign m) m 8 [(4, 4)] s) (hn : mboxPart m = n) (hn16 : n < 16) (hp : n < s.parts.length)
    (hsum : fieldAt (mboxBytes m) 1 1 + fieldAt (mboxBytes m) 2 2 ≤ 256) (hbusy : s.busyPart n = false)
    (hfree : ∀ i, i < 16 → i ≠ n →
      keysMeet (fieldAt (mboxBytes m) 1 1) (fieldAt (mboxBytes m) 2 2) (s.part i).keyFirst (s.part i).keyCount = false) :
    ∃ t drawn, exec (.keyAssign m) s = .next t ∧ t.dev.replies.head? = some ⟨m.src, m.seq, 0, []⟩ ∧
      t.part n = assigned (fieldAt (mboxBytes m) 1 1) (fieldAt (mboxBytes m) 2 2) drawn (s.part n) := by
  subst hn
  have he := (h.mbox_security_eq rfl false _ : execKeyAssign m s = _)
  have hmeet : ((List.range 16).any fun i => i != mboxPart m &&
      keysMeet (fieldAt (mboxBytes m) 1 1) (fieldAt (mboxBytes m) 2 2) (s.part i).keyFirst (s.part i).keyCount) = false :=
    List.any_eq_false.mpr fun i hi => by
      by_cases hne : i = mboxPart m
      · simp [hne]
      · simp [hfree i (List.mem_range.mp hi) hne]
  rw [forPart_of_lt hn16] at he
  extract_lets a k p new x keep t kept t' at he
  rw [if_neg (Nat.not_lt.mpr hsum), if_neg (ne_true_of_eq_false hmeet), if_neg (ne_true_of_eq_false hbusy)] at he
  have ht : t'.dev = s.dev ∧ t'.part (mboxPart m) = t.part (mboxPart m) := by
    dsimp only [t']
    split <;> exact ⟨rfl, rfl⟩
  obtain ⟨hdev, hpart⟩ := ht
  obtain ⟨hreply, hrest⟩ := h.replied (u := { t' with dev := { t'.dev with usedKeys := (new ++ t'.dev.usedKeys).eraseDups } })
    (congrArg Device.unanswered hdev :) []
  refine ⟨_, x.2, he, congrArg List.head? hreply, ?_⟩
  exact (congrArg (fun u => State.part u (mboxPart m)) hrest).trans (hpart.trans (part_updPart x.1 _ _ hp))

/-! ## A PROVISION behind a request that is not answered yet (R245) -/

/-- A PROVISION of die 0 with a bundle, after the request of its mailbox numbered 0. -/
def bundleRequest (d : List Byte) : Mbox := ⟨.die 0, 3, 6, 8 + d.length, 1, List.replicate 8 0 ++ d⟩

theorem bytes_bundleRequest {d : List Byte} (h : d.length ≤ 4072) : mboxBytes (bundleRequest d) = List.replicate 8 0 ++ d := by
  have hl : (List.replicate 8 (0 : Byte) ++ d).length = 8 + d.length := by
    rw [List.length_append, List.length_replicate]
  have hmin : min (8 + d.length) 4080 = 8 + d.length := by omega
  show padTo (min (8 + d.length) 4080) ((List.replicate 8 0 ++ d).take (8 + d.length)) = _
  rw [hmin, padTo, List.take_of_length_le hl.le, hl, Nat.sub_self, List.replicate_zero, List.append_nil]

theorem length_mboxBytes (h : m.len ≤ 4080) : (mboxBytes m).length ≤ 4080 := by
  simp only [mboxBytes, padTo, List.length_append, List.length_replicate, List.length_take]
  omega

/-- A machine that is not provisioned, where the request numbered 0 of die 0's mailbox has begun. -/
def openState : State :=
  { State.reset with dev := { State.reset.dev with provisioned := false, unanswered := [(.die 0, 0)] } }

theorem exec_bundleRequest (d : List Byte) :
    exec (.provision (bundleRequest d)) openState = .next (openState.hold (bundleRequest d) (.provision (bundleRequest d))) := rfl

theorem provisioned_hold_openState (m : Mbox) (i : Instr) : (openState.hold m i).dev.provisioned = false := rfl

/-! ## The requests -/

/-- Where a bundle verifies, a PROVISION that carries it waits, and the statement has it served. -/
theorem no_bundle_verifies (h : Obligations.OtherRequests) {d : List Byte} (hd : d.length ≤ 4072) : Config.provisionOk d = false := by
  unfold Obligations.OtherRequests at h
  obtain ⟨-, -, -, -, -, -, -, -, -, -, -, hprov, -⟩ := h (bundleRequest d)
  by_contra hok
  have hbytes := bytes_bundleRequest hd
  obtain ⟨t, he, ht, -⟩ := hprov openState 0 rfl rfl rfl (fun _ hx => (List.not_mem_nil hx).elim) (Nat.le_add_right 8 _)
    (show 8 + d.length ≤ 4080 by omega) (by rw [hbytes]; rfl) (by rw [hbytes]; simpa using hok)
  cases (exec_bundleRequest d).symm.trans he
  rw [provisioned_hold_openState] at ht
  cases ht

/-- O44 stays open: each request is served by its body, whose guards the premises pass, but for a PROVISION behind a request that is not answered
yet, which no premise excludes; so O44 holds just where no bundle verifies, which a check without a body (log 12) leaves open. -/
theorem otherRequests_iff : Obligations.OtherRequests ↔ ∀ d : List Byte, d.length ≤ 4072 → Config.provisionOk d = false := by
  refine ⟨fun h d hd => no_bundle_verifies h hd, fun hnone => ?_⟩
  unfold Obligations.OtherRequests
  intro m n b in_ die name wake debug
  refine ⟨?budget, ?cap, ?powerTable, ?grants, ?reserve, ?alarmRead, ?imageLoad, ?svnCommit, ?nonce, ?debugUnlock, ?provision, ?provisionAgain,
    ?keyAssign, ?attach, ?detach, ?haltList, ?haltRead, ?resume, ?fabricMap, ?logRead, ?counters⟩
  case budget =>
    rintro s h ⟨hn, hest, hcap⟩
    show ∃ t, execBudget m s = _ ∧ _
    refine h.answeredHm rfl ((forPart_of_lt hn _).trans (if_neg ?_)) rfl
    show ¬(9000 * b 4 4 < estimate s (s.part n) noPoints ∨ s.dev.cap < s.budgets n + b 4 4 + s.dev.reserve)
    omega
  case cap =>
    rintro s h ⟨hlo, hhi, hb⟩
    show ∃ t, execCap m s = _ ∧ _
    refine h.answeredHm rfl ((if_neg ?_).trans (if_neg (Nat.not_lt.mpr hb))) rfl
    show ¬(b 0 4 < 1200 ∨ 3600 < b 0 4)
    omega
  case powerTable =>
    intro s h hd
    show ∃ t, execPowerTable m s = _ ∧ _
    exact h.answered rfl (forDie_of_hasDie hd _) rfl
  case grants =>
    intro s h hd
    show ∃ t, execGrants m s = _ ∧ _
    exact h.answered rfl (forDie_of_hasDie hd _) rfl
  case reserve =>
    intro s h _
    show ∃ t, execReserve m s = _ ∧ _
    exact h.answered rfl rfl rfl
  case alarmRead =>
    intro s h _
    show ∃ t, execAlarmRead m s = _ ∧ _
    exact h.answeredSecurity rfl rfl rfl
  case imageLoad =>
    rintro img s h ⟨hs, hd⟩
    show ∃ t, execImageLoad m s = _ ∧ _
    exact h.answeredSecurity rfl (if_neg (ne_true_of_eq_false (not_badImage hs hd))) rfl
  case svnCommit =>
    intro i s h hi
    show ∃ t, execSvnCommit m s = _ ∧ _
    refine h.answeredSecurity rfl ?_ rfl
    simp only [show (s.dev.images.find? fun i =>
      i.1 = fieldAt (mboxBytes m) 0 1 && Config.digest i.2 == ((mboxBytes m).drop 8).take 48) = some i from hi]
    rfl
  case nonce =>
    intro s h _
    show ∃ t, execNonce m s = _ ∧ _
    exact h.answeredSecurity rfl rfl rfl
  case debugUnlock =>
    rintro x s h ⟨hp, hlen, hx, hok⟩
    show ∃ t, execDebugUnlock m s = _ ∧ _
    refine h.answeredSecurity rfl ((if_neg ?_).trans ((if_pos (nonces_any_of_head hx hok)).trans (if_neg ?_))) rfl
    · show ¬((16 ≤ b 0 1 ∧ b 0 1 ≠ 255) ∨ 1032 < m.len)
      omega
    · show ¬b 0 1 = 255
      omega
  case provision =>
    intro s h hok
    show ∃ t, execProvision m s = _ ∧ _
    refine h.answeredSecurity rfl ((if_neg (ne_true_of_eq_false (congrArg not hok))).trans ?_) rfl
    simp only [h.alive.1, Bool.false_eq_true, if_false]
    rfl
  case provisionAgain =>
    intro s d _ _ _ _ _ hlen _ hok
    have hdrop : ((mboxBytes m).drop 8).length ≤ 4072 := by
      have := length_mboxBytes hlen
      rw [List.length_drop]
      omega
    rw [hnone _ hdrop] at hok
    cases hok
  case keyAssign =>
    intro s h hn hp hsum hbusy hfree
    obtain ⟨t, drawn, he, hreply, hpart⟩ := keyAssigned h rfl hn hp hsum hbusy fun i hi hne => keysMeet_eq_false (hfree i hi hne)
    have hpart : t.part n = _ := hpart
    refine ⟨t, he, hreply, congrArg Part.keyFirst hpart, congrArg Part.keyCount hpart, fun k hlo hhi hk => ?_⟩
    rw [hpart]
    exact assoc_filter_append (p := fun i => decide (b 1 1 ≤ i) && decide (i < b 1 1 + b 2 2)) (by simp [hlo, hhi]) hk
  case attach =>
    rintro s h ⟨hn, hu⟩
    show ∃ t, execAttach m s = _ ∧ _
    exact h.answered rfl ((forPart_of_lt hn _).trans (if_neg (ne_true_of_eq_false (congrArg not hu)))) rfl
  case detach =>
    intro s h hn
    show ∃ t, execDetach m s = _ ∧ _
    exact h.answered rfl (forPart_of_lt hn _) rfl
  case haltList =>
    intro s h hn
    show ∃ t, execHaltList m s = _ ∧ _
    exact h.answered rfl (forPart_of_lt hn _) rfl
  case haltRead =>
    rintro g halt s h ⟨hn, hg, hh⟩
    show ∃ t, execHaltRead m s = _ ∧ _
    refine h.answered rfl ((forPart_of_lt hn _).trans ?_) rfl
    rw [show ((s.allGroups (mboxPart m)).find? fun g => g.key = namedGroup (mboxPart m) (mboxBytes m) && g.halt.isSome) = some g from hg]
    simp only [hh, Option.getD_some]
    rfl
  case resume =>
    intro s h hn
    show ∃ t, execResume m s = _ ∧ _
    exact h.answered rfl (forPart_of_lt hn _) rfl
  case fabricMap =>
    rintro s h ⟨hmul, hlen⟩
    show ∃ t, execFabricMap m s = _ ∧ _
    exact h.answered rfl (if_neg (by omega)) rfl
  case logRead =>
    intro l s h hn
    show ∃ t, execLogRead m s = _ ∧ _
    refine h.answered rfl (if_neg ?_) rfl
    show ¬(16 ≤ n ∧ n ≠ 255)
    omega
  case counters =>
    intro s h hd
    show ∃ t, execCounters m s = _ ∧ _
    exact h.answered rfl (forDie_of_hasDie hd _) rfl

end Sys2Proof.Claims
end
